-- ==== Sys2Proof/Word.lean ====
section
/-! DEFINITION. The word types of the 7320 (00_scope.md "Conventions", R193): bytes and tags of the link,
24-bit audio samples, the 48-bit house counter and the 40-bit frame index. -/

namespace Sys2Proof

/-- A byte of a message, or of a stored group of the delay memory. -/
abbrev Byte := BitVec 8

/-- An audio sample, 24-bit two's complement; silence is 0 (00_scope.md "Samples"). -/
abbrev Sample := BitVec 24

/-- A value of the 48-bit house counter (R1). -/
abbrev Time := BitVec 48

/-- A 40-bit frame index (R2). -/
abbrev FrameIndex := BitVec 40

/-- The state of one channel's weighting filter: two second-order stages in cascade, each with two
state values (R70). The unit of the values is not the spec's: log entry 9. -/
structure FilterState where
  lowCutA : Int
  lowCutB : Int
  shelfA : Int
  shelfB : Int
  deriving DecidableEq, Repr, Inhabited

/-- The coefficients of a second-order stage, b₀ + b₁z⁻¹ + b₂z⁻² over 1 + a₁z⁻¹ + a₂z⁻². -/
structure Stage where
  b0 : Int
  b1 : Int
  b2 : Int
  a1 : Int
  a2 : Int
  deriving DecidableEq, Repr, Inhabited

/-- The coefficients of the weighting filter (R70), each in units of 2⁻ᵇⁱᵗˢ. Log entry 9. -/
structure Weighting where
  bits : Nat
  lowCut : Stage
  shelf : Stage
  deriving DecidableEq, Repr, Inhabited

/-- A coefficient set of an interpolator (R38): for each phase the coefficients of the frames nearest the read position,
the earliest first, in units of 2⁻ᵇⁱᵗˢ. Log entry 10. -/
structure Interpolator where
  bits : Nat
  phases : List (List Int)
  deriving DecidableEq, Repr, Inhabited

end Sys2Proof
end

