-- ==== Sys2Proof/Config.lean ====
section
/-! DEFINITION. What the spec leaves open: constants without a body. Nothing can be proved about their
values; a statement that holds of the model holds for every value of them. -/

namespace Sys2Proof.Config

/-- The part's revision number, "fixed in the part" (R188), whose value the spec does not give. Log entry 8. -/
opaque revision : Byte

/-- R38: the interpolator's coefficient set for a lane class code: "fixed for each class", "not set out here". A set
that does not meet R38's response is not the part's (`interpolator` in Machine/Interpolator.lean). Log entry 10. -/
opaque interpolators : Nat → Interpolator

/-- R70: the weighting filter's coefficients, "not set out here". Those that do not meet R70's response are not the
part's (`weighting` in Machine/Weighting.lean). Log entry 9. -/
opaque weightingCoefficients : Weighting

/-- R70: whether an inexact value inside the weighting filter, a numerator over 2ᵇⁱᵗˢ, is carried as the value above
it. Log entry 9. -/
opaque weighRoundsUp : Int → Nat → Bool

/-- R71: the carried floating form has "at least 40 significant bits": how many more it has. Log entry 11. -/
opaque extraPowerBits : Nat

/-- R71: whether an inexact numerator / denominator is carried as the value above it. Log entry 11. -/
opaque powerRoundsUp : Nat → Nat → Bool

/-- R193: whether a power that does not fit the 23-bit fraction of a report is reported as the value above it.
Log entry 11. -/
opaque reportRoundsUp : Nat → Nat → Bool

/-- R193: the 32-bit form of a power below 2⁻¹²⁶, the least whose exponent field is not 0; the spec gives no form
there. Log entry 11. -/
opaque tinyPowerForm : Nat → Nat → BitVec 32

/-- R38: what the interpolator's 32 house samples of latency give out before the first sample computed since reading
began, for a lane, a house counter value and a slot. Log entry 10. -/
opaque startUpSample : Nat → Nat → Nat → Sample

/-- R62, R124: whether an inexact product of a sample and a level/480 is taken as the value above it; the spec
does not say how the faded sample is rounded. Log entry 12. -/
opaque fadeRoundsUp : Int → Nat → Bool

/-- R111: how many of a page's 600 groups have been written when its fill is abandoned, for a value of the house counter
and a page. Log entry 48. -/
opaque groupsFilled : Nat → Nat → Nat

/-- R198: the byte at a place of a report that the spec fills only when the thing reported is there, for a value of
the house counter and a place. Log entry 13. -/
opaque unstatedByte : Nat → Nat → Byte

/-- R47, R198: the two-byte lock run count of a report once the count has passed 65,535. Log entry 14. -/
opaque longLockRun : Nat → BitVec 16

end Sys2Proof.Config
end

