-- ==== Sys2Proof/Syntax.lean ====
section
/-! DEFINITION. The commands of the 7320: one constructor of `Instr` for each row of spec/opcode_table.json.
A row that is a request of the control link carries the tag and the body fields of its frame (R197, R198) at
their wire widths, so that a value outside its list can be sent and refused. A row that is an event of the
part names the subject it happens to. -/

namespace Sys2Proof

/-- A reference input (1.2). -/
inductive RefInput where
  | a
  | b
  deriving DecidableEq, Repr, Inhabited

/-- One channel entry of a DEFINE_PROGRAM body, 5 bytes (R197). -/
structure ChannelDef where
  role : Byte
  primary : Byte
  backup : Byte
  mode : Byte
  egress : Byte
  deriving DecidableEq, Repr, Inhabited

/-- The nine settings of a SET_LOUDNESS body after the program and the mode (R197), as they stand on the wire. -/
structure LoudnessFields where
  target : BitVec 16
  maxBoost : BitVec 16
  maxAttenuation : BitVec 16
  upSlew : BitVec 16
  downSlew : BitVec 16
  holdDepth : BitVec 16
  window : BitVec 16
  manualTrim : BitVec 16
  lookAhead : BitVec 32
  deriving DecidableEq, Repr, Inhabited

/-- The fields of a SET_DELAY body after the program (R126, R197). -/
structure DelayFields where
  value : BitVec 32
  unit : Byte
  changeMode : Byte
  retrimMode : Byte
  slewRate : Byte
  autoLimit : BitVec 16
  deriving DecidableEq, Repr, Inhabited

/-- The fields of a SET_ALARM_KIND body after the kind (R154, R198). -/
structure KindFields where
  mode : Byte
  priority : Byte
  raiseCode : Byte
  clearCode : Byte
  retryCode : Byte
  level : BitVec 16
  count : Byte
  deriving DecidableEq, Repr, Inhabited

/-- The fields of a SET_SUMMARY_OUTPUT body after the output (R170, R198). -/
structure SummaryFields where
  kinds : BitVec 16
  ceiling : Byte
  filter : Byte
  polarity : Byte
  enable : Byte
  deriving DecidableEq, Repr, Inhabited

/-- The fields of a SET_CONTACT body after the input (R172, R198). -/
structure ContactFields where
  function : Byte
  polarity : Byte
  programs : BitVec 16
  sense : Byte
  deriving DecidableEq, Repr, Inhabited

/-- A failure of one byte of the attached DRAM (chapter 6: "DRAM can fail, a bit at a time"). `stuck` is a cell
that reads as `value` from then on whatever is written to it; otherwise the stored byte changes once. -/
structure DramFault where
  address : Nat
  value : Byte
  stuck : Bool
  deriving DecidableEq, Repr, Inhabited

/-- What the memory sizing finds (R106). -/
inductive Device where
  | none
  | mib64
  | mib128
  deriving DecidableEq, Repr, Inhabited

/-- The request kinds of R195 with the body fields of R197 and R198. -/
inductive Request where
  | identify
  | readStatus
  | restart
  | cancel (target : Byte)
  | schedule (due : FrameIndex) (kind : Byte) (inner : List Byte)
  | readSchedule
  | setTimebase (rate preference revertive holdCode : Byte)
  | readTime
  | setLane (lane enable admission holdCode : Byte)
  | laneAdmit (lane : Byte)
  | laneRestart (lane : Byte)
  | readLane (lane : Byte)
  | defineProgram (program : Byte) (maxDelay : BitVec 16) (channels : List ChannelDef)
  | start (program : Byte)
  | stop (program : Byte)
  | release (program : Byte)
  | selectSource (program channel mode : Byte)
  | setChannelSource (program channel primary backup : Byte)
  | readProgram (program : Byte)
  | setLoudness (program mode : Byte) (fields : LoudnessFields)
  | resetIntegration (program : Byte)
  | pauseIntegration (program : Byte)
  | resumeIntegration (program : Byte)
  | readLoudness (program ringFlag : Byte)
  | setDelay (program : Byte) (fields : DelayFields)
  | readDelay (program : Byte)
  | checkMemory
  | readPool (start : BitVec 16)
  | muteProgram (program flag : Byte)
  | readOutput (program : Byte)
  | setAlarmKind (kind : Byte) (fields : KindFields)
  | ackAlarm (point : Byte)
  | clearProtection (point : Byte)
  | readAlarm (point : Byte)
  | readAlarmList (start maximum : Byte)
  | setSummaryOutput (output : Byte) (fields : SummaryFields)
  | setContact (input : Byte) (fields : ContactFields)
  | readContacts
  deriving DecidableEq, Repr, Inhabited

/-- The commands: one constructor per row of spec/opcode_table.json, in the table's order. -/
inductive Instr where
  /-- POWER_ON_RESET: the level read from the link rate strap (high: 921,600 bit/s). -/
  | powerOnReset (highRate : Bool)
  /-- HOUSE_SAMPLE_TICK: the levels at which the four contact pins stand in the new house sample, and the DRAM
  cells that fail in it. -/
  | houseSampleTick (pins : BitVec 4) (faults : List DramFault)
  | frameBoundary
  /-- REFERENCE_PULSE: the input, and whether the pulse carries the cadence marker. -/
  | referencePulse (input : RefInput) (marked : Bool)
  | realignFrameTimeout
  | referenceLost (input : RefInput)
  | referenceHoldExpiry
  | revertTimerExpiry
  | setTimebase (tag rate preference revertive holdCode : Byte)
  | readTime (tag : Byte)
  | schedule (tag : Byte) (due : FrameIndex) (kind : Byte) (inner : List Byte)
  | readSchedule (tag : Byte)
  | cancel (tag target : Byte)
  /-- LANE_FRAME_START: the lane, its sixteen slot samples, the status bit and the block-start marker. -/
  | laneFrameStart (lane : Fin 4) (slots : List Sample) (status marker : Bool)
  | laneClockLost (lane : Fin 4)
  | classificationWindowEnd (lane : Fin 4)
  | controlInstant (lane : Fin 4)
  | lockCriterionMet (lane : Fin 4)
  | pinRunLimit (lane : Fin 4)
  | lockFadeInEnd (lane : Fin 4)
  | slipStep (lane : Fin 4)
  | slipFadeInEnd (lane : Fin 4)
  | holdoverExpiry (lane : Fin 4)
  | returnWindowEnd (lane : Fin 4)
  | setLane (tag lane enable admission holdCode : Byte)
  | laneAdmit (tag lane : Byte)
  | laneRestart (tag lane : Byte)
  | readLane (tag lane : Byte)
  | defineProgram (tag program : Byte) (maxDelay : BitVec 16) (channels : List ChannelDef)
  | start (tag program : Byte)
  | stop (tag program : Byte)
  | onAirFadeEnd (program : Fin 16)
  | release (tag program : Byte)
  | selectSource (tag program channel mode : Byte)
  | setChannelSource (tag program channel primary backup : Byte)
  | readProgram (tag program : Byte)
  | changeoverSwitch (program : Fin 16) (channel : Fin 8)
  | changeoverEnd (program : Fin 16) (channel : Fin 8)
  | zeroFillPageEnd
  /-- MEMORY_SIZING_END: what the sizing has found attached. -/
  | memorySizingEnd (device : Device)
  | checkMemory (tag : Byte)
  | pageTestEnd
  | readPool (tag : Byte) (first : BitVec 16)
  | blockEnd
  | gainEntryDue (program : Fin 16)
  | gainRampEnd (program : Fin 16)
  | resetIntegration (tag program : Byte)
  | pauseIntegration (tag program : Byte)
  | resumeIntegration (tag program : Byte)
  | readLoudness (tag program ringFlag : Byte)
  | setLoudness (tag program mode : Byte) (fields : LoudnessFields)
  | setDelay (tag program : Byte) (fields : DelayFields)
  | trimStep (program : Fin 16) (channel : Fin 8)
  | trimStepEnd (program : Fin 16) (channel : Fin 8)
  | cutJump (program : Fin 16)
  | cutInEnd (program : Fin 16)
  | slewArrival (program : Fin 16)
  | bypassSwitch (program : Fin 16)
  | readDelay (tag program : Byte)
  | muteProgram (tag program flag : Byte)
  | muteFadeEnd (program : Fin 16)
  | overCountReached (program : Fin 16) (channel : Fin 8)
  | readOutput (tag program : Byte)
  | alarmBoundary
  | eventPointRest (point : Fin 118)
  | filterRise (point : Fin 118)
  | filterFall (point : Fin 118)
  | retryExpiry (point : Fin 118)
  | setAlarmKind (tag kind : Byte) (fields : KindFields)
  | ackAlarm (tag point : Byte)
  | clearProtection (tag point : Byte)
  | setSummaryOutput (tag output : Byte) (fields : SummaryFields)
  | setContact (tag input : Byte) (fields : ContactFields)
  | readAlarm (tag point : Byte)
  | readAlarmList (tag first maximum : Byte)
  | readContacts (tag : Byte)
  /-- FRAME_RECEIVED: the last CRC byte of the frame being collected. -/
  | frameReceived (last : Byte)
  /-- FRAME_LENGTH_ERROR: the length byte that is out of range. -/
  | frameLengthError (length : Byte)
  | gapTimeout
  /-- UNKNOWN_KIND_REQUEST: a frame whose kind code names no request. -/
  | unknownKindRequest (kind tag : Byte) (body : List Byte)
  | transmitFrameEnd
  | identify (tag : Byte)
  | readStatus (tag : Byte)
  | restart (tag : Byte)
  | linkByteReceived (value : Byte)
  | bypassFadeInEnd (program : Fin 16)
  deriving DecidableEq, Repr, Inhabited

end Sys2Proof
end

