-- ==== Sys2Proof/Decode.lean ====
section
/-! DEFINITION. The commands spelt by the bits of spec/opcode_table.json: none. No row of the table gives bits
("fields": [] in every row), so no word spells a command (log entry 2). The byte layouts of the control link
(R193 to R198) are in Machine/Messages.lean. -/

namespace Sys2Proof

/-- The command that a word spells by the table's bits. The table gives no row any bits. -/
def decodeTableWord (_nbits _w : Nat) : Option Instr := none

/-- Whether a kind code names a request (R195, first table; REPLY, COMPLETION and NOTICE are sent by the part
only, R180). -/
def isRequestKind (kind : Byte) : Bool :=
  [0x01, 0x02, 0x03, 0x04, 0x05, 0x06, 0x10, 0x11, 0x18, 0x19, 0x1A, 0x1B, 0x20, 0x21, 0x22, 0x23, 0x24, 0x25,
   0x26, 0x28, 0x29, 0x2A, 0x2B, 0x2C, 0x30, 0x31, 0x34, 0x35, 0x38, 0x39, 0x40, 0x41, 0x42, 0x43, 0x44, 0x45,
   0x46, 0x47].contains kind.toNat

end Sys2Proof
end

