-- ==== Sys2Proof/WellFormed.lean ====
section
/-! DEFINITION. The commands whose operands the hardware can present. A command that is not well formed is still
run by the machine (log entry 6); these checks say which operands stand for something that can happen. -/

namespace Sys2Proof

/-- The number of bytes of the largest DRAM that the part sizes: 6,144 pages of 600 groups of 25 bytes (R106,
R107). -/
def dramBytes : Nat := 6144 * 15000

/-- Whether the operands of a command can be presented to the part. -/
def Instr.wellFormed : Instr → Bool
  | .laneFrameStart _ slots _ _ => slots.length == 16
  | .houseSampleTick _ faults => faults.all fun f => decide (f.address < dramBytes)
  | .defineProgram _ _ _ channels => decide (channels.length ≤ 48)
  | .schedule _ _ _ inner => decide (inner.length ≤ 242)
  | .unknownKindRequest kind _ body => !isRequestKind kind && decide (body.length ≤ 248)
  | .frameLengthError length => decide (length.toNat < 2) || decide (250 < length.toNat)
  | _ => true

end Sys2Proof
end

