-- ==== Sys2Proof/Machine/State.lean ====
section
/-! DEFINITION. The state of the 7320 as plain data, block by block, and the state right after power-on. Every
field names the rule that gives it; a field marked "model's own" is not the spec's. -/

namespace Sys2Proof.Machine

/-! ## Faults and refusals -/

/-- Why a step can stop with a fault. Every row of the table has an effect in every state, so no step of this model
faults; the one reason is kept for the interface and no meaning answers it (safe). -/
inductive Fault where
  /-- Raised by no meaning (safe): the 7320 "has no register window and no memory that can be addressed from
  outside" (00_scope.md), so no command reaches an address that does not exist. -/
  | noSuchAddress
  deriving DecidableEq, Repr

/-- Why a step can be refused. -/
inductive Refusal where
  /-- Raised by an arm of `exec` whose row has no meaning yet (safe); no arm does. -/
  | notModelled (mnemonic : String)
  deriving DecidableEq, Repr

/-! ## Fades -/

/-- The direction of a fade (R49, R194). -/
inductive FadeDir where
  | steady
  | falling
  | rising
  deriving DecidableEq, Repr, Inhabited

/-- A fade: its level in the house sample in progress, its direction, and (model's own) the level it had at the end
of the house sample before, from which a turn taken in this sample counts. Log entry 15. -/
structure Fade where
  level : Nat
  dir : FadeDir
  prev : Nat
  deriving DecidableEq, Repr, Inhabited

/-! ## House Timebase (chapter 1) -/

/-- The six frame rates of R2. -/
inductive FrameRate where
  | r25
  | r29_97
  | r30
  | r50
  | r59_94
  | r60
  deriving DecidableEq, Repr, Inhabited

/-- The reference selection (1.3). -/
inductive Selection where
  | a
  | b
  | free
  deriving DecidableEq, Repr, Inhabited

/-- What the timebase holds of one reference input (R3, R4). -/
structure RefState where
  present : Bool
  /-- house counter of the latest pulse, valid or not -/
  lastPulse : Option Time
  /-- house counter of the latest valid pulse -/
  lastValid : Option Time
  /-- valid pulses in a row, counted to 2 -/
  validRun : Nat
  markerSeen : Bool
  cadenceCount : Nat
  /-- a marked pulse has come since the cadence count last restarted, so that unmarked ones count (R4, R12) -/
  counting : Bool
  deriving DecidableEq, Repr, Inhabited

/-- One entry of the frame schedule (R16). The program it names is read from the body's first byte. -/
structure SchedEntry where
  tag : Byte
  due : FrameIndex
  kind : Byte
  body : List Byte
  deriving DecidableEq, Repr, Inhabited

/-- The House Timebase but for the house counter, which stands at the head of `State` (R2 to R16). -/
structure Timebase where
  frameIndex : FrameIndex
  frameStart : Time
  /-- the table length of the frame in progress -/
  frameLen : Nat
  cadence : Nat
  /-- R9: an in-step pulse near the end of the frame has set cadence position 0 on the frame about to begin -/
  nextCadenceZero : Bool
  rate : FrameRate
  pendingRate : Option FrameRate
  preference : RefInput
  revertive : Bool
  holdCode : Byte
  refA : RefState
  refB : RefState
  selection : Selection
  /-- R6: house counter of the loss while a hold runs -/
  holdSince : Option Time
  /-- R7: house counter at which the revert timer started, while it runs -/
  revertSince : Option Time
  realign : Bool
  schedule : List SchedEntry
  deriving DecidableEq, Repr, Inhabited

/-! ## Lane Units (chapter 2) -/

/-- The rate classes of R24. -/
inductive RateClass where
  | k32
  | k44
  | k48
  | k96
  deriving DecidableEq, Repr, Inhabited

/-- The six lane states (2.3). -/
inductive LaneState where
  | dark
  | sensing
  | pulling
  | ready
  | locked
  | holdover
  deriving DecidableEq, Repr, Inhabited

/-- One Lane Unit (R22 to R48). -/
structure Lane where
  enabled : Bool
  oneShot : Bool
  holdCode : Byte
  state : LaneState
  clockPresent : Bool
  /-- house counter of the latest lane frame start -/
  lastStart : Option Time
  /-- model's own: lane frame starts in the house sample in progress, so that a window's count does not depend on
  the order of the steps of one sample. Log entry 16. -/
  startsNow : Nat
  cls : Option RateClass
  /-- the elastic store's lane frames, the newest first, at most 256 -/
  store : List (List Sample)
  /-- R38: the interpolator's samples of the latest house samples, a list of sixteen slots each, the newest first, at
  most 33; the one 32 house samples old is given out -/
  pipe : List (List Sample)
  /-- R36: the distance from the read to the write position, in 2⁻²⁴ lane frame; the fill is its top part. Log entry
  17. -/
  fillQ : Nat
  rho : Int
  rhoInt : Int
  lockRun : Nat
  pinRun : Nat
  latency32 : Nat
  inUse : Nat
  slipCount : Nat
  /-- R39: the slip's fade, out of 96; steady at 96 while no slip is on its way -/
  slip : Fade
  /-- R32: the entry fade, out of 96 -/
  entryFade : Fade
  admission : Bool
  /-- R23: the kept block's 24 bytes -/
  keptBlock : Option (List Byte)
  blockReady : Bool
  /-- R23: the bits gathered of the block in progress, in arrival order -/
  partialBlock : Option (List Bool)
  /-- R26: the classification window in progress -/
  windowStart : Time
  windowCount : Nat
  /-- R26: the result of the latest window completed in this visit to SENSING: none yet, no class, or a class -/
  lastWindow : Option (Option RateClass)
  /-- R33: house counter of the loss of clock, in HOLDOVER -/
  holdSince : Time
  /-- R33: start of the return window that is running -/
  returnStart : Option Time
  /-- model's own: this sample's control instant has been taken. Log entry 4. -/
  controlTaken : Bool
  deriving DecidableEq, Repr, Inhabited

/-! ## Programs (chapters 3, 4, 5, 7, 8) -/

/-- The states of a program that is not VACANT (R49). -/
inductive ProgState where
  | preparing
  | standby
  | running
  deriving DecidableEq, Repr, Inhabited

/-- A channel's role (R59). -/
inductive Role where
  | l
  | r
  | c
  | lfe
  | ls
  | rs
  | lb
  | rb
  | m
  deriving DecidableEq, Repr, Inhabited

/-- A channel's selection mode (R59). -/
inductive SelectMode where
  | auto
  | forcePrimary
  | forceBackup
  deriving DecidableEq, Repr, Inhabited

/-- A channel's desired or current selection (R59). -/
inductive Pick where
  | primary
  | backup
  deriving DecidableEq, Repr, Inhabited

/-- A (lane, slot) pair. -/
structure Source where
  lane : Fin 4
  slot : Fin 16
  deriving DecidableEq, Repr, Inhabited

/-- A group held in a read buffer: its number counted along the program's input timeline, and its samples (R115). -/
structure HeldGroup where
  number : Int
  samples : List Sample
  deriving DecidableEq, Repr, Inhabited

/-- A carried power: mant · 2^(−shift) (R71: "a floating form with at least 40 significant bits"). -/
structure Power where
  mant : Nat
  shift : Nat
  deriving DecidableEq, Repr, Inhabited

/-- A channel record (R59) and what the other blocks keep for the channel. -/
structure Channel where
  role : Role
  primary : Source
  backup : Option Source
  mode : SelectMode
  demand : Bool
  desired : Pick
  current : Pick
  inUse : Source
  /-- R62: the changeover fade -/
  coFade : Fade
  egress : Source
  /-- R59: the trim in effect -/
  trim : Nat
  /-- R124: the trim-step fade -/
  trimFade : Fade
  /-- R123: whether the Alignment Unit counts the channel as live, its P_c and its required trim -/
  live : Bool
  pathLat : Nat
  required : Nat
  /-- R122: the trim buffer, the newest sample first, at most 256 -/
  trimBuf : List Sample
  /-- R70: the weighting filter -/
  filter : FilterState
  /-- R71: the sum of squares of the block in progress, in units of 2⁻¹²⁸ -/
  energySum : Nat
  /-- R71, R72: the channel block energy of the latest block ended -/
  blockEnergy : Power
  /-- R114: the write buffer of one group -/
  writeBuf : List Sample
  /-- R115: the last two groups fetched, the newest first -/
  readBuf : List HeldGroup
  /-- R122, R131, R145: the aligned, delayed and output samples of the latest house sample formed -/
  aligned : Sample
  delayed : Sample
  output : Sample
  overRun : Nat
  /-- model's own: the over run has reached the over count and its event has not yet been taken -/
  overDue : Bool
  satCount : Nat
  deriving DecidableEq, Repr, Inhabited

/-- A page entry of a ring (R109). -/
structure PageEntry where
  page : Nat
  suspect : Bool
  deriving DecidableEq, Repr, Inhabited

/-- The change and retrim modes (R126). -/
inductive ChangeMode where
  | cut
  | slew
  | auto
  deriving DecidableEq, Repr, Inhabited

/-- The motion states (R128). -/
inductive Motion where
  | steady
  | slewing
  | cutOut
  | cutIn
  deriving DecidableEq, Repr, Inhabited

/-- The bypass states (7.5). -/
inductive Bypass where
  | none
  | entering
  | inEffect
  deriving DecidableEq, Repr, Inhabited

/-- The open delay operation of a program (R134, R135). -/
structure DelayOp where
  tag : Byte
  /-- V as the request took it -/
  value : Nat
  /-- whether anything was held -/
  held : Bool
  deriving DecidableEq, Repr, Inhabited

/-- The Alignment Unit's state for a program (R126 to R138, R140). -/
structure Align where
  value : Nat
  retrim : ChangeMode
  slewRate : Nat
  autoLimit : Nat
  pathLat : Nat
  target : Nat
  /-- D_cur in units of 1/65,536 sample: its whole part and its fraction (R128) -/
  cur : Nat
  motion : Motion
  /-- model's own: the distance looked at in this sample was less than the slew step (R130) -/
  arriving : Bool
  pending : Option ChangeMode
  fade : Fade
  bypass : Bypass
  /-- the protection the Alarm Unit has handed over: bypass is applied (R166) -/
  applied : Bool
  op : Option DelayOp
  deriving DecidableEq, Repr, Inhabited

/-- The loudness modes (R90). -/
inductive LoudMode where
  | off
  | freeze
  | track
  deriving DecidableEq, Repr, Inhabited

/-- The ten loudness settings (R90), levels and gains in tenths. -/
structure LoudSettings where
  mode : LoudMode
  target : Int
  maxBoost : Int
  maxAttenuation : Int
  upSlew : Int
  downSlew : Int
  holdDepth : Int
  window : Int
  manualTrim : Int
  lookAhead : Nat
  deriving DecidableEq, Repr, Inhabited

/-- The validity of a block (R74). -/
inductive Validity where
  | valid
  | preparing
  | lane
  | hold
  deriving DecidableEq, Repr, Inhabited

/-- A record of the block ring (R75). -/
structure BlockRec where
  index : Nat
  power : Power
  loudness : Option Int
  validity : Validity
  deriving DecidableEq, Repr, Inhabited

/-- An occupied bin of the integration histogram (R79); a bin that is not listed holds 0 and 0. -/
structure HistBin where
  bin : Nat
  count : Nat
  power : Power
  deriving DecidableEq, Repr, Inhabited

/-- The Loudness Engine's measurement of a program (R69 to R89). -/
structure Loud where
  ring : List BlockRec
  markPreparing : Bool
  markLane : Bool
  markHold : Bool
  momentary : Option Int
  shortTerm : Option Int
  integrated : Option Int
  /-- the occupied bins, in rising bin order -/
  hist : List HistBin
  count : Nat
  gatedCount : Nat
  /-- G rounded as R73 says, absent when N is 0 -/
  gate : Option Int
  start : Time
  paused : Bool
  silentRun : Nat
  /-- model's own: the largest magnitude of the alarm interval in progress (R86) -/
  peak : Nat
  /-- house counter of the entry to STANDBY (R53, R86) -/
  standbyAt : Option Time
  /-- model's own: whether the program was RUNNING, and paused, at the end of the latest sample closed (R80) -/
  wasRunning : Bool
  wasPaused : Bool
  /-- model's own: this sample's block end has been taken for the program. Log entry 4. -/
  blockTaken : Bool
  deriving DecidableEq, Repr, Inhabited

/-- The hold states (R92). -/
inductive HoldState where
  | adjusted
  | heldInvalid
  | heldNoSt
  | heldBelowDepth
  | off
  | frozen
  deriving DecidableEq, Repr, Inhabited

/-- Which limit the desired value met (R94). -/
inductive Clamped where
  | none
  | boost
  | attenuation
  deriving DecidableEq, Repr, Inhabited

/-- The last desired value (R92). -/
structure Desired where
  value : Int
  clamped : Clamped
  block : Nat
  deriving DecidableEq, Repr, Inhabited

/-- The correction state (R92). -/
structure Correction where
  settings : LoudSettings
  gain : Int
  desired : Option Desired
  hold : HoldState
  gainLimit : Bool
  loud : Bool
  deriving DecidableEq, Repr, Inhabited

/-- An entry of the gain schedule (R97). -/
structure GainEntry where
  block : Nat
  value : Int
  due : Time
  deriving DecidableEq, Repr, Inhabited

/-- The Output Stage's state for a program (R97, R141 to R144). -/
structure OutStage where
  /-- the gain schedule, the oldest entry first -/
  schedule : List GainEntry
  applied : Int
  pad : Int
  total : Int
  gainHeld : Bool
  rampStart : Nat
  rampTarget : Nat
  /-- R143: the step number, 1 to 480; 481 once the ramp is due to be steady; 0 when steady -/
  rampStep : Nat
  /-- model's own: the ramp multiplier used for the latest house sample formed (R143) -/
  multUsed : Nat
  muted : Bool
  muteFade : Fade
  deriving DecidableEq, Repr, Inhabited

/-- A record of the program table that is not VACANT (R49). -/
structure Program where
  state : ProgState
  channels : List Channel
  maxDelay : Nat
  rows : Nat
  onAir : Fade
  /-- the tag of the definition in PREPARING, if it has one -/
  openDef : Option Byte
  ring : List PageEntry
  align : Align
  loud : Loud
  corr : Correction
  out : OutStage
  deriving DecidableEq, Repr, Inhabited

/-- A claim on an egress slot (R58). -/
structure Claim where
  program : Fin 16
  channel : Nat
  deriving DecidableEq, Repr, Inhabited

/-! ## Delay Memory Controller (chapter 6) -/

/-- A running memory check (R117, R118). -/
structure Check where
  tag : Byte
  quota : Nat
  taken : Nat
  tested : Nat
  retired : Nat
  deriving DecidableEq, Repr, Inhabited

/-- A page waiting to be zero-filled, with the program it is filled for (R111). -/
structure FillEntry where
  program : Fin 16
  page : Nat
  deriving DecidableEq, Repr, Inhabited

/-- The page pool (R106 to R119). The pages held by programs stand in their rings. -/
structure Pool where
  device : Device
  sized : Nat
  free : List Nat
  retired : List Nat
  window : List Nat
  fill : List FillEntry
  /-- the house sample at which the fill of the queue's head began -/
  fillSince : Time
  check : Option Check
  /-- house samples the page under test has been tested for (R113) -/
  testRun : Nat
  readErrors : Nat
  deriving DecidableEq, Repr, Inhabited

/-! ## Alarm Unit (chapter 9) -/

/-- The modes of a kind (R154). -/
inductive AlarmMode where
  | off
  | report
  | protectLatched
  | protectRetry
  deriving DecidableEq, Repr, Inhabited

/-- A kind's settings (R154). -/
structure KindSettings where
  mode : AlarmMode
  priority : Nat
  raiseCode : Byte
  clearCode : Byte
  retryCode : Byte
  level : Int
  count : Nat
  deriving DecidableEq, Repr, Inhabited

/-- The annunciation states (R161). -/
inductive Annunciation where
  | quiet
  | activeUnack
  | activeAck
  | returnedUnack
  deriving DecidableEq, Repr, Inhabited

/-- A point's record (R152). -/
structure Point where
  raw : Bool
  /-- the house counter of the last change of the raw condition -/
  lastRaw : Option Time
  /-- the house counter of the latest event -/
  lastEvent : Option Time
  /-- the house sample the raise, clear and retry times count from (R156, R159, R164, R175) -/
  since : Time
  filtered : Bool
  ann : Annunciation
  applied : Bool
  raiseCount : Nat
  lastRise : Option Time
  lastChange : Option Time
  deriving DecidableEq, Repr, Inhabited

/-- An entry of the notice queue (R167). -/
structure Notice where
  point : Fin 118
  coalesced : Nat
  first : Time
  deriving DecidableEq, Repr, Inhabited

/-- A summary output's settings (R170). -/
structure Summary where
  kinds : BitVec 16
  ceiling : Nat
  anyActive : Bool
  activeLow : Bool
  enabled : Bool
  deriving DecidableEq, Repr, Inhabited

/-- The functions of a contact input (R171). -/
inductive ContactFunction where
  | none
  | integrationReset
  | integrationHold
  | forceBackup
  | alarm
  deriving DecidableEq, Repr, Inhabited

/-- A contact input (R171). -/
structure Contact where
  function : ContactFunction
  activeLow : Bool
  programs : BitVec 16
  edge : Bool
  lastReading : Option Bool
  level : Bool
  deriving DecidableEq, Repr, Inhabited

/-- The Alarm Unit (R152 to R175). -/
structure AlarmUnit where
  kinds : Vector KindSettings 13
  points : Vector Point 118
  notices : List Notice
  summaries : Vector Summary 4
  contacts : Vector Contact 4
  /-- the levels at which the contact pins stand -/
  pins : BitVec 4
  /-- model's own: the silence level in force at the end of the latest sample closed (R86) -/
  silenceLevel : Int
  /-- model's own: this sample's alarm boundary has been taken. Log entry 4. -/
  boundaryTaken : Bool
  deriving DecidableEq, Repr

/-! ## Link Port (chapter 10) -/

/-- The result codes of R195. -/
inductive Result where
  | ok
  | accepted
  | clamped
  | done
  | cancelled
  | superseded
  | aborted
  | unknownKind
  | badLength
  | badValue
  | wrongState
  | noSpace
  | notFitted
  | slotTaken
  | tagBusy
  | unknownTag
  | opsFull
  | scheduleFull
  | tooLate
  | notSchedulable
  | stillPresent
  | starting
  deriving DecidableEq, Repr, Inhabited

/-- The receiver (R177): in COLLECT, how many bytes are still to come and those kept, the length byte first. -/
inductive Receiver where
  | hunt
  | length
  | collect (left : Nat) (kept : List Byte)
  deriving DecidableEq, Repr, Inhabited

/-- A frame in the receive buffer (R176, R179). -/
structure Frame where
  kind : Byte
  tag : Byte
  body : List Byte
  deriving DecidableEq, Repr, Inhabited

/-- A reply in the reply place (R180); its status summary is taken when the transmitter begins it (R186). -/
structure Reply where
  kind : Byte
  tag : Byte
  result : Result
  report : List Byte
  deriving DecidableEq, Repr, Inhabited

/-- A completion in the queue (R183, R196); `due` is the due frame of a schedule entry's completion (origin 1). -/
structure Completion where
  tag : Byte
  kind : Byte
  result : Result
  due : Option FrameIndex
  details : List Byte
  deriving DecidableEq, Repr, Inhabited

/-- What an operation-table entry concerns (R182). -/
inductive Concern where
  | definition (program : Fin 16)
  | delay (program : Fin 16)
  | check
  deriving DecidableEq, Repr, Inhabited

/-- An entry of the operation table (R182). -/
structure OpEntry where
  tag : Byte
  concern : Concern
  since : Time
  deriving DecidableEq, Repr, Inhabited

/-- The Link Port (R176 to R192). -/
structure LinkPort where
  highRate : Bool
  receiver : Receiver
  /-- house counter of the latest byte received (R178) -/
  lastByte : Time
  /-- the receive buffer, the oldest frame first -/
  buffer : List Frame
  reply : Option Reply
  /-- the bytes of the frame being sent, start byte and CRC included -/
  sending : Option (List Byte)
  ops : List OpEntry
  completions : List Completion
  crcErrors : Nat
  lengthErrors : Nat
  gapErrors : Nat
  overruns : Nat
  linkErr : Bool
  restarted : Bool
  /-- memory sizing has ended (R191) -/
  sizingEnded : Bool
  /-- the seven flags that the latest READ_STATUS found, as a status summary byte: R189 has its report give them and
  R198's layout, which the report's bytes follow, has no byte for them (model's own, log entry 23) -/
  statusFlags : Option Byte
  deriving DecidableEq, Repr, Inhabited

/-! ## Egress lanes -/

/-- What the four egress lanes sent in the latest house sample formed (R148): the 64 slots, the block-start marker
and the status bit. -/
structure EgressOut where
  slots : Vector Sample 64
  marker : Bool
  status : Bool
  deriving DecidableEq, Repr

/-! ## The whole part -/

/-- The 7320, and the queue of the commands that wait to be taken. -/
structure State where
  /-- the commands that wait, the next at the head (model's own) -/
  pending : List Instr
  /-- the house counter (R1) -/
  counter : Time
  tb : Timebase
  lanes : Vector Lane 4
  programs : Vector (Option Program) 16
  claims : Vector (Option Claim) 64
  pool : Pool
  /-- the attached DRAM: address and byte, addresses rising, no entry equal to what zero-fill leaves there -/
  dram : List Host.Cell
  /-- model's own: the DRAM cells that have failed and the byte each reads as. Log entry 18. -/
  stuck : List Host.Cell
  alarm : AlarmUnit
  link : LinkPort
  egress : EgressOut
  deriving DecidableEq, Repr

/-! ## Reset values -/

/-- A reference input after power-on (R15). -/
def RefState.reset : RefState :=
  { present := false, lastPulse := none, lastValid := none, validRun := 0, markerSeen := false, cadenceCount := 0,
    counting := false }

/-- The timebase after power-on (R2, R15). -/
def Timebase.reset : Timebase :=
  { frameIndex := 0, frameStart := 0, frameLen := 1920, cadence := 0, nextCadenceZero := false, rate := .r25,
    pendingRate := none, preference := .a, revertive := true, holdCode := 50, refA := .reset, refB := .reset,
    selection := .free, holdSince := none, revertSince := none, realign := false, schedule := [] }

/-- A lane after power-on (R48). -/
def Lane.reset : Lane :=
  { enabled := false, oneShot := false, holdCode := 50, state := .dark, clockPresent := false, lastStart := none,
    startsNow := 0, cls := none, store := [], pipe := [], fillQ := 0, rho := 16777216, rhoInt := 16777216, lockRun := 0,
    pinRun := 0, latency32 := 3072, inUse := 96, slipCount := 0, slip := ⟨96, .steady, 96⟩,
    entryFade := ⟨96, .steady, 96⟩, admission := false, keptBlock := none, blockReady := false,
    partialBlock := none, windowStart := 0, windowCount := 0, lastWindow := none, holdSince := 0,
    returnStart := none, controlTaken := false }

/-- The pool while the DRAM is being sized (R106): nothing is known of it yet. -/
def Pool.reset : Pool :=
  { device := .none, sized := 0, free := [], retired := [], window := [], fill := [], fillSince := 0, check := none,
    testRun := 0, readErrors := 0 }

/-- One row of R154's table of defaults. -/
def KindSettings.default (priority : Nat) (raise : Byte) (level : Int) (count : Nat) : KindSettings :=
  { mode := .report, priority := priority, raiseCode := raise, clearCode := 50, retryCode := 150, level := level,
    count := count }

/-- The kinds after power-on (R154), in kind-number order. -/
def kindDefaults : Vector KindSettings 13 :=
  #v[.default 1 0 0 0, .default 2 0 0 0, .default 5 0 0 0, .default 4 0 0 0, .default 2 110 (-600) 0,
     .default 3 0 (-1) 3, .default 5 150 0 0, .default 6 0 0 0, .default 4 0 0 0, .default 1 0 0 0,
     .default 0 0 0 0, .default 6 0 0 0, .default 3 0 0 0]

/-- A point after power-on (R175). -/
def Point.reset : Point :=
  { raw := false, lastRaw := none, lastEvent := none, since := 0, filtered := false, ann := .quiet, applied := false, raiseCount := 0,
    lastRise := none, lastChange := none }

/-- A summary output after power-on (R170). -/
def Summary.reset : Summary :=
  { kinds := 0, ceiling := 7, anyActive := true, activeLow := false, enabled := false }

/-- A contact input after power-on (R172). -/
def Contact.reset : Contact :=
  { function := .none, activeLow := false, programs := 0, edge := false, lastReading := none, level := false }

/-- The Alarm Unit after power-on (R175): REF_LOSS (point 112) has its raw condition present (R8). -/
def AlarmUnit.reset : AlarmUnit :=
  { kinds := kindDefaults
    points := (Vector.replicate 118 Point.reset).set 112 { Point.reset with raw := true }
    notices := [], summaries := Vector.replicate 4 Summary.reset, contacts := Vector.replicate 4 Contact.reset
    pins := 0, silenceLevel := -600, boundaryTaken := false }

/-- The Link Port after power-on (R192), the link rate strap standing low (log entry 7). -/
def LinkPort.reset : LinkPort :=
  { highRate := false, receiver := .hunt, lastByte := 0, buffer := [], reply := none, sending := none, ops := [],
    completions := [], crcErrors := 0, lengthErrors := 0, gapErrors := 0, overruns := 0, linkErr := false,
    restarted := true, sizingEnded := false, statusFlags := none }

/-- The egress lanes after power-on: silence on every slot (R148). -/
def EgressOut.reset : EgressOut :=
  { slots := Vector.replicate 64 0, marker := false, status := false }

/-- The machine right after power-on or pin reset, with memory sizing in progress (R15, R48, R49, R121, R175, R192). -/
def State.reset : State :=
  { pending := [], counter := 0, tb := .reset, lanes := Vector.replicate 4 Lane.reset
    programs := Vector.replicate 16 none, claims := Vector.replicate 64 none, pool := .reset, dram := [], stuck := []
    alarm := .reset, link := .reset, egress := .reset }

end Sys2Proof.Machine
end

