-- ==== Sys2Proof/Machine/Arith.lean ====
section
/-! DEFINITION. Arithmetic that several blocks share: times, interval codes, rounding, the two cyclic checks,
powers of ten compared exactly, carried powers and the loudness formula. -/

namespace Sys2Proof.Machine

/-! ## Times -/

/-- House samples from `past` to `now` on the 48-bit house counter (R1). -/
def since (now past : Time) : Nat := (now - past).toNat

/-- The time of an interval code in house samples; `none` is "never" (R153). -/
def intervalSamples (code : Byte) : Option Nat :=
  let n := code.toNat
  if n ≤ 100 then some (n * 480)
  else if n ≤ 190 then some ((n - 90) * 4800)
  else if n ≤ 250 then some ((n - 180) * 48000)
  else if n = 251 then some 5760000
  else if n = 252 then some 14400000
  else if n = 253 then some 28800000
  else if n = 254 then some 86400000
  else none

/-- Whether the time of an interval code has run out since `past` (R153: code 255 does not run out). -/
def timeOut (code : Byte) (now past : Time) : Bool :=
  match intervalSamples code with
  | some n => decide (n ≤ since now past)
  | none => false

/-- House samples left of an interval code's time, absent for "never" (R14, R47, R173). -/
def timeLeft (code : Byte) (now past : Time) : Option Nat :=
  (intervalSamples code).map fun n => n - since now past

/-! ## Rounding and clamping -/

/-- num / den to the nearest whole number, ties up. -/
def roundDiv (num : Int) (den : Nat) : Int := (2 * num + den) / (2 * den)

/-- A value held within [lo, hi]. -/
def clampInt (lo hi v : Int) : Int := max lo (min hi v)

/-- A value held within [lo, hi]. -/
def clampNat (lo hi v : Nat) : Nat := max lo (min hi v)

/-- A count that holds at its largest value. -/
def holdAt (top n : Nat) : Nat := min top n

/-- A whole number held within the 24-bit sample range [−1, 1 − 2⁻²³]. -/
def holdSample (v : Int) : Sample := BitVec.ofInt 24 (clampInt (-8388608) 8388607 v)

/-- A sample's magnitude, the most negative value counted as 8,388,608 (R147). -/
def magnitude (x : Sample) : Nat := x.toInt.natAbs

/-- The largest k below 2^bits for which `ok` holds, `ok` being true up to it and false from there on. -/
def bitSearch (ok : Nat → Bool) : Nat → Nat → Nat
  | 0, acc => acc
  | b + 1, acc => if ok (acc + 2 ^ b) then bitSearch ok b (acc + 2 ^ b) else bitSearch ok b acc

/-- 2^scale × 10^(tenths/200) to the nearest whole number, ties up, for values below 2²⁴ (R142, R147). The
comparison (2k − 1) ≤ 2^(scale+1) × 10^(tenths/200) is made exactly, on 200th powers. -/
def gainNumber (scale : Nat) (tenths : Int) : Nat :=
  bitSearch (fun k =>
    if 0 ≤ tenths then decide ((2 * k - 1) ^ 200 ≤ 2 ^ ((scale + 1) * 200) * 10 ^ tenths.toNat)
    else decide ((2 * k - 1) ^ 200 * 10 ^ (-tenths).toNat ≤ 2 ^ ((scale + 1) * 200))) 24 0

/-- Whether a magnitude, in units of 2⁻²³, is below 10^(tenths/200), compared exactly (R86). -/
def belowLevel (mag : Nat) (tenths : Int) : Bool :=
  if 0 ≤ tenths then decide (mag ^ 200 < 2 ^ 4600 * 10 ^ tenths.toNat)
  else decide (mag ^ 200 * 10 ^ (-tenths).toNat < 2 ^ 4600)

/-! ## Carried powers and loudness -/

/-- The value 0 carried. -/
def Power.zero : Power := ⟨0, 0⟩

/-- num / den as a carried figure (R71): the value below or above it at a precision of at least 40 significant
bits; which of the two, and the precision, are the part's. -/
def Power.carry (num den : Nat) : Power :=
  if num = 0 ∨ den = 0 then .zero
  else
    let shift := (42 + Config.extraPowerBits + Nat.log2 den) - Nat.log2 num
    let q := num * 2 ^ shift / den
    if num * 2 ^ shift % den = 0 then ⟨q, shift⟩
    else if Config.powerRoundsUp num den then ⟨q + 1, shift⟩ else ⟨q, shift⟩

/-- The exact sum of two carried figures. -/
def Power.add (a b : Power) : Power :=
  ⟨a.mant * 2 ^ (b.shift - a.shift) + b.mant * 2 ^ (a.shift - b.shift), max a.shift b.shift⟩

/-- The exact sum of carried figures. -/
def Power.sum (l : List Power) : Power := l.foldl Power.add .zero

/-- The exact sum of two carried figures, carried again. -/
def Power.addCarried (a b : Power) : Power := .carry (a.add b).mant (2 ^ (a.add b).shift)

/-- Whether num / den is at least 10^(e/10000), compared exactly on 10,000th powers. -/
def atLeastPow10 (num den : Nat) (e : Int) : Bool :=
  if 0 ≤ e then decide (den ^ 10000 * 10 ^ e.toNat ≤ num ^ 10000)
  else decide (den ^ 10000 ≤ num ^ 10000 * 10 ^ (-e).toNat)

/-- R73: −0.691 + 10·log10(num/den) in tenths, rounded to the nearest tenth with ties up and held within
[−120.0, +15.0]; absent when the power is 0. The value rounds to t or more exactly when
num/den ≥ 10^((100t + 641)/10000). -/
def loudness (num den : Nat) : Option Int :=
  if num = 0 ∨ den = 0 then none
  else some ((min 1350 (bitSearch (fun k => atLeastPow10 num den (100 * ((k : Int) - 1200) + 641)) 11 0) : Nat) - 1200)

/-- R73 for a carried figure. -/
def Power.loudness (p : Power) : Option Int := Machine.loudness p.mant (2 ^ p.shift)

/-- R81: whether bin j's value −70.0 + 0.1j is at or above G = −0.691 + 10·log10(num/den) − 10.0. -/
def passesGate (num den bin : Nat) : Bool :=
  atLeastPow10 den num (-(100 * ((bin : Int) - 700) + 10691))

/-- R193: a power in the 32-bit floating form, sign, 8-bit exponent biased by 127 and 23-bit fraction. The rounding of
what does not fit the fraction, and the form of a power whose exponent field would be 0 or less, are free values (log
entry 11). -/
def Power.float32 (p : Power) : Nat :=
  if p.mant = 0 then 0
  else
    let l := Nat.log2 p.mant
    let q := if 23 ≤ l then p.mant / 2 ^ (l - 23) else p.mant * 2 ^ (23 - l)
    let up := decide (23 ≤ l) && decide (p.mant % 2 ^ (l - 23) ≠ 0) && Config.reportRoundsUp p.mant p.shift
    let q1 := if up then q + 1 else q
    let e : Int := (l : Int) - p.shift + 127
    if 0 < e then (e.toNat - 1) * 2 ^ 23 + q1 else (Config.tinyPowerForm p.mant p.shift).toNat

/-! ## Cyclic checks -/

/-- One bit of the CRC-16 with polynomial x¹⁶ + x¹² + x⁵ + 1 (R177). -/
def crc16Bit (c : BitVec 16) : BitVec 16 := if c.msb then (c <<< 1) ^^^ 0x1021 else c <<< 1

/-- One byte of the CRC-16, most significant bit first. -/
def crc16Byte (c : BitVec 16) (b : Byte) : BitVec 16 :=
  (crc16Bit ∘ crc16Bit ∘ crc16Bit ∘ crc16Bit ∘ crc16Bit ∘ crc16Bit ∘ crc16Bit ∘ crc16Bit)
    (c ^^^ (b.setWidth 16 <<< 8))

/-- The CRC-16 of R177, initial value 0xFFFF, result not inverted. -/
def crc16 (bytes : List Byte) : BitVec 16 := bytes.foldl crc16Byte 0xFFFF

/-- One bit of the check code with generator x⁸ + x² + x + 1 (R107). -/
def crc8Bit (c : Byte) : Byte := if c.msb then (c <<< 1) ^^^ 0x07 else c <<< 1

/-- One byte of the check code, most significant bit first. -/
def crc8Byte (c b : Byte) : Byte :=
  (crc8Bit ∘ crc8Bit ∘ crc8Bit ∘ crc8Bit ∘ crc8Bit ∘ crc8Bit ∘ crc8Bit ∘ crc8Bit) (c ^^^ b)

/-- The check code of R107 over a list of bytes, starting from 0. -/
def crc8 (bytes : List Byte) : Byte := bytes.foldl crc8Byte 0

/-! ## Big-endian integers (00_scope.md "Messages", R193) -/

/-- The low n bytes of a number, high byte first. -/
def bigEndian : Nat → Nat → List Byte
  | 0, _ => []
  | n + 1, v => BitVec.ofNat 8 (v / 256 ^ n) :: bigEndian n v

/-- A signed number in n bytes of two's complement, high byte first. -/
def bigEndianInt (n : Nat) (v : Int) : List Byte := bigEndian n (v % (256 ^ n : Nat)).toNat

end Sys2Proof.Machine
end

