-- ==== Sys2Proof/Machine/Ops.lean ====
section
/-! DEFINITION. The shared operations over the state: fades, the delay memory's bytes and groups, and the parts of
`State` read and written by subject. -/

namespace Sys2Proof.Machine

/-! ## Subjects -/

/-- The four lanes. -/
def allLanes : List (Fin 4) := [0, 1, 2, 3]

/-- The sixteen programs, in index order. -/
def allPrograms : List (Fin 16) := [0, 1, 2, 3, 4, 5, 6, 7, 8, 9, 10, 11, 12, 13, 14, 15]

/-- The eight channel numbers. -/
def allChannels : List (Fin 8) := [0, 1, 2, 3, 4, 5, 6, 7]

/-- The 118 alarm points, in point-number order. -/
def allPoints : List (Fin 118) := List.finRange 118

/-- A state with one operation made for each subject of a list, in its order. -/
def forAll {α : Type} (l : List α) (f : α → State → State) (s : State) : State := l.foldl (fun s a => f a s) s

/-- A lane's state. -/
def State.lane (s : State) (l : Fin 4) : Lane := s.lanes[l.val]'l.isLt

/-- A state with one lane replaced. -/
def State.setLane (s : State) (l : Fin 4) (x : Lane) : State := { s with lanes := s.lanes.set l.val x l.isLt }

/-- A program's record, `none` while it is VACANT. -/
def State.program (s : State) (p : Fin 16) : Option Program := s.programs[p.val]'p.isLt

/-- A state with one program's record replaced. -/
def State.setProgram (s : State) (p : Fin 16) (x : Option Program) : State :=
  { s with programs := s.programs.set p.val x p.isLt }

/-- An alarm point's record. -/
def AlarmUnit.point (a : AlarmUnit) (pt : Fin 118) : Point := a.points[pt.val]'pt.isLt

/-- The Alarm Unit with one point's record replaced. -/
def AlarmUnit.setPoint (a : AlarmUnit) (pt : Fin 118) (x : Point) : AlarmUnit :=
  { a with points := a.points.set pt.val x pt.isLt }

/-- A kind's settings. -/
def AlarmUnit.kind (a : AlarmUnit) (k : Fin 13) : KindSettings := a.kinds[k.val]'k.isLt

/-- A contact input. -/
def AlarmUnit.contact (a : AlarmUnit) (c : Fin 4) : Contact := a.contacts[c.val]'c.isLt

/-- The Alarm Unit with one contact input replaced. -/
def AlarmUnit.setContact (a : AlarmUnit) (c : Fin 4) (x : Contact) : AlarmUnit :=
  { a with contacts := a.contacts.set c.val x c.isLt }

/-- The entry of the egress claim table for an egress (R58). -/
def egressIndex (e : Source) : Fin 64 := ⟨e.lane.val * 16 + e.slot.val, by omega⟩

/-- A source or egress byte, lane × 16 + slot (R193); absent where the lane part exceeds 3. -/
def sourceOfByte (b : Byte) : Option Source :=
  if h : b.toNat < 64 then some ⟨⟨b.toNat / 16, by omega⟩, ⟨b.toNat % 16, by omega⟩⟩ else none

/-- The byte of a source or egress (R193). -/
def Source.byte (x : Source) : Byte := BitVec.ofNat 8 (x.lane.val * 16 + x.slot.val)

/-! ## Fades -/

/-- The level one house sample on. -/
def fadeStep (top : Nat) (dir : FadeDir) (level : Nat) : Nat :=
  match dir with
  | .steady => level
  | .falling => level - 1
  | .rising => min top (level + 1)

/-- A fade at rest. -/
def Fade.restAt (level : Nat) : Fade := ⟨level, .steady, level⟩

/-- A fade one house sample on. -/
def Fade.tick (top : Nat) (f : Fade) : Fade := ⟨fadeStep top f.dir f.level, f.dir, f.level⟩

/-- A fade that takes a direction in this house sample and moves in it by its first step (R62, R124, R129, R144:
from 480 a fade begun at t gives 479/480 at t, from 0 it gives 1/480). -/
def Fade.turn (top : Nat) (dir : FadeDir) (f : Fade) : Fade := ⟨fadeStep top dir f.prev, dir, f.prev⟩

/-- A fade that takes a direction whose first step falls on the next house sample (R39: "over the next 96 house
samples"). -/
def Fade.arm (dir : FadeDir) (f : Fade) : Fade := { f with dir := dir }

/-- A fade that stops where it stands. -/
def Fade.rest (f : Fade) : Fade := { f with dir := .steady }

/-- A falling fade whose level was already 0 in the house sample before. -/
def Fade.fallen (f : Fade) : Bool := f.dir == .falling && f.prev == 0

/-- A rising fade that was already at its top in the house sample before. -/
def Fade.risen (top : Nat) (f : Fade) : Bool := f.dir == .rising && f.prev == top

/-- A sample under a fade of level/480, as a 24-bit value; where the product is not whole, the part's rounding
chooses between the two values beside it. -/
def fadeSample (x : Sample) (level : Nat) : Sample :=
  if level = 480 then x
  else
    let num := x.toInt * level
    if num % 480 = 0 then holdSample (num / 480)
    else if Config.fadeRoundsUp x.toInt level then holdSample (num / 480 + 1) else holdSample (num / 480)

/-! ## Delay memory bytes (chapter 6)

A page is 600 groups; a group is kept as 25 bytes, its eight samples high byte first and then its check code. The
group g of page p stands at byte address (600p + g) × 25 (log entry 19). -/

/-- The DRAM's listed bytes. -/
abbrev Dram := List Host.Cell

/-- The three bytes of a sample, high byte first. -/
def sampleBytes (x : Sample) : List Byte := bigEndian 3 x.toNat

/-- The check code of a group: over the page index, the group number and the eight samples (R107). -/
def checkCode (page group : Nat) (samples : List Sample) : Byte :=
  crc8 (bigEndian 2 page ++ bigEndian 2 group ++ samples.flatMap sampleBytes)

/-- A group of silence. -/
def silentGroup : List Sample := List.replicate 8 0

/-- What an unlisted byte reads as: what zero-fill leaves there (R111). -/
def Dram.blank (address : Nat) : Byte :=
  if address % 25 < 24 then 0 else checkCode (address / 15000) (address / 25 % 600) silentGroup

/-- The byte at an address. -/
def Dram.read : Dram → Nat → Byte
  | [], a => Dram.blank a
  | (b, v) :: rest, a => if a = b then v else Dram.read rest a

/-- The DRAM with one byte written; a byte equal to what an unlisted address reads as is not listed. -/
def Dram.write : Dram → Nat → Byte → Dram
  | [], a, v => if v = Dram.blank a then [] else [(a, v)]
  | (b, w) :: rest, a, v =>
    if a < b then (if v = Dram.blank a then (b, w) :: rest else (a, v) :: (b, w) :: rest)
    else if a = b then (if v = Dram.blank a then rest else (a, v) :: rest)
    else (b, w) :: Dram.write rest a v

/-- The DRAM with a run of bytes written from an address up. -/
def Dram.writeAll : Dram → Nat → List Byte → Dram
  | m, _, [] => m
  | m, a, v :: rest => Dram.writeAll (m.write a v) (a + 1) rest

/-- The DRAM with a range of addresses reading as zero-fill leaves them. -/
def Dram.clear (m : Dram) (base len : Nat) : Dram :=
  m.filter fun c => decide (c.1 < base) || decide (base + len ≤ c.1)

/-- Whether the addresses of a list rise strictly, each above `low`, and no entry reads as an unlisted one. -/
def Dram.wfFrom : Nat → Dram → Bool
  | _, [] => true
  | low, (a, v) :: rest => decide (low ≤ a) && decide (v ≠ Dram.blank a) && Dram.wfFrom (a + 1) rest

/-- The canonical form of the DRAM. -/
def Dram.wf (m : Dram) : Bool := Dram.wfFrom 0 m

/-- The first byte address of a group. -/
def groupAddress (page group : Nat) : Nat := (page * 600 + group) * 25

/-- What a failed cell reads as, if the address has failed. -/
def stuckAt (stuck : List Host.Cell) (a : Nat) : Option Byte := (stuck.find? fun c => c.1 == a).map (·.2)

/-- The byte a read of the DRAM finds: a failed cell's byte, or the byte stored. -/
def readByte (m : Dram) (stuck : List Host.Cell) (a : Nat) : Byte := (stuckAt stuck a).getD (m.read a)

/-- The sample whose three bytes stand from an address up. -/
def readSampleAt (m : Dram) (stuck : List Host.Cell) (a : Nat) : Sample :=
  (readByte m stuck a ++ readByte m stuck (a + 1) ++ readByte m stuck (a + 2) : BitVec 24)

/-- The eight samples of a group as a fetch reads them. -/
def readGroup (m : Dram) (stuck : List Host.Cell) (page group : Nat) : List Sample :=
  (List.range 8).map fun i => readSampleAt m stuck (groupAddress page group + 3 * i)

/-- Whether a fetched group's check code is the one worked out over what was read (R115). -/
def groupChecks (m : Dram) (stuck : List Host.Cell) (page group : Nat) : Bool :=
  readByte m stuck (groupAddress page group + 24) == checkCode page group (readGroup m stuck page group)

/-- The DRAM with a group and its check code written (R107, R114). -/
def writeGroup (m : Dram) (page group : Nat) (samples : List Sample) : Dram :=
  m.writeAll (groupAddress page group) (samples.flatMap sampleBytes ++ [checkCode page group samples])

/-- Whether any cell of a page has failed: a failed cell differs from the pattern of at least one of the two
passes of R118, 0x55 and 0xAA. A byte that changes once during the test fails no page (log entry 18). -/
def pageFails (stuck : List Host.Cell) (page : Nat) : Bool :=
  stuck.any fun c => decide (page * 15000 ≤ c.1) && decide (c.1 < (page + 1) * 15000)

/-! ## Lists -/

/-- The first entry with a property, taken out of a list. -/
def removeFirst {α : Type} (f : α → Bool) : List α → List α
  | [] => []
  | x :: rest => if f x then rest else x :: removeFirst f rest

end Sys2Proof.Machine
end

