-- ==== Sys2Proof/Machine/Alarms.lean ====
section
/-! DEFINITION. The Alarm Unit's own work (chapter 9): raw conditions and events handed in, filtering,
annunciation, protection, the notice queue, acknowledgement and the kind settings. Everything here changes the
Alarm Unit alone; what a protection does to a program is handed over at the end of the house sample (R166), in
Machine/Handover.lean. -/

namespace Sys2Proof.Machine

/-! ## Kinds and points (R152) -/

/-- The kind of a point. -/
def kindOfPoint (pt : Fin 118) : Fin 13 :=
  if _h : pt.val < 16 then ⟨pt.val / 4, by omega⟩
  else if _h : pt.val < 112 then ⟨3 + pt.val / 16, by omega⟩
  else if _h : pt.val < 114 then ⟨pt.val - 102, by omega⟩
  else 12

/-- The point of a lane kind, 0 to 3. -/
def lanePoint (k l : Fin 4) : Fin 118 := ⟨4 * k.val + l.val, by omega⟩

/-- The point of a program kind: 0 PROG_SILENCE, 1 PROG_OVER, 2 PROG_LOUD, 3 PROG_GAIN_LIMIT, 4 PROG_DELAY_SHORT,
5 PROG_MEMORY. -/
def progPoint (k : Fin 6) (p : Fin 16) : Fin 118 := ⟨16 + 16 * k.val + p.val, by omega⟩

/-- REF_LOSS. -/
def refLossPoint : Fin 118 := 112

/-- LINK_ERROR. -/
def linkErrorPoint : Fin 118 := 113

/-- EXTERNAL of a contact input. -/
def externalPoint (c : Fin 4) : Fin 118 := ⟨114 + c.val, by omega⟩

/-- Whether a kind has a protective action. -/
def hasAction (k : Fin 13) : Bool := [0, 1, 4, 5, 9].contains k.val

/-- Whether a mode is one of the two protect modes. -/
def AlarmMode.protects : AlarmMode → Bool
  | .protectLatched => true
  | .protectRetry => true
  | .off => false
  | .report => false

/-- The settings that govern a point. -/
def AlarmUnit.settingsOf (a : AlarmUnit) (pt : Fin 118) : KindSettings := a.kind (kindOfPoint pt)

/-- Whether a point's protection may be applied: its kind is in a protect mode and has an action (R163). -/
def AlarmUnit.mayProtect (a : AlarmUnit) (pt : Fin 118) : Bool :=
  (a.settingsOf pt).mode.protects && hasAction (kindOfPoint pt)

/-- Whether a point is an event point at present (R152: EXTERNAL is one while its contact has function ALARM with
sense EDGE). -/
def AlarmUnit.isEventPoint (a : AlarmUnit) (pt : Fin 118) : Bool :=
  if h : 114 ≤ pt.val then
    let c := a.contact ⟨pt.val - 114, by omega⟩
    c.function == .alarm && c.edge
  else [2, 5, 9, 11].contains (kindOfPoint pt).val

/-! ## The notice queue (R167) -/

/-- Whether an entry stands before another: by priority, then first-change time, then point number (R167). An entry of a
point entered again at the house sample of others of its priority takes its place by point number too, and two times on
either side of the house counter's wrap stand as plain numbers (log entry 44). -/
def noticeBefore (prio : Fin 118 → Nat) (x y : Notice) : Bool :=
  decide (prio x.point < prio y.point)
    || (decide (prio x.point = prio y.point)
      && (decide (x.first.toNat < y.first.toNat) || (decide (x.first = y.first) && decide (x.point.val < y.point.val))))

/-- An entry put at its place in the queue. -/
def insertNotice (prio : Fin 118 → Nat) (x : Notice) : List Notice → List Notice
  | [] => [x]
  | y :: rest => if noticeBefore prio x y then x :: y :: rest else y :: insertNotice prio x rest

/-- The queue in order under the priorities given (R155). -/
def sortNotices (prio : Fin 118 → Nat) (l : List Notice) : List Notice := l.foldr (insertNotice prio) []

/-- The priority of a point's kind. -/
def AlarmUnit.priority (a : AlarmUnit) (pt : Fin 118) : Nat := (a.settingsOf pt).priority

/-- R167: a change of a point's annunciation or protection enters it in the notice queue, or is counted in the
entry it has; R161, R163: it sets the house counter of the last change. -/
def AlarmUnit.enterNotice (now : Time) (pt : Fin 118) (a : AlarmUnit) : AlarmUnit :=
  let a1 := a.setPoint pt { a.point pt with lastChange := some now }
  if a1.notices.any fun n => n.point == pt then
    { a1 with notices := a1.notices.map fun n =>
        if n.point == pt then { n with coalesced := holdAt 255 (n.coalesced + 1) } else n }
  else { a1 with notices := insertNotice a1.priority ⟨pt, 0, now⟩ a1.notices }

/-! ## Annunciation and protection (R161, R163) -/

/-- A point's annunciation becomes `x`; a change is entered in the notice queue. -/
def AlarmUnit.annunciate (now : Time) (pt : Fin 118) (x : Annunciation) (a : AlarmUnit) : AlarmUnit :=
  if (a.point pt).ann = x then a else (a.setPoint pt { a.point pt with ann := x }).enterNotice now pt

/-- A point's protection becomes APPLIED or NONE; a change is entered in the notice queue. -/
def AlarmUnit.protect (now : Time) (pt : Fin 118) (x : Bool) (a : AlarmUnit) : AlarmUnit :=
  if (a.point pt).applied = x then a else (a.setPoint pt { a.point pt with applied := x }).enterNotice now pt

/-- R163: protection is applied where the kind allows it. -/
def AlarmUnit.protectIfMay (now : Time) (pt : Fin 118) (a : AlarmUnit) : AlarmUnit :=
  if a.mayProtect pt then a.protect now pt true else a

/-- The filtered condition rises (R161, R163). -/
def AlarmUnit.rise (now : Time) (pt : Fin 118) (a : AlarmUnit) : AlarmUnit :=
  let p := a.point pt
  let a1 := a.setPoint pt
    { p with filtered := true, raiseCount := holdAt 65535 (p.raiseCount + 1), lastRise := some now }
  (a1.annunciate now pt .activeUnack).protectIfMay now pt

/-- The annunciation that follows a fall (R161). -/
def fallenAnn : Annunciation → Annunciation
  | .activeUnack => .returnedUnack
  | .activeAck => .quiet
  | .quiet => .quiet
  | .returnedUnack => .returnedUnack

/-- The filtered condition falls (R161). -/
def AlarmUnit.fall (now : Time) (pt : Fin 118) (a : AlarmUnit) : AlarmUnit :=
  (a.setPoint pt { a.point pt with filtered := false }).annunciate now pt (fallenAnn (a.point pt).ann)

/-- The annunciation that follows an acknowledgement (R162). -/
def ackedAnn : Annunciation → Annunciation
  | .activeUnack => .activeAck
  | .returnedUnack => .quiet
  | .quiet => .quiet
  | .activeAck => .activeAck

/-- A point is acknowledged (R162). -/
def AlarmUnit.acknowledge (now : Time) (pt : Fin 118) (a : AlarmUnit) : AlarmUnit :=
  a.annunciate now pt (ackedAnn (a.point pt).ann)

/-! ## Raw conditions and events (R157, R158) -/

/-- A state point's raw condition as its source hands it: a change is recorded with its house sample, and a raw
condition that goes present while the filtered condition is present applies protection (R163). -/
def AlarmUnit.handRaw (now : Time) (pt : Fin 118) (v : Bool) (a : AlarmUnit) : AlarmUnit :=
  if (a.point pt).raw = v then a
  else
    let a1 := a.setPoint pt { a.point pt with raw := v, lastRaw := some now, since := now }
    if v && (a.point pt).filtered then a1.protectIfMay now pt else a1

/-- An event point is handed an event (R158, R160, R163). In mode OFF the event time and the raw condition are still
kept (R156). -/
def AlarmUnit.event (now : Time) (pt : Fin 118) (a : AlarmUnit) : AlarmUnit :=
  let p := a.point pt
  let a1 := a.setPoint pt
    { p with
      raw := true, lastEvent := some now, lastRaw := if p.raw then p.lastRaw else some now
      since := if p.raw then p.since else now }
  if (a.settingsOf pt).mode = .off then a1
  else if p.filtered then (if p.raw then a1 else a1.protectIfMay now pt)
  else a1.rise now pt

/-! ## What is judged at an alarm boundary (R157 to R160, R164) -/

/-- R158: an event point's raw condition goes absent at a boundary with no event in the 480 house samples before. -/
def AlarmUnit.restDue (now : Time) (pt : Fin 118) (a : AlarmUnit) : Bool :=
  a.isEventPoint pt && (a.point pt).raw
    && (match (a.point pt).lastEvent with
        | some e => decide (480 < since now e)
        | none => true)

/-- R158: the raw condition goes absent. -/
def AlarmUnit.restPoint (now : Time) (pt : Fin 118) (a : AlarmUnit) : AlarmUnit :=
  if a.restDue now pt then a.setPoint pt { a.point pt with raw := false, lastRaw := some now, since := now } else a

/-- R159: a state point's filtered condition rises at this boundary. -/
def AlarmUnit.riseDue (now : Time) (pt : Fin 118) (a : AlarmUnit) : Bool :=
  !a.isEventPoint pt && (a.settingsOf pt).mode != .off && !(a.point pt).filtered && (a.point pt).raw
    && timeOut (a.settingsOf pt).raiseCode now (a.point pt).since

/-- R159: the rise, where it is due. -/
def AlarmUnit.filterRise (now : Time) (pt : Fin 118) (a : AlarmUnit) : AlarmUnit :=
  if a.riseDue now pt then a.rise now pt else a

/-- R159, R160: the house sample a clear time counts from: a state point's from the raw condition's change, an event
point's from its latest event, or from the raw condition's change where it has had none (log entry 45). -/
def AlarmUnit.clearFrom (pt : Fin 118) (a : AlarmUnit) : Time :=
  if a.isEventPoint pt then (a.point pt).lastEvent.getD (a.point pt).since else (a.point pt).since

/-- R159, R160: a point's filtered condition falls at this boundary. -/
def AlarmUnit.fallDue (now : Time) (pt : Fin 118) (a : AlarmUnit) : Bool :=
  let p := a.point pt
  (a.settingsOf pt).mode != .off && p.filtered && !p.raw && timeOut (a.settingsOf pt).clearCode now (a.clearFrom pt)

/-- R159, R160: the fall, where it is due. -/
def AlarmUnit.filterFall (now : Time) (pt : Fin 118) (a : AlarmUnit) : AlarmUnit :=
  if a.fallDue now pt then a.fall now pt else a

/-- R164: under PROTECT_RETRY an applied protection is removed at this boundary. -/
def AlarmUnit.retryDue (now : Time) (pt : Fin 118) (a : AlarmUnit) : Bool :=
  (a.settingsOf pt).mode == .protectRetry && (a.point pt).applied && !(a.point pt).raw
    && timeOut (a.settingsOf pt).retryCode now (a.point pt).since

/-- R164: the removal, where it is due. -/
def AlarmUnit.retry (now : Time) (pt : Fin 118) (a : AlarmUnit) : AlarmUnit :=
  if a.retryDue now pt then a.protect now pt false else a

/-- All that is judged of one point at an alarm boundary. -/
def AlarmUnit.judge (now : Time) (a : AlarmUnit) (pt : Fin 118) : AlarmUnit :=
  (((a.restPoint now pt).filterRise now pt).filterFall now pt).retry now pt

/-! ## Kind settings (R154 to R156) -/

/-- A point whose kind's mode changes from `old` to the mode the unit now holds for it (R156). -/
def AlarmUnit.modeChanged (now : Time) (old : AlarmMode) (a : AlarmUnit) (pt : Fin 118) : AlarmUnit :=
  match (a.settingsOf pt).mode with
  | .off =>
    if old = .off then a
    else ((a.setPoint pt { a.point pt with filtered := false }).annunciate now pt .quiet).protect now pt false
  | .report =>
    if old = .off then
      (if (a.point pt).raw && !a.isEventPoint pt then a.setPoint pt { a.point pt with since := now } else a)
    else a.protect now pt false
  | .protectLatched | .protectRetry =>
    if old = .off then
      (if (a.point pt).raw && !a.isEventPoint pt then a.setPoint pt { a.point pt with since := now } else a)
    else if old = .report ∧ (a.point pt).filtered ∧ (a.point pt).raw then a.protect now pt true
    else a

/-- A kind's settings replaced, with all that follows at the house sample (R155, R156). -/
def AlarmUnit.setKind (now : Time) (k : Fin 13) (x : KindSettings) (a : AlarmUnit) : AlarmUnit :=
  let old := (a.kind k).mode
  let a1 := { a with kinds := a.kinds.set k.val x k.isLt }
  let a2 := { a1 with notices := sortNotices a1.priority a1.notices }
  if old = x.mode then a2
  else (allPoints.filter fun pt => kindOfPoint pt == k).foldl (AlarmUnit.modeChanged now old) a2

/-! ## Clearing protection (R165) -/

/-- Whether a point keeps its protection against a CLEAR_PROTECTION. -/
def AlarmUnit.stillPresent (a : AlarmUnit) (pt : Fin 118) : Bool := (a.point pt).applied && (a.point pt).raw

/-- A point's protection is removed unless its raw condition is present. -/
def AlarmUnit.clearPoint (now : Time) (a : AlarmUnit) (pt : Fin 118) : AlarmUnit :=
  if (a.point pt).raw then a else a.protect now pt false

/-! ## Points set back (R169, R175) -/

/-- R157, R169: a point set at rest. A raw condition that goes absent with its subject is a change at this house sample;
what is not set back keeps what it holds. -/
def Point.drop (now : Time) (p : Point) : Point :=
  { Point.reset with
    lastRaw := if p.raw then some now else p.lastRaw
    lastEvent := p.lastEvent
    since := if p.raw then now else p.since }

/-- R169: a program's point at the end of its program. -/
def AlarmUnit.dropPoint (now : Time) (a : AlarmUnit) (pt : Fin 118) : AlarmUnit :=
  { a.setPoint pt ((a.point pt).drop now) with notices := a.notices.filter fun n => n.point != pt }

/-- The six points of a program. -/
def programPoints (p : Fin 16) : List (Fin 118) :=
  [progPoint 0 p, progPoint 1 p, progPoint 2 p, progPoint 3 p, progPoint 4 p, progPoint 5 p]

/-- R169: a program's six points are set at rest and leave the notice queue without a notice. -/
def AlarmUnit.dropProgram (now : Time) (p : Fin 16) (a : AlarmUnit) : AlarmUnit :=
  (programPoints p).foldl (AlarmUnit.dropPoint now) a

/-- R175: a point after RESTART. The raw condition of a state point whose subject remains is kept and counts its
times from the RESTART; that of an event point, or of a program's point, is absent. -/
def AlarmUnit.restartPoint (now : Time) (a : AlarmUnit) (pt : Fin 118) : AlarmUnit :=
  let p := a.point pt
  let stays := p.raw && !a.isEventPoint pt && !(decide (16 ≤ pt.val) && decide (pt.val < 112))
  a.setPoint pt { Point.reset with
    raw := stays, lastRaw := if p.raw && !stays then some now else p.lastRaw, since := now }

/-- R175: the Alarm Unit after RESTART. -/
def AlarmUnit.restart (now : Time) (a : AlarmUnit) : AlarmUnit :=
  { allPoints.foldl (AlarmUnit.restartPoint now) a with notices := [] }

/-! ## Flags and summary outputs (R168, R170) -/

/-- ALARM_UNACK: any point is ACTIVE_UNACK or RETURNED_UNACK. -/
def AlarmUnit.unackFlag (a : AlarmUnit) : Bool :=
  allPoints.any fun pt => (a.point pt).ann == .activeUnack || (a.point pt).ann == .returnedUnack

/-- PROTECT_ON: any point's protection is APPLIED. -/
def AlarmUnit.protectFlag (a : AlarmUnit) : Bool := allPoints.any fun pt => (a.point pt).applied

/-- NOTICE_WAIT: the notice queue holds at least one entry. -/
def AlarmUnit.noticeFlag (a : AlarmUnit) : Bool := !a.notices.isEmpty

/-- Whether an annunciation is one that a summary output's filter names (R170). -/
def filterNames (anyActive : Bool) : Annunciation → Bool
  | .quiet => false
  | .activeUnack => true
  | .returnedUnack => true
  | .activeAck => anyActive

/-- R170: an enabled output is asserted while at least one point meets its kind set, ceiling and filter. -/
def AlarmUnit.asserted (a : AlarmUnit) (o : Fin 4) : Bool :=
  let x := a.summaries[o.val]'o.isLt
  x.enabled && allPoints.any fun pt =>
    x.kinds.getLsbD (kindOfPoint pt).val && decide (a.priority pt ≤ x.ceiling) && filterNames x.anyActive (a.point pt).ann

/-- R170: the level of a summary output's pin, true for high. -/
def AlarmUnit.summaryPin (a : AlarmUnit) (o : Fin 4) : Bool :=
  a.asserted o != (a.summaries[o.val]'o.isLt).activeLow

/-! ## Contact inputs (R171) -/

/-- Whether the pin of a contact input reads active under its polarity. -/
def AlarmUnit.reading (a : AlarmUnit) (c : Fin 4) : Bool := a.pins.getLsbD c.val != (a.contact c).activeLow

/-- A contact input after an alarm boundary's reading. -/
def Contact.read (x : Contact) (r : Bool) : Contact :=
  { x with lastReading := some r, level := if x.lastReading = some r then r else x.level }

/-- What a change of conditioned level does to the input's EXTERNAL point (R171). -/
def AlarmUnit.externalChange (now : Time) (c : Fin 4) (a : AlarmUnit) : AlarmUnit :=
  let x := a.contact c
  if x.function = .alarm then
    (if x.edge then (if x.level then a.event now (externalPoint c) else a)
     else a.handRaw now (externalPoint c) x.level)
  else a

/-- An input's reading at an alarm boundary, with its effect on its EXTERNAL point. -/
def AlarmUnit.readContact (now : Time) (a : AlarmUnit) (c : Fin 4) : AlarmUnit :=
  let x := a.contact c
  let y := x.read (a.reading c)
  let a1 := a.setContact c y
  if y.level = x.level then a1 else a1.externalChange now c

/-- Whether a contact input with a function is active and covers a program. -/
def Contact.covers (x : Contact) (f : ContactFunction) (p : Fin 16) : Bool :=
  x.function == f && x.level && x.programs.getLsbD p.val

/-- Whether an active input with function INTEGRATION_HOLD covers a program (R85). -/
def AlarmUnit.holdCovers (a : AlarmUnit) (p : Fin 16) : Bool :=
  allLanes.any fun c => (a.contact c).covers .integrationHold p

/-- Whether an active input with function FORCE_BACKUP covers a program (R60). -/
def AlarmUnit.forceCovers (a : AlarmUnit) (p : Fin 16) : Bool :=
  allLanes.any fun c => (a.contact c).covers .forceBackup p

/-- R172: an input's settings replaced. The conditioned level and the last reading are kept; the EXTERNAL point's raw
condition follows the new function, a change of it being one only where it differs at the end of the request (log entry
37), and an ALARM input with sense EDGE that stays one is left as it is. -/
def AlarmUnit.changeContact (now : Time) (c : Fin 4) (f : ContactFunction) (activeLow : Bool) (programs : BitVec 16)
    (edge : Bool) (a : AlarmUnit) : AlarmUnit :=
  let x := a.contact c
  let a1 := a.setContact c { x with function := f, activeLow := activeLow, programs := programs, edge := edge }
  if x.function = .alarm ∧ x.edge ∧ f = .alarm ∧ edge then a1
  else a1.handRaw now (externalPoint c) (decide (f = .alarm) && !edge && x.level)

end Sys2Proof.Machine
end

