-- ==== Sys2Proof/Machine/Interpolator.lean ====
section
/-! DEFINITION. The interpolator of R38: the coefficient set of each lane class, the response that a set meets, and the
sample that a set gives of the 64 lane frames nearest the read position. A read at a whole ratio keeps one phase; a read
at any other sweeps the phases. Log entry 10. -/

namespace Sys2Proof

open Machine

/-! ## The response (R38) -/

/-- Σ hᵢ zⁱ of a list of coefficients at a point z of the unit circle, by Goertzel's recurrence: the sum is
(x − y·z̄) / scale. -/
structure Tone where
  x : Int
  y : Int
  scale : Int

/-- The response of a list of coefficients to a tone, given by the cosine of its angle for one lane frame in units of
2⁻⁶⁰. -/
def tone (cosine : Int) : List Int → Tone
  | [] => ⟨0, 0, 1⟩
  | h :: rest =>
    let t := tone cosine rest
    ⟨1152921504606846976 * t.scale * h + 2 * cosine * t.x - 1152921504606846976 * t.y, 1152921504606846976 * t.x,
      1152921504606846976 * t.scale⟩

/-- A bound on the response at a frequency f of a lane of F frames in a second: 2⁶⁰ · cos(2πf/F) to the nearest whole
number, and the least and greatest power gain in units of 10⁻¹². -/
structure ToneRow where
  cosine : Int
  least : Int
  greatest : Int

/-- Whether a phase's coefficients, in units of 2⁻ᵇⁱᵗˢ, keep to a row. -/
def ToneRow.keptBy (bits : Nat) (taps : List Int) (r : ToneRow) : Bool :=
  let t := tone r.cosine taps
  let power := ((t.x * t.x + t.y * t.y) * 1152921504606846976 - 2 * r.cosine * t.x * t.y) * 1000000000000
  let one := 1152921504606846976 * t.scale * t.scale * (4 ^ bits : Nat)
  decide (r.least * one ≤ power) && decide (power ≤ r.greatest * one)

/-- The cosine of a class's passband end, 14.5 kHz or 20 kHz, rounded up (R38). -/
def Machine.RateClass.passbandEnd : RateClass → Int
  | .k32 => -1103277091691359534
  | .k44 => -1104093337401318688
  | .k48 => -998459311558907193
  | .k96 => 298398042900505627

/-- R38: the gain lies within ±0.01 dB in the whole passband, at every cosine that is a multiple of 2⁻⁶⁰ from the
passband's end to 0 Hz. -/
def keepsPassband (c : RateClass) (bits : Nat) (taps : List Int) : Bool :=
  decide (∀ n < (1152921504606846976 - c.passbandEnd).toNat + 1,
    (ToneRow.mk (1152921504606846976 - n) 997700063822 1002305238078).keptBy bits taps = true)

/-- A bound kept at every cosine that is a multiple of 2⁻⁶⁰ from a row's down to −1, and so at every frequency from the
row's on. -/
def keepsOn (bits : Nat) (taps : List Int) (r : ToneRow) : Bool :=
  decide (∀ n < (r.cosine + 1152921504606846976).toNat + 1,
    (ToneRow.mk (r.cosine - n) r.least r.greatest).keptBy bits taps = true)

/-- R38's −3 dB point, to the table's tenth of a kHz: the gain is at least −3 dB half a tenth below it and at most −3 dB
half a tenth above. -/
def minusThreeRows (belowPoint abovePoint : Int) : List ToneRow :=
  [⟨belowPoint, 501187233627, 1002305238078⟩, ⟨abovePoint, 0, 501187233628⟩]

/-- An attenuation of at least 100 dB (R38). -/
def stopRow (c : Int) : ToneRow := ⟨c, 0, 100⟩

/-! ### One phase

A lane at a ratio of exactly 1 or 2 keeps one phase, and the phase's response is then the lane's. -/

/-- R38's table at tones of a lane, which lie up to half its rate, for a phase by itself. Stopband: its beginning, which
in the three slower classes is half the lane's rate; in the 96 kHz class 24 kHz and every 2 kHz from there to half the
lane's rate. −3 dB point, 22.6 kHz: in the two classes in which a read can keep one phase. -/
def Machine.RateClass.toneRows : RateClass → List ToneRow
  | .k32 => [stopRow (-1152921504606846976)]
  | .k44 => [stopRow (-1152921504606846976)]
  | .k48 => minusThreeRows (-1132216334499451473) (-1134966560057152566) ++ [stopRow (-1152921504606846976)]
  | .k96 => minusThreeRows 109250711378368459 101736526590419297 ++
      [0, -150486453924944405, -298398042900505626, -441203958630471860, -576460752303423488, -701854142679348461,
       -815238614083298888, -914674126773438719, -998459311558907194, -1065160580698383124, -1113636656983804515,
       -1143058101309820321, -1152921504606846976].map stopRow

/-- The 96 kHz class's stopband between those tones, for a phase by itself: at least 14, 20, 38 and 58 dB from 24, 30,
36 and 40 kHz on. No 64 coefficients keep 100 dB in the whole of it (`stopband_not_kept` of Laws/Stopband.lean). -/
def Machine.RateClass.toneSteps : RateClass → List ToneRow
  | .k32 => []
  | .k44 => []
  | .k48 => []
  | .k96 => [⟨0, 0, 39810717055⟩, ⟨-441203958630471861, 0, 10000000000⟩, ⟨-815238614083298889, 0, 158489319⟩,
      ⟨-998459311558907194, 0, 1584893⟩]

/-- The sum of a phase's coefficients, each times its place in lane frames, the first at a place. -/
def weighPlaces (place : Int) : List Int → Int
  | [] => 0
  | h :: rest => place * h + weighPlaces (place + 1) rest

/-- R38: the gain at 0 Hz is 0 dB; what the coefficients weigh is centred on the read position, to half a phase; the
passband is kept, and every row of the table outside it. The first coefficient is that of the earliest frame, which
lies 32 lane frames less the phase before the read position. -/
def phaseMeets (c : RateClass) (bits phase : Nat) (taps : List Int) : Bool :=
  decide (taps.length = 64) && decide (taps.sum = (2 ^ bits : Nat))
    && decide (2 * (256 * (weighPlaces (-32) taps) + phase * taps.sum).natAbs ≤ 2 ^ bits)
    && keepsPassband c bits taps && (c.toneRows.all fun r => r.keptBy bits taps)
    && c.toneSteps.all fun r => keepsOn bits taps r

/-! ### A sweep of the phases

A read that sweeps the phases, as every read at 32 and 44.1 kHz does, has for gain at a tone the mean of the phases, each
turned to its place: the response of the coefficients of all phases in the order of their places, at 256 times the lane's
rate. The images of the tone, at the multiples of the lane's rate plus and minus it, are that response's further
frequencies, up to 128 times the lane's rate. -/

/-- The coefficients of all phases in the order of their places, 256 to a lane frame. -/
def Interpolator.sweep (i : Interpolator) : List Int :=
  (List.range 64).flatMap fun k => (List.range 256).map fun p => (i.phases.getD p []).getD k 0

/-- The cosine of a class's passband end, at 256 times the lane's rate, rounded up. -/
def Machine.RateClass.sweepPassbandEnd : RateClass → Int
  | .k32 => 1152850205987220496
  | .k44 => 1152850083285836173
  | .k48 => 1152861217661146813
  | .k96 => 1152906432771906899

/-- R38's −3 dB point for a sweep: 15.4, 21.2, 22.6 and 22.6 kHz. -/
def Machine.RateClass.sweepRows : RateClass → List ToneRow
  | .k32 => minusThreeRows 1152841601928573150 1152840557472422987
  | .k44 => minusThreeRows 1152841633794738818 1152840876738485013
  | .k48 => minusThreeRows 1152844864631513194 1152844183398251995
  | .k96 => minusThreeRows 1152902344453804312 1152902174142646068

/-- R38's stopband for a sweep, with every image: the attenuation from each frequency on. It is 100 dB from 18.0, 24.8,
27.0 and 48.0 kHz on, and below them as much as 64 coefficients were found to hold beside the rest of the table:
17, 28 and 60 dB from 16.0, 17.0 and 17.5 kHz; 17, 30 and 60 dB from 22.05, 23.5 and 24.1 kHz; 47 dB from 24.0 kHz; and
14, 20, 38 and 58 dB from 24, 30, 36 and 40 kHz. Log entry 10. -/
def Machine.RateClass.sweepSteps : RateClass → List ToneRow
  | .k32 => [⟨1152834691737939371, 0, 19952623149⟩, ⟨1152823501175102768, 0, 1584893192⟩,
      ⟨1152817651577120978, 0, 1000000⟩, stopRow 1152811632435902274]
  | .k44 => [⟨1152834691737939371, 0, 19952623149⟩, ⟨1152822898933036073, 0, 1000000000⟩,
      ⟨1152817799547206848, 0, 1000000⟩, stopRow 1152811687793214243]
  | .k48 => [⟨1152834691737939371, 0, 19952623⟩, stopRow 1152811632435902274]
  | .k96 => [⟨1152899801185339686, 0, 39810717055⟩, ⟨1152887593070589789, 0, 10000000000⟩,
      ⟨1152872672099968859, 0, 158489319⟩, ⟨1152861217661146812, 0, 1584893⟩, stopRow 1152834691737939371]

/-- R38: the response of a sweep lies within ±0.01 dB in the whole passband, has its −3 dB point, and is attenuated at
every frequency from the stopband's beginning on. The coefficients of the 256 phases together weigh 256 times 1. -/
def Interpolator.sweepMeets (i : Interpolator) (c : RateClass) : Bool :=
  decide (∀ n < (1152921504606846976 - c.sweepPassbandEnd).toNat + 1,
      (ToneRow.mk (1152921504606846976 - n) 997700063822 1002305238078).keptBy (i.bits + 8) i.sweep = true)
    && (c.sweepRows.all fun r => r.keptBy (i.bits + 8) i.sweep)
    && c.sweepSteps.all fun r => keepsOn (i.bits + 8) i.sweep r

/-- R38: whether a coefficient set has 256 phases of 64 coefficients, which give the response of a class one by one and
swept. -/
def Interpolator.meets (i : Interpolator) (c : RateClass) : Bool :=
  decide (i.phases.length = 256)
    && ((List.range 256).all fun p => phaseMeets c i.bits p (i.phases.getD p []))
    && i.sweepMeets c

/-! ## A set that meets the response

A filter of 251 coefficients at four times the lane's rate, each coefficient spread over 384 places of 256 to a lane frame
by a spline, which is 1 spread over 64 places six times. -/

/-- The number of ways to choose 5 of n − k + 5. -/
def splinePart (n k : Nat) : Nat :=
  let m := n - k
  if n < k then 0 else (m + 1) * (m + 2) * (m + 3) * (m + 4) * (m + 5) / 120

/-- The spline: the coefficient of xⁿ in x³·(1 + x + … + x⁶³)⁶. -/
def spline (n : Nat) : Nat :=
  splinePart n 3 + 15 * splinePart n 131 + 15 * splinePart n 259
    - (6 * splinePart n 67 + 20 * splinePart n 195 + 6 * splinePart n 323)

/-- The filter of the 32 kHz class, from its middle coefficient on, in units of 2⁻²⁸. -/
def someHalf32 : List Int :=
  [67910554, 61378059, 43959589, 21359301, 575431, -12723459, -16169519, -11232017, -2177569, 5983915, 9643359,
   7883358, 2458420, -3403788, -6730222, -6178044, -2505620, 2054474, 5060158, 5113935, 2473560, -1231285,
   -3961630, -4356899, -2398145, 691626, 3178967, 3777649, 2300404, -315699, -2583870, -3300842, -2180449,
   54796, 2118750, 2899509, 2049843, 132296, -1740927, -2545697, -1907034, -258849, 1432205, 2235002, 1761040,
   346971, -1171500, -1951413, -1607471, -398117, 956004, 1698564, 1457197, 428100, -770599, -1464778, -1304428,
   -433907, 617233, 1256730, 1158498, 428161, -485608, -1065794, -1014660, -407683, 379429, 898335, 883424,
   383596, -286478, -745099, -755929, -350221, 213736, 613361, 642591, 317803, -150261, -493860, -534188,
   -279547, 104431, 394205, 442484, 245039, -63168, -305503, -355028, -207396, 37662, 235252, 285518, 176472,
   -12870, -173123, -219485, -144140, 784, 125870, 169942, 117891, 12751, -85482, -122085, -91194, -13901,
   58094, 92095, 72341, 21156, -33709, -60679, -52363, -18005, 21324, 43938, 43114, 19268, -8905, -35272,
   -43874, -42492, -28204, -17188, -5388]

/-- The filter of the 44.1 kHz class, from its middle coefficient on, in units of 2⁻²⁸. -/
def someHalf44 : List Int :=
  [67908832, 61376098, 43958543, 21359737, 577390, -12719854, -16166158, -11230692, -2179862, 5978769, 9637493,
   7880162, 2460743, -3397297, -6721967, -6173209, -2507618, 2046598, 5049794, 5107591, 2474916, -1222116,
   -3949710, -4349207, -2399084, 681373, 3165697, 3768737, 2301253, -304672, -2569160, -3290877, -2181188,
   43279, 2102684, 2888651, 2050154, 144064, -1724170, -2534245, -1906990, -270855, 1415348, 2223153, 1760976,
   359255, -1154648, -1939191, -1607487, -410399, 939007, 1686061, 1456925, 439776, -753775, -1452620, -1303769,
   -444811, 601041, 1245460, 1157751, 438762, -470116, -1054992, -1013738, -417713, 365042, 887853, 882481,
   392651, -273471, -735262, -755266, -358289, 201873, 604363, 642022, 324956, -139473, -485813, -533445,
   -285830, 94849, 387108, 441503, 250445, -54976, -299315, -354049, -211915, 30784, 229846, 284719, 180071,
   -7031, -168447, -218734, -146761, -4089, 122006, 169068, 119713, 16524, -82493, -121159, -92527, -16556,
   55761, 91348, 73286, 22921, -31940, -60276, -52993, -19357, 20005, 43743, 43540, 20682, -7730, -34517,
   -43575, -43193, -28696, -17794, -5930]

/-- The filter of the 48 kHz class, from its middle coefficient on, in units of 2⁻²⁸. -/
def someHalf48 : List Int :=
  [66894570, 60615049, 43829054, 21931414, 1566872, -11805943, -15794770, -11601131, -3119846, 4938894, 9030941,
   8032088, 3310600, -2277269, -5914408, -6116247, -3251089, 876146, 4068241, 4846804, 3092096, -40979,
   -2835523, -3911022, -2892767, -490191, 1944241, 3170449, 2662176, 828715, -1284129, -2567920, -2428283,
   -1046093, 773552, 2059990, 2188018, 1173483, -379691, -1631896, -1955352, -1244063, 66323, 1259016, 1723976,
   1265161, 177981, -937898, -1500854, -1253713, -369908, 654714, 1282966, 1211235, 516327, -408374, -1071587,
   -1145719, -624004, 190947, 862949, 1053073, 689472, -10501, -667124, -945650, -722671, -141619, 479099,
   818240, 718245, 255205, -310299, -684195, -684409, -336430, 162027, 544342, 624730, 380937, -39620, -410463,
   -547191, -396743, -58247, 282669, 453254, 380317, 122657, -175070, -358742, -346201, -163522, 83282, 262131,
   292692, 173467, -17937, -181103, -235658, -170668, -29546, 106153, 172843, 145854, 51765, -54013, -119921,
   -118527, -62223, 14163, 71115, 84447, 55762, 5682, -39700, -59000, -49850, -18866, 14431, 40317, 47385,
   43370, 27020, 16411, 3846]

/-- The filter of the 96 kHz class, from its middle coefficient on, in units of 2⁻²⁸. -/
def someHalf96 : List Int :=
  [32207030, 31459927, 29280245, 25848195, 21442724, 16417293, 11162481, 6072384, 1504100, -2249490, -4989357,
   -6618758, -7152337, -6702492, -5466360, -3696091, -1672244, 329588, 2066371, 3352013, 4071647, 4190423,
   3748388, 2852615, 1655035, 335611, -927198, -1972570, -2681647, -2984341, -2869639, -2379052, -1601524,
   -657006, 319476, 1197005, 1864211, 2244170, 2300902, 2044493, 1523590, 822507, 42294, -706777, -1326763,
   -1738286, -1895952, -1788141, -1440721, -910291, -276131, 371723, 944239, 1366063, 1584476, 1577510, 1351873,
   947526, 423440, -142402, -673089, -1094253, -1352530, -1416716, -1281112, -971633, -532457, -25174, 476852,
   908413, 1206666, 1331367, 1262455, 1006951, 598137, 93756, -432058, -896689, -1224325, -1355359, -1263248,
   -956658, -485273, 71370, 613055, 1041602, 1276989, 1276771, 1042826, 624117, 103967, -413900, -830603,
   -1068515, -1091338, -905032, -560348, -135171, 279283, 602259, 776640, 781859, 634295, 380928, 85878,
   -184957, -379466, -468244, -449894, -344911, -191661, -29822, 104154, 188851, 217478, 197634, 147480, 83563,
   27001, -16447, -37105, -44775, -35770, -27347, -13149, -8323]

/-- The halves of a class. -/
def Machine.RateClass.someHalf : RateClass → List Int
  | .k32 => someHalf32
  | .k44 => someHalf44
  | .k48 => someHalf48
  | .k96 => someHalf96

/-- A filter from its half: the same on both sides of the middle, with five coefficients of 0 before and after. -/
def mirrored (half : List Int) : List Int :=
  List.replicate 5 0 ++ (half.tail.reverse ++ half) ++ List.replicate 5 0

/-- A phase of a filter spread by the spline: at each frame the six coefficients that reach it. -/
def spread (filter : List Int) (phase : Nat) : List Int :=
  (List.range 64).map fun k =>
    (List.zipWith (· * ·) ([320, 256, 192, 128, 64, 0].map fun j => (spline (phase % 64 + j) : Int))
      (filter.drop (4 * k + phase / 64))).sum

/-- One coefficient set for each class that meets its response: what stands for a set that does not. -/
def someInterpolator (c : RateClass) : Interpolator :=
  { bits := 56, phases := (List.range 256).map (spread (mirrored c.someHalf)) }

/-- The code of a class (R194). -/
def Machine.RateClass.code : RateClass → Nat
  | .k32 => 1
  | .k44 => 2
  | .k48 => 3
  | .k96 => 4

/-- R38: the part's coefficient set, fixed for each class: any set that meets the response. -/
def Machine.interpolator (c : RateClass) : Interpolator :=
  if (Config.interpolators c.code).meets c then Config.interpolators c.code else someInterpolator c

/-! ## One sample -/

/-- R38: the sample of a phase of a coefficient set, rounded to the nearest 24-bit value, ties up, and held. -/
def Interpolator.sample (i : Interpolator) (phase : Nat) (frames : List Sample) : Sample :=
  holdSample (roundDiv (List.zipWith (fun k x => k * x.toInt) (i.phases.getD phase []) frames).sum (2 ^ i.bits))

end Sys2Proof
end

