-- ==== Sys2Proof/Machine/Lanes.lean ====
section
/-! DEFINITION. The Lane Unit (chapter 2), on one lane: the receiver, the classifier, the state machine, the elastic
store, the ratio loop, slips and path latency. -/

namespace Sys2Proof.Machine

/-! ## Classes (R24) -/

/-- R24: the class of a window's count, or none. -/
def classOfCount (n : Nat) : Option RateClass :=
  if 637 ≤ n ∧ n ≤ 643 then some .k32
  else if 878 ≤ n ∧ n ≤ 886 then some .k44
  else if 956 ≤ n ∧ n ≤ 964 then some .k48
  else if 1911 ≤ n ∧ n ≤ 1929 then some .k96
  else none

/-- R24: the nominal ratio of a class. -/
def RateClass.nominal : RateClass → Int
  | .k32 => 11184811
  | .k44 => 15414067
  | .k48 => 16777216
  | .k96 => 33554432

/-- R24: the catch range of a class. -/
def RateClass.catchRange : RateClass → Int
  | .k32 => 11184
  | .k44 => 15414
  | .k48 => 16777
  | .k96 => 33554

/-- R24: a lane's loop class, its class or the 48 kHz class while it has none. -/
def Lane.loopClass (l : Lane) : RateClass := l.cls.getD .k48

/-- R37: a ratio held within the loop class's nominal ratio plus or minus its catch range. -/
def Lane.holdRatio (l : Lane) (v : Int) : Int :=
  clampInt (l.loopClass.nominal - l.loopClass.catchRange) (l.loopClass.nominal + l.loopClass.catchRange) v

/-! ## The elastic store (R36) -/

/-- The states in which the store is read: PULLING, READY and LOCKED. -/
def LaneState.reading : LaneState → Bool
  | .pulling => true
  | .ready => true
  | .locked => true
  | .dark => false
  | .sensing => false
  | .holdover => false

/-- R36: whether a lane frame that arrives now is written into the store. -/
def Lane.writes (l : Lane) : Bool := l.enabled && l.state != .dark

/-- R36: the fill in 1/256 lane frame. -/
def Lane.fill (l : Lane) : Nat := l.fillQ / 2 ^ 16

/-- R37: the fill error e. -/
def Lane.fillError (l : Lane) : Int := (l.fill : Int) - 16384

/-- R36: the store emptied. -/
def Lane.emptyStore (l : Lane) : Lane := { l with store := [], fillQ := 0 }

/-- R36: a lane frame written; a full store replaces its oldest frame, and the read position moves forward with it. -/
def Lane.writeFrame (slots : List Sample) (l : Lane) : Lane :=
  { l with
    store := (slots :: l.store).take 256
    fillQ := if l.state.reading then min (256 * 2 ^ 24) (l.fillQ + 2 ^ 24) else l.fillQ }

/-- R36: the read position advanced by ρ for one house sample, held at the write position. -/
def Lane.readAdvance (l : Lane) : Lane := { l with fillQ := l.fillQ - l.rho.toNat }

/-- R27, R33: the read position placed 64 lane frames behind the write position. -/
def Lane.placeRead (l : Lane) : Lane := { l with fillQ := 64 * 2 ^ 24 }

/-! ## Slips (R39) -/

/-- No slip on its way. -/
def Lane.noSlip (l : Lane) : Lane := { l with slip := Fade.restAt 96 }

/-- R39: whether the fill is out of its bounds in a reading state with no slip on its way. -/
def Lane.slipDue (l : Lane) : Bool :=
  l.state.reading && l.slip.dir == .steady && (decide (l.fill < 2048) || decide (57344 < l.fill))

/-- R39: a slip begins where it is due; its fade-out takes the next 96 house samples. -/
def Lane.slipTest (l : Lane) : Lane := if l.slipDue then { l with slip := (Fade.restAt 96).arm .falling } else l

/-- R39: the step, at the house sample after the fade-out: the whole part of the fill becomes 64, the fraction is
kept; in LOCKED the slip is counted. -/
def Lane.slipStep (l : Lane) : Lane :=
  if l.slip.fallen ∧ l.slip.level = 0 ∧ l.state.reading then
    { l with
      fillQ := 64 * 2 ^ 24 + l.fillQ % 2 ^ 24
      slip := l.slip.arm .rising
      slipCount := if l.state = .locked then holdAt 65535 (l.slipCount + 1) else l.slipCount }
  else l

/-- R45: the step of this house sample is one that is counted. -/
def Lane.slipCounts (l : Lane) : Bool := l.slip.fallen && l.slip.level == 0 && l.state == .locked

/-- R39: the fade-in has ended and the test resumes. -/
def Lane.slipEnd (l : Lane) : Lane := if l.slip.risen 96 then l.noSlip.slipTest else l

/-! ## Path latency (R40, R41) -/

/-- R40: latency32 of the present fill and ratio. -/
def Lane.measured (l : Lane) : Nat := (roundDiv ((l.fill : Int) * 2 ^ 21) l.rho.toNat).toNat + 1024

/-- R41: latency32 in whole house samples, ties up, held at no more than 255. -/
def wholeLatency (n : Nat) : Nat := min 255 ((n + 16) / 32)

/-- R41: the in-use latency set again where latency32 has moved 24 or more from it. -/
def Lane.hysteresis (l : Lane) : Lane :=
  if l.state = .locked ∧ 24 ≤ ((l.latency32 : Int) - 32 * l.inUse).natAbs then
    { l with inUse := wholeLatency l.latency32 }
  else l

/-! ## Entries to the states (R25, R27, R29, R32, R33) -/

/-- R25: the entry to SENSING. -/
def Lane.enterSensing (now : Time) (l : Lane) : Lane :=
  { l.noSlip with
    state := .sensing, fillQ := 0, rho := l.loopClass.nominal, rhoInt := l.loopClass.nominal, lockRun := 0
    pinRun := 0, windowStart := now, windowCount := 0, lastWindow := none, returnStart := none }

/-- R28, R29, R33: the entry to DARK: the store is emptied, the windows, the ratio loop and any slip stop. The lock and
pin run counts, which no rule keeps or clears here, hold their last value until SENSING clears them, as the model's
choice (log entry 49). -/
def Lane.enterDark (l : Lane) : Lane :=
  { l.noSlip.emptyStore with state := .dark, lastWindow := none, returnStart := none }

/-- R27: a class is found: the entry to PULLING. The control instant of the entry's own house sample is not one of
the lane's in PULLING (the example of chapter 2). -/
def Lane.enterPulling (c : RateClass) (l : Lane) : Lane :=
  { l.noSlip.placeRead with
    state := .pulling, cls := some c, rho := c.nominal, rhoInt := c.nominal, lockRun := 0, pinRun := 0
    lastWindow := none, controlTaken := true }

/-- R32: the entry to LOCKED. -/
def Lane.enterLocked (l : Lane) : Lane :=
  let n := l.measured
  { l with
    state := .locked, admission := false, latency32 := n, inUse := wholeLatency n
    entryFade := (Fade.restAt 0).turn 96 .rising, returnStart := none }

/-- R33: the entry to HOLDOVER. The run counts stop at the value they have, and DARK leaves them so (log entry 49). -/
def Lane.enterHoldover (now : Time) (l : Lane) : Lane :=
  { l.noSlip with state := .holdover, holdSince := now, returnStart := none }

/-! ## The receiver (R22, R23) -/

/-- Eight bits as a byte, the first in the most significant position. -/
def byteOfBits (l : List Bool) : Byte := l.foldl (fun b x => (b <<< 1) ||| (if x then 1 else 0)) 0

/-- R23: 192 bits as 24 bytes. -/
def bytesOfBits (l : List Bool) : List Byte := (List.range 24).map fun i => byteOfBits ((l.drop (8 * i)).take 8)

/-- R23: a status bit gathered. -/
def Lane.gather (status marker : Bool) (l : Lane) : Lane :=
  let bits := if marker then some [status] else l.partialBlock.map (· ++ [status])
  match bits with
  | none => l
  | some b =>
    if 192 ≤ b.length then { l with keptBlock := some (bytesOfBits b), blockReady := true, partialBlock := none }
    else { l with partialBlock := some b }

/-- R22, R29, R33: the clock becomes PRESENT. -/
def Lane.clockReturn (now : Time) (l : Lane) : Lane :=
  let l1 := { l with clockPresent := true }
  if !l.enabled then l1
  else match l.state with
    | .dark => l1.enterSensing now
    | .holdover => { l1 with returnStart := some now, windowCount := 0 }
    | .sensing => l1
    | .pulling => l1
    | .ready => l1
    | .locked => l1

/-- R22, R23, R36: a lane frame arrives. -/
def Lane.frameStart (now : Time) (slots : List Sample) (status marker : Bool) (l : Lane) : Lane :=
  let l1 := if l.clockPresent then l else l.clockReturn now
  let l2 := { l1 with lastStart := some now, startsNow := l1.startsNow + 1 }
  let l3 := if l2.enabled then l2.gather status marker else l2
  if l3.writes then l3.writeFrame slots else l3

/-- R22: 48 house samples have passed since the last lane frame start. -/
def Lane.clockLossDue (now : Time) (l : Lane) : Bool :=
  l.clockPresent && (match l.lastStart with
    | some t => decide (48 ≤ since now t)
    | none => true)

/-- R29: the clock becomes ABSENT. -/
def Lane.clockLost (now : Time) (l : Lane) : Lane :=
  if !l.clockLossDue now then l
  else
    let l1 := { l with clockPresent := false, partialBlock := none }
    if !l.enabled then l1
    else match l.state with
      | .sensing => l1.enterDark
      | .pulling => l1.enterDark
      | .ready => l1.enterDark
      | .locked => l1.enterHoldover now
      | .holdover => { l1 with returnStart := none }
      | .dark => l1

/-! ## Windows (R26, R27, R33) -/

/-- R26: a classification window ends. -/
def Lane.windowEnd (now : Time) (l : Lane) : Lane :=
  if l.state = .sensing ∧ 960 ≤ since now l.windowStart then
    let r := classOfCount l.windowCount
    match r with
    | some c =>
      if l.lastWindow = some (some c) then l.enterPulling c
      else { l with lastWindow := some r, windowStart := now, windowCount := 0 }
    | none => { l with lastWindow := some r, windowStart := now, windowCount := 0 }
  else l

/-- R33: the return window ends. -/
def Lane.returnEnd (now : Time) (l : Lane) : Lane :=
  match l.returnStart with
  | some t =>
    if l.state = .holdover ∧ 960 ≤ since now t then
      (if (classOfCount l.windowCount).isSome ∧ classOfCount l.windowCount = l.cls then l.placeRead.enterLocked
       else l.enterSensing now)
    else l
  | none => l

/-- R33: the holdover time runs out. The lane enters DARK though its clock may be PRESENT, in a return window, and stays
there until the clock is lost and returns (log entry 42). -/
def Lane.holdoverExpiry (now : Time) (l : Lane) : Lane :=
  if l.state = .holdover ∧ timeOut l.holdCode now l.holdSince then l.enterDark else l

/-! ## The ratio loop (R30, R34, R37) -/

/-- R34: ρᵢ stands at a catch limit. -/
def Lane.pinned (l : Lane) : Bool :=
  decide (l.rhoInt = l.loopClass.nominal + l.loopClass.catchRange)
    || decide (l.rhoInt = l.loopClass.nominal - l.loopClass.catchRange)

/-- R37, steps 1 to 3: the integrator and the applied ratio. -/
def Lane.ratioStep (l : Lane) : Lane :=
  let e := l.fillError
  let i := l.holdRatio (l.rhoInt + e / 64)
  { l with rhoInt := i, rho := l.holdRatio (i + 16 * e) }

/-- R30, R34, R37 step 4: the run counts, and READY left for PULLING at |e| ≥ 512. -/
def Lane.countRuns (l : Lane) : Lane :=
  let small := decide (l.fillError.natAbs < 512)
  let l1 := { l with pinRun := if l.pinned then l.pinRun + 1 else 0 }
  if l.state = .locked then l1
  else if small then { l1 with lockRun := l1.lockRun + 1 }
  else { l1 with lockRun := 0, state := .pulling }

/-- R37, step 5, and R41. -/
def Lane.measureLatency (l : Lane) : Lane := { l with latency32 := l.measured }.hysteresis

/-- R37: a control instant, once in a house sample whose counter value is a multiple of 48. -/
def Lane.controlInstant (now : Time) (l : Lane) : Lane :=
  if now.toNat % 48 = 0 ∧ l.controlTaken = false then
    let l1 := { l with controlTaken := true }
    if l.state.reading then l1.ratioStep.countRuns.measureLatency else l1
  else l

/-- R34: the pin run count has reached 100. -/
def Lane.pinLimit (now : Time) (l : Lane) : Lane :=
  if l.state.reading ∧ 100 ≤ l.pinRun then l.enterSensing now else l

/-- R30: the lock criterion, which a pin run count of 100 keeps from being taken. -/
def Lane.lockMet (l : Lane) : Lane :=
  if l.state = .pulling ∧ 500 ≤ l.lockRun ∧ l.pinRun < 100 then
    (if l.oneShot = false ∨ l.admission then l.enterLocked else { l with state := .ready })
  else l

/-- R32: the entry fade has ended at full gain. -/
def Lane.entryFadeEnd (l : Lane) : Lane :=
  if l.entryFade.risen 96 then { l with entryFade := l.entryFade.rest } else l

/-! ## Requests (R28, R31, R35, R46) -/

/-- R28: an enabled lane is disabled. Its run counts stay as `Lane.enterDark` leaves them (log entry 49). -/
def Lane.disable (l : Lane) : Lane :=
  { l.enterDark with
    enabled := false, admission := false, keptBlock := none, partialBlock := none, blockReady := false }

/-- R28: a disabled lane is enabled. -/
def Lane.enable (now : Time) (l : Lane) : Lane :=
  let l1 := { l with enabled := true }
  if l.clockPresent then l1.enterSensing now else l1

/-- R46: the three settings taken. -/
def Lane.configure (now : Time) (enabled oneShot : Bool) (hold : Byte) (l : Lane) : Lane :=
  let l1 := if enabled = l.enabled then l else if enabled then l.enable now else l.disable
  let l2 := { l1 with oneShot := oneShot, holdCode := hold }
  let l3 := if l2.state = .ready ∧ oneShot = false then l2.enterLocked else l2
  l3.holdoverExpiry now

/-- R31: LANE_ADMIT. -/
def Lane.takeAdmit (l : Lane) : Lane :=
  match l.state with
  | .ready => l.enterLocked
  | .sensing => if l.enabled then { l with admission := true } else l
  | .pulling => if l.enabled then { l with admission := true } else l
  | .locked => l
  | .holdover => l
  | .dark => l

/-- R35: LANE_RESTART of an enabled lane. One whose clock is ABSENT keeps its run counts (log entry 49). -/
def Lane.restart (now : Time) (l : Lane) : Lane :=
  let l1 := { l.emptyStore with slipCount := 0, admission := false }
  if l.clockPresent then l1.enterSensing now else { l1.enterDark with rho := l.loopClass.nominal, rhoInt := l.loopClass.nominal }

/-! ## One house sample on -/

/-- What the end of a house sample does to a lane: the frame starts of the sample enter the window that runs. -/
def Lane.closeSample (l : Lane) : Lane :=
  { l with windowCount := l.windowCount + l.startsNow, startsNow := 0 }

/-- A lane one house sample on: the store read, the fades moved, the slip test made. -/
def Lane.tick (l : Lane) : Lane :=
  let l1 := if l.state.reading then l.readAdvance else l
  { l1 with slip := l1.slip.tick 96, entryFade := l1.entryFade.tick 96, controlTaken := false }.slipTest

/-! ## Conditions (R43, R44) -/

/-- R43: the raw LANE_STALL condition. -/
def Lane.stall (l : Lane) : Bool := l.enabled && !l.clockPresent

/-- R43: the raw LANE_UNLOCK condition. -/
def Lane.unlock (l : Lane) : Bool := l.enabled && l.clockPresent && l.state != .locked

/-- R23: the declared rate of the kept status block. -/
def Lane.declared (l : Lane) : Option RateClass :=
  match (l.keptBlock.getD []).head?.map BitVec.toNat with
  | some 1 => some .k32
  | some 2 => some .k44
  | some 3 => some .k48
  | some 4 => some .k96
  | _ => none

/-- R44: the raw LANE_RATE condition. -/
def Lane.rateWrong (l : Lane) : Bool :=
  match l.state with
  | .sensing => l.lastWindow == some none
  | .locked => l.declared.isSome && l.declared != l.cls
  | .dark => false
  | .pulling => false
  | .ready => false
  | .holdover => false

end Sys2Proof.Machine
end

