-- ==== Sys2Proof/Machine/Timebase.lean ====
section
/-! DEFINITION. The House Timebase (chapter 1): references, selection, hold, revert, frames. Everything here changes
the timebase alone; the schedule's entries are run in Machine/Schedule.lean. -/

namespace Sys2Proof.Machine

/-! ## Frame rates (R2) -/

/-- Five times the exact nominal length: the five-frame total of R2's table. -/
def FrameRate.fiveFrames : FrameRate → Nat
  | .r25 => 9600
  | .r29_97 => 8008
  | .r30 => 8000
  | .r50 => 4800
  | .r59_94 => 4004
  | .r60 => 4000

/-- Whether a rate is one of the two fractional ones. -/
def FrameRate.fractional : FrameRate → Bool
  | .r29_97 => true
  | .r59_94 => true
  | .r25 => false
  | .r30 => false
  | .r50 => false
  | .r60 => false

/-- The length of a frame at a cadence position (R2's table). -/
def FrameRate.length (r : FrameRate) (cadence : Nat) : Nat :=
  match r with
  | .r25 => 1920
  | .r29_97 => if cadence = 1 ∨ cadence = 3 then 1601 else 1602
  | .r30 => 1600
  | .r50 => 960
  | .r59_94 => if cadence = 4 then 800 else 801
  | .r60 => 800

/-- The cadence position after another: one more, modulo 5, or 0 at integer rates (R2). -/
def FrameRate.nextCadence (r : FrameRate) (cadence : Nat) : Nat := if r.fractional then (cadence + 1) % 5 else 0

/-- R3: whether an interval differs from the exact nominal length by no more than 0.1 % of it. -/
def FrameRate.validInterval (r : FrameRate) (interval : Nat) : Bool :=
  decide (((5 * interval : Int) - r.fiveFrames).natAbs * 1000 ≤ r.fiveFrames)

/-- R3: whether a time exceeds 1.5 exact nominal lengths. -/
def FrameRate.overdue (r : FrameRate) (t : Nat) : Bool := decide (3 * r.fiveFrames < 10 * t)

/-! ## Inputs and selection (R3 to R8) -/

/-- The other input. -/
def otherInput : RefInput → RefInput
  | .a => .b
  | .b => .a

/-- The selection of an input. -/
def selectionOf : RefInput → Selection
  | .a => .a
  | .b => .b

/-- What the timebase holds of an input. -/
def Timebase.ref (t : Timebase) : RefInput → RefState
  | .a => t.refA
  | .b => t.refB

/-- The timebase with one input replaced. -/
def Timebase.setRef (t : Timebase) (i : RefInput) (r : RefState) : Timebase :=
  match i with
  | .a => { t with refA := r }
  | .b => { t with refB := r }

/-- R8: the raw REF_LOSS condition. -/
def Timebase.refLoss (t : Timebase) : Bool := !(t.ref t.preference).present

/-- R7: whether the revert condition holds. -/
def Timebase.revertHolds (t : Timebase) : Bool :=
  t.revertive && t.selection == selectionOf (otherInput t.preference) && (t.ref t.preference).present

/-- R7: the revert timer starts when the condition begins to hold and is dropped when it stops. -/
def Timebase.judgeRevert (now : Time) (t : Timebase) : Timebase :=
  { t with revertSince := if t.revertHolds then some (t.revertSince.getD now) else none }

/-- R5, R6, R7: a change of the selection to an input, with a realignment pending (R10); it ends a hold. -/
def Timebase.select (now : Time) (i : RefInput) (t : Timebase) : Timebase :=
  { t with selection := selectionOf i, realign := true, holdSince := none, revertSince := none }.judgeRevert now

/-- R5: in FREE the timebase selects a reference it finds PRESENT, the preferred one where both are. -/
def Timebase.leaveFree (now : Time) (t : Timebase) : Timebase :=
  if t.selection ≠ .free then t
  else if (t.ref t.preference).present then t.select now t.preference
  else if (t.ref (otherInput t.preference)).present then t.select now (otherInput t.preference)
  else t

/-- R3: whether a pulse of an input at this house sample is valid. -/
def Timebase.validPulse (now : Time) (i : RefInput) (t : Timebase) : Bool :=
  match (t.ref i).lastPulse with
  | some p => t.rate.validInterval (since now p)
  | none => false

/-- R3, R4: a pulse timed and qualified, without what follows for the selection. -/
def Timebase.timePulse (now : Time) (i : RefInput) (marked : Bool) (t : Timebase) : Timebase :=
  let r := t.ref i
  let valid := t.validPulse now i
  let run := if valid then min 2 (r.validRun + 1) else 0
  let count :=
    if !t.rate.fractional then r.cadenceCount
    else if marked then 0
    else if r.counting then (r.cadenceCount + 1) % 5 else r.cadenceCount
  t.setRef i
    { present := r.present || decide (2 ≤ run)
      lastPulse := some now
      lastValid := if valid then some now else r.lastValid
      validRun := run
      markerSeen := if t.rate.fractional then marked || r.markerSeen else r.markerSeen
      cadenceCount := count
      counting := if t.rate.fractional then marked || r.counting else r.counting }

/-- R5, R6: what the presence of an input does to the selection and the hold. Of two inputs that become PRESENT at one
house sample in FREE, the one whose pulse is commanded first is selected (log entry 52). -/
def Timebase.qualify (now : Time) (i : RefInput) (t : Timebase) : Timebase :=
  let t1 := t.leaveFree now
  let t2 := if t1.selection = selectionOf i ∧ (t1.ref i).present then { t1 with holdSince := none } else t1
  t2.judgeRevert now

/-! ## Frames (R2, R9 to R12) -/

/-- The offset of a house sample in the frame in progress (R9). -/
def Timebase.offset (now : Time) (t : Timebase) : Nat := since now t.frameStart

/-- R12: an input's cadence count restarts with its marker-seen flag cleared, and waits for a marked pulse (log entry
40). -/
def RefState.restartCount (r : RefState) : RefState :=
  { r with markerSeen := false, cadenceCount := 0, counting := false }

/-- R2, R12: a frame boundary at this house sample, the new frame at a cadence position unless a new rate takes
effect. A rate that takes effect with an input selected sets a realignment pending, a held and ABSENT one too (log
entry 35). -/
def Timebase.beginFrame (now : Time) (cadence : Nat) (realign : Bool) (t : Timebase) : Timebase :=
  let t1 := { t with frameIndex := t.frameIndex + 1, frameStart := now, nextCadenceZero := false }
  match t.pendingRate with
  | none =>
    let c := if t.rate.fractional then cadence else 0
    { t1 with cadence := c, frameLen := t.rate.length c, realign := realign }
  | some r =>
    ({ t1 with
        rate := r, pendingRate := none, cadence := 0, frameLen := r.length 0
        refA := t.refA.restartCount
        refB := t.refB.restartCount
        realign := decide (t.selection ≠ Selection.free) }).leaveFree now

/-- R2: the frame in progress has run out its table length and no realignment is pending. -/
def Timebase.boundaryDue (now : Time) (t : Timebase) : Bool :=
  !t.realign && decide (t.frameLen ≤ t.offset now)

/-- R2, R9: the cadence position of the frame about to begin where no pulse of a realignment gives it: 0 where a marked
in-step pulse has set it. -/
def Timebase.cadenceAfter (t : Timebase) : Nat := if t.nextCadenceZero then 0 else t.rate.nextCadence t.cadence

/-- R2: the boundary at the table length. -/
def Timebase.boundary (now : Time) (t : Timebase) : Timebase := t.beginFrame now t.cadenceAfter false

/-- R11: a frame with a realignment pending has reached 1.5 table lengths, rounded down. -/
def Timebase.timeoutDue (now : Time) (t : Timebase) : Bool :=
  t.realign && decide (3 * t.frameLen / 2 ≤ t.offset now)

/-- R11: the frame ends without a pulse, the realignment still pending. -/
def Timebase.realignTimeout (now : Time) (t : Timebase) : Timebase := t.beginFrame now t.cadenceAfter true

/-- R11: the pulse of an input ends the frame; the realignment is complete. -/
def Timebase.endRealigned (now : Time) (i : RefInput) (t : Timebase) : Timebase :=
  t.beginFrame now (if (t.ref i).markerSeen then (t.ref i).cadenceCount else 0) false

/-- Whether the timebase follows the pulses of an input: it is the selected one and PRESENT (1.3, R9, R11). -/
def Timebase.follows (i : RefInput) (t : Timebase) : Bool := t.selection == selectionOf i && (t.ref i).present

/-- R9: whether a pulse at an offset is in step. -/
def Timebase.inStep (now : Time) (t : Timebase) : Bool :=
  decide (t.offset now ≤ 2) || decide (t.frameLen ≤ t.offset now + 2)

/-- R9: an in-step pulse that carries the marker sets cadence position 0 on the frame it belongs to. -/
def Timebase.takeMarker (now : Time) (t : Timebase) : Timebase :=
  if t.offset now ≤ 2 then { t with cadence := 0, frameLen := t.rate.length 0 } else { t with nextCadenceZero := true }

/-- What a followed pulse does to the frames (R9, R11). The second part tells whether it is a boundary. -/
def Timebase.judgePulse (now : Time) (i : RefInput) (marked : Bool) (t : Timebase) : Timebase × Bool :=
  let late := decide (t.frameLen ≤ 2 * t.offset now)
  if t.realign then (if late then (t.endRealigned now i, true) else (t, false))
  else if t.inStep now then ((if marked && t.rate.fractional then t.takeMarker now else t), false)
  else if late then ({ t with realign := true }.endRealigned now i, true)
  else ({ t with realign := true }, false)

/-- R3 to R11: a pulse on a reference input, whole. The second part tells whether it is a frame boundary. -/
def Timebase.pulse (now : Time) (i : RefInput) (marked : Bool) (t : Timebase) : Timebase × Bool :=
  let t1 := (t.timePulse now i marked).qualify now i
  if t.validPulse now i && t1.follows i then t1.judgePulse now i marked else (t1, false)

/-! ## Loss, hold and revert (R3, R6, R7) -/

/-- R3: a PRESENT input whose last valid pulse lies more than 1.5 exact nominal lengths back. -/
def Timebase.lossDue (now : Time) (i : RefInput) (t : Timebase) : Bool :=
  (t.ref i).present && (match (t.ref i).lastValid with
    | some v => t.rate.overdue (since now v)
    | none => true)

/-- R3, R4, R6: an input becomes ABSENT; the loss of the selected one drops a realignment and starts the hold. The run
of valid pulses that qualification counts starts over with the loss (log entry 41). -/
def Timebase.lose (now : Time) (i : RefInput) (t : Timebase) : Timebase :=
  let t1 := t.setRef i { t.ref i with present := false, markerSeen := false, validRun := 0 }
  let t2 := if t1.selection = selectionOf i then { t1 with realign := false, holdSince := some now } else t1
  t2.judgeRevert now

/-- The input that a selection names. -/
def Selection.input : Selection → Option RefInput
  | .a => some .a
  | .b => some .b
  | .free => none

/-- R6: the hold time has run out. -/
def Timebase.holdDue (now : Time) (t : Timebase) : Bool :=
  match t.holdSince with
  | some h => timeOut t.holdCode now h
  | none => false

/-- R6: the hold runs out: the other input if it is PRESENT, else FREE. -/
def Timebase.holdExpire (now : Time) (t : Timebase) : Timebase :=
  match t.selection.input with
  | some i =>
    if (t.ref (otherInput i)).present then t.select now (otherInput i)
    else { t with selection := .free, realign := false, holdSince := none, revertSince := none }
  | none => { t with holdSince := none }

/-- R7: the revert timer has run 96,000 house samples. -/
def Timebase.revertDue (now : Time) (t : Timebase) : Bool :=
  match t.revertSince with
  | some r => decide (96000 ≤ since now r)
  | none => false

/-- R7: the preferred input is selected, with a realignment pending. -/
def Timebase.revert (now : Time) (t : Timebase) : Timebase := t.select now t.preference

/-- R11: after a change of selection, a valid pulse of the newly selected input already timed at this house sample
counts as coming after the change. The second part tells whether it is a frame boundary. -/
def Timebase.countPulse (now : Time) (t : Timebase) : Timebase × Bool :=
  match t.selection.input with
  | some i =>
    if t.follows i && (t.ref i).lastValid == some now then t.judgePulse now i false else (t, false)
  | none => (t, false)

/-! ## Settings (R13) -/

/-- R194: the frame rate of a code. -/
def rateOfCode (b : Byte) : Option FrameRate := [FrameRate.r25, .r29_97, .r30, .r50, .r59_94, .r60][b.toNat]?

/-- R194: the code of a frame rate. -/
def FrameRate.code : FrameRate → Nat
  | .r25 => 0
  | .r29_97 => 1
  | .r30 => 2
  | .r50 => 3
  | .r59_94 => 4
  | .r60 => 5

/-- R13: the four settings taken together. -/
def Timebase.configure (now : Time) (rate : FrameRate) (pref : RefInput) (revertive : Bool) (hold : Byte)
    (t : Timebase) : Timebase :=
  { t with
    pendingRate := if rate = t.rate then none else some rate
    preference := pref, revertive := revertive, holdCode := hold }.judgeRevert now

end Sys2Proof.Machine
end

