-- ==== Sys2Proof/Machine/Operands.lean ====
section
/-! DEFINITION. The operand forms of the control link (R193 to R195): indices, flags and enumerated codes read from a
request's bytes, `none` where a value is outside its list, and the codes that reports carry. -/

namespace Sys2Proof.Machine

/-! ## Read from a request (R194) -/

/-- A flag: 0 or 1. -/
def flagOfByte (b : Byte) : Option Bool := [false, true][b.toNat]?

/-- A lane, a summary output or a contact input: 0 to 3. -/
def laneOfByte (b : Byte) : Option (Fin 4) := if h : b.toNat < 4 then some ⟨b.toNat, h⟩ else none

/-- A program: 0 to 15. -/
def programOfByte (b : Byte) : Option (Fin 16) := if h : b.toNat < 16 then some ⟨b.toNat, h⟩ else none

/-- A kind: 0 to 12. -/
def kindOfByte (b : Byte) : Option (Fin 13) := if h : b.toNat < 13 then some ⟨b.toNat, h⟩ else none

/-- A point: 0 to 117. -/
def pointOfByte (b : Byte) : Option (Fin 118) := if h : b.toNat < 118 then some ⟨b.toNat, h⟩ else none

/-- A reference preference: A or B. -/
def refOfByte (b : Byte) : Option RefInput := [RefInput.a, .b][b.toNat]?

/-- A role. -/
def roleOfByte (b : Byte) : Option Role := [Role.l, .r, .c, .lfe, .ls, .rs, .lb, .rb, .m][b.toNat]?

/-- A selection mode. -/
def selectModeOfByte (b : Byte) : Option SelectMode := [SelectMode.auto, .forcePrimary, .forceBackup][b.toNat]?

/-- A loudness mode. -/
def loudModeOfByte (b : Byte) : Option LoudMode := [LoudMode.off, .freeze, .track][b.toNat]?

/-- A change or retrim mode. -/
def changeModeOfByte (b : Byte) : Option ChangeMode := [ChangeMode.cut, .slew, .auto][b.toNat]?

/-- An alarm mode. -/
def alarmModeOfByte (b : Byte) : Option AlarmMode :=
  [AlarmMode.off, .report, .protectLatched, .protectRetry][b.toNat]?

/-- A contact function. -/
def contactFunctionOfByte (b : Byte) : Option ContactFunction :=
  [ContactFunction.none, .integrationReset, .integrationHold, .forceBackup, .alarm][b.toNat]?

/-- A backup field: 0xFF for no backup, else a source. -/
def backupOfByte (b : Byte) : Option (Option Source) := if b = 0xFF then some none else (sourceOfByte b).map some

/-- The samples of a value in a delay unit, SAMPLES, MILLISECONDS or FRAMES, before it is held (R126). -/
def delaySamples (rate : FrameRate) (unit : Byte) (value : Nat) : Option Nat :=
  [value, value * 48, (2 * value * rate.fiveFrames + 5) / 10][unit.toNat]?

/-! ## Codes of a report (R194) -/

/-- A flag's code. -/
def flagCode (b : Bool) : Nat := if b then 1 else 0

/-- A reference's code. -/
def refCode : RefInput → Nat
  | .a => 0
  | .b => 1

/-- A selection's code. -/
def Selection.code : Selection → Nat
  | .a => 0
  | .b => 1
  | .free => 2

/-- A lane state's code. -/
def LaneState.code : LaneState → Nat
  | .dark => 0
  | .sensing => 1
  | .pulling => 2
  | .ready => 3
  | .locked => 4
  | .holdover => 5

/-- A rate class's code. -/
def classCode : Option RateClass → Nat
  | none => 0
  | some c => c.code

/-- A role's code. -/
def Role.code : Role → Nat
  | .l => 0
  | .r => 1
  | .c => 2
  | .lfe => 3
  | .ls => 4
  | .rs => 5
  | .lb => 6
  | .rb => 7
  | .m => 8

/-- A selection mode's code. -/
def SelectMode.code : SelectMode → Nat
  | .auto => 0
  | .forcePrimary => 1
  | .forceBackup => 2

/-- A program state's code. -/
def ProgState.code : ProgState → Nat
  | .preparing => 1
  | .standby => 2
  | .running => 3

/-- A loudness mode's code. -/
def LoudMode.code : LoudMode → Nat
  | .off => 0
  | .freeze => 1
  | .track => 2

/-- A change mode's code. -/
def ChangeMode.code : ChangeMode → Nat
  | .cut => 0
  | .slew => 1
  | .auto => 2

/-- A motion state's code. -/
def Motion.code : Motion → Nat
  | .steady => 0
  | .slewing => 1
  | .cutOut => 2
  | .cutIn => 3

/-- A bypass state's code. -/
def Bypass.code : Bypass → Nat
  | .none => 0
  | .entering => 1
  | .inEffect => 2

/-- A fade direction's code. -/
def FadeDir.code : FadeDir → Nat
  | .steady => 0
  | .falling => 1
  | .rising => 2

/-- A validity's code. -/
def Validity.code : Validity → Nat
  | .valid => 0
  | .preparing => 1
  | .lane => 2
  | .hold => 3

/-- A hold state's code. -/
def HoldState.code : HoldState → Nat
  | .adjusted => 0
  | .heldInvalid => 1
  | .heldNoSt => 2
  | .heldBelowDepth => 3
  | .off => 4
  | .frozen => 5

/-- A clamped limit's code (R197). -/
def Clamped.code : Clamped → Nat
  | .none => 0
  | .boost => 1
  | .attenuation => 2

/-- An alarm mode's code. -/
def AlarmMode.code : AlarmMode → Nat
  | .off => 0
  | .report => 1
  | .protectLatched => 2
  | .protectRetry => 3

/-- A contact function's code. -/
def ContactFunction.code : ContactFunction → Nat
  | .none => 0
  | .integrationReset => 1
  | .integrationHold => 2
  | .forceBackup => 3
  | .alarm => 4

/-- An annunciation's code (R195). -/
def Annunciation.code : Annunciation → Nat
  | .quiet => 0
  | .activeUnack => 1
  | .activeAck => 2
  | .returnedUnack => 3

/-- A device's code (R198). -/
def deviceCode : Device → Nat
  | .none => 0
  | .mib64 => 1
  | .mib128 => 2

/-- The pages of a device (R106). -/
def devicePages : Device → Nat
  | .none => 0
  | .mib64 => 3072
  | .mib128 => 6144

/-- A result's code (R195). -/
def Result.code : Result → Byte
  | .ok => 0x00
  | .accepted => 0x01
  | .clamped => 0x02
  | .done => 0x10
  | .cancelled => 0x11
  | .superseded => 0x12
  | .aborted => 0x13
  | .unknownKind => 0x20
  | .badLength => 0x21
  | .badValue => 0x22
  | .wrongState => 0x23
  | .noSpace => 0x24
  | .notFitted => 0x25
  | .slotTaken => 0x26
  | .tagBusy => 0x27
  | .unknownTag => 0x28
  | .opsFull => 0x29
  | .scheduleFull => 0x2A
  | .tooLate => 0x2B
  | .notSchedulable => 0x2C
  | .stillPresent => 0x2D
  | .starting => 0x2E

/-- OK, or CLAMPED where anything was held (R185). -/
def Result.ofHeld (held : Bool) : Result := if held then .clamped else .ok

end Sys2Proof.Machine
end

