-- ==== Sys2Proof/Machine/Flags.lean ====
section
/-! DEFINITION. The flags that leave the part: the status summary, the point state byte, and the flag bytes of
reports. Where R198 lists the flags of a byte without their bits, they stand from bit 7 down (log entry 22). -/

namespace Sys2Proof.Machine

/-- Eight flags or fewer as a byte, the first in bit 7. -/
def flagsByte (l : List Bool) : Byte := byteOfBits ((l ++ List.replicate 8 false).take 8)

/-- OPS_BUSY: the operation table holds at least one entry (R186). -/
def LinkPort.opsBusy (k : LinkPort) : Bool := !k.ops.isEmpty

/-- REF_FREE: the selection is FREE (R8, R186). -/
def Timebase.refFree (t : Timebase) : Bool := t.selection == .free

/-- The status summary byte (R186, R195). -/
def State.summaryByte (s : State) : Byte :=
  flagsByte [s.link.restarted, s.link.linkErr, s.link.opsBusy, s.alarm.noticeFlag, s.tb.refFree, s.alarm.protectFlag,
    s.alarm.unackFlag, false]

/-- The point state byte (R195). -/
def Point.stateByte (p : Point) : Byte :=
  BitVec.ofNat 8 (p.ann.code * 64) ||| flagsByte [false, false, p.raw, p.filtered, p.applied]

end Sys2Proof.Machine
end

