-- ==== Sys2Proof/Machine/Link.lean ====
section
/-! DEFINITION. The Link Port's own tables and its two directions (chapter 10): tags, the operation table, the
completion queue and its reserve, the transmitter and its arbiter, the receiver and the frame errors. -/

namespace Sys2Proof.Machine

/-! ## Tags, operations and completions (R181 to R183) -/

/-- The kind code of an operation's work (R182, R195). -/
def Concern.kind : Concern → Byte
  | .definition _ => 0x20
  | .delay _ => 0x30
  | .check => 0x34

/-- What an operation concerns: the program, 0xFF for the memory (R198). -/
def Concern.subject : Concern → Nat
  | .definition p => p.val
  | .delay p => p.val
  | .check => 255

/-- An entry put into the operation table, which is kept in tag order (R182). -/
def insertOp (e : OpEntry) : List OpEntry → List OpEntry
  | [] => [e]
  | x :: rest => if e.tag.toNat < x.tag.toNat then e :: x :: rest else x :: insertOp e rest

/-- R181: a tag is held while an operation-table entry or a schedule entry carries it. -/
def State.tagHeld (s : State) (tag : Byte) : Bool :=
  s.link.ops.any (fun e => e.tag == tag) || s.tb.schedule.any (fun e => e.tag == tag)

/-- R183: the tags held plus the completions waiting. -/
def State.outstanding (s : State) : Nat := s.link.ops.length + s.tb.schedule.length + s.link.completions.length

/-- Whether a request of a kind takes a tag where its own is nonzero (R183). -/
def takesTag (kind : Byte) : Bool := [0x20, 0x30, 0x34, 0x05].contains kind.toNat

/-- R183: a request that would take a tag is not taken while the sum is 40. -/
def State.heldBack (s : State) (kind tag : Byte) : Bool :=
  takesTag kind && tag != 0 && decide (40 ≤ s.outstanding)

/-- A completion queued (R183). -/
def State.complete (c : Completion) (s : State) : State :=
  { s with link := { s.link with completions := s.link.completions ++ [c] } }

/-- Work that takes a nonzero tag enters the operation table (R182); tag 0 takes no place. -/
def State.openOp (tag : Byte) (concern : Concern) (s : State) : State :=
  if tag = 0 then s
  else { s with link := { s.link with ops := insertOp ⟨tag, concern, s.counter⟩ s.link.ops } }

/-- Tagged work ends: its entry is removed and its completion queued, at one house sample (R182). -/
def State.closeOp (tag : Byte) (concern : Concern) (result : Result) (details : List Byte) (s : State) : State :=
  State.complete ⟨tag, concern.kind, result, none, details⟩
    { s with link := { s.link with ops := removeFirst (fun e => e.tag == tag) s.link.ops } }

/-! ## The transmitter (R176, R187, R196) -/

/-- A whole frame: start, length, kind, tag, body and CRC (R176, R193). -/
def frameBytes (kind tag : Byte) (body : List Byte) : List Byte :=
  let covered := BitVec.ofNat 8 (body.length + 2) :: kind :: tag :: body
  0xC3 :: (covered ++ bigEndian 2 (crc16 covered).toNat)

/-- The frame of a reply under a status summary. -/
def Reply.frame (r : Reply) (summary : Byte) : List Byte :=
  frameBytes 0x80 r.tag (r.kind :: r.result.code :: summary :: r.report)

/-- The frame of a completion under a status summary: origin 1 and the due frame for a schedule entry's, origin 0 and
the details for operation-table work. -/
def Completion.frame (c : Completion) (summary : Byte) : List Byte :=
  frameBytes 0x81 c.tag
    (c.kind :: c.result.code :: summary ::
      (match c.due with
       | some f => 1 :: bigEndian 5 f.toNat
       | none => 0 :: c.details))

/-- An absent house counter reads as all ones (R193). -/
def timeBytes : Option Time → List Byte
  | some t => bigEndian 6 t.toNat
  | none => List.replicate 6 0xFF

/-- The frame of a notice, built from its point's record (R168). -/
def AlarmUnit.noticeFrame (a : AlarmUnit) (n : Notice) : List Byte :=
  let p := a.point n.point
  frameBytes 0x82 0
    (BitVec.ofNat 8 n.point.val :: p.stateByte :: (bigEndian 2 p.raiseCount ++ bigEndian 1 n.coalesced
      ++ timeBytes p.lastChange))

/-- R187: an idle transmitter begins the reply, else the oldest completion, else the head notice. -/
def State.transmit (s : State) : State :=
  match s.link.sending with
  | some _ => s
  | none =>
    match s.link.reply with
    | some r => { s with link := { s.link with reply := none, sending := some (r.frame s.summaryByte) } }
    | none =>
      match s.link.completions with
      | c :: rest => { s with link := { s.link with completions := rest, sending := some (c.frame s.summaryByte) } }
      | [] =>
        match s.alarm.notices with
        | n :: rest =>
          { s with
            alarm := { s.alarm with notices := rest }
            link := { s.link with sending := some (s.alarm.noticeFrame n) } }
        | [] => s

/-- R187: the frame being sent ends, and the next begins at the same house sample. -/
def State.endSending (s : State) : State := { s with link := { s.link with sending := none } }.transmit

/-! ## Frame errors (R178) -/

/-- What every frame error does: LINK_ERR is set and one LINK_ERROR event is handed to the Alarm Unit. -/
def State.linkError (s : State) : State :=
  { s with
    alarm := s.alarm.event s.counter linkErrorPoint
    link := { s.link with linkErr := true } }

/-- A CRC error. -/
def State.crcError (s : State) : State :=
  { s with link := { s.link with crcErrors := holdAt 65535 (s.link.crcErrors + 1) } }.linkError

/-- A length error; the receiver returns to HUNT. -/
def State.lengthError (s : State) : State :=
  { s with link :=
    { s.link with receiver := .hunt, lengthErrors := holdAt 65535 (s.link.lengthErrors + 1) } }.linkError

/-- A gap error; the partial frame is discarded and the receiver returns to HUNT. -/
def State.gapError (s : State) : State :=
  { s with link :=
    { s.link with receiver := .hunt, gapErrors := holdAt 65535 (s.link.gapErrors + 1) } }.linkError

/-- An overrun. -/
def State.overrun (s : State) : State :=
  { s with link := { s.link with overruns := holdAt 65535 (s.link.overruns + 1) } }.linkError

/-- R178: in LENGTH or COLLECT, the 241st house sample after a byte with no further byte. -/
def State.gapDue (s : State) : Bool :=
  s.link.receiver != .hunt && decide (241 ≤ since s.counter s.link.lastByte)

/-- R178: the gap error, where it is due. -/
def State.gapCheck (s : State) : State := if s.gapDue then s.gapError else s

/-! ## The receiver (R177, R179) -/

/-- R179: a good frame is appended to the receive buffer, or is an overrun where it holds four. -/
def State.appendFrame (f : Frame) (s : State) : State :=
  if 4 ≤ s.link.buffer.length then s.overrun
  else { s with link := { s.link with buffer := s.link.buffer ++ [f] } }

/-- R178: a complete frame is judged: the bytes from the length to the end of the body, then the two CRC bytes. -/
def State.judgeCollected (kept : List Byte) (s : State) : State :=
  let covered := kept.take (kept.length - 2)
  let sent := kept.drop (kept.length - 2)
  if sent = bigEndian 2 (crc16 covered).toNat then
    match covered with
    | _ :: kind :: tag :: body => s.appendFrame ⟨kind, tag, body⟩
    | _ => s.crcError
  else s.crcError

/-- The receiver takes a byte whose stop bit has ended: its state alone. -/
def LinkPort.noteByte (now : Time) (r : Receiver) (k : LinkPort) : LinkPort := { k with receiver := r, lastByte := now }

/-- Whether a length byte is in range (R177). -/
def lengthInRange (b : Byte) : Bool := decide (2 ≤ b.toNat) && decide (b.toNat ≤ 250)

/-- R177: a byte is received. -/
def State.receiveByte (b : Byte) (s : State) : State :=
  match s.link.receiver with
  | .hunt =>
    { s with link := s.link.noteByte s.counter (if b = 0xC3 then .length else .hunt) }
  | .length =>
    if lengthInRange b then { s with link := s.link.noteByte s.counter (.collect (b.toNat + 2) [b]) }
    else { s with link := s.link.noteByte s.counter .hunt }.lengthError
  | .collect left kept =>
    if 1 < left then { s with link := s.link.noteByte s.counter (.collect (left - 1) (kept ++ [b])) }
    else { s with link := s.link.noteByte s.counter .hunt }.judgeCollected (kept ++ [b])

end Sys2Proof.Machine
end

