-- ==== Sys2Proof/Machine/Output.lean ====
section
/-! DEFINITION. The Output Stage's work on one program (chapters 5.4 and 8): the output index, the gain schedule,
the total output gain and its ramp, the mute fade and the output sample. -/

namespace Sys2Proof.Machine

/-! ## Output index (R97) -/

/-- The current line delay: the whole part of D_cur, or 0 while delay bypass is IN_EFFECT. -/
def Program.lineDelay (p : Program) : Nat := if p.align.bypass = .inEffect then 0 else p.align.cur / 65536

/-- The program's output index: the house counter minus the current line delay, modulo 2⁴⁸ where the counter is less than
the line delay (log entry 53). -/
def Program.outputIndex (now : Time) (p : Program) : Time := now - BitVec.ofNat 48 p.lineDelay

/-- Whether an index is not greater than another on the 48-bit count of house samples (log entry 20). -/
def reached (due out : Time) : Bool := !(out - due).msb

/-! ## Total output gain and ramp (R141 to R143) -/

/-- The ramp multiplier of the house sample in progress (R143). -/
def OutStage.multiplier (o : OutStage) : Nat :=
  if o.rampStep = 0 then o.rampTarget
  else
    ((o.rampStart : Int) + roundDiv (((o.rampTarget : Int) - o.rampStart) * (min o.rampStep 480 : Nat)) 480).toNat

/-- R141, R143: the total output gain worked out again; a total different from the one held starts a ramp from the
multiplier used for the house sample before. -/
def Program.retotal (p : Program) : Program :=
  let sum := p.out.applied + p.corr.settings.manualTrim + p.out.pad
  let total := clampInt (-600) 200 sum
  let o := { p.out with total := total, gainHeld := decide (sum ≠ total) }
  if total = p.out.total then { p with out := o }
  else { p with out := { o with rampStart := p.out.multUsed, rampTarget := gainNumber 20 total, rampStep := 1 } }

/-- The applied gain takes a value (R98 to R100). -/
def Program.setApplied (v : Int) (p : Program) : Program := { p with out := { p.out with applied := v } }.retotal

/-- The safety pad takes a value (R146). -/
def Program.setPad (v : Int) (p : Program) : Program := { p with out := { p.out with pad := v } }.retotal

/-- The ramp one house sample on. -/
def OutStage.rampTick (o : OutStage) : OutStage :=
  if o.rampStep = 0 then o else { o with rampStep := min 481 (o.rampStep + 1) }

/-- R143: the ramp, past its 480th step, is steady at its target. -/
def Program.rampEnd (p : Program) : Program :=
  if 480 < p.out.rampStep then { p with out := { p.out with rampStep := 0 } } else p

/-! ## Gain schedule (R98 to R102) -/

/-- R100, R101: every held entry that the output index has reached is applied, the oldest first. -/
def Program.applyDue (now : Time) (p : Program) : Program :=
  let done := p.out.schedule.takeWhile fun e => reached e.due (p.outputIndex now)
  match done.getLast? with
  | none => p
  | some e =>
    { p with out := { p.out with schedule := p.out.schedule.drop done.length } }.setApplied e.value

/-- R99: a full schedule applies its oldest entry at once. -/
def Program.makeRoom (p : Program) : Program :=
  match p.out.schedule with
  | e :: rest =>
    if 128 ≤ p.out.schedule.length then { p with out := { p.out with schedule := rest } }.setApplied e.value else p
  | [] => p

/-- The due index of an entry posted now (R98, steps 1 to 3), modulo 2⁴⁸ (log entry 53). -/
def Program.postDue (now : Time) (p : Program) : Time :=
  let due := now - BitVec.ofNat 48 (min p.lineDelay p.corr.settings.lookAhead)
  match p.out.schedule.getLast? with
  | some e => if reached e.due due then due else e.due
  | none => due

/-- R98: the correction posts a change of g at the end of block k. -/
def Program.post (now : Time) (block : Nat) (p : Program) : Program :=
  let newest := ((p.out.schedule.getLast?).map GainEntry.value).getD p.out.applied
  if p.corr.gain = newest then p
  else
    let due := p.postDue now
    if reached due (p.outputIndex now) then p.setApplied p.corr.gain
    else
      let q := p.makeRoom
      { q with out := { q.out with schedule := q.out.schedule ++ [⟨block, p.corr.gain, due⟩] } }

/-! ## Mute (R144) -/

/-- R144: the program takes the mute flag; a change turns the mute fade. -/
def Program.mute (flag : Bool) (p : Program) : Program :=
  if p.out.muted = flag then p
  else
    { p with out :=
      { p.out with muted := flag, muteFade := p.out.muteFade.turn 480 (if flag then .falling else .rising) } }

/-- R144: the mute fade has reached 0 or full level and stays there. -/
def Program.muteEnd (p : Program) : Program :=
  if (p.out.muteFade.dir = .falling ∧ p.out.muteFade.level = 0)
      ∨ (p.out.muteFade.dir = .rising ∧ p.out.muteFade.level = 480) then
    { p with out := { p.out with muteFade := p.out.muteFade.rest } }
  else p

/-! ## The output sample (R145, R147) -/

/-- The exact product of a delayed sample and the program's four gains, rounded once, before it is held. The gains
are level/480 three times and the ramp multiplier in units of 2⁻²⁰. -/
def Program.product (p : Program) (x : Sample) : Int :=
  roundDiv (x.toInt * p.align.fade.level * p.out.multiplier * p.onAir.level * p.out.muteFade.level)
    (480 * 480 * 480 * 2 ^ 20)

/-- The output sample: the product held within [−1, 1 − 2⁻²³]. -/
def Program.outputSample (p : Program) (x : Sample) : Sample := holdSample (p.product x)

/-- Whether the product lies outside the range before holding. -/
def Program.saturates (p : Program) (x : Sample) : Bool :=
  decide (p.product x < -8388608) || decide (8388607 < p.product x)

/-- R147: the over threshold of an over level. -/
def overThreshold (level : Int) : Nat := min 8388607 (gainNumber 23 level)

/-- R145, R147: a channel's output sample of this house sample, its saturation count and its over run. -/
def Channel.formOutput (p : Program) (threshold count : Nat) (ch : Channel) : Channel :=
  let y := p.outputSample ch.delayed
  let isOver := decide (p.state = .running) && decide (threshold ≤ magnitude y)
  let run := if isOver then ch.overRun + 1 else 0
  { ch with
    output := y
    satCount := if p.saturates ch.delayed then holdAt (2 ^ 32 - 1) (ch.satCount + 1) else ch.satCount
    overRun := run
    overDue := isOver && decide (count ≤ run) }

/-- The outputs of a program in STANDBY or RUNNING; a program in PREPARING forms none. -/
def Program.formOutputs (threshold count : Nat) (p : Program) : Program :=
  if p.state = .preparing then p
  else { p with channels := p.channels.map (Channel.formOutput p threshold count) }

end Sys2Proof.Machine
end

