-- ==== Sys2Proof/Machine/Alignment.lean ====
section
/-! DEFINITION. The Alignment Unit's work on one program (chapter 7): trims, the line-delay target, the motion of
the line delay, and delay bypass. -/

namespace Sys2Proof.Machine

/-! ## Path latency and trims (R123 to R125) -/

/-- R123: a channel is live while the lane of its source in use is LOCKED. -/
def Channel.laneLocked (lanes : Vector Lane 4) (ch : Channel) : Bool :=
  (lanes[ch.inUse.lane.val]'ch.inUse.lane.isLt).state == .locked

/-- The in-use latency of the lane of a channel's source in use. -/
def Channel.laneLatency (lanes : Vector Lane 4) (ch : Channel) : Nat :=
  (lanes[ch.inUse.lane.val]'ch.inUse.lane.isLt).inUse

/-- R123: P_prog, the largest P_c among the live channels; 96 when there is none. -/
def pathLatency (lanes : Vector Lane 4) (chs : List Channel) : Nat :=
  let live := chs.filter (Channel.laneLocked lanes)
  if live.isEmpty then 96 else (live.map (Channel.laneLatency lanes)).foldl max 0

/-- R124: a trim step begins where the channel is live, its trim in effect differs from its required trim and its
trim-step fade is steady. -/
def Channel.startTrimStep (ch : Channel) : Channel :=
  if ch.live ∧ ch.trim ≠ ch.required ∧ ch.trimFade.dir = .steady then
    { ch with trimFade := ch.trimFade.turn 480 .falling }
  else ch

/-- R62, R125: the switch of a changeover falls on this house sample, made or still to be made: the fade was at 0 in the
house sample before. -/
def Channel.switchesNow (ch : Channel) : Bool := ch.coFade.dir != .steady && ch.coFade.prev == 0

/-- R123 to R125: a channel's liveness, path latency, required trim and trim in effect for a P_prog. The trim is set
without a trim step at definition (`direct`) and at every event of a house sample on which the channel switches. -/
def Channel.retrim (lanes : Vector Lane 4) (pprog : Nat) (direct : Bool) (ch : Channel) : Channel :=
  let live := ch.laneLocked lanes
  let lat := ch.laneLatency lanes
  let need := if live then pprog - lat else 0
  let c1 := { ch with live := live, pathLat := lat, required := need }
  if !live then
    { c1 with trim := 0, trimFade := if ch.live then Fade.restAt 480 else ch.trimFade }
  else if direct || ch.switchesNow || !ch.live then { c1 with trim := need }
  else c1.startTrimStep

/-- R124: at the step, the trim in effect becomes the required trim and the fade rises. -/
def Channel.stepTrim (ch : Channel) : Channel :=
  if ch.trimFade.fallen then { ch with trim := ch.required, trimFade := ch.trimFade.turn 480 .rising } else ch

/-- R124: the fade-in has ended, and the channel is compared again. -/
def Channel.endTrimStep (ch : Channel) : Channel :=
  if ch.trimFade.risen 480 then { ch with trimFade := ch.trimFade.rest }.startTrimStep else ch

/-! ## The target and the motion (R127 to R133) -/

/-- The longest line delay, (A − 1) × 4800, or 0 when A = 0. -/
def Program.longest (p : Program) : Nat := (p.rows - 1) * 4800

/-- R127: V − P_prog held within [0, (A − 1) × 4800]. -/
def Program.targetFor (p : Program) (value pprog : Nat) : Nat := min p.longest (value - pprog)

/-- The distance between D_cur and D_target in 1/65,536 sample. -/
def Align.distance (a : Align) : Nat := (a.cur - a.target * 65536) + (a.target * 65536 - a.cur)

/-- The slew step r in 1/65,536 sample (R130). -/
def slewStep (rate : Nat) : Nat := (2 * rate * 65536 + 1000) / 2000

/-- R128: AUTO resolved against the distance. -/
def Align.resolve (a : Align) : ChangeMode → ChangeMode
  | .cut => .cut
  | .slew => .slew
  | .auto => if a.distance ≤ a.autoLimit * 65536 then .slew else .cut

/-- R129: a cut begins. -/
def Align.beginCut (a : Align) : Align :=
  { a with motion := .cutOut, arriving := false, fade := a.fade.turn 480 .falling }

/-- R130: a slew begins; its first look falls on the next house sample. -/
def Align.beginSlew (a : Align) : Align := { a with motion := .slewing, arriving := false }

/-- R115: the read buffers of a program emptied at a jump. -/
def Program.emptyReadBuffers (p : Program) : Program :=
  { p with channels := p.channels.map fun ch => { ch with readBuf := [] } }

/-- D_cur jumps to D_target, with fraction 0, and the read buffers are emptied. -/
def Program.jump (p : Program) : Program :=
  { p with align := { p.align with cur := p.align.target * 65536 } }.emptyReadBuffers

/-- R132: an immediate jump: any motion ended, the delay fade steady at 480. -/
def Program.immediateJump (p : Program) : Program :=
  let q := p.jump
  { q with align := { q.align with motion := .steady, arriving := false, pending := none, fade := Fade.restAt 480 } }

/-- The motion that a mode gives from STEADY (R128). -/
def Align.startMotion (mode : ChangeMode) (a : Align) : Align :=
  if a.distance = 0 then a
  else match a.resolve mode with
    | .cut => a.beginCut
    | .slew => a.beginSlew
    | .auto => a

/-- R128, R132, 7.5: a change of D_target taken by the motion state. -/
def Program.takeChange (mode : ChangeMode) (p : Program) : Program :=
  if p.align.bypass ≠ .none then p
  else if p.state ≠ .running then p.immediateJump
  else match p.align.motion with
    | .steady => { p with align := p.align.startMotion mode }
    | .slewing =>
      match p.align.resolve mode with
      | .cut => { p with align := p.align.beginCut }
      | .slew => p
      | .auto => p
    | .cutOut => p
    | .cutIn => { p with align := { p.align with pending := some mode } }

/-- R127: D_target recomputed for a V and a P_prog; the same value as before starts no motion. -/
def Program.retarget (mode : ChangeMode) (value pprog : Nat) (p : Program) : Program :=
  let t := p.targetFor value pprog
  let q := { p with align := { p.align with value := value, pathLat := pprog, target := t } }
  if t = p.align.target then q else q.takeChange mode

/-- R123, R133: the trims and D_target worked out anew from the lanes. -/
def Program.realign (lanes : Vector Lane 4) (p : Program) : Program :=
  let pprog := pathLatency lanes p.channels
  let q := { p with channels := p.channels.map (Channel.retrim lanes pprog false) }
  q.retarget p.align.retrim p.align.value pprog

/-- Whether any channel of a program reads a lane. -/
def Program.usesLane (p : Program) (l : Fin 4) : Bool := p.channels.any fun ch => ch.inUse.lane == l

/-- R129, R138: the jump of a cut, or of the cut that ends delay bypass. -/
def Program.cutJump (p : Program) : Program :=
  if p.align.motion = .cutOut ∧ p.align.applied = false ∧ p.align.fade.fallen then
    let q := p.jump
    { q with align := { q.align with motion := .cutIn, bypass := .none, fade := q.align.fade.turn 480 .rising } }
  else p

/-- R128: the fade-in of a cut has ended; the pending mode is resolved, or the program is STEADY. -/
def Program.cutInEnd (p : Program) : Program :=
  if p.align.motion = .cutIn ∧ p.align.fade.risen 480 then
    let a := { p.align with motion := .steady, pending := none, fade := p.align.fade.rest }
    { p with align := a.startMotion (p.align.pending.getD p.align.retrim) }
  else p

/-- R130: a slewing D_cur moved by the slew step toward D_target. -/
def Align.slewMove (a : Align) : Align :=
  let r := slewStep a.slewRate
  { a with cur := if a.cur < a.target * 65536 then a.cur + r else a.cur - r, arriving := false }

/-- R130: the look at the distance and the step of a SLEWING program in a house sample. -/
def Align.slewTick (a : Align) : Align :=
  if a.motion ≠ .slewing then a
  else if a.distance < slewStep a.slewRate then { a with arriving := true }
  else a.slewMove

/-- R130: the distance looked at in this house sample was less than the step: D_cur becomes D_target, STEADY. Where the
target or the rate has changed since the look, it is looked at again, and a greater distance takes its step. -/
def Program.slewArrival (p : Program) : Program :=
  if p.align.motion = .slewing ∧ p.align.arriving then
    { p with align :=
        if p.align.distance < slewStep p.align.slewRate then
          { p.align with cur := p.align.target * 65536, motion := .steady, arriving := false }
        else p.align.slewMove }
  else p

/-- R134: whether a delay operation is done. -/
def Align.settled (a : Align) : Bool :=
  a.motion == .steady && a.bypass == .none && a.cur == a.target * 65536

/-- The samples remaining to a target, rounded up (R135). -/
def Align.remaining (a : Align) : Nat := (a.distance + 65535) / 65536

/-! ## Delay bypass (R137, R138) -/

/-- R137: the switch: the output is taken from the trim buffers and the current line delay is 0. -/
def Program.bypassNow (fade : Fade) (p : Program) : Program :=
  let q := if p.align.motion = .cutOut then p.jump else p
  { q with align :=
    { q.align with bypass := .inEffect, motion := .steady, arriving := false, pending := none, fade := fade } }

/-- R137, R138: delay bypass is applied. While ENTERING the motion state is STEADY, or CUT_OUT where a cut's fall goes
on, and the pending mode none (log entry 43). Applied again while the cut back of a removal falls, it is switched to by
the switch that ends the fall, and in STANDBY at once. -/
def Program.applyBypass (p : Program) : Program :=
  let q := { p with align := { p.align with applied := true } }
  match p.align.bypass with
  | .none =>
    if p.state ≠ .running then q.bypassNow (Fade.restAt 480)
    else
      let m := if p.align.motion = .cutOut then Motion.cutOut else Motion.steady
      { q with align :=
        { q.align with
          bypass := .entering, motion := m, arriving := false, pending := none,
          fade := q.align.fade.turn 480 .falling } }
  | .entering => q
  | .inEffect =>
    if p.state ≠ .running ∧ p.align.motion = .cutOut then q.bypassNow (Fade.restAt 480) else q

/-- R137: the fade has reached 0 in the sample before: the switch comes. A bypass applied again during the cut back
is switched to in the same way (log entry 21). -/
def Program.bypassSwitch (p : Program) : Program :=
  if p.align.applied ∧ p.align.fade.fallen
      ∧ (p.align.bypass = .entering ∨ (p.align.bypass = .inEffect ∧ p.align.motion = .cutOut)) then
    p.bypassNow (p.align.fade.turn 480 .rising)
  else p

/-- R137: the fade that rises after the switch reaches full level and is steady, in the house sample at which its level
reaches 480: the rule does not say at which it is (log entry 27). -/
def Program.bypassFadeInEnd (p : Program) : Program :=
  if p.align.bypass = .inEffect ∧ p.align.fade.dir = .rising ∧ p.align.fade.level = 480 then
    { p with align := { p.align with fade := p.align.fade.rest } }
  else p

/-- R138: delay bypass is removed. -/
def Program.removeBypass (p : Program) : Program :=
  let q := { p with align := { p.align with applied := false } }
  match p.align.bypass with
  | .none => q
  | .entering =>
    if p.state ≠ .running then { q with align := { q.align with bypass := .none } }.immediateJump
    else { q with align := { q.align with bypass := .none, motion := .cutOut, arriving := false } }
  | .inEffect =>
    if p.state ≠ .running then { q with align := { q.align with bypass := .none } }.immediateJump
    else { q with align := q.align.beginCut }

/-- R127: the raw PROG_DELAY_SHORT condition. -/
def Program.delayShort (p : Program) : Bool :=
  decide ((p.align.target : Int) ≠ (p.align.value : Int) - p.align.pathLat) || p.align.applied

end Sys2Proof.Machine
end

