-- ==== Sys2Proof/Machine/Weighting.lean ====
section
/-! DEFINITION. The weighting filter of R70: its two stages in cascade, the response its coefficients meet, and one
step of it. The arithmetic is in units of 2⁻⁶⁴ of full scale (log entry 9). -/

namespace Sys2Proof

/-! ## The response (R70) -/

/-- A row of R70's response table: the gain in tenths of a dB, how far it may be off in tenths of a dB, and
2⁶⁰ · cos(2πf/48000) to the nearest whole number. -/
structure ResponseRow where
  gain : Int
  within : Nat
  cosine : Int

/-- R70's response table: 10, 20, 31.5, 50, 63, 100, 200, 500 Hz, 1, 2, 4, 8, 16 and 20 kHz. -/
def responseTable : List ResponseRow :=
  [⟨-249, 5, 1152920516857061282⟩, ⟨-132, 5, 1152917553609396682⟩, ⟨-64, 1, 1152911703672085206⟩,
   ⟨-25, 1, 1152896810946828641⟩, ⟨-16, 1, 1152882301034434523⟩, ⟨-6, 1, 1152822731024567845⟩,
   ⟨-1, 1, 1152526427202075287⟩, ⟨1, 1, 1150453011165618976⟩, ⟨7, 1, 1143058101309820321⟩,
   ⟨22, 1, 1113636656983804515⟩, ⟨34, 1, 998459311558907194⟩, ⟨39, 1, 576460752303423488⟩,
   ⟨40, 1, -576460752303423488⟩, ⟨40, 1, -998459311558907194⟩]

/-- |p₀ + p₁z⁻¹ + p₂z⁻²|² on the unit circle, at a cosine given in units of 2⁻⁶⁰, times 2¹²⁰. -/
def squaredAt (p0 p1 p2 c : Int) : Int :=
  (p0 * p0 + p1 * p1 + p2 * p2) * 2 ^ 120 + 2 * (p0 * p1 + p1 * p2) * c * 2 ^ 60 + 2 * p0 * p2 * (2 * c * c - 2 ^ 120)

/-- A stage's poles lie inside the unit circle. -/
def Stage.stable (bits : Nat) (g : Stage) : Bool :=
  decide (g.a2.natAbs < 2 ^ bits) && decide ((g.a1.natAbs : Int) < 2 ^ bits + g.a2)

/-- Whether num / den is at least 10^(e/100), compared exactly on 100th powers. -/
def atLeastTenths (num den : Nat) (e : Int) : Bool :=
  if 0 ≤ e then decide (den ^ 100 * 10 ^ e.toNat ≤ num ^ 100) else decide (den ^ 100 ≤ num ^ 100 * 10 ^ (-e).toNat)

/-- Whether the filter's gain at a row's frequency lies within the row's distance of the row's gain. -/
def Weighting.meetsRow (w : Weighting) (r : ResponseRow) : Bool :=
  let num := (squaredAt w.lowCut.b0 w.lowCut.b1 w.lowCut.b2 r.cosine
    * squaredAt w.shelf.b0 w.shelf.b1 w.shelf.b2 r.cosine).toNat
  let den := (squaredAt (2 ^ w.bits) w.lowCut.a1 w.lowCut.a2 r.cosine
    * squaredAt (2 ^ w.bits) w.shelf.a1 w.shelf.a2 r.cosine).toNat
  atLeastTenths num den (r.gain - r.within) && atLeastTenths den num (-(r.gain + r.within))

/-- R70: whether a filter's response meets every row of the table. -/
def Weighting.meetsResponse (w : Weighting) : Bool :=
  w.lowCut.stable w.bits && w.shelf.stable w.bits && responseTable.all w.meetsRow

/-- One filter that meets the response: what stands for coefficients that do not. -/
def someWeighting : Weighting :=
  { bits := 40
    lowCut := ⟨1095022325983, -2190044354131, 1095022325983, -2190030517681, 1090546860641⟩
    shelf := ⟨1670466325837, -2518937326911, 946093914657, -1556774147268, 556126487655⟩ }

/-- R70: the part's filter, any filter of this structure that meets the response. -/
def weighting : Weighting :=
  if Config.weightingCoefficients.meetsResponse then Config.weightingCoefficients else someWeighting

/-! ## One step (R70) -/

/-- A numerator over 2ᵇⁱᵗˢ as a whole number; where it is not one, the part's arithmetic chooses between the two beside
it. -/
def carryWhole (bits : Nat) (n : Int) : Int :=
  if n % 2 ^ bits = 0 then n / 2 ^ bits
  else if Config.weighRoundsUp n bits then n / 2 ^ bits + 1 else n / 2 ^ bits

/-- One step of a second-order stage with two state values: the next state values and the output. -/
def Stage.step (bits : Nat) (g : Stage) (s1 s2 x : Int) : Int × Int × Int :=
  let y := carryWhole bits (g.b0 * x + 2 ^ bits * s1)
  (carryWhole bits (g.b1 * x - g.a1 * y + 2 ^ bits * s2), carryWhole bits (g.b2 * x - g.a2 * y), y)

/-- One step of a filter: the low-cut stage, then the high shelf. -/
def Weighting.step (w : Weighting) (st : FilterState) (x : Int) : FilterState × Int :=
  let a := w.lowCut.step w.bits st.lowCutA st.lowCutB x
  let b := w.shelf.step w.bits st.shelfA st.shelfB a.2.2
  (⟨a.1, a.2.1, b.1, b.2.1⟩, b.2.2)

/-- R70: one step of a channel's filter: an aligned sample in, the weighted sample out, in units of 2⁻⁶⁴ of full scale.
A filter at rest given silence stays at rest, which is said apart so that it can be evaluated
(`Weighting.step_rest`). -/
def Machine.weighSample (st : FilterState) (x : Sample) : FilterState × Int :=
  if st = ⟨0, 0, 0, 0⟩ ∧ x = 0 then (st, 0) else weighting.step st (x.toInt * 2 ^ 41)

end Sys2Proof
end

