-- ==== Sys2Proof/Machine/Loudness.lean ====
section
/-! DEFINITION. The Loudness Engine's work on one program (chapters 4 and 5): weighting, block power, validity, the
momentary, short-term and integrated values, silence, and the correction gain. -/

namespace Sys2Proof.Machine

/-! ## Weighting and block power (R70 to R72) -/

/-- R71: a channel's aligned sample enters the weighting filter and the block's sum of squares. -/
def Channel.measure (ch : Channel) : Channel :=
  let r := weighSample ch.filter ch.aligned
  { ch with filter := r.1, energySum := ch.energySum + r.2.natAbs ^ 2 }

/-- R72: a role's weight, in hundredths. -/
def Role.weight : Role → Nat
  | .l => 100
  | .r => 100
  | .c => 100
  | .m => 100
  | .ls => 141
  | .rs => 141
  | .lb => 141
  | .rb => 141
  | .lfe => 0

/-- R71: a channel's block energy, the sum of squares divided by 4,800, carried. -/
def Channel.energy (ch : Channel) : Power := .carry ch.energySum (4800 * 2 ^ 128)

/-- R71, R72: a channel's energy at a block end, kept as the block energy of the channel, and the sum started anew. -/
def Channel.endBlock (ch : Channel) : Channel := { ch with blockEnergy := ch.energy, energySum := 0 }

/-- A carried figure times a whole number, exactly. -/
def Power.scale (n : Nat) (p : Power) : Power := ⟨n * p.mant, p.shift⟩

/-- R72: the program block power, the role-weighted sum of the block energies, carried. -/
def blockPower (chs : List Channel) : Power :=
  let s := Power.sum (chs.map fun ch => ch.energy.scale ch.role.weight)
  .carry s.mant (100 * 2 ^ s.shift)

/-! ## Validity and the block ring (R74, R75) -/

/-- R74: the first reason that marks the block. -/
def Loud.validity (l : Loud) : Validity :=
  if l.markPreparing then .preparing else if l.markLane then .lane else if l.markHold then .hold else .valid

/-- R75: the ring with a record appended, the oldest removed where it held 30. -/
def ringAppend (ring : List BlockRec) (r : BlockRec) : List BlockRec :=
  (if 30 ≤ ring.length then ring.drop 1 else ring) ++ [r]

/-! ## Momentary, short-term and integrated values (R77 to R81) -/

/-- R77: the mean power of the last four records, where there are four and all are VALID. -/
def momentaryPower (ring : List BlockRec) : Option Power :=
  let last := ring.drop (ring.length - 4)
  if 4 ≤ ring.length ∧ last.all (fun r => r.validity == .valid) then
    let s := Power.sum (last.map BlockRec.power)
    some ⟨s.mant, s.shift + 2⟩
  else none

/-- R78: the short-term value, over the VALID records of the ring. -/
def shortTermOf (ring : List BlockRec) : Option Int :=
  let v := ring.filter fun r => r.validity == .valid
  let s := Power.sum (v.map BlockRec.power)
  loudness s.mant (v.length * 2 ^ s.shift)

/-- R79: the histogram with a window of power w added to a bin. -/
def histAdd (bin : Nat) (w : Power) : List HistBin → List HistBin
  | [] => [⟨bin, 1, w⟩]
  | b :: rest =>
    if bin < b.bin then ⟨bin, 1, w⟩ :: b :: rest
    else if bin = b.bin then
      (if b.count < 2 ^ 32 - 1 then { b with count := b.count + 1, power := b.power.addCarried w } else b) :: rest
    else b :: histAdd bin w rest

/-- The sum of the counts of a list of bins. -/
def histCount (h : List HistBin) : Nat := (h.map HistBin.count).sum

/-- R80: whether the momentary window is accepted into the histogram. A reset at the block end's own house sample
keeps the window out (R82). -/
def Loud.accepts (now : Time) (m : Int) (l : Loud) : Bool :=
  decide (-700 ≤ m) && l.wasRunning && !l.wasPaused && decide (l.start ≠ now)

/-- R81: the integrated value, N, N_g and G worked out from the histogram. -/
def Loud.integrate (l : Loud) : Loud :=
  let n := histCount l.hist
  if n = 0 then { l with integrated := none, count := 0, gatedCount := 0, gate := none }
  else
    let s := Power.sum (l.hist.map HistBin.power)
    let num := s.mant
    let den := n * 2 ^ s.shift
    let g := l.hist.filter fun b => passesGate num den b.bin
    let sg := Power.sum (g.map HistBin.power)
    { l with
      integrated := loudness sg.mant (histCount g * 2 ^ sg.shift)
      count := n
      gatedCount := histCount g
      gate := (loudness num den).map (· - 100) }

/-- R76, steps 1 to 5: the block just ended is recorded and M, ST and I are worked out. -/
def Loud.endBlock (now : Time) (block : Nat) (power : Power) (l : Loud) : Loud :=
  let ring := ringAppend l.ring ⟨block, power, power.loudness, l.validity⟩
  let w := momentaryPower ring
  let m := w.bind Power.loudness
  let hist := match w, m with
    | some w, some m => if l.accepts now m then histAdd (m + 700).toNat w l.hist else l.hist
    | _, _ => l.hist
  Loud.integrate
    { l with
      ring := ring, momentary := m, shortTerm := shortTermOf ring, hist := hist
      markPreparing := false, markLane := false, markHold := false, blockTaken := true }

/-- R82: the histogram is emptied at house sample t. -/
def Loud.resetIntegration (t : Time) (l : Loud) : Loud :=
  { l with hist := [], integrated := none, count := 0, gatedCount := 0, gate := none, start := t }

/-! ## The correction gain (R92 to R96) -/

/-- g held within [−maximum attenuation, +maximum boost]. -/
def LoudSettings.hold (s : LoudSettings) (g : Int) : Int := clampInt (-s.maxAttenuation) s.maxBoost g

/-- R94, step 1: the desired value with its clamped-limit flag. -/
def LoudSettings.desire (s : LoudSettings) (st : Int) (block : Nat) : Desired :=
  let raw := s.target - st
  let v := s.hold raw
  { value := v, clamped := if v = raw then .none else if v < raw then .boost else .attenuation, block := block }

/-- R94, step 2: g moved toward a desired value by no more than a slew. -/
def LoudSettings.slewTo (s : LoudSettings) (g want : Int) : Int :=
  if g < want then min want (g + s.upSlew) else if want < g then max want (g - s.downSlew) else g

/-- R95: g equals the limit that the desired value met. -/
def LoudSettings.atLimit (s : LoudSettings) (d : Desired) (g : Int) : Bool :=
  match d.clamped with
  | .none => false
  | .boost => decide (g = s.maxBoost)
  | .attenuation => decide (g = -s.maxAttenuation)

/-- R94: why TRACK holds g at a block end, if it does. -/
def LoudSettings.holds (s : LoudSettings) (valid : Bool) (st : Option Int) : Option HoldState :=
  if !valid then some .heldInvalid
  else match st with
    | none => some .heldNoSt
    | some v => if v < s.target - s.holdDepth then some .heldBelowDepth else none

/-- R96: the raw PROG_LOUD condition. -/
def Correction.isLoud (c : Correction) (st : Option Int) : Bool :=
  match st with
  | none => false
  | some v => decide (c.settings.window < (v + c.gain - c.settings.target).natAbs)

/-- R93 to R95: the correction at a block end. -/
def Correction.endBlock (valid : Bool) (st : Option Int) (block : Nat) (c : Correction) : Correction :=
  match c.settings.mode with
  | .off => { c with gain := 0, hold := .off, desired := none, gainLimit := false }
  | .freeze => { c with hold := .frozen, desired := none, gainLimit := false }
  | .track =>
    match c.settings.holds valid st, st with
    | some h, _ => { c with hold := h }
    | none, none => c
    | none, some v =>
      let d := c.settings.desire v block
      let g := c.settings.slewTo c.gain d.value
      { c with gain := g, hold := .adjusted, desired := some d, gainLimit := c.settings.atLimit d g }

/-- R96: PROG_LOUD evaluated again. -/
def Correction.judgeLoud (st : Option Int) (c : Correction) : Correction := { c with loud := c.isLoud st }

/-- R76, R92: everything a program does at a block end: the measurement, the correction, the posting of a change of
g, and both conditions. What the output index has reached is applied before the posting, since a held entry's due
index is greater than it (R97, R98, R100). -/
def Program.blockEnd (now : Time) (p : Program) : Program :=
  if p.loud.blockTaken then p
  else
    let block := now.toNat / 4800 - 1
    let valid := p.loud.validity == .valid
    let l := p.loud.endBlock now block (blockPower p.channels)
    let c := (p.corr.endBlock valid l.shortTerm block).judgeLoud l.shortTerm
    ({ p with loud := l, corr := c, channels := p.channels.map Channel.endBlock }.applyDue now).post now block

/-- R91: the settings taken, with g held to the new limits and PROG_LOUD evaluated again; a mode other than TRACK has
no desired value and no PROG_GAIN_LIMIT. The manual trim reaches the total output gain at once. -/
def Program.setLoudness (s : LoudSettings) (p : Program) : Program :=
  let g := s.hold p.corr.gain
  let c := { p.corr with settings := s, gain := g }
  let c := if s.mode = .track then c else { c with desired := none, gainLimit := false }
  { p with corr := c.judgeLoud p.loud.shortTerm }.retotal

/-! ## Silence (R86) -/

/-- R86: the alarm interval that ended at this boundary is judged, for a program whose entry to STANDBY came no later
than the interval's first sample. -/
def Program.judgeSilence (now : Time) (level : Int) (p : Program) : Program :=
  let judged := match p.loud.standbyAt with
    | some t => decide (480 ≤ since now t)
    | none => false
  let run :=
    if judged then (if belowLevel p.loud.peak level then holdAt 65535 (p.loud.silentRun + 1) else 0)
    else p.loud.silentRun
  { p with loud := { p.loud with silentRun := run, peak := 0 } }

/-! ## What is measured in each house sample -/

/-- R74: the marks that the state at the end of a sample sets. -/
def Program.mark (lanesLocked held : Bool) (p : Program) : Program :=
  { p with loud :=
    { p.loud with
      markPreparing := p.loud.markPreparing || p.state == .preparing
      markLane := p.loud.markLane || !lanesLocked
      markHold := p.loud.markHold || held
      wasRunning := p.state == .running
      wasPaused := p.loud.paused } }

/-- R69, R71, R86: the aligned samples of a house sample are measured, and the interval's largest magnitude kept. -/
def Program.measure (p : Program) : Program :=
  { p with
    channels := p.channels.map Channel.measure
    loud := { p.loud with peak := (p.channels.map fun ch => magnitude ch.aligned).foldl max p.loud.peak } }

end Sys2Proof.Machine
end

