-- ==== Sys2Proof/Machine/Matrix.lean ====
section
/-! DEFINITION. The Program Matrix's work on one channel or program (chapter 3): selection, changeover, the on-air
fade and the input of a channel. -/

namespace Sys2Proof.Machine

/-! ## Selection and changeover (R60 to R63) -/

/-- R61: the desired selection. -/
def desiredPick (mode : SelectMode) (hasBackup demand : Bool) : Pick :=
  match mode with
  | .forcePrimary => .primary
  | .forceBackup => if hasBackup then .backup else .primary
  | .auto => if hasBackup && demand then .backup else .primary

/-- The source a channel record names for a selection. -/
def Channel.named (ch : Channel) : Pick → Source
  | .primary => ch.primary
  | .backup => ch.backup.getD ch.primary

/-- R61: whether the desired selection, or the source the record names for it, differs from what is in use. -/
def Channel.differs (ch : Channel) : Bool :=
  decide (ch.desired ≠ ch.current) || decide (ch.named ch.desired ≠ ch.inUse)

/-- R61, R62: a changeover begins where the channel differs and its changeover fade is steady. -/
def Channel.compare (ch : Channel) : Channel :=
  if ch.differs ∧ ch.coFade.dir = .steady then { ch with coFade := ch.coFade.turn 480 .falling } else ch

/-- R61: the desired selection worked out again, and the channel compared. -/
def Channel.reselect (ch : Channel) : Channel :=
  { ch with desired := desiredPick ch.mode ch.backup.isSome ch.demand }.compare

/-- R62: the switch. -/
def Channel.switch (ch : Channel) : Channel :=
  { ch with
    current := ch.desired, inUse := ch.named ch.desired, coFade := ch.coFade.turn 480 .rising }

/-- R62: the fade-in has ended; the channel is compared again. -/
def Channel.changeoverEnd (ch : Channel) : Channel :=
  if ch.coFade.risen 480 then { ch with coFade := ch.coFade.rest }.compare else ch

/-- R60: the demand standing for a channel of a program. -/
def AlarmUnit.demandFor (a : AlarmUnit) (p : Fin 16) (ch : Channel) : Bool :=
  (a.point (lanePoint 0 ch.primary.lane)).applied || (a.point (lanePoint 1 ch.primary.lane)).applied
    || (a.point (progPoint 0 p)).applied || a.forceCovers p

/-- R60, R61: a channel's demand worked out again. -/
def Channel.refreshDemand (a : AlarmUnit) (p : Fin 16) (ch : Channel) : Channel :=
  let d := a.demandFor p ch
  if d = ch.demand then ch else { ch with demand := d }.reselect

/-- A program with one channel changed. -/
def Program.atChannel (c : Nat) (f : Channel → Channel) (p : Program) : Program :=
  { p with channels := p.channels.modify c f }

/-- R62, R123, R125: the switch of a changeover, with the trims and the target that follow from the new lane. -/
def Program.changeoverSwitch (lanes : Vector Lane 4) (c : Nat) (p : Program) : Program :=
  match p.channels[c]? with
  | some ch =>
    if ch.coFade.fallen then (p.atChannel c Channel.switch).realign lanes else p
  | none => p

/-! ## Life of a program (R53, R55, R56) -/

/-- R53: the entry to STANDBY; R114: each write buffer is set to zeros. -/
def Program.enterStandby (now : Time) (p : Program) : Program :=
  { p with
    state := .standby, openDef := none
    channels := p.channels.map fun ch => { ch with writeBuf := silentGroup }
    loud := { p.loud with standbyAt := some now } }

/-- R55: START in STANDBY, or in RUNNING with the fade falling. -/
def Program.start (p : Program) : Program :=
  match p.state with
  | .standby => { p with state := .running, onAir := (Fade.restAt 0).turn 480 .rising }
  | .running => if p.onAir.dir = .falling then { p with onAir := p.onAir.turn 480 .rising } else p
  | .preparing => p

/-- R56: STOP in RUNNING: the fade begins to fall from the level it has, and from full level reaches 0, and STANDBY, 480
house samples after the STOP. -/
def Program.stop (p : Program) : Program :=
  if p.state = .running ∧ p.onAir.dir ≠ .falling then { p with onAir := p.onAir.arm .falling } else p

/-- R55, R56: the on-air fade has reached 0 after a STOP, and the program enters STANDBY, or it has reached full
level and is steady. -/
def Program.onAirEnd (p : Program) : Program :=
  if p.state = .running ∧ p.onAir.dir = .falling ∧ p.onAir.level = 0 then
    { p with state := .standby, onAir := p.onAir.rest }
  else if p.onAir.dir = .rising ∧ p.onAir.level = 480 then { p with onAir := p.onAir.rest }
  else p

/-! ## The audio of a house sample (R62, R63, R122) -/

/-- The 64 stored samples of a slot nearest the read position, the earliest first. The write position is the place of the
newest frame, so that a frame is read the fill after it was written (R40, R199, log entry 17): a read position w whole
frames and a fraction behind it lies at the newest frame but w or before it. Beyond the newest frame the newest is read
again (R36), beyond the oldest there is silence. -/
def Lane.window (l : Lane) (slot : Nat) : List Sample :=
  let w := l.fillQ / 2 ^ 24
  (List.range 64).map fun i =>
    match l.store[w + 32 - i]? with
    | some fr => fr.getD slot 0
    | none => 0

/-- R38: the interpolator's output for a slot, by the coefficient set of the loop class. The coefficient phase is the
fraction of the fill cut down to 1/256 lane frame (log entry 17). That silence gives silence is said apart, so that it
can be evaluated (`Lane.interpolated_eq`). -/
def Lane.interpolated (l : Lane) (slot : Nat) : Sample :=
  let w := l.window slot
  if w.all (· == 0) then 0 else (interpolator l.loopClass).sample (l.fillQ / 2 ^ 16 % 256) w

/-- R38: the interpolator computes one sample for each slot at a house sample at which the store is read. -/
def Lane.fillPipe (l : Lane) : Lane :=
  { l with pipe :=
      if l.state.reading then ((List.range 16).map l.interpolated :: l.pipe).take 33 else [] }

/-- R38: what leaves the interpolator for a slot: the sample it computed 32 house samples before. `lane` and `now` name
the free value given out while reading has not gone on for so long (log entry 10). -/
def Lane.interpolatorOutput (lane : Nat) (now : Time) (slot : Nat) (l : Lane) : Sample :=
  match l.pipe[32]? with
  | some x => x.getD slot 0
  | none => Config.startUpSample lane now.toNat slot

/-- R32, R38: a lane's slot output: in LOCKED what leaves the interpolator under the entry fade and the slip's fade,
rounded again; silence in every other state. -/
def Lane.slotOutput (lane : Nat) (now : Time) (slot : Nat) (l : Lane) : Sample :=
  if l.state = .locked then
    holdSample
      (roundDiv ((l.interpolatorOutput lane now slot).toInt * l.entryFade.level * l.slip.level) (96 * 96))
  else 0

/-- R62, R63, R122: a channel's input enters its trim buffer, and its aligned sample leaves it under the trim-step
fade. -/
def Channel.alignSample (now : Time) (lanes : Vector Lane 4) (ch : Channel) : Channel :=
  let x := (lanes[ch.inUse.lane.val]'ch.inUse.lane.isLt).slotOutput ch.inUse.lane.val now ch.inUse.slot.val
  let buf := (fadeSample x ch.coFade.level :: ch.trimBuf).take 256
  { ch with trimBuf := buf, aligned := fadeSample (buf.getD ch.trim 0) ch.trimFade.level }

/-- The fades, the ramp and the slew of a program one house sample on. -/
def Program.tick (p : Program) : Program :=
  { p with
    channels := p.channels.map fun ch => { ch with coFade := ch.coFade.tick 480, trimFade := ch.trimFade.tick 480 }
    onAir := p.onAir.tick 480
    align := { p.align with fade := p.align.fade.tick 480 }.slewTick
    loud := { p.loud with blockTaken := false }
    out := { p.out with muteFade := p.out.muteFade.tick 480, multUsed := p.out.multiplier }.rampTick }

end Sys2Proof.Machine
end

