-- ==== Sys2Proof/Machine/Handover.lean ====
section
/-! DEFINITION. How a change in one block reaches the others at the same house sample (R42, R66, R95, R96, R123,
R127, R134, R151, R157, R166): the wrappers through which every command changes a lane, a program or the timebase,
and the handing of protections and contact levels to their owners at the end of a house sample. -/

namespace Sys2Proof.Machine

/-! ## Programs -/

/-- The details of a delay operation's completion (R134, R135, R196), as the Alignment Unit stands when it ends. -/
def delayDetails (p : Fin 16) (op : DelayOp) (a : Align) : List Byte :=
  bigEndian 1 p.val ++ bigEndian 4 op.value ++ bigEndian 1 (flagCode op.held) ++ bigEndian 4 (a.cur / 65536)
    ++ bigEndian 2 (a.cur % 65536) ++ bigEndian 4 a.remaining

/-- A program's open delay operation ends (R134 to R136): the tag leaves the record and the table, and the completion
is queued. -/
def State.endDelayOp (p : Fin 16) (result : Result) (s : State) : State :=
  match s.program p with
  | none => s
  | some x =>
    match x.align.op with
    | none => s
    | some op =>
      (s.setProgram p (some { x with align := { x.align with op := none } })).closeOp op.tag (.delay p) result
        (delayDetails p op x.align)

/-- R134: the open operation of a program is done at the first house sample at which the delay is settled. -/
def State.settleDelay (p : Fin 16) (s : State) : State :=
  match s.program p with
  | none => s
  | some x => if x.align.settled then s.endDelayOp p .done else s

/-- The raw conditions of a program handed to the Alarm Unit (R87, R95, R96, R127). -/
def AlarmUnit.handProgram (now : Time) (p : Fin 16) (x : Program) (a : AlarmUnit) : AlarmUnit :=
  (((a.handRaw now (progPoint 0 p) (decide (1 ≤ x.loud.silentRun))).handRaw now (progPoint 2 p) x.corr.loud).handRaw now
    (progPoint 3 p) x.corr.gainLimit).handRaw now (progPoint 4 p) x.delayShort

/-- The Alarm Unit handed what a program's blocks show, if it is not VACANT. -/
def State.handProgram (p : Fin 16) (s : State) : State :=
  match s.program p with
  | none => s
  | some x => { s with alarm := s.alarm.handProgram s.counter p x }

/-- A program's record replaced, with what follows in the other blocks: a change of the line delay moves the output
index (R97, R101), a settled delay ends its operation (R134), and the raw conditions are handed over. -/
def State.putProgram (p : Fin 16) (old new : Program) (s : State) : State :=
  let x := if new.lineDelay = old.lineDelay then new else new.applyDue s.counter
  ((s.setProgram p (some x)).settleDelay p).handProgram p

/-- One operation made on a program that is not VACANT. One that changes nothing hands nothing over. -/
def State.progStep (p : Fin 16) (f : Program → Program) (s : State) : State :=
  match s.program p with
  | none => s
  | some x => if f x = x then s else s.putProgram p x (f x)

/-! ## Lanes -/

/-- R123: a program that reads a lane works out its trims and its target anew. -/
def State.realignFor (l : Fin 4) (p : Fin 16) (s : State) : State :=
  s.progStep p fun x => if x.usesLane l then x.realign s.lanes else x

/-- R43, R44: a lane's raw conditions handed to the Alarm Unit. LANE_SLIP, an event kind, is not among them: the raw
condition of its point stays as it is when the lane is disabled, until its return to rest at a boundary (R158), as the
model's choice (log entry 51). -/
def AlarmUnit.handLane (now : Time) (l : Fin 4) (x : Lane) (a : AlarmUnit) : AlarmUnit :=
  ((a.handRaw now (lanePoint 0 l) x.stall).handRaw now (lanePoint 1 l) x.unlock).handRaw now (lanePoint 3 l) x.rateWrong

/-- R42: whether a change of a lane concerns the Alignment Unit: an entry to or exit from LOCKED, or a change of
in-use latency. -/
def Lane.moves (old new : Lane) : Bool :=
  (old.state == .locked) != (new.state == .locked) || (new.state == .locked && old.inUse != new.inUse)

/-- A lane replaced, with what follows in the Alignment Unit and the Alarm Unit. -/
def State.putLane (l : Fin 4) (old new : Lane) (s : State) : State :=
  let s1 := s.setLane l new
  let s2 := if old.moves new then forAll allPrograms (State.realignFor l) s1 else s1
  { s2 with alarm := s2.alarm.handLane s.counter l new }

/-- One operation made on a lane. One that changes nothing hands nothing over. -/
def State.laneStep (l : Fin 4) (f : Lane → Lane) (s : State) : State :=
  if f (s.lane l) = s.lane l then s else s.putLane l (s.lane l) (f (s.lane l))

/-! ## The timebase -/

/-- The timebase replaced, with the raw REF_LOSS condition handed over (R8). -/
def State.putTimebase (t : Timebase) (s : State) : State :=
  { s with tb := t, alarm := s.alarm.handRaw s.counter refLossPoint t.refLoss }

/-- One operation made on the timebase. One that changes nothing hands nothing over. -/
def State.tbStep (f : Timebase → Timebase) (s : State) : State := if f s.tb = s.tb then s else s.putTimebase (f s.tb)

/-! ## Protections and contact levels (R60, R146, R166, R171) -/

/-- R146: the safety pad follows the program's PROG_OVER protection. -/
def Program.takePad (applied : Bool) (x : Program) : Program :=
  let pad := if applied then -100 else 0
  if x.out.pad = pad then x else x.setPad pad

/-- R137, R138: delay bypass follows the program's PROG_MEMORY protection. -/
def Program.takeBypass (applied : Bool) (x : Program) : Program :=
  if x.align.applied = applied then x else if applied then x.applyBypass else x.removeBypass

/-- R60: the demand of each of a program's channels worked out again. -/
def Program.takeDemands (a : AlarmUnit) (p : Fin 16) (x : Program) : Program :=
  { x with channels := x.channels.map (Channel.refreshDemand a p) }

/-- R60, R166: a program handed the changeover demands as they stand. -/
def State.handDemands (p : Fin 16) (s : State) : State := s.progStep p (Program.takeDemands s.alarm p)

/-- R137, R138, R166: a program handed its delay bypass as it stands. -/
def State.handBypass (p : Fin 16) (s : State) : State :=
  s.progStep p (Program.takeBypass (s.alarm.point (progPoint 5 p)).applied)

/-- R146: a program given its safety pad, or its pad taken away. -/
def State.padded (p : Fin 16) (on : Bool) (s : State) : State := s.progStep p (Program.takePad on)

/-- R146, R166: a program handed its safety pad as it stands. -/
def State.handPad (p : Fin 16) (s : State) : State := s.padded p (s.alarm.point (progPoint 1 p)).applied

end Sys2Proof.Machine
end

