-- ==== Sys2Proof/Machine/DelayMemory.lean ====
section
/-! DEFINITION. The Delay Memory Controller (chapter 6): the page pool, rings, zero-fill, the memory check, and the
ring traffic of a house sample. -/

namespace Sys2Proof.Machine

/-! ## Sizing (R106) -/

/-- The pool at the end of sizing: every page free, in index order. -/
def Pool.size (d : Device) (pool : Pool) : Pool :=
  { pool with
    device := d, sized := devicePages d, free := List.range (devicePages d), retired := [], window := [] }

/-- R106, R191: sizing ends, once, and the Link Port judges requests in full from here on. -/
def State.endSizing (d : Device) (s : State) : State :=
  if s.link.sizingEnded then s
  else { s with pool := s.pool.size d, link := { s.link with sizingEnded := true } }

/-! ## Rings (R109 to R112) -/

/-- R109: the rows of a ring for a maximum delay in milliseconds. -/
def ringRows (ms : Nat) : Nat := if ms = 0 then 0 else (ms * 48 + 4799) / 4800 + 1

/-- R110: the ring made of the first pages of the free list. -/
def Pool.ring (n : Nat) (pool : Pool) : List PageEntry := (pool.free.take n).map fun g => ⟨g, false⟩

/-- R110: the pages leave the free list and join the fill queue; a page that joins an empty queue begins its fill. -/
def Pool.allocate (now : Time) (p : Fin 16) (n : Nat) (pool : Pool) : Pool :=
  { pool with
    free := pool.free.drop n
    fill := pool.fill ++ (pool.free.take n).map fun g => ⟨p, g⟩
    fillSince := if pool.fill.isEmpty then now else pool.fillSince }

/-- R111: a program's pages leave the fill queue; where the fill in progress was one of them, the next begins. -/
def Pool.abandonFill (now : Time) (p : Fin 16) (pool : Pool) : Pool :=
  { pool with
    fill := pool.fill.filter fun e => e.program != p
    fillSince := if (pool.fill.head?.map FillEntry.program) = some p then now else pool.fillSince }

/-- R111: the groups written of a page whose fill is abandoned: any number of the 600, and none in the house sample at
which its fill begins (log entry 48). -/
def Pool.groupsFilled (now : Time) (page : Nat) (pool : Pool) : Nat :=
  if pool.fillSince = now then 0 else min 600 (Config.groupsFilled now.toNat page)

/-- R111: the DRAM where a program's fill is abandoned: a page whose fill is in progress is left part-written. -/
def Pool.partFill (now : Time) (p : Fin 16) (m : Dram) (pool : Pool) : Dram :=
  match pool.fill with
  | [] => m
  | e :: _ => if e.program = p then m.clear (e.page * 15000) (25 * pool.groupsFilled now e.page) else m

/-- R112: a ring's pages returned in ring order: suspect ones retired, the others free. -/
def Pool.giveBack (ring : List PageEntry) (pool : Pool) : Pool :=
  { pool with
    free := pool.free ++ (ring.filter fun e => !e.suspect).map PageEntry.page
    retired := pool.retired ++ (ring.filter fun e => e.suspect).map PageEntry.page }

/-! ## The end of a definition and of a program (R53, R54, R57) -/

/-- The details of a definition's completion (R53, R196). -/
def definitionDetails (p : Fin 16) (x : Program) : List Byte :=
  bigEndian 1 p.val ++ bigEndian 2 x.maxDelay ++ bigEndian 1 x.rows ++ bigEndian 2 x.ring.length

/-- R53: a program enters STANDBY; the open operation of a tagged definition is done. -/
def State.enterStandby (p : Fin 16) (s : State) : State :=
  match s.program p with
  | none => s
  | some x =>
    let s1 := s.putProgram p x (x.enterStandby s.counter)
    match x.openDef with
    | some tag => s1.closeOp tag (.definition p) .done (definitionDetails p x)
    | none => s1

/-- R54, R57, R68: a program's pages, claims and points are given back and its record becomes VACANT. -/
def State.vacate (p : Fin 16) (s : State) : State :=
  match s.program p with
  | none => s
  | some x =>
    { s.setProgram p none with
      pool := (s.pool.giveBack x.ring).abandonFill s.counter p
      dram := s.pool.partFill s.counter p s.dram
      claims := s.claims.map fun c => if c.any (fun k => k.program == p) then none else c
      alarm := s.alarm.dropProgram s.counter p }

/-- R54: a tagged definition in PREPARING ends with an outcome. -/
def State.endDefinition (p : Fin 16) (tag : Byte) (result : Result) (s : State) : State :=
  match s.program p with
  | none => s
  | some x => (s.vacate p).closeOp tag (.definition p) result (definitionDetails p x)

/-! ## Zero-fill (R111) -/

/-- R111: the fill of the queue's head has run its 4 house samples. -/
def Pool.fillDue (now : Time) (pool : Pool) : Bool := !pool.fill.isEmpty && decide (4 ≤ since now pool.fillSince)

/-- R111: a page's fill ends; the last page of a program brings it to STANDBY. The model writes all of the page's groups
at the end of its 4 house samples (log entry 18), or as many as an abandoned fill has come to (`Pool.partFill`). -/
def State.fillPage (s : State) : State :=
  match s.pool.fill with
  | [] => s
  | e :: rest =>
    if s.pool.fillDue s.counter then
      let s1 := { s with
        dram := Dram.clear s.dram (e.page * 15000) 15000
        pool := { s.pool with fill := rest, fillSince := s.counter } }
      if rest.any (fun r => r.program == e.program) then s1 else s1.enterStandby e.program
    else s

/-! ## The memory check (R117 to R119) -/

/-- The details of a check's completion (R118, R196). -/
def Check.details (c : Check) : List Byte := bigEndian 2 c.quota ++ bigEndian 2 c.tested ++ bigEndian 2 c.retired

/-- The check ends with an outcome; an untagged one queues no completion. -/
def State.endCheck (result : Result) (s : State) : State :=
  match s.pool.check with
  | none => s
  | some c =>
    let s1 := { s with pool := { s.pool with check := none } }
    if c.tag = 0 then s1 else s1.closeOp c.tag .check result c.details

/-- R118: the pages of a window leave the head of the free list. -/
def Pool.takeWindow (c : Check) (pool : Pool) : Pool :=
  let n := min 16 (min (c.quota - c.taken) pool.free.length)
  { pool with
    window := pool.free.take n, free := pool.free.drop n, check := some { c with taken := c.taken + n }, testRun := 0 }

/-- R118: with the window empty, the check takes the next window or ends. -/
def State.nextWindow (s : State) : State :=
  match s.pool.check with
  | none => s
  | some c =>
    if !s.pool.window.isEmpty then s
    else if c.quota ≤ c.taken ∨ s.pool.free.isEmpty then s.endCheck .done
    else { s with pool := s.pool.takeWindow c }

/-- R117: a check begins. -/
def State.beginCheck (tag : Byte) (s : State) : State :=
  State.nextWindow (State.openOp tag .check { s with
    pool := { s.pool with check := some ⟨tag, s.pool.free.length, 0, 0, 0⟩, testRun := 0 } })

/-- R113: the page under test has been tested for 24 house samples. The fill queue of the house sample at which the test
ends is not asked (log entry 54). -/
def Pool.testDue (pool : Pool) : Bool := pool.check.isSome && !pool.window.isEmpty && decide (24 ≤ pool.testRun)

/-- R118: a page after its test, which leaves it with the second pattern: free where it passed, retired where it
failed. -/
def Pool.placeTested (c : Check) (page : Nat) (rest : List Nat) (fails : Bool) (pool : Pool) : Pool :=
  { pool with
    window := rest
    free := if fails then pool.free else pool.free ++ [page]
    retired := if fails then pool.retired ++ [page] else pool.retired
    check := some { c with tested := c.tested + 1, retired := if fails then c.retired + 1 else c.retired }
    testRun := 0 }

/-- The DRAM with one byte value written over a range of addresses. -/
def Dram.fillRange (m : Dram) (base len : Nat) (v : Byte) : Dram :=
  (m.filter fun c => decide (c.1 < base))
    ++ ((List.range len).filterMap fun i => if v = Dram.blank (base + i) then none else some (base + i, v))
    ++ m.filter fun c => decide (base + len ≤ c.1)

/-- R118: a page's test ends. -/
def State.endPageTest (s : State) : State :=
  match s.pool.check, s.pool.window with
  | some c, page :: rest =>
    if s.pool.testDue then
      State.nextWindow { s with
        pool := s.pool.placeTested c page rest (pageFails s.stuck page)
        dram := Dram.fillRange s.dram (page * 15000) 15000 0xAA }
    else s
  | _, _ => s

/-- R119: the window's pages go back to the tail of the free list, untested. -/
def Pool.returnWindow (pool : Pool) : Pool :=
  { pool with free := pool.free ++ pool.window, window := [], testRun := 0 }

/-- R119: a check ended by CANCEL. The page under test keeps the bytes it held before its test (log entry 19). -/
def State.cancelCheck (s : State) : State := { s with pool := s.pool.returnWindow }.endCheck .cancelled

/-! ## Homes in the ring (R109) -/

/-- The ring entry of a channel's sample of an input index: row floor(i/4800) mod A, in channel order. -/
def Program.homeSlot (x : Program) (c : Nat) (i : Int) : Nat :=
  (i / 4800 % (x.rows : Int)).toNat * x.channels.length + c

/-- The group of an input index in its page. -/
def groupOf (i : Int) : Nat := (i % 4800 / 8).toNat

/-- The page of a channel's sample of an input index. -/
def Program.homePage (x : Program) (c : Nat) (i : Int) : Option Nat := x.ring[x.homeSlot c i]?.map PageEntry.page

/-! ## Ring writes (R114) -/

/-- The aligned sample of house sample n placed in the channel's write buffer. -/
def Channel.gather (n : Nat) (ch : Channel) : Channel := { ch with writeBuf := ch.writeBuf.set (n % 8) ch.aligned }

/-- The DRAM after a program's write buffers have been written to their home groups. -/
def Program.storeGroups (n : Nat) (x : Program) (m : Dram) : Dram :=
  x.channels.zipIdx.foldl (fun m k =>
    match x.homePage k.2 n with
    | some page => writeGroup m page (groupOf n) k.1.writeBuf
    | none => m) m

/-- R114: whether a program's ring is written and read: STANDBY or RUNNING with A > 0. -/
def Program.hasTraffic (x : Program) : Bool := x.state != .preparing && decide (0 < x.rows)

/-- R114: a house sample's ring writes of a program. -/
def State.writeRing (p : Fin 16) (s : State) : State :=
  match s.program p with
  | none => s
  | some x =>
    if x.hasTraffic then
      let n := s.counter.toNat
      let y := { x with channels := x.channels.map (Channel.gather n) }
      { s.setProgram p (some y) with dram := if n % 8 = 7 then y.storeGroups n s.dram else s.dram }
    else s

/-! ## Ring reads (R115, R116, R131) -/

/-- What a read of the ring gives: the sample, the program as the read leaves it, and the read errors. -/
structure RingRead where
  sample : Sample
  program : Program
  errors : Nat

/-- R116: a page's entry marked suspect. -/
def Program.suspect (slot : Nat) (x : Program) : Program :=
  { x with ring := x.ring.modify slot fun e => { e with suspect := true } }

/-- R115: a group placed in a channel's read buffer in place of the older of the two held. -/
def Program.hold (c : Nat) (g : HeldGroup) (x : Program) : Program :=
  x.atChannel c fun ch => { ch with readBuf := (g :: ch.readBuf).take 2 }

/-- R115, R116: a channel's home group of an input index fetched from the DRAM and checked. A group that fails is
held as zeros, its page is marked suspect, and one error is counted. -/
def Program.fetch (m : Dram) (stuck : List Host.Cell) (c : Nat) (i : Int) (x : Program) : RingRead :=
  let at_ := (i % 8).toNat
  match x.homePage c i with
  | none => ⟨0, x, 0⟩
  | some page =>
    if groupChecks m stuck page (groupOf i) then
      let g := readGroup m stuck page (groupOf i)
      ⟨g.getD at_ 0, x.hold c ⟨i / 8, g⟩, 0⟩
    else ⟨0, (x.hold c ⟨i / 8, silentGroup⟩).suspect (x.homeSlot c i), 1⟩

/-- R115: a channel's sample of an input index at house sample n: from the write buffer while it gathers that group,
from the read buffer, or by a fetch. -/
def Program.serve (m : Dram) (stuck : List Host.Cell) (n c : Nat) (i : Int) (x : Program) : RingRead :=
  match x.channels[c]? with
  | none => ⟨0, x, 0⟩
  | some ch =>
    if i / 8 = (n : Int) / 8 then ⟨ch.writeBuf.getD (i % 8).toNat 0, x, 0⟩
    else
      match ch.readBuf.find? fun g => g.number == i / 8 with
      | some g => ⟨g.samples.getD (i % 8).toNat 0, x, 0⟩
      | none => x.fetch m stuck c i

/-- R131: the four-point, third-order interpolation, with fraction f out of 65,536. -/
def interpolateFour (f : Nat) (x0 x1 x2 x3 : Int) : Sample :=
  let t : Int := 65536
  let u : Int := t - f
  let sum := -(u * (u - t) * (u - 2 * t)) * x0 + 3 * ((u + t) * (u - t) * (u - 2 * t)) * x1
    - 3 * ((u + t) * u * (u - 2 * t)) * x2 + (u + t) * u * (u - t) * x3
  holdSample (roundDiv sum (6 * 2 ^ 48))

/-- A channel's delayed sample set. -/
def Program.setDelayed (c : Nat) (v : Sample) (x : Program) : Program :=
  x.atChannel c fun ch => { ch with delayed := v }

/-- R131: a channel's delayed sample read from the ring at the input position n − D_cur, with the read errors met. -/
def Program.readChannel (m : Dram) (stuck : List Host.Cell) (n : Nat) (x : Program) (c : Nat) : Program × Nat :=
  let f := x.align.cur % 65536
  let i : Int := (n : Int) - (x.align.cur / 65536 : Nat)
  if f = 0 then
    let r := x.serve m stuck n c i
    (r.program.setDelayed c r.sample, r.errors)
  else
    let r0 := x.serve m stuck n c (i - 2)
    let r1 := r0.program.serve m stuck n c (i - 1)
    let r2 := r1.program.serve m stuck n c i
    let r3 := r2.program.serve m stuck n c (min (i + 1) n)
    (r3.program.setDelayed c
        (interpolateFour f r0.sample.toInt r1.sample.toInt r2.sample.toInt r3.sample.toInt),
      r0.errors + r1.errors + r2.errors + r3.errors)

/-- The delayed samples of a program read from its ring. -/
def Program.readAll (m : Dram) (stuck : List Host.Cell) (n : Nat) (x : Program) : Program × Nat :=
  (List.range x.channels.length).foldl
    (fun r c => let k := r.1.readChannel m stuck n c; (k.1, r.2 + k.2)) (x, 0)

/-- R115, R131, R137: the delayed samples of a program in a house sample: from the ring, or the aligned audio while
bypass is in effect or A is 0. -/
def Program.formDelayed (m : Dram) (stuck : List Host.Cell) (n : Nat) (x : Program) : Program × Nat :=
  if x.state = .preparing then (x, 0)
  else if x.rows = 0 ∨ x.align.bypass = .inEffect then
    ({ x with channels := x.channels.map fun ch => { ch with delayed := ch.aligned } }, 0)
  else x.readAll m stuck n

/-- R116: the PROG_MEMORY events of a number of read errors. -/
def AlarmUnit.memoryEvents (now : Time) (p : Fin 16) : Nat → AlarmUnit → AlarmUnit
  | 0, a => a
  | k + 1, a => AlarmUnit.memoryEvents now p k (a.event now (progPoint 5 p))

/-- R116: a number of read errors of a program counted and handed to the Alarm Unit. -/
def State.countReadErrors (p : Fin 16) (n : Nat) (s : State) : State :=
  { s with
    pool := { s.pool with readErrors := holdAt (2 ^ 32 - 1) (s.pool.readErrors + n) }
    alarm := s.alarm.memoryEvents s.counter p n }

/-- A program given the ring's suspect flags and the channels that a read has left. -/
def Program.takeRead (y x : Program) : Program := { x with ring := y.ring, channels := y.channels }

/-- R115, R116, R166: a house sample's ring reads of a program, made under the bypass that stands, with what its read
errors bring. A bypass that the errors apply is handed over at this house sample; one that has been removed and is
applied again at it reaches the program as no change. -/
def State.readRing (p : Fin 16) (s : State) : State :=
  let h := s.handBypass p
  match s.program p, h.program p with
  | some x, some y =>
    let r := y.formDelayed s.dram s.stuck s.counter.toNat
    let t := ((h.setProgram p (some r.1)).countReadErrors p r.2)
    if x.align.applied && !y.align.applied && (t.alarm.point (progPoint 5 p)).applied then
      (s.setProgram p (some (r.1.takeRead x))).countReadErrors p r.2
    else t.handBypass p
  | _, _ => s

/-! ## DRAM failures -/

/-- A failure of one byte of the sized DRAM (log entry 18). -/
def State.takeFault (s : State) (f : DramFault) : State :=
  if s.pool.sized * 15000 ≤ f.address then s
  else if f.stuck then { s with stuck := (f.address, f.value) :: s.stuck.filter fun c => c.1 != f.address }
  else { s with dram := Dram.write s.dram f.address f.value }

end Sys2Proof.Machine
end

