-- ==== Sys2Proof/Machine/Messages.lean ====
section
/-! DEFINITION. The request bodies of the control link (R194, R197, R198): the body that a request's fields make, and
the request that a body of a kind spells, `none` where its length does not suit the kind. -/

namespace Sys2Proof.Machine

/-! ## Written -/

/-- The kind code of a request (R195). -/
def requestKind : Request → Byte
  | .identify => 0x01
  | .readStatus => 0x02
  | .restart => 0x03
  | .cancel _ => 0x04
  | .schedule _ _ _ => 0x05
  | .readSchedule => 0x06
  | .setTimebase _ _ _ _ => 0x10
  | .readTime => 0x11
  | .setLane _ _ _ _ => 0x18
  | .laneAdmit _ => 0x19
  | .laneRestart _ => 0x1A
  | .readLane _ => 0x1B
  | .defineProgram _ _ _ => 0x20
  | .start _ => 0x21
  | .stop _ => 0x22
  | .release _ => 0x23
  | .selectSource _ _ _ => 0x24
  | .setChannelSource _ _ _ _ => 0x25
  | .readProgram _ => 0x26
  | .setLoudness _ _ _ => 0x28
  | .resetIntegration _ => 0x29
  | .pauseIntegration _ => 0x2A
  | .resumeIntegration _ => 0x2B
  | .readLoudness _ _ => 0x2C
  | .setDelay _ _ => 0x30
  | .readDelay _ => 0x31
  | .checkMemory => 0x34
  | .readPool _ => 0x35
  | .muteProgram _ _ => 0x38
  | .readOutput _ => 0x39
  | .setAlarmKind _ _ => 0x40
  | .ackAlarm _ => 0x41
  | .clearProtection _ => 0x42
  | .readAlarm _ => 0x43
  | .readAlarmList _ _ => 0x44
  | .setSummaryOutput _ _ => 0x45
  | .setContact _ _ => 0x46
  | .readContacts => 0x47

/-- The two bytes of a 16-bit field. -/
def bytes16 (x : BitVec 16) : List Byte := bigEndian 2 x.toNat

/-- The four bytes of a 32-bit field. -/
def bytes32 (x : BitVec 32) : List Byte := bigEndian 4 x.toNat

/-- A channel entry of a definition (R197). -/
def channelBytes (c : ChannelDef) : List Byte := [c.role, c.primary, c.backup, c.mode, c.egress]

/-- The body of a request (R197, R198). -/
def requestBody : Request → List Byte
  | .identify | .readStatus | .restart | .readSchedule | .readTime | .checkMemory | .readContacts => []
  | .cancel t => [t]
  | .schedule due kind inner => bigEndian 5 due.toNat ++ kind :: inner
  | .setTimebase rate pref rev hold => [rate, pref, rev, hold]
  | .setLane lane enable admission hold => [lane, enable, admission, hold]
  | .laneAdmit l | .laneRestart l | .readLane l => [l]
  | .defineProgram p d chs => p :: (bytes16 d ++ BitVec.ofNat 8 chs.length :: chs.flatMap channelBytes)
  | .start p | .stop p | .release p | .readProgram p | .resetIntegration p | .pauseIntegration p
  | .resumeIntegration p | .readDelay p | .readOutput p => [p]
  | .selectSource p c m => [p, c, m]
  | .setChannelSource p c a b => [p, c, a, b]
  | .setLoudness p m f =>
    p :: m :: (bytes16 f.target ++ bytes16 f.maxBoost ++ bytes16 f.maxAttenuation ++ bytes16 f.upSlew
      ++ bytes16 f.downSlew ++ bytes16 f.holdDepth ++ bytes16 f.window ++ bytes16 f.manualTrim ++ bytes32 f.lookAhead)
  | .readLoudness p r => [p, r]
  | .setDelay p f =>
    p :: (bytes32 f.value ++ [f.unit, f.changeMode, f.retrimMode, f.slewRate] ++ bytes16 f.autoLimit)
  | .readPool n => bytes16 n
  | .muteProgram p f => [p, f]
  | .setAlarmKind k f =>
    [k, f.mode, f.priority, f.raiseCode, f.clearCode, f.retryCode] ++ bytes16 f.level ++ [f.count]
  | .ackAlarm p | .clearProtection p | .readAlarm p => [p]
  | .readAlarmList a n => [a, n]
  | .setSummaryOutput o f => o :: (bytes16 f.kinds ++ [f.ceiling, f.filter, f.polarity, f.enable])
  | .setContact i f => [i, f.function, f.polarity] ++ bytes16 f.programs ++ [f.sense]

/-! ## Read -/

/-- A 16-bit field from its two bytes. -/
def word16 (a b : Byte) : BitVec 16 := a ++ b

/-- A 32-bit field from its four bytes. -/
def word32 (a b c d : Byte) : BitVec 32 := (a ++ b : BitVec 16) ++ (c ++ d : BitVec 16)

/-- A frame index from its five bytes. -/
def word40 (a b c d e : Byte) : FrameIndex := ((a ++ b : BitVec 16) ++ (c ++ d : BitVec 16) : BitVec 32) ++ e

/-- The channel entries of a definition, whose bytes must make whole entries. -/
def parseChannels : List Byte → Option (List ChannelDef)
  | [] => some []
  | r :: p :: b :: m :: e :: rest => (parseChannels rest).map (⟨r, p, b, m, e⟩ :: ·)
  | _ => none

/-- A DEFINE_PROGRAM body: 4 + 5n bytes, n being the channel count (R194). -/
def parseDefine : List Byte → Option Request
  | p :: d1 :: d2 :: n :: rest =>
    if rest.length = 5 * n.toNat then (parseChannels rest).map (Request.defineProgram p (word16 d1 d2)) else none
  | _ => none

/-- A SCHEDULE body: at least 6 bytes (R194). -/
def parseSchedule : List Byte → Option Request
  | a :: b :: c :: d :: e :: kind :: inner => some (.schedule (word40 a b c d e) kind inner)
  | _ => none

/-- The requests without a body. -/
def parseNone (kind : Byte) : Option Request :=
  if kind = 0x01 then some .identify
  else if kind = 0x02 then some .readStatus
  else if kind = 0x03 then some .restart
  else if kind = 0x06 then some .readSchedule
  else if kind = 0x11 then some .readTime
  else if kind = 0x34 then some .checkMemory
  else if kind = 0x47 then some .readContacts
  else none

/-- The requests with one byte. -/
def parseOne (kind a : Byte) : Option Request :=
  if kind = 0x04 then some (.cancel a)
  else if kind = 0x19 then some (.laneAdmit a)
  else if kind = 0x1A then some (.laneRestart a)
  else if kind = 0x1B then some (.readLane a)
  else if kind = 0x21 then some (.start a)
  else if kind = 0x22 then some (.stop a)
  else if kind = 0x23 then some (.release a)
  else if kind = 0x26 then some (.readProgram a)
  else if kind = 0x29 then some (.resetIntegration a)
  else if kind = 0x2A then some (.pauseIntegration a)
  else if kind = 0x2B then some (.resumeIntegration a)
  else if kind = 0x31 then some (.readDelay a)
  else if kind = 0x39 then some (.readOutput a)
  else if kind = 0x41 then some (.ackAlarm a)
  else if kind = 0x42 then some (.clearProtection a)
  else if kind = 0x43 then some (.readAlarm a)
  else none

/-- The requests with two bytes. -/
def parseTwo (kind a b : Byte) : Option Request :=
  if kind = 0x2C then some (.readLoudness a b)
  else if kind = 0x35 then some (.readPool (word16 a b))
  else if kind = 0x38 then some (.muteProgram a b)
  else if kind = 0x44 then some (.readAlarmList a b)
  else none

/-- The requests with four bytes. -/
def parseFour (kind a b c d : Byte) : Option Request :=
  if kind = 0x10 then some (.setTimebase a b c d)
  else if kind = 0x18 then some (.setLane a b c d)
  else if kind = 0x25 then some (.setChannelSource a b c d)
  else none

/-- The requests of a fixed length. -/
def parseFixed (kind : Byte) : List Byte → Option Request
  | [] => parseNone kind
  | [a] => parseOne kind a
  | [a, b] => parseTwo kind a b
  | [a, b, c] => if kind = 0x24 then some (.selectSource a b c) else none
  | [a, b, c, d] => parseFour kind a b c d
  | [i, f, p, s1, s2, n] => if kind = 0x46 then some (.setContact i ⟨f, p, word16 s1 s2, n⟩) else none
  | [o, k1, k2, c, f, p, e] => if kind = 0x45 then some (.setSummaryOutput o ⟨word16 k1 k2, c, f, p, e⟩) else none
  | [k, m, p, r, c, t, l1, l2, n] =>
    if kind = 0x40 then some (.setAlarmKind k ⟨m, p, r, c, t, word16 l1 l2, n⟩) else none
  | [p, v1, v2, v3, v4, u, c, r, w, l1, l2] =>
    if kind = 0x30 then some (.setDelay p ⟨word32 v1 v2 v3 v4, u, c, r, w, word16 l1 l2⟩) else none
  | [p, m, a1, a2, b1, b2, c1, c2, d1, d2, e1, e2, f1, f2, g1, g2, h1, h2, l1, l2, l3, l4] =>
    if kind = 0x28 then
      some (.setLoudness p m
        ⟨word16 a1 a2, word16 b1 b2, word16 c1 c2, word16 d1 d2, word16 e1 e2, word16 f1 f2, word16 g1 g2,
          word16 h1 h2, word32 l1 l2 l3 l4⟩)
    else none
  | _ => none

/-- R194: the request that a body of a kind spells; none where the length does not suit the kind. -/
def parseRequest (kind : Byte) (body : List Byte) : Option Request :=
  if kind = 0x20 then parseDefine body
  else if kind = 0x05 then parseSchedule body
  else parseFixed kind body

/-- Whether a request's fields can stand in a frame: at most 48 channels, and an inner body of at most 242 bytes. -/
def requestFits : Request → Bool
  | .defineProgram _ _ chs => decide (chs.length ≤ 48)
  | .schedule _ _ inner => decide (inner.length ≤ 242)
  | _ => true

end Sys2Proof.Machine
end

