-- ==== Sys2Proof/Machine/Reports.lean ====
section
/-! DEFINITION. The report bodies of the reads (R197, R198). A byte to which the spec gives no value because the
thing reported is absent is a free value (log entry 13). -/

namespace Sys2Proof.Machine

/-! ## Field forms (R193) -/

/-- Bytes to which the spec gives no value. -/
def unstated (now : Time) (place n : Nat) : List Byte :=
  (List.range n).map fun i => Config.unstatedByte now.toNat (place + i)

/-- A count in n bytes; the spec does not say what a count too large for its field reads as. -/
def countBytes (now : Time) (place n v : Nat) : List Byte :=
  if v < 256 ^ n then bigEndian n v else unstated now place n

/-- A gain, level or loudness: 0x8000 stands for absent. -/
def levelBytes : Option Int → List Byte
  | some v => bigEndianInt 2 v
  | none => [0x80, 0x00]

/-- A time left: all ones is absent (R198). -/
def leftBytes : Option Nat → List Byte
  | some n => bigEndian 4 n
  | none => [0xFF, 0xFF, 0xFF, 0xFF]

/-- A frame or block index: all ones stands for absent. -/
def indexBytes : Option Nat → List Byte
  | some n => bigEndian 5 n
  | none => [0xFF, 0xFF, 0xFF, 0xFF, 0xFF]

/-- A fade's level and direction. -/
def Fade.bytes (f : Fade) : List Byte := bigEndian 2 f.level ++ bigEndian 1 f.dir.code

/-- A backup field. -/
def backupByte (b : Option Source) : Byte := (b.map Source.byte).getD 0xFF

/-! ## Link Port (R188, R189) -/

/-- IDENTIFY. -/
def State.reportIdentity (s : State) : List Byte :=
  bigEndian 2 7320 ++ Config.revision :: (bigEndian 1 (flagCode s.link.highRate)
    ++ bigEndian 1 (flagCode s.link.sizingEnded)
    ++ (if s.link.sizingEnded then
          bigEndian 2 s.pool.sized ++ bigEndian 2 s.pool.free.length ++ bigEndian 2 s.pool.retired.length
        else [0, 0, 0, 0, 0, 0]))

/-- An operation-table entry. -/
def OpEntry.bytes (e : OpEntry) : List Byte :=
  e.tag :: e.concern.kind :: (bigEndian 1 e.concern.subject ++ bigEndian 6 e.since.toNat)

/-- READ_STATUS's report, as R198 lays it out. R189's seven flags, for which R198 has no byte, are kept in
`LinkPort.statusFlags` (log entry 23). -/
def State.reportStatus (s : State) : List Byte :=
  bigEndian 2 s.link.crcErrors ++ bigEndian 2 s.link.lengthErrors ++ bigEndian 2 s.link.gapErrors
    ++ bigEndian 2 s.link.overruns ++ bigEndian 6 s.counter.toNat ++ bigEndian 1 s.link.ops.length
    ++ s.link.ops.flatMap OpEntry.bytes ++ bigEndian 1 s.tb.schedule.length
    ++ bigEndian 1 s.link.completions.length ++ bigEndian 1 s.alarm.notices.length

/-! ## House Timebase (R14, R21) -/

/-- The program a schedule entry names, from its program field (R16). -/
def SchedEntry.program (e : SchedEntry) : Option (Fin 16) := e.body.head?.bind programOfByte

/-- The place of a schedulable kind in READ_SCHEDULE's list (R198). -/
def scheduleCode (kind : Byte) : Nat := [0x21, 0x22, 0x24, 0x30, 0x29, 0x28, 0x38].idxOf kind.toNat

/-- A schedule entry. -/
def SchedEntry.bytes (e : SchedEntry) : List Byte :=
  e.tag :: (bigEndian 1 (scheduleCode e.kind * 32 + ((e.program.map Fin.val).getD 31)) ++ bigEndian 5 e.due.toNat)

/-- READ_SCHEDULE. -/
def State.reportSchedule (s : State) : List Byte :=
  bigEndian 5 s.tb.frameIndex.toNat ++ bigEndian 1 s.tb.schedule.length ++ s.tb.schedule.flatMap SchedEntry.bytes

/-- R6: house samples left of a running hold. -/
def Timebase.holdLeft (now : Time) (t : Timebase) : Option Nat := t.holdSince.bind (timeLeft t.holdCode now)

/-- R7: house samples left on the revert timer. -/
def Timebase.revertLeft (now : Time) (t : Timebase) : Option Nat := t.revertSince.map fun r => 96000 - since now r

/-- READ_TIME. The frame-rate setting is the pending rate where one waits (log entry 24). -/
def State.reportTime (s : State) : List Byte :=
  let t := s.tb
  bigEndian 6 s.counter.toNat ++ bigEndian 5 t.frameIndex.toNat ++ bigEndian 6 t.frameStart.toNat
    ++ bigEndian 2 t.frameLen ++ bigEndian 1 t.cadence ++ bigEndian 1 t.rate.code
    ++ bigEndian 1 ((t.pendingRate.map FrameRate.code).getD 255) ++ bigEndian 1 t.selection.code
    ++ [flagsByte [t.holdSince.isSome, t.revertSince.isSome, t.realign, t.refA.present, t.refA.markerSeen,
          t.refB.present, t.refB.markerSeen]]
    ++ leftBytes (t.holdLeft s.counter) ++ leftBytes (t.revertLeft s.counter)
    ++ bigEndian 1 t.refA.cadenceCount ++ bigEndian 1 t.refB.cadenceCount
    ++ bigEndian 1 (t.pendingRate.getD t.rate).code ++ bigEndian 1 (refCode t.preference)
    ++ bigEndian 1 (flagCode t.revertive) ++ [t.holdCode]
    ++ bigEndian 1 t.schedule.length ++ indexBytes (t.schedule.head?.map fun e => e.due.toNat)

/-! ## Lane Units (R47) -/

/-- READ_LANE. -/
def Lane.report (now : Time) (l : Lane) : List Byte :=
  bigEndian 1 (flagCode l.enabled) ++ bigEndian 1 (flagCode l.oneShot) ++ [l.holdCode]
    ++ bigEndian 1 l.state.code
    ++ [flagsByte [l.clockPresent, l.admission, l.slip.dir != .steady, l.returnStart.isSome, l.blockReady, l.stall,
          l.unlock, l.rateWrong]]
    ++ bigEndian 1 (classCode l.cls)
    ++ (if l.state.reading then bigEndian 4 l.fill ++ bigEndianInt 4 l.fillError else unstated now 0 8)
    ++ bigEndianInt 4 l.rho ++ bigEndianInt 4 l.rhoInt ++ bigEndianInt 4 l.loopClass.nominal
    ++ bigEndianInt 2 l.loopClass.catchRange
    ++ (if l.lockRun ≤ 65535 then bigEndian 2 l.lockRun else bigEndian 2 (Config.longLockRun l.lockRun).toNat)
    ++ bigEndian 1 l.pinRun ++ bigEndian 2 l.latency32 ++ bigEndian 1 l.inUse ++ bigEndian 2 l.slipCount
    ++ leftBytes (if l.state = .holdover then timeLeft l.holdCode now l.holdSince else none)
    ++ (match l.keptBlock with
        | some b => 1 :: b
        | none => 0 :: unstated now 8 24)

/-! ## Program Matrix (R67) -/

/-- The tag of a program's open operation, 0 for none. -/
def Program.openTag (x : Program) : Byte := ((x.openDef <|> x.align.op.map DelayOp.tag)).getD 0

/-- A channel in READ_PROGRAM. -/
def Channel.reportRecord (lanes : Vector Lane 4) (ch : Channel) : List Byte :=
  bigEndian 1 ch.role.code ++ [ch.primary.byte, backupByte ch.backup] ++ bigEndian 1 ch.mode.code
    ++ [flagsByte [ch.demand, ch.desired == .backup, ch.current == .backup, ch.laneLocked lanes], ch.inUse.byte]
    ++ bigEndian 1 ch.coFade.dir.code ++ bigEndian 2 ch.coFade.level ++ [ch.egress.byte] ++ bigEndian 1 ch.trim

/-- READ_PROGRAM; for a VACANT program nothing beyond the state. -/
def State.reportProgram (p : Fin 16) (s : State) : List Byte :=
  match s.program p with
  | none => [0]
  | some x =>
    bigEndian 1 x.state.code ++ bigEndian 2 x.maxDelay ++ bigEndian 1 x.rows ++ bigEndian 2 x.ring.length
      ++ x.onAir.bytes ++ bigEndian 1 (flagCode x.out.muted) ++ [x.openTag]
      ++ x.channels.flatMap (Channel.reportRecord s.lanes)

/-! ## Loudness Engine (R88, R104, R197) -/

/-- The newest block in READ_LOUDNESS. -/
def newestBytes (now : Time) (ring : List BlockRec) : List Byte :=
  match ring.getLast? with
  | some r => bigEndian 5 r.index ++ bigEndian 4 r.power.float32 ++ levelBytes r.loudness ++ bigEndian 1 r.validity.code
  | none => indexBytes none ++ unstated now 32 4 ++ levelBytes none ++ unstated now 36 1

/-- The ten settings, 21 bytes, in SET_LOUDNESS order. -/
def LoudSettings.bytes (c : LoudSettings) : List Byte :=
  bigEndian 1 c.mode.code ++ bigEndianInt 2 c.target ++ bigEndianInt 2 c.maxBoost ++ bigEndianInt 2 c.maxAttenuation
    ++ bigEndianInt 2 c.upSlew ++ bigEndianInt 2 c.downSlew ++ bigEndianInt 2 c.holdDepth ++ bigEndianInt 2 c.window
    ++ bigEndianInt 2 c.manualTrim ++ bigEndian 4 c.lookAhead

/-- The last desired value with its clamped limit and block index, or absent. -/
def desiredBytes : Option Desired → List Byte
  | some d => bigEndianInt 2 d.value ++ bigEndian 1 d.clamped.code ++ bigEndian 5 d.block
  | none => levelBytes none ++ 0xFF :: indexBytes none

/-- A gain-schedule entry; all ones when there is none. -/
def entryBytes : Option GainEntry → List Byte
  | some e => bigEndian 5 e.block ++ bigEndianInt 2 e.value ++ bigEndian 6 e.due.toNat
  | none => List.replicate 13 0xFF

/-- The occupied bin's value, −70.0 + 0.1j, in tenths. -/
def HistBin.value (b : HistBin) : Int := (b.bin : Int) - 700

/-- READ_LOUDNESS without the ring: 110 bytes. `held` tells whether an INTEGRATION_HOLD input covers the program. -/
def Program.reportLoudness (now : Time) (held : Bool) (x : Program) : List Byte :=
  let l := x.loud
  newestBytes now l.ring ++ bigEndian 1 l.ring.length
    ++ bigEndian 1 (l.ring.filter fun r => r.validity == .valid).length
    ++ levelBytes l.momentary ++ levelBytes l.shortTerm ++ levelBytes l.integrated
    ++ countBytes now 40 4 l.count ++ countBytes now 44 4 l.gatedCount ++ levelBytes l.gate
    ++ levelBytes (l.hist.head?.map HistBin.value) ++ levelBytes (l.hist.getLast?.map HistBin.value)
    ++ bigEndian 6 l.start.toNat
    ++ [flagsByte [l.paused, held, decide (1 ≤ l.silentRun), x.corr.gainLimit, x.corr.loud]]
    ++ bigEndian 2 l.silentRun ++ x.corr.settings.bytes ++ bigEndianInt 2 x.corr.gain ++ bigEndian 1 x.corr.hold.code
    ++ desiredBytes x.corr.desired ++ bigEndianInt 2 x.out.applied ++ bigEndian 6 (x.outputIndex now).toNat
    ++ bigEndian 1 x.out.schedule.length ++ entryBytes x.out.schedule.head? ++ entryBytes x.out.schedule.getLast?

/-- The block ring, oldest first. -/
def ringBytes (ring : List BlockRec) : List Byte :=
  ring.flatMap fun r => levelBytes r.loudness ++ bigEndian 1 r.validity.code

/-! ## Alignment Unit (R139) -/

/-- A channel in READ_DELAY; P_c is defined for a live channel only (R123). -/
def Channel.reportDelay (now : Time) (i : Nat) (ch : Channel) : List Byte :=
  bigEndian 1 ch.inUse.lane.val ++ bigEndian 1 (flagCode ch.live)
    ++ (if ch.live then bigEndian 1 ch.pathLat else unstated now (48 + i) 1)
    ++ bigEndian 1 ch.required ++ bigEndian 1 ch.trim ++ ch.trimFade.bytes

/-- READ_DELAY. -/
def Program.reportDelay (now : Time) (x : Program) : List Byte :=
  let a := x.align
  bigEndian 4 a.value ++ bigEndian 1 x.rows ++ bigEndian 4 x.longest ++ bigEndian 1 a.retrim.code
    ++ bigEndian 1 a.slewRate ++ bigEndian 2 (slewStep a.slewRate) ++ bigEndian 2 a.autoLimit ++ bigEndian 1 a.pathLat
    ++ bigEndian 4 a.target ++ bigEndian 4 (a.cur / 65536) ++ bigEndian 2 (a.cur % 65536) ++ bigEndian 4 x.lineDelay
    ++ bigEndian 6 (x.outputIndex now).toNat ++ bigEndian 1 a.motion.code
    ++ bigEndian 1 ((a.pending.map ChangeMode.code).getD 255) ++ a.fade.bytes ++ bigEndian 1 a.bypass.code
    ++ bigEndian 1 (flagCode x.delayShort) ++ [(a.op.map DelayOp.tag).getD 0]
    ++ (x.channels.mapIdx fun i ch => ch.reportDelay now i).flatten

/-! ## Output Stage (R149) -/

/-- READ_OUTPUT. -/
def Program.reportOutput (x : Program) : List Byte :=
  let o := x.out
  bigEndianInt 2 o.applied ++ bigEndianInt 2 x.corr.settings.manualTrim ++ bigEndianInt 2 o.pad
    ++ bigEndianInt 2 o.total ++ bigEndian 1 (flagCode o.gainHeld) ++ bigEndian 4 o.rampTarget
    ++ bigEndian 4 o.multiplier ++ bigEndian 2 (min 480 o.rampStep) ++ x.onAir.bytes
    ++ bigEndian 1 (flagCode o.muted) ++ o.muteFade.bytes ++ x.align.fade.bytes
    ++ x.channels.flatMap fun ch => ch.egress.byte :: (bigEndian 1 ch.overRun ++ bigEndian 4 ch.satCount)

/-! ## Delay Memory Controller (R120) -/

/-- The programs of the fill queue, in queue order, each with its pages still to fill. -/
def fillGroups (l : List FillEntry) : List (Fin 16 × Nat) :=
  (l.map FillEntry.program).eraseDups.map fun p => (p, (l.filter fun e => e.program == p).length)

/-- A program's pages and its suspect pages. -/
def State.programPages (s : State) (p : Fin 16) : List Byte :=
  let ring := ((s.program p).map Program.ring).getD []
  bigEndian 2 ring.length ++ bigEndian 2 (ring.filter fun e => e.suspect).length

/-- The check in READ_POOL. -/
def checkBytes (now : Time) : Option Check → List Byte
  | some c =>
    1 :: c.tag :: (bigEndian 2 c.quota ++ bigEndian 2 c.taken ++ bigEndian 2 c.tested ++ bigEndian 2 c.retired)
  | none => 0 :: unstated now 64 9

/-- READ_POOL, with the slice of the retired list from a start position. -/
def State.reportPool (first : Nat) (s : State) : List Byte :=
  let q := s.pool
  let groups := fillGroups q.fill
  let slice := (q.retired.drop first).take 48
  bigEndian 1 (deviceCode q.device) ++ bigEndian 2 q.sized ++ bigEndian 2 q.free.length
    ++ bigEndian 2 q.retired.length ++ bigEndian 2 q.window.length ++ allPrograms.flatMap s.programPages
    ++ bigEndian 1 groups.length ++ (groups.flatMap fun g => bigEndian 1 g.1.val ++ bigEndian 2 g.2)
    ++ checkBytes s.counter q.check ++ bigEndian 4 q.readErrors ++ bigEndian 2 q.retired.length
    ++ bigEndian 1 slice.length ++ slice.flatMap (bigEndian 2)

/-! ## Alarm Unit (R173, R174) -/

/-- A kind's settings, 8 bytes, as in SET_ALARM_KIND less the kind. -/
def KindSettings.bytes (k : KindSettings) : List Byte :=
  bigEndian 1 k.mode.code ++ bigEndian 1 k.priority ++ [k.raiseCode, k.clearCode, k.retryCode]
    ++ bigEndianInt 2 k.level ++ bigEndian 1 k.count

/-- House samples left of a point's raise time, while it runs. -/
def AlarmUnit.raiseLeft (now : Time) (pt : Fin 118) (a : AlarmUnit) : Option Nat :=
  let p := a.point pt
  if !a.isEventPoint pt && (a.settingsOf pt).mode != .off && !p.filtered && p.raw then
    timeLeft (a.settingsOf pt).raiseCode now p.since
  else none

/-- House samples left of a point's clear time, while it runs: an event point's runs from its latest event, with the raw
condition still present too (R155, R160). -/
def AlarmUnit.clearLeft (now : Time) (pt : Fin 118) (a : AlarmUnit) : Option Nat :=
  let p := a.point pt
  if (a.settingsOf pt).mode != .off && p.filtered && (a.isEventPoint pt || !p.raw) then
    timeLeft (a.settingsOf pt).clearCode now (a.clearFrom pt)
  else none

/-- House samples left of a point's retry time, while it runs. -/
def AlarmUnit.retryLeft (now : Time) (pt : Fin 118) (a : AlarmUnit) : Option Nat :=
  let p := a.point pt
  if (a.settingsOf pt).mode == .protectRetry && p.applied && !p.raw then
    timeLeft (a.settingsOf pt).retryCode now p.since
  else none

/-- READ_ALARM. -/
def AlarmUnit.report (now : Time) (pt : Fin 118) (a : AlarmUnit) : List Byte :=
  let p := a.point pt
  bigEndian 1 pt.val ++ p.stateByte :: (bigEndian 2 p.raiseCount ++ timeBytes p.lastChange ++ timeBytes p.lastRise
    ++ timeBytes (if a.isEventPoint pt then p.lastEvent else p.lastRaw)
    ++ (match a.isEventPoint pt, p.lastEvent with
        | true, some e => countBytes now 80 4 (since now e)
        | _, _ => unstated now 80 4)
    ++ leftBytes (a.raiseLeft now pt) ++ leftBytes (a.clearLeft now pt) ++ leftBytes (a.retryLeft now pt)
    ++ (match a.notices.find? fun n => n.point == pt with
        | some n => 1 :: (bigEndian 1 n.coalesced ++ bigEndian 6 n.first.toNat)
        | none => 0 :: (unstated now 84 1 ++ timeBytes none))
    ++ (a.settingsOf pt).bytes)

/-- R174: a point that READ_ALARM_LIST lists. -/
def Point.listed (p : Point) : Bool := p.ann != .quiet || p.applied

/-- The listed points from a start point upward. -/
def AlarmUnit.listFrom (first : Nat) (a : AlarmUnit) : List (Fin 118) :=
  allPoints.filter fun pt => decide (first ≤ pt.val) && (a.point pt).listed

/-- A point in READ_ALARM_LIST. -/
def AlarmUnit.listedBytes (a : AlarmUnit) (pt : Fin 118) : List Byte :=
  let p := a.point pt
  bigEndian 1 pt.val ++ p.stateByte :: (bigEndian 2 p.raiseCount ++ timeBytes p.lastChange)

/-- READ_ALARM_LIST, up to a number of points. -/
def AlarmUnit.reportList (first maximum : Nat) (a : AlarmUnit) : List Byte :=
  let l := a.listFrom first
  let next := match l[maximum]? with
    | some pt => pt.val
    | none => 255
  bigEndian 1 (l.take maximum).length ++ bigEndian 1 next ++ (l.take maximum).flatMap a.listedBytes

/-- A contact input in READ_CONTACTS. -/
def Contact.bytes (c : Contact) : List Byte :=
  bigEndian 1 c.function.code ++ bigEndian 1 (flagCode c.activeLow) ++ bytes16 c.programs
    ++ bigEndian 1 (flagCode c.edge) ++ bigEndian 1 ((c.lastReading.map flagCode).getD 2)
    ++ bigEndian 1 (flagCode c.level)

/-- A summary output in READ_CONTACTS. -/
def AlarmUnit.summaryBytes (a : AlarmUnit) (o : Fin 4) : List Byte :=
  let x := a.summaries[o.val]'o.isLt
  bytes16 x.kinds ++ bigEndian 1 x.ceiling ++ bigEndian 1 (flagCode x.anyActive) ++ bigEndian 1 (flagCode x.activeLow)
    ++ bigEndian 1 (flagCode x.enabled) ++ bigEndian 1 (flagCode (a.asserted o))

/-- READ_CONTACTS. -/
def AlarmUnit.reportContacts (a : AlarmUnit) : List Byte :=
  (allLanes.flatMap fun c => (a.contact c).bytes) ++ allLanes.flatMap a.summaryBytes

end Sys2Proof.Machine
end

