-- ==== Sys2Proof/Machine/Answers.lean ====
section
/-! DEFINITION. What each block answers to the requests that concern a program (chapters 3, 4, 5, 7 and 8), and what
it does. A refusal changes nothing. -/

namespace Sys2Proof.Machine

/-- What a block gives back for a request: the result, the report and the state. -/
structure Answer where
  result : Result
  report : List Byte
  state : State

/-- A refusal (R180, R185). -/
def Answer.refuse (r : Result) (s : State) : Answer := ⟨r, [], s⟩

/-- An accepted request with no report. -/
def Answer.ok (s : State) : Answer := ⟨.ok, [], s⟩

/-- A read. -/
def Answer.read (report : List Byte) (s : State) : Answer := ⟨.ok, report, s⟩

/-- R50: a request that names a program: BAD_VALUE outside 0 to 15, WRONG_STATE for a VACANT program. -/
def State.withProgram (b : Byte) (f : Fin 16 → Program → Answer) (s : State) : Answer :=
  match programOfByte b with
  | none => .refuse .badValue s
  | some p =>
    match s.program p with
    | none => .refuse .wrongState s
    | some x => f p x

/-! ## Definition (R51 to R53) -/

/-- A channel as its definition gives it, before it is aligned (R52, R89, R140, R150). -/
def Channel.fresh (role : Role) (primary : Source) (backup : Option Source) (mode : SelectMode) (egress : Source) :
    Channel :=
  { role := role, primary := primary, backup := backup, mode := mode, demand := false, desired := .primary
    current := .primary, inUse := primary, coFade := Fade.restAt 480, egress := egress, trim := 0
    trimFade := Fade.restAt 480, live := false, pathLat := 0, required := 0, trimBuf := List.replicate 256 0
    filter := ⟨0, 0, 0, 0⟩, energySum := 0, blockEnergy := .zero, writeBuf := silentGroup, readBuf := [], aligned := 0
    delayed := 0, output := 0, overRun := 0, overDue := false, satCount := 0 }

/-- A channel entry judged: none where a role, a source, a mode or an egress is outside its list. -/
def channelOf (d : ChannelDef) : Option Channel :=
  match roleOfByte d.role, sourceOfByte d.primary, backupOfByte d.backup, selectModeOfByte d.mode,
      sourceOfByte d.egress with
  | some role, some primary, some backup, some mode, some egress => some (.fresh role primary backup mode egress)
  | _, _, _, _, _ => none

/-- The channel entries judged. -/
def channelsOf : List ChannelDef → Option (List Channel)
  | [] => some []
  | d :: rest =>
    match channelOf d, channelsOf rest with
    | some ch, some l => some (ch :: l)
    | _, _ => none

/-- The default loudness settings (R90). -/
def LoudSettings.default : LoudSettings :=
  { mode := .off, target := -230, maxBoost := 100, maxAttenuation := 200, upSlew := 1, downSlew := 5, holdDepth := 200
    window := 50, manualTrim := 0, lookAhead := 4800 }

/-- A program's measurement at definition (R89). -/
def Loud.fresh (now : Time) : Loud :=
  { ring := [], markPreparing := true, markLane := false, markHold := false, momentary := none, shortTerm := none
    integrated := none, hist := [], count := 0, gatedCount := 0, gate := none, start := now, paused := false
    silentRun := 0, peak := 0, standbyAt := none, wasRunning := false, wasPaused := false, blockTaken := true }

/-- A program's correction at definition (R105). -/
def Correction.fresh : Correction :=
  { settings := .default, gain := 0, desired := none, hold := .off, gainLimit := false, loud := false }

/-- A program's output state at definition (R150). -/
def OutStage.fresh : OutStage :=
  { schedule := [], applied := 0, pad := 0, total := 0, gainHeld := false, rampStart := 1048576, rampTarget := 1048576
    rampStep := 0, multUsed := 1048576, muted := false, muteFade := Fade.restAt 480 }

/-- A program's alignment at definition (R140). -/
def Align.fresh (pprog : Nat) : Align :=
  { value := 0, retrim := .auto, slewRate := 1, autoLimit := 480, pathLat := pprog, target := 0, cur := 0
    motion := .steady, arriving := false, pending := none, fade := Fade.restAt 480, bypass := .none, applied := false
    op := none }

/-- R52: a channel at acceptance: its trim set directly, its demand and its desired selection worked out, and a
changeover begun where that gives BACKUP. The demand is worked out as `Channel.takeSources` does it, from the
protections and contacts as they stand at this instant (log entry 50). -/
def Channel.settle (s : State) (p : Fin 16) (pprog : Nat) (ch : Channel) : Channel :=
  let c := Channel.retrim s.lanes pprog true ch
  { c with demand := s.alarm.demandFor p c }.reselect

/-- R52: the record of an accepted definition. -/
def State.freshProgram (s : State) (p : Fin 16) (tag : Byte) (maxDelay : Nat) (chs : List Channel) : Program :=
  let pprog := pathLatency s.lanes chs
  { state := .preparing, channels := chs.map (Channel.settle s p pprog), maxDelay := maxDelay, rows := ringRows maxDelay
    onAir := Fade.restAt 0, openDef := if tag = 0 then none else some tag
    ring := s.pool.ring (chs.length * ringRows maxDelay), align := .fresh pprog, loud := .fresh s.counter
    corr := .fresh, out := .fresh }

/-- R58: the claims of a definition's channels, the first being channel c. -/
def claimAll (p : Fin 16) : Nat → List Channel → Vector (Option Claim) 64 → Vector (Option Claim) 64
  | _, [], v => v
  | c, ch :: rest, v =>
    claimAll p (c + 1) rest (v.set (egressIndex ch.egress).val (some ⟨p, c⟩) (egressIndex ch.egress).isLt)

/-- R52: what the acceptance of a definition does; with A = 0 the program enters STANDBY at once (R53). -/
def State.acceptDefinition (p : Fin 16) (tag : Byte) (maxDelay : Nat) (chs : List Channel) (s : State) : State :=
  let x := s.freshProgram p tag maxDelay chs
  let s1 := { s.setProgram p (some x) with
    pool := s.pool.allocate s.counter p (chs.length * x.rows)
    claims := claimAll p 0 chs s.claims }
  let s2 := (s1.openOp tag (.definition p)).handProgram p
  if x.rows = 0 then s2.enterStandby p else s2

/-- Whether an egress is claimed (R58). -/
def State.claimed (s : State) (e : Source) : Bool := (s.claims[(egressIndex e).val]'(egressIndex e).isLt).isSome

/-- R51: a definition whose program is VACANT and whose channels are in their lists, judged on. -/
def State.judgeDefinition (p : Fin 16) (tag : Byte) (maxDelay : Nat) (chs : List Channel) (s : State) : Answer :=
  let need := chs.length * ringRows maxDelay
  if ¬ (chs.map Channel.egress).Nodup ∨ chs.any (fun ch => s.claimed ch.egress) then .refuse .slotTaken s
  else if 0 < ringRows maxDelay ∧ s.pool.sized = 0 then .refuse .notFitted s
  else if 0 < ringRows maxDelay ∧ s.pool.free.length < need then
    ⟨.noSpace, bigEndian 2 s.pool.free.length ++ bigEndian 2 s.pool.sized, s⟩
  else ⟨.accepted, [], s.acceptDefinition p tag maxDelay chs⟩

/-- R51: DEFINE_PROGRAM. -/
def State.defineProgram (tag program : Byte) (maxDelay : BitVec 16) (defs : List ChannelDef) (s : State) : Answer :=
  match programOfByte program with
  | none => .refuse .badValue s
  | some p =>
    if (s.program p).isSome then .refuse .wrongState s
    else if defs.length < 1 ∨ 8 < defs.length then .refuse .badValue s
    else
      match channelsOf defs with
      | none => .refuse .badValue s
      | some chs =>
        if ¬ (chs.map Channel.role).Nodup then .refuse .badValue s
        else s.judgeDefinition p tag (min 10000 maxDelay.toNat) chs

/-! ## Life and sources (R55 to R57, R64, R65, R67) -/

/-- R50, R55: START. -/
def State.startProgram (program : Byte) (s : State) : Answer :=
  s.withProgram program fun p x =>
    if x.state = .preparing then .refuse .wrongState s else .ok (s.progStep p Program.start)

/-- R50, R56: STOP. -/
def State.stopProgram (program : Byte) (s : State) : Answer :=
  s.withProgram program fun p x =>
    if x.state = .preparing then .refuse .wrongState s else .ok (s.progStep p Program.stop)

/-- R20: the schedule entries that meet a test are removed, each with a completion carrying CANCELLED. -/
def State.cancelEntries (f : SchedEntry → Bool) (s : State) : State :=
  { s with
    tb := { s.tb with schedule := s.tb.schedule.filter fun e => !f e }
    link := { s.link with
      completions := s.link.completions
        ++ (s.tb.schedule.filter f).map fun e => ⟨e.tag, e.kind, .cancelled, some e.due, []⟩ } }

/-- R57: the end of a program by RELEASE: the ABORTED completion first, the CANCELLED ones after it. -/
def State.releaseNow (p : Fin 16) (x : Program) (s : State) : State :=
  let s1 := match x.openDef with
    | some tag => s.endDefinition p tag .aborted
    | none => (s.endDelayOp p .aborted).vacate p
  s1.cancelEntries fun e => e.program == some p

/-- R50, R57: RELEASE. -/
def State.releaseProgram (program : Byte) (s : State) : Answer :=
  s.withProgram program fun p x =>
    if x.state = .running then .refuse .wrongState s else .ok (s.releaseNow p x)

/-- R64: a channel takes a selection mode. -/
def Channel.takeMode (m : SelectMode) (ch : Channel) : Channel :=
  if ch.mode = m then ch else { ch with mode := m }.reselect

/-- R64: SELECT_SOURCE; channel 0xFF names all channels. -/
def State.selectSource (program channel mode : Byte) (s : State) : Answer :=
  s.withProgram program fun p x =>
    match selectModeOfByte mode with
    | none => .refuse .badValue s
    | some m =>
      if channel = 0xFF then
        .ok (s.progStep p fun y => { y with channels := y.channels.map (Channel.takeMode m) })
      else if x.channels.length ≤ channel.toNat then .refuse .badValue s
      else .ok (s.progStep p fun y => y.atChannel channel.toNat (Channel.takeMode m))

/-- R65: a channel takes its new sources. The demand is worked out from the protections and contacts as they stand at
this instant, which inside a house sample need not be what R166 hands over at the sample's end: the model's choice (log
entry 50). -/
def Channel.takeSources (a : AlarmUnit) (p : Fin 16) (primary : Source) (backup : Option Source) (ch : Channel) :
    Channel :=
  let c := { ch with primary := primary, backup := backup }
  { c with demand := a.demandFor p c }.reselect

/-- R50, R65: SET_CHANNEL_SOURCE. -/
def State.setChannelSource (program channel primary backup : Byte) (s : State) : Answer :=
  s.withProgram program fun p x =>
    if x.state = .preparing then .refuse .wrongState s
    else if x.channels.length ≤ channel.toNat then .refuse .badValue s
    else
      match sourceOfByte primary, backupOfByte backup with
      | some a, some b => .ok (s.progStep p fun y => y.atChannel channel.toNat (Channel.takeSources s.alarm p a b))
      | _, _ => .refuse .badValue s

/-- R50, R67: READ_PROGRAM, taken in every state. -/
def State.readProgram (program : Byte) (s : State) : Answer :=
  match programOfByte program with
  | none => .refuse .badValue s
  | some p => .read (s.reportProgram p) s

/-! ## Loudness (R82, R83, R88, R91) -/

/-- R91: a SET_LOUDNESS body's settings as they stand on the wire, signed ones read as signed. -/
def LoudSettings.ofFields (m : LoudMode) (f : LoudnessFields) : LoudSettings :=
  { mode := m, target := f.target.toInt, maxBoost := f.maxBoost.toInt, maxAttenuation := f.maxAttenuation.toInt
    upSlew := f.upSlew.toInt, downSlew := f.downSlew.toInt, holdDepth := f.holdDepth.toInt, window := f.window.toInt
    manualTrim := f.manualTrim.toInt, lookAhead := f.lookAhead.toNat }

/-- R90: the settings held within their ranges. -/
def LoudSettings.inRange (c : LoudSettings) : LoudSettings :=
  { mode := c.mode, target := clampInt (-400) (-50) c.target, maxBoost := clampInt 0 150 c.maxBoost
    maxAttenuation := clampInt 0 300 c.maxAttenuation, upSlew := clampInt 1 50 c.upSlew
    downSlew := clampInt 1 100 c.downSlew, holdDepth := clampInt 50 400 c.holdDepth, window := clampInt 10 200 c.window
    manualTrim := clampInt (-200) 200 c.manualTrim, lookAhead := min 48000 c.lookAhead }

/-- R91: SET_LOUDNESS. -/
def State.setLoudness (program mode : Byte) (f : LoudnessFields) (s : State) : Answer :=
  s.withProgram program fun p _ =>
    match loudModeOfByte mode with
    | none => .refuse .badValue s
    | some m =>
      let raw := LoudSettings.ofFields m f
      ⟨.ofHeld (decide (raw.inRange ≠ raw)), [], s.progStep p (Program.setLoudness raw.inRange)⟩

/-- R82: RESET_INTEGRATION. -/
def State.resetIntegration (program : Byte) (s : State) : Answer :=
  s.withProgram program fun p _ =>
    .ok (s.progStep p fun x => { x with loud := x.loud.resetIntegration s.counter })

/-- R83: the paused flag set or cleared. -/
def State.pauseIntegration (flag : Bool) (program : Byte) (s : State) : Answer :=
  s.withProgram program fun p _ => .ok (s.progStep p fun x => { x with loud := { x.loud with paused := flag } })

/-- R88: READ_LOUDNESS. -/
def State.readLoudness (program ringFlag : Byte) (s : State) : Answer :=
  s.withProgram program fun p x =>
    match flagOfByte ringFlag with
    | none => .refuse .badValue s
    | some withRing =>
      .read (x.reportLoudness s.counter (s.alarm.holdCovers p) ++ (if withRing then ringBytes x.loud.ring else [])) s

/-! ## Delay (R126, R134, R135, R139) -/

/-- The settings of a SET_DELAY as they are taken (R126): V, the change mode, the retrim mode, the slew rate, the auto
limit, and whether anything was held. -/
structure DelayAsk where
  value : Nat
  change : ChangeMode
  retrim : ChangeMode
  slewRate : Nat
  autoLimit : Nat
  held : Bool

/-- R126: a SET_DELAY body judged: none where the unit or a mode is outside its list. -/
def delayAsk (rate : FrameRate) (f : DelayFields) : Option DelayAsk :=
  match delaySamples rate f.unit f.value.toNat, changeModeOfByte f.changeMode, changeModeOfByte f.retrimMode with
  | some v, some change, some retrim =>
    let slew := clampNat 1 20 f.slewRate.toNat
    let limit := min 4800 f.autoLimit.toNat
    some ⟨min 500000 v, change, retrim, slew, limit,
      decide (500000 < v) || decide (slew ≠ f.slewRate.toNat) || decide (limit ≠ f.autoLimit.toNat)⟩
  | _, _, _ => none

/-- R126: a program takes a SET_DELAY, with its open operation if it is tagged. -/
def Program.takeDelay (tag : Byte) (d : DelayAsk) (x : Program) : Program :=
  { x with align :=
    { x.align with
      retrim := d.retrim, slewRate := d.slewRate, autoLimit := d.autoLimit
      op := if tag = 0 then none else some ⟨tag, d.value, d.held⟩ } }.retarget d.change d.value x.align.pathLat

/-- R126, R134, R135: SET_DELAY: an open operation of the program is superseded, the settings are taken, and a tagged
request opens its own operation. -/
def State.setDelay (tag program : Byte) (f : DelayFields) (s : State) : Answer :=
  s.withProgram program fun p _ =>
    match delayAsk s.tb.rate f with
    | none => .refuse .badValue s
    | some d =>
      let s1 := ((s.endDelayOp p .superseded).openOp tag (.delay p)).progStep p (Program.takeDelay tag d)
      ⟨if tag = 0 then .ofHeld d.held else .accepted, [], s1⟩

/-- R139: READ_DELAY. -/
def State.readDelay (program : Byte) (s : State) : Answer :=
  s.withProgram program fun _ x => .read (x.reportDelay s.counter) s

/-! ## Output (R144, R149) -/

/-- R144: MUTE_PROGRAM. -/
def State.muteProgram (program flag : Byte) (s : State) : Answer :=
  match flagOfByte flag with
  | none => .refuse .badValue s
  | some m => s.withProgram program fun p _ => .ok (s.progStep p (Program.mute m))

/-- R149: READ_OUTPUT. -/
def State.readOutput (program : Byte) (s : State) : Answer :=
  s.withProgram program fun _ x => .read x.reportOutput s

end Sys2Proof.Machine
end

