-- ==== Sys2Proof/Machine/Schedule.lean ====
section
/-! DEFINITION. The frame schedule (R16 to R20): SCHEDULE, the running of entries at a frame boundary, and the
timebase's steps that can be a boundary. -/

namespace Sys2Proof.Machine

/-- R17: the schedulable kinds. -/
def schedulable (kind : Byte) : Bool := [0x21, 0x22, 0x24, 0x30, 0x29, 0x28, 0x38].contains kind.toNat

/-- R16: an entry put in its place: by due frame, after the entries of the same frame. -/
def insertEntry (e : SchedEntry) : List SchedEntry → List SchedEntry
  | [] => [e]
  | x :: rest => if e.due.toNat < x.due.toNat then e :: x :: rest else x :: insertEntry e rest

/-- R17: SCHEDULE, under its own tag. -/
def State.addEntry (tag : Byte) (due : FrameIndex) (kind : Byte) (inner : List Byte) (s : State) : Answer :=
  if !schedulable kind then .refuse .notSchedulable s
  else if (parseRequest kind inner).isNone then .refuse .badLength s
  else if tag = 0 then .refuse .badValue s
  else if s.tagHeld tag then .refuse .tagBusy s
  else if due.toNat ≤ s.tb.frameIndex.toNat then .refuse .tooLate s
  else if 32 ≤ s.tb.schedule.length then .refuse .scheduleFull s
  else
    ⟨.accepted, [], { s with tb := { s.tb with schedule := insertEntry ⟨tag, due, kind, inner⟩ s.tb.schedule } }⟩

/-- R18: an immediate inner request as its owning block takes it. -/
def State.runInner (r : Request) (s : State) : Answer :=
  match r with
  | .start p => s.startProgram p
  | .stop p => s.stopProgram p
  | .selectSource p c m => s.selectSource p c m
  | .resetIntegration p => s.resetIntegration p
  | .setLoudness p m f => s.setLoudness p m f
  | .muteProgram p f => s.muteProgram p f
  | _ => .refuse .notSchedulable s

/-- R18: the completion of a schedule entry. -/
def SchedEntry.completion (e : SchedEntry) (result : Result) : Completion := ⟨e.tag, e.kind, result, some e.due, []⟩

/-- R19: a SET_DELAY run from the schedule: the table is looked at first, a refusal is the entry's completion, and an
accepted one is carried into the table under the entry's tag. -/
def State.carryDelay (e : SchedEntry) (program : Byte) (f : DelayFields) (s : State) : State :=
  if 8 ≤ s.link.ops.length then s.complete (e.completion .opsFull)
  else
    let a := s.setDelay e.tag program f
    if a.result = .accepted then a.state else s.complete (e.completion a.result)

/-- R18: one entry runs: it leaves the schedule, its inner request is run, and its completion is queued. -/
def State.runEntry (s : State) (e : SchedEntry) : State :=
  let s1 := { s with tb := { s.tb with schedule := removeFirst (· == e) s.tb.schedule } }
  match parseRequest e.kind e.body with
  | some (.setDelay p f) => s1.carryDelay e p f
  | some r => let a := s1.runInner r; a.state.complete (e.completion a.result)
  | none => s1

/-- R18: the entries due on the frame that has just begun run one after another, in schedule order. -/
def State.runFrame (s : State) : State :=
  (s.tb.schedule.filter fun e => e.due == s.tb.frameIndex).foldl State.runEntry s

/-! ## The steps of the timebase -/

/-- R2: the frame in progress has run out its table length. -/
def State.frameBoundary (s : State) : State :=
  if s.tb.boundaryDue s.counter then (s.tbStep (Timebase.boundary s.counter)).runFrame else s

/-- R11: a frame with a realignment pending reaches 1.5 table lengths. -/
def State.realignTimeout (s : State) : State :=
  if s.tb.timeoutDue s.counter then (s.tbStep (Timebase.realignTimeout s.counter)).runFrame else s

/-- R3 to R11: a pulse on a reference input. -/
def State.referencePulse (i : RefInput) (marked : Bool) (s : State) : State :=
  let r := s.tb.pulse s.counter i marked
  let s1 := s.tbStep fun _ => r.1
  if r.2 then s1.runFrame else s1

/-- R3: an input whose last valid pulse lies too far back becomes ABSENT. -/
def State.referenceLost (i : RefInput) (s : State) : State :=
  if s.tb.lossDue s.counter i then s.tbStep (Timebase.lose s.counter i) else s

/-- R11: a change of selection, and what a pulse already timed at this house sample then does to the frames. -/
def State.changeSelection (f : Timebase → Timebase) (s : State) : State :=
  let r := (f s.tb).countPulse s.counter
  let s1 := s.tbStep fun _ => r.1
  if r.2 then s1.runFrame else s1

/-- R6: the hold runs out. -/
def State.holdExpiry (s : State) : State :=
  if s.tb.holdDue s.counter then s.changeSelection (Timebase.holdExpire s.counter) else s

/-- R7: the revert timer runs out. -/
def State.revertExpiry (s : State) : State :=
  if s.tb.revertDue s.counter then s.changeSelection (Timebase.revert s.counter) else s

end Sys2Proof.Machine
end

