-- ==== Sys2Proof/Machine/Requests.lean ====
section
/-! DEFINITION. The requests that do not concern one program (chapters 1, 2, 6, 9 and 10), the judging of a request
(R180), and the taking of frames from the receive buffer (R179). -/

namespace Sys2Proof.Machine

/-! ## House Timebase (R13, R14, R21) -/

/-- R13: SET_TIMEBASE. A hold that has already run its new time runs out at once. -/
def State.setTimebase (rate preference revertive hold : Byte) (s : State) : Answer :=
  match rateOfCode rate, refOfByte preference, flagOfByte revertive with
  | some r, some p, some v => .ok (s.tbStep (Timebase.configure s.counter r p v hold)).holdExpiry
  | _, _, _ => .refuse .badValue s

/-! ## Lane Units (R31, R35, R46, R47) -/

/-- A request that names a lane: BAD_VALUE outside 0 to 3. -/
def State.withLane (b : Byte) (f : Fin 4 → Answer) (s : State) : Answer :=
  match laneOfByte b with
  | none => .refuse .badValue s
  | some l => f l

/-- R46: SET_LANE. -/
def State.configureLane (lane enable admission hold : Byte) (s : State) : Answer :=
  s.withLane lane fun l =>
    match flagOfByte enable, flagOfByte admission with
    | some e, some a => .ok (s.laneStep l (Lane.configure s.counter e a hold))
    | _, _ => .refuse .badValue s

/-- R31: LANE_ADMIT. -/
def State.admitLane (lane : Byte) (s : State) : Answer := s.withLane lane fun l => .ok (s.laneStep l Lane.takeAdmit)

/-- R35: LANE_RESTART. -/
def State.restartLane (lane : Byte) (s : State) : Answer :=
  s.withLane lane fun l =>
    if (s.lane l).enabled then .ok (s.laneStep l (Lane.restart s.counter)) else .refuse .wrongState s

/-- R47: READ_LANE; the ready flag is then cleared. -/
def State.readLane (lane : Byte) (s : State) : Answer :=
  s.withLane lane fun l =>
    .read ((s.lane l).report s.counter) (s.setLane l { s.lane l with blockReady := false })

/-! ## Delay Memory Controller (R117) -/

/-- R117: CHECK_MEMORY. -/
def State.checkMemory (tag : Byte) (s : State) : Answer :=
  if s.pool.sized = 0 then .refuse .notFitted s
  else if s.pool.check.isSome then .refuse .wrongState s
  else ⟨.accepted, [], s.beginCheck tag⟩

/-! ## Alarm Unit (R154, R162, R165, R170, R172 to R174) -/

/-- R154: the settings of a SET_ALARM_KIND held within their ranges. -/
def heldKind (k : Fin 13) (mode : AlarmMode) (f : KindFields) : KindSettings :=
  { mode := mode, priority := min 7 f.priority.toNat, raiseCode := f.raiseCode, clearCode := f.clearCode
    retryCode := f.retryCode
    level := if k = 4 then clampInt (-900) (-300) f.level.toInt
      else if k = 5 then clampInt (-200) 0 f.level.toInt else f.level.toInt
    count := if k = 5 then clampNat 1 16 f.count.toNat else f.count.toNat }

/-- R154: SET_ALARM_KIND. -/
def State.setAlarmKind (kind : Byte) (f : KindFields) (s : State) : Answer :=
  match kindOfByte kind, alarmModeOfByte f.mode with
  | some k, some mode =>
    if mode.protects && !hasAction k then .refuse .badValue s
    else
      let x := heldKind k mode f
      let held := decide (x.priority ≠ f.priority.toNat) || decide (x.level ≠ f.level.toInt)
        || decide (x.count ≠ f.count.toNat)
      ⟨.ofHeld held, [], { s with alarm := s.alarm.setKind s.counter k x }⟩
  | _, _ => .refuse .badValue s

/-- R162: ACK_ALARM. -/
def State.ackAlarm (point : Byte) (s : State) : Answer :=
  if point = 0xFF then
    .ok { s with alarm := allPoints.foldl (fun a pt => a.acknowledge s.counter pt) s.alarm }
  else
    match pointOfByte point with
    | some pt => .ok { s with alarm := s.alarm.acknowledge s.counter pt }
    | none => .refuse .badValue s

/-- R165: CLEAR_PROTECTION. -/
def State.clearProtection (point : Byte) (s : State) : Answer :=
  if point = 0xFF then
    .read (bigEndian 1 (allPoints.filter s.alarm.stillPresent).length)
      { s with alarm := allPoints.foldl (AlarmUnit.clearPoint s.counter) s.alarm }
  else
    match pointOfByte point with
    | some pt =>
      if s.alarm.stillPresent pt then .refuse .stillPresent s
      else .ok { s with alarm := s.alarm.clearPoint s.counter pt }
    | none => .refuse .badValue s

/-- R173: READ_ALARM. -/
def State.readAlarm (point : Byte) (s : State) : Answer :=
  match pointOfByte point with
  | some pt => .read (s.alarm.report s.counter pt) s
  | none => .refuse .badValue s

/-- R174: READ_ALARM_LIST; a maximum count of 0 means 24. -/
def State.readAlarmList (first maximum : Byte) (s : State) : Answer :=
  match pointOfByte first with
  | some pt =>
    let n := if maximum = 0 then 24 else min 24 maximum.toNat
    ⟨.ofHeld (decide (24 < maximum.toNat)), s.alarm.reportList pt.val n, s⟩
  | none => .refuse .badValue s

/-- R170: SET_SUMMARY_OUTPUT. -/
def State.setSummaryOutput (output : Byte) (f : SummaryFields) (s : State) : Answer :=
  match laneOfByte output, flagOfByte f.filter, flagOfByte f.polarity, flagOfByte f.enable with
  | some o, some any, some low, some on =>
    if 8192 ≤ f.kinds.toNat then .refuse .badValue s
    else
      let x : Summary := ⟨f.kinds, min 7 f.ceiling.toNat, any, low, on⟩
      ⟨.ofHeld (decide (7 < f.ceiling.toNat)), [],
        { s with alarm := { s.alarm with summaries := s.alarm.summaries.set o.val x o.isLt } }⟩
  | _, _, _, _ => .refuse .badValue s

/-- R172: SET_CONTACT. -/
def State.setContact (input : Byte) (f : ContactFields) (s : State) : Answer :=
  match laneOfByte input, contactFunctionOfByte f.function, flagOfByte f.polarity, flagOfByte f.sense with
  | some c, some fn, some low, some edge =>
    .ok { s with alarm := s.alarm.changeContact s.counter c fn low f.programs edge }
  | _, _, _, _ => .refuse .badValue s

/-! ## Link Port (R184, R189, R190) -/

/-- R136: the delay of a program made to stop where it stands: V becomes the whole part of D_cur plus P_prog. The rule
names no mode for the change of D_target; the model takes it as SLEW (log entry 46). -/
def Program.stopDelay (x : Program) : Program := x.retarget .slew (x.align.cur / 65536 + x.align.pathLat) x.align.pathLat

/-- R136: the open delay operation of a program ended by CANCEL, and the delay stopped. At the house sample of a slew's
arrival the CANCEL finds the delay arrived, with nothing remaining. -/
def State.cancelDelay (p : Fin 16) (s : State) : State :=
  match s.program p with
  | none => s
  | some x =>
    match x.align.op with
    | none => s
    | some op =>
      ((s.setProgram p (some { x with align := { x.align with op := none } })).closeOp op.tag (.delay p) .cancelled
        (delayDetails p op x.slewArrival.align)).progStep p fun y => y.slewArrival.stopDelay

/-- R184: one operation-table entry ended with CANCELLED by the rule that owns it (R54, R119, R136). -/
def State.cancelOp (s : State) (e : OpEntry) : State :=
  match e.concern with
  | .definition p => s.endDefinition p e.tag .cancelled
  | .delay p => s.cancelDelay p
  | .check => s.cancelCheck

/-- R184: CANCEL: a target tag, or 0 for all. -/
def State.cancel (target : Byte) (s : State) : Answer :=
  if target = 0 then
    .read (bigEndian 1 (s.link.ops.length + s.tb.schedule.length))
      ((s.link.ops.foldl State.cancelOp s).cancelEntries fun _ => true)
  else
    match s.link.ops.find? fun e => e.tag == target with
    | some e => .ok (s.cancelOp e)
    | none =>
      if s.tb.schedule.any fun e => e.tag == target then .ok (s.cancelEntries fun e => e.tag == target)
      else .refuse .unknownTag s

/-- R189: READ_STATUS: the flags are taken with the report (log entry 23); after it, LINK_ERR and RESTARTED are cleared
and the four counters set to 0. -/
def State.readStatus (s : State) : Answer :=
  ⟨.ok, s.reportStatus,
    { s with link :=
      { s.link with
        linkErr := false, restarted := false, crcErrors := 0, lengthErrors := 0, gapErrors := 0, overruns := 0
        statusFlags := some s.summaryByte } }⟩

/-- R68, R121, R175, R190: what RESTART does: every program becomes VACANT, the check's window goes back after the
programs' pages, the fill queue, the tables of the Link Port, the schedule and the Alarm Unit's points are emptied. -/
def State.restartAll (s : State) : State :=
  let s1 := forAll allPrograms State.vacate s
  { s1 with
    tb := { s1.tb with schedule := [] }
    pool := { s1.pool.returnWindow with check := none, fill := [] }
    alarm := s1.alarm.restart s.counter
    link := { s1.link with ops := [], completions := [], receiver := .hunt, restarted := true } }

/-! ## Judging and taking (R179, R180, R191) -/

/-- R180, R181: whether a request is one of the three deferred ones that open an operation. -/
def opensOp : Request → Bool
  | .defineProgram _ _ _ => true
  | .setDelay _ _ => true
  | .checkMemory => true
  | _ => false

/-- A request handed to the block that owns the state concerned. -/
def State.answer (tag : Byte) (r : Request) (s : State) : Answer :=
  match r with
  | .identify => .read s.reportIdentity s
  | .readStatus => s.readStatus
  | .restart => .ok s.restartAll
  | .cancel target => s.cancel target
  | .schedule due kind inner => s.addEntry tag due kind inner
  | .readSchedule => .read s.reportSchedule s
  | .setTimebase rate pref rev hold => s.setTimebase rate pref rev hold
  | .readTime => .read s.reportTime s
  | .setLane lane enable admission hold => s.configureLane lane enable admission hold
  | .laneAdmit lane => s.admitLane lane
  | .laneRestart lane => s.restartLane lane
  | .readLane lane => s.readLane lane
  | .defineProgram p d chs => s.defineProgram tag p d chs
  | .start p => s.startProgram p
  | .stop p => s.stopProgram p
  | .release p => s.releaseProgram p
  | .selectSource p c m => s.selectSource p c m
  | .setChannelSource p c a b => s.setChannelSource p c a b
  | .readProgram p => s.readProgram p
  | .setLoudness p m f => s.setLoudness p m f
  | .resetIntegration p => s.resetIntegration p
  | .pauseIntegration p => s.pauseIntegration true p
  | .resumeIntegration p => s.pauseIntegration false p
  | .readLoudness p f => s.readLoudness p f
  | .setDelay p f => s.setDelay tag p f
  | .readDelay p => s.readDelay p
  | .checkMemory => s.checkMemory tag
  | .readPool n => .read (s.reportPool n.toNat) s
  | .muteProgram p f => s.muteProgram p f
  | .readOutput p => s.readOutput p
  | .setAlarmKind k f => s.setAlarmKind k f
  | .ackAlarm p => s.ackAlarm p
  | .clearProtection p => s.clearProtection p
  | .readAlarm p => s.readAlarm p
  | .readAlarmList a n => s.readAlarmList a n
  | .setSummaryOutput o f => s.setSummaryOutput o f
  | .setContact i f => s.setContact i f
  | .readContacts => .read s.alarm.reportContacts s

/-- R180: the checks after the length, then the owner. -/
def State.judge (tag : Byte) (r : Request) (s : State) : Answer :=
  if opensOp r && tag != 0 && s.tagHeld tag then .refuse .tagBusy s
  else if opensOp r && tag != 0 && decide (8 ≤ s.link.ops.length) then .refuse .opsFull s
  else s.answer tag r

/-- R191: whether a request of a kind is answered STARTING. -/
def State.starting (s : State) (kind : Byte) : Bool := !s.link.sizingEnded && kind != 0x01 && kind != 0x02

/-- R180: a frame judged. -/
def State.judgeFrame (f : Frame) (s : State) : Answer :=
  if !isRequestKind f.kind then .refuse .unknownKind s
  else if s.starting f.kind then .refuse .starting s
  else
    match parseRequest f.kind f.body with
    | none => .refuse .badLength s
    | some r => s.judge f.tag r

/-- A reply placed in the reply place (R179, R180). -/
def Answer.placed (kind tag : Byte) (a : Answer) : State :=
  { a.state with link := { a.state.link with reply := some ⟨kind, tag, a.result, a.report⟩ } }

/-- R179: whether a request at the head of the receive buffer is taken now: the reply place is empty and the
completion reserve does not hold it back. -/
def State.mayTake (s : State) (kind tag : Byte) : Bool := s.link.reply.isNone && !s.heldBack kind tag

/-- R179: the oldest frame of the receive buffer is taken, if it may be. -/
def State.takeFrame (s : State) : State :=
  match s.link.buffer with
  | [] => s
  | f :: rest =>
    if s.mayTake f.kind f.tag then
      (({ s with link := { s.link with buffer := rest } }).judgeFrame f).placed f.kind f.tag
    else s

/-- R179, R187: the transmitter begins what waits and the receive buffer gives up what may be taken, as often as one
house sample allows. -/
def State.serveLink (s : State) : State := s.transmit.takeFrame.transmit.takeFrame

/-- R179, R180: a well-formed request arrives as a frame of the link. With nothing before it in the receive buffer it
is taken at this house sample, if it may be; otherwise it waits in the buffer. -/
def State.present (tag : Byte) (r : Request) (s : State) : State :=
  let kind := requestKind r
  if s.link.buffer.isEmpty && s.mayTake kind tag then
    (if s.starting kind then Answer.refuse .starting s else s.judge tag r).placed kind tag
  else s.appendFrame ⟨kind, tag, requestBody r⟩

/-- R180: a frame of a kind that is no request arrives. -/
def State.presentUnknown (kind tag : Byte) (body : List Byte) (s : State) : State :=
  if s.link.buffer.isEmpty && s.mayTake kind tag then (s.judgeFrame ⟨kind, tag, body⟩).placed kind tag
  else s.appendFrame ⟨kind, tag, body⟩

end Sys2Proof.Machine
end

