-- ==== Sys2Proof/Machine/Steps.lean ====
section
/-! DEFINITION. The part's own steps, each made where it is due and without effect where it is not (log entry 4):
what comes about in a lane, a program, the delay memory or the Alarm Unit when a time runs out or a fade ends. -/

namespace Sys2Proof.Machine

/-! ## Link Port (R178, R179, R187) -/

/-- R178: the last CRC byte of the frame being collected arrives; with more bytes to come, or none, it is not the
last. -/
def State.frameReceived (last : Byte) (s : State) : State :=
  match s.link.receiver with
  | .collect 1 _ => (s.receiveByte last).takeFrame
  | _ => s

/-- R178: a length byte out of range arrives in LENGTH. -/
def State.frameLengthError (length : Byte) (s : State) : State :=
  if s.link.receiver = .length ∧ lengthInRange length = false then s.receiveByte length else s

/-- R187: the frame being sent ends; the next begins, and the receive buffer gives up what may be taken. -/
def State.transmitFrameEnd (s : State) : State :=
  match s.link.sending with
  | some _ => s.endSending.takeFrame
  | none => s

/-! ## Power-on (R192) -/

/-- R15, R48, R49, R121, R175, R192: power-on or pin reset. What stands outside the part stays as it is: the waiting
commands, the contact pins, and the DRAM cells that have failed. -/
def State.powerOn (highRate : Bool) (s : State) : State :=
  { State.reset with
    pending := s.pending, stuck := s.stuck
    alarm := { AlarmUnit.reset with pins := s.alarm.pins }
    link := { LinkPort.reset with highRate := highRate } }

/-! ## Lanes -/

/-- R22, R23, R36: a lane frame arrives. -/
def State.laneFrame (l : Fin 4) (slots : List Sample) (status marker : Bool) (s : State) : State :=
  s.laneStep l (Lane.frameStart s.counter slots status marker)

/-- R29: a lane's clock becomes ABSENT. -/
def State.clockLost (l : Fin 4) (s : State) : State := s.laneStep l (Lane.clockLost s.counter)

/-- R26, R27: a classification window ends. -/
def State.windowEnd (l : Fin 4) (s : State) : State := s.laneStep l (Lane.windowEnd s.counter)

/-- R37: a control instant of a lane. -/
def State.controlInstant (l : Fin 4) (s : State) : State := s.laneStep l (Lane.controlInstant s.counter)

/-- R30: the lock criterion. -/
def State.lockMet (l : Fin 4) (s : State) : State := s.laneStep l Lane.lockMet

/-- R34: the pin run count has reached 100. -/
def State.pinLimit (l : Fin 4) (s : State) : State := s.laneStep l (Lane.pinLimit s.counter)

/-- R32: the entry fade ends. -/
def State.entryFadeEnd (l : Fin 4) (s : State) : State := s.laneStep l Lane.entryFadeEnd

/-- R39, R45: the step of a slip; one counted in LOCKED raises a LANE_SLIP event. -/
def State.slipStep (l : Fin 4) (s : State) : State :=
  let s1 := s.laneStep l Lane.slipStep
  if (s.lane l).slipCounts then { s1 with alarm := s1.alarm.event s.counter (lanePoint 2 l) } else s1

/-- R39: the fade-in of a slip ends. -/
def State.slipEnd (l : Fin 4) (s : State) : State := s.laneStep l Lane.slipEnd

/-- R33: the holdover time runs out. -/
def State.holdoverExpiry (l : Fin 4) (s : State) : State := s.laneStep l (Lane.holdoverExpiry s.counter)

/-- R33: a return window ends. -/
def State.returnEnd (l : Fin 4) (s : State) : State := s.laneStep l (Lane.returnEnd s.counter)

/-! ## Programs -/

/-- R55, R56: the on-air fade ends. -/
def State.onAirEnd (p : Fin 16) (s : State) : State := s.progStep p Program.onAirEnd

/-- R62: the switch of a changeover. -/
def State.changeoverSwitch (p : Fin 16) (c : Fin 8) (s : State) : State :=
  s.progStep p (Program.changeoverSwitch s.lanes c.val)

/-- R62: the end of a changeover. -/
def State.changeoverEnd (p : Fin 16) (c : Fin 8) (s : State) : State :=
  s.progStep p (Program.atChannel c.val Channel.changeoverEnd)

/-- R124: the step of a trim step. -/
def State.trimStep (p : Fin 16) (c : Fin 8) (s : State) : State := s.progStep p (Program.atChannel c.val Channel.stepTrim)

/-- R124: the end of a trim step. -/
def State.trimStepEnd (p : Fin 16) (c : Fin 8) (s : State) : State :=
  s.progStep p (Program.atChannel c.val Channel.endTrimStep)

/-- R129, R138: the jump of a cut. -/
def State.cutJump (p : Fin 16) (s : State) : State := s.progStep p Program.cutJump

/-- R128: the end of a cut's fade-in. -/
def State.cutInEnd (p : Fin 16) (s : State) : State := s.progStep p Program.cutInEnd

/-- R130: the arrival of a slew. -/
def State.slewArrival (p : Fin 16) (s : State) : State := s.progStep p Program.slewArrival

/-- R137: the switch of delay bypass. -/
def State.bypassSwitch (p : Fin 16) (s : State) : State := s.progStep p Program.bypassSwitch

/-- R137: the end of the fade that rises after the switch. -/
def State.bypassFadeInEnd (p : Fin 16) (s : State) : State := s.progStep p Program.bypassFadeInEnd

/-- R100: the held entries that the output index has reached are applied. -/
def State.gainEntryDue (p : Fin 16) (s : State) : State := s.progStep p (Program.applyDue s.counter)

/-- R143: the gain ramp becomes steady. -/
def State.gainRampEnd (p : Fin 16) (s : State) : State := s.progStep p Program.rampEnd

/-- R144: the mute fade ends. -/
def State.muteFadeEnd (p : Fin 16) (s : State) : State := s.progStep p Program.muteEnd

/-- R76: at a counter value that ends a block, every program's block end. -/
def State.blockEnd (s : State) : State :=
  if s.counter.toNat % 4800 = 0 ∧ s.counter ≠ 0 then
    forAll allPrograms (fun p s => s.progStep p (Program.blockEnd s.counter)) s
  else s

/-- Whether a channel's over run has reached the over count in this house sample (R147). -/
def Program.overDueAt (x : Program) (c : Nat) : Bool := (x.channels[c]?).any Channel.overDue

/-- R147: a channel's over run set to 0 with its event. -/
def Channel.clearOver (ch : Channel) : Channel := { ch with overRun := 0, overDue := false }

/-- R147: the PROG_OVER event of a channel whose over run has reached the over count. -/
def State.overEvent (p : Fin 16) (c : Fin 8) (s : State) : State :=
  match s.program p with
  | none => s
  | some x =>
    if x.overDueAt c.val then
      { s.setProgram p (some (x.atChannel c.val Channel.clearOver)) with
        alarm := s.alarm.event s.counter (progPoint 1 p) }
    else s

/-! ## Alarm boundaries (R86, R157 to R160, R164, R171) -/

/-- Whether this house sample's alarm boundary is still to be taken. -/
def State.atBoundary (s : State) : Bool := decide (s.counter.toNat % 480 = 0) && !s.alarm.boundaryTaken

/-- R158: an event point returns to rest. -/
def State.eventPointRest (pt : Fin 118) (s : State) : State :=
  if s.atBoundary then { s with alarm := s.alarm.restPoint s.counter pt } else s

/-- R159: a state point's filtered condition rises. -/
def State.filterRise (pt : Fin 118) (s : State) : State :=
  if s.atBoundary then { s with alarm := s.alarm.filterRise s.counter pt } else s

/-- R159, R160: a point's filtered condition falls. -/
def State.filterFall (pt : Fin 118) (s : State) : State :=
  if s.atBoundary then { s with alarm := s.alarm.filterFall s.counter pt } else s

/-- R164: an applied protection is removed. -/
def State.retryExpiry (pt : Fin 118) (s : State) : State :=
  if s.atBoundary then { s with alarm := s.alarm.retry s.counter pt } else s

/-- R84: whether an INTEGRATION_RESET input that covers a program has just become active. -/
def resetEdge (before after : AlarmUnit) (p : Fin 16) : Bool :=
  allLanes.any fun c => (after.contact c).covers .integrationReset p && !(before.contact c).level

/-- R86: every program's alarm interval judged. -/
def State.judgeSilence (s : State) : State :=
  forAll allPrograms (fun p s => s.progStep p (Program.judgeSilence s.counter s.alarm.silenceLevel)) s

/-- R84, R171: the contact inputs read, with the resets of integration that an active edge makes. -/
def State.readContactPins (s : State) : State :=
  let a := allLanes.foldl (AlarmUnit.readContact s.counter) s.alarm
  forAll (allPrograms.filter (resetEdge s.alarm a))
    (fun p s => s.progStep p fun x => { x with loud := x.loud.resetIntegration s.counter })
    { s with alarm := a }

/-- R157 to R160, R164: every point judged. -/
def State.judgePoints (s : State) : State :=
  { s with alarm := allPoints.foldl (AlarmUnit.judge s.counter) s.alarm }

/-- R157: the alarm boundary, taken once in its house sample. -/
def State.alarmBoundary (s : State) : State :=
  if s.atBoundary then
    let s1 := s.judgeSilence.readContactPins.judgePoints
    { s1 with alarm := { s1.alarm with boundaryTaken := true } }
  else s

end Sys2Proof.Machine
end

