-- ==== Sys2Proof/Machine/Tick.lean ====
section
/-! DEFINITION. The period of the house clock (R1): the house sample in progress is closed and the next one opens.
Closing a sample makes every step of the part that is due in it and has not been made, serves the link, hands
the protections to their owners (R166), forms the sample's audio from the state at its end, and sends the egress
lanes. The order among steps that the spec leaves free is one choice (log entry 25). -/

namespace Sys2Proof.Machine

/-! ## The steps due in a house sample -/

/-- R3, R6, R7: the losses, the hold and the revert timer that are due. -/
def State.settleReferences (s : State) : State := ((s.referenceLost .a).referenceLost .b).holdExpiry.revertExpiry

/-- The timebase's steps that are due, and the gap of the receiver. The references are judged again after a boundary,
from which a new frame rate measures them (R12). -/
def State.settleTime (s : State) : State :=
  s.settleReferences.realignTimeout.frameBoundary.settleReferences.gapCheck

/-- A lane's steps that are due. -/
def State.settleLane (l : Fin 4) (s : State) : State :=
  ((((((((((s.clockLost l).controlInstant l).pinLimit l).lockMet l).windowEnd l).returnEnd l).holdoverExpiry
    l).entryFadeEnd l).slipStep l).slipEnd l)

/-- A channel's steps that are due. -/
def State.settleChannel (p : Fin 16) (c : Fin 8) (s : State) : State :=
  (((s.changeoverSwitch p c).changeoverEnd p c).trimStep p c).trimStepEnd p c

/-- A program's steps that are due. -/
def State.settleProgram (p : Fin 16) (s : State) : State :=
  let s1 := forAll allChannels (State.settleChannel p) ((s.onAirEnd p).muteFadeEnd p)
  ((((((s1.cutJump p).cutInEnd p).slewArrival p).bypassSwitch p).bypassFadeInEnd p).gainRampEnd p).gainEntryDue p

/-- Everything that is due in the house sample in progress. -/
def State.settle (s : State) : State :=
  let s1 := forAll allLanes State.settleLane s.settleTime
  let s2 := forAll allPrograms State.settleProgram s1.blockEnd
  s2.fillPage.endPageTest.alarmBoundary

/-! ## The audio of a house sample -/

/-- R38: every lane's interpolator computes the samples of the house sample. -/
def State.interpolate (s : State) : State := { s with lanes := s.lanes.map Lane.fillPipe }

/-- R62, R63, R69, R74, R122: a program's aligned audio, measured and marked. -/
def Program.takeInput (now : Time) (lanes : Vector Lane 4) (held : Bool) (x : Program) : Program :=
  ({ x with channels := x.channels.map (Channel.alignSample now lanes) }.measure).mark
    (x.channels.all (Channel.laneLocked lanes)) held

/-- A program's input of the house sample. -/
def State.takeInput (p : Fin 16) (s : State) : State :=
  match s.program p with
  | none => s
  | some x => s.setProgram p (some (x.takeInput s.counter s.lanes (s.alarm.holdCovers p)))

/-- R147: the PROG_OVER events of a program in the house sample. -/
def State.overEvents (p : Fin 16) (s : State) : State := forAll allChannels (State.overEvent p) s

/-- R145, R147: a program's output of the house sample, under the over level and the over count, with its overs'
events. -/
def State.outputUnder (p : Fin 16) (s : State) : State :=
  match s.program p with
  | none => s
  | some x =>
    (s.setProgram p (some (x.formOutputs (overThreshold (s.alarm.kind 5).level) (s.alarm.kind 5).count))).overEvents p

/-- Whether a program's PROG_OVER protection is applied. -/
def State.padApplied (p : Fin 16) (s : State) : Bool := (s.alarm.point (progPoint 1 p)).applied

/-- Output samples formed with the pad, and the over runs of those formed without it. -/
def Channel.takeOver (judged ch : Channel) : Channel := { ch with overRun := judged.overRun, overDue := judged.overDue }

/-- R145: the outputs of a program formed with its pad, where only those formed without it are over (log entry 47). -/
def State.overThenPad (p : Fin 16) (padded without : State) : State :=
  match without.program p, padded.program p with
  | some x, some y => without.setProgram p (some { y with channels := List.zipWith Channel.takeOver x.channels y.channels })
  | _, _ => without

/-- R145 to R147, R166: a program's output of the house sample, under the pad as it stands at the end of the sample. A
pad that the sample's own overs apply is at the first step of its ramp in the very output that is over; one that has been
removed and is applied again reaches the program as no change. Where the outputs formed without a new pad are not over,
none is applied, even where those formed with it would be (log entry 47). -/
def State.formOutput (p : Fin 16) (s : State) : State :=
  let handed := (s.handPad p).outputUnder p
  if s.padApplied p then handed
  else
    let padded := (s.padded p true).outputUnder p
    if padded.padApplied p && (handed.padApplied p || (s.program p).any fun x => x.out.pad == -100) then padded
    else if handed.padApplied p then padded.overThenPad p handed
    else handed

/-- R148: what a slot carries: the output of the channel that claims it, while its program is RUNNING. -/
def State.slotOutput (s : State) (claim : Option Claim) : Sample :=
  match claim with
  | none => 0
  | some k =>
    match s.program k.program with
    | none => 0
    | some x => if x.state = .running then ((x.channels[k.channel]?).map Channel.output).getD 0 else 0

/-- R148: the status bit of a lane frame: the 24-byte block is 3 and 23 zeros, most significant bit first. -/
def statusBit (counter : Nat) : Bool := counter % 192 == 6 || counter % 192 == 7

/-- R148: the egress lanes' frames of the house sample. -/
def State.sendEgress (s : State) : State :=
  { s with egress :=
    { slots := s.claims.map s.slotOutput
      marker := s.counter.toNat % 192 == 0
      status := statusBit s.counter.toNat } }

/-- The audio of the house sample, from the ingress slots to the egress slots, with every protection handed to its
owner as it stands at the end of the sample (R166): the changeover demands first, the bypass with the ring reads, the
pad with the outputs. -/
def State.audio (s : State) : State :=
  let s1 := forAll allPrograms State.takeInput (forAll allPrograms State.handDemands s).interpolate
  let s2 := forAll allPrograms State.readRing (forAll allPrograms State.writeRing s1)
  (forAll allPrograms State.formOutput s2).sendEgress

/-! ## Closing and opening -/

/-- The house sample in progress closed. -/
def State.closeSample (s : State) : State := s.settle.serveLink.audio.serveLink

/-- What the end of a house sample keeps for the next: the silence level in force (R86), the frame starts of a
classification window (R26), and the time a page has been tested for (R113). Whether the fill queue is empty at a house
sample is judged here, at its close (log entry 54). -/
def State.latch (s : State) : State :=
  { s with
    lanes := s.lanes.map Lane.closeSample
    pool := if s.pool.check.isSome && !s.pool.window.isEmpty && s.pool.fill.isEmpty then
        { s.pool with testRun := s.pool.testRun + 1 } else s.pool
    alarm := { s.alarm with silenceLevel := (s.alarm.kind 4).level } }

/-- The next house sample opened: the counter advanced by one, the stores read, the fades, ramps and slews moved, the
contact pins at their new levels. -/
def State.openSample (pins : BitVec 4) (s : State) : State :=
  { s with
    counter := s.counter + 1
    lanes := s.lanes.map Lane.tick
    programs := s.programs.map fun x => x.map Program.tick
    alarm := { s.alarm with pins := pins, boundaryTaken := false } }

/-- R1: one period of the house clock. The DRAM cells that fail do so as the new sample begins. -/
def State.tick (pins : BitVec 4) (faults : List DramFault) (s : State) : State :=
  faults.foldl State.takeFault (s.closeSample.latch.openSample pins)

end Sys2Proof.Machine
end

