-- ==== Sys2Proof/Machine/ExecAlarms.lean ====
section
/-! DEFINITION. The meanings of the commands of the Alarm Unit (chapter 9): one definition per command. -/

namespace Sys2Proof.Machine

/-- ALARM_BOUNDARY (R86, R157, R171: an alarm boundary). -/
def execAlarmBoundary (s : State) : Host.Outcome State Fault Refusal :=
  .next s.alarmBoundary

/-- EVENT_POINT_REST (R158: an event point returns to rest). -/
def execEventPointRest (point : Fin 118) (s : State) : Host.Outcome State Fault Refusal :=
  .next (s.eventPointRest point)

/-- FILTER_RISE (R159, R161, R163: a filtered condition rises). -/
def execFilterRise (point : Fin 118) (s : State) : Host.Outcome State Fault Refusal :=
  .next (s.filterRise point)

/-- FILTER_FALL (R159, R160, R161: a filtered condition falls). -/
def execFilterFall (point : Fin 118) (s : State) : Host.Outcome State Fault Refusal :=
  .next (s.filterFall point)

/-- RETRY_EXPIRY (R164: the retry time runs out). -/
def execRetryExpiry (point : Fin 118) (s : State) : Host.Outcome State Fault Refusal :=
  .next (s.retryExpiry point)

/-- SET_ALARM_KIND, a request (R154, R179, R180). -/
def execSetAlarmKind (tag kind : Byte) (fields : KindFields) (s : State) : Host.Outcome State Fault Refusal :=
  .next (s.present tag (.setAlarmKind kind fields))

/-- ACK_ALARM, a request (R162, R179, R180). -/
def execAckAlarm (tag point : Byte) (s : State) : Host.Outcome State Fault Refusal :=
  .next (s.present tag (.ackAlarm point))

/-- CLEAR_PROTECTION, a request (R165, R179, R180). -/
def execClearProtection (tag point : Byte) (s : State) : Host.Outcome State Fault Refusal :=
  .next (s.present tag (.clearProtection point))

/-- SET_SUMMARY_OUTPUT, a request (R170, R179, R180). -/
def execSetSummaryOutput (tag output : Byte) (fields : SummaryFields) (s : State) :
    Host.Outcome State Fault Refusal :=
  .next (s.present tag (.setSummaryOutput output fields))

/-- SET_CONTACT, a request (R172, R179, R180). -/
def execSetContact (tag input : Byte) (fields : ContactFields) (s : State) : Host.Outcome State Fault Refusal :=
  .next (s.present tag (.setContact input fields))

/-- READ_ALARM, a request (R173, R179, R180). -/
def execReadAlarm (tag point : Byte) (s : State) : Host.Outcome State Fault Refusal :=
  .next (s.present tag (.readAlarm point))

/-- READ_ALARM_LIST, a request (R174, R179, R180). -/
def execReadAlarmList (tag first maximum : Byte) (s : State) : Host.Outcome State Fault Refusal :=
  .next (s.present tag (.readAlarmList first maximum))

/-- READ_CONTACTS, a request (R174, R179, R180). -/
def execReadContacts (tag : Byte) (s : State) : Host.Outcome State Fault Refusal :=
  .next (s.present tag .readContacts)

end Sys2Proof.Machine
end

