-- ==== Sys2Proof/Machine/ExecDelay.lean ====
section
/-! DEFINITION. The meanings of the commands of the Alignment Unit (chapter 7): one definition per command. -/

namespace Sys2Proof.Machine

/-- SET_DELAY, a request (R126, R179, R180). -/
def execSetDelay (tag program : Byte) (fields : DelayFields) (s : State) : Host.Outcome State Fault Refusal :=
  .next (s.present tag (.setDelay program fields))

/-- TRIM_STEP (R124: the step of a trim step). -/
def execTrimStep (program : Fin 16) (channel : Fin 8) (s : State) : Host.Outcome State Fault Refusal :=
  .next (s.trimStep program channel)

/-- TRIM_STEP_END (R124: the end of a trim step). -/
def execTrimStepEnd (program : Fin 16) (channel : Fin 8) (s : State) : Host.Outcome State Fault Refusal :=
  .next (s.trimStepEnd program channel)

/-- CUT_JUMP (R129, R138: the jump of a cut). -/
def execCutJump (program : Fin 16) (s : State) : Host.Outcome State Fault Refusal :=
  .next (s.cutJump program)

/-- CUT_IN_END (R128: a cut's fade-in ends). -/
def execCutInEnd (program : Fin 16) (s : State) : Host.Outcome State Fault Refusal :=
  .next (s.cutInEnd program)

/-- SLEW_ARRIVAL (R130, R134: the arrival of a slew). -/
def execSlewArrival (program : Fin 16) (s : State) : Host.Outcome State Fault Refusal :=
  .next (s.slewArrival program)

/-- BYPASS_SWITCH (R137: the switch of delay bypass). -/
def execBypassSwitch (program : Fin 16) (s : State) : Host.Outcome State Fault Refusal :=
  .next (s.bypassSwitch program)

/-- READ_DELAY, a request (R139, R179, R180). -/
def execReadDelay (tag program : Byte) (s : State) : Host.Outcome State Fault Refusal :=
  .next (s.present tag (.readDelay program))

/-- BYPASS_FADE_IN_END (R137: the fade that rises after the switch ends). -/
def execBypassFadeInEnd (program : Fin 16) (s : State) : Host.Outcome State Fault Refusal :=
  .next (s.bypassFadeInEnd program)

end Sys2Proof.Machine
end

