-- ==== Sys2Proof/Machine/ExecLanes.lean ====
section
/-! DEFINITION. The meanings of the commands of the Lane Units (chapter 2): one definition per command. -/

namespace Sys2Proof.Machine

/-- LANE_FRAME_START (R22, R23, R36: a lane frame arrives). -/
def execLaneFrameStart (lane : Fin 4) (slots : List Sample) (status marker : Bool) (s : State) :
    Host.Outcome State Fault Refusal :=
  .next (s.laneFrame lane slots status marker)

/-- LANE_CLOCK_LOST (R22, R29: 48 house samples without a lane frame start). -/
def execLaneClockLost (lane : Fin 4) (s : State) : Host.Outcome State Fault Refusal :=
  .next (s.clockLost lane)

/-- CLASSIFICATION_WINDOW_END (R26, R27: a classification window ends). -/
def execClassificationWindowEnd (lane : Fin 4) (s : State) : Host.Outcome State Fault Refusal :=
  .next (s.windowEnd lane)

/-- CONTROL_INSTANT (R37, R40, R41: a control instant). -/
def execControlInstant (lane : Fin 4) (s : State) : Host.Outcome State Fault Refusal :=
  .next (s.controlInstant lane)

/-- LOCK_CRITERION_MET (R30, R32: the lock run count has reached 500). -/
def execLockCriterionMet (lane : Fin 4) (s : State) : Host.Outcome State Fault Refusal :=
  .next (s.lockMet lane)

/-- PIN_RUN_LIMIT (R34: the pin run count has reached 100). -/
def execPinRunLimit (lane : Fin 4) (s : State) : Host.Outcome State Fault Refusal :=
  .next (s.pinLimit lane)

/-- LOCK_FADE_IN_END (R32: the entry fade ends). -/
def execLockFadeInEnd (lane : Fin 4) (s : State) : Host.Outcome State Fault Refusal :=
  .next (s.entryFadeEnd lane)

/-- SLIP_STEP (R39, R45: the step of a slip). -/
def execSlipStep (lane : Fin 4) (s : State) : Host.Outcome State Fault Refusal :=
  .next (s.slipStep lane)

/-- SLIP_FADE_IN_END (R39: a slip's fade-in ends). -/
def execSlipFadeInEnd (lane : Fin 4) (s : State) : Host.Outcome State Fault Refusal :=
  .next (s.slipEnd lane)

/-- HOLDOVER_EXPIRY (R33: the holdover time runs out). -/
def execHoldoverExpiry (lane : Fin 4) (s : State) : Host.Outcome State Fault Refusal :=
  .next (s.holdoverExpiry lane)

/-- RETURN_WINDOW_END (R33: a return window ends). -/
def execReturnWindowEnd (lane : Fin 4) (s : State) : Host.Outcome State Fault Refusal :=
  .next (s.returnEnd lane)

/-- SET_LANE, a request (R46, R179, R180). -/
def execSetLane (tag lane enable admission holdCode : Byte) (s : State) : Host.Outcome State Fault Refusal :=
  .next (s.present tag (.setLane lane enable admission holdCode))

/-- LANE_ADMIT, a request (R31, R179, R180). -/
def execLaneAdmit (tag lane : Byte) (s : State) : Host.Outcome State Fault Refusal :=
  .next (s.present tag (.laneAdmit lane))

/-- LANE_RESTART, a request (R35, R179, R180). -/
def execLaneRestart (tag lane : Byte) (s : State) : Host.Outcome State Fault Refusal :=
  .next (s.present tag (.laneRestart lane))

/-- READ_LANE, a request (R47, R179, R180). -/
def execReadLane (tag lane : Byte) (s : State) : Host.Outcome State Fault Refusal :=
  .next (s.present tag (.readLane lane))

end Sys2Proof.Machine
end

