-- ==== Sys2Proof/Machine/ExecLink.lean ====
section
/-! DEFINITION. The meanings of the commands of the Link Port (chapter 10): one definition per command. -/

namespace Sys2Proof.Machine

/-- FRAME_RECEIVED (R178, R179: the last CRC byte of a frame arrives). -/
def execFrameReceived (last : Byte) (s : State) : Host.Outcome State Fault Refusal :=
  .next (s.frameReceived last)

/-- FRAME_LENGTH_ERROR (R178: a length byte out of range arrives). -/
def execFrameLengthError (length : Byte) (s : State) : Host.Outcome State Fault Refusal :=
  .next (s.frameLengthError length)

/-- GAP_TIMEOUT (R178: more than 240 house samples without a byte inside a frame). -/
def execGapTimeout (s : State) : Host.Outcome State Fault Refusal :=
  .next s.gapCheck

/-- UNKNOWN_KIND_REQUEST (R180: a frame whose kind names no request). -/
def execUnknownKindRequest (kind tag : Byte) (body : List Byte) (s : State) : Host.Outcome State Fault Refusal :=
  .next (s.presentUnknown kind tag body)

/-- TRANSMIT_FRAME_END (R179, R187: the transmitter ends a frame). -/
def execTransmitFrameEnd (s : State) : Host.Outcome State Fault Refusal :=
  .next s.transmitFrameEnd

/-- IDENTIFY, a request (R188, R179, R180). -/
def execIdentify (tag : Byte) (s : State) : Host.Outcome State Fault Refusal :=
  .next (s.present tag .identify)

/-- READ_STATUS, a request (R189, R179, R180). -/
def execReadStatus (tag : Byte) (s : State) : Host.Outcome State Fault Refusal :=
  .next (s.present tag .readStatus)

/-- RESTART, a request (R190, R179, R180). -/
def execRestart (tag : Byte) (s : State) : Host.Outcome State Fault Refusal :=
  .next (s.present tag .restart)

/-- LINK_BYTE_RECEIVED (R177: a byte whose stop bit has ended). -/
def execLinkByteReceived (value : Byte) (s : State) : Host.Outcome State Fault Refusal :=
  .next ((s.receiveByte value).takeFrame)

end Sys2Proof.Machine
end

