-- ==== Sys2Proof/Machine/ExecLoudness.lean ====
section
/-! DEFINITION. The meanings of the commands of the Loudness Engine and the gain schedule (chapters 4 and 5): one definition per command. -/

namespace Sys2Proof.Machine

/-- BLOCK_END (R76, R92, R98: a loudness block ends). -/
def execBlockEnd (s : State) : Host.Outcome State Fault Refusal :=
  .next s.blockEnd

/-- GAIN_ENTRY_DUE (R100: the output index reaches held entries). -/
def execGainEntryDue (program : Fin 16) (s : State) : Host.Outcome State Fault Refusal :=
  .next (s.gainEntryDue program)

/-- GAIN_RAMP_END (R143: the gain ramp becomes steady). -/
def execGainRampEnd (program : Fin 16) (s : State) : Host.Outcome State Fault Refusal :=
  .next (s.gainRampEnd program)

/-- RESET_INTEGRATION, a request (R82, R179, R180). -/
def execResetIntegration (tag program : Byte) (s : State) : Host.Outcome State Fault Refusal :=
  .next (s.present tag (.resetIntegration program))

/-- PAUSE_INTEGRATION, a request (R83, R179, R180). -/
def execPauseIntegration (tag program : Byte) (s : State) : Host.Outcome State Fault Refusal :=
  .next (s.present tag (.pauseIntegration program))

/-- RESUME_INTEGRATION, a request (R83, R179, R180). -/
def execResumeIntegration (tag program : Byte) (s : State) : Host.Outcome State Fault Refusal :=
  .next (s.present tag (.resumeIntegration program))

/-- READ_LOUDNESS, a request (R88, R179, R180). -/
def execReadLoudness (tag program ringFlag : Byte) (s : State) : Host.Outcome State Fault Refusal :=
  .next (s.present tag (.readLoudness program ringFlag))

/-- SET_LOUDNESS, a request (R91, R179, R180). -/
def execSetLoudness (tag program mode : Byte) (fields : LoudnessFields) (s : State) :
    Host.Outcome State Fault Refusal :=
  .next (s.present tag (.setLoudness program mode fields))

end Sys2Proof.Machine
end

