-- ==== Sys2Proof/Machine/ExecMemory.lean ====
section
/-! DEFINITION. The meanings of the commands of the Delay Memory Controller (chapter 6): one definition per command. -/

namespace Sys2Proof.Machine

/-- ZERO_FILL_PAGE_END (R53, R111: the zero-fill of a page ends). -/
def execZeroFillPageEnd (s : State) : Host.Outcome State Fault Refusal :=
  .next s.fillPage

/-- MEMORY_SIZING_END (R106, R191: memory sizing ends). -/
def execMemorySizingEnd (device : Device) (s : State) : Host.Outcome State Fault Refusal :=
  .next (s.endSizing device)

/-- CHECK_MEMORY, a request (R117, R179, R180). -/
def execCheckMemory (tag : Byte) (s : State) : Host.Outcome State Fault Refusal :=
  .next (s.present tag .checkMemory)

/-- PAGE_TEST_END (R118: a page's test ends). -/
def execPageTestEnd (s : State) : Host.Outcome State Fault Refusal :=
  .next s.endPageTest

/-- READ_POOL, a request (R120, R179, R180). -/
def execReadPool (tag : Byte) (first : BitVec 16) (s : State) : Host.Outcome State Fault Refusal :=
  .next (s.present tag (.readPool first))

end Sys2Proof.Machine
end

