-- ==== Sys2Proof/Machine/ExecOutput.lean ====
section
/-! DEFINITION. The meanings of the commands of the Output Stage (chapter 8): one definition per command. -/

namespace Sys2Proof.Machine

/-- MUTE_PROGRAM, a request (R144, R179, R180). -/
def execMuteProgram (tag program flag : Byte) (s : State) : Host.Outcome State Fault Refusal :=
  .next (s.present tag (.muteProgram program flag))

/-- MUTE_FADE_END (R144: the mute fade ends). -/
def execMuteFadeEnd (program : Fin 16) (s : State) : Host.Outcome State Fault Refusal :=
  .next (s.muteFadeEnd program)

/-- OVER_COUNT_REACHED (R147, R158: an over run has reached the over count). -/
def execOverCountReached (program : Fin 16) (channel : Fin 8) (s : State) : Host.Outcome State Fault Refusal :=
  .next (s.overEvent program channel)

/-- READ_OUTPUT, a request (R149, R179, R180). -/
def execReadOutput (tag program : Byte) (s : State) : Host.Outcome State Fault Refusal :=
  .next (s.present tag (.readOutput program))

end Sys2Proof.Machine
end

