-- ==== Sys2Proof/Machine/ExecPrograms.lean ====
section
/-! DEFINITION. The meanings of the commands of the Program Matrix (chapter 3): one definition per command. -/

namespace Sys2Proof.Machine

/-- DEFINE_PROGRAM, a request (R52, R179, R180). -/
def execDefineProgram (tag program : Byte) (maxDelay : BitVec 16) (channels : List ChannelDef) (s : State) :
    Host.Outcome State Fault Refusal :=
  .next (s.present tag (.defineProgram program maxDelay channels))

/-- START, a request (R55, R179, R180). -/
def execStart (tag program : Byte) (s : State) : Host.Outcome State Fault Refusal :=
  .next (s.present tag (.start program))

/-- STOP, a request (R56, R179, R180). -/
def execStop (tag program : Byte) (s : State) : Host.Outcome State Fault Refusal :=
  .next (s.present tag (.stop program))

/-- ON_AIR_FADE_END (R55, R56: the on-air fade ends). -/
def execOnAirFadeEnd (program : Fin 16) (s : State) : Host.Outcome State Fault Refusal :=
  .next (s.onAirEnd program)

/-- RELEASE, a request (R57, R179, R180). -/
def execRelease (tag program : Byte) (s : State) : Host.Outcome State Fault Refusal :=
  .next (s.present tag (.release program))

/-- SELECT_SOURCE, a request (R64, R179, R180). -/
def execSelectSource (tag program channel mode : Byte) (s : State) : Host.Outcome State Fault Refusal :=
  .next (s.present tag (.selectSource program channel mode))

/-- SET_CHANNEL_SOURCE, a request (R65, R179, R180). -/
def execSetChannelSource (tag program channel primary backup : Byte) (s : State) : Host.Outcome State Fault Refusal :=
  .next (s.present tag (.setChannelSource program channel primary backup))

/-- READ_PROGRAM, a request (R67, R179, R180). -/
def execReadProgram (tag program : Byte) (s : State) : Host.Outcome State Fault Refusal :=
  .next (s.present tag (.readProgram program))

/-- CHANGEOVER_SWITCH (R62, R123, R125: the switch of a changeover). -/
def execChangeoverSwitch (program : Fin 16) (channel : Fin 8) (s : State) : Host.Outcome State Fault Refusal :=
  .next (s.changeoverSwitch program channel)

/-- CHANGEOVER_END (R61, R62: a changeover's fade-in ends). -/
def execChangeoverEnd (program : Fin 16) (channel : Fin 8) (s : State) : Host.Outcome State Fault Refusal :=
  .next (s.changeoverEnd program channel)

end Sys2Proof.Machine
end

