-- ==== Sys2Proof/Machine/ExecTimebase.lean ====
section
/-! DEFINITION. The meanings of the commands of power-on, the house clock, the House Timebase and its schedule (chapter 1): one definition per command. -/

namespace Sys2Proof.Machine

/-- POWER_ON_RESET (R192: the link rate strap is read and every block takes its reset values). -/
def execPowerOnReset (highRate : Bool) (s : State) : Host.Outcome State Fault Refusal :=
  .next (s.powerOn highRate)

/-- HOUSE_SAMPLE_TICK (R1: one period of the house clock). -/
def execHouseSampleTick (pins : BitVec 4) (faults : List DramFault) (s : State) : Host.Outcome State Fault Refusal :=
  .next (s.tick pins faults)

/-- FRAME_BOUNDARY (R2, R12, R18: the frame in progress has run out its table length). -/
def execFrameBoundary (s : State) : Host.Outcome State Fault Refusal :=
  .next s.frameBoundary

/-- REFERENCE_PULSE (R3, R4, R5, R9, R10, R11: a pulse on a reference input). -/
def execReferencePulse (input : RefInput) (marked : Bool) (s : State) : Host.Outcome State Fault Refusal :=
  .next (s.referencePulse input marked)

/-- REALIGN_FRAME_TIMEOUT (R11: a frame with a realignment pending reaches 1.5 table lengths). -/
def execRealignFrameTimeout (s : State) : Host.Outcome State Fault Refusal :=
  .next s.realignTimeout

/-- REFERENCE_LOST (R3, R6: an input becomes ABSENT). -/
def execReferenceLost (input : RefInput) (s : State) : Host.Outcome State Fault Refusal :=
  .next (s.referenceLost input)

/-- REFERENCE_HOLD_EXPIRY (R6: the hold runs out). -/
def execReferenceHoldExpiry (s : State) : Host.Outcome State Fault Refusal :=
  .next s.holdExpiry

/-- REVERT_TIMER_EXPIRY (R7: the revert timer reaches 96,000 house samples). -/
def execRevertTimerExpiry (s : State) : Host.Outcome State Fault Refusal :=
  .next s.revertExpiry

/-- SET_TIMEBASE, a request (R13, R179, R180). -/
def execSetTimebase (tag rate preference revertive holdCode : Byte) (s : State) : Host.Outcome State Fault Refusal :=
  .next (s.present tag (.setTimebase rate preference revertive holdCode))

/-- READ_TIME, a request (R14, R179, R180). -/
def execReadTime (tag : Byte) (s : State) : Host.Outcome State Fault Refusal :=
  .next (s.present tag .readTime)

/-- SCHEDULE, a request (R17, R179, R180). -/
def execSchedule (tag : Byte) (due : FrameIndex) (kind : Byte) (inner : List Byte) (s : State) :
    Host.Outcome State Fault Refusal :=
  .next (s.present tag (.schedule due kind inner))

/-- READ_SCHEDULE, a request (R21, R179, R180). -/
def execReadSchedule (tag : Byte) (s : State) : Host.Outcome State Fault Refusal :=
  .next (s.present tag .readSchedule)

/-- CANCEL, a request (R184, R179, R180). -/
def execCancel (tag target : Byte) (s : State) : Host.Outcome State Fault Refusal :=
  .next (s.present tag (.cancel target))

end Sys2Proof.Machine
end

