-- ==== Sys2Proof/Machine/Dispatch.lean ====
section
/-! DEFINITION. The meaning of every command: one arm per constructor of `Instr`. -/

namespace Sys2Proof.Machine

def exec (i : Instr) (s : State) : Host.Outcome State Fault Refusal :=
  match i with
  | .powerOnReset highRate => Sys2Proof.Machine.execPowerOnReset highRate s
  | .houseSampleTick pins faults => Sys2Proof.Machine.execHouseSampleTick pins faults s
  | .frameBoundary => Sys2Proof.Machine.execFrameBoundary s
  | .referencePulse input marked => Sys2Proof.Machine.execReferencePulse input marked s
  | .realignFrameTimeout => Sys2Proof.Machine.execRealignFrameTimeout s
  | .referenceLost input => Sys2Proof.Machine.execReferenceLost input s
  | .referenceHoldExpiry => Sys2Proof.Machine.execReferenceHoldExpiry s
  | .revertTimerExpiry => Sys2Proof.Machine.execRevertTimerExpiry s
  | .setTimebase tag rate preference revertive holdCode => Sys2Proof.Machine.execSetTimebase tag rate preference revertive holdCode s
  | .readTime tag => Sys2Proof.Machine.execReadTime tag s
  | .schedule tag due kind inner => Sys2Proof.Machine.execSchedule tag due kind inner s
  | .readSchedule tag => Sys2Proof.Machine.execReadSchedule tag s
  | .cancel tag target => Sys2Proof.Machine.execCancel tag target s
  | .laneFrameStart lane slots status marker => Sys2Proof.Machine.execLaneFrameStart lane slots status marker s
  | .laneClockLost lane => Sys2Proof.Machine.execLaneClockLost lane s
  | .classificationWindowEnd lane => Sys2Proof.Machine.execClassificationWindowEnd lane s
  | .controlInstant lane => Sys2Proof.Machine.execControlInstant lane s
  | .lockCriterionMet lane => Sys2Proof.Machine.execLockCriterionMet lane s
  | .pinRunLimit lane => Sys2Proof.Machine.execPinRunLimit lane s
  | .lockFadeInEnd lane => Sys2Proof.Machine.execLockFadeInEnd lane s
  | .slipStep lane => Sys2Proof.Machine.execSlipStep lane s
  | .slipFadeInEnd lane => Sys2Proof.Machine.execSlipFadeInEnd lane s
  | .holdoverExpiry lane => Sys2Proof.Machine.execHoldoverExpiry lane s
  | .returnWindowEnd lane => Sys2Proof.Machine.execReturnWindowEnd lane s
  | .setLane tag lane enable admission holdCode => Sys2Proof.Machine.execSetLane tag lane enable admission holdCode s
  | .laneAdmit tag lane => Sys2Proof.Machine.execLaneAdmit tag lane s
  | .laneRestart tag lane => Sys2Proof.Machine.execLaneRestart tag lane s
  | .readLane tag lane => Sys2Proof.Machine.execReadLane tag lane s
  | .defineProgram tag program maxDelay channels => Sys2Proof.Machine.execDefineProgram tag program maxDelay channels s
  | .start tag program => Sys2Proof.Machine.execStart tag program s
  | .stop tag program => Sys2Proof.Machine.execStop tag program s
  | .onAirFadeEnd program => Sys2Proof.Machine.execOnAirFadeEnd program s
  | .release tag program => Sys2Proof.Machine.execRelease tag program s
  | .selectSource tag program channel mode => Sys2Proof.Machine.execSelectSource tag program channel mode s
  | .setChannelSource tag program channel primary backup => Sys2Proof.Machine.execSetChannelSource tag program channel primary backup s
  | .readProgram tag program => Sys2Proof.Machine.execReadProgram tag program s
  | .changeoverSwitch program channel => Sys2Proof.Machine.execChangeoverSwitch program channel s
  | .changeoverEnd program channel => Sys2Proof.Machine.execChangeoverEnd program channel s
  | .zeroFillPageEnd => Sys2Proof.Machine.execZeroFillPageEnd s
  | .memorySizingEnd device => Sys2Proof.Machine.execMemorySizingEnd device s
  | .checkMemory tag => Sys2Proof.Machine.execCheckMemory tag s
  | .pageTestEnd => Sys2Proof.Machine.execPageTestEnd s
  | .readPool tag first => Sys2Proof.Machine.execReadPool tag first s
  | .blockEnd => Sys2Proof.Machine.execBlockEnd s
  | .gainEntryDue program => Sys2Proof.Machine.execGainEntryDue program s
  | .gainRampEnd program => Sys2Proof.Machine.execGainRampEnd program s
  | .resetIntegration tag program => Sys2Proof.Machine.execResetIntegration tag program s
  | .pauseIntegration tag program => Sys2Proof.Machine.execPauseIntegration tag program s
  | .resumeIntegration tag program => Sys2Proof.Machine.execResumeIntegration tag program s
  | .readLoudness tag program ringFlag => Sys2Proof.Machine.execReadLoudness tag program ringFlag s
  | .setLoudness tag program mode fields => Sys2Proof.Machine.execSetLoudness tag program mode fields s
  | .setDelay tag program fields => Sys2Proof.Machine.execSetDelay tag program fields s
  | .trimStep program channel => Sys2Proof.Machine.execTrimStep program channel s
  | .trimStepEnd program channel => Sys2Proof.Machine.execTrimStepEnd program channel s
  | .cutJump program => Sys2Proof.Machine.execCutJump program s
  | .cutInEnd program => Sys2Proof.Machine.execCutInEnd program s
  | .slewArrival program => Sys2Proof.Machine.execSlewArrival program s
  | .bypassSwitch program => Sys2Proof.Machine.execBypassSwitch program s
  | .readDelay tag program => Sys2Proof.Machine.execReadDelay tag program s
  | .muteProgram tag program flag => Sys2Proof.Machine.execMuteProgram tag program flag s
  | .muteFadeEnd program => Sys2Proof.Machine.execMuteFadeEnd program s
  | .overCountReached program channel => Sys2Proof.Machine.execOverCountReached program channel s
  | .readOutput tag program => Sys2Proof.Machine.execReadOutput tag program s
  | .alarmBoundary => Sys2Proof.Machine.execAlarmBoundary s
  | .eventPointRest point => Sys2Proof.Machine.execEventPointRest point s
  | .filterRise point => Sys2Proof.Machine.execFilterRise point s
  | .filterFall point => Sys2Proof.Machine.execFilterFall point s
  | .retryExpiry point => Sys2Proof.Machine.execRetryExpiry point s
  | .setAlarmKind tag kind fields => Sys2Proof.Machine.execSetAlarmKind tag kind fields s
  | .ackAlarm tag point => Sys2Proof.Machine.execAckAlarm tag point s
  | .clearProtection tag point => Sys2Proof.Machine.execClearProtection tag point s
  | .setSummaryOutput tag output fields => Sys2Proof.Machine.execSetSummaryOutput tag output fields s
  | .setContact tag input fields => Sys2Proof.Machine.execSetContact tag input fields s
  | .readAlarm tag point => Sys2Proof.Machine.execReadAlarm tag point s
  | .readAlarmList tag first maximum => Sys2Proof.Machine.execReadAlarmList tag first maximum s
  | .readContacts tag => Sys2Proof.Machine.execReadContacts tag s
  | .frameReceived last => Sys2Proof.Machine.execFrameReceived last s
  | .frameLengthError length => Sys2Proof.Machine.execFrameLengthError length s
  | .gapTimeout => Sys2Proof.Machine.execGapTimeout s
  | .unknownKindRequest kind tag body => Sys2Proof.Machine.execUnknownKindRequest kind tag body s
  | .transmitFrameEnd => Sys2Proof.Machine.execTransmitFrameEnd s
  | .identify tag => Sys2Proof.Machine.execIdentify tag s
  | .readStatus tag => Sys2Proof.Machine.execReadStatus tag s
  | .restart tag => Sys2Proof.Machine.execRestart tag s
  | .linkByteReceived value => Sys2Proof.Machine.execLinkByteReceived value s
  | .bypassFadeInEnd program => Sys2Proof.Machine.execBypassFadeInEnd program s

end Sys2Proof.Machine
end

