-- ==== Sys2Proof/Safety.lean ====
section
/-! DEFINITION. What a safe command is, and the terms in which claims about the machine are made: the link free to
take a request, a reply placed, what one command leaves unchanged, and the invariants of the state. Every row of the
table has an effect in every state, so every command is safe in every state. -/

namespace Sys2Proof

/-- Every field of a channel entry is in its list (R51, R193, R194). -/
structure ChannelDef.InLists (k : ChannelDef) : Prop where
  role : k.role.toNat < 9
  primary : k.primary.toNat < 64
  backup : k.backup = 0xFF ∨ k.backup.toNat < 64
  mode : k.mode.toNat < 3
  egress : k.egress.toNat < 64

end Sys2Proof

namespace Sys2Proof.Machine

/-! ## Outcomes -/

/-- Whether an outcome is a next state. -/
def answersNext : Host.Outcome State Fault Refusal → Bool
  | .next _ => true
  | .fault _ => false
  | .refused _ => false

/-- A state from which `n` steps meet neither a fault nor a refusal. -/
def safeFor : Nat → State → Prop
  | 0, _ => True
  | n + 1, s => ∃ t, step s = .next t ∧ safeFor n t

/-! ## The link and its requests -/

/-- Memory sizing has ended, no frame waits in the receive buffer and the reply place is empty: an untagged request
that arrives now is taken at once and judged in full (R179, R191). -/
structure State.LinkFree (s : State) : Prop where
  sizingEnded : s.link.sizingEnded = true
  buffer : s.link.buffer = []
  reply : s.link.reply = none

/-- A tag may be given to new work: it is 0, or it is held by nothing, the operation table has a place and the
completion reserve does not hold the request back (R181 to R183). -/
def State.tagFree (s : State) (tag : Byte) : Prop :=
  tag = 0 ∨ (s.tagHeld tag = false ∧ s.link.ops.length < 8 ∧ s.outstanding < 40)

/-- A state with a reply put in the reply place. -/
def State.replied (kind tag : Byte) (result : Result) (report : List Byte) (s : State) : State :=
  { s with link := { s.link with reply := some ⟨kind, tag, result, report⟩ } }

/-- The tag and the request of a command that is a request of the control link. -/
def requestOf : Instr → Option (Byte × Request)
  | .setTimebase tag a b c d => some (tag, .setTimebase a b c d)
  | .readTime tag => some (tag, .readTime)
  | .schedule tag due kind inner => some (tag, .schedule due kind inner)
  | .readSchedule tag => some (tag, .readSchedule)
  | .cancel tag target => some (tag, .cancel target)
  | .setLane tag l e a h => some (tag, .setLane l e a h)
  | .laneAdmit tag l => some (tag, .laneAdmit l)
  | .laneRestart tag l => some (tag, .laneRestart l)
  | .readLane tag l => some (tag, .readLane l)
  | .defineProgram tag p d chs => some (tag, .defineProgram p d chs)
  | .start tag p => some (tag, .start p)
  | .stop tag p => some (tag, .stop p)
  | .release tag p => some (tag, .release p)
  | .selectSource tag p c m => some (tag, .selectSource p c m)
  | .setChannelSource tag p c a b => some (tag, .setChannelSource p c a b)
  | .readProgram tag p => some (tag, .readProgram p)
  | .checkMemory tag => some (tag, .checkMemory)
  | .readPool tag n => some (tag, .readPool n)
  | .resetIntegration tag p => some (tag, .resetIntegration p)
  | .pauseIntegration tag p => some (tag, .pauseIntegration p)
  | .resumeIntegration tag p => some (tag, .resumeIntegration p)
  | .readLoudness tag p f => some (tag, .readLoudness p f)
  | .setLoudness tag p m f => some (tag, .setLoudness p m f)
  | .setDelay tag p f => some (tag, .setDelay p f)
  | .readDelay tag p => some (tag, .readDelay p)
  | .muteProgram tag p f => some (tag, .muteProgram p f)
  | .readOutput tag p => some (tag, .readOutput p)
  | .setAlarmKind tag k f => some (tag, .setAlarmKind k f)
  | .ackAlarm tag p => some (tag, .ackAlarm p)
  | .clearProtection tag p => some (tag, .clearProtection p)
  | .setSummaryOutput tag o f => some (tag, .setSummaryOutput o f)
  | .setContact tag i f => some (tag, .setContact i f)
  | .readAlarm tag p => some (tag, .readAlarm p)
  | .readAlarmList tag a n => some (tag, .readAlarmList a n)
  | .readContacts tag => some (tag, .readContacts)
  | .identify tag => some (tag, .identify)
  | .readStatus tag => some (tag, .readStatus)
  | .restart tag => some (tag, .restart)
  | .powerOnReset _ | .houseSampleTick _ _ | .frameBoundary | .referencePulse _ _ | .realignFrameTimeout
  | .referenceLost _ | .referenceHoldExpiry | .revertTimerExpiry | .laneFrameStart _ _ _ _ | .laneClockLost _
  | .classificationWindowEnd _ | .controlInstant _ | .lockCriterionMet _ | .pinRunLimit _ | .lockFadeInEnd _
  | .slipStep _ | .slipFadeInEnd _ | .holdoverExpiry _ | .returnWindowEnd _ | .onAirFadeEnd _
  | .changeoverSwitch _ _ | .changeoverEnd _ _ | .zeroFillPageEnd | .memorySizingEnd _ | .pageTestEnd | .blockEnd
  | .gainEntryDue _ | .gainRampEnd _ | .trimStep _ _ | .trimStepEnd _ _ | .cutJump _ | .cutInEnd _ | .slewArrival _
  | .bypassSwitch _ | .bypassFadeInEnd _ | .muteFadeEnd _ | .overCountReached _ _ | .alarmBoundary
  | .eventPointRest _ | .filterRise _ | .filterFall _ | .retryExpiry _ | .frameReceived _ | .frameLengthError _
  | .gapTimeout | .unknownKindRequest _ _ _ | .transmitFrameEnd | .linkByteReceived _ => none

/-- The program byte of a request that names a program (R50). -/
def programNamed : Request → Option Byte
  | .defineProgram p _ _ | .start p | .stop p | .release p | .selectSource p _ _ | .setChannelSource p _ _ _
  | .readProgram p | .setLoudness p _ _ | .resetIntegration p | .pauseIntegration p | .resumeIntegration p
  | .readLoudness p _ | .setDelay p _ | .readDelay p | .muteProgram p _ | .readOutput p => some p
  | .identify | .readStatus | .restart | .cancel _ | .schedule _ _ _ | .readSchedule | .setTimebase _ _ _ _ | .readTime
  | .setLane _ _ _ _ | .laneAdmit _ | .laneRestart _ | .readLane _ | .checkMemory | .readPool _ | .setAlarmKind _ _
  | .ackAlarm _ | .clearProtection _ | .readAlarm _ | .readAlarmList _ _ | .setSummaryOutput _ _ | .setContact _ _
  | .readContacts => none

/-! ## Tagged work -/

/-- An operation-table entry stands for work that is open under its tag: the definition of a program in PREPARING, the
delay operation of a program, or the memory check (R182). -/
def State.OpStands (s : State) (e : OpEntry) : Prop :=
  match e.concern with
  | .definition p => ∃ x, s.program p = some x ∧ x.openDef = some e.tag ∧ x.align.op = none
  | .delay p => ∃ x, s.program p = some x ∧ x.openDef = none ∧ x.align.op.map DelayOp.tag = some e.tag
  | .check => ∃ c, s.pool.check = some c ∧ c.tag = e.tag

/-- D_cur as a CANCEL finds it, in 1/65,536 sample: at the house sample of a slew's arrival the delay has arrived (R130,
R136). -/
def Align.found (a : Align) : Nat :=
  if a.motion = .slewing ∧ a.arriving = true then
    (if a.distance < slewStep a.slewRate then a.target * 65536
     else if a.cur < a.target * 65536 then a.cur + slewStep a.slewRate else a.cur - slewStep a.slewRate)
  else a.cur

/-- A fade one house sample on, out of a top level (R32, R39, R62, R124, R129, R144). -/
def Fade.moved (top : Nat) (f : Fade) : Fade :=
  ⟨(match f.dir with
    | .steady => f.level
    | .falling => f.level - 1
    | .rising => min top (f.level + 1)), f.dir, f.level⟩

/-- The ramp multiplier of a program in the house sample in progress (R143), written out from its ramp. -/
def OutStage.rampNow (o : OutStage) : Nat :=
  if o.rampStep = 0 then o.rampTarget
  else ((o.rampStart : Int) + (2 * (((o.rampTarget : Int) - o.rampStart) * (min o.rampStep 480 : Nat)) + 480) / 960).toNat

/-- The gain schedule of a program whose current line delay has become `d` samples (R97, R101, R102): the held entries
that the moved output index has reached leave, the last of them applied; with the line delay it had, nothing changes. -/
def Program.ScheduleMoved (now : Time) (x : Program) (d : Nat) (y : Program) : Prop :=
  (d = x.lineDelay → y.out = x.out)
  ∧ (d ≠ x.lineDelay → ∀ done held : List GainEntry, x.out.schedule = done ++ held →
      (∀ e ∈ done, ((now - BitVec.ofNat 48 d) - e.due).msb = false) →
      (∀ e, held.head? = some e → ((now - BitVec.ofNat 48 d) - e.due).msb = true) →
      y.out.schedule = held ∧ y.out.applied = ((done.getLast?).map GainEntry.value).getD x.out.applied
      ∧ y.out.pad = x.out.pad ∧ y.out.muted = x.out.muted ∧ y.out.muteFade = x.out.muteFade)

/-- The details of a delay operation's completion (R196) with the line delay at a D_cur. -/
def delayReport (p : Fin 16) (o : DelayOp) (cur target : Nat) : List Byte :=
  bigEndian 1 p.val ++ bigEndian 4 o.value ++ bigEndian 1 (if o.held then 1 else 0) ++ bigEndian 4 (cur / 65536)
    ++ bigEndian 2 (cur % 65536) ++ bigEndian 4 ((((cur : Int) - target * 65536).natAbs + 65535) / 65536)

/-- The DRAM where the fills of some programs are abandoned (R111): the page at the head of the fill queue, where it is
one of theirs, is left part-written, a number of its groups holding silence that the rule does not give (log entry 48)
and none in the house sample at which its fill began; every other byte is as it was. -/
def State.FillAbandoned (ends : Fin 16 → Prop) (s t : State) : Prop :=
  match s.pool.fill with
  | [] => t.dram = s.dram
  | e :: _ =>
    (¬ends e.program → t.dram = s.dram)
    ∧ (ends e.program → ∃ n, n ≤ 600 ∧ (s.pool.fillSince = s.counter → n = 0)
      ∧ (∀ group, group < n → readGroup t.dram [] e.page group = List.replicate 8 0
          ∧ groupChecks t.dram [] e.page group = true)
      ∧ ∀ a, (a < e.page * 15000 ∨ e.page * 15000 + 25 * n ≤ a) → Dram.read t.dram a = Dram.read s.dram a)

/-- The completion of an operation that CANCEL ends (R54, R119, R136, R196), with its details as the state has them. -/
def State.cancelled (s : State) (e : OpEntry) : Completion :=
  ⟨e.tag, e.concern.kind, .cancelled, none,
    match e.concern with
    | .definition p =>
      (match s.program p with
       | some x => bigEndian 1 p.val ++ bigEndian 2 x.maxDelay ++ bigEndian 1 x.rows ++ bigEndian 2 x.ring.length
       | none => [])
    | .delay p =>
      (match (s.program p).bind fun x => x.align.op.map fun o => (x.align, o) with
       | some (a, o) => delayReport p o a.found a.target
       | none => [])
    | .check =>
      (match s.pool.check with
       | some c => bigEndian 2 c.quota ++ bigEndian 2 c.tested ++ bigEndian 2 c.retired
       | none => [])⟩

/-- A program whose D_target becomes `target`, a change taken in a mode (R128, R132, R133, R136, 7.5): with the target it
had, or under bypass, nothing moves; off air it is a jump; on air, AUTO chosen by the distance, a cut or a slew begins in
STEADY and SLEWING, the jump of a cut takes the target in CUT_OUT, and the mode waits in CUT_IN. The `x` is the program
as the change finds it. -/
def Program.TargetMoved (mode : ChangeMode) (target : Nat) (x y : Program) : Prop :=
  let a := x.align
  let b := y.align
  let distance := ((a.cur : Int) - target * 65536).natAbs
  let taken : ChangeMode := if mode = .auto then (if distance ≤ a.autoLimit * 65536 then .slew else .cut) else mode
  b.target = target ∧ b.bypass = a.bypass ∧ b.applied = a.applied
  ∧ ((target = a.target ∨ a.bypass ≠ .none) → b.cur = a.cur ∧ b.motion = a.motion ∧ b.fade = a.fade
      ∧ b.pending = a.pending ∧ y.channels.map Channel.readBuf = x.channels.map Channel.readBuf)
  ∧ (target ≠ a.target → a.bypass = .none → x.state ≠ .running → b.cur = target * 65536 ∧ b.motion = .steady
      ∧ b.pending = none ∧ b.fade = ⟨480, .steady, 480⟩ ∧ ∀ ch ∈ y.channels, ch.readBuf = [])
  ∧ (target ≠ a.target → a.bypass = .none → x.state = .running →
      b.cur = a.cur ∧ y.channels.map Channel.readBuf = x.channels.map Channel.readBuf
      ∧ (a.motion = .steady → distance = 0 → b.motion = .steady ∧ b.fade = a.fade ∧ b.pending = a.pending)
      ∧ ((a.motion = .slewing ∨ (a.motion = .steady ∧ distance ≠ 0)) → b.pending = a.pending
          ∧ (taken = .cut → b.motion = .cutOut ∧ b.fade = ⟨a.fade.prev - 1, .falling, a.fade.prev⟩)
          ∧ (taken = .slew → b.motion = .slewing ∧ b.fade = a.fade))
      ∧ (a.motion = .cutOut → b.motion = .cutOut ∧ b.fade = a.fade ∧ b.pending = a.pending)
      ∧ (a.motion = .cutIn → b.motion = .cutIn ∧ b.fade = a.fade ∧ b.pending = some mode))

/-- A program whose P_prog is worked out again (R123, R133): V stands, D_target follows, the change of it is taken in the
retrim mode, the gain schedule follows the line delay, and an open delay operation stays open unless it is settled. -/
def Program.Retrimmed (now : Time) (lanes : Vector Lane 4) (x y : Program) : Prop :=
  y.align.pathLat = pathLatency lanes y.channels ∧ y.align.value = x.align.value ∧ y.align.retrim = x.align.retrim
  ∧ y.align.slewRate = x.align.slewRate ∧ y.align.autoLimit = x.align.autoLimit
  ∧ x.TargetMoved x.align.retrim (min ((x.rows - 1) * 4800) (x.align.value - y.align.pathLat)) y
  ∧ x.ScheduleMoved now y.lineDelay y
  ∧ y.align.op = (if y.align.settled then none else x.align.op)
  ∧ y = { x with channels := y.channels, align := y.align, out := y.out }

/-- A lane's entry to or exit from LOCKED, or a change of the in-use latency of a LOCKED lane, retrims the programs that
read it (R42, R123, R133); nothing else of a lane reaches a program. -/
def State.LaneFollowed (l : Fin 4) (s t : State) : Prop :=
  let moved := ¬((s.lane l).state = .locked ↔ (t.lane l).state = .locked)
    ∨ ((t.lane l).state = .locked ∧ (t.lane l).inUse ≠ (s.lane l).inUse)
  ∀ p x, s.program p = some x →
    (¬moved → t.program p = some x)
    ∧ (moved → x.usesLane l = true → ∃ y, t.program p = some y ∧ x.Retrimmed s.counter t.lanes y)

/-- A program with a safety pad, its total output gain worked out again and a changed total begun as a ramp (R141, R143,
R146). -/
def Program.withPad (pad : Int) (x : Program) : Program :=
  let sum := x.out.applied + x.corr.settings.manualTrim + pad
  let total := max (-600) (min 200 sum)
  { x with out :=
    { x.out with
      pad := pad, total := total, gainHeld := decide (sum < -600 ∨ 200 < sum)
      rampStart := if total = x.out.total then x.out.rampStart else x.out.multUsed
      rampTarget := if total = x.out.total then x.out.rampTarget else gainNumber 20 total
      rampStep := if total = x.out.total then x.out.rampStep else 1 } }

/-! ## What one command leaves unchanged -/

/-- The state outside the programs, the Alarm Unit and the Link Port is unchanged. -/
structure KeepsOutside (s t : State) : Prop where
  pending : t.pending = s.pending
  counter : t.counter = s.counter
  tb : t.tb = s.tb
  lanes : t.lanes = s.lanes
  claims : t.claims = s.claims
  pool : t.pool = s.pool
  dram : t.dram = s.dram
  stuck : t.stuck = s.stuck
  egress : t.egress = s.egress

/-- The Alarm Unit outside the points and the notice queue is unchanged. -/
structure KeepsSettings (a b : AlarmUnit) : Prop where
  kinds : b.kinds = a.kinds
  summaries : b.summaries = a.summaries
  contacts : b.contacts = a.contacts
  pins : b.pins = a.pins
  silenceLevel : b.silenceLevel = a.silenceLevel
  boundaryTaken : b.boundaryTaken = a.boundaryTaken

/-- The Link Port outside the operation table and the completion queue is unchanged. -/
structure KeepsLink (a b : LinkPort) : Prop where
  eq : b = { a with ops := b.ops, completions := b.completions }

/-- Whether a point is one of a program's six. -/
def pointOfProgram (p : Fin 16) (pt : Fin 118) : Bool := (programPoints p).contains pt

/-- Whether a point is one of a lane's four. -/
def pointOfLane (l : Fin 4) (pt : Fin 118) : Bool := [lanePoint 0 l, lanePoint 1 l, lanePoint 2 l, lanePoint 3 l].contains pt

/-- What an operation on one program leaves unchanged: everything outside the programs, every other program, every
setting of the Alarm Unit and every point that is not the program's, and the Link Port but for its operation table
and its completion queue. -/
structure OnlyProgram (p : Fin 16) (s t : State) : Prop where
  outside : KeepsOutside s t
  others : ∀ q, q ≠ p → t.program q = s.program q
  settings : KeepsSettings s.alarm t.alarm
  points : ∀ pt, pointOfProgram p pt = false → t.alarm.point pt = s.alarm.point pt
  link : KeepsLink s.link t.link

/-- What an operation on the timebase leaves unchanged: everything but the timebase and the REF_LOSS point. -/
structure OnlyTimebase (s t : State) : Prop where
  eq : t = { s with tb := t.tb, alarm := t.alarm }
  settings : KeepsSettings s.alarm t.alarm
  points : ∀ pt, pt ≠ refLossPoint → t.alarm.point pt = s.alarm.point pt

/-- R11: an input has had a valid pulse at this house sample, and the sample lies at half the frame's table length or
later. -/
def State.PulsedLate (i : RefInput) (s : State) : Prop :=
  (s.tb.ref i).lastValid = some s.counter ∧ s.tb.frameLen ≤ 2 * since s.counter s.tb.frameStart

/-- R7: the revert timer after an input has been selected: it starts where revertive is on, the input is the
non-preferred one and the preferred one is PRESENT, and stands dropped otherwise. -/
def State.revertAfter (i : RefInput) (s : State) : Option Time :=
  if s.tb.revertive = true ∧ i ≠ s.tb.preference ∧ (s.tb.ref s.tb.preference).present = true then some s.counter else none

/-- R11, R12: an input has been selected in a state and its pulse has begun the next frame: the realignment is complete,
unless a new frame rate took effect. -/
def State.RealignedOn (t : State) (i : RefInput) (s : State) : Prop :=
  t.tb.selection = selectionOf i ∧ t.tb.holdSince = none ∧ t.tb.revertSince = s.revertAfter i
  ∧ t.tb.frameIndex = s.tb.frameIndex + 1 ∧ t.tb.frameStart = s.counter ∧ t.tb.realign = s.tb.pendingRate.isSome
  ∧ t.tb.rate = s.tb.pendingRate.getD s.tb.rate ∧ t.tb.frameLen = t.tb.rate.length t.tb.cadence
  ∧ (s.tb.pendingRate = none → t.tb.cadence =
      if s.tb.rate.fractional ∧ (s.tb.ref i).markerSeen then (s.tb.ref i).cadenceCount else 0)
  ∧ (s.tb.pendingRate.isSome → t.tb.cadence = 0)
  ∧ t.counter = s.counter ∧ t.lanes = s.lanes ∧ t.claims = s.claims ∧ t.pool = s.pool ∧ t.dram = s.dram

/-- What an operation on the Alarm Unit's points leaves unchanged: everything else, the Alarm Unit's settings
included. -/
structure OnlyPoints (s t : State) : Prop where
  eq : t = { s with alarm := t.alarm }
  settings : KeepsSettings s.alarm t.alarm

/-- What an operation on one lane leaves unchanged: the timebase, the delay memory, the claims, the egress lanes, every
other lane, every program that reads no channel from the lane, every setting of the Alarm Unit and every point of
another lane, of the reference and of the link, and the Link Port but for its operation table and its completion
queue. -/
structure OnlyLane (l : Fin 4) (s t : State) : Prop where
  pending : t.pending = s.pending
  counter : t.counter = s.counter
  tb : t.tb = s.tb
  claims : t.claims = s.claims
  pool : t.pool = s.pool
  dram : t.dram = s.dram
  stuck : t.stuck = s.stuck
  egress : t.egress = s.egress
  others : ∀ k, k ≠ l → t.lane k = s.lane k
  programs : ∀ p, (∀ x, s.program p = some x → x.usesLane l = false) → t.program p = s.program p
  settings : KeepsSettings s.alarm t.alarm
  points : ∀ pt, pointOfLane l pt = false → (∀ p, pointOfProgram p pt = false) → t.alarm.point pt = s.alarm.point pt
  link : KeepsLink s.link t.link

/-! ## Invariants -/

/-- What the blocks of a program hold has been handed on: the four state points of the program show its conditions, and
an open delay operation is not yet settled (R87, R95, R96, R127, R134, R157). -/
def State.ProgramShown (s : State) (p : Fin 16) : Prop :=
  match s.program p with
  | none => ∀ k : Fin 6, k ∈ [(0 : Fin 6), 2, 3, 4] → (s.alarm.point (progPoint k p)).raw = false
  | some x =>
    (s.alarm.point (progPoint 0 p)).raw = decide (1 ≤ x.loud.silentRun)
      ∧ (s.alarm.point (progPoint 2 p)).raw = x.corr.loud
      ∧ (s.alarm.point (progPoint 3 p)).raw = x.corr.gainLimit
      ∧ (s.alarm.point (progPoint 4 p)).raw = x.delayShort
      ∧ (x.align.op.isSome = true → x.align.settled = false)

/-- The three state points of a lane show its conditions (R43, R44). -/
def State.LaneShown (s : State) (l : Fin 4) : Prop :=
  (s.alarm.point (lanePoint 0 l)).raw = (s.lane l).stall
    ∧ (s.alarm.point (lanePoint 1 l)).raw = (s.lane l).unlock
    ∧ (s.alarm.point (lanePoint 3 l)).raw = (s.lane l).rateWrong

/-- Every state point outside the contact inputs' shows the condition of its source. -/
structure State.Shown (s : State) : Prop where
  programs : ∀ p, s.ProgramShown p
  lanes : ∀ l, s.LaneShown l
  ref : (s.alarm.point refLossPoint).raw = s.tb.refLoss

/-- The pages a program's ring holds; none for a VACANT program (R109). -/
def State.ringPages (s : State) (p : Fin 16) : List Nat :=
  (((s.program p).map Program.ring).getD []).map PageEntry.page

/-- Every sized page is in one place: the free list, the test window, the retired list or one program's ring, once; and
nothing is sized before sizing has ended (R106, R108). -/
def State.PagesPlaced (s : State) : Prop :=
  (s.pool.free ++ s.pool.window ++ s.pool.retired ++ allPrograms.flatMap s.ringPages).Perm (List.range s.pool.sized)
    ∧ (s.link.sizingEnded = false → s.pool.sized = 0)

/-- The claim table names for each egress the one channel of a defined program that has it, and nothing else (R58). -/
def State.ClaimsMatch (s : State) : Prop :=
  ∀ (i : Fin 64) (p : Fin 16) (c : Nat),
    s.claims[i.val]'i.isLt = some ⟨p, c⟩ ↔
      ∃ x ch, s.program p = some x ∧ x.channels[c]? = some ch ∧ egressIndex ch.egress = i

/-- A lane's ratios lie within its loop class's catch range, its fill within the store and its in-use latency
within 1 to 255 (R36, R37, R41). -/
structure Lane.Bounded (l : Lane) : Prop where
  rho : l.loopClass.nominal - l.loopClass.catchRange ≤ l.rho ∧ l.rho ≤ l.loopClass.nominal + l.loopClass.catchRange
  rhoInt : l.loopClass.nominal - l.loopClass.catchRange ≤ l.rhoInt
    ∧ l.rhoInt ≤ l.loopClass.nominal + l.loopClass.catchRange
  fill : l.fill ≤ 65536
  store : l.store.length ≤ 256
  inUse : 1 ≤ l.inUse ∧ l.inUse ≤ 255

/-- A fade's level, now and in the house sample before, lies within its range. -/
structure Fade.Within (top : Nat) (f : Fade) : Prop where
  level : f.level ≤ top
  prev : f.prev ≤ top

/-- A channel is aligned under a P_prog: its liveness and its required trim follow the lane of its source in use, its
latency and its trim make up P_prog unless it is in a trim step, and a channel that is not live has no trim, is required
none, and is in no trim step (R123 to R125). -/
structure Channel.AlignedTo (lanes : Vector Lane 4) (pprog : Nat) (ch : Channel) : Prop where
  live : ch.live = ch.laneLocked lanes
  required : ch.live = true → ch.pathLat = ch.laneLatency lanes ∧ ch.pathLat + ch.required = pprog
  trim : ch.live = true → ch.trimFade.dir = .steady → ch.laneLatency lanes + ch.trim = pprog
  silent : ch.live = false → ch.trim = 0 ∧ ch.required = 0 ∧ ch.trimFade = ⟨480, .steady, 480⟩
  range : ch.trim ≤ 255
  fades : ch.trimFade.Within 480 ∧ ch.coFade.Within 480

/-- A program is aligned: P_prog is that of its lanes, D_target is V − P_prog held within the ring, D_cur lies within
it, every channel is aligned, and its fades lie within 0 to 480 (R49, R123, R127). -/
structure Program.AlignedTo (lanes : Vector Lane 4) (x : Program) : Prop where
  pathLat : x.align.pathLat = pathLatency lanes x.channels
  target : x.align.target = min x.longest (x.align.value - x.align.pathLat)
  current : x.align.cur ≤ x.longest * 65536
  channels : ∀ ch ∈ x.channels, ch.AlignedTo lanes x.align.pathLat
  fades : x.align.fade.Within 480 ∧ x.onAir.Within 480 ∧ x.out.muteFade.Within 480

/-- Every lane's in-use latency lies within 1 to 255 and every program is aligned to the lanes. -/
structure State.Aligned (s : State) : Prop where
  lanes : ∀ l, 1 ≤ (s.lane l).inUse ∧ (s.lane l).inUse ≤ 255
  programs : ∀ p x, s.program p = some x → x.AlignedTo s.lanes

/-- The frame in progress runs the length of R2's table for its cadence position, the position and the inputs' cadence
counts are among the five, at integer rates the position is 0 (R2, R4), and the revert timer runs exactly while
revertive is on, the non-preferred input is selected and the preferred one is PRESENT (R7). -/
structure Timebase.InOrder (t : Timebase) : Prop where
  cadence : t.cadence < 5
  counts : t.refA.cadenceCount < 5 ∧ t.refB.cadenceCount < 5
  integer : t.rate.fractional = false → t.cadence = 0
  length : t.frameLen = t.rate.length t.cadence
  revert : t.revertSince.isSome = true ↔
    t.revertive = true ∧ t.selection = selectionOf (otherInput t.preference) ∧ (t.ref t.preference).present = true

/-- Tagged work is in order: the schedule stands by due frame and every entry's frame is still to come; no tag is 0 or
held twice; the operation table stands in tag order; and the three tables keep their sizes (R16, R179, R181, R182). -/
structure State.WorkInOrder (s : State) : Prop where
  sorted : s.tb.schedule.Pairwise fun a b => a.due.toNat ≤ b.due.toNat
  ahead : ∀ e ∈ s.tb.schedule, s.tb.frameIndex.toNat < e.due.toNat
  tags : (s.link.ops.map OpEntry.tag ++ s.tb.schedule.map SchedEntry.tag).Nodup
  nonzero : (∀ e ∈ s.link.ops, e.tag ≠ 0) ∧ ∀ e ∈ s.tb.schedule, e.tag ≠ 0
  ops : s.link.ops.Pairwise fun a b => a.tag.toNat < b.tag.toNat
  sizes : s.tb.schedule.length ≤ 32 ∧ s.link.ops.length ≤ 8 ∧ s.link.buffer.length ≤ 4

/-- A program's integration histogram lists each occupied bin once, in rising order, within the 851 bins from −70.0 to
+15.0, with a count that is held (R79). -/
structure Loud.HistogramInOrder (l : Loud) : Prop where
  rising : l.hist.Pairwise fun a b => a.bin < b.bin
  bins : ∀ b ∈ l.hist, b.bin ≤ 850 ∧ 1 ≤ b.count ∧ b.count < 2 ^ 32

/-- Every program's integration histogram is in order. -/
def State.HistogramsInOrder (s : State) : Prop := ∀ p x, s.program p = some x → x.loud.HistogramInOrder

/-- Loudness settings each within its range of R90. -/
structure LoudSettings.InRange (c : LoudSettings) : Prop where
  target : -400 ≤ c.target ∧ c.target ≤ -50
  maxBoost : 0 ≤ c.maxBoost ∧ c.maxBoost ≤ 150
  maxAttenuation : 0 ≤ c.maxAttenuation ∧ c.maxAttenuation ≤ 300
  upSlew : 1 ≤ c.upSlew ∧ c.upSlew ≤ 50
  downSlew : 1 ≤ c.downSlew ∧ c.downSlew ≤ 100
  holdDepth : 50 ≤ c.holdDepth ∧ c.holdDepth ≤ 400
  window : 10 ≤ c.window ∧ c.window ≤ 200
  manualTrim : -200 ≤ c.manualTrim ∧ c.manualTrim ≤ 200
  lookAhead : c.lookAhead ≤ 48000

/-- Every program's loudness settings are within their ranges. -/
def State.LoudnessInRange (s : State) : Prop := ∀ p x, s.program p = some x → x.corr.settings.InRange

/-- A protection stands only where a protect mode and an action allow it, a kind in mode OFF shows nothing, and the
notice queue holds each point at most once, in its order (R156, R163, R167). -/
structure AlarmUnit.InOrder (a : AlarmUnit) : Prop where
  protection : ∀ pt, (a.point pt).applied = true → a.mayProtect pt = true
  off : ∀ pt, (a.settingsOf pt).mode = .off → (a.point pt).filtered = false ∧ (a.point pt).ann = .quiet
  once : (a.notices.map Notice.point).Nodup
  sorted : a.notices.Pairwise fun x y => noticeBefore a.priority x y = true

/-! ## The house sample -/

/-- The rows of the part's own steps that a house sample makes as it is closed, one after another (log entry 25). -/
def dueSteps : List Instr :=
  let references : List Instr := [.referenceLost .a, .referenceLost .b, .referenceHoldExpiry, .revertTimerExpiry]
  references ++ [.realignFrameTimeout, .frameBoundary] ++ references ++ [.gapTimeout]
    ++ (allLanes.flatMap fun l =>
      [.laneClockLost l, .controlInstant l, .pinRunLimit l, .lockCriterionMet l, .classificationWindowEnd l,
        .returnWindowEnd l, .holdoverExpiry l, .lockFadeInEnd l, .slipStep l, .slipFadeInEnd l])
    ++ [.blockEnd]
    ++ (allPrograms.flatMap fun p =>
      [.onAirFadeEnd p, .muteFadeEnd p]
        ++ (allChannels.flatMap fun c => [.changeoverSwitch p c, .changeoverEnd p c, .trimStep p c, .trimStepEnd p c])
        ++ [.cutJump p, .cutInEnd p, .slewArrival p, .bypassSwitch p, .bypassFadeInEnd p, .gainRampEnd p,
          .gainEntryDue p])
    ++ [.zeroFillPageEnd, .pageTestEnd, .alarmBoundary]

/-- The transmitter, idle or with its last frame ended (R187, R168, R196): it begins the reply, else the oldest
completion, else the head notice, which leaves the notice queue and is built from its point's record, under the status
summary of the moment (R186); with nothing waiting it is idle. -/
def State.begins (s : State) : State :=
  match s.link.reply, s.link.completions, s.alarm.notices with
  | some r, _, _ =>
    { s with link :=
      { s.link with
        reply := none
        sending := some (frameBytes 0x80 r.tag (r.kind :: r.result.code :: s.summaryByte :: r.report)) } }
  | none, c :: rest, _ =>
    { s with link :=
      { s.link with
        completions := rest
        sending := some (frameBytes 0x81 c.tag (c.kind :: c.result.code :: s.summaryByte ::
          (match c.due with
           | some f => 1 :: bigEndian 5 f.toNat
           | none => 0 :: c.details))) } }
  | none, [], n :: rest =>
    { s with
      alarm := { s.alarm with notices := rest }
      link := { s.link with
        sending := some (frameBytes 0x82 0
          (BitVec.ofNat 8 n.point.val :: (s.alarm.point n.point).stateByte ::
            (bigEndian 2 (s.alarm.point n.point).raiseCount ++ bigEndian 1 n.coalesced
              ++ timeBytes (s.alarm.point n.point).lastChange))) } }
  | none, [], [] => { s with link := { s.link with sending := none } }

/-- A state with these frames waiting in the receive buffer. -/
def State.withBuffer (buffer : List Frame) (s : State) : State := { s with link := { s.link with buffer := buffer } }

/-- Whether a frame carries a command: a request whose body suits its kind, or a frame of a kind that is no request
(R180). -/
def Frame.carries (f : Frame) (c : Instr) : Prop :=
  (∃ r, requestOf c = some (f.tag, r) ∧ requestFits r = true ∧ f = ⟨requestKind r, f.tag, requestBody r⟩)
    ∨ (c = .unknownKindRequest f.kind f.tag f.body ∧ isRequestKind f.kind = false)

/-- The completion reserve holds a frame back (R183). -/
def State.reserveHolds (s : State) (f : Frame) : Prop := takesTag f.kind = true ∧ f.tag ≠ 0 ∧ 40 ≤ s.outstanding

/-- What follows, at the same house sample, once the receiver has judged a frame (R179, R180, R191): the oldest frame
of the receive buffer is taken where the reply place is empty and the reserve does not hold it back. It then does what
its command does with nothing waiting before it, or, its body not suiting its kind, is answered BAD_LENGTH, or STARTING
before the end of sizing; the frames behind it wait on. Otherwise nothing follows. -/
def State.OldestTaken (s : State) (o : Host.Outcome State Fault Refusal) : Prop :=
  ((s.link.buffer = [] ∨ s.link.reply.isSome = true ∨ ∃ f rest, s.link.buffer = f :: rest ∧ s.reserveHolds f) →
    o = .next s)
  ∧ ∀ f rest, s.link.buffer = f :: rest → s.link.reply = none → ¬s.reserveHolds f →
    (∀ c : Instr, f.carries c → ∃ t, exec c (s.withBuffer []) = .next t ∧ o = .next (t.withBuffer rest))
    ∧ (isRequestKind f.kind = true → parseRequest f.kind f.body = none →
      o = .next (State.replied f.kind f.tag
        (if s.link.sizingEnded = false ∧ f.kind ≠ 0x01 ∧ f.kind ≠ 0x02 then .starting else .badLength) []
        (s.withBuffer rest)))

/-- A link with nothing in its way: sizing ended, the receive buffer and the reply place empty. -/
def LinkPort.cleared (k : LinkPort) : LinkPort := { k with sizingEnded := true, buffer := [], reply := none }

/-! ## Runs of commands -/

/-- A list of commands run one after another, stopping at the first that is not answered with a next state. -/
def execAll : List Instr → State → Host.Outcome State Fault Refusal
  | [], s => .next s
  | c :: rest, s =>
    match exec c s with
    | .next t => execAll rest t
    | .fault f => .fault f
    | .refused r => .refused r

end Sys2Proof.Machine
end

