-- ==== Sys2Proof/Certificates/Slice0/Obligations.lean ====
section
/-! DEFINITION. What is claimed of the machine, statement by statement, for the provers. The terms are those of
Safety.lean. -/

open Sys2Proof Sys2Proof.Machine

/-! ## The machine -/

/-- The queue is first in, first out: a step runs the command at its front on the state with the queue's rest. The
model's own edges (log entries 2 and 3): on an empty queue the block idles, and no word spells a command, so a fetch
word changes nothing. -/
def Obligations.StepTakesTheFrontCommandOrIdles : Prop :=
  (∀ (c : Instr) (rest : List Instr) (s : State), s.pending = c :: rest → step s = exec c { s with pending := rest })
  ∧ (∀ s : State, s.pending = [] → step s = .next s)
    ∧ ∀ (s : State) (nbits w : Nat), decodeTableWord nbits w = none ∧ s.withFetchWord nbits w = s

/-- Every command is answered with a next state; the house counter advances by one at a period of the house clock, is
set to 0 by power-on and pin reset, and is moved by nothing else (R1). Every command leaves the queue alone, which is
the model's own (log entry 3); that power-on and pin reset keep it too is log entry 29. -/
def Obligations.EveryCommandGoesOnAndOnlyTheClockMovesTheCounter : Prop :=
  ∀ (c : Instr) (s : State), ∃ t, exec c s = .next t ∧ t.pending = s.pending ∧ t.counter =
    (match c with
     | .houseSampleTick _ _ => s.counter + 1
     | .powerOnReset _ => 0
     | _ => s.counter)

/-! ## Invariants -/

/-- The state after reset meets every invariant stated below. -/
def Obligations.ResetMeetsTheInvariants : Prop :=
  State.reset.Shown ∧ State.reset.PagesPlaced ∧ State.reset.ClaimsMatch ∧ (∀ l, (State.reset.lane l).Bounded)
    ∧ State.reset.Aligned ∧ State.reset.tb.InOrder ∧ State.reset.WorkInOrder ∧ State.reset.HistogramsInOrder
    ∧ State.reset.alarm.InOrder ∧ Dram.wf State.reset.dram = true

/-- Every state point shows the condition of its source after every step: the lanes' three, the programs' four, the
reference's (R42, R157: "The source hands it every change to present or absent, at the house sample of the change"),
a VACANT program's are absent (R169), and an open delay operation is never settled (R134). -/
def Obligations.StepKeepsConditionsShown : Prop :=
  ∀ s t : State, s.Shown → step s = .next t → t.Shown

/-- Every sized page stays in one place, once: the free list, the test window, the retired list or one ring (R108). The
claim table stays the table of the defined programs' egresses: each slot is claimed by at most one channel of one
program that is not VACANT (R58). -/
def Obligations.StepKeepsPagesAndClaimsInPlace : Prop :=
  (∀ s t : State, s.PagesPlaced → step s = .next t → t.PagesPlaced)
  ∧ ∀ s t : State, s.ClaimsMatch → step s = .next t → t.ClaimsMatch

/-- Every lane's applied ratio and integrator stay within the catch range of its loop class, its fill and store within
256 lane frames, its in-use latency within 1 to 255 (R36, R37, R41). -/
def Obligations.StepKeepsLaneRatiosInTheCatchRange : Prop :=
  ∀ s t : State, (∀ l, (s.lane l).Bounded) → step s = .next t → ∀ l, (t.lane l).Bounded

/-- Every program stays aligned: for a channel whose lane is LOCKED and which is not in a trim step, in-use latency and
trim make up P_prog; a channel whose lane is not LOCKED has no trim, is required none and is in no trim step; D_target
is V − P_prog held within the ring; D_cur and the fades keep their ranges (R123 to R127). -/
def Obligations.StepKeepsProgramsAligned : Prop :=
  ∀ s t : State, s.Aligned → step s = .next t → t.Aligned

/-- The frame in progress keeps the length of R2's table for its cadence position, which is 0 at integer rates, and the
revert timer runs exactly while its condition holds (R7). No entry is passed over, no tag is held twice, at most 8
tagged operations, 32 entries and 4 frames are held, and the schedule and the operation table keep their orders (R16,
R18, R179, R181, R182). Every program's integration histogram keeps each bin once, in order, its count held (R79). -/
def Obligations.StepKeepsFramesWorkAndHistogramsInOrder : Prop :=
  (∀ s t : State, s.tb.InOrder → step s = .next t → t.tb.InOrder)
  ∧ (∀ s t : State, s.WorkInOrder → step s = .next t → t.WorkInOrder)
  ∧ ∀ s t : State, s.HistogramsInOrder → step s = .next t → t.HistogramsInOrder

/-- A protection stands only under a protect mode of a kind with an action (R163), a kind in OFF shows nothing (R156),
and the notice queue holds each point once, in order (R167). That two first-change times stand in order as plain
numbers, on either side of the house counter's wrap too, is the model's choice (log entry 44). -/
def Obligations.StepKeepsProtectionsAndNoticesInOrder : Prop :=
  ∀ s t : State, s.alarm.InOrder → step s = .next t → t.alarm.InOrder

/-- The list of the DRAM's bytes keeps its canonical form: addresses strictly rising, and no entry equal to what zero-
fill leaves there (log entry 19). -/
def Obligations.StepKeepsTheDramCanonical : Prop :=
  ∀ s t : State, Dram.wf s.dram = true → step s = .next t → Dram.wf t.dram = true

/-! ## The bytes of the link -/

/-- Every request that fits a frame is read back from its body under its kind: no field of R197 and R198 is lost, the
kind is a request's, and the body is at most the 248 bytes of R176. -/
def Obligations.RequestBodiesReadBack : Prop :=
  ∀ r : Request, requestFits r = true →
    parseRequest (requestKind r) (requestBody r) = some r ∧ isRequestKind (requestKind r) = true
      ∧ (requestBody r).length ≤ 248

/-- A frame of R176 sent byte by byte into a receiver in HUNT does exactly what the row of its request does: start byte,
length, kind, tag, body and the CRC-16 of R177 are taken, the frame is judged good, and the request is taken or waits
as the row says. The receiver ends in HUNT. A frame of a kind that is no request likewise. A frame of a request kind
whose body has the wrong length is refused with BAD_LENGTH, or with STARTING until sizing ends, and changes nothing but
the reply place (R180, R191, R194). -/
def Obligations.FramesReceivedByteByByteAreTheirCommands : Prop :=
  ∀ (s : State) (tag : Byte), s.link.receiver = .hunt → (s.link.buffer = [] ∨ s.link.reply.isSome = true) →
    (∀ (c : Instr) (r : Request), requestOf c = some (tag, r) → requestFits r = true →
      execAll ((frameBytes (requestKind r) tag (requestBody r)).map .linkByteReceived) s
        = exec c { s with link := { s.link with receiver := .hunt, lastByte := s.counter } })
    ∧ (∀ (kind : Byte) (body : List Byte), isRequestKind kind = false → body.length ≤ 248 →
      execAll ((frameBytes kind tag body).map .linkByteReceived) s
        = exec (.unknownKindRequest kind tag body)
            { s with link := { s.link with receiver := .hunt, lastByte := s.counter } })
    ∧ ∀ (kind : Byte) (body : List Byte), isRequestKind kind = true → body.length ≤ 248 →
      parseRequest kind body = none → s.link.buffer = [] → s.link.reply = none →
      (takesTag kind = true → tag ≠ 0 → s.outstanding < 40) →
      execAll ((frameBytes kind tag body).map .linkByteReceived) s
        = .next (State.replied kind tag
            (if s.link.sizingEnded = false ∧ kind ≠ 0x01 ∧ kind ≠ 0x02 then .starting else .badLength) []
            { s with link := { s.link with receiver := .hunt, lastByte := s.counter } })

/-! ## The control link -/

/-- IDENTIFY (R188): a frame of its kind with a body is no IDENTIFY; the request is answered OK whether or not sizing
has ended, the report gives the part code 7320, the revision, the link rate, the sizing flag and the three page
counts, which are 0 while sizing runs; and nothing changes but the reply place. -/
def Obligations.IdentifyReportsThePart : Prop :=
  (∀ body : List Byte, body ≠ [] → parseRequest 0x01 body = none)
    ∧ ∀ (s : State) (tag : Byte), s.link.buffer = [] → s.link.reply = none →
      exec (.identify tag) s = .next (s.replied 0x01 tag .ok
        ([0x1C, 0x98, Config.revision, if s.link.highRate then 1 else 0, if s.link.sizingEnded then 1 else 0]
          ++ (if s.link.sizingEnded then
                bigEndian 2 s.pool.sized ++ bigEndian 2 s.pool.free.length ++ bigEndian 2 s.pool.retired.length
              else [0, 0, 0, 0, 0, 0])))

/-- READ_STATUS (R189, with the body of R198): the four counters, the house counter, the operation table in its order
and the three numbers are reported in R198's places; the seven status-summary flags that R189 has the report give, and
for which R198 has no byte, are noted in the state as they stand (the model's choice, log entry 23); then LINK_ERR and
RESTARTED are cleared and the counters set to 0. -/
def Obligations.ReadStatusReportsAndClears : Prop :=
  ∀ (s : State) (tag : Byte), s.link.buffer = [] → s.link.reply = none → ∃ flags : Byte,
    (flags.getLsbD 7 = s.link.restarted ∧ flags.getLsbD 6 = s.link.linkErr ∧ flags.getLsbD 5 = !s.link.ops.isEmpty
      ∧ flags.getLsbD 4 = !s.alarm.notices.isEmpty ∧ flags.getLsbD 3 = decide (s.tb.selection = .free)
      ∧ (flags.getLsbD 2 = true ↔ ∃ pt, (s.alarm.point pt).applied = true)
      ∧ (flags.getLsbD 1 = true ↔ ∃ pt,
          (s.alarm.point pt).ann = .activeUnack ∨ (s.alarm.point pt).ann = .returnedUnack)
      ∧ flags.getLsbD 0 = false)
    ∧ exec (.readStatus tag) s = .next (State.replied 0x02 tag .ok
      (bigEndian 2 s.link.crcErrors ++ bigEndian 2 s.link.lengthErrors ++ bigEndian 2 s.link.gapErrors
        ++ bigEndian 2 s.link.overruns ++ bigEndian 6 s.counter.toNat ++ bigEndian 1 s.link.ops.length
        ++ (s.link.ops.flatMap fun e =>
              e.tag :: e.concern.kind :: (bigEndian 1 e.concern.subject ++ bigEndian 6 e.since.toNat))
        ++ bigEndian 1 s.tb.schedule.length ++ bigEndian 1 s.link.completions.length
        ++ bigEndian 1 s.alarm.notices.length)
      { s with link :=
        { s.link with
          linkErr := false, restarted := false, crcErrors := 0, lengthErrors := 0, gapErrors := 0, overruns := 0
          statusFlags := some flags } })

/-- RESTART (R190 with R15, R68, R111, R112, R119, R121, R175, R192): every program is VACANT and every claim of a
defined program freed; the clear pages of the rings go to the tail of the free list in program order, the window's
after them, the suspect ones to the retired list; the fill queue is emptied and its fills abandoned, the page in
progress left part-written (how far is free, log entry 48) and every other byte, those of a page whose test is left
unfinished among them, as it was (log entry 19); schedule, operation table, completions and notices are emptied without
completions; the points are at rest, the raw condition of a state point kept where its subject remains, that of a
program's point and of an event point absent from this house sample; the receiver is in HUNT and RESTARTED is set;
lanes, timebase, settings, buffer, counters and the frame being sent are kept. -/
def Obligations.RestartClearsWorkAndKeepsSettings : Prop :=
  ∀ (s : State) (tag : Byte), s.LinkFree → ∃ t, exec (.restart tag) s = .next t
    ∧ (∀ p, t.program p = none)
    ∧ (∀ i : Fin 64, (t.claims[i.val]'i.isLt) =
        match s.claims[i.val]'i.isLt with
        | none => none
        | some k => if (s.program k.program).isSome then none else some k)
    ∧ t.tb = { s.tb with schedule := [] }
    ∧ t.lanes = s.lanes ∧ s.FillAbandoned (fun q => (s.program q).isSome = true) t ∧ t.stuck = s.stuck
    ∧ t.egress = s.egress
    ∧ t.pool.free = s.pool.free
        ++ (allPrograms.flatMap fun p =>
              ((((s.program p).map Program.ring).getD []).filter fun e => !e.suspect).map PageEntry.page)
        ++ s.pool.window
    ∧ t.pool.retired = s.pool.retired
        ++ (allPrograms.flatMap fun p =>
              ((((s.program p).map Program.ring).getD []).filter fun e => e.suspect).map PageEntry.page)
    ∧ t.pool.window = [] ∧ t.pool.check = none ∧ t.pool.fill = [] ∧ t.pool.sized = s.pool.sized
    ∧ t.pool.device = s.pool.device ∧ t.pool.readErrors = s.pool.readErrors
    ∧ KeepsSettings s.alarm t.alarm ∧ t.alarm.notices = []
    ∧ (∀ pt,
        let program := decide (16 ≤ pt.val) && decide (pt.val < 112)
        t.alarm.point pt =
          { raw := (s.alarm.point pt).raw && !s.alarm.isEventPoint pt && !program
            lastRaw :=
              if (s.alarm.point pt).raw = true ∧ (s.alarm.isEventPoint pt = true ∨ program = true) then some s.counter
              else (s.alarm.point pt).lastRaw
            lastEvent := none, since := s.counter, filtered := false, ann := .quiet, applied := false, raiseCount := 0
            lastRise := none, lastChange := none })
    ∧ t.link =
        { s.link with
          ops := [], completions := [], receiver := .hunt, restarted := true
          reply := some ⟨0x03, tag, .ok, []⟩ }

/-- A frame of a kind that is no request is answered UNKNOWN_KIND, before and after the end of sizing, and changes
nothing but the reply place (R180). Until sizing ends every request but IDENTIFY and READ_STATUS is answered STARTING
and changes nothing but the reply place (R191). A tagged DEFINE_PROGRAM, SET_DELAY or CHECK_MEMORY whose tag is held is
refused with TAG_BUSY, and one that finds the operation table full with OPS_FULL, before any check of its own (R117,
R126, R180 to R182). A request that finds a frame before it in the receive buffer or a
reply in the reply place, or that the completion reserve holds back, waits: its frame is appended to the buffer; where
the buffer holds four it is an overrun, which is counted, sets LINK_ERR and hands one LINK_ERROR event to point 113
(R178, R179, R183). -/
def Obligations.RequestsAreTurnedAwayWaitOrOverrun : Prop :=
  (∀ (s : State) (kind tag : Byte) (body : List Byte), isRequestKind kind = false → s.link.buffer = [] →
    s.link.reply = none → exec (.unknownKindRequest kind tag body) s = .next (s.replied kind tag .unknownKind []))
  ∧ (∀ (s : State) (c : Instr) (tag : Byte) (r : Request), requestOf c = some (tag, r) → r ≠ .identify →
    r ≠ .readStatus → s.link.sizingEnded = false → s.link.buffer = [] → s.link.reply = none → s.outstanding < 40 →
    exec c s = .next (s.replied (requestKind r) tag .starting []))
  ∧ (∀ (s : State) (c : Instr) (tag : Byte) (r : Request), requestOf c = some (tag, r) → opensOp r = true →
    s.LinkFree → tag ≠ 0 → s.outstanding < 40 →
    (s.tagHeld tag = true → exec c s = .next (s.replied (requestKind r) tag .tagBusy []))
    ∧ (s.tagHeld tag = false → 8 ≤ s.link.ops.length →
      exec c s = .next (s.replied (requestKind r) tag .opsFull [])))
  ∧ ∀ (s : State) (c : Instr) (tag : Byte) (r : Request), requestOf c = some (tag, r) →
    (s.link.buffer ≠ [] ∨ s.link.reply.isSome = true
      ∨ (takesTag (requestKind r) = true ∧ tag ≠ 0 ∧ 40 ≤ s.outstanding)) →
    (s.link.buffer.length < 4 →
      exec c s = .next { s with link :=
        { s.link with buffer := s.link.buffer ++ [⟨requestKind r, tag, requestBody r⟩] } })
    ∧ (4 ≤ s.link.buffer.length →
      exec c s = .next { s with
        alarm := s.alarm.event s.counter linkErrorPoint
        link := { s.link with overruns := min 65535 (s.link.overruns + 1), linkErr := true } })

/-- The receiver's table (R177) with the length and CRC errors (R178), while no waiting frame can be taken: HUNT finds
the start byte or drops the byte; LENGTH takes 2 to 250 and refuses the rest with a length error; COLLECT keeps every
byte but the last; the last, with a CRC that differs, is a CRC error. The three event rows of the receiver: the last
CRC byte, which is the last byte received, appends a good frame to the receive buffer, or is an overrun where that
holds four, and is a CRC error where the CRC differs (R178, R179), and the oldest frame waiting, which may be this one,
is taken at the same house sample where it may be (R179, R180, R183, R191); a length byte out of range is a length
error, and the 241st house sample after a byte inside a frame is a gap error, the partial frame discarded (R178). One
that is not due does nothing. -/
def Obligations.ReceiverFollowsItsTableAndTakesFrames : Prop :=
  (∀ (s : State) (b : Byte), (s.link.buffer = [] ∨ s.link.reply.isSome = true) →
    (s.link.receiver = .hunt → exec (.linkByteReceived b) s =
      .next { s with link :=
        { s.link with receiver := if b = 0xC3 then .length else .hunt, lastByte := s.counter } })
    ∧ (s.link.receiver = .length → 2 ≤ b.toNat → b.toNat ≤ 250 → exec (.linkByteReceived b) s =
      .next { s with link := { s.link with receiver := .collect (b.toNat + 2) [b], lastByte := s.counter } })
    ∧ (s.link.receiver = .length → (b.toNat < 2 ∨ 250 < b.toNat) → exec (.linkByteReceived b) s =
      .next { s with
        alarm := s.alarm.event s.counter linkErrorPoint
        link := { s.link with
          receiver := .hunt, lastByte := s.counter, linkErr := true
          lengthErrors := min 65535 (s.link.lengthErrors + 1) } })
    ∧ (∀ left kept, s.link.receiver = .collect left kept → 1 < left → exec (.linkByteReceived b) s =
      .next { s with link := { s.link with receiver := .collect (left - 1) (kept ++ [b]), lastByte := s.counter } })
    ∧ ∀ kept, s.link.receiver = .collect 1 kept → 2 ≤ kept.length →
        (kept ++ [b]).drop (kept.length - 1) ≠ bigEndian 2 (crc16 (kept.take (kept.length - 1))).toNat →
        exec (.linkByteReceived b) s = .next { s with
          alarm := s.alarm.event s.counter linkErrorPoint
          link := { s.link with
            receiver := .hunt, lastByte := s.counter, linkErr := true
            crcErrors := min 65535 (s.link.crcErrors + 1) } })
  ∧ (∀ (s : State) (last : Byte) (kept : List Byte), s.link.receiver = .collect 1 kept →
    let got := { s with link := { s.link with receiver := .hunt, lastByte := s.counter } }
    exec (.linkByteReceived last) s = exec (.frameReceived last) s
    ∧ (∀ (kind tag : Byte) (body : List Byte),
      kept ++ [last] = (BitVec.ofNat 8 (body.length + 2) :: kind :: tag :: body)
        ++ bigEndian 2 (crc16 (BitVec.ofNat 8 (body.length + 2) :: kind :: tag :: body)).toNat →
      (s.link.buffer.length < 4 →
        (got.withBuffer (s.link.buffer ++ [⟨kind, tag, body⟩])).OldestTaken (exec (.frameReceived last) s))
      ∧ (4 ≤ s.link.buffer.length →
        State.OldestTaken { got with
          alarm := s.alarm.event s.counter linkErrorPoint
          link := { got.link with overruns := min 65535 (s.link.overruns + 1), linkErr := true } }
          (exec (.frameReceived last) s)))
    ∧ (2 ≤ kept.length →
      (kept ++ [last]).drop (kept.length - 1) ≠ bigEndian 2 (crc16 (kept.take (kept.length - 1))).toNat →
      State.OldestTaken { got with
        alarm := s.alarm.event s.counter linkErrorPoint
        link := { got.link with crcErrors := min 65535 (s.link.crcErrors + 1), linkErr := true } }
        (exec (.frameReceived last) s)))
  ∧ (∀ (s : State) (b : Byte),
    ((∀ kept, s.link.receiver ≠ .collect 1 kept) → exec (.frameReceived b) s = .next s)
    ∧ ((s.link.receiver ≠ .length ∨ (2 ≤ b.toNat ∧ b.toNat ≤ 250)) → exec (.frameLengthError b) s = .next s)
    ∧ (s.link.receiver = .hunt → exec .gapTimeout s = .next s))
  ∧ (∀ (s : State) (length : Byte), s.link.receiver = .length → (length.toNat < 2 ∨ 250 < length.toNat) →
    exec (.frameLengthError length) s = .next { s with
      alarm := s.alarm.event s.counter linkErrorPoint
      link := { s.link with
        receiver := .hunt, lastByte := s.counter, linkErr := true
        lengthErrors := min 65535 (s.link.lengthErrors + 1) } })
  ∧ ∀ s : State, s.link.receiver ≠ .hunt →
    exec .gapTimeout s = .next
      (if 241 ≤ since s.counter s.link.lastByte then
        { s with
          alarm := s.alarm.event s.counter linkErrorPoint
          link := { s.link with
            receiver := .hunt, linkErr := true, gapErrors := min 65535 (s.link.gapErrors + 1) } }
       else s)

/-- The arbiter (R187, R168) at the end of a frame, and at once where the transmitter is idle (the house clock's tick
makes it serve what waits): the reply first, then the oldest completion, then the head notice, which leaves the notice
queue and is built from its point's record; the summary is the one of that house sample (R186); with nothing waiting
the transmitter is idle. The layouts are those of R196. A frame waiting at the head of the receive buffer (R179) is
taken at the house sample at which the reply place is empty, the reply having begun to be sent, and does exactly what
its command does with nothing waiting before it; the frames behind it wait on; while the reply place is full, or the
completion reserve holds it back (R183), it waits too; and where the transmitter was idle with nothing to send, its
reply begins at once. That what waits is served at the end of a house sample is log entry 30. -/
def Obligations.TransmitterServesReplyThenCompletionThenNotice : Prop :=
  (∀ s : State, s.link.buffer = [] →
    (∀ was, s.link.sending = some was → exec .transmitFrameEnd s = .next s.begins ∧ s.serveLink = s)
    ∧ (s.link.sending = none → exec .transmitFrameEnd s = .next s ∧ s.serveLink = s.begins))
  ∧ ∀ (s : State) (c : Instr) (tag : Byte) (f : Frame) (rest : List Frame), s.link.buffer = f :: rest →
    ((∃ r, requestOf c = some (tag, r) ∧ requestFits r = true ∧ f = ⟨requestKind r, tag, requestBody r⟩)
      ∨ ∃ kind body, c = .unknownKindRequest kind tag body ∧ isRequestKind kind = false ∧ f = ⟨kind, tag, body⟩) →
    let taken := fun (a b : State) => ∃ t, exec c (a.withBuffer []) = .next t ∧ b = t.withBuffer rest
    (∀ was reply, s.link.sending = some was → s.link.reply = some reply → s.serveLink = s
      ∧ ((takesTag f.kind = false ∨ tag = 0 ∨ s.outstanding < 40) →
        ∃ b, exec .transmitFrameEnd s = .next b ∧ taken s.begins b))
    ∧ (∀ reply, s.link.sending = none → s.link.reply = some reply →
      (takesTag f.kind = false ∨ tag = 0 ∨ s.outstanding < 40) → taken s.begins s.serveLink)
    ∧ (∀ was, s.link.sending = some was → s.link.reply = none →
      ((takesTag f.kind = false ∨ tag = 0 ∨ s.outstanding < 40) → taken s s.serveLink)
      ∧ (takesTag f.kind = true → tag ≠ 0 → 40 ≤ s.outstanding → s.serveLink = s))
    ∧ (s.link.sending = none → s.link.reply = none → (takesTag f.kind = false ∨ tag = 0 ∨ s.outstanding < 40) →
      ((s.link.completions ≠ [] ∨ s.alarm.notices ≠ []) → taken s.begins s.serveLink)
      ∧ (s.link.completions = [] → s.alarm.notices = [] →
        ∃ t, exec c (s.withBuffer []) = .next t ∧ s.serveLink = (t.withBuffer rest).begins.serveLink))

/-! ## Power-on and the house clock -/

/-- Power-on and pin reset (R1, R2, R15, R48, R49, R58, R106, R121, R154, R170, R172, R175, R192): each block takes
the reset values of its table, the link rate is read from the strap, sizing begins with nothing yet in the page pool,
and every egress slot carries silence (R148). Model's choices: the reset values that no table gives, among them the
house samples of a point's last raw change and of its times' start (log entry 33), and a DRAM that reads as zero-fill
leaves it (log entry 19). The waiting commands, the contact pins and the failed DRAM cells are outside the part and
stay (log entry 29). -/
def Obligations.PowerOnSetsTheResetValues : Prop :=
  ∀ (s : State) (high : Bool), ∃ t, exec (.powerOnReset high) s = .next t
    ∧ t.pending = s.pending ∧ t.alarm.pins = s.alarm.pins ∧ t.stuck = s.stuck
    ∧ t.counter = 0 ∧ t.tb.frameIndex = 0 ∧ t.tb.frameStart = 0 ∧ t.tb.frameLen = 1920 ∧ t.tb.cadence = 0
    ∧ t.tb.rate = .r25 ∧ t.tb.preference = .a ∧ t.tb.revertive = true ∧ t.tb.holdCode = 50
    ∧ t.tb.pendingRate = none ∧ t.tb.selection = .free ∧ t.tb.holdSince = none ∧ t.tb.revertSince = none
    ∧ t.tb.realign = false ∧ t.tb.schedule = []
    ∧ (∀ i, t.tb.ref i = ⟨false, none, none, 0, false, 0, false⟩)
    ∧ (∀ l, (t.lane l).enabled = false ∧ (t.lane l).oneShot = false ∧ (t.lane l).holdCode = 50
        ∧ (t.lane l).state = .dark ∧ (t.lane l).clockPresent = false ∧ (t.lane l).cls = none
        ∧ (t.lane l).store = [] ∧ (t.lane l).rho = 16777216 ∧ (t.lane l).rhoInt = 16777216
        ∧ (t.lane l).lockRun = 0 ∧ (t.lane l).pinRun = 0 ∧ (t.lane l).latency32 = 3072 ∧ (t.lane l).inUse = 96
        ∧ (t.lane l).slipCount = 0 ∧ (t.lane l).slip.dir = .steady ∧ (t.lane l).admission = false
        ∧ (t.lane l).keptBlock = none ∧ (t.lane l).blockReady = false)
    ∧ (∀ p, t.program p = none) ∧ (∀ i : Fin 64, t.claims[i.val]'i.isLt = none)
    ∧ t.pool.device = .none ∧ t.pool.sized = 0 ∧ t.pool.free = [] ∧ t.pool.retired = [] ∧ t.pool.window = []
    ∧ t.pool.fill = [] ∧ t.pool.check = none ∧ t.pool.readErrors = 0 ∧ t.dram = []
    ∧ (∀ i : Fin 64, t.egress.slots[i.val]'i.isLt = 0)
    ∧ (∀ k : Fin 13, (t.alarm.kind k).mode = .report ∧ (t.alarm.kind k).clearCode = 50
        ∧ (t.alarm.kind k).retryCode = 150
        ∧ (t.alarm.kind k).priority = [1, 2, 5, 4, 2, 3, 5, 6, 4, 1, 0, 6, 3].getD k.val 0
        ∧ (t.alarm.kind k).raiseCode = [0, 0, 0, 0, 110, 0, 150, 0, 0, 0, 0, 0, 0].getD k.val 0
        ∧ (t.alarm.kind k).level = [0, 0, 0, 0, -600, -1, 0, 0, 0, 0, 0, 0, 0].getD k.val 0
        ∧ (t.alarm.kind k).count = [0, 0, 0, 0, 0, 3, 0, 0, 0, 0, 0, 0, 0].getD k.val 0)
    ∧ (∀ pt, t.alarm.point pt = { Point.reset with raw := decide (pt = refLossPoint) })
    ∧ t.alarm.notices = []
    ∧ (∀ o : Fin 4, t.alarm.summaries[o.val]'o.isLt = ⟨0, 7, true, false, false⟩ ∧ t.alarm.summaryPin o = false)
    ∧ (∀ c, t.alarm.contact c = ⟨.none, false, 0, false, none, false⟩)
    ∧ t.link.highRate = high ∧ t.link.receiver = .hunt ∧ t.link.buffer = [] ∧ t.link.reply = none
    ∧ t.link.sending = none ∧ t.link.ops = [] ∧ t.link.completions = [] ∧ t.link.crcErrors = 0
    ∧ t.link.lengthErrors = 0 ∧ t.link.gapErrors = 0 ∧ t.link.overruns = 0 ∧ t.link.linkErr = false
    ∧ t.link.restarted = true ∧ t.link.sizingEnded = false ∧ t.link.statusFlags = none

/-- A period of the house clock (R1) advances the counter by one. The egress lanes' frames of the sample closed carry
the block-start marker where its counter is a multiple of 192, the status bit of a block of 3 and 23 zeros, and in
every slot the output sample of the channel that claims it while its program is RUNNING, and silence otherwise (R58,
R148), as claims and programs stand once the sample's audio is formed; with no frame waiting in the receive buffer
these are the claims the sample had and the programs it leaves. Model's choices: the tick puts the contact pins at
their new levels (log entry 34), and the new sample's alarm boundary is still to be taken (log entry 4). -/
def Obligations.HouseClockAdvancesAndEgressSlotsAreSent : Prop :=
  ∀ (s : State) (pins : BitVec 4) (faults : List DramFault), ∃ t, exec (.houseSampleTick pins faults) s = .next t
    ∧ t.counter = s.counter + 1 ∧ t.alarm.pins = pins ∧ t.alarm.boundaryTaken = false
    ∧ t.egress.marker = decide (s.counter.toNat % 192 = 0)
    ∧ t.egress.status = decide (s.counter.toNat % 192 = 6 ∨ s.counter.toNat % 192 = 7)
    ∧ let v := s.settle.serveLink.audio
      let sent := fun (claims : Vector (Option Claim) 64) (program : Fin 16 → Option Program) =>
        ∀ i : Fin 64, t.egress.slots[i.val]'i.isLt =
          match claims[i.val]'i.isLt with
          | none => 0
          | some k =>
            match program k.program with
            | none => 0
            | some x => if x.state = .running then ((x.channels[k.channel]?).map Channel.output).getD 0 else 0
      sent v.claims v.program
      ∧ (s.link.buffer = [] → t.claims = s.claims ∧ sent s.claims t.program)

/-- What a period of the house clock does in every house sample. First every step of the part that is due is made, each
row of the part's own steps once, in one order (log entry 25), and the link is served; then the audio of the sample
closed goes by stages: demands, interpolators, inputs, ring writes, ring reads, outputs, egress; the link is served
once more (log entry 30), and the next sample opens. A lane: while its store is read one interpolated sample for each
slot enters the 32 house samples of latency (R38): that of the 64 lane frames nearest the read position, which lies the
fill behind the newest (R40, R199), by the coefficient set of the class, which meets R38's response, rounded to nearest
with ties up and held (what is asked of a set and where: log entry 10; the phase and a tie of frames: log entry 17);
the read position moves on by ρ, held at the write position, the slip's and the entry's fades move a step, and a slip
begins where the fill is then below 8 or above 224 frames (R36, R39); its frame starts enter the window (R26). A
program's input (R62, R63, R70, R71, R74, R86, R122): the lane's slot output in LOCKED under both its fades, silence
otherwise, under the changeover fade into the trim buffer, and out of it under the trim-step fade; the weighted
sample's square enters the energy, the largest magnitude and the block's marks are kept. A fade's product is one of the
two samples beside the exact one (log entry 12). The filter is one of two second-order stages that meets R70's
response, in the model's unit (log entry 9). Then every fade, the slew (R130) and the ramp (R143) move a step, and a
page under test has been tested for one sample more (R113; the fill queue judged at the sample's close, log entry 54).
Each reported failure of the DRAM adds to what those before it have done: a stuck cell reads as its byte from then on,
another changes the stored byte, one outside the sized pages changes nothing, and none changes anything else (log
entry 18). -/
def Obligations.HouseClockMovesAndMeasuresTheAudio : Prop :=
  (∀ s : State, execAll dueSteps s = .next s.settle)
  ∧ (∀ u : State,
    u.audio = (forAll allPrograms State.formOutput (forAll allPrograms State.readRing (forAll allPrograms State.writeRing
      (forAll allPrograms State.takeInput (forAll allPrograms State.handDemands u).interpolate)))).sendEgress
    ∧ ∀ l : Fin 4,
      let x := u.lane l
      let near := fun slot : Nat => (List.range 64).map fun i =>
        match x.store[x.fillQ / 2 ^ 24 + 32 - i]? with
        | some frame => frame.getD slot 0
        | none => 0
      let set := interpolator (x.cls.getD .k48)
      let one : Int := 2 ^ set.bits
      let computed := (List.range 16).map fun slot =>
        let sum := (List.zipWith (fun (k : Int) (q : Sample) => k * q.toInt)
          (set.phases.getD (x.fillQ / 2 ^ 16 % 256) []) (near slot)).sum
        BitVec.ofInt 24 (max (-8388608) (min 8388607 ((2 * sum + one) / (2 * one))))
      u.audio.lane l = { x with
        pipe := if x.state = .pulling ∨ x.state = .ready ∨ x.state = .locked then (computed :: x.pipe).take 33 else [] })
  ∧ (∀ (s : State) (pins : BitVec 4) (faults : List DramFault), ∃ t : State,
    exec (.houseSampleTick pins faults) s = .next t ∧
    let w := s.settle.serveLink.audio.serveLink
    t.claims = w.claims ∧ t.egress = w.egress ∧ t.tb = w.tb ∧ t.link = w.link
    ∧ t.alarm = { w.alarm with pins := pins, boundaryTaken := false, silenceLevel := (w.alarm.kind 4).level }
    ∧ t.pool = (if w.pool.check.isSome = true ∧ w.pool.window ≠ [] ∧ w.pool.fill = [] then
        { w.pool with testRun := w.pool.testRun + 1 } else w.pool)
    ∧ (faults = [] → t.dram = w.dram ∧ t.stuck = w.stuck)
    ∧ (Dram.wf s.dram = true → ∀ f : DramFault, ∃ u : State, exec (.houseSampleTick pins (faults ++ [f])) s = .next u
        ∧ u = { t with dram := u.dram, stuck := u.stuck }
        ∧ (t.pool.sized * 15000 ≤ f.address → u = t)
        ∧ (f.address < t.pool.sized * 15000 → f.stuck = true →
            u.dram = t.dram
            ∧ ∀ a, stuckAt u.stuck a = if a = f.address then some f.value else stuckAt t.stuck a)
        ∧ (f.address < t.pool.sized * 15000 → f.stuck = false →
            u.stuck = t.stuck
            ∧ ∀ a, Dram.read u.dram a = if a = f.address then f.value else Dram.read t.dram a))
    ∧ (∀ l : Fin 4,
        let x := w.lane l
        let reading := x.state = .pulling ∨ x.state = .ready ∨ x.state = .locked
        let fill := if reading then x.fillQ - x.rho.toNat else x.fillQ
        let out := fill / 2 ^ 16 < 2048 ∨ 57344 < fill / 2 ^ 16
        t.lane l = { x with
          fillQ := fill
          slip := if reading ∧ x.slip.dir = .steady ∧ out then ⟨96, .falling, 96⟩ else x.slip.moved 96
          entryFade := x.entryFade.moved 96
          windowCount := x.windowCount + x.startsNow, startsNow := 0, controlTaken := false })
    ∧ ∀ p : Fin 16, t.program p = (w.program p).map fun x =>
        let a := x.align
        let slews := a.motion = .slewing ∧ slewStep a.slewRate ≤ a.distance
        { x with
          channels := x.channels.map fun ch =>
            { ch with coFade := ch.coFade.moved 480, trimFade := ch.trimFade.moved 480 }
          onAir := x.onAir.moved 480
          align := { a with
            fade := a.fade.moved 480
            cur := if slews then
                (if a.cur < a.target * 65536 then a.cur + slewStep a.slewRate else a.cur - slewStep a.slewRate)
              else a.cur
            arriving := if a.motion = .slewing then decide (a.distance < slewStep a.slewRate) else a.arriving }
          loud := { x.loud with blockTaken := false }
          out := { x.out with
            muteFade := x.out.muteFade.moved 480, multUsed := x.out.rampNow
            rampStep := if x.out.rampStep = 0 then 0 else min 481 (x.out.rampStep + 1) } })
  ∧ (∀ rate : Nat, 1 ≤ rate → rate ≤ 20 →
      2 * 1000 * slewStep rate ≤ 2 * 65536 * rate + 1000 ∧ 2 * 65536 * rate + 1000 < 2 * 1000 * slewStep rate + 2000)
  ∧ (∀ (s : State) (p : Fin 16) (x : Program), s.program p = some x →
      let input := fun ch : Channel =>
        let l := s.lane ch.inUse.lane
        let given : Sample := match l.pipe[32]? with
          | some frame => frame.getD ch.inUse.slot.val 0
          | none => Config.startUpSample ch.inUse.lane.val s.counter.toNat ch.inUse.slot.val
        if l.state = .locked then
          BitVec.ofInt 24 (max (-8388608) (min 8388607
            ((2 * (given.toInt * l.entryFade.level * l.slip.level) + 9216) / 18432)))
        else (0 : Sample)
      let buffer := fun ch : Channel => (fadeSample (input ch) ch.coFade.level :: ch.trimBuf).take 256
      let aligned := fun ch : Channel => fadeSample ((buffer ch).getD ch.trim 0) ch.trimFade.level
      let weighted := fun ch : Channel => weighSample ch.filter (aligned ch)
      let locked := ∀ ch ∈ x.channels, (s.lane ch.inUse.lane).state = .locked
      let covered := allLanes.any fun c => (s.alarm.contact c).function == .integrationHold
        && (s.alarm.contact c).level && (s.alarm.contact c).programs.getLsbD p.val
      s.takeInput p = s.setProgram p (some { x with
        channels := x.channels.map fun ch =>
          { ch with
            trimBuf := buffer ch, aligned := aligned ch, filter := (weighted ch).1
            energySum := ch.energySum + (weighted ch).2.natAbs ^ 2 }
        loud := { x.loud with
          peak := (x.channels.map fun ch => (aligned ch).toInt.natAbs).foldl max x.loud.peak
          markPreparing := x.loud.markPreparing || decide (x.state = .preparing)
          markLane := x.loud.markLane || !decide locked
          markHold := x.loud.markHold || covered
          wasRunning := decide (x.state = .running), wasPaused := x.loud.paused } }))
  ∧ (∀ (x : Sample) (level : Nat), level ≤ 480 →
      (480 * (fadeSample x level).toInt - x.toInt * level).natAbs < 480
      ∧ ((x.toInt * level) % 480 = 0 → 480 * (fadeSample x level).toInt = x.toInt * level))
  ∧ (∀ c : RateClass, (interpolator c).meets c = true)
  ∧ weighting.meetsResponse = true
  ∧ ∀ (f : FilterState) (x : Sample), ∃ g : FilterState, ∃ y z : Int, weighSample f x = (g, z) ∧
      let w := weighting
      let one : Int := 2 ^ w.bits
      let carries := fun (exact kept : Int) =>
        (one * kept - exact).natAbs < one.natAbs ∧ (exact % one = 0 → one * kept = exact)
      let input := x.toInt * 2 ^ 41
      carries (w.lowCut.b0 * input + one * f.lowCutA) y
      ∧ carries (w.lowCut.b1 * input - w.lowCut.a1 * y + one * f.lowCutB) g.lowCutA
      ∧ carries (w.lowCut.b2 * input - w.lowCut.a2 * y) g.lowCutB
      ∧ carries (w.shelf.b0 * y + one * f.shelfA) z
      ∧ carries (w.shelf.b1 * y - w.shelf.a1 * z + one * f.shelfB) g.shelfA
      ∧ carries (w.shelf.b2 * y - w.shelf.a2 * z) g.shelfB

/-- The protections reach their owners at the end of the house sample, as they then stand (R166): after a period of the
house clock a program's changeover demands follow the LANE_STALL and LANE_UNLOCK points of the primary's lane, its
PROG_SILENCE point and the FORCE_BACKUP inputs (R60), its pad follows its PROG_OVER point (R146) and its delay bypass
its PROG_MEMORY point (R137, R138); one removed and applied again in one sample is no change. A changed demand works
out the desired selection and begins a changeover where it differs (R61, R62). A changed pad works out the total again,
and a changed total starts a ramp (R141, R143). Bypass applied: on air ENTERING with the fade falling (the motion state
is STEADY meanwhile, or CUT_OUT: log entry 43), off air IN_EFFECT at once; an ENTERING or a cut back that still falls
goes on. Bypass removed: ENTERING becomes a cut that falls on, IN_EFFECT begins a cut back, and off air it is an
immediate jump, after which an open delay operation is DONE. PROG_DELAY_SHORT and the gain schedule follow, an entry's
index judged due on the circle of the counter (log entry 20). Bypass applied again while that cut back still falls
stays IN_EFFECT with the motion state CUT_OUT, and off air it is switched to at once (the model's reading, log entry
21). That the bypass is handed over before the ring is read and again after it, and that a pad the sample's own overs
apply is in its output, is log entry 26. -/
def Obligations.ProtectionsAreHandedOverAtTheEndOfTheSample : Prop :=
  let demanded := fun (a : AlarmUnit) (p : Fin 16) (ch : Channel) =>
    (a.point (lanePoint 0 ch.primary.lane)).applied || (a.point (lanePoint 1 ch.primary.lane)).applied
      || (a.point (progPoint 0 p)).applied
      || allLanes.any fun c => (a.contact c).function == .forceBackup && (a.contact c).level
          && (a.contact c).programs.getLsbD p.val
  (∀ (s : State) (pins : BitVec 4) (faults : List DramFault), s.Shown → s.link.buffer = [] → ∃ t : State,
    exec (.houseSampleTick pins faults) s = .next t
    ∧ ∀ (p : Fin 16) (y : Program), t.program p = some y →
      (∀ ch ∈ y.channels, ch.demand = demanded t.alarm p ch)
      ∧ y.out.pad = (if (t.alarm.point (progPoint 1 p)).applied then -100 else 0)
      ∧ y.align.applied = (t.alarm.point (progPoint 5 p)).applied)
  ∧ (∀ (s : State) (p : Fin 16) (x : Program), s.Shown → s.program p = some x →
    s.handDemands p = s.setProgram p (some { x with channels := x.channels.map fun ch =>
      let d := demanded s.alarm p ch
      let want : Pick := match ch.mode with
        | .forcePrimary => .primary
        | .forceBackup => if ch.backup.isSome then .backup else .primary
        | .auto => if ch.backup.isSome && d then .backup else .primary
      let source : Source := match want with
        | .primary => ch.primary
        | .backup => ch.backup.getD ch.primary
      if d = ch.demand then ch
      else
        { ch with
          demand := d, desired := want
          coFade := if (want ≠ ch.current ∨ source ≠ ch.inUse) ∧ ch.coFade.dir = .steady then
              ⟨ch.coFade.prev - 1, .falling, ch.coFade.prev⟩ else ch.coFade } }))
  ∧ (∀ (s : State) (p : Fin 16) (x : Program), s.Shown → s.program p = some x →
    let pad := if (s.alarm.point (progPoint 1 p)).applied then -100 else 0
    (x.out.pad = pad → s.handPad p = s)
    ∧ (x.out.pad ≠ pad → s.handPad p = s.setProgram p (some (x.withPad pad))))
  ∧ (∀ (s : State) (p : Fin 16) (x : Program), s.Shown → s.program p = some x →
    let a := x.align
    let t := s.handBypass p
    let jumped := x.channels.map fun ch => { ch with readBuf := [] }
    let cut := a.motion = .cutOut
    ((s.alarm.point (progPoint 5 p)).applied = a.applied → t = s)
    ∧ ((s.alarm.point (progPoint 5 p)).applied ≠ a.applied → OnlyProgram p s t ∧ ∃ y : Program, t.program p = some y
      ∧ y.state = x.state ∧ y.ring = x.ring ∧ y.corr = x.corr ∧ y.loud = x.loud
      ∧ x.ScheduleMoved s.counter y.lineDelay y
      ∧ (t.alarm.point (progPoint 4 p)).raw =
          (decide ((a.target : Int) ≠ (a.value : Int) - a.pathLat) || !a.applied)
      ∧ (a.applied = false → t.link = s.link
        ∧ (a.bypass = .none → x.state = .running → y.channels = x.channels ∧ y.align = { a with
            applied := true, bypass := .entering, motion := if cut then .cutOut else .steady, arriving := false
            pending := none, fade := ⟨a.fade.prev - 1, .falling, a.fade.prev⟩ })
        ∧ ((x.state ≠ .running ∧ (a.bypass = .none ∨ (a.bypass = .inEffect ∧ cut))) →
            y.channels = (if cut then jumped else x.channels) ∧ y.lineDelay = 0 ∧ y.align = { a with
              applied := true, cur := if cut then a.target * 65536 else a.cur, bypass := .inEffect, motion := .steady
              arriving := false, pending := none, fade := ⟨480, .steady, 480⟩ })
        ∧ ((a.bypass = .entering ∨ (a.bypass = .inEffect ∧ ¬(x.state ≠ .running ∧ cut))) →
            y.channels = x.channels ∧ y.align = { a with applied := true }))
      ∧ (a.applied = true →
        (a.bypass = .entering → x.state = .running → t.link = s.link ∧ y.channels = x.channels
          ∧ y.align = { a with applied := false, bypass := .none, motion := .cutOut, arriving := false })
        ∧ (a.bypass = .inEffect → x.state = .running → t.link = s.link ∧ y.channels = x.channels ∧ y.lineDelay = 0
          ∧ y.align = { a with
            applied := false, motion := .cutOut, arriving := false
            fade := ⟨a.fade.prev - 1, .falling, a.fade.prev⟩ })
        ∧ (a.bypass ≠ .none → x.state ≠ .running → y.channels = jumped ∧ y.lineDelay = a.target
          ∧ y.align = { a with
            applied := false, bypass := .none, cur := a.target * 65536, motion := .steady, arriving := false
            pending := none, fade := ⟨480, .steady, 480⟩, op := none }
          ∧ (a.op = none → t.link = s.link)
          ∧ ∀ o, a.op = some o → t.link.completions = s.link.completions ++ [⟨o.tag, 0x30, .done, none,
              delayReport p o (a.target * 65536) a.target⟩]))))
  ∧ ∀ (s : State) (p : Fin 16) (x : Program), s.Shown → s.program p = some x →
    (x.align.applied = true → (s.alarm.point (progPoint 5 p)).applied = false →
      ((s.readRing p).alarm.point (progPoint 5 p)).applied = true →
      ∃ y, (s.readRing p).program p = some y ∧ y.align = x.align ∧ y.out = x.out ∧ y.state = x.state)
    ∧ (x.out.pad = -100 → (s.alarm.point (progPoint 1 p)).applied = false →
      ((s.formOutput p).alarm.point (progPoint 1 p)).applied = true →
      ∃ y, (s.formOutput p).program p = some y ∧ y.out = x.out ∧ y.align = x.align ∧ y.state = x.state)

/-! ## House Timebase -/

/-- A frame with no realignment pending ends when its table length has run out (R2): the index rises by one, the
boundary is the new frame's start, the cadence position advances modulo 5 (or is the 0 of an in-step marker, R9), at
integer rates it is 0, the length is the table's; a pending rate takes effect at position 0 with a realignment pending
where an input is selected (R12; where that input is held and ABSENT too, the model's choice, log entry 35). A frame
with a realignment pending ends so at 1.5 table lengths, rounded down, the realignment still pending (R11). Then the
entries due run (R18). -/
def Obligations.FramesEndAtTheirLength : Prop :=
  ∀ s : State, s.Shown →
    let c := if s.tb.rate.fractional ∧ s.tb.nextCadenceZero = false then (s.tb.cadence + 1) % 5 else 0
    let next : Bool → State := fun realign => { s with tb :=
      { s.tb with
        frameIndex := s.tb.frameIndex + 1, frameStart := s.counter, nextCadenceZero := false, cadence := c
        frameLen := s.tb.rate.length c, realign := realign } }
    let changed : FrameRate → State := fun r => { s with tb :=
      { s.tb with
        frameIndex := s.tb.frameIndex + 1, frameStart := s.counter, nextCadenceZero := false
        rate := r, pendingRate := none, cadence := 0, frameLen := r.length 0
        refA := { s.tb.refA with markerSeen := false, cadenceCount := 0, counting := false }
        refB := { s.tb.refB with markerSeen := false, cadenceCount := 0, counting := false }
        realign := decide (s.tb.selection ≠ .free) } }
    let settled := s.tb.selection ≠ .free ∨ (s.tb.refA.present = false ∧ s.tb.refB.present = false)
    (s.tb.realign = false → s.tb.frameLen ≤ since s.counter s.tb.frameStart →
      (s.tb.pendingRate = none → exec .frameBoundary s = .next (next false).runFrame)
      ∧ ∀ r, s.tb.pendingRate = some r → settled → exec .frameBoundary s = .next (changed r).runFrame)
    ∧ (s.tb.realign = true → 3 * s.tb.frameLen / 2 ≤ since s.counter s.tb.frameStart →
      (s.tb.pendingRate = none → exec .realignFrameTimeout s = .next (next true).runFrame)
      ∧ ∀ r, s.tb.pendingRate = some r → settled → exec .realignFrameTimeout s = .next (changed r).runFrame)
    ∧ ((s.tb.realign = true ∨ since s.counter s.tb.frameStart < s.tb.frameLen) → exec .frameBoundary s = .next s)
    ∧ ((s.tb.realign = false ∨ since s.counter s.tb.frameStart < 3 * s.tb.frameLen / 2) →
      exec .realignFrameTimeout s = .next s)

/-- A pulse on a reference input is timed and judged (R3, R4): valid when its interval is within 0.1 % of the exact
nominal length; two valid pulses in a row make the input PRESENT; at the fractional rates the marker sets the marker-
seen flag and the count, and an unmarked pulse after a marked one adds to the count (that the count waits for a marked
pulse after power-on and after a rate change is log entry 40). In FREE an input that is PRESENT is selected, the
preferred one where both are (R5), with a realignment pending (R10): the frame runs on, but for a valid pulse of the
selected input itself, which counts as coming after the change and at half the frame's length or later is its boundary,
the realignment complete (R11) unless a new frame rate takes effect there (R12). The pulse of a PRESENT selected input
ends a hold (R6). The revert timer starts at this house sample where its condition begins to hold, runs on where it
held, and is dropped where it does not hold (R7). A pulse that is not valid, or of an input that is not the selected
one, leaves the frames as they are (R9). REF_LOSS follows the preferred input (R8). -/
def Obligations.ReferencePulsesAreTimedAndQualify : Prop :=
  ∀ (s : State) (i : RefInput) (marked : Bool), ∃ t,
    exec (.referencePulse i marked) s = .next t
    ∧ (let r := s.tb.ref i
       let other := s.tb.ref (otherInput i)
       let valid := match r.lastPulse with
         | some p => decide ((((5 * since s.counter p : Nat) : Int) - s.tb.rate.fiveFrames).natAbs * 1000
             ≤ s.tb.rate.fiveFrames)
         | none => false
       let timed : RefState :=
         { present := r.present || (valid && decide (1 ≤ r.validRun))
           lastPulse := some s.counter
           lastValid := if valid then some s.counter else r.lastValid
           validRun := if valid then min 2 (r.validRun + 1) else 0
           markerSeen := if s.tb.rate.fractional then marked || r.markerSeen else r.markerSeen
           cadenceCount :=
             if s.tb.rate.fractional then
               (if marked then 0 else if r.counting then (r.cadenceCount + 1) % 5 else r.cadenceCount)
             else r.cadenceCount
           counting := if s.tb.rate.fractional then marked || r.counting else r.counting }
       let held := fun x : RefState =>
         if s.tb.pendingRate.isSome ∧ t.tb.frameIndex ≠ s.tb.frameIndex then
           { x with markerSeen := false, cadenceCount := 0, counting := false }
         else x
       t.tb.ref i = held timed ∧ t.tb.ref (otherInput i) = held other
       ∧ (s.tb.selection ≠ .free → t.tb.selection = s.tb.selection
         ∧ ((valid = false ∨ s.tb.selection ≠ selectionOf i ∨ timed.present = false) →
           t.tb = { s.tb with
             refA := t.tb.refA, refB := t.tb.refB, holdSince := t.tb.holdSince, revertSince := t.tb.revertSince }
           ∧ t.programs = s.programs ∧ t.link = s.link))
       ∧ (s.tb.selection = .free → t.tb.selection =
           if (timed.present = true ∧ other.present = true) then selectionOf s.tb.preference
           else if timed.present = true then selectionOf i
           else if other.present = true then selectionOf (otherInput i)
           else .free)
       ∧ (s.tb.selection = .free → t.tb.selection ≠ .free →
           ((t.tb.selection = selectionOf i ∧ valid = true ∧ s.tb.frameLen ≤ 2 * since s.counter s.tb.frameStart) →
             t.tb.frameIndex = s.tb.frameIndex + 1 ∧ t.tb.frameStart = s.counter
             ∧ t.tb.realign = s.tb.pendingRate.isSome ∧ t.tb.rate = s.tb.pendingRate.getD s.tb.rate
             ∧ t.tb.pendingRate = none)
           ∧ (¬(t.tb.selection = selectionOf i ∧ valid = true
               ∧ s.tb.frameLen ≤ 2 * since s.counter s.tb.frameStart) →
             t.tb.realign = true ∧ t.tb.frameIndex = s.tb.frameIndex ∧ t.tb.frameStart = s.tb.frameStart
             ∧ t.tb.frameLen = s.tb.frameLen ∧ t.tb.cadence = s.tb.cadence ∧ t.tb.rate = s.tb.rate
             ∧ t.tb.pendingRate = s.tb.pendingRate ∧ t.tb.schedule = s.tb.schedule)))
    ∧ t.tb.holdSince =
        (if (t.tb.selection = selectionOf i ∧ (t.tb.ref i).present = true)
            ∨ (s.tb.selection = .free ∧ t.tb.selection ≠ .free) then none
         else s.tb.holdSince)
    ∧ t.tb.revertSince =
        (if s.tb.revertive = true ∧ t.tb.selection = selectionOf (otherInput s.tb.preference)
            ∧ (t.tb.ref s.tb.preference).present = true then
          some (if s.tb.selection = .free then s.counter else s.tb.revertSince.getD s.counter)
         else none)
    ∧ t.tb.preference = s.tb.preference ∧ t.tb.revertive = s.tb.revertive ∧ t.tb.holdCode = s.tb.holdCode
    ∧ (s.Shown → (t.alarm.point refLossPoint).raw = !(t.tb.ref t.tb.preference).present)
    ∧ t.counter = s.counter ∧ t.lanes = s.lanes ∧ t.claims = s.claims ∧ t.pool = s.pool ∧ t.dram = s.dram

/-- A valid pulse of the selected, PRESENT input against the frame in progress (R9, R11): in step at an offset of 0,
1, 2 or L − 2 or more it leaves the frames alone, but for a marked one at a fractional rate, which sets cadence
position 0 on the frame it belongs to: the frame in progress, with the position-0 length, near its start, the frame
about to begin near its end. Out of step it sets a realignment pending and, from half the length on, is itself the
boundary; with a realignment pending it is the boundary from half the length on and leaves the frame running before. A
boundary by a pulse starts the next frame on the pulse with the realignment complete; a frame rate that is pending
takes effect there, at position 0, with a realignment pending (R12). -/
def Obligations.SelectedPulsesKeepOrRealignTheFrame : Prop :=
  ∀ (s : State) (i : RefInput) (marked : Bool) (p : Time), s.tb.selection = selectionOf i →
    (s.tb.ref i).present = true → (s.tb.ref i).lastPulse = some p →
    s.tb.rate.validInterval (since s.counter p) = true → ∃ t, exec (.referencePulse i marked) s = .next t ∧
      let o := since s.counter s.tb.frameStart
      let l := s.tb.frameLen
      let sets := marked = true ∧ s.tb.rate.fractional = true
      let boundary := t.tb.frameIndex = s.tb.frameIndex + 1 ∧ t.tb.frameStart = s.counter ∧ t.tb.pendingRate = none
        ∧ (s.tb.pendingRate = none → t.tb.rate = s.tb.rate ∧ t.tb.realign = false
          ∧ t.tb.cadence =
            (if s.tb.rate.fractional ∧ (t.tb.ref i).markerSeen then (t.tb.ref i).cadenceCount else 0)
          ∧ t.tb.frameLen = s.tb.rate.length t.tb.cadence)
        ∧ ∀ r, s.tb.pendingRate = some r → t.tb.rate = r ∧ t.tb.realign = true ∧ t.tb.cadence = 0
          ∧ t.tb.frameLen = r.length 0
          ∧ ∀ j, (t.tb.ref j).markerSeen = false ∧ (t.tb.ref j).cadenceCount = 0
      let same := t.tb.frameIndex = s.tb.frameIndex ∧ t.tb.frameStart = s.tb.frameStart ∧ t.tb.rate = s.tb.rate
        ∧ t.tb.pendingRate = s.tb.pendingRate ∧ t.tb.schedule = s.tb.schedule
      let runsOn := same ∧ t.tb.frameLen = l ∧ t.tb.cadence = s.tb.cadence
      let unmoved := runsOn ∧ t.tb.nextCadenceZero = s.tb.nextCadenceZero
      (s.tb.realign = false → (o ≤ 2 ∨ l ≤ o + 2) → t.tb.realign = false
        ∧ (¬sets → unmoved)
        ∧ (sets → o ≤ 2 → same ∧ t.tb.cadence = 0 ∧ t.tb.frameLen = s.tb.rate.length 0)
        ∧ (sets → 2 < o → runsOn ∧ t.tb.nextCadenceZero = true))
      ∧ (s.tb.realign = false → 2 < o → o + 2 < l → 2 * o < l → unmoved ∧ t.tb.realign = true)
      ∧ (s.tb.realign = false → 2 < o → o + 2 < l → l ≤ 2 * o → boundary)
      ∧ (s.tb.realign = true → l ≤ 2 * o → boundary)
      ∧ (s.tb.realign = true → 2 * o < l → unmoved ∧ t.tb.realign = true)

/-- A PRESENT input becomes ABSENT once the time since its last valid pulse exceeds 1.5 exact nominal lengths (R3): its
marker-seen flag clears (R4); where it is the selected one the hold starts at this house sample and any realignment
pending is dropped, the selection standing (R6); REF_LOSS is present where it is the preferred one (R8), and its revert
timer is then dropped, which otherwise runs where its condition holds (R7). Before that time nothing happens. The two
timers of the selection: when the hold runs out the other input is selected where it is PRESENT, with a realignment
pending, and otherwise the selection goes to FREE (R6); when the revert timer has run 96,000 house samples the
preferred input is selected with a realignment pending, which ends a hold (R7). Nothing but the timebase changes,
unless the newly selected input has had a valid pulse in this house sample at half the frame's length or later: that
pulse counts as coming after the change (R11) and is a frame boundary. The code "never" does not run out (R153). That
the run of valid pulses starts over with the loss is the model's choice (log entry 41). -/
def Obligations.ReferencesAreLostHeldAndReverted : Prop :=
  (∀ (s : State) (i : RefInput) (v : Time), s.Shown → (s.tb.ref i).present = true → (s.tb.ref i).lastValid = some v →
    (10 * since s.counter v ≤ 3 * s.tb.rate.fiveFrames → exec (.referenceLost i) s = .next s)
    ∧ (3 * s.tb.rate.fiveFrames < 10 * since s.counter v → ∃ t, exec (.referenceLost i) s = .next t
      ∧ OnlyTimebase s t
      ∧ t.tb.ref i = { s.tb.ref i with present := false, markerSeen := false, validRun := 0 }
      ∧ t.tb.ref (otherInput i) = s.tb.ref (otherInput i)
      ∧ t.tb.selection = s.tb.selection
      ∧ t.tb.holdSince = (if s.tb.selection = selectionOf i then some s.counter else s.tb.holdSince)
      ∧ t.tb.realign = (if s.tb.selection = selectionOf i then false else s.tb.realign)
      ∧ t.tb.revertSince =
          (if i ≠ s.tb.preference ∧ s.tb.revertive = true ∧ s.tb.selection = selectionOf (otherInput s.tb.preference)
              ∧ (s.tb.ref s.tb.preference).present = true then
            some (s.tb.revertSince.getD s.counter) else none)
      ∧ (t.alarm.point refLossPoint).raw =
          (if i = s.tb.preference then true else (s.alarm.point refLossPoint).raw)
      ∧ t.tb.frameIndex = s.tb.frameIndex ∧ t.tb.frameStart = s.tb.frameStart ∧ t.tb.schedule = s.tb.schedule))
  ∧ (∀ (s : State) (i : RefInput) (h : Time) (n : Nat), s.Shown → s.tb.selection = selectionOf i →
    s.tb.holdSince = some h → intervalSamples s.tb.holdCode = some n → n ≤ since s.counter h →
    ((s.tb.ref (otherInput i)).present = true → ¬s.PulsedLate (otherInput i) →
      exec .referenceHoldExpiry s = .next { s with tb :=
        { s.tb with
          selection := selectionOf (otherInput i), realign := true, holdSince := none
          revertSince := s.revertAfter (otherInput i) } })
    ∧ ((s.tb.ref (otherInput i)).present = true → s.PulsedLate (otherInput i) → ∃ t,
      exec .referenceHoldExpiry s = .next t ∧ t.RealignedOn (otherInput i) s)
    ∧ ((s.tb.ref (otherInput i)).present = false → exec .referenceHoldExpiry s = .next { s with tb :=
      { s.tb with selection := .free, realign := false, holdSince := none, revertSince := none } }))
  ∧ (∀ (s : State), intervalSamples s.tb.holdCode = none → exec .referenceHoldExpiry s = .next s)
  ∧ ∀ (s : State) (r : Time), s.Shown → s.tb.revertSince = some r → 96000 ≤ since s.counter r →
    (¬s.PulsedLate s.tb.preference → exec .revertTimerExpiry s = .next { s with tb :=
      { s.tb with selection := selectionOf s.tb.preference, realign := true, holdSince := none, revertSince := none } })
    ∧ ((s.tb.ref s.tb.preference).present = true → s.PulsedLate s.tb.preference → ∃ t,
      exec .revertTimerExpiry s = .next t ∧ t.RealignedOn s.tb.preference s)

/-- SET_TIMEBASE (R13): a value outside its list is refused with BAD_VALUE and changes nothing; otherwise it is answered
OK, a rate other than the one in effect is pending and the rate in effect cancels a pending one, the three other
settings are taken, and REF_LOSS and the revert condition are evaluated again. A running hold is timed anew from the
house sample of its loss: where the new code's time has passed it runs out at once, as the hold's own expiry does, to
the other input with a realignment pending where that is PRESENT and to FREE otherwise (R6); otherwise the selection and
the frames stand. -/
def Obligations.SetTimebaseTakesFourSettings : Prop :=
  ∀ (s : State) (tag rate pref rev hold : Byte), s.LinkFree →
    ((6 ≤ rate.toNat ∨ 2 ≤ pref.toNat ∨ 2 ≤ rev.toNat) →
      exec (.setTimebase tag rate pref rev hold) s = .next (s.replied 0x10 tag .badValue []))
    ∧ ∀ (r : FrameRate) (p : RefInput) (v : Bool), r.code = rate.toNat → refCode p = pref.toNat →
        flagCode v = rev.toNat → ∃ t b,
        OnlyTimebase s t
        ∧ t.tb = { s.tb with
            pendingRate := if r = s.tb.rate then none else some r
            preference := p, revertive := v, holdCode := hold, revertSince := t.tb.revertSince }
        ∧ t.tb.revertSince =
            (if v = true ∧ s.tb.selection = selectionOf (otherInput p) ∧ (s.tb.ref p).present = true then
              some (s.tb.revertSince.getD s.counter) else none)
        ∧ (s.Shown → (t.alarm.point refLossPoint).raw = !(s.tb.ref p).present)
        ∧ exec .referenceHoldExpiry t = .next b
        ∧ exec (.setTimebase tag rate pref rev hold) s = .next (b.replied 0x10 tag .ok [])
        ∧ ((∀ h n, s.tb.holdSince = some h → intervalSamples hold = some n → since s.counter h < n) → b = t)
        ∧ ∀ (h : Time) (n : Nat) (i : RefInput), s.Shown → s.tb.holdSince = some h → intervalSamples hold = some n →
            n ≤ since s.counter h → s.tb.selection = selectionOf i →
            ((s.tb.ref (otherInput i)).present = false → b = { t with tb :=
              { t.tb with selection := .free, realign := false, holdSince := none, revertSince := none } })
            ∧ ((s.tb.ref (otherInput i)).present = true → ¬s.PulsedLate (otherInput i) → b = { t with tb :=
              { t.tb with
                selection := selectionOf (otherInput i), realign := true, holdSince := none
                revertSince := t.revertAfter (otherInput i) } })
            ∧ ((s.tb.ref (otherInput i)).present = true → s.PulsedLate (otherInput i) →
              b.RealignedOn (otherInput i) t)

/-! ## Frame schedule -/

/-- SCHEDULE (R17): the checks in their order, the first that fails giving the reply and adding nothing; otherwise
ACCEPTED, and the entry stands in the schedule by its due frame, after the entries of the same frame (R16). -/
def Obligations.ScheduleIsCheckedInOrder : Prop :=
  ∀ (s : State) (tag : Byte) (due : FrameIndex) (kind : Byte) (inner : List Byte), s.LinkFree →
    (tag = 0 ∨ s.outstanding < 40) →
    let refused := fun r => exec (.schedule tag due kind inner) s = .next (s.replied 0x05 tag r [])
    (kind ∉ ([0x21, 0x22, 0x24, 0x30, 0x29, 0x28, 0x38] : List Byte) → refused .notSchedulable)
    ∧ (kind ∈ ([0x21, 0x22, 0x24, 0x30, 0x29, 0x28, 0x38] : List Byte) →
      (parseRequest kind inner = none → refused .badLength)
      ∧ ((parseRequest kind inner).isSome = true →
        (tag = 0 → refused .badValue)
        ∧ (tag ≠ 0 →
          (s.tagHeld tag = true → refused .tagBusy)
          ∧ (s.tagHeld tag = false →
            (due.toNat ≤ s.tb.frameIndex.toNat → refused .tooLate)
            ∧ (s.tb.frameIndex.toNat < due.toNat →
              (32 ≤ s.tb.schedule.length → refused .scheduleFull)
              ∧ (s.tb.schedule.length < 32 → ∃ before after,
                  s.tb.schedule = before ++ after
                  ∧ (s.WorkInOrder → (∀ e ∈ before, e.due.toNat ≤ due.toNat) ∧ ∀ e ∈ after, due.toNat < e.due.toNat)
                  ∧ exec (.schedule tag due kind inner) s = .next (State.replied 0x05 tag .accepted []
                      { s with tb :=
                        { s.tb with schedule := before ++ ⟨tag, due, kind, inner⟩ :: after } })))))))

/-- The entries due on a frame run one after another, in schedule order, at the boundary that begins it, whatever it
brings with it (R18). An entry that runs leaves the schedule and its inner request takes effect as the same request,
untagged, from the link would: START, STOP, SELECT_SOURCE, RESET_INTEGRATION, SET_LOUDNESS and MUTE_PROGRAM; a
completion carries its tag, the inner kind, its due frame and the inner result. A SET_DELAY that finds the operation
table full is not carried out; a refusal is the entry's completion; one that is accepted is taken as a tagged SET_DELAY
under the entry's tag, which takes a place in the table while the operation is open, with no completion at the boundary
(R19). None of it waits for the reply place or the receive buffer, or changes them. Shown too for a START of a program
in STANDBY and for one refused with WRONG_STATE. -/
def Obligations.ScheduledRequestsRunAtTheirFrame : Prop :=
  (∀ s : State, s.Shown → s.tb.realign = false → s.tb.frameLen ≤ since s.counter s.tb.frameStart →
    let due := s.tb.schedule.filter fun e => decide (e.due = s.tb.frameIndex + 1)
    (s.WorkInOrder → s.tb.frameIndex.toNat + 1 < 2 ^ 40 → ∃ later, s.tb.schedule = due ++ later)
    ∧ ∃ b : State, exec .frameBoundary { s with tb := { s.tb with schedule := [] } } = .next b
      ∧ b.tb.frameIndex = s.tb.frameIndex + 1
      ∧ exec .frameBoundary s
          = .next (due.foldl State.runEntry { b with tb := { b.tb with schedule := s.tb.schedule } }))
  ∧ (∀ (b : State) (e : SchedEntry) (c : Instr) (r : Request),
    let a := { b with tb := { b.tb with schedule := removeFirst (fun x => x == e) b.tb.schedule } }
    parseRequest e.kind e.body = some r → requestOf c = some (0, r) →
    e.kind ∈ ([0x21, 0x22, 0x24, 0x28, 0x29, 0x38] : List Byte) →
    ∃ (u : State) (res : Result), exec c { a with link := a.link.cleared } = .next (u.replied e.kind 0 res [])
      ∧ b.runEntry e = { u with link :=
          { u.link with
            sizingEnded := b.link.sizingEnded, buffer := b.link.buffer, reply := b.link.reply
            completions := u.link.completions ++ [⟨e.tag, e.kind, res, some e.due, []⟩] } })
  ∧ (∀ (b : State) (e : SchedEntry) (p : Byte) (f : DelayFields),
    let a := { b with tb := { b.tb with schedule := removeFirst (fun x => x == e) b.tb.schedule } }
    let ended := fun (res : Result) (u : State) => { u with link :=
      { u.link with completions := u.link.completions ++ [⟨e.tag, e.kind, res, some e.due, []⟩] } }
    parseRequest e.kind e.body = some (.setDelay p f) →
    let under := fun (u : State) => { u with link :=
      { u.link with sizingEnded := b.link.sizingEnded, buffer := b.link.buffer, reply := b.link.reply } }
    (8 ≤ b.link.ops.length → b.runEntry e = ended .opsFull a)
    ∧ (b.link.ops.length < 8 → e.tag ≠ 0 → a.tagHeld e.tag = false → a.outstanding < 40 →
      ∃ (u : State) (res : Result),
        exec (.setDelay e.tag p f) { a with link := a.link.cleared } = .next (u.replied 0x30 e.tag res [])
        ∧ (res ≠ .accepted → b.runEntry e = ended res (under u))
        ∧ (res = .accepted → b.runEntry e = under u
          ∧ ∀ (q : Fin 16) (x y : Program), p.toNat = q.val → a.program q = some x → x.align.op = none →
              u.program q = some y → y.align.op.isSome = true →
              u.link.ops = insertOp ⟨e.tag, .delay q, b.counter⟩ b.link.ops
              ∧ u.link.completions = b.link.completions)))
  ∧ ∀ (s : State) (e : SchedEntry) (p : Fin 16) (b : Byte), s.Shown → s.tb.realign = false →
    s.tb.frameLen ≤ since s.counter s.tb.frameStart → s.tb.schedule = [e] → e.due = s.tb.frameIndex + 1 →
    b.toNat = p.val → e.kind = 0x21 → e.body = [b] →
    ∃ t, exec .frameBoundary s = .next t ∧ t.tb.frameIndex = e.due ∧ t.tb.schedule = []
      ∧ (∀ x, s.program p = some x → x.state = .standby →
          t.program p = some { x with state := .running, onAir := ⟨1, .rising, 0⟩ }
          ∧ t.link = { s.link with completions := s.link.completions ++ [⟨e.tag, 0x21, .ok, some e.due, []⟩] })
      ∧ (s.program p = none →
          t.program p = none
          ∧ t.link =
            { s.link with completions := s.link.completions ++ [⟨e.tag, 0x21, .wrongState, some e.due, []⟩] })

/-- CANCEL (R20, R119, R136, R184): a tag held by nothing is UNKNOWN_TAG and changes nothing; a schedule entry is
removed with a completion carrying CANCELLED; a check ends with its window's pages returned untested to the tail of the
free list and a CANCELLED completion of its counts. CANCEL of an open delay operation (R136): V becomes the whole part
of D_cur plus P_prog and D_target that whole part, held in the ring; the completion carries CANCELLED with the old V,
the D_cur of that moment and the samples remaining to the old target, rounded up; the tag is free; and the motion goes
on toward the new target, the change taken in the mode SLEW (the rule names none: the model's choice, log entry 46), a
slew whose arrival falls on this house sample having arrived (R130); P_prog and the settings stand. The "all" form ends
every operation of the table in tag order and then removes every schedule entry in schedule order, each with its
CANCELLED completion, and reports how many. A definition it ends reports the pages it held (log entry 37); its fill is
abandoned (R111), the page in progress left part-written, how far being free (log entry 48); every other byte of the
DRAM, those of a page whose test it leaves unfinished among them, is as it was (log entry 19). -/
def Obligations.CancelEndsTheWorkItNames : Prop :=
  (∀ (s : State) (tag target : Byte), s.LinkFree →
    (target ≠ 0 → s.tagHeld target = false →
      exec (.cancel tag target) s = .next (s.replied 0x04 tag .unknownTag []))
    ∧ (∀ e, target ≠ 0 → s.link.ops.any (fun o => o.tag == target) = false → e ∈ s.tb.schedule → e.tag = target →
        s.WorkInOrder →
        exec (.cancel tag target) s = .next (State.replied 0x04 tag .ok []
          { s with
            tb := { s.tb with schedule := s.tb.schedule.filter fun x => x.tag != target }
            link := { s.link with
              completions := s.link.completions ++ [⟨target, e.kind, .cancelled, some e.due, []⟩] } }))
    ∧ (∀ o c, o ∈ s.link.ops → s.WorkInOrder → o.tag = target → o.concern = .check → s.pool.check = some c →
        c.tag = target →
        exec (.cancel tag target) s = .next (State.replied 0x04 tag .ok []
          { s with
            pool := { s.pool with
              check := none, free := s.pool.free ++ s.pool.window, window := [], testRun := 0 }
            link := { s.link with
              ops := s.link.ops.filter fun x => x.tag != target
              completions := s.link.completions ++ [⟨target, 0x34, .cancelled, none,
                bigEndian 2 c.quota ++ bigEndian 2 c.tested ++ bigEndian 2 c.retired⟩] } })))
  ∧ (∀ (s : State) (tag target : Byte) (e : OpEntry) (p : Fin 16) (x : Program) (held : Bool) (v : Nat), s.LinkFree →
    s.program p = some x → e ∈ s.link.ops → s.WorkInOrder → e.tag = target → e.concern = .delay p →
    x.align.op = some ⟨target, v, held⟩ → ∃ (t : State) (y : Program),
      exec (.cancel tag target) s = .next (t.replied 0x04 tag .ok []) ∧ OnlyProgram p s t ∧ t.program p = some y
      ∧ y.align.value = x.align.found / 65536 + x.align.pathLat
      ∧ y.align.target = min ((x.rows - 1) * 4800) (x.align.found / 65536) ∧ y.align.op = none
      ∧ (let a := x.align
         let looked := a.motion = .slewing ∧ a.arriving = true
         let arrived := looked ∧ a.distance < slewStep a.slewRate
         let found := { x with align := { a with
           cur := a.found, motion := if arrived then .steady else a.motion
           arriving := if looked then false else a.arriving } }
         found.TargetMoved .slew (min ((x.rows - 1) * 4800) (a.found / 65536)) y
         ∧ x.ScheduleMoved s.counter y.lineDelay y
         ∧ y.align.pathLat = a.pathLat ∧ y.align.retrim = a.retrim ∧ y.align.slewRate = a.slewRate
         ∧ y.align.autoLimit = a.autoLimit
         ∧ y = { x with channels := y.channels, align := y.align, out := y.out })
      ∧ t.link = { s.link with
          ops := s.link.ops.filter fun x => x.tag != target
          completions := s.link.completions ++ [⟨target, 0x30, .cancelled, none,
            delayReport p ⟨target, v, held⟩ x.align.found x.align.target⟩] })
  ∧ ∀ (s : State) (tag : Byte), s.LinkFree → s.WorkInOrder → (∀ e ∈ s.link.ops, s.OpStands e) →
    (s.link.ops.map OpEntry.concern).Nodup → ∃ t : State,
      exec (.cancel tag 0) s
        = .next (t.replied 0x04 tag .ok (bigEndian 1 (s.link.ops.length + s.tb.schedule.length)))
      ∧ t.tb = { s.tb with schedule := [] }
      ∧ t.link = { s.link with
          ops := []
          completions := s.link.completions ++ s.link.ops.map s.cancelled
            ++ s.tb.schedule.map fun e => ⟨e.tag, e.kind, .cancelled, some e.due, []⟩ }
      ∧ (∀ e ∈ s.link.ops,
          (∀ p, e.concern = .definition p → t.program p = none)
          ∧ (∀ p, e.concern = .delay p → ∃ x y, s.program p = some x ∧ t.program p = some y ∧ y.align.op = none
              ∧ y.align.value = x.align.found / 65536 + x.align.pathLat)
          ∧ (e.concern = .check → t.pool.check = none ∧ t.pool.window = []))
      ∧ t.lanes = s.lanes ∧ s.FillAbandoned (fun q => ∃ e ∈ s.link.ops, e.concern = .definition q) t
      ∧ t.counter = s.counter

/-! ## Lane Units -/

/-- What a lane holds on each entry to a state: SENSING (R25), DARK (R29, R33), PULLING under a class (R27), LOCKED
with its latency measured and its fade-in begun (R32, R40, R41) and HOLDOVER (R33). That the control instant of the
very house sample of an entry to PULLING is not one of the lane's is the model's reading of chapter 2's example (log
entry 39); that the run counts hold their values in DARK is the model's choice (log entry 49). -/
def Obligations.EntriesToTheLaneStates : Prop :=
  ∀ (now : Time) (x : Lane) (c : RateClass),
    x.enterSensing now = { x with
      state := .sensing, fillQ := 0, rho := x.loopClass.nominal, rhoInt := x.loopClass.nominal, lockRun := 0
      pinRun := 0, slip := ⟨96, .steady, 96⟩, windowStart := now, windowCount := 0, lastWindow := none
      returnStart := none }
    ∧ x.enterDark = { x with
      state := .dark, store := [], fillQ := 0, slip := ⟨96, .steady, 96⟩, lastWindow := none, returnStart := none }
    ∧ x.enterPulling c = { x with
      state := .pulling, cls := some c, rho := c.nominal, rhoInt := c.nominal, lockRun := 0, pinRun := 0
      fillQ := 64 * 2 ^ 24, slip := ⟨96, .steady, 96⟩, lastWindow := none, controlTaken := true }
    ∧ (x.enterLocked = { x with
        state := .locked, admission := false, latency32 := x.measured, inUse := min 255 ((x.measured + 16) / 32)
        entryFade := ⟨1, .rising, 0⟩, returnStart := none })
    ∧ (0 < x.rho → (x.measured : Int) = (2 * (((x.fillQ / 2 ^ 16 : Nat) : Int) * 2 ^ 21) + x.rho) / (2 * x.rho) + 1024)
    ∧ x.enterHoldover now = { x with
      state := .holdover, slip := ⟨96, .steady, 96⟩, holdSince := now, returnStart := none }

/-- A lane frame (R22, R23, R25, R26, R29, R33, R36): the clock is PRESENT and the start is kept, on a disabled lane
too; an enabled DARK lane whose clock was ABSENT enters SENSING, with all that R25 says of the entry, its first window
begun with a count of 0; a HOLDOVER lane's return window starts, its count 0; in a state that writes the store the
frame is written in it, the latest 256 kept, and the fill of a store that is read grows by one frame up to 256; an
enabled lane gathers the status bit, the 192nd completing the block and setting the ready flag. The lane's other fields
stand. That the frame starts of the house sample in progress are counted apart, to enter the window's count at its end,
is the model's (log entry 16). What becomes of the programs that read the lane is R133's. -/
def Obligations.LaneFramesAreTakenIn : Prop :=
  ∀ (s : State) (l : Fin 4) (slots : List Sample) (status marker : Bool), ∃ t,
    exec (.laneFrameStart l slots status marker) s = .next t ∧ OnlyLane l s t ∧ (s.Shown → s.LaneFollowed l t) ∧
    let x := s.lane l
    let returns := x.enabled = true ∧ x.clockPresent = false
    let came : Lane :=
      if returns ∧ x.state = .dark then
        { x with
          state := .sensing, fillQ := 0, rho := x.loopClass.nominal, rhoInt := x.loopClass.nominal, lockRun := 0
          pinRun := 0, slip := ⟨96, .steady, 96⟩, windowStart := s.counter, windowCount := 0, lastWindow := none
          returnStart := none }
      else if returns ∧ x.state = .holdover then { x with returnStart := some s.counter, windowCount := 0 }
      else x
    let bits := if x.enabled = false then none
      else if marker then some [status] else x.partialBlock.map (· ++ [status])
    let complete := 192 ≤ (bits.getD []).length
    t.lane l = { came with
      clockPresent := true, lastStart := some s.counter, startsNow := x.startsNow + 1
      store := if x.enabled = true ∧ (x.state ≠ .dark ∨ x.clockPresent = false) then (slots :: x.store).take 256
        else x.store
      fillQ := if x.enabled = true ∧ x.state.reading = true then min (256 * 2 ^ 24) (x.fillQ + 2 ^ 24) else came.fillQ
      partialBlock := if complete then none else if bits = none then x.partialBlock else bits
      keptBlock := if complete then bits.map bytesOfBits else x.keptBlock
      blockReady := if complete then true else x.blockReady }

/-- When 48 house samples have passed since the last lane frame start the clock becomes ABSENT and a partial status
block is discarded (R22, R23), and an enabled lane follows R29's table: SENSING, PULLING and READY go to DARK, LOCKED
goes to HOLDOVER from this house sample, HOLDOVER abandons its return window, DARK and a disabled lane stay. Before
that the event changes nothing. The times of the lane state machine: two classification windows in a row of one class
bring PULLING, another result starts the next window (R26, R27); 100 pinned instants bring SENSING (R34); the holdover
time out brings DARK (in which the run counts hold their values: the model's choice, log entry 49) (in a return window
too, with the clock PRESENT: the model's choice, log entry 42), and a return window of the same class brings LOCKED at
the frozen ratio from a fill of 64 frames, of another class or none SENSING (R33). The programs that read a lane that
enters or leaves LOCKED are trimmed anew, and a moved D_target is a change in their retrim mode (R42, R123, R133). -/
def Obligations.LanesChangeStateAtLossesAndTimes : Prop :=
  (∀ (s : State) (l : Fin 4) (v : Time), (s.lane l).clockPresent = true → (s.lane l).lastStart = some v →
    (since s.counter v < 48 → exec (.laneClockLost l) s = .next s)
    ∧ (48 ≤ since s.counter v → ∃ t, exec (.laneClockLost l) s = .next t ∧ OnlyLane l s t
      ∧ (s.Shown → s.LaneFollowed l t) ∧
      let x := { s.lane l with clockPresent := false, partialBlock := none }
      t.lane l =
        (if x.enabled then
          (match x.state with
           | .sensing | .pulling | .ready => x.enterDark
           | .locked => x.enterHoldover s.counter
           | .holdover => { x with returnStart := none }
           | .dark => x)
         else x)))
  ∧ (∀ (s : State) (l : Fin 4), (s.lane l).state = .sensing → 960 ≤ since s.counter (s.lane l).windowStart → ∃ t,
    exec (.classificationWindowEnd l) s = .next t ∧ OnlyLane l s t ∧ (s.Shown → s.LaneFollowed l t) ∧ t.lane l =
      (match classOfCount (s.lane l).windowCount with
       | some c =>
         if (s.lane l).lastWindow = some (some c) then (s.lane l).enterPulling c
         else { s.lane l with lastWindow := some (some c), windowStart := s.counter, windowCount := 0 }
       | none => { s.lane l with lastWindow := some none, windowStart := s.counter, windowCount := 0 }))
  ∧ (∀ (s : State) (l : Fin 4), (s.lane l).state.reading = true → 100 ≤ (s.lane l).pinRun → ∃ t,
    exec (.pinRunLimit l) s = .next t ∧ OnlyLane l s t ∧ (s.Shown → s.LaneFollowed l t)
    ∧ t.lane l = (s.lane l).enterSensing s.counter)
  ∧ (∀ (s : State) (l : Fin 4) (n : Nat), (s.lane l).state = .holdover →
    intervalSamples (s.lane l).holdCode = some n → n ≤ since s.counter (s.lane l).holdSince → ∃ t,
    exec (.holdoverExpiry l) s = .next t ∧ OnlyLane l s t ∧ (s.Shown → s.LaneFollowed l t)
    ∧ t.lane l = (s.lane l).enterDark)
  ∧ (∀ (s : State) (l : Fin 4) (v : Time), (s.lane l).state = .holdover → (s.lane l).returnStart = some v →
    960 ≤ since s.counter v → ∃ t, exec (.returnWindowEnd l) s = .next t ∧ OnlyLane l s t
    ∧ (s.Shown → s.LaneFollowed l t) ∧ t.lane l =
      (if (classOfCount (s.lane l).windowCount).isSome ∧ classOfCount (s.lane l).windowCount = (s.lane l).cls then
        Lane.enterLocked { s.lane l with fillQ := 64 * 2 ^ 24 } else (s.lane l).enterSensing s.counter))
  ∧ ∀ n : Nat, classOfCount n =
      (if 637 ≤ n ∧ n ≤ 643 then some .k32 else if 878 ≤ n ∧ n ≤ 886 then some .k44
       else if 956 ≤ n ∧ n ≤ 964 then some .k48 else if 1911 ≤ n ∧ n ≤ 1929 then some .k96 else none)

/-- A control instant (R37) in a state that reads the store: e is the fill less 16,384; the integrator grows by e/64
rounded down, the ratio is the integrator plus 16e, both held in the catch range; the run counts follow (R30, R34),
READY falling back to PULLING at an e of 512 or more; the latency is measured (R40) and the in-use latency of a
LOCKED lane set again where it lies 24 or more away (R41), which trims the programs that read the lane anew (R42, R123,
R133). In the other states only the instant is noted as taken. -/
def Obligations.ControlInstantsRunTheRatioLoop : Prop :=
  ∀ (s : State) (l : Fin 4), s.counter.toNat % 48 = 0 → (s.lane l).controlTaken = false → ∃ t,
    exec (.controlInstant l) s = .next t ∧ OnlyLane l s t ∧ (s.Shown → s.LaneFollowed l t) ∧
    let x := s.lane l
    let e : Int := ((x.fillQ / 2 ^ 16 : Nat) : Int) - 16384
    let lo := x.loopClass.nominal - x.loopClass.catchRange
    let hi := x.loopClass.nominal + x.loopClass.catchRange
    let i := max lo (min hi (x.rhoInt + e / 64))
    let rho := max lo (min hi (i + 16 * e))
    let lat := ((2 * (((x.fillQ / 2 ^ 16 : Nat) : Int) * 2 ^ 21) + rho) / (2 * rho)).toNat + 1024
    t.lane l =
      (if x.state.reading then
        { x with
          controlTaken := true, rhoInt := i, rho := rho, latency32 := lat
          pinRun := if i = hi ∨ i = lo then x.pinRun + 1 else 0
          lockRun := if x.state = .locked then x.lockRun else if e.natAbs < 512 then x.lockRun + 1 else 0
          state := if x.state = .locked then .locked else if e.natAbs < 512 then x.state else .pulling
          inUse := if x.state = .locked ∧ 24 ≤ ((lat : Int) - 32 * x.inUse).natAbs then min 255 ((lat + 16) / 32)
            else x.inUse }
       else { x with controlTaken := true })

/-- The lock criterion in PULLING brings LOCKED in AUTO or with a stored admission, and READY otherwise; with a pin run
count of 100 it is not taken (R30). LANE_ADMIT is OK in every state: it brings a READY lane to LOCKED, is stored in
SENSING and PULLING, and has no effect otherwise (R31). The programs that read a lane that enters LOCKED are trimmed
anew, and a moved D_target is a change in their retrim mode (R42, R123, R133). -/
def Obligations.LanesLockByCriterionAndAdmission : Prop :=
  (∀ (s : State) (l : Fin 4), (s.lane l).state = .pulling → 500 ≤ (s.lane l).lockRun → ∃ t,
    exec (.lockCriterionMet l) s = .next t ∧ OnlyLane l s t ∧ (s.Shown → s.LaneFollowed l t) ∧ t.lane l =
      (if 100 ≤ (s.lane l).pinRun then s.lane l
       else if (s.lane l).oneShot = false ∨ (s.lane l).admission = true then (s.lane l).enterLocked
       else { s.lane l with state := .ready }))
  ∧ (∀ (s : State) (tag b : Byte), s.LinkFree → 4 ≤ b.toNat →
    exec (.laneAdmit tag b) s = .next (s.replied 0x19 tag .badValue []))
  ∧ ∀ (s : State) (tag b : Byte) (l : Fin 4), s.LinkFree → b.toNat = l.val → ∃ t,
    exec (.laneAdmit tag b) s = .next (t.replied 0x19 tag .ok []) ∧ OnlyLane l s t ∧ (s.Shown → s.LaneFollowed l t)
    ∧ t.lane l =
      (match (s.lane l).state with
       | .ready => (s.lane l).enterLocked
       | .sensing | .pulling =>
         if (s.lane l).enabled then { s.lane l with admission := true } else s.lane l
       | .dark | .locked | .holdover => s.lane l)

/-- The step of a slip (R39): in the house sample after the fade-out the whole part of the fill becomes 64 and the
fraction stays, the fade rises from the next sample, and in LOCKED the slip is counted, holding at 65,535, with one
LANE_SLIP event (R45). The ends of the two lane fades leave them steady at full gain, and at the end of a slip's the
test resumes: a fill below 8 or above 224 lane frames begins another slip. -/
def Obligations.SlipsStepAndLaneFadesEnd : Prop :=
  (∀ (s : State) (l : Fin 4), s.Shown → (s.lane l).slip = ⟨0, .falling, 0⟩ → (s.lane l).state.reading = true → ∃ t,
    exec (.slipStep l) s = .next t ∧ OnlyLane l s t ∧ t.programs = s.programs ∧ t.link = s.link
    ∧ t.lane l = { s.lane l with
        fillQ := 64 * 2 ^ 24 + (s.lane l).fillQ % 2 ^ 24, slip := ⟨0, .rising, 0⟩
        slipCount := if (s.lane l).state = .locked then min 65535 ((s.lane l).slipCount + 1)
          else (s.lane l).slipCount }
    ∧ t.alarm = (if (s.lane l).state = .locked then s.alarm.event s.counter (lanePoint 2 l) else s.alarm))
  ∧ (∀ (s : State) (l : Fin 4), s.Shown → (s.lane l).entryFade.dir = .rising → (s.lane l).entryFade.prev = 96 →
    exec (.lockFadeInEnd l) s = .next (s.setLane l
      { s.lane l with entryFade := { (s.lane l).entryFade with dir := .steady } }))
  ∧ ∀ (s : State) (l : Fin 4), s.Shown → (s.lane l).slip.dir = .rising → (s.lane l).slip.prev = 96 →
    exec (.slipFadeInEnd l) s = .next (s.setLane l
      { s.lane l with slip :=
        if (s.lane l).state.reading = true
            ∧ ((s.lane l).fillQ / 2 ^ 16 < 2048 ∨ 57344 < (s.lane l).fillQ / 2 ^ 16) then ⟨96, .falling, 96⟩
        else ⟨96, .steady, 96⟩ })

/-- SET_LANE (R28, R46) and LANE_RESTART (R35): a lane outside 0 to 3, an enable or an admission value outside its list
is BAD_VALUE and changes nothing; enabling with the clock PRESENT enters SENSING, disabling goes to DARK and clears
admission and status blocks, AUTO brings a READY lane to LOCKED, the holdover code is taken, and a holdover whose new
time has passed ends in DARK. LANE_RESTART of a disabled lane is WRONG_STATE; of an enabled one it clears the slip
count, the admission and the store, and enters SENSING, or stays in DARK without a clock. In DARK the run counts hold
their values (the model's choice, log entry 49). The programs that read a lane that enters or leaves LOCKED are trimmed
anew, and a moved D_target is a change in their retrim mode (R42, R123, R133). -/
def Obligations.LaneRequestsSetAndRestart : Prop :=
  (∀ (s : State) (tag b e a h : Byte), s.LinkFree → (4 ≤ b.toNat ∨ 2 ≤ e.toNat ∨ 2 ≤ a.toNat) →
    exec (.setLane tag b e a h) s = .next (s.replied 0x18 tag .badValue []))
  ∧ (∀ (s : State) (tag b e a h : Byte) (l : Fin 4), s.LinkFree → b.toNat = l.val → e.toNat < 2 → a.toNat < 2 →
    ∃ t, exec (.setLane tag b e a h) s = .next (t.replied 0x18 tag .ok []) ∧ OnlyLane l s t
      ∧ (s.Shown → s.LaneFollowed l t) ∧
      let x := s.lane l
      let taken := fun y : Lane => { y with oneShot := decide (a = 1), holdCode := h }
      t.lane l =
        (if e = 0 ∧ x.enabled = true then
          taken { x.enterDark with
            enabled := false, admission := false, keptBlock := none, partialBlock := none, blockReady := false }
         else if e = 1 ∧ x.enabled = false ∧ x.clockPresent = true then
          taken (Lane.enterSensing s.counter { x with enabled := true })
         else
          let y := taken { x with enabled := decide (e = 1) }
          match x.state with
          | .ready => if a = 0 then y.enterLocked else y
          | .holdover => if timeOut h s.counter x.holdSince then y.enterDark else y
          | .dark | .sensing | .pulling | .locked => y))
  ∧ (∀ (s : State) (tag b : Byte), s.LinkFree → 4 ≤ b.toNat →
    exec (.laneRestart tag b) s = .next (s.replied 0x1A tag .badValue []))
  ∧ (∀ (s : State) (tag b : Byte) (l : Fin 4), s.LinkFree → b.toNat = l.val → (s.lane l).enabled = false →
    exec (.laneRestart tag b) s = .next (s.replied 0x1A tag .wrongState []))
  ∧ ∀ (s : State) (tag b : Byte) (l : Fin 4), s.LinkFree → b.toNat = l.val → (s.lane l).enabled = true →
    ∃ t, exec (.laneRestart tag b) s = .next (t.replied 0x1A tag .ok []) ∧ OnlyLane l s t
      ∧ (s.Shown → s.LaneFollowed l t) ∧
      let x := { s.lane l with store := [], fillQ := 0, slipCount := 0, admission := false }
      t.lane l =
        (if x.clockPresent then x.enterSensing s.counter
         else { x.enterDark with rho := x.loopClass.nominal, rhoInt := x.loopClass.nominal })

/-! ## Programs -/

/-- A request that names a program is judged against the index first and then against the program's state (R50, and the
tables of R88, R126, R139, R144 and R149): an index outside 0 to 15 is BAD_VALUE; a VACANT program is WRONG_STATE for
every request but DEFINE_PROGRAM and READ_PROGRAM; a defined one for DEFINE_PROGRAM, one in PREPARING for START, STOP
and SET_CHANNEL_SOURCE, one in RUNNING for RELEASE. A refusal changes nothing but the reply place. -/
def Obligations.ProgramRequestsAreJudgedByIndexAndState : Prop :=
  ∀ (s : State) (c : Instr) (tag b : Byte) (r : Request), s.LinkFree → requestOf c = some (tag, r) →
    programNamed r = some b → (opensOp r = true → s.tagFree tag) →
    (∀ p f, r = .muteProgram p f → f.toNat < 2) →
    let refused := fun res => exec c s = .next (s.replied (requestKind r) tag res [])
    (16 ≤ b.toNat → refused .badValue)
    ∧ ∀ p : Fin 16, b.toNat = p.val →
      (s.program p = none → requestKind r ≠ 0x20 → requestKind r ≠ 0x26 → refused .wrongState)
      ∧ ∀ x, s.program p = some x →
        (requestKind r = 0x20 → refused .wrongState)
        ∧ (x.state = .preparing → requestKind r ∈ ([0x21, 0x22, 0x25] : List Byte) → refused .wrongState)
        ∧ (x.state = .running → requestKind r = 0x23 → refused .wrongState)

/-- DEFINE_PROGRAM is checked in R51's order, and the first check that fails gives the reply and changes nothing: the
tag, the channel count, roles, sources, modes and egresses, the claims, the DRAM and the free pages. A maximum delay
above 10,000 ms counts as 10,000 ms; NO_SPACE reports the free pages and the sized total. -/
def Obligations.DefinitionsAreCheckedInOrder : Prop :=
  ∀ (s : State) (tag b : Byte) (d : BitVec 16) (defs : List ChannelDef) (p : Fin 16), s.LinkFree →
    b.toNat = p.val → s.program p = none → (tag = 0 ∨ s.outstanding < 40) →
    let refused := fun res report => exec (.defineProgram tag b d defs) s = .next (s.replied 0x20 tag res report)
    let ms := min 10000 d.toNat
    let rows := if ms = 0 then 0 else (ms * 48 + 4799) / 4800 + 1
    (tag ≠ 0 → s.tagHeld tag = true → refused .tagBusy [])
    ∧ (tag ≠ 0 → s.tagHeld tag = false → 8 ≤ s.link.ops.length → refused .opsFull [])
    ∧ (s.tagFree tag →
      ((defs = [] ∨ 8 < defs.length ∨ (∃ k ∈ defs, ¬ k.InLists) ∨ ¬ (defs.map ChannelDef.role).Nodup) →
        refused .badValue [])
      ∧ (defs ≠ [] → defs.length ≤ 8 → (∀ k ∈ defs, k.InLists) → (defs.map ChannelDef.role).Nodup →
        ((¬ (defs.map ChannelDef.egress).Nodup ∨ ∃ k ∈ defs, ∃ claim, s.claims[k.egress.toNat]? = some (some claim)) →
          refused .slotTaken [])
        ∧ ((defs.map ChannelDef.egress).Nodup → (∀ k ∈ defs, s.claims[k.egress.toNat]? = some none) →
          (0 < rows → s.pool.sized = 0 → refused .notFitted [])
          ∧ (0 < rows → 0 < s.pool.sized → s.pool.free.length < defs.length * rows →
            refused .noSpace (bigEndian 2 s.pool.free.length ++ bigEndian 2 s.pool.sized))
          ∧ (rows = 0 ∨ (0 < s.pool.sized ∧ defs.length * rows ≤ s.pool.free.length) → ∃ t : State,
            exec (.defineProgram tag b d defs) s = .next (t.replied 0x20 tag .accepted [])))))

/-- An accepted DEFINE_PROGRAM (R52, R53, R58, R89, R90, R105, R109 to R111, R123, R140, R150): the record is filled
from the request and the blocks' defaults, each channel on its primary with its demand and its desired selection worked
out, a changeover begun where that is the backup, and its trim set directly; the egresses are claimed; c × A pages
leave the head of the free list for the ring and the fill queue; the tag is entered. With A = 0 the program is in
STANDBY at once and the tag's completion carries DONE. That the demand is worked out from the protections and contacts
as they stand at this instant of the house sample is the model's choice (log entry 50). -/
def Obligations.DefinitionsAreTakenWhole : Prop :=
  ∀ (s : State) (tag b : Byte) (d : BitVec 16) (defs : List ChannelDef) (p : Fin 16), s.LinkFree → s.Shown →
    b.toNat = p.val → s.program p = none → s.tagFree tag → defs ≠ [] → defs.length ≤ 8 → (∀ k ∈ defs, k.InLists) →
    (defs.map ChannelDef.role).Nodup → (defs.map ChannelDef.egress).Nodup →
    (∀ k ∈ defs, s.claims[k.egress.toNat]? = some none) →
    let ms := min 10000 d.toNat
    let rows := if ms = 0 then 0 else (ms * 48 + 4799) / 4800 + 1
    let n := defs.length * rows
    (rows = 0 ∨ (0 < s.pool.sized ∧ n ≤ s.pool.free.length)) →
    ∃ (t : State) (x : Program), exec (.defineProgram tag b d defs) s = .next (t.replied 0x20 tag .accepted [])
      ∧ t.program p = some x
      ∧ x.state = (if rows = 0 then .standby else .preparing) ∧ x.maxDelay = ms ∧ x.rows = rows
      ∧ x.onAir = ⟨0, .steady, 0⟩ ∧ x.ring = (s.pool.free.take n).map (fun g => ⟨g, false⟩)
      ∧ x.openDef = (if tag = 0 ∨ rows = 0 then none else some tag)
      ∧ x.align.value = 0 ∧ x.align.target = 0 ∧ x.align.cur = 0 ∧ x.align.motion = .steady ∧ x.align.retrim = .auto
      ∧ x.align.pathLat = pathLatency s.lanes x.channels
      ∧ x.loud.ring = [] ∧ x.loud.hist = [] ∧ x.loud.start = s.counter ∧ x.loud.paused = false
      ∧ x.loud.momentary = none ∧ x.loud.shortTerm = none ∧ x.loud.integrated = none
      ∧ x.corr.settings = ⟨.off, -230, 100, 200, 1, 5, 200, 50, 0, 4800⟩ ∧ x.corr.gain = 0 ∧ x.corr.desired = none
      ∧ x.out.schedule = [] ∧ x.out.applied = 0 ∧ x.out.pad = 0 ∧ x.out.muted = false
      ∧ x.out.muteFade = ⟨480, .steady, 480⟩
      ∧ x.channels.length = defs.length
      ∧ (∀ (i : Nat) (ch : Channel) (k : ChannelDef), x.channels[i]? = some ch → defs[i]? = some k →
          ch.role.code = k.role.toNat ∧ ch.primary.byte = k.primary ∧ ch.mode.code = k.mode.toNat
          ∧ ch.egress.byte = k.egress ∧ ch.backup.map Source.byte = (if k.backup = 0xFF then none else some k.backup)
          ∧ ch.current = .primary ∧ ch.inUse = ch.primary ∧ ch.demand = s.alarm.demandFor p ch
          ∧ ch.desired = (if ch.backup.isSome ∧ (ch.mode = .forceBackup ∨ (ch.mode = .auto ∧ ch.demand = true)) then
              .backup else .primary)
          ∧ ch.coFade = (if ch.desired = .backup then ⟨479, .falling, 480⟩ else ⟨480, .steady, 480⟩)
          ∧ ch.trimFade = ⟨480, .steady, 480⟩
          ∧ ch.trim = (if (s.lane ch.primary.lane).state = .locked then
              x.align.pathLat - (s.lane ch.primary.lane).inUse else 0))
      ∧ (∀ i : Fin 64, t.claims[i.val]'i.isLt =
          (match defs.findIdx? fun k => k.egress.toNat == i.val with
           | some c => some ⟨p, c⟩
           | none => s.claims[i.val]'i.isLt))
      ∧ t.pool = { s.pool with
          free := s.pool.free.drop n, fill := s.pool.fill ++ (s.pool.free.take n).map (fun g => ⟨p, g⟩)
          fillSince := if s.pool.fill = [] then s.counter else s.pool.fillSince }
      ∧ t.link = (if tag = 0 then s.link
          else if rows = 0 then
            { s.link with completions := s.link.completions
                ++ [⟨tag, 0x20, .done, none, bigEndian 1 p.val ++ [0, 0] ++ [0] ++ [0, 0]⟩] }
          else { s.link with ops := insertOp ⟨tag, .definition p, s.counter⟩ s.link.ops })
      ∧ (∀ q, q ≠ p → t.program q = s.program q) ∧ t.lanes = s.lanes ∧ t.tb = s.tb ∧ t.dram = s.dram
      ∧ t.counter = s.counter ∧ KeepsSettings s.alarm t.alarm
      ∧ ∀ pt, pt ≠ progPoint 4 p → t.alarm.point pt = s.alarm.point pt

/-- START and STOP (R50, R55, R56) and the end of the on-air fade, in a state whose conditions are shown: START in
STANDBY enters RUNNING with the fade's first step from 0, in RUNNING it turns a falling fade; STOP in RUNNING makes
the fade fall from the level it has, one step in each house sample from the next on, so that from full level it is at
0, and the program in STANDBY, 480 house samples after the STOP; at level 0 a falling fade brings STANDBY, at 480 a
rising one is steady. Nothing else changes. Model's choices: that the STOP's own house sample keeps the level it has
(log entry 27), and that a START's turn counts from the level of the house sample before (log entry 15). -/
def Obligations.ProgramsStartStopAndFade : Prop :=
  ∀ (s : State) (tag b : Byte) (p : Fin 16) (x : Program), s.Shown → b.toNat = p.val → s.program p = some x →
    (s.LinkFree → x.state ≠ .preparing →
      exec (.start tag b) s = .next ((s.setProgram p (some
        (if x.state = .standby then { x with state := .running, onAir := ⟨1, .rising, 0⟩ }
         else if x.onAir.dir = .falling then
          { x with onAir := ⟨min 480 (x.onAir.prev + 1), .rising, x.onAir.prev⟩ }
         else x))).replied 0x21 tag .ok []))
    ∧ (s.LinkFree → x.state ≠ .preparing →
      exec (.stop tag b) s = .next ((s.setProgram p (some
        (if x.state = .running ∧ x.onAir.dir ≠ .falling then { x with onAir := { x.onAir with dir := .falling } }
         else x))).replied 0x22 tag .ok []))
    ∧ exec (.onAirFadeEnd p) s = .next (s.setProgram p (some
        (if x.state = .running ∧ x.onAir.dir = .falling ∧ x.onAir.level = 0 then
          { x with state := .standby, onAir := { x.onAir with dir := .steady } }
         else if x.onAir.dir = .rising ∧ x.onAir.level = 480 then { x with onAir := { x.onAir with dir := .steady } }
         else x)))

/-- RELEASE in STANDBY or PREPARING (R54, R57, R112, R169), and the CANCEL of a definition in PREPARING (R54): the
record is VACANT; suspect pages go to the retired list, the others to the tail of the free list, in ring order, and the
program's pages leave the fill queue, the one whose fill is in progress left part-written (R111; how far is free, log
entry 48) and every other byte of the DRAM as it was; its claims are free; its six points are at rest, a raw condition
that was present recorded as gone absent at this house sample (R157), and leave the notice queue; and the open
operation ends, its entry leaving the operation table. A RELEASE also removes the schedule entries that name the
program, the ABORTED completion first and the CANCELLED ones after it. That a RELEASE in PREPARING ends the
definition's operation alone, and that an ended definition reports the pages it held, is the model's reading (log entry
37). -/
def Obligations.ReleasedProgramsGiveEverythingBack : Prop :=
  ∀ (s : State) (tag b : Byte) (p : Fin 16) (x : Program), s.LinkFree → s.program p = some x →
    let vacated := fun t : State =>
      t.program p = none ∧ (∀ q, q ≠ p → t.program q = s.program q)
      ∧ t.pool.free = s.pool.free ++ (x.ring.filter fun e => !e.suspect).map PageEntry.page
      ∧ t.pool.retired = s.pool.retired ++ (x.ring.filter fun e => e.suspect).map PageEntry.page
      ∧ t.pool.fill = s.pool.fill.filter (fun e => e.program != p) ∧ t.pool.sized = s.pool.sized
      ∧ (∀ i : Fin 64, t.claims[i.val]'i.isLt =
          if (s.claims[i.val]'i.isLt).map Claim.program = some p then none else s.claims[i.val]'i.isLt)
      ∧ (∀ pt, t.alarm.point pt = if pointOfProgram p pt = true then
          (let x := s.alarm.point pt
           { Point.reset with
             lastRaw := if x.raw then some s.counter else x.lastRaw
             lastEvent := x.lastEvent
             since := if x.raw then s.counter else x.since })
         else s.alarm.point pt)
      ∧ t.alarm.notices = s.alarm.notices.filter (fun n => !pointOfProgram p n.point)
      ∧ t.lanes = s.lanes ∧ s.FillAbandoned (fun q => q = p) t ∧ t.counter = s.counter ∧ KeepsSettings s.alarm t.alarm
    let named := fun e : SchedEntry => e.body.head?.map BitVec.toNat == some p.val
    let ended : Byte → Byte → Result → List Byte → Completion := fun k g r l => ⟨g, k, r, none, l⟩
    (b.toNat = p.val → x.state ≠ .running → ∃ t : State, exec (.release tag b) s = .next (t.replied 0x23 tag .ok [])
      ∧ vacated t ∧ t.tb = { s.tb with schedule := s.tb.schedule.filter fun e => !named e }
      ∧ t.link = { s.link with
          ops := (match x.openDef, x.align.op with
              | some g, _ => removeFirst (fun e => e.tag == g) s.link.ops
              | none, some o => removeFirst (fun e => e.tag == o.tag) s.link.ops
              | none, none => s.link.ops)
          completions := s.link.completions
            ++ (match x.openDef, x.align.op with
                | some g, _ => [ended 0x20 g .aborted
                    (bigEndian 1 p.val ++ bigEndian 2 x.maxDelay ++ bigEndian 1 x.rows ++ bigEndian 2 x.ring.length)]
                | none, some o => [ended 0x30 o.tag .aborted (delayReport p o x.align.cur x.align.target)]
                | none, none => [])
            ++ (s.tb.schedule.filter named).map fun e => ⟨e.tag, e.kind, .cancelled, some e.due, []⟩ })
    ∧ ∀ (target : Byte) (e : OpEntry), s.WorkInOrder → e ∈ s.link.ops → e.tag = target → e.concern = .definition p →
      ∃ t : State, exec (.cancel tag target) s = .next (t.replied 0x04 tag .ok []) ∧ vacated t ∧ t.tb = s.tb
        ∧ t.link = { s.link with
            ops := s.link.ops.filter fun x => x.tag != target
            completions := s.link.completions ++ [ended 0x20 target .cancelled
              (bigEndian 1 p.val ++ bigEndian 2 x.maxDelay ++ bigEndian 1 x.rows ++ bigEndian 2 x.ring.length)] }

/-- SELECT_SOURCE and SET_CHANNEL_SOURCE (R60, R61, R62, R64, R65): a mode, a source or a channel outside its list is
BAD_VALUE and changes nothing; the channels named take the mode, or the channel its sources and its demand from the new
primary's lane; the desired selection is worked out again, and where it, or the source it names, differs from what is
in use and the changeover fade is steady, a changeover begins with its first step. That the new sources' demand is
worked out from the protections and contacts as they stand at this instant of the house sample is the model's choice
(log entry 50). -/
def Obligations.SelectionsBeginChangeovers : Prop :=
  ∀ (s : State) (tag b c : Byte) (p : Fin 16) (x : Program), s.Shown → s.LinkFree → b.toNat = p.val →
    s.program p = some x →
    let judged := fun ch : Channel =>
      let want : Pick :=
        if ch.backup.isSome ∧ (ch.mode = .forceBackup ∨ (ch.mode = .auto ∧ ch.demand = true)) then .backup
        else .primary
      let source := if want = .backup then ch.backup.getD ch.primary else ch.primary
      { ch with
        desired := want
        coFade := if (want ≠ ch.current ∨ source ≠ ch.inUse) ∧ ch.coFade.dir = .steady then
            ⟨ch.coFade.prev - 1, .falling, ch.coFade.prev⟩ else ch.coFade }
    (∀ m : Byte, (3 ≤ m.toNat ∨ (c ≠ 0xFF ∧ x.channels.length ≤ c.toNat)) →
      exec (.selectSource tag b c m) s = .next (s.replied 0x24 tag .badValue []))
    ∧ (∀ (m : Byte) (mode : SelectMode), mode.code = m.toNat → (c = 0xFF ∨ c.toNat < x.channels.length) →
      exec (.selectSource tag b c m) s = .next ((s.setProgram p (some { x with
        channels := x.channels.mapIdx fun i ch =>
          if (c = 0xFF ∨ i = c.toNat) ∧ ch.mode ≠ mode then judged { ch with mode := mode } else ch })).replied
            0x24 tag .ok []))
    ∧ (x.state ≠ .preparing → ∀ pri bak : Byte,
      (x.channels.length ≤ c.toNat ∨ 64 ≤ pri.toNat ∨ (64 ≤ bak.toNat ∧ bak ≠ 0xFF) →
        exec (.setChannelSource tag b c pri bak) s = .next (s.replied 0x25 tag .badValue []))
      ∧ ∀ (u : Source) (v : Option Source), c.toNat < x.channels.length → u.byte = pri →
        (v.map Source.byte).getD 0xFF = bak →
        exec (.setChannelSource tag b c pri bak) s = .next ((s.setProgram p (some { x with
          channels := x.channels.mapIdx fun i ch =>
            if i = c.toNat then
              judged { ch with
                primary := u, backup := v
                demand := (s.alarm.point (lanePoint 0 u.lane)).applied || (s.alarm.point (lanePoint 1 u.lane)).applied
                  || (s.alarm.point (progPoint 0 p)).applied || s.alarm.forceCovers p }
            else ch })).replied 0x25 tag .ok []))

/-- The switch and the end of a changeover (R62, R123, R125): in the house sample after the fade-out the current
selection becomes the desired one and the source in use the source the record names for it, the fade rises by its
first step, the trim is set directly for the new lane and P_prog and D_target are those of the lanes in use, a moved
D_target a change in the program's retrim mode (R133); a live
channel whose own switch falls on the same house sample has its trim set directly too, with no trim step; after the
fade-in the fade is steady and the channel is compared again. Before those samples nothing happens. A trim step
(R124) sets the trim in effect to the required trim in the house sample after its fade-out, and ends and is compared
in the same way. -/
def Obligations.ChangeoversAndTrimStepsSwitchAndEnd : Prop :=
  ∀ (s : State) (p : Fin 16) (c : Fin 8) (x : Program) (ch : Channel), s.program p = some x →
    x.channels[c.val]? = some ch →
    ((ch.coFade.dir ≠ .falling ∨ ch.coFade.prev ≠ 0) → exec (.changeoverSwitch p c) s = .next s)
    ∧ (ch.coFade.dir = .falling → ch.coFade.prev = 0 →
      ∃ (t : State) (y : Program) (z : Channel), exec (.changeoverSwitch p c) s = .next t
      ∧ OnlyProgram p s t ∧ t.program p = some y ∧ y.channels[c.val]? = some z
      ∧ z.current = ch.desired
      ∧ z.inUse = (if ch.desired = .backup then ch.backup.getD ch.primary else ch.primary)
      ∧ z.coFade = ⟨1, .rising, 0⟩ ∧ z.desired = ch.desired ∧ z.primary = ch.primary ∧ z.backup = ch.backup
      ∧ z.mode = ch.mode ∧ z.demand = ch.demand ∧ z.egress = ch.egress ∧ z.role = ch.role
      ∧ z.live = decide ((s.lane z.inUse.lane).state = .locked)
      ∧ z.trim = (if (s.lane z.inUse.lane).state = .locked then y.align.pathLat - (s.lane z.inUse.lane).inUse else 0)
      ∧ y.align.pathLat = pathLatency s.lanes y.channels ∧ y.align.value = x.align.value
      ∧ y.align.target = min ((x.rows - 1) * 4800) (x.align.value - y.align.pathLat)
      ∧ x.Retrimmed s.counter s.lanes y
      ∧ ∀ i w, i ≠ c.val → x.channels[i]? = some w → ∃ v, y.channels[i]? = some v ∧ v.inUse = w.inUse
          ∧ v.current = w.current ∧ v.coFade = w.coFade
          ∧ (w.coFade.dir ≠ .steady → w.coFade.prev = 0 → (s.lane w.inUse.lane).state = .locked →
              v.trim = y.align.pathLat - (s.lane w.inUse.lane).inUse ∧ v.trimFade = w.trimFade))
    ∧ (s.Shown → exec (.changeoverEnd p c) s = .next (s.setProgram p (some { x with
        channels := x.channels.set c.val
          (if ch.coFade.dir = .rising ∧ ch.coFade.prev = 480 then
            { ch with coFade :=
              if ch.desired ≠ ch.current
                  ∨ (if ch.desired = .backup then ch.backup.getD ch.primary else ch.primary) ≠ ch.inUse then
                ⟨479, .falling, 480⟩
              else { ch.coFade with dir := .steady } }
           else ch) })))
    ∧ (s.Shown → exec (.trimStep p c) s = .next (s.setProgram p (some { x with
        channels := x.channels.set c.val
          (if ch.trimFade.dir = .falling ∧ ch.trimFade.prev = 0 then
            { ch with trim := ch.required, trimFade := ⟨1, .rising, 0⟩ } else ch) })))
    ∧ (s.Shown → exec (.trimStepEnd p c) s = .next (s.setProgram p (some { x with
        channels := x.channels.set c.val
          (if ch.trimFade.dir = .rising ∧ ch.trimFade.prev = 480 then
            { ch with trimFade :=
              if ch.live = true ∧ ch.trim ≠ ch.required then ⟨479, .falling, 480⟩
              else { ch.trimFade with dir := .steady } }
           else ch) })))

/-! ## Delay memory -/

/-- The end of memory sizing, taken once, gives the pages of the device found, all free and in index order (R106, R191;
that one command ends it is log entry 31). The end of a page's zero-fill (R53, R111), due 4 house samples after it
began: the page, where no cell has failed (log entry 18), reads as silence with good check codes, and every byte outside
its address range (log entry 19's layout) as before; the page leaves the fill queue; the program's last page brings it
to STANDBY with its write buffers at zero and a tagged definition DONE. -/
def Obligations.SizingAndZeroFillEnd : Prop :=
  (∀ (s : State) (device : Device), exec (.memorySizingEnd device) s = .next
    (if s.link.sizingEnded then s
     else
      let n := match device with
        | .none => 0
        | .mib64 => 3072
        | .mib128 => 6144
      { s with
        pool := { s.pool with device := device, sized := n, free := List.range n, retired := [], window := [] }
        link := { s.link with sizingEnded := true } }))
  ∧ ∀ (s : State) (p : Fin 16) (page : Nat) (rest : List FillEntry), s.Shown → s.pool.fill = ⟨p, page⟩ :: rest →
    (since s.counter s.pool.fillSince < 4 → exec .zeroFillPageEnd s = .next s)
    ∧ (4 ≤ since s.counter s.pool.fillSince → ∃ t : State, exec .zeroFillPageEnd s = .next t
      ∧ (∀ group, group < 600 → readGroup t.dram [] page group = List.replicate 8 0
          ∧ groupChecks t.dram [] page group = true)
      ∧ (∀ a, (a < page * 15000 ∨ page * 15000 + 15000 ≤ a) → Dram.read t.dram a = Dram.read s.dram a)
      ∧ t.pool = { s.pool with fill := rest, fillSince := s.counter }
      ∧ ((∃ e ∈ rest, e.program = p) → t.programs = s.programs ∧ t.link = s.link)
      ∧ (∀ x, (∀ e ∈ rest, e.program ≠ p) → s.program p = some x →
          t.program p = some { x with
            state := .standby, openDef := none, loud := { x.loud with standbyAt := some s.counter }
            channels := x.channels.map fun ch => { ch with writeBuf := List.replicate 8 0 } }
          ∧ t.link =
            (match x.openDef with
             | none => s.link
             | some g => { s.link with
                 ops := removeFirst (fun e => e.tag == g) s.link.ops
                 completions := s.link.completions ++ [⟨g, 0x20, .done, none,
                   bigEndian 1 p.val ++ bigEndian 2 x.maxDelay ++ bigEndian 1 x.rows ++ bigEndian 2 x.ring.length⟩] }))
      ∧ (∀ q, q ≠ p → t.program q = s.program q) ∧ t.alarm = s.alarm ∧ t.claims = s.claims ∧ t.lanes = s.lanes
      ∧ t.tb = s.tb)

/-- CHECK_MEMORY (R117) is NOT_FITTED with nothing sized and WRONG_STATE while a check runs; accepted, its quota is the
free page count and the first window of up to 16 pages leaves the head of the free list; with no free page the quota is
0 and the check is DONE at once. The end of a page's test (R113, R118), after 24 house samples: the page holds 0xAA in
every byte and every other byte is as before; a page with a failed cell is retired, another goes to the tail of the
free list; the counts follow. With its window empty the check takes the next one, or is DONE where the quota is taken
or no page is free. That a page fails for a stuck cell and for nothing else is log entry 18, its address range log
entry 19. -/
def Obligations.MemoryChecksTestPages : Prop :=
  (∀ (s : State) (tag : Byte), s.LinkFree → s.tagFree tag →
    (s.pool.sized = 0 → exec (.checkMemory tag) s = .next (s.replied 0x34 tag .notFitted []))
    ∧ (0 < s.pool.sized → s.pool.check.isSome = true →
        exec (.checkMemory tag) s = .next (s.replied 0x34 tag .wrongState []))
    ∧ (0 < s.pool.sized → s.pool.check = none → s.pool.window = [] → s.pool.free ≠ [] →
        let n := min 16 s.pool.free.length
        exec (.checkMemory tag) s = .next (State.replied 0x34 tag .accepted []
          { s with
            pool := { s.pool with
              window := s.pool.free.take n, free := s.pool.free.drop n, testRun := 0
              check := some ⟨tag, s.pool.free.length, n, 0, 0⟩ }
            link := { s.link with
              ops := if tag = 0 then s.link.ops else insertOp ⟨tag, .check, s.counter⟩ s.link.ops } }))
    ∧ (0 < s.pool.sized → s.pool.check = none → s.pool.window = [] → s.pool.free = [] →
        exec (.checkMemory tag) s = .next (State.replied 0x34 tag .accepted []
          { s with
            pool := { s.pool with testRun := 0 }
            link := { s.link with
              completions := if tag = 0 then s.link.completions
                else s.link.completions ++ [⟨tag, 0x34, .done, none, [0, 0, 0, 0, 0, 0]⟩] } })))
  ∧ ∀ (s : State) (c : Check) (page : Nat) (rest : List Nat), s.pool.check = some c → s.pool.window = page :: rest →
    (s.pool.testRun < 24 → exec .pageTestEnd s = .next s)
    ∧ (24 ≤ s.pool.testRun → ∃ t : State, exec .pageTestEnd s = .next t
      ∧ (∀ a, page * 15000 ≤ a → a < page * 15000 + 15000 → Dram.read t.dram a = 0xAA)
      ∧ (∀ a, (a < page * 15000 ∨ page * 15000 + 15000 ≤ a) → Dram.read t.dram a = Dram.read s.dram a)
      ∧ (let failed := s.stuck.any fun k => decide (page * 15000 ≤ k.1) && decide (k.1 < page * 15000 + 15000)
         let free := if failed then s.pool.free else s.pool.free ++ [page]
         let d := { c with tested := c.tested + 1, retired := if failed then c.retired + 1 else c.retired }
         let pool := { s.pool with
           free := free, retired := if failed then s.pool.retired ++ [page] else s.pool.retired, testRun := 0 }
         (rest ≠ [] → t = { s with dram := t.dram, pool := { pool with window := rest, check := some d } })
         ∧ (rest = [] → c.taken < c.quota → free ≠ [] →
             let n := min 16 (min (c.quota - c.taken) free.length)
             t = { s with
               dram := t.dram
               pool := { pool with
                 window := free.take n, free := free.drop n, check := some { d with taken := c.taken + n } } })
         ∧ (rest = [] → (c.quota ≤ c.taken ∨ free = []) →
             t = { s with
               dram := t.dram, pool := { pool with window := [], check := none }
               link := if c.tag = 0 then s.link else { s.link with
                 ops := removeFirst (fun e => e.tag == c.tag) s.link.ops
                 completions := s.link.completions ++ [⟨c.tag, 0x34, .done, none,
                   bigEndian 2 c.quota ++ bigEndian 2 d.tested ++ bigEndian 2 d.retired⟩] } })))

/-- The ring in groups of eight samples. A group written to its place reads back, and its check code is good, where none
of its 25 bytes has failed (R107); every byte outside the group is as before. A group in which exactly the one byte of a
failed cell reads otherwise than written fails its check. A house sample's write (R114): in STANDBY and RUNNING each
channel's aligned sample takes its position in the write buffer, and at position 7 the group is written to its home;
in PREPARING, and with A = 0, nothing is written. A sample read at an input index (R115, R116) comes from the write
buffer while that gathers its group, else from a group held, else by a fetch of its home group, which is held in place
of the older of two; one whose check fails is held as zeros, marks its page suspect and is a read error. A channel's
delayed sample (R131) is the one at n − D_cur, or the four-point interpolation; the channels are read one after another.
Each read error is counted and handed
to the Alarm Unit as a PROG_MEMORY event. The layout is log entry 19's, a failed cell reads as its own byte whatever is
written (log entry 18), an index lies on the ring as a number that has not wrapped (log entry 32), and the write buffer
serves its group for the whole house sample (log entry 36). -/
def Obligations.RingIsWrittenAndReadInGroups : Prop :=
  (∀ (m : Dram) (stuck : List Host.Cell) (page group : Nat) (samples : List Sample), Dram.wf m = true →
    samples.length = 8 →
    let base := groupAddress page group
    ((∀ a, base ≤ a → a < base + 25 → stuckAt stuck a = none) →
      readGroup (writeGroup m page group samples) stuck page group = samples
      ∧ groupChecks (writeGroup m page group samples) stuck page group = true)
    ∧ (∀ a, (a < base ∨ base + 25 ≤ a) → Dram.read (writeGroup m page group samples) a = Dram.read m a)
    ∧ ∀ a v, base ≤ a → a < base + 25 → stuckAt stuck a = some v →
        v ≠ Dram.read (writeGroup m page group samples) a →
        (∀ b, base ≤ b → b < base + 25 → b ≠ a → stuckAt stuck b = none) →
        groupChecks (writeGroup m page group samples) stuck page group = false)
  ∧ (∀ (s : State) (p : Fin 16) (x : Program), s.program p = some x →
    let n := s.counter.toNat
    let t := s.writeRing p
    let row := n / 4800 % x.rows * x.channels.length
    ((x.state = .preparing ∨ x.rows = 0) → t = s)
    ∧ (x.state ≠ .preparing → 0 < x.rows →
      let gathered := x.channels.map fun ch => { ch with writeBuf := ch.writeBuf.set (n % 8) ch.aligned }
      t = { s.setProgram p (some { x with channels := gathered }) with dram := t.dram }
      ∧ (n % 8 ≠ 7 → t.dram = s.dram)
      ∧ (n % 8 = 7 → Dram.wf s.dram = true → (x.ring.map PageEntry.page).Nodup →
          x.ring.length = x.rows * x.channels.length → (∀ ch ∈ x.channels, ch.writeBuf.length = 8) →
          (∀ (c : Nat) (ch : Channel) (e : PageEntry), x.channels[c]? = some ch → x.ring[row + c]? = some e →
            readGroup t.dram [] e.page (n % 4800 / 8) = ch.writeBuf.set 7 ch.aligned
            ∧ groupChecks t.dram [] e.page (n % 4800 / 8) = true)
          ∧ ∀ a, (∀ (c : Nat) (e : PageEntry), c < x.channels.length → x.ring[row + c]? = some e →
              a < groupAddress e.page (n % 4800 / 8) ∨ groupAddress e.page (n % 4800 / 8) + 25 ≤ a) →
            Dram.read t.dram a = Dram.read s.dram a)))
  ∧ (∀ (m : Dram) (stuck : List Host.Cell) (n c : Nat) (i : Int) (x : Program) (ch : Channel),
    x.channels[c]? = some ch →
    let r := x.serve m stuck n c i
    let k := (i % 8).toNat
    let home := (i / 4800 % (x.rows : Int)).toNat * x.channels.length + c
    let g := (i % 4800 / 8).toNat
    let holding := fun samples : List Sample =>
      x.channels.set c { ch with readBuf := (⟨i / 8, samples⟩ :: ch.readBuf).take 2 }
    (i / 8 = (n : Int) / 8 → r = ⟨ch.writeBuf.getD k 0, x, 0⟩)
    ∧ (i / 8 ≠ (n : Int) / 8 →
      (∀ h, (ch.readBuf.find? fun h => h.number == i / 8) = some h → r = ⟨h.samples.getD k 0, x, 0⟩)
      ∧ ((ch.readBuf.find? fun h => h.number == i / 8) = none → ∀ e : PageEntry, x.ring[home]? = some e →
        (groupChecks m stuck e.page g = true → r =
          ⟨(readGroup m stuck e.page g).getD k 0, { x with channels := holding (readGroup m stuck e.page g) }, 0⟩)
        ∧ (groupChecks m stuck e.page g = false → r =
          ⟨0,
            { x with
              channels := holding (List.replicate 8 0), ring := x.ring.set home { e with suspect := true } }, 1⟩))))
  ∧ (∀ (m : Dram) (stuck : List Host.Cell) (n c : Nat) (x : Program),
    let f := x.align.cur % 65536
    let i : Int := (n : Int) - (x.align.cur / 65536 : Nat)
    let given := fun (v : Sample) (y : Program) =>
      { y with channels := y.channels.modify c fun ch => { ch with delayed := v } }
    (f = 0 →
      let r := x.serve m stuck n c i
      x.readChannel m stuck n c = (given r.sample r.program, r.errors))
    ∧ (f ≠ 0 →
      let r0 := x.serve m stuck n c (i - 2)
      let r1 := r0.program.serve m stuck n c (i - 1)
      let r2 := r1.program.serve m stuck n c i
      let r3 := r2.program.serve m stuck n c (if i = n then i else i + 1)
      let t : Int := 65536
      let u : Int := t - f
      let sum := -(u * (u - t) * (u - 2 * t)) * r0.sample.toInt + 3 * ((u + t) * (u - t) * (u - 2 * t)) * r1.sample.toInt
        - 3 * ((u + t) * u * (u - 2 * t)) * r2.sample.toInt + (u + t) * u * (u - t) * r3.sample.toInt
      let whole := (2 * sum + 6 * 2 ^ 48) / (2 * (6 * 2 ^ 48))
      x.readChannel m stuck n c =
        (given (BitVec.ofInt 24 (max (-8388608) (min 8388607 whole))) r3.program,
          r0.errors + r1.errors + r2.errors + r3.errors)))
  ∧ ∀ (s : State) (p : Fin 16) (x : Program), s.program p = some x → x.state ≠ .preparing →
    x.align.applied = (s.alarm.point (progPoint 5 p)).applied →
    let t := s.readRing p
    let r := x.readAll s.dram s.stuck s.counter.toNat
    r = (List.range x.channels.length).foldl
      (fun q c =>
        let k := q.1.readChannel s.dram s.stuck s.counter.toNat c
        (k.1, q.2 + k.2)) (x, 0)
    ∧ ((x.rows = 0 ∨ x.align.bypass = .inEffect) →
      t.program p = some { x with channels := x.channels.map fun ch => { ch with delayed := ch.aligned } }
      ∧ t.alarm = s.alarm ∧ t.pool = { s.pool with readErrors := min 4294967295 s.pool.readErrors })
    ∧ (0 < x.rows → x.align.bypass ≠ .inEffect →
      t.pool = { s.pool with readErrors := min 4294967295 (s.pool.readErrors + r.2) }
      ∧ t.alarm.point (progPoint 5 p)
          = (((List.range r.2).foldl (fun a _ => a.event s.counter (progPoint 5 p)) s.alarm).point (progPoint 5 p))
      ∧ (r.2 = 0 → t.program p = some r.1 ∧ t.alarm = s.alarm)
      ∧ ((t.alarm.point (progPoint 5 p)).applied = x.align.applied → t.program p = some r.1))
    ∧ t.dram = s.dram ∧ ∀ q, q ≠ p → t.program q = s.program q

/-! ## Loudness and the gain schedule -/

/-- The end of a block (R71 to R81, R92 to R99) for every defined program: each channel's block energy is its sum of
squares over 4,800, kept for the channel (that READ_LOUDNESS gives it no byte is log entry 9), P their role-weighted
sum; the block's record is appended to the ring of 30 with its validity, and the marks and sums start again; M is the
loudness of the mean of the last four records where all are VALID, ST that of the mean of the VALID records; the
window is accepted where M is −70.0 or more and the program was RUNNING and not paused at the end of the block's last
sample, and not reset at this one (R82), and adds its count and power to M's bin; N, S, the gate and I follow from the
histogram. The correction gain follows its mode: 0 in OFF, held in FREEZE, in TRACK held or moved toward the desired
value by no more than the slew. A gain that differs from the newest value is posted, after what the output index has
reached is applied: at the smaller of line delay and look-ahead behind, raised to the newest due index, at once where
that is reached, else behind the others, the oldest of 128 applied first. The last desired value keeps the limit that
held it and the block's index (R94). A power's loudness is rounded exactly (R73). A power, an energy and a sum in the
histogram are carried with 40 significant bits or more, as one of the two figures beside the exact value and as the
value itself where it is such a figure (R71: which of the two, and the precision, are the part's, log entry 11); sums
are exact. At other counter values nothing happens. Indices are compared on the 48-bit circle (log entry 20), and one
below 0 is taken modulo 2⁴⁸ (log entry 53). The program's settings lie within R90's ranges, which every step keeps
(LoudnessRequestsTakeEffect). -/
def Obligations.BlockEndsMeasureAndCorrect : Prop :=
  let exceeds := fun (num den : Nat) (e : Int) => if 0 ≤ e then decide (den ^ 10000 * 10 ^ e.toNat ≤ num ^ 10000)
    else decide (den ^ 10000 ≤ num ^ 10000 * 10 ^ (-e).toNat)
  (∀ s : State, (s.counter = 0 ∨ s.counter.toNat % 4800 ≠ 0) → exec .blockEnd s = .next s)
  ∧ (∀ num den : Nat, (num = 0 → loudness num den = none)
    ∧ Power.carry 0 den = ⟨0, 0⟩
    ∧ (0 < num → 0 < den →
      let q := Power.carry num den
      2 ^ 40 ≤ q.mant ∧ ((q.mant * den : Int) - (num * 2 ^ q.shift : Nat)).natAbs < den
      ∧ (num * 2 ^ q.shift % den = 0 → q.mant * den = num * 2 ^ q.shift))
    ∧ (0 < num → 0 < den → ∃ v : Int, loudness num den = some v ∧ -1200 ≤ v ∧ v ≤ 150
      ∧ (v = -1200 ∨ exceeds num den (100 * v + 641) = true)
      ∧ (v = 150 ∨ exceeds num den (100 * (v + 1) + 641) = false)))
  ∧ (∀ (l : List Power) (k : Nat), (∀ q ∈ l, q.shift ≤ k) → (Power.sum l).shift ≤ k
      ∧ (Power.sum l).mant * 2 ^ (k - (Power.sum l).shift) = (l.map fun q => q.mant * 2 ^ (k - q.shift)).sum)
  ∧ (∀ a b : Power, a.addCarried b = Power.carry (Power.sum [a, b]).mant (2 ^ (Power.sum [a, b]).shift))
  ∧ (∀ (h : List HistBin) (j : Nat) (w : Power), h.Pairwise (fun a b => a.bin < b.bin) →
    (histAdd j w h).Pairwise (fun a b => a.bin < b.bin)
    ∧ (∀ i, i ≠ j → (histAdd j w h).find? (fun b => b.bin == i) = h.find? fun b => b.bin == i)
    ∧ (histAdd j w h).find? (fun b => b.bin == j) = some
        (match h.find? fun b => b.bin == j with
         | none => ⟨j, 1, w⟩
         | some b => if 2 ^ 32 - 1 ≤ b.count then b
           else { b with count := b.count + 1, power := b.power.addCarried w }))
  ∧ ∀ s : State, s.counter ≠ 0 → s.counter.toNat % 4800 = 0 → ∃ t : State, exec .blockEnd s = .next t
    ∧ KeepsOutside s t ∧ KeepsSettings s.alarm t.alarm ∧ (∀ p, s.program p = none → t.program p = none)
    ∧ ∀ (p : Fin 16) (x : Program), s.program p = some x → x.loud.blockTaken = false → x.corr.settings.InRange →
      ∃ y : Program, t.program p = some y ∧
      let k := s.counter.toNat / 4800 - 1
      let validity : Validity := if x.loud.markPreparing then .preparing else if x.loud.markLane then .lane
        else if x.loud.markHold then .hold else .valid
      let energy := fun ch : Channel => Power.carry ch.energySum (4800 * 2 ^ 128)
      let sum := Power.sum (x.channels.map fun ch =>
        ⟨(match ch.role with
          | .l | .r | .c | .m => 100
          | .ls | .rs | .lb | .rb => 141
          | .lfe => 0) * (energy ch).mant, (energy ch).shift⟩)
      let power := Power.carry sum.mant (100 * 2 ^ sum.shift)
      let last := y.loud.ring.drop (y.loud.ring.length - 4)
      let window := Power.sum (last.map BlockRec.power)
      let valid := y.loud.ring.filter fun r => r.validity == .valid
      let mean := Power.sum (valid.map BlockRec.power)
      let n := (y.loud.hist.map HistBin.count).sum
      let all := Power.sum (y.loud.hist.map HistBin.power)
      let gated := y.loud.hist.filter fun b =>
        exceeds (n * 2 ^ all.shift) all.mant (-(100 * ((b.bin : Int) - 700) + 10691))
      let kept := Power.sum (gated.map HistBin.power)
      let g := x.corr.settings
      y.loud.ring = (if 30 ≤ x.loud.ring.length then x.loud.ring.drop 1 else x.loud.ring)
          ++ [⟨k, power, loudness power.mant (2 ^ power.shift), validity⟩]
      ∧ y.loud.markPreparing = false ∧ y.loud.markLane = false ∧ y.loud.markHold = false
      ∧ y.channels = x.channels.map (fun ch => { ch with blockEnergy := energy ch, energySum := 0 })
      ∧ y.loud.momentary = (if 4 ≤ y.loud.ring.length ∧ (∀ r ∈ last, r.validity = .valid) then
          loudness window.mant (4 * 2 ^ window.shift) else none)
      ∧ y.loud.shortTerm = loudness mean.mant (valid.length * 2 ^ mean.shift)
      ∧ (∀ m : Int, y.loud.momentary = some m → -700 ≤ m → x.loud.wasRunning = true → x.loud.wasPaused = false →
          x.loud.start ≠ s.counter →
          y.loud.hist = histAdd (m + 700).toNat ⟨window.mant, window.shift + 2⟩ x.loud.hist)
      ∧ ((y.loud.momentary = none ∨ (∃ m, y.loud.momentary = some m ∧ m < -700) ∨ x.loud.wasRunning = false
          ∨ x.loud.wasPaused = true ∨ x.loud.start = s.counter) → y.loud.hist = x.loud.hist)
      ∧ y.loud.count = n
      ∧ (n = 0 → y.loud.integrated = none ∧ y.loud.gatedCount = 0 ∧ y.loud.gate = none)
      ∧ (n ≠ 0 → y.loud.gatedCount = (gated.map HistBin.count).sum
          ∧ y.loud.integrated = loudness kept.mant ((gated.map HistBin.count).sum * 2 ^ kept.shift)
          ∧ y.loud.gate = (loudness all.mant (n * 2 ^ all.shift)).map (fun v => v - 100))
      ∧ y.loud.start = x.loud.start ∧ y.loud.paused = x.loud.paused
      ∧ (g.mode = .off → y.corr.gain = 0 ∧ y.corr.hold = .off ∧ y.corr.desired = none ∧ y.corr.gainLimit = false)
      ∧ (g.mode = .freeze →
          y.corr.gain = x.corr.gain ∧ y.corr.hold = .frozen ∧ y.corr.desired = none ∧ y.corr.gainLimit = false)
      ∧ (g.mode = .track → validity ≠ .valid → y.corr.gain = x.corr.gain ∧ y.corr.hold = .heldInvalid)
      ∧ (g.mode = .track → validity = .valid → y.loud.shortTerm = none →
          y.corr.gain = x.corr.gain ∧ y.corr.hold = .heldNoSt)
      ∧ (∀ st : Int, g.mode = .track → validity = .valid → y.loud.shortTerm = some st → st < g.target - g.holdDepth →
          y.corr.gain = x.corr.gain ∧ y.corr.hold = .heldBelowDepth)
      ∧ (g.mode = .track → y.corr.hold ≠ .adjusted →
          y.corr.desired = x.corr.desired ∧ y.corr.gainLimit = x.corr.gainLimit)
      ∧ (∀ st : Int, g.mode = .track → validity = .valid → y.loud.shortTerm = some st → g.target - g.holdDepth ≤ st →
          let want := max (-g.maxAttenuation) (min g.maxBoost (g.target - st))
          y.corr.hold = .adjusted
          ∧ y.corr.desired = some ⟨want, if want = g.target - st then .none else if want < g.target - st then .boost
              else .attenuation, k⟩
          ∧ (x.corr.gain < want → y.corr.gain = min want (x.corr.gain + g.upSlew))
          ∧ (want < x.corr.gain → y.corr.gain = max want (x.corr.gain - g.downSlew))
          ∧ (x.corr.gain = want → y.corr.gain = want)
          ∧ (y.corr.gainLimit = true ↔ want ≠ g.target - st ∧ y.corr.gain = want))
      ∧ y.corr.loud = (match y.loud.shortTerm with
          | some st => decide (g.window < (st + y.corr.gain - g.target).natAbs)
          | none => false)
      ∧ ∀ done held : List GainEntry, x.out.schedule = done ++ held →
          let out := s.counter - BitVec.ofNat 48 x.lineDelay
          (∀ e ∈ done, (out - e.due).msb = false) → (∀ e, held.head? = some e → (out - e.due).msb = true) →
          let applied := ((done.getLast?).map GainEntry.value).getD x.out.applied
          let newest := ((held.getLast?).map GainEntry.value).getD applied
          let first := s.counter - BitVec.ofNat 48 (min x.lineDelay g.lookAhead)
          let due := match held.getLast? with
            | some e => if (first - e.due).msb then e.due else first
            | none => first
          let posted : GainEntry := ⟨k, y.corr.gain, due⟩
          (y.corr.gain = newest → y.out.schedule = held ∧ y.out.applied = applied ∧ (done = [] → y.out = x.out))
          ∧ (y.corr.gain ≠ newest → (out - due).msb = false → y.out.schedule = held ∧ y.out.applied = y.corr.gain)
          ∧ (y.corr.gain ≠ newest → (out - due).msb = true → held.length < 128 →
              y.out.schedule = held ++ [posted] ∧ y.out.applied = applied)
          ∧ ∀ e rest, held = e :: rest → y.corr.gain ≠ newest → (out - due).msb = true → 128 ≤ held.length →
              y.out.schedule = rest ++ [posted] ∧ y.out.applied = e.value

/-- RESET_INTEGRATION, PAUSE_INTEGRATION and RESUME_INTEGRATION (R82, R83) and SET_LOUDNESS (R90 to R92, R141, R143): a
reset empties the histogram from this house sample; the paused flag is set or cleared; a loudness mode outside its
list is BAD_VALUE, every other setting is held in its range and the request answered CLAMPED where one was, the gain
is held to the new limits, the conditions are evaluated again, and a changed total output gain starts a ramp. After
reset, and after every step from a state in which they do, every program's settings lie within R90's ranges. -/
def Obligations.LoudnessRequestsTakeEffect : Prop :=
  State.reset.LoudnessInRange
  ∧ (∀ s t : State, s.LoudnessInRange → step s = .next t → t.LoudnessInRange)
  ∧ ∀ (s : State) (tag b : Byte) (p : Fin 16) (x : Program), s.LinkFree → b.toNat = p.val → s.program p = some x →
    (s.Shown →
      exec (.resetIntegration tag b) s = .next ((s.setProgram p (some { x with loud := { x.loud with
        hist := [], integrated := none, count := 0, gatedCount := 0, gate := none, start := s.counter } })).replied
          0x29 tag .ok [])
      ∧ exec (.pauseIntegration tag b) s = .next ((s.setProgram p (some { x with loud :=
          { x.loud with paused := true } })).replied 0x2A tag .ok [])
      ∧ exec (.resumeIntegration tag b) s = .next ((s.setProgram p (some { x with loud :=
          { x.loud with paused := false } })).replied 0x2B tag .ok []))
    ∧ (∀ (m : Byte) (f : LoudnessFields), 3 ≤ m.toNat →
        exec (.setLoudness tag b m f) s = .next (s.replied 0x28 tag .badValue []))
    ∧ ∀ (m : Byte) (f : LoudnessFields) (mode : LoudMode), s.Shown → mode.code = m.toNat →
        let held : Int → Int → BitVec 16 → Int := fun lo hi v => max lo (min hi v.toInt)
        let g : LoudSettings := ⟨mode, held (-400) (-50) f.target, held 0 150 f.maxBoost, held 0 300 f.maxAttenuation,
          held 1 50 f.upSlew, held 1 100 f.downSlew, held 50 400 f.holdDepth, held 10 200 f.window,
          held (-200) 200 f.manualTrim, min 48000 f.lookAhead.toNat⟩
        let kept := g.target = f.target.toInt ∧ g.maxBoost = f.maxBoost.toInt
          ∧ g.maxAttenuation = f.maxAttenuation.toInt ∧ g.upSlew = f.upSlew.toInt ∧ g.downSlew = f.downSlew.toInt
          ∧ g.holdDepth = f.holdDepth.toInt ∧ g.window = f.window.toInt ∧ g.manualTrim = f.manualTrim.toInt
          ∧ g.lookAhead = f.lookAhead.toNat
        ∃ (t : State) (y : Program),
          exec (.setLoudness tag b m f) s = .next (t.replied 0x28 tag (if kept then .ok else .clamped) [])
          ∧ OnlyProgram p s t ∧ t.program p = some y ∧ y.corr.settings = g
          ∧ y.corr.gain = max (-g.maxAttenuation) (min g.maxBoost x.corr.gain)
          ∧ y.corr.hold = x.corr.hold
          ∧ y.corr.desired = (if mode = .track then x.corr.desired else none)
          ∧ y.corr.gainLimit = (if mode = .track then x.corr.gainLimit else false)
          ∧ y.corr.loud = (match x.loud.shortTerm with
              | some st => decide (g.window < (st + y.corr.gain - g.target).natAbs)
              | none => false)
          ∧ (t.alarm.point (progPoint 2 p)).raw = y.corr.loud
          ∧ (t.alarm.point (progPoint 3 p)).raw = y.corr.gainLimit
          ∧ y.loud = x.loud ∧ y.out.applied = x.out.applied ∧ y.out.schedule = x.out.schedule
          ∧ y.out.pad = x.out.pad ∧ y.out.muted = x.out.muted ∧ y.out.muteFade = x.out.muteFade
          ∧ y.out.multUsed = x.out.multUsed
          ∧ (let sum := x.out.applied + g.manualTrim + x.out.pad
             y.out.total = max (-600) (min 200 sum) ∧ y.out.gainHeld = decide (sum < -600 ∨ 200 < sum)
             ∧ (y.out.total ≠ x.out.total →
                 y.out.rampStart = x.out.multUsed ∧ y.out.rampTarget = gainNumber 20 y.out.total ∧ y.out.rampStep = 1)
             ∧ (y.out.total = x.out.total → y.out.rampStep = x.out.rampStep ∧ y.out.rampTarget = x.out.rampTarget
               ∧ y.out.rampStart = x.out.rampStart))
          ∧ y = { x with corr := y.corr, out := y.out }

/-- The gain schedule and its ramp (R100, R141, R143): the held entries that the output index has reached leave the
schedule, the oldest first, the last of them is the applied gain, and a changed total starts a ramp from the
multiplier used for the house sample before; a ramp past its 480th step is steady at its target. The ramp number of a
gain is 2²⁰ × 10^(gain/200) to the nearest whole number (R142), compared on 200th powers. That an index is reached where
the top bit of the difference on the 48-bit circle is 0 is the model's reading (log entry 20). -/
def Obligations.GainEntriesApplyAndRampsEnd : Prop :=
  (∀ (s : State) (p : Fin 16) (x : Program) (done rest : List GainEntry) (e : GainEntry), s.Shown →
    s.program p = some x → x.out.schedule = done ++ e :: rest →
    (∀ k ∈ done ++ [e], ((s.counter - BitVec.ofNat 48 x.lineDelay) - k.due).msb = false) →
    (∀ k, rest.head? = some k → ((s.counter - BitVec.ofNat 48 x.lineDelay) - k.due).msb = true) →
    let sum := e.value + x.corr.settings.manualTrim + x.out.pad
    let total := max (-600) (min 200 sum)
    exec (.gainEntryDue p) s = .next (s.setProgram p (some { x with out :=
      { x.out with
        schedule := rest, applied := e.value, total := total, gainHeld := decide (sum < -600 ∨ 200 < sum)
        rampStart := if total = x.out.total then x.out.rampStart else x.out.multUsed
        rampTarget := if total = x.out.total then x.out.rampTarget else gainNumber 20 total
        rampStep := if total = x.out.total then x.out.rampStep else 1 } })))
  ∧ (∀ (s : State) (p : Fin 16) (x : Program), s.Shown → s.program p = some x →
    exec (.gainRampEnd p) s = .next
      (if 480 < x.out.rampStep then s.setProgram p (some { x with out := { x.out with rampStep := 0 } }) else s))
  ∧ ∀ (v : Int), -600 ≤ v → v ≤ 200 →
    let k := gainNumber 20 v
    (0 ≤ v → (2 * k - 1) ^ 200 ≤ 2 ^ 4200 * 10 ^ v.toNat ∧ 2 ^ 4200 * 10 ^ v.toNat < (2 * k + 1) ^ 200)
    ∧ (v < 0 → (2 * k - 1) ^ 200 * 10 ^ (-v).toNat ≤ 2 ^ 4200 ∧ 2 ^ 4200 < (2 * k + 1) ^ 200 * 10 ^ (-v).toNat)

/-! ## Output Stage -/

/-- MUTE_PROGRAM (R144): a flag outside its list is BAD_VALUE (at any program byte: the model judges the flag first,
log entry 37); a flag the program has changes nothing; another turns the mute fade at the level it has, with its first
step. The end of the fade leaves it steady at 0 or 480. A house sample's output (R145) of a program past PREPARING is
the exact product of the delayed sample, the delay, on-air and mute fades and the ramp multiplier, rounded once and
held, each sample that was held counted; an over run (R147) counts samples of a RUNNING program at or above the
threshold of the over level, is 0 at any other, and on reaching the over count is one PROG_OVER event and starts
again. As rows of their own: such a run that has reached the count is set to 0 with its event, and before that nothing
happens. The house sample forms the outputs so (R145, R146): under the pad the program has, where its PROG_OVER point
says so before and after; under the pad, its ramp at the first step, where the sample's own overs apply it; as they
are where neither. A pad removed in this sample stays where the padded output is over (log entry 26), and where the
pad keeps the sample from the very over that would apply it, the over stands and the output carries the pad; where
only the padded output would be over, no pad is applied: the model's choices (log entry 47). -/
def Obligations.OutputSamplesMutesAndOvers : Prop :=
  (∀ (s : State) (p : Fin 16) (x : Program), s.program p = some x →
    (∀ (tag b f : Byte), s.LinkFree → 2 ≤ f.toNat →
      exec (.muteProgram tag b f) s = .next (s.replied 0x38 tag .badValue []))
    ∧ (∀ (tag b f : Byte), s.Shown → s.LinkFree → b.toNat = p.val → f.toNat < 2 →
      exec (.muteProgram tag b f) s = .next ((s.setProgram p (some
        (if x.out.muted = decide (f = 1) then x
         else { x with out := { x.out with
           muted := decide (f = 1)
           muteFade := if f = 1 then ⟨x.out.muteFade.prev - 1, .falling, x.out.muteFade.prev⟩
             else ⟨min 480 (x.out.muteFade.prev + 1), .rising, x.out.muteFade.prev⟩ } }))).replied 0x38 tag .ok []))
    ∧ (s.Shown → exec (.muteFadeEnd p) s = .next (s.setProgram p (some
        (if (x.out.muteFade.dir = .falling ∧ x.out.muteFade.level = 0)
            ∨ (x.out.muteFade.dir = .rising ∧ x.out.muteFade.level = 480) then
          { x with out := { x.out with muteFade := { x.out.muteFade with dir := .steady } } }
         else x))))
    ∧ ∀ (c : Fin 8) (ch : Channel), x.channels[c.val]? = some ch →
      exec (.overCountReached p c) s = .next
        (if ch.overDue then
          { s.setProgram p (some { x with
              channels := x.channels.set c.val { ch with overRun := 0, overDue := false } }) with
            alarm := s.alarm.event s.counter (progPoint 1 p) }
         else s))
  ∧ ∀ (s : State) (p : Fin 16) (x : Program), s.program p = some x → x.channels.length ≤ 8 →
    (x.state = .preparing → (∀ ch ∈ x.channels, ch.overDue = false) → s.outputUnder p = s)
    ∧ (x.state ≠ .preparing → ∀ (level : Int) (nearest : Nat), (s.alarm.kind 5).level = level → -200 ≤ level →
        level ≤ 0 → (2 * nearest - 1) ^ 200 * 10 ^ (-level).toNat ≤ 2 ^ 4800 →
        2 ^ 4800 < (2 * nearest + 1) ^ 200 * 10 ^ (-level).toNat →
        let scale : Int := 480 * 480 * 480 * 2 ^ 20
        let exact := fun ch : Channel =>
          ch.delayed.toInt * x.align.fade.level * x.out.rampNow * x.onAir.level * x.out.muteFade.level
        let whole := fun ch : Channel => (2 * exact ch + scale) / (2 * scale)
        let out := fun ch : Channel => BitVec.ofInt 24 (max (-8388608) (min 8388607 (whole ch)))
        let isOver := fun ch : Channel =>
          decide (x.state = .running ∧ min 8388607 nearest ≤ (out ch).toInt.natAbs)
        let due := fun ch : Channel => isOver ch && decide ((s.alarm.kind 5).count ≤ ch.overRun + 1)
        let formed := fun ch : Channel =>
          { ch with
            output := out ch
            satCount := if whole ch < -8388608 ∨ 8388607 < whole ch then min 4294967295 (ch.satCount + 1) else ch.satCount
            overRun := if isOver ch && !due ch then ch.overRun + 1 else 0
            overDue := false }
        s.outputUnder p = { s.setProgram p (some { x with channels := x.channels.map formed }) with
          alarm := (x.channels.filter due).foldl (fun a _ => a.event s.counter (progPoint 1 p)) s.alarm })
  ∧ ∀ (s : State) (p : Fin 16),
    let held := fun t : State => (t.alarm.point (progPoint 1 p)).applied
    (s.program p = none → s.formOutput p = s)
    ∧ ∀ x : Program, s.program p = some x →
      (x.out.pad = (if held s then -100 else 0) → held (s.outputUnder p) = held s → s.formOutput p = s.outputUnder p)
      ∧ (s.Shown →
        let under := fun pad : Int =>
          (if x.out.pad = pad then s else s.setProgram p (some (x.withPad pad))).outputUnder p
        (held s = true → s.formOutput p = under (-100))
        ∧ (held s = false → held (under 0) = false → (held (under (-100)) = false ∨ x.out.pad ≠ -100) →
          s.formOutput p = under 0)
        ∧ (held s = false → held (under (-100)) = true → (held (under 0) = true ∨ x.out.pad = -100) →
          s.formOutput p = under (-100))
        ∧ (held s = false → held (under 0) = true → held (under (-100)) = false → ∃ y z : Program,
          (under 0).program p = some y ∧ (under (-100)).program p = some z
          ∧ (let padded := fun judged ch : Channel => { ch with overRun := judged.overRun, overDue := judged.overDue }
             let channels := List.zipWith padded y.channels z.channels
             s.formOutput p = (under 0).setProgram p (some { z with channels := channels }))))

/-! ## Delay -/

/-- SET_DELAY (R126 to R128, R132, R134, R135, R137): a unit or a mode outside its list is BAD_VALUE; V is the value
in samples, held at 500,000, the slew rate and the auto limit are held in their ranges, and D_target follows. With the
target it had, or under bypass, no motion starts. Off air a new target is a jump. On air, AUTO chosen by the distance:
in STEADY and SLEWING a cut or a slew toward it, a slew that is cut stopping where D_cur stands; in CUT_OUT the jump
takes it; in CUT_IN the mode is the pending one. An open operation is SUPERSEDED first; a tagged request is ACCEPTED
and opens its own, which is DONE at once where the delay is then STEADY on its target with no bypass. -/
def Obligations.SetDelayMovesTheLineDelay : Prop :=
  ∀ (s : State) (tag b : Byte) (f : DelayFields) (p : Fin 16) (x : Program), s.Shown → s.LinkFree → s.tagFree tag →
    b.toNat = p.val → s.program p = some x →
    ((3 ≤ f.unit.toNat ∨ 3 ≤ f.changeMode.toNat ∨ 3 ≤ f.retrimMode.toNat) →
      exec (.setDelay tag b f) s = .next (s.replied 0x30 tag .badValue []))
    ∧ ∀ (change retrim : ChangeMode), f.unit.toNat < 3 → change.code = f.changeMode.toNat →
        retrim.code = f.retrimMode.toNat →
        let a := x.align
        let asked := if f.unit = 0 then f.value.toNat else if f.unit = 1 then f.value.toNat * 48
          else (2 * f.value.toNat * s.tb.rate.fiveFrames + 5) / 10
        let v := min 500000 asked
        let rate := max 1 (min 20 f.slewRate.toNat)
        let limit := min 4800 f.autoLimit.toNat
        let held := decide (500000 < asked) || decide (rate ≠ f.slewRate.toNat) || decide (limit ≠ f.autoLimit.toNat)
        let target := min ((x.rows - 1) * 4800) (v - a.pathLat)
        let distance := ((a.cur : Int) - target * 65536).natAbs
        let mode : ChangeMode := if change = .auto then (if distance ≤ limit * 65536 then .slew else .cut) else change
        let old := a.op.toList.map fun o : DelayOp =>
          (⟨o.tag, 0x30, .superseded, none, delayReport p o a.cur a.target⟩ : Completion)
        ∃ (t : State) (y : Program),
          exec (.setDelay tag b f) s
            = .next (t.replied 0x30 tag (if tag = 0 then (if held then .clamped else .ok) else .accepted) [])
          ∧ OnlyProgram p s t ∧ t.program p = some y ∧ y.align.value = v ∧ y.align.retrim = retrim
          ∧ y.align.slewRate = rate ∧ y.align.autoLimit = limit ∧ y.align.target = target
          ∧ y.align.pathLat = a.pathLat ∧ y.align.bypass = a.bypass ∧ y.align.applied = a.applied
          ∧ y.state = x.state ∧ y.ring = x.ring ∧ y.corr = x.corr ∧ y.loud = x.loud
          ∧ ((t.alarm.point (progPoint 4 p)).raw =
              decide ((target : Int) ≠ (v : Int) - a.pathLat ∨ a.applied = true))
          ∧ ((y.align.motion = .steady ∧ y.align.bypass = .none ∧ y.align.cur = target * 65536) →
              y.align.op = none ∧ t.link.completions = s.link.completions ++ old
                ++ (if tag = 0 then [] else [⟨tag, 0x30, .done, none,
                      delayReport p ⟨tag, v, held⟩ (target * 65536) target⟩]))
          ∧ (¬(y.align.motion = .steady ∧ y.align.bypass = .none ∧ y.align.cur = target * 65536) →
              y.align.op = (if tag = 0 then none else some ⟨tag, v, held⟩)
              ∧ t.link.completions = s.link.completions ++ old
              ∧ (tag ≠ 0 → t.link.ops.any (fun e => e.tag == tag) = true))
          ∧ ((target = a.target ∨ a.bypass ≠ .none) → y.align.cur = a.cur ∧ y.align.motion = a.motion
              ∧ y.align.fade = a.fade ∧ y.align.pending = a.pending ∧ y.channels = x.channels ∧ y.out = x.out)
          ∧ (target ≠ a.target → a.bypass = .none → x.state ≠ .running →
              y.align.cur = target * 65536 ∧ y.align.motion = .steady ∧ y.align.pending = none
              ∧ y.align.fade = ⟨480, .steady, 480⟩ ∧ y.channels = x.channels.map (fun ch => { ch with readBuf := [] })
              ∧ x.ScheduleMoved s.counter target y)
          ∧ (target ≠ a.target → a.bypass = .none → x.state = .running →
              y.align.cur = a.cur ∧ y.channels = x.channels ∧ y.out = x.out
              ∧ (a.motion = .steady → distance = 0 →
                  y.align.motion = .steady ∧ y.align.fade = a.fade ∧ y.align.pending = a.pending)
              ∧ ((a.motion = .slewing ∨ (a.motion = .steady ∧ distance ≠ 0)) → y.align.pending = a.pending
                  ∧ (mode = .cut →
                      y.align.motion = .cutOut ∧ y.align.fade = ⟨a.fade.prev - 1, .falling, a.fade.prev⟩)
                  ∧ (mode = .slew → y.align.motion = .slewing ∧ y.align.fade = a.fade))
              ∧ (a.motion = .cutOut →
                  y.align.motion = .cutOut ∧ y.align.fade = a.fade ∧ y.align.pending = a.pending)
              ∧ (a.motion = .cutIn →
                  y.align.motion = .cutIn ∧ y.align.fade = a.fade ∧ y.align.pending = some change))

/-- The steps of the line delay (R128 to R130, R134, R137, R138): the jump of a cut after its fade-out, with the read
buffers emptied and any bypass over; the end of its fade-in, STEADY on the target, or where the target has changed the
motion of the pending mode toward it; the arrival of a slew within one step of its target, or the step where the target
has moved off since the look; the switch to bypass, which makes the jump of a cut it interrupted and after which the
line delay is 0, and the end of the fade that rises after it. A delay operation that is then settled is DONE. A line
delay that changes moves the gain schedule, forward or backward (R101, R102; log entry 20). Each is taken in its own
house sample only. That a bypass applied again during the cut back is switched to by that cut's end is log entry 21,
and the house sample at which the fade that rises after the switch is steady is log entry 27. -/
def Obligations.LineDelayTakesItsSteps : Prop :=
  ∀ (s : State) (p : Fin 16) (x : Program), s.Shown → s.program p = some x →
    let a := x.align
    let done := fun t : State =>
      (∀ o, a.op = some o → t.link.completions = s.link.completions ++ [⟨o.tag, 0x30, .done, none,
          delayReport p o (a.target * 65536) a.target⟩]
        ∧ t.link.ops = removeFirst (fun e => e.tag == o.tag) s.link.ops)
      ∧ (a.op = none → t.link = s.link)
    let emptied := x.channels.map fun ch => { ch with readBuf := [] }
    (a.motion = .cutOut → a.applied = false → a.fade.dir = .falling → a.fade.prev = 0 →
      ∃ (t : State) (y : Program), exec (.cutJump p) s = .next t ∧ OnlyProgram p s t ∧ t.program p = some y
      ∧ y.align = { a with
          cur := a.target * 65536, motion := .cutIn, bypass := .none, fade := ⟨1, .rising, 0⟩ }
      ∧ y.channels = emptied ∧ y.lineDelay = a.target ∧ x.ScheduleMoved s.counter a.target y
      ∧ y.state = x.state ∧ y.ring = x.ring ∧ y.corr = x.corr ∧ y.loud = x.loud ∧ t.link = s.link)
    ∧ ((a.motion ≠ .cutOut ∨ a.applied = true ∨ a.fade.dir ≠ .falling ∨ a.fade.prev ≠ 0) →
        exec (.cutJump p) s = .next s)
    ∧ (a.motion = .cutIn → a.fade.dir = .rising → a.fade.prev = 480 → a.cur = a.target * 65536 → a.bypass = .none →
      ∃ t : State, exec (.cutInEnd p) s = .next t ∧ OnlyProgram p s t ∧ done t
      ∧ t.program p = some { x with align := { a with
          motion := .steady, pending := none, fade := { a.fade with dir := .steady }, op := none } })
    ∧ (a.motion = .cutIn → a.fade.dir = .rising → a.fade.prev = 480 → a.cur ≠ a.target * 65536 →
      let waiting : ChangeMode := a.pending.getD a.retrim
      let near := decide (((a.cur : Int) - a.target * 65536).natAbs ≤ a.autoLimit * 65536)
      ((waiting = .slew ∨ (waiting = .auto ∧ near = true)) →
        exec (.cutInEnd p) s = .next (s.setProgram p (some { x with align := { a with
          motion := .slewing, arriving := false, pending := none, fade := { a.fade with dir := .steady } } })))
      ∧ ((waiting = .cut ∨ (waiting = .auto ∧ near = false)) →
        exec (.cutInEnd p) s = .next (s.setProgram p (some { x with align := { a with
          motion := .cutOut, arriving := false, pending := none, fade := ⟨479, .falling, 480⟩ } }))))
    ∧ ((a.motion ≠ .cutIn ∨ a.fade.dir ≠ .rising ∨ a.fade.prev ≠ 480) → exec (.cutInEnd p) s = .next s)
    ∧ (a.motion = .slewing → a.arriving = true → a.distance < slewStep a.slewRate → a.bypass = .none →
      ∃ (t : State) (y : Program), exec (.slewArrival p) s = .next t ∧ OnlyProgram p s t ∧ t.program p = some y
      ∧ done t ∧ y.align = { a with cur := a.target * 65536, motion := .steady, arriving := false, op := none }
      ∧ x.ScheduleMoved s.counter a.target y
      ∧ y.channels = x.channels ∧ y.state = x.state ∧ y.ring = x.ring ∧ y.corr = x.corr ∧ y.loud = x.loud)
    ∧ (a.motion = .slewing → a.arriving = true → slewStep a.slewRate ≤ a.distance → a.bypass = .none →
      let cur := if a.cur < a.target * 65536 then a.cur + slewStep a.slewRate else a.cur - slewStep a.slewRate
      ∃ (t : State) (y : Program), exec (.slewArrival p) s = .next t ∧ OnlyProgram p s t ∧ t.program p = some y
      ∧ t.link = s.link ∧ y.align = { a with cur := cur, arriving := false }
      ∧ x.ScheduleMoved s.counter (cur / 65536) y
      ∧ y.channels = x.channels ∧ y.state = x.state ∧ y.ring = x.ring ∧ y.corr = x.corr ∧ y.loud = x.loud)
    ∧ ((a.motion ≠ .slewing ∨ a.arriving = false) → exec (.slewArrival p) s = .next s)
    ∧ (a.applied = true → a.fade.dir = .falling → a.fade.prev = 0 →
      (a.bypass = .entering ∨ (a.bypass = .inEffect ∧ a.motion = .cutOut)) →
      ∃ (t : State) (y : Program), exec (.bypassSwitch p) s = .next t ∧ OnlyProgram p s t ∧ t.program p = some y
      ∧ y.align = { a with
          cur := if a.motion = .cutOut then a.target * 65536 else a.cur
          bypass := .inEffect, motion := .steady, arriving := false, pending := none, fade := ⟨1, .rising, 0⟩ }
      ∧ y.lineDelay = 0 ∧ x.ScheduleMoved s.counter 0 y
      ∧ y.channels = (if a.motion = .cutOut then emptied else x.channels)
      ∧ y.state = x.state ∧ y.ring = x.ring ∧ t.link = s.link)
    ∧ ((a.applied = false ∨ a.fade.dir ≠ .falling ∨ a.fade.prev ≠ 0 ∨ a.bypass = .none
        ∨ (a.bypass = .inEffect ∧ a.motion ≠ .cutOut)) → exec (.bypassSwitch p) s = .next s)
    ∧ exec (.bypassFadeInEnd p) s = .next (s.setProgram p (some
        (if a.bypass = .inEffect ∧ a.fade.dir = .rising ∧ a.fade.level = 480 then
          { x with align := { a with fade := { a.fade with dir := .steady } } } else x)))

/-! ## Alarm Unit -/

/-- The alarm boundary (R157 to R160, R164, R171) is a house sample whose counter is a multiple of 480, and is taken
once. A program's silence run counts up where its interval's peak lies below the silence level and its interval lay in
STANDBY or RUNNING, is 0 where such an interval's peak reaches the level, and stands where the interval did not lie
wholly in those states; the peak starts again (R86). Every contact input whose reading stands twice takes it as its
level. An INTEGRATION_RESET input that becomes active resets the integration of the programs it covers (R84); an ALARM
input whose level changes is an event of its EXTERNAL point with sense EDGE, where it becomes active, and its raw
condition with sense LEVEL (R171). Then each of the 118 points is judged, a program's PROG_SILENCE with its new
condition: what the judgement of a point does is EVENT_POINT_REST, FILTER_RISE, FILTER_FALL and RETRY_EXPIRY of it, in
that order. -/
def Obligations.AlarmBoundariesJudgeEveryPoint : Prop :=
  (∀ s : State, (s.counter.toNat % 480 ≠ 0 ∨ s.alarm.boundaryTaken = true) → exec .alarmBoundary s = .next s)
  ∧ ∀ s : State, s.Shown → s.counter.toNat % 480 = 0 → s.alarm.boundaryTaken = false →
    ∃ t : State, exec .alarmBoundary s = .next t ∧ KeepsOutside s t ∧ t.link = s.link
    ∧ t.alarm.boundaryTaken = true ∧ t.alarm.kinds = s.alarm.kinds ∧ t.alarm.summaries = s.alarm.summaries
    ∧ t.alarm.pins = s.alarm.pins ∧ t.alarm.silenceLevel = s.alarm.silenceLevel
    ∧ (∀ c : Fin 4,
        let r := s.alarm.pins.getLsbD c.val != (s.alarm.contact c).activeLow
        t.alarm.contact c = { s.alarm.contact c with
          lastReading := some r
          level := if (s.alarm.contact c).lastReading = some r then r else (s.alarm.contact c).level })
    ∧ (∀ pt : Fin 118, (pt.val < 16 ∨ pt.val = 112 ∨ pt.val = 113) →
        t.alarm.point pt = (s.alarm.judge s.counter pt).point pt)
    ∧ (∀ c : Fin 4,
        let x := s.alarm.contact c
        let changed := x.function = .alarm ∧ (t.alarm.contact c).level ≠ x.level
        let pt := externalPoint c
        let judged := fun a : AlarmUnit => t.alarm.point pt = (a.judge s.counter pt).point pt
        (¬changed → judged s.alarm)
        ∧ (changed → x.edge = false → judged (s.alarm.handRaw s.counter pt (t.alarm.contact c).level))
        ∧ (changed → x.edge = true → (t.alarm.contact c).level = true → judged (s.alarm.event s.counter pt))
        ∧ (changed → x.edge = true → (t.alarm.contact c).level = false → judged s.alarm))
    ∧ (∀ (a : AlarmUnit) (pt : Fin 118), a.boundaryTaken = false →
        execAll [.eventPointRest pt, .filterRise pt, .filterFall pt, .retryExpiry pt] { s with alarm := a }
          = .next { s with alarm := a.judge s.counter pt })
    ∧ (∀ (p : Fin 16) (k : Fin 6), (s.program p = none ∨ k ≠ 0) →
        t.alarm.point (progPoint k p) = (s.alarm.judge s.counter (progPoint k p)).point (progPoint k p))
    ∧ (∀ p, s.program p = none → t.program p = none)
    ∧ ∀ (p : Fin 16) (x : Program), s.program p = some x →
        let run := match x.loud.standbyAt with
          | some v =>
            if 480 ≤ since s.counter v then
              (if belowLevel x.loud.peak s.alarm.silenceLevel then min 65535 (x.loud.silentRun + 1) else 0)
            else x.loud.silentRun
          | none => x.loud.silentRun
        let l := { x.loud with silentRun := run, peak := 0 }
        let reset := ∃ c : Fin 4, (s.alarm.contact c).function = .integrationReset
          ∧ (s.alarm.contact c).programs.getLsbD p.val = true ∧ (s.alarm.contact c).level = false
          ∧ (t.alarm.contact c).level = true
        (¬reset → t.program p = some { x with loud := l })
        ∧ (reset → t.program p = some { x with loud :=
            { l with hist := [], integrated := none, count := 0, gatedCount := 0, gate := none, start := s.counter } })
        ∧ t.alarm.point (progPoint 0 p)
            = ((s.alarm.handRaw s.counter (progPoint 0 p) (decide (1 ≤ run))).judge s.counter (progPoint 0 p)).point
                (progPoint 0 p)
/-- The four steps of a point at an alarm boundary (R158 to R161, R163, R164), each taken where it is due and nothing
where it is not, nor at any other house sample nor once the boundary has been taken: an event point goes to rest more
than 480 house samples after its event; a state point present for its raise time rises, ACTIVE_UNACK, with its raise
count up by one and its protection applied where the kind is in a protect mode and has an action; a point absent for its
clear time falls, an event point's counted from its latest event (from the raw condition's change where it has none
yet, the model's choice, log entry 45); a retry takes the protection away. Code 255 does not run out (R153). Nothing but
the point and the notice queue changes. An event (R158, R160, R163) makes an event point's raw condition present, and
outside OFF its filtered condition rises at once, or where it stands already a raw condition that was absent applies the
protection again. -/
def Obligations.PointsRestRiseFallAndRetry : Prop :=
  (∀ (s : State) (pt : Fin 118), (s.counter.toNat % 480 ≠ 0 ∨ s.alarm.boundaryTaken = true) →
    exec (.eventPointRest pt) s = .next s ∧ exec (.filterRise pt) s = .next s ∧ exec (.filterFall pt) s = .next s
      ∧ exec (.retryExpiry pt) s = .next s)
  ∧ (∀ (s : State) (pt : Fin 118), s.counter.toNat % 480 = 0 → s.alarm.boundaryTaken = false →
    let a := s.alarm
    let x := a.point pt
    let k := a.settingsOf pt
    let expired := fun (code : Byte) (from_ : Time) => ∃ n, intervalSamples code = some n ∧ n ≤ since s.counter from_
    let goes := fun (c : Instr) (y : Point) => ∃ t : State, exec c s = .next t ∧ OnlyPoints s t
      ∧ (∀ q, q ≠ pt → t.alarm.point q = a.point q)
      ∧ t.alarm.point pt = { y with
          lastChange := if y.ann = x.ann ∧ y.applied = x.applied then x.lastChange else some s.counter }
      ∧ (y.ann ≠ x.ann ∨ y.applied ≠ x.applied → t.alarm.notices.any (fun n => n.point == pt) = true)
    (∀ e, a.isEventPoint pt = true → x.raw = true → x.lastEvent = some e →
      (480 < since s.counter e → goes (.eventPointRest pt)
        { x with raw := false, lastRaw := some s.counter, since := s.counter })
      ∧ (since s.counter e ≤ 480 → exec (.eventPointRest pt) s = .next s))
    ∧ ((a.isEventPoint pt = false ∨ x.raw = false) → exec (.eventPointRest pt) s = .next s)
    ∧ (a.isEventPoint pt = false → k.mode ≠ .off → x.filtered = false → x.raw = true →
      (expired k.raiseCode x.since → goes (.filterRise pt) { x with
        filtered := true, ann := .activeUnack, raiseCount := min 65535 (x.raiseCount + 1), lastRise := some s.counter
        applied := x.applied || a.mayProtect pt })
      ∧ (¬ expired k.raiseCode x.since → exec (.filterRise pt) s = .next s))
    ∧ ((a.isEventPoint pt = true ∨ k.mode = .off ∨ x.filtered = true ∨ x.raw = false) →
      exec (.filterRise pt) s = .next s)
    ∧ (k.mode ≠ .off → x.filtered = true → x.raw = false →
      let from_ := if a.isEventPoint pt = true then x.lastEvent.getD x.since else x.since
      (expired k.clearCode from_ → goes (.filterFall pt) { x with
        filtered := false
        ann := match x.ann with
          | .activeUnack => .returnedUnack
          | .activeAck => .quiet
          | .quiet => .quiet
          | .returnedUnack => .returnedUnack })
      ∧ (¬ expired k.clearCode from_ → exec (.filterFall pt) s = .next s))
    ∧ ((k.mode = .off ∨ x.filtered = false ∨ x.raw = true) → exec (.filterFall pt) s = .next s)
    ∧ (k.mode = .protectRetry → x.applied = true → x.raw = false →
      (expired k.retryCode x.since → goes (.retryExpiry pt) { x with applied := false })
      ∧ (¬ expired k.retryCode x.since → exec (.retryExpiry pt) s = .next s))
    ∧ ((k.mode ≠ .protectRetry ∨ x.applied = false ∨ x.raw = true) → exec (.retryExpiry pt) s = .next s))
  ∧ ∀ (now : Time) (pt : Fin 118) (a : AlarmUnit),
    let x := a.point pt
    let e := a.event now pt
    let base := { x with
      raw := true, lastEvent := some now, lastRaw := if x.raw then x.lastRaw else some now
      since := if x.raw then x.since else now }
    let protection := x.applied || a.mayProtect pt
    KeepsSettings a e ∧ (∀ q, q ≠ pt → e.point q = a.point q)
    ∧ (((a.settingsOf pt).mode = .off ∨ (x.filtered = true ∧ x.raw = true)) → e = a.setPoint pt base)
    ∧ ((a.settingsOf pt).mode ≠ .off → x.filtered = false →
        e.point pt = { base with
          filtered := true, ann := .activeUnack, raiseCount := min 65535 (x.raiseCount + 1), lastRise := some now
          applied := protection
          lastChange := if x.ann = .activeUnack ∧ x.applied = protection then x.lastChange else some now }
        ∧ (x.ann ≠ .activeUnack ∨ x.applied ≠ protection → e.notices.any (fun n => n.point == pt) = true))
    ∧ ((a.settingsOf pt).mode ≠ .off → x.filtered = true → x.raw = false →
        e.point pt = { base with
          applied := protection, lastChange := if x.applied = protection then x.lastChange else some now }
        ∧ (x.applied ≠ protection → e.notices.any (fun n => n.point == pt) = true))

/-- SET_ALARM_KIND (R154 to R156): a kind above 12, a mode outside its list, or a protect mode for a kind without a
protective action is BAD_VALUE; the settings are held in their ranges, CLAMPED where one was. The other kinds and
their points stand; in mode OFF the kind's points are quiet, not filtered and without protection, in REPORT without
protection; a change from REPORT to a protect mode applies the protection of a point filtered and raw; one between the
protect modes leaves the points as they are; one from OFF counts the raise time of a state point present from this house
sample; the raw conditions stand, and the notice queue holds the same points and more, in the new order. The silence
level that judges an interval is the one that stands at the end of the house sample before the boundary's (R86,
R155). -/
def Obligations.SetAlarmKindTakesSettings : Prop :=
  (∀ (s : State) (tag k : Byte) (f : KindFields), s.LinkFree →
    (13 ≤ k.toNat ∨ 4 ≤ f.mode.toNat ∨ (2 ≤ f.mode.toNat ∧ k.toNat ∉ [0, 1, 4, 5, 9])) →
    exec (.setAlarmKind tag k f) s = .next (s.replied 0x40 tag .badValue []))
  ∧ (∀ (s : State) (tag b : Byte) (f : KindFields) (k : Fin 13) (mode : AlarmMode), s.LinkFree → b.toNat = k.val →
    mode.code = f.mode.toNat → (2 ≤ f.mode.toNat → k.val ∈ [0, 1, 4, 5, 9]) → s.alarm.InOrder →
    let level := if k.val = 4 then max (-900) (min (-300) f.level.toInt)
      else if k.val = 5 then max (-200) (min 0 f.level.toInt) else f.level.toInt
    let count := if k.val = 5 then max 1 (min 16 f.count.toNat) else f.count.toNat
    let kept := f.priority.toNat ≤ 7 ∧ level = f.level.toInt ∧ count = f.count.toNat
    let old := (s.alarm.kind k).mode
    ∃ t : State, exec (.setAlarmKind tag b f) s = .next (t.replied 0x40 tag (if kept then .ok else .clamped) [])
    ∧ t = { s with alarm := t.alarm }
    ∧ t.alarm.kind k =
        ⟨mode, min 7 f.priority.toNat, f.raiseCode, f.clearCode, f.retryCode, level, count⟩
    ∧ (∀ j, j ≠ k → t.alarm.kind j = s.alarm.kind j)
    ∧ t.alarm.summaries = s.alarm.summaries ∧ t.alarm.contacts = s.alarm.contacts ∧ t.alarm.pins = s.alarm.pins
    ∧ t.alarm.silenceLevel = s.alarm.silenceLevel
    ∧ t.alarm.InOrder
    ∧ (∀ n ∈ s.alarm.notices, t.alarm.notices.any (fun m => m.point == n.point) = true)
    ∧ ∀ pt, (kindOfPoint pt ≠ k → t.alarm.point pt = s.alarm.point pt)
      ∧ (t.alarm.point pt).raw = (s.alarm.point pt).raw
      ∧ (t.alarm.point pt).raiseCount = (s.alarm.point pt).raiseCount
      ∧ (kindOfPoint pt = k →
          (t.alarm.point pt).since = (if old = .off ∧ mode ≠ .off ∧ (s.alarm.point pt).raw = true
            ∧ s.alarm.isEventPoint pt = false then s.counter else (s.alarm.point pt).since)
          ∧ (old = mode → t.alarm.point pt = s.alarm.point pt)
          ∧ (mode = .off → (t.alarm.point pt).filtered = false ∧ (t.alarm.point pt).ann = .quiet
            ∧ (t.alarm.point pt).applied = false)
          ∧ (mode = .report → (t.alarm.point pt).applied = false
            ∧ (t.alarm.point pt).ann = (s.alarm.point pt).ann ∧ (t.alarm.point pt).filtered = (s.alarm.point pt).filtered)
          ∧ (mode.protects = true → old.protects = true → t.alarm.point pt = s.alarm.point pt)
          ∧ (mode.protects = true → old = .off → (t.alarm.point pt).applied = false)
          ∧ (mode.protects = true → old = .report → (t.alarm.point pt).applied =
              ((s.alarm.point pt).filtered && (s.alarm.point pt).raw))))
  ∧ ∀ (s : State) (pins : BitVec 4) (faults : List DramFault), ∃ t : State,
    exec (.houseSampleTick pins faults) s = .next t ∧ t.alarm.silenceLevel = (t.alarm.kind 4).level

/-- ACK_ALARM (R162) names one point or all: a point above 117 is BAD_VALUE, every other request is OK; each point named
goes from ACTIVE_UNACK to ACTIVE_ACK and from RETURNED_UNACK to QUIET, and is unchanged in QUIET and ACTIVE_ACK; its
filtered and raw conditions, its protection and its raise count stand, and so does everything outside the points and
the notice queue. It is not schedulable. -/
def Obligations.AckAlarmAcknowledgesThePointsNamed : Prop :=
  (∀ (s : State) (tag b : Byte), s.LinkFree → 118 ≤ b.toNat → b ≠ 0xFF →
    exec (.ackAlarm tag b) s = .next (s.replied 0x41 tag .badValue []))
  ∧ (∀ (s : State) (tag b : Byte), s.LinkFree → (b.toNat < 118 ∨ b = 0xFF) →
    ∃ t : State, exec (.ackAlarm tag b) s = .next (t.replied 0x41 tag .ok []) ∧ OnlyPoints s t
    ∧ ∀ pt : Fin 118,
      let x := s.alarm.point pt
      let y := t.alarm.point pt
      (pt.val = b.toNat ∨ b = 0xFF →
        (x.ann = .activeUnack → y = { x with ann := .activeAck, lastChange := some s.counter })
        ∧ (x.ann = .returnedUnack → y = { x with ann := .quiet, lastChange := some s.counter })
        ∧ (x.ann = .quiet ∨ x.ann = .activeAck → y = x))
      ∧ (pt.val ≠ b.toNat → b ≠ 0xFF → y = x))
  ∧ ∀ (s : State) (tag : Byte) (due : FrameIndex) (inner : List Byte), s.LinkFree → (tag = 0 ∨ s.outstanding < 40) →
    exec (.schedule tag due 0x41 inner) s = .next (s.replied 0x05 tag .notSchedulable [])

/-- CLEAR_PROTECTION (R165): a point above 117 is BAD_VALUE; a protected point whose raw condition is present is
STILL_PRESENT and keeps its protection; another is OK, and an applied protection is removed. All points: those whose raw
condition is absent lose it, the others are kept and counted in the reply. The annunciation, the conditions and the
counts stand. A raw condition that goes present after a removal applies the protection again where the filtered
condition is present and the kind protects. It is not schedulable. -/
def Obligations.ClearProtectionSparesPresentConditions : Prop :=
  (∀ (s : State) (tag b : Byte), s.LinkFree → 118 ≤ b.toNat → b ≠ 0xFF →
    exec (.clearProtection tag b) s = .next (s.replied 0x42 tag .badValue []))
  ∧ (∀ (s : State) (tag b : Byte) (pt : Fin 118), s.LinkFree → b.toNat = pt.val →
    (s.alarm.point pt).applied = true → (s.alarm.point pt).raw = true →
    exec (.clearProtection tag b) s = .next (s.replied 0x42 tag .stillPresent []))
  ∧ (∀ (s : State) (tag b : Byte) (pt : Fin 118), s.LinkFree → b.toNat = pt.val → (s.alarm.point pt).applied = false →
    exec (.clearProtection tag b) s = .next (s.replied 0x42 tag .ok []))
  ∧ (∀ (s : State) (tag b : Byte) (pt : Fin 118), s.LinkFree → b.toNat = pt.val → (s.alarm.point pt).applied = true →
    (s.alarm.point pt).raw = false →
    ∃ t : State, exec (.clearProtection tag b) s = .next (t.replied 0x42 tag .ok []) ∧ OnlyPoints s t
    ∧ t.alarm.point pt = { s.alarm.point pt with applied := false, lastChange := some s.counter }
    ∧ t.alarm.notices.any (fun n => n.point == pt) = true
    ∧ ∀ q, q ≠ pt → t.alarm.point q = s.alarm.point q)
  ∧ (∀ (s : State) (tag : Byte), s.LinkFree → ∃ t : State,
    exec (.clearProtection tag 0xFF) s = .next (t.replied 0x42 tag .ok (bigEndian 1
      (allPoints.filter fun pt => (s.alarm.point pt).applied && (s.alarm.point pt).raw).length))
    ∧ OnlyPoints s t
    ∧ ∀ pt, t.alarm.point pt =
      if (s.alarm.point pt).applied = true ∧ (s.alarm.point pt).raw = false then
        { s.alarm.point pt with applied := false, lastChange := some s.counter }
      else s.alarm.point pt)
  ∧ (∀ (now : Time) (pt : Fin 118) (a : AlarmUnit), (a.point pt).raw = false → (a.point pt).applied = false →
    (a.point pt).filtered = true → a.mayProtect pt = true →
    ((a.handRaw now pt true).point pt).applied = true
    ∧ (a.handRaw now pt true).notices.any (fun n => n.point == pt) = true)
  ∧ ∀ (s : State) (tag : Byte) (due : FrameIndex) (inner : List Byte), s.LinkFree → (tag = 0 ∨ s.outstanding < 40) →
    exec (.schedule tag due 0x42 inner) s = .next (s.replied 0x05 tag .notSchedulable [])

/-- SET_SUMMARY_OUTPUT (R170) and SET_CONTACT (R171, R172): values outside their lists are BAD_VALUE; an output takes
its five settings, a ceiling above 7 held at 7 and CLAMPED, and is asserted while an enabled output's kinds, ceiling
and filter are met by a point; an input takes its function, polarity, programs and sense, its level and reading
standing, and its EXTERNAL point's raw condition follows the level for an ALARM with sense LEVEL and is absent
otherwise, the house sample of its last change standing where it does not change (R157), but for an ALARM input with
sense EDGE that stays one, whose point stands (the model's reading, log entry 37). -/
def Obligations.SummariesAndContactsAreSet : Prop :=
  (∀ (s : State) (tag b : Byte) (f : SummaryFields), s.LinkFree →
    ((4 ≤ b.toNat ∨ 2 ≤ f.filter.toNat ∨ 2 ≤ f.polarity.toNat ∨ 2 ≤ f.enable.toNat ∨ 8192 ≤ f.kinds.toNat) →
      exec (.setSummaryOutput tag b f) s = .next (s.replied 0x45 tag .badValue []))
    ∧ ∀ o : Fin 4, b.toNat = o.val → f.filter.toNat < 2 → f.polarity.toNat < 2 → f.enable.toNat < 2 →
        f.kinds.toNat < 8192 → ∃ t : State,
        exec (.setSummaryOutput tag b f) s
          = .next (t.replied 0x45 tag (if f.ceiling.toNat ≤ 7 then .ok else .clamped) [])
        ∧ t = { s with alarm := { s.alarm with summaries := (s.alarm.summaries.set o.val
            ⟨f.kinds, min 7 f.ceiling.toNat, decide (f.filter = 1), decide (f.polarity = 1), decide (f.enable = 1)⟩
            o.isLt) } }
        ∧ (f.enable = 0 → t.alarm.asserted o = false ∧ t.alarm.summaryPin o = decide (f.polarity = 1))
        ∧ (f.enable = 1 → (t.alarm.asserted o = true ↔ ∃ pt : Fin 118,
            f.kinds.getLsbD (kindOfPoint pt).val = true ∧ s.alarm.priority pt ≤ f.ceiling.toNat
            ∧ s.alarm.priority pt ≤ 7
            ∧ ((s.alarm.point pt).ann = .activeUnack ∨ (s.alarm.point pt).ann = .returnedUnack
              ∨ (f.filter = 1 ∧ (s.alarm.point pt).ann = .activeAck)))))
  ∧ ∀ (s : State) (tag b : Byte) (f : ContactFields), s.LinkFree →
    ((4 ≤ b.toNat ∨ 5 ≤ f.function.toNat ∨ 2 ≤ f.polarity.toNat ∨ 2 ≤ f.sense.toNat) →
      exec (.setContact tag b f) s = .next (s.replied 0x46 tag .badValue []))
    ∧ ∀ (c : Fin 4) (fn : ContactFunction), b.toNat = c.val → fn.code = f.function.toNat → f.polarity.toNat < 2 →
        f.sense.toNat < 2 → ∃ t : State, exec (.setContact tag b f) s = .next (t.replied 0x46 tag .ok [])
        ∧ t = { s with alarm := t.alarm }
        ∧ t.alarm.contact c = { s.alarm.contact c with
            function := fn, activeLow := decide (f.polarity = 1), programs := f.programs, edge := decide (f.sense = 1) }
        ∧ (∀ d, d ≠ c → t.alarm.contact d = s.alarm.contact d)
        ∧ t.alarm.kinds = s.alarm.kinds ∧ t.alarm.summaries = s.alarm.summaries
        ∧ (∀ pt, pt ≠ externalPoint c → t.alarm.point pt = s.alarm.point pt)
        ∧ (¬ ((s.alarm.contact c).function = .alarm ∧ (s.alarm.contact c).edge = true ∧ fn = .alarm ∧ f.sense = 1) →
            (t.alarm.point (externalPoint c)).raw =
              (decide (fn = .alarm ∧ f.sense = 0) && (s.alarm.contact c).level)
            ∧ (t.alarm.point (externalPoint c)).lastRaw =
              (if (t.alarm.point (externalPoint c)).raw = (s.alarm.point (externalPoint c)).raw then
                (s.alarm.point (externalPoint c)).lastRaw else some s.counter)
            ∧ (t.alarm.point (externalPoint c)).lastEvent = (s.alarm.point (externalPoint c)).lastEvent)
        ∧ ((s.alarm.contact c).function = .alarm → (s.alarm.contact c).edge = true → fn = .alarm → f.sense = 1 →
            t.alarm.point (externalPoint c) = s.alarm.point (externalPoint c))

/-! ## Reads -/

/-- The reads (R14, R21, R47, R67, R88, R120, R139, R149, R173, R174) are answered OK and change nothing but the reply
place; READ_LANE then clears the ready flag, and READ_ALARM_LIST answers CLAMPED for a maximum above 24. Each report is
given byte by byte as R197 and R198 lay it out (flags from bit 7 down: log entry 22; the frame-rate setting: log entry
24; a byte whose subject is absent is a free value: log entry 13; a lock run count past its field: log entry 14; a
power in the 32-bit form, rounded to one of the two values beside it: log entry 11). A VACANT program is read as its
state alone; a lane, point or flag outside its list is BAD_VALUE and clears nothing. -/
def Obligations.ReadsReportAndChangeNothing : Prop :=
  (∀ q : Power, 0 < q.mant → ∀ l : Nat, 2 ^ l ≤ q.mant → q.mant < 2 ^ (l + 1) → q.shift < l + 127 →
    ∃ f : Nat, q.float32 = (l + 126 - q.shift) * 2 ^ 23 + f
      ∧ ((f * 2 ^ l : Int) - q.mant * 2 ^ 23).natAbs < 2 ^ l
      ∧ (q.mant * 2 ^ 23 % 2 ^ l = 0 → f * 2 ^ l = q.mant * 2 ^ 23))
  ∧ ∀ (s : State) (tag : Byte), s.LinkFree →
    let now := s.counter
    let tb := s.tb
    let bit := fun b : Bool => if b then 1 else 0
    let free := fun place n : Nat => (List.range n).map fun i => Config.unstatedByte now.toNat (place + i)
    let count := fun place n v : Nat => if v < 256 ^ n then bigEndian n v else free place n
    let gain := fun v : Option Int => match v with
      | some v => bigEndianInt 2 v
      | none => [0x80, 0x00]
    let index := fun v : Option Nat => match v with
      | some v => bigEndian 5 v
      | none => List.replicate 5 0xFF
    let time := fun v : Option Time => match v with
      | some v => bigEndian 6 v.toNat
      | none => List.replicate 6 0xFF
    let left := fun v : Option Nat => match v with
      | some v => bigEndian 4 v
      | none => List.replicate 4 0xFF
    let runs := fun (code : Byte) (from_ : Time) => (intervalSamples code).map fun n => n - since now from_
    let fade := fun f : Fade => bigEndian 2 f.level ++ bigEndian 1 f.dir.code
    let source := fun c : Source => bigEndian 1 (c.lane.val * 16 + c.slot.val)
    let held := fun p : Fin 16 => allLanes.any fun c => (s.alarm.contact c).function == .integrationHold
      && (s.alarm.contact c).level && (s.alarm.contact c).programs.getLsbD p.val
    let state := fun y : Point =>
      bigEndian 1 (y.ann.code * 64 + bit y.raw * 32 + bit y.filtered * 16 + bit y.applied * 8)
    (exec (.readTime tag) s = .next (s.replied 0x11 tag .ok
      (bigEndian 6 now.toNat ++ bigEndian 5 tb.frameIndex.toNat ++ bigEndian 6 tb.frameStart.toNat
        ++ bigEndian 2 tb.frameLen ++ bigEndian 1 tb.cadence ++ bigEndian 1 tb.rate.code
        ++ bigEndian 1 (match tb.pendingRate with
            | some r => r.code
            | none => 255)
        ++ bigEndian 1 tb.selection.code
        ++ [flagsByte [tb.holdSince.isSome, tb.revertSince.isSome, tb.realign, tb.refA.present, tb.refA.markerSeen,
              tb.refB.present, tb.refB.markerSeen]]
        ++ left (tb.holdSince.bind (runs tb.holdCode))
        ++ left (tb.revertSince.map fun r => 96000 - since now r)
        ++ bigEndian 1 tb.refA.cadenceCount ++ bigEndian 1 tb.refB.cadenceCount
        ++ bigEndian 1 (tb.pendingRate.getD tb.rate).code ++ bigEndian 1 (if tb.preference = .a then 0 else 1)
        ++ bigEndian 1 (bit tb.revertive) ++ [tb.holdCode]
        ++ bigEndian 1 tb.schedule.length ++ index (tb.schedule.head?.map fun e => e.due.toNat))))
    ∧ exec (.readSchedule tag) s = .next (s.replied 0x06 tag .ok
        (bigEndian 5 tb.frameIndex.toNat ++ bigEndian 1 tb.schedule.length
          ++ tb.schedule.flatMap fun e =>
              let kind := ([0x21, 0x22, 0x24, 0x30, 0x29, 0x28, 0x38] : List Byte).idxOf e.kind
              let program := match e.body with
                | b :: _ => if b.toNat < 16 then b.toNat else 31
                | [] => 31
              e.tag :: (bigEndian 1 (kind * 32 + program) ++ bigEndian 5 e.due.toNat)))
    ∧ (∀ first : BitVec 16,
        let q := s.pool
        let ring := fun p : Fin 16 => ((s.program p).map Program.ring).getD []
        let filled := (q.fill.map FillEntry.program).eraseDups
        let slice := (q.retired.drop first.toNat).take 48
        exec (.readPool tag first) s = .next (s.replied 0x35 tag .ok
          (bigEndian 1 (match q.device with
              | .none => 0
              | .mib64 => 1
              | .mib128 => 2)
            ++ bigEndian 2 q.sized ++ bigEndian 2 q.free.length ++ bigEndian 2 q.retired.length
            ++ bigEndian 2 q.window.length
            ++ (allPrograms.flatMap fun p =>
                  bigEndian 2 (ring p).length ++ bigEndian 2 ((ring p).filter fun e => e.suspect).length)
            ++ bigEndian 1 filled.length
            ++ (filled.flatMap fun p =>
                  bigEndian 1 p.val ++ bigEndian 2 (q.fill.filter fun e => e.program == p).length)
            ++ (match q.check with
                | some c => 1 :: c.tag :: (bigEndian 2 c.quota ++ bigEndian 2 c.taken ++ bigEndian 2 c.tested
                    ++ bigEndian 2 c.retired)
                | none => 0 :: free 64 9)
            ++ bigEndian 4 q.readErrors ++ bigEndian 2 q.retired.length ++ bigEndian 1 slice.length
            ++ slice.flatMap fun page => bigEndian 2 page)))
    ∧ (let input := fun c : Fin 4 =>
        let y := s.alarm.contact c
        bigEndian 1 y.function.code ++ bigEndian 1 (bit y.activeLow) ++ bigEndian 2 y.programs.toNat
          ++ bigEndian 1 (bit y.edge)
          ++ bigEndian 1 (match y.lastReading with
              | some r => bit r
              | none => 2)
          ++ bigEndian 1 (bit y.level)
      let output := fun o : Fin 4 =>
        let y := s.alarm.summaries[o.val]'o.isLt
        let met := allPoints.any fun pt => y.kinds.getLsbD (kindOfPoint pt).val
          && decide (s.alarm.priority pt ≤ y.ceiling)
          && ((s.alarm.point pt).ann == .activeUnack || (s.alarm.point pt).ann == .returnedUnack
            || (y.anyActive && (s.alarm.point pt).ann == .activeAck))
        bigEndian 2 y.kinds.toNat ++ bigEndian 1 y.ceiling ++ bigEndian 1 (bit y.anyActive)
          ++ bigEndian 1 (bit y.activeLow) ++ bigEndian 1 (bit y.enabled) ++ bigEndian 1 (bit (y.enabled && met))
      exec (.readContacts tag) s = .next (s.replied 0x47 tag .ok (allLanes.flatMap input ++ allLanes.flatMap output)))
    ∧ (∀ b : Byte,
        (4 ≤ b.toNat → exec (.readLane tag b) s = .next (s.replied 0x1B tag .badValue []))
        ∧ ∀ l : Fin 4, b.toNat = l.val →
          let x := s.lane l
          let class_ := x.cls.getD .k48
          exec (.readLane tag b) s = .next (State.replied 0x1B tag .ok
            (bigEndian 1 (bit x.enabled) ++ bigEndian 1 (bit x.oneShot) ++ [x.holdCode] ++ bigEndian 1 x.state.code
              ++ [flagsByte [x.clockPresent, x.admission, x.slip.dir != .steady, x.returnStart.isSome, x.blockReady,
                    x.enabled && !x.clockPresent, x.enabled && x.clockPresent && x.state != .locked, x.rateWrong]]
              ++ bigEndian 1 (match x.cls with
                  | none => 0
                  | some .k32 => 1
                  | some .k44 => 2
                  | some .k48 => 3
                  | some .k96 => 4)
              ++ (if x.state = .pulling ∨ x.state = .ready ∨ x.state = .locked then
                    bigEndian 4 (x.fillQ / 2 ^ 16) ++ bigEndianInt 4 ((x.fillQ / 2 ^ 16 : Nat) - 16384)
                  else free 0 8)
              ++ bigEndianInt 4 x.rho ++ bigEndianInt 4 x.rhoInt ++ bigEndianInt 4 class_.nominal
              ++ bigEndianInt 2 class_.catchRange
              ++ (if x.lockRun ≤ 65535 then bigEndian 2 x.lockRun
                  else bigEndian 2 (Config.longLockRun x.lockRun).toNat)
              ++ bigEndian 1 x.pinRun ++ bigEndian 2 x.latency32 ++ bigEndian 1 x.inUse ++ bigEndian 2 x.slipCount
              ++ left (if x.state = .holdover then runs x.holdCode x.holdSince else none)
              ++ (match x.keptBlock with
                  | some bytes => 1 :: bytes
                  | none => 0 :: free 8 24))
            (s.setLane l { x with blockReady := false })))
    ∧ (∀ b : Byte,
        (118 ≤ b.toNat → exec (.readAlarm tag b) s = .next (s.replied 0x43 tag .badValue []))
        ∧ ∀ pt : Fin 118, b.toNat = pt.val →
          let x := s.alarm.point pt
          let k := s.alarm.settingsOf pt
          let event := s.alarm.isEventPoint pt
          let raising := !event && k.mode != .off && !x.filtered && x.raw
          let clearing := k.mode != .off && x.filtered && (event || !x.raw)
          let retrying := k.mode == .protectRetry && x.applied && !x.raw
          exec (.readAlarm tag b) s = .next (s.replied 0x43 tag .ok
            (bigEndian 1 pt.val ++ state x ++ bigEndian 2 x.raiseCount ++ time x.lastChange ++ time x.lastRise
              ++ time (if event then x.lastEvent else x.lastRaw)
              ++ (match event, x.lastEvent with
                  | true, some e => count 80 4 (since now e)
                  | true, none => free 80 4
                  | false, _ => free 80 4)
              ++ left (if raising then runs k.raiseCode x.since else none)
              ++ left (if clearing then runs k.clearCode (if event then x.lastEvent.getD x.since else x.since) else none)
              ++ left (if retrying then runs k.retryCode x.since else none)
              ++ (match s.alarm.notices.find? fun n => n.point == pt with
                  | some n => 1 :: (bigEndian 1 n.coalesced ++ bigEndian 6 n.first.toNat)
                  | none => 0 :: (free 84 1 ++ List.replicate 6 0xFF))
              ++ bigEndian 1 k.mode.code ++ bigEndian 1 k.priority ++ [k.raiseCode, k.clearCode, k.retryCode]
              ++ bigEndianInt 2 k.level ++ bigEndian 1 k.count)))
    ∧ (∀ b n : Byte,
        (118 ≤ b.toNat → exec (.readAlarmList tag b n) s = .next (s.replied 0x44 tag .badValue []))
        ∧ (b.toNat < 118 →
          let most := if n = 0 then 24 else min 24 n.toNat
          let l := allPoints.filter fun pt => decide (b.toNat ≤ pt.val)
            && ((s.alarm.point pt).ann != .quiet || (s.alarm.point pt).applied)
          exec (.readAlarmList tag b n) s = .next (s.replied 0x44 tag (if n.toNat ≤ 24 then .ok else .clamped)
            (bigEndian 1 (min most l.length)
              ++ bigEndian 1 (match l.drop most with
                  | pt :: _ => pt.val
                  | [] => 255)
              ++ (l.take most).flatMap fun pt => bigEndian 1 pt.val ++ state (s.alarm.point pt)
                  ++ bigEndian 2 (s.alarm.point pt).raiseCount ++ time (s.alarm.point pt).lastChange))))
    ∧ ∀ (p : Fin 16) (b : Byte), b.toNat = p.val →
      (s.program p = none → exec (.readProgram tag b) s = .next (s.replied 0x26 tag .ok [0]))
      ∧ ∀ x, s.program p = some x →
        let a := x.align
        let o := x.out
        let line := if a.bypass = .inEffect then 0 else a.cur / 65536
        let out := (now - BitVec.ofNat 48 line).toNat
        let openTag : Byte := match x.openDef, a.op with
          | some t, _ => t
          | none, some w => w.tag
          | none, none => 0
        exec (.readProgram tag b) s = .next (s.replied 0x26 tag .ok
          (bigEndian 1 x.state.code ++ bigEndian 2 x.maxDelay ++ bigEndian 1 x.rows ++ bigEndian 2 x.ring.length
            ++ fade x.onAir ++ bigEndian 1 (bit o.muted) ++ [openTag]
            ++ x.channels.flatMap fun ch => bigEndian 1 ch.role.code ++ source ch.primary
                ++ (match ch.backup with
                    | some c => source c
                    | none => [0xFF])
                ++ bigEndian 1 ch.mode.code
                ++ [flagsByte [ch.demand, ch.desired == .backup, ch.current == .backup,
                      (s.lane ch.inUse.lane).state == .locked]]
                ++ source ch.inUse ++ bigEndian 1 ch.coFade.dir.code ++ bigEndian 2 ch.coFade.level
                ++ source ch.egress ++ bigEndian 1 ch.trim))
        ∧ exec (.readDelay tag b) s = .next (s.replied 0x31 tag .ok
          (bigEndian 4 a.value ++ bigEndian 1 x.rows ++ bigEndian 4 ((x.rows - 1) * 4800) ++ bigEndian 1 a.retrim.code
            ++ bigEndian 1 a.slewRate ++ bigEndian 2 (slewStep a.slewRate) ++ bigEndian 2 a.autoLimit
            ++ bigEndian 1 a.pathLat ++ bigEndian 4 a.target ++ bigEndian 4 (a.cur / 65536)
            ++ bigEndian 2 (a.cur % 65536) ++ bigEndian 4 line ++ bigEndian 6 out ++ bigEndian 1 a.motion.code
            ++ bigEndian 1 (match a.pending with
                | some m => m.code
                | none => 255)
            ++ fade a.fade ++ bigEndian 1 a.bypass.code
            ++ bigEndian 1 (bit (decide ((a.target : Int) ≠ (a.value : Int) - a.pathLat) || a.applied))
            ++ [match a.op with
                | some w => w.tag
                | none => 0]
            ++ (x.channels.mapIdx fun i ch => bigEndian 1 ch.inUse.lane.val ++ bigEndian 1 (bit ch.live)
                  ++ (if ch.live then bigEndian 1 ch.pathLat else free (48 + i) 1)
                  ++ bigEndian 1 ch.required ++ bigEndian 1 ch.trim ++ fade ch.trimFade).flatten))
        ∧ (∀ f : Byte, 2 ≤ f.toNat → exec (.readLoudness tag b f) s = .next (s.replied 0x2C tag .badValue []))
        ∧ (∀ f : Byte, f.toNat < 2 →
          let l := x.loud
          let c := x.corr
          let entry := fun e : Option GainEntry => match e with
            | some e => bigEndian 5 e.block ++ bigEndianInt 2 e.value ++ bigEndian 6 e.due.toNat
            | none => List.replicate 13 0xFF
          exec (.readLoudness tag b f) s = .next (s.replied 0x2C tag .ok
            ((match l.ring.getLast? with
              | some r => bigEndian 5 r.index ++ bigEndian 4 r.power.float32 ++ gain r.loudness
                  ++ bigEndian 1 r.validity.code
              | none => List.replicate 5 0xFF ++ free 32 4 ++ gain none ++ free 36 1)
            ++ bigEndian 1 l.ring.length
            ++ bigEndian 1 (l.ring.filter fun r => r.validity == .valid).length
            ++ gain l.momentary ++ gain l.shortTerm ++ gain l.integrated
            ++ count 40 4 l.count ++ count 44 4 l.gatedCount ++ gain l.gate
            ++ gain (l.hist.head?.map fun h => (h.bin : Int) - 700)
            ++ gain (l.hist.getLast?.map fun h => (h.bin : Int) - 700)
            ++ bigEndian 6 l.start.toNat
            ++ [flagsByte [l.paused, held p, decide (1 ≤ l.silentRun), c.gainLimit, c.loud]]
            ++ bigEndian 2 l.silentRun
            ++ bigEndian 1 c.settings.mode.code ++ bigEndianInt 2 c.settings.target
            ++ bigEndianInt 2 c.settings.maxBoost ++ bigEndianInt 2 c.settings.maxAttenuation
            ++ bigEndianInt 2 c.settings.upSlew ++ bigEndianInt 2 c.settings.downSlew
            ++ bigEndianInt 2 c.settings.holdDepth ++ bigEndianInt 2 c.settings.window
            ++ bigEndianInt 2 c.settings.manualTrim ++ bigEndian 4 c.settings.lookAhead
            ++ bigEndianInt 2 c.gain ++ bigEndian 1 c.hold.code
            ++ (match c.desired with
                | some d => bigEndianInt 2 d.value ++ bigEndian 1 d.clamped.code ++ bigEndian 5 d.block
                | none => gain none ++ 0xFF :: index none)
            ++ bigEndianInt 2 o.applied ++ bigEndian 6 out
            ++ bigEndian 1 o.schedule.length ++ entry o.schedule.head? ++ entry o.schedule.getLast?
            ++ if f = 1 then l.ring.flatMap (fun r => gain r.loudness ++ bigEndian 1 r.validity.code) else [])))
        ∧ exec (.readOutput tag b) s = .next (s.replied 0x39 tag .ok
            (bigEndianInt 2 o.applied ++ bigEndianInt 2 x.corr.settings.manualTrim ++ bigEndianInt 2 o.pad
              ++ bigEndianInt 2 o.total ++ bigEndian 1 (bit o.gainHeld) ++ bigEndian 4 o.rampTarget
              ++ bigEndian 4 o.rampNow ++ bigEndian 2 (min 480 o.rampStep) ++ fade x.onAir
              ++ bigEndian 1 (bit o.muted) ++ fade o.muteFade ++ fade a.fade
              ++ x.channels.flatMap fun ch => source ch.egress ++ bigEndian 1 ch.overRun ++ bigEndian 4 ch.satCount))
end

