-- ==== Sys2Proof/Laws/Response.lean ====
section
/-! SUPPORT. The response of a list of coefficients: by Goertzel's recurrence in any ring, and as a sum on the unit
circle, whose power a row of R38's table bounds. -/

namespace Sys2Proof

open Machine ComplexConjugate

/-! ## Goertzel's recurrence in any ring -/

/-- The recurrence of `tone` in a commutative ring, its unit given: x, y and the scale. -/
def toneIn {R : Type} [CommRing R] (unit cosine : R) : List Int → R × R × R
  | [] => (0, 0, 1)
  | h :: rest =>
    let t := toneIn unit cosine rest
    (unit * t.2.2 * h + 2 * cosine * t.1 - unit * t.2.1, unit * t.1, unit * t.2.2)

/-- It is `tone` in the whole numbers. -/
theorem tone_eq (c : Int) (l : List Int) :
    tone c l = ⟨(toneIn 1152921504606846976 c l).1, (toneIn 1152921504606846976 c l).2.1,
      (toneIn 1152921504606846976 c l).2.2⟩ := by
  induction l with
  | nil => rfl
  | cons h t ih => simp [tone, toneIn, ih]

/-- A ring homomorphism carries it over. -/
theorem map_toneIn {R S : Type} [CommRing R] [CommRing S] (f : R →+* S) (u c : R) (l : List Int) :
    toneIn (f u) (f c) l = (f (toneIn u c l).1, f (toneIn u c l).2.1, f (toneIn u c l).2.2) := by
  induction l with
  | nil => simp [toneIn]
  | cons h t ih => simp [toneIn, ih, map_ofNat]

/-- The scale of a response is that of its length. -/
theorem toneIn_scale {R : Type} [CommRing R] (u c : R) (l : List Int) : (toneIn u c l).2.2 = u ^ l.length := by
  induction l with
  | nil => simp [toneIn]
  | cons h t ih => simp only [toneIn, ih, List.length_cons, pow_succ]; ring

/-- The response at a multiple of unit and cosine. -/
theorem toneIn_mul {R : Type} [CommRing R] (k u c : R) (l : List Int) :
    toneIn (k * u) (k * c) l = (k ^ l.length * (toneIn u c l).1, k ^ l.length * (toneIn u c l).2.1,
      k ^ l.length * (toneIn u c l).2.2) := by
  induction l with
  | nil => simp [toneIn]
  | cons h t ih =>
    simp only [toneIn, ih, List.length_cons, pow_succ, Prod.mk.injEq]
    refine ⟨by ring, by ring, by ring⟩

/-- A response's power, by its scale. -/
def powerIn {R : Type} [CommRing R] (unit cosine : R) (l : List Int) : R :=
  let t := toneIn unit cosine l
  (t.1 * t.1 + t.2.1 * t.2.1) * unit - 2 * cosine * t.1 * t.2.1

/-- A power at a multiple of unit and cosine. -/
theorem powerIn_mul {R : Type} [CommRing R] (k u c : R) (l : List Int) :
    powerIn (k * u) (k * c) l = k ^ (2 * l.length + 1) * powerIn u c l := by
  simp only [powerIn, toneIn_mul, pow_succ, pow_mul]
  ring

/-- A ring homomorphism carries a power over. -/
theorem map_powerIn {R S : Type} [CommRing R] [CommRing S] (f : R →+* S) (u c : R) (l : List Int) :
    powerIn (f u) (f c) l = f (powerIn u c l) := by
  simp [powerIn, map_toneIn, map_ofNat]

/-- A row is kept where the power lies between its bounds. -/
theorem keptBy_iff (bits : Nat) (taps : List Int) (r : ToneRow) :
    r.keptBy bits taps = true
      ↔ r.least * (1152921504606846976 ^ (2 * taps.length + 1) * 4 ^ bits)
          ≤ powerIn 1152921504606846976 r.cosine taps * 1000000000000
        ∧ powerIn 1152921504606846976 r.cosine taps * 1000000000000
          ≤ r.greatest * (1152921504606846976 ^ (2 * taps.length + 1) * 4 ^ bits) := by
  have e : (1152921504606846976 : Int) * 1152921504606846976 ^ taps.length * 1152921504606846976 ^ taps.length
      * ((4 ^ bits : Nat) : Int) = 1152921504606846976 ^ (2 * taps.length + 1) * 4 ^ bits := by
    push_cast; ring
  simp only [ToneRow.keptBy, powerIn, tone_eq, Bool.and_eq_true, decide_eq_true_eq, toneIn_scale, e]

/-! ## The response on the unit circle -/

/-- The point of the unit circle at an angle. -/
noncomputable def onCircle (a : ℝ) : ℂ := Complex.exp (a * Complex.I)

theorem onCircle_eq (a : ℝ) : onCircle a = Real.cos a + Real.sin a * Complex.I := by
  simp [onCircle, Complex.exp_mul_I]

@[simp] theorem onCircle_re (a : ℝ) : (onCircle a).re = Real.cos a := by
  simp only [onCircle_eq, Complex.add_re, Complex.ofReal_re, Complex.mul_re, Complex.ofReal_im, Complex.I_re,
    Complex.I_im]; ring

@[simp] theorem onCircle_im (a : ℝ) : (onCircle a).im = Real.sin a := by
  simp only [onCircle_eq, Complex.add_im, Complex.ofReal_im, Complex.mul_im, Complex.ofReal_re, Complex.I_re,
    Complex.I_im]; ring

theorem onCircle_pow (a : ℝ) (n : Nat) : onCircle a ^ n = onCircle (n * a) := by
  simp only [onCircle, ← Complex.exp_nat_mul]; push_cast; ring_nf

theorem onCircle_add (a b : ℝ) : onCircle (a + b) = onCircle a * onCircle b := by
  simp only [onCircle, ← Complex.exp_add]; push_cast; ring_nf

@[simp] theorem normSq_onCircle (a : ℝ) : Complex.normSq (onCircle a) = 1 := by
  rw [Complex.normSq_apply, onCircle_re, onCircle_im]
  nlinarith [Real.sin_sq_add_cos_sq a]

theorem onCircle_mul_conj (a : ℝ) : onCircle a * conj (onCircle a) = 1 := by
  rw [Complex.mul_conj, normSq_onCircle]; simp

theorem onCircle_ne_zero (a : ℝ) : onCircle a ≠ 0 := Complex.exp_ne_zero _

/-- Σ hᵢ zⁱ of a list of coefficients. -/
noncomputable def phasor (z : ℂ) : List Int → ℂ
  | [] => 0
  | h :: t => h + z * phasor z t

/-- The power of a response at an angle for one coefficient. -/
noncomputable def gain (a : ℝ) (l : List Int) : ℝ := Complex.normSq (phasor (onCircle a) l)

theorem gain_nonneg (a : ℝ) (l : List Int) : 0 ≤ gain a l := Complex.normSq_nonneg _

theorem phasor_append (z : ℂ) (a b : List Int) : phasor z (a ++ b) = phasor z a + z ^ a.length * phasor z b := by
  induction a with
  | nil => simp [phasor]
  | cons h t ih => simp only [List.cons_append, phasor, ih, List.length_cons, pow_succ]; ring

theorem phasor_zeros (z : ℂ) (n : Nat) : phasor z (List.replicate n 0) = 0 := by
  induction n with
  | zero => rfl
  | succ n ih => simp [List.replicate_succ, phasor, ih]

/-- A list read backwards gives, but for a turn, the conjugate. -/
theorem phasor_reverse (a : ℝ) (l : List Int) :
    onCircle a * phasor (onCircle a) l.reverse = onCircle a ^ l.length * conj (phasor (onCircle a) l) := by
  induction l with
  | nil => simp [phasor]
  | cons h t ih =>
    simp only [List.reverse_cons, phasor_append, List.length_reverse, phasor, mul_zero, add_zero, map_add, map_mul,
      map_intCast, List.length_cons, pow_succ, mul_add, ih]
    linear_combination (-(onCircle a ^ t.length * conj (phasor (onCircle a) t))) * onCircle_mul_conj a

/-- A list read backwards has the same power. -/
theorem gain_reverse (a : ℝ) (l : List Int) : gain a l.reverse = gain a l := by
  have h := congrArg Complex.normSq (phasor_reverse a l)
  simpa [gain, Complex.normSq_conj] using h

/-- The response by Goertzel's recurrence. -/
theorem phasor_eq (a : ℝ) (l : List Int) :
    phasor (onCircle a) l = (toneIn (1 : ℝ) (Real.cos a) l).1 - (toneIn (1 : ℝ) (Real.cos a) l).2.1 * conj (onCircle a) := by
  have h2 : (2 : ℂ) * (Real.cos a : ℝ) = onCircle a + conj (onCircle a) := by
    rw [Complex.add_conj, onCircle_re]; push_cast; ring
  push_cast at h2
  induction l with
  | nil => simp [phasor, toneIn]
  | cons h t ih =>
    have s : (toneIn (1 : ℝ) (Real.cos a) t).2.2 = 1 := by rw [toneIn_scale, one_pow]
    simp only [phasor, ih, toneIn, s, one_mul]
    push_cast
    linear_combination (-((toneIn (1 : ℝ) (Real.cos a) t).1 : ℂ)) * h2
      - ((toneIn (1 : ℝ) (Real.cos a) t).2.1 : ℂ) * onCircle_mul_conj a

/-- The power by Goertzel's recurrence. -/
theorem gain_eq (a : ℝ) (l : List Int) : gain a l = powerIn (1 : ℝ) (Real.cos a) l := by
  rw [gain, phasor_eq, Complex.normSq_apply]
  simp only [Complex.sub_re, Complex.sub_im, Complex.mul_re, Complex.mul_im, Complex.ofReal_re, Complex.ofReal_im,
    Complex.conj_re, Complex.conj_im, onCircle_re, onCircle_im, powerIn]
  linear_combination (toneIn (1 : ℝ) (Real.cos a) l).2.1 ^ 2 * Real.sin_sq_add_cos_sq a

/-- The power is the same on both sides of the circle. -/
theorem gain_congr {a b : ℝ} (h : Real.cos a = Real.cos b) (l : List Int) : gain a l = gain b l := by
  rw [gain_eq, gain_eq, h]

/-- A response's power within the bounds of a row. -/
def Within (bits : Nat) (least greatest : Int) (a : ℝ) (l : List Int) : Prop :=
  (least : ℝ) * 4 ^ bits ≤ gain a l * 1000000000000 ∧ gain a l * 1000000000000 ≤ greatest * 4 ^ bits

/-- A row is kept where the power at its angle lies within its bounds. -/
theorem keptBy_iff_within {bits : Nat} {taps : List Int} {r : ToneRow} {a : ℝ}
    (h : (r.cosine : ℝ) = 1152921504606846976 * Real.cos a) :
    r.keptBy bits taps = true ↔ Within bits r.least r.greatest a taps := by
  have e := map_powerIn (Int.castRingHom ℝ) 1152921504606846976 r.cosine taps
  have e1 : (Int.castRingHom ℝ) 1152921504606846976 = 1152921504606846976 * 1 := by norm_num
  have e2 : (Int.castRingHom ℝ) r.cosine = 1152921504606846976 * Real.cos a := h
  rw [e1, e2, powerIn_mul, ← gain_eq] at e
  have k : (0 : ℝ) < 1152921504606846976 ^ (2 * taps.length + 1) := by positivity
  have cast : ∀ x y : Int, x ≤ y ↔ (x : ℝ) ≤ y := fun x y => Int.cast_le.symm
  simp only [eq_intCast] at e
  rw [keptBy_iff, cast, cast, Within]
  push_cast
  rw [← e]
  constructor
  · rintro ⟨h1, h2⟩
    constructor
    · refine le_of_mul_le_mul_left ?_ k
      linarith
    · refine le_of_mul_le_mul_left ?_ k
      linarith
  · rintro ⟨h1, h2⟩
    have := mul_le_mul_of_nonneg_left h1 k.le
    have := mul_le_mul_of_nonneg_left h2 k.le
    constructor <;> linarith

/-- An angle between 0 and π for a cosine in units of 2⁻⁶⁰. -/
theorem exists_angle {c : Int} (h0 : -1152921504606846976 ≤ c) (h1 : c ≤ 1152921504606846976) :
    ∃ a : ℝ, 0 ≤ a ∧ a ≤ Real.pi ∧ (c : ℝ) = 1152921504606846976 * Real.cos a := by
  have g0 : (-1152921504606846976 : ℝ) ≤ c := by exact_mod_cast h0
  have g1 : (c : ℝ) ≤ 1152921504606846976 := by exact_mod_cast h1
  refine ⟨Real.arccos (c / 1152921504606846976), Real.arccos_nonneg _, Real.arccos_le_pi _, ?_⟩
  rw [Real.cos_arccos (by rw [le_div_iff₀ (by norm_num)]; linarith) (by rw [div_le_iff₀ (by norm_num)]; linarith)]
  field_simp

/-! ## Two halves of a list -/

/-- Twice the power of two halves by Goertzel's recurrence: of the sum and of the difference of the later and the
mirrored earlier coefficients. -/
def halvesIn {R : Type} [CommRing R] (u c : R) (e o : List Int) : R :=
  let t := toneIn u c e
  let d := toneIn u c o
  (u + c) * (t.1 - t.2.1) ^ 2 + (u - c) * (d.1 + d.2.1) ^ 2

/-- It is linear in the coefficients. -/
theorem phasor_zipWith_add (z : ℂ) : ∀ a b : List Int, a.length = b.length →
    phasor z (List.zipWith (· + ·) b a) = phasor z b + phasor z a
  | [], [], _ => by simp [phasor]
  | x :: a, y :: b, h => by
    simp only [List.zipWith_cons_cons, phasor, phasor_zipWith_add z a b (by simpa using h)]; push_cast; ring

theorem phasor_zipWith_sub (z : ℂ) : ∀ a b : List Int, a.length = b.length →
    phasor z (List.zipWith (· - ·) b a) = phasor z b - phasor z a
  | [], [], _ => by simp [phasor]
  | x :: a, y :: b, h => by
    simp only [List.zipWith_cons_cons, phasor, phasor_zipWith_sub z a b (by simpa using h)]; push_cast; ring

/-- The power of a list from its two halves. -/
theorem gain_halves (t : ℝ) {a b : List Int} (h : a.length = b.length) :
    2 * gain t (a.reverse ++ b)
      = halvesIn (1 : ℝ) (Real.cos t) (List.zipWith (· + ·) b a) (List.zipWith (· - ·) b a) := by
  set w := onCircle (t / 2) with hw
  have hz : onCircle t = w * w := by rw [hw, ← onCircle_add]; ring_nf
  have hwc : w * conj w = 1 := onCircle_mul_conj _
  have e1 : onCircle t * phasor (onCircle t) (a.reverse ++ b)
      = onCircle t ^ a.length * w * (conj (w * phasor (onCircle t) a) + w * phasor (onCircle t) b) := by
    rw [phasor_append, mul_add, phasor_reverse, List.length_reverse, map_mul, hz]
    linear_combination (-((w * w) ^ a.length * conj (phasor (w * w) a))) * hwc
  have e2 : gain t (a.reverse ++ b)
      = Complex.normSq (conj (w * phasor (onCircle t) a) + w * phasor (onCircle t) b) := by
    have := congrArg Complex.normSq e1
    simpa [gain, hw] using this
  have e3 : conj (w * phasor (onCircle t) a) + w * phasor (onCircle t) b
      = ((w * phasor (onCircle t) (List.zipWith (· + ·) b a)).re : ℂ)
        + ((w * phasor (onCircle t) (List.zipWith (· - ·) b a)).im : ℂ) * Complex.I := by
    rw [phasor_zipWith_add _ a b h, phasor_zipWith_sub _ a b h]
    apply Complex.ext <;> simp <;> ring
  have part : ∀ l : List Int, w * phasor (onCircle t) l
      = (toneIn (1 : ℝ) (Real.cos t) l).1 * w - (toneIn (1 : ℝ) (Real.cos t) l).2.1 * conj w := by
    intro l
    rw [phasor_eq, hz, map_mul]
    linear_combination (-((toneIn (1 : ℝ) (Real.cos t) l).2.1 : ℂ) * conj w) * hwc
  have wr : w.re = Real.cos (t / 2) := onCircle_re _
  have wi : w.im = Real.sin (t / 2) := onCircle_im _
  have hc : Real.cos t = 2 * Real.cos (t / 2) ^ 2 - 1 := by rw [← Real.cos_two_mul]; ring_nf
  have hs := Real.sin_sq_add_cos_sq (t / 2)
  rw [e2, e3, part, part, Complex.normSq_add_mul_I]
  simp only [Complex.sub_re, Complex.sub_im, Complex.mul_re, Complex.mul_im, Complex.ofReal_re, Complex.ofReal_im,
    Complex.conj_re, Complex.conj_im, wr, wi, halvesIn]
  generalize toneIn (1 : ℝ) (Real.cos t) (List.zipWith (· + ·) b a) = p
  generalize toneIn (1 : ℝ) (Real.cos t) (List.zipWith (· - ·) b a) = q
  rw [hc]
  linear_combination 2 * (q.1 + q.2.1) ^ 2 * hs

/-- It at a multiple of unit and cosine. -/
theorem halvesIn_mul {R : Type} [CommRing R] (k u c : R) {e o : List Int} (h : o.length = e.length) :
    halvesIn (k * u) (k * c) e o = k ^ (2 * e.length + 1) * halvesIn u c e o := by
  simp only [halvesIn, toneIn_mul, h, pow_succ, pow_mul]
  ring

/-- A ring homomorphism carries it over. -/
theorem map_halvesIn {R S : Type} [CommRing R] [CommRing S] (f : R →+* S) (u c : R) (e o : List Int) :
    halvesIn (f u) (f c) e o = f (halvesIn u c e o) := by
  simp [halvesIn, map_toneIn]

/-! ## A list that is the same on both sides of its middle -/

/-- The response of such a list, from its middle coefficient on, by Goertzel's recurrence. -/
def mirrorIn {R : Type} [CommRing R] (u c : R) (half : List Int) : R :=
  let t := toneIn u c half
  2 * (u * t.1 - c * t.2.1) - u * t.2.2 * (half.headD 0 : Int)

/-- Its power is a square. -/
theorem gain_mirror (t : ℝ) (m : Int) (rest : List Int) :
    gain t (rest.reverse ++ m :: rest) = mirrorIn (1 : ℝ) (Real.cos t) (m :: rest) ^ 2 := by
  set z := onCircle t with hz
  have hzc : z * conj z = 1 := onCircle_mul_conj _
  have e1 : z * phasor z (rest.reverse ++ m :: rest)
      = z ^ (rest.length + 1) * (((2 * (phasor z (m :: rest)).re - m : ℝ) : ℂ)) := by
    have hr : ((2 * (phasor z (m :: rest)).re - m : ℝ) : ℂ) = phasor z (m :: rest) + conj (phasor z (m :: rest)) - m := by
      rw [Complex.add_conj]; push_cast; ring
    rw [hr, phasor_append, mul_add, phasor_reverse, List.length_reverse]
    simp only [phasor, map_add, map_mul, map_intCast, pow_succ]
    linear_combination (-(z ^ rest.length * conj (phasor z rest))) * hzc
  have e2 := congrArg Complex.normSq e1
  have e3 : (phasor z (m :: rest)).re
      = (toneIn (1 : ℝ) (Real.cos t) (m :: rest)).1 - Real.cos t * (toneIn (1 : ℝ) (Real.cos t) (m :: rest)).2.1 := by
    rw [hz, phasor_eq]
    simp only [Complex.sub_re, Complex.mul_re, Complex.ofReal_re, Complex.ofReal_im, Complex.conj_re, onCircle_re]
    ring
  have s : (toneIn (1 : ℝ) (Real.cos t) (m :: rest)).2.2 = 1 := by rw [toneIn_scale, one_pow]
  have e4 : mirrorIn (1 : ℝ) (Real.cos t) (m :: rest) = 2 * (phasor z (m :: rest)).re - m := by
    rw [e3]; simp only [mirrorIn, s, List.headD_cons]; ring
  rw [e4]
  simp only [map_mul, map_pow, hz, normSq_onCircle, one_pow, one_mul, Complex.normSq_ofReal] at e2
  rw [gain, e2, hz]; ring

/-- It at a multiple of unit and cosine. -/
theorem mirrorIn_mul {R : Type} [CommRing R] (k u c : R) (half : List Int) :
    mirrorIn (k * u) (k * c) half = k ^ (half.length + 1) * mirrorIn u c half := by
  simp only [mirrorIn, toneIn_mul, pow_succ]
  ring

/-- A ring homomorphism carries it over. -/
theorem map_mirrorIn {R S : Type} [CommRing R] [CommRing S] (f : R →+* S) (u c : R) (half : List Int) :
    mirrorIn (f u) (f c) half = f (mirrorIn u c half) := by
  simp [mirrorIn, map_toneIn, map_ofNat]

end Sys2Proof
end

