-- ==== Sys2Proof/Laws/Cells.lean ====
section
/-! SUPPORT. A bound kept at every cosine of a cell. On a cell of cosines, written as (a + b·s) / (N·(1 + s)) for an
s not below 0, the gap between a response's power and its bound is a polynomial in s; where no coefficient of it is
negative, neither is the gap. The kernel works such a polynomial out as one number, its value at a power of 2 far above
twice its coefficients, whose binary digits are the coefficients. -/

namespace Sys2Proof

open Machine Polynomial

/-! ## A cell of cosines -/

/-- The unit on a cell. -/
noncomputable def cellUnit (N : Int) : ℤ[X] := C N + C N * X

/-- The cosine on the cell from a to b, in units of 1/N. -/
noncomputable def cellCosine (a b : Int) : ℤ[X] := C a + C b * X

/-- A polynomial without negative coefficients is not negative where its variable is not. -/
theorem eval_nonneg {p : ℤ[X]} (h : ∀ i, 0 ≤ p.coeff i) {s : ℝ} (hs : 0 ≤ s) : 0 ≤ p.eval₂ (Int.castRingHom ℝ) s := by
  rw [eval₂_eq_sum_range]
  exact Finset.sum_nonneg fun i _ => mul_nonneg (by simpa using h i) (pow_nonneg hs i)

/-- A cosine of a cell by its s. -/
theorem cell_point {N : Int} (hN : 0 < N) {a b : Int} {c : ℝ} (ha : (a : ℝ) ≤ N * c) (hb : N * c < b) : ∃ s k : ℝ, 0 ≤ s ∧ 0 < k
    ∧ k * eval₂RingHom (Int.castRingHom ℝ) s (cellUnit N) = 1
    ∧ k * eval₂RingHom (Int.castRingHom ℝ) s (cellCosine a b) = c := by
  have hn : (0 : ℝ) < N := by exact_mod_cast hN
  have hd : (0 : ℝ) < b - N * c := by linarith
  have hw : (0 : ℝ) < b - a := by linarith
  refine ⟨(N * c - a) / (b - N * c), (b - N * c) / (N * (b - a)), div_nonneg (by linarith) hd.le,
    div_pos hd (mul_pos hn hw), ?_, ?_⟩
  · simp only [cellUnit, coe_eval₂RingHom, eval₂_add, eval₂_mul, eval₂_C, eval₂_X]
    simp only [eq_intCast]
    field_simp
    ring
  · simp only [cellCosine, coe_eval₂RingHom, eval₂_add, eval₂_mul, eval₂_C, eval₂_X]
    simp only [eq_intCast]
    field_simp
    ring

/-- A value that is a polynomial without negative coefficients on a cell is not negative there. -/
theorem nonneg_on_cell {N : Int} (hN : 0 < N) {a b : Int} {c v : ℝ} {p : ℤ[X]} {d : Nat} (hp : ∀ i, 0 ≤ p.coeff i) (ha : (a : ℝ) ≤ N * c)
    (hb : N * c < b)
    (hv : ∀ s k : ℝ, k * eval₂RingHom (Int.castRingHom ℝ) s (cellUnit N) = 1 →
      k * eval₂RingHom (Int.castRingHom ℝ) s (cellCosine a b) = c →
      v = k ^ d * eval₂RingHom (Int.castRingHom ℝ) s p) : 0 ≤ v := by
  obtain ⟨s, k, hs, hk, e1, e2⟩ := cell_point hN ha hb
  rw [hv s k e1 e2]
  exact mul_nonneg (pow_nonneg hk.le _) (eval_nonneg hp hs)

/-! ## Coefficients as digits -/

/-- The top binary digits of n digits of B + 1 bits. -/
def topBits (B : Nat) : Nat → Nat
  | 0 => 0
  | n + 1 => Nat.add (2 ^ B) (Nat.mul (2 ^ (B + 1)) (topBits B n))

/-- A number without the top binary digit of its lowest digit, nor of the others. -/
theorem land_topBits {B n w : Nat} (h : Nat.land w (topBits B (n + 1)) = 0) :
    w % 2 ^ (B + 1) < 2 ^ B ∧ Nat.land (w / 2 ^ (B + 1)) (topBits B n) = 0 := by
  have ht : ∀ j, (topBits B (n + 1)).testBit j
      = if j < B + 1 then (2 ^ B).testBit j else (topBits B n).testBit (j - (B + 1)) := fun j => by
    have := Nat.testBit_two_pow_mul_add (topBits B n) (show 2 ^ B < 2 ^ (B + 1) from Nat.pow_lt_pow_right (by omega) (by omega)) j
    rw [← this]
    simp [topBits, Nat.add_comm]
  have hz : ∀ j, (w.testBit j && (topBits B (n + 1)).testBit j) = false := fun j => by
    have : (w &&& topBits B (n + 1)).testBit j = false := by
      rw [show w &&& topBits B (n + 1) = 0 from h]; simp
    rwa [Nat.testBit_and] at this
  constructor
  · have hb := hz B
    rw [ht] at hb
    simp [Nat.testBit_two_pow_self] at hb
    rw [Nat.testBit_eq_decide_div_mod_eq] at hb
    have hb' : w / 2 ^ B % 2 ≠ 1 := by simpa using hb
    have : w % (2 ^ B * 2) = w % 2 ^ B + 2 ^ B * (w / 2 ^ B % 2) := Nat.mod_mul
    rw [pow_succ, this, show w / 2 ^ B % 2 = 0 by omega]
    simpa using Nat.mod_lt w (Nat.two_pow_pos B)
  · apply Nat.eq_of_testBit_eq
    intro j
    change ((w / 2 ^ (B + 1)) &&& topBits B n).testBit j = _
    have := hz (j + (B + 1))
    rw [ht, if_neg (by omega), Nat.add_sub_cancel] at this
    rw [Nat.testBit_and, Nat.testBit_div_two_pow]
    simpa [Bool.and_eq_false_iff, Nat.add_comm] using this

/-- The coefficients of a polynomial whose value at 2ᴮ⁺¹ has no top binary digit, none of them as great as 2ᴮ, are not
negative. -/
theorem coeff_nonneg {B : Nat} : ∀ {n w : Nat} {p : ℤ[X]}, p.natDegree < n → (∀ i, |p.coeff i| < 2 ^ B) →
    p.eval ((2 : ℤ) ^ (B + 1)) = w → Nat.land w (topBits B n) = 0 → ∀ i, 0 ≤ p.coeff i
  | 0, _, _, h, _, _, _ => by omega
  | n + 1, w, p, h, hc, he, hm => by
    obtain ⟨m1, m2⟩ := land_topBits hm
    have hp : p.coeff 0 + 2 ^ (B + 1) * p.divX.eval ((2 : ℤ) ^ (B + 1)) = w := by
      have := congrArg (eval ((2 : ℤ) ^ (B + 1))) (divX_mul_X_add p)
      simp only [eval_add, eval_mul, eval_X, eval_C] at this
      rw [he] at this
      linarith
    have h0 := abs_lt.mp (hc 0)
    have hpos : (0 : ℤ) < 2 ^ (B + 1) := by positivity
    have hdouble : (2 : ℤ) ^ (B + 1) = 2 * 2 ^ B := by ring
    have hmod : (w : ℤ) % 2 ^ (B + 1) < 2 ^ B := by exact_mod_cast m1
    have hdiv : (w : ℤ) = 2 ^ (B + 1) * (w / 2 ^ (B + 1)) + w % 2 ^ (B + 1) := (Int.mul_ediv_add_emod _ _).symm
    have hm0 : 0 ≤ (w : ℤ) % 2 ^ (B + 1) := Int.emod_nonneg _ hpos.ne'
    set d := p.divX.eval ((2 : ℤ) ^ (B + 1))
    have hq : d = w / 2 ^ (B + 1) := by
      have e : (2 : ℤ) ^ (B + 1) * (d - w / 2 ^ (B + 1)) = w % 2 ^ (B + 1) - p.coeff 0 := by linarith
      have l1 : w % 2 ^ (B + 1) - p.coeff 0 < 2 ^ (B + 1) := by linarith
      have l2 : -2 ^ (B + 1) < w % 2 ^ (B + 1) - p.coeff 0 := by linarith
      have : d - w / 2 ^ (B + 1) = 0 := by
        by_contra hne
        rcases lt_or_gt_of_ne hne with hlt | hgt
        · nlinarith [show d - w / 2 ^ (B + 1) ≤ -1 by omega]
        · nlinarith [show 1 ≤ d - w / 2 ^ (B + 1) by omega]
      linarith
    intro i
    cases i with
    | zero => nlinarith
    | succ i =>
      rw [← coeff_divX]
      by_cases hn : n = 0
      · subst hn
        have hd : p.divX = 0 := by
          rw [eq_C_of_natDegree_eq_zero (show p.natDegree = 0 by omega)]; exact divX_C _
        simp [hd]
      · refine coeff_nonneg (n := n) (w := w / 2 ^ (B + 1)) (by rw [natDegree_divX_eq_natDegree_tsub_one]; omega)
          (fun j => by rw [coeff_divX]; exact hc _) (by push_cast; exact hq) m2 i

/-! ## How great the coefficients can be -/

/-- The coefficients of one polynomial are no greater than another's. -/
def Dominated (p q : ℤ[X]) : Prop := ∀ i, |p.coeff i| ≤ q.coeff i

theorem Dominated.add {p q r s : ℤ[X]}
    (h : Dominated p q) (k : Dominated r s) : Dominated (p + r) (q + s) := fun i => by
  rw [coeff_add, coeff_add]; exact (abs_add_le _ _).trans (add_le_add (h i) (k i))

theorem Dominated.sub {p q r s : ℤ[X]}
    (h : Dominated p q) (k : Dominated r s) : Dominated (p - r) (q + s) := fun i => by
  rw [coeff_sub, coeff_add]; exact (abs_sub _ _).trans (add_le_add (h i) (k i))

theorem Dominated.mul {p q r s : ℤ[X]}
    (h : Dominated p q) (k : Dominated r s) : Dominated (p * r) (q * s) := fun i => by
  rw [coeff_mul, coeff_mul]
  refine (Finset.abs_sum_le_sum_abs _ _).trans (Finset.sum_le_sum fun x _ => ?_)
  rw [abs_mul]
  exact mul_le_mul (h _) (k _) (abs_nonneg _) ((abs_nonneg _).trans (h _))

theorem Dominated.const {a b : ℤ} (h : |a| ≤ b) : Dominated (C a) (C b) := fun i => by
  rw [coeff_C, coeff_C]; split
  · exact h
  · simp

theorem Dominated.cast {a b : ℤ} (h : |a| ≤ b) : Dominated (a : ℤ[X]) (b : ℤ[X]) := by
  simpa using Dominated.const h

theorem Dominated.natCast (n : Nat) : Dominated (n : ℤ[X]) (n : ℤ[X]) := by
  have := Dominated.const (a := n) (b := n) (by simp)
  rwa [show (C (n : ℤ) : ℤ[X]) = (n : ℤ[X]) from map_natCast C n] at this

theorem Dominated.var : Dominated X X := fun i => by rw [coeff_X]; split <;> simp

theorem Dominated.pow {p q : ℤ[X]} (h : Dominated p q) (n : Nat) : Dominated (p ^ n) (q ^ n) := by
  induction n with
  | zero => simpa using Dominated.cast (a := 1) (b := 1) (by simp)
  | succ n ih => rw [pow_succ, pow_succ]; exact ih.mul h

/-- No coefficient is greater than the sum of those of a polynomial that dominates it. -/
theorem Dominated.le {p q : ℤ[X]} (h : Dominated p q) (i : Nat) : |p.coeff i| ≤ q.eval 1 := by
  refine (h i).trans ?_
  have h0 : ∀ j, 0 ≤ q.coeff j := fun j => (abs_nonneg _).trans (h j)
  rw [eval_eq_sum_range]
  simp only [one_pow, mul_one]
  by_cases hi : i ≤ q.natDegree
  · exact Finset.single_le_sum (f := q.coeff) (fun j _ => h0 j) (Finset.mem_range.mpr (by omega))
  · rw [coeff_eq_zero_of_natDegree_lt (by omega)]
    exact Finset.sum_nonneg fun j _ => h0 j

/-- Goertzel's recurrence with every sign a plus and every coefficient the same. -/
def toneBound {R : Type} [CommRing R] (unit cosine : R) (m : Int) : Nat → R × R × R
  | 0 => (0, 0, 1)
  | n + 1 =>
    let t := toneBound unit cosine m n
    (unit * t.2.2 * m + 2 * cosine * t.1 + unit * t.2.1, unit * t.1, unit * t.2.2)

/-- A response is dominated by the bound. -/
theorem dominated_tone {u c u' c' : ℤ[X]} {m : Int} (hu : Dominated u u') (hc : Dominated c c') :
    ∀ l : List Int, (∀ x ∈ l, |x| ≤ m) →
      Dominated (toneIn u c l).1 (toneBound u' c' m l.length).1
        ∧ Dominated (toneIn u c l).2.1 (toneBound u' c' m l.length).2.1
        ∧ Dominated (toneIn u c l).2.2 (toneBound u' c' m l.length).2.2
  | [], _ => by
    have z : Dominated (0 : ℤ[X]) 0 := by simpa using Dominated.cast (a := 0) (b := 0) (by simp)
    have o : Dominated (1 : ℤ[X]) 1 := by simpa using Dominated.cast (a := 1) (b := 1) (by simp)
    exact ⟨z, z, o⟩
  | h :: t, hm => by
    obtain ⟨a, b, s⟩ := dominated_tone hu hc t fun x hx => hm x (by simp [hx])
    have two : Dominated (2 : ℤ[X]) 2 := by simpa using Dominated.cast (a := 2) (b := 2) (by simp)
    exact ⟨(((hu.mul s).mul (Dominated.cast (hm h (by simp)))).add ((two.mul hc).mul a)).sub (hu.mul b), hu.mul a, hu.mul s⟩

/-! ## The degree of a gap -/

/-- The degree of a response where unit and cosine are of degree 1. -/
theorem natDegree_tone {u c : ℤ[X]} (hu : u.natDegree ≤ 1) (hc : c.natDegree ≤ 1) (l : List Int) :
    (toneIn u c l).1.natDegree ≤ l.length ∧ (toneIn u c l).2.1.natDegree ≤ l.length
      ∧ (toneIn u c l).2.2.natDegree ≤ l.length := by
  induction l with
  | nil => simp [toneIn]
  | cons h t ih =>
    obtain ⟨a, b, s⟩ := ih
    have two : (2 * c).natDegree ≤ 1 := by
      refine natDegree_mul_le.trans ?_
      have : (2 : ℤ[X]).natDegree = 0 := natDegree_ofNat 2
      omega
    have us := natDegree_mul_le_of_le hu s
    have ua := natDegree_mul_le_of_le hu a
    have ub := natDegree_mul_le_of_le hu b
    have ca := natDegree_mul_le_of_le two a
    have ush : (u * (toneIn u c t).2.2 * (h : ℤ[X])).natDegree ≤ 1 + t.length := by
      have := natDegree_mul_le_of_le us (natDegree_intCast h).le
      simpa using this
    simp only [toneIn, List.length_cons]
    refine ⟨?_, by omega, by omega⟩
    have := natDegree_sub_le_of_le (natDegree_add_le_of_le ush ca) ub
    simp at this
    omega

/-- The bound on the coefficients in natural numbers. -/
def natBound (u c m : Nat) : Nat → Nat × Nat × Nat
  | 0 => (0, 0, 1)
  | n + 1 =>
    let t := natBound u c m n
    (Nat.add (Nat.mul (Nat.mul u t.2.2) m) (Nat.add (Nat.mul (Nat.mul 2 c) t.1) (Nat.mul u t.2.1)),
      Nat.mul u t.1, Nat.mul u t.2.2)

/-- It is `toneBound`. -/
theorem natBound_eq (u c m n : Nat) : toneBound (R := Int) u c m n
    = (((natBound u c m n).1 : Int), ((natBound u c m n).2.1 : Int), ((natBound u c m n).2.2 : Int)) := by
  induction n with
  | zero => rfl
  | succ n ih => simp [toneBound, natBound, ih]; ring

/-- `toneBound` at 1. -/
theorem map_toneBound {R S : Type} [CommRing R] [CommRing S] (f : R →+* S) (u c : R) (m : Int) (n : Nat) :
    toneBound (f u) (f c) m n
      = (f (toneBound u c m n).1, f (toneBound u c m n).2.1, f (toneBound u c m n).2.2) := by
  induction n with
  | zero => simp [toneBound]
  | succ n ih => simp [toneBound, ih, map_ofNat]

/-! ## Goertzel's recurrence in natural numbers -/

/-- A response with its two parts as differences of natural numbers. -/
structure NatTone where
  xp : Nat
  xn : Nat
  yp : Nat
  yn : Nat
  scale : Nat

/-- Goertzel's recurrence on them. -/
def natTone (u cp cn : Nat) : List (Nat × Nat) → NatTone
  | [] => ⟨0, 0, 0, 0, 1⟩
  | h :: rest =>
    let t := natTone u cp cn rest
    ⟨Nat.add (Nat.mul (Nat.mul u t.scale) h.1)
        (Nat.add (Nat.mul 2 (Nat.add (Nat.mul cp t.xp) (Nat.mul cn t.xn))) (Nat.mul u t.yn)),
      Nat.add (Nat.mul (Nat.mul u t.scale) h.2)
        (Nat.add (Nat.mul 2 (Nat.add (Nat.mul cp t.xn) (Nat.mul cn t.xp))) (Nat.mul u t.yp)),
      Nat.mul u t.xp, Nat.mul u t.xn, Nat.mul u t.scale⟩

/-- It is the recurrence of `toneIn`. -/
theorem natTone_eq (u cp cn : Nat) (l : List (Nat × Nat)) :
    toneIn (R := Int) u (cp - cn) (l.map fun h => (h.1 : Int) - h.2)
      = (((natTone u cp cn l).xp : Int) - (natTone u cp cn l).xn, ((natTone u cp cn l).yp : Int) - (natTone u cp cn l).yn,
          ((natTone u cp cn l).scale : Int)) := by
  induction l with
  | nil => rfl
  | cons h t ih =>
    simp only [List.map_cons, toneIn, ih, natTone, Nat.add_eq, Nat.mul_eq, Prod.mk.injEq, Int.cast_id]
    push_cast
    refine ⟨by ring, by ring, by ring⟩

/-! ## Gaps of a list by its halves -/

/-- A multiple of the power of two halves and a number, by its scale. -/
def halvesGap {R : Type} [CommRing R] (k m : Int) (u c : R) (e o : List Int) : R :=
  k * halvesIn u c e o + m * u ^ (2 * e.length + 1)

/-- A bound on the coefficients of a gap. -/
def halvesBound {R : Type} [CommRing R] (k m : Int) (u c : R) (top : Int) (n : Nat) : R :=
  let t := toneBound u c top n
  k * ((u + c) * (t.1 + t.2.1) ^ 2 + (u + c) * (t.1 + t.2.1) ^ 2) + m * u ^ (2 * n + 1)

/-- A ring homomorphism carries it over. -/
theorem map_halvesBound {R S : Type} [CommRing R] [CommRing S] (f : R →+* S) (k m : Int) (u c : R) (top : Int) (n : Nat) :
    halvesBound k m (f u) (f c) top n = f (halvesBound k m u c top n) := by
  simp [halvesBound, map_toneBound]

/-- A gap on a cell: where its value at a power of 2 shows no negative coefficient, it is not negative. -/
theorem halvesGap_on_cell {N : Int} (hN : 0 < N) {a b k m : Int} {B w : Nat} {e o : List Int} {top : Nat} (h : o.length = e.length)
    (he : ∀ x ∈ e, |x| ≤ (top : Int)) (ho : ∀ x ∈ o, |x| ≤ (top : Int))
    (hB : (halvesBound |k| |m| (2 * N) ((a.natAbs + b.natAbs : Nat) : Int) top e.length : Int) < 2 ^ B)
    (hw : (halvesGap k m (N + N * 2 ^ (B + 1)) (a + b * 2 ^ (B + 1)) e o : Int) = w)
    (hm : Nat.land w (topBits B (2 * e.length + 2)) = 0) {t : ℝ} (ha : (a : ℝ) ≤ N * Real.cos t)
    (hb : N * Real.cos t < b) : 0 ≤ halvesGap k m (1 : ℝ) (Real.cos t) e o := by
  have map : ∀ {R S : Type} [CommRing R] [CommRing S] (f : R →+* S) (u c : R),
      halvesGap k m (f u) (f c) e o = f (halvesGap k m u c e o) := by
    intro R S _ _ f u c; simp [halvesGap, map_halvesIn]
  have line : ∀ x y : Int, (C x + C y * X : ℤ[X]).natDegree ≤ 1 := fun x y => by compute_degree
  have du : (cellUnit N).natDegree ≤ 1 := line N N
  have dc : (cellCosine a b).natDegree ≤ 1 := line a b
  have bu : Dominated (cellUnit N) (cellUnit N) :=
    (Dominated.const (abs_of_pos hN).le).add ((Dominated.const (abs_of_pos hN).le).mul Dominated.var)
  have bc : Dominated (cellCosine a b) (C |a| + C |b| * X) :=
    (Dominated.const le_rfl).add ((Dominated.const le_rfl).mul Dominated.var)
  obtain ⟨x1, x2, -⟩ := dominated_tone bu bc e he
  obtain ⟨y1, y2, -⟩ := dominated_tone bu bc o ho
  rw [h] at y1 y2
  have dom : Dominated (halvesGap k m (cellUnit N) (cellCosine a b) e o)
      (halvesBound |k| |m| (cellUnit N) (C |a| + C |b| * X) top e.length) :=
    ((Dominated.cast le_rfl).mul (((bu.add bc).mul ((x1.sub x2).pow 2)).add
      ((bu.sub bc).mul ((y1.add y2).pow 2)))).add ((Dominated.cast le_rfl).mul (bu.pow _))
  have hbound : (halvesBound |k| |m| (cellUnit N) (C |a| + C |b| * X) top e.length).eval 1 < 2 ^ B := by
    have e1 : evalRingHom (1 : ℤ) (cellUnit N) = 2 * N := by simp [cellUnit]; ring
    have e2 : evalRingHom (1 : ℤ) (C |a| + C |b| * X) = ((a.natAbs + b.natAbs : Nat) : ℤ) := by simp
    have e3 : (halvesBound |k| |m| (cellUnit N) (C |a| + C |b| * X) top e.length).eval 1
        = halvesBound |k| |m| (2 * N) ((a.natAbs + b.natAbs : Nat) : Int) top e.length := by
      rw [← e1, ← e2, ← coe_evalRingHom, map_halvesBound]
    rw [e3]; exact hB
  have deg : (halvesGap k m (cellUnit N) (cellCosine a b) e o).natDegree < 2 * e.length + 2 := by
    obtain ⟨d1, d2, -⟩ := natDegree_tone du dc e
    obtain ⟨d3, d4, -⟩ := natDegree_tone du dc o
    rw [h] at d3 d4
    have q1 := natDegree_mul_le_of_le ((natDegree_add_le_of_le du dc).trans (max_self 1).le)
      (natDegree_pow_le_of_le 2 ((natDegree_sub_le_of_le d1 d2).trans (max_self _).le))
    have q2 := natDegree_mul_le_of_le ((natDegree_sub_le_of_le du dc).trans (max_self 1).le)
      (natDegree_pow_le_of_le 2 ((natDegree_add_le_of_le d3 d4).trans (max_self _).le))
    have q3 := natDegree_mul_le_of_le (natDegree_intCast k).le (natDegree_add_le_of_le q1 q2)
    have q4 := natDegree_mul_le_of_le (natDegree_intCast m).le (natDegree_pow_le_of_le (2 * e.length + 1) du)
    have := natDegree_add_le_of_le q3 q4
    refine lt_of_le_of_lt this ?_
    omega
  have hu : evalRingHom ((2 : ℤ) ^ (B + 1)) (cellUnit N) = N + N * 2 ^ (B + 1) := by simp [cellUnit]
  have hc : evalRingHom ((2 : ℤ) ^ (B + 1)) (cellCosine a b) = a + b * 2 ^ (B + 1) := by simp [cellCosine]
  refine nonneg_on_cell hN (d := 2 * e.length + 1)
    (coeff_nonneg (B := B) (w := w) deg (fun i => (dom.le i).trans_lt hbound) ?_ hm) ha hb ?_
  · rw [← coe_evalRingHom, ← map, hu, hc]; exact hw
  · intro s k' hu' hc'
    rw [← map, ← hu', ← hc']
    simp only [halvesGap, halvesIn_mul _ _ _ h, mul_pow]
    ring

/-! ## Gaps of a list that is the same on both sides of its middle -/

/-- A multiple of the response of such a list and a number, by its scale. -/
def mirrorGap {R : Type} [CommRing R] (k m : Int) (u c : R) (half : List Int) : R :=
  k * mirrorIn u c half + m * u ^ (half.length + 1)

/-- A bound on the coefficients of a gap. -/
def mirrorBound {R : Type} [CommRing R] (k m : Int) (u c : R) (top : Int) (n : Nat) : R :=
  let t := toneBound u c top n
  k * (2 * (u * t.1 + c * t.2.1) + u * t.2.2 * top) + m * u ^ (n + 1)

/-- A ring homomorphism carries it over. -/
theorem map_mirrorBound {R S : Type} [CommRing R] [CommRing S] (f : R →+* S) (k m : Int) (u c : R) (top : Int) (n : Nat) :
    mirrorBound k m (f u) (f c) top n = f (mirrorBound k m u c top n) := by
  simp [mirrorBound, map_toneBound, map_ofNat]

/-- A gap on a cell: where its value at a power of 2 shows no negative coefficient, it is not negative. -/
theorem mirrorGap_on_cell {N : Int} (hN : 0 < N) {a b k m : Int} {B w : Nat} {half : List Int} {top : Nat}
    (he : ∀ x ∈ half, |x| ≤ (top : Int))
    (hB : (mirrorBound |k| |m| (2 * N) ((a.natAbs + b.natAbs : Nat) : Int) top half.length : Int) < 2 ^ B)
    (hw : (mirrorGap k m (N + N * 2 ^ (B + 1)) (a + b * 2 ^ (B + 1)) half : Int) = w)
    (hm : Nat.land w (topBits B (half.length + 2)) = 0) {t : ℝ} (ha : (a : ℝ) ≤ N * Real.cos t)
    (hb : N * Real.cos t < b) : 0 ≤ mirrorGap k m (1 : ℝ) (Real.cos t) half := by
  have map : ∀ {R S : Type} [CommRing R] [CommRing S] (f : R →+* S) (u c : R),
      mirrorGap k m (f u) (f c) half = f (mirrorGap k m u c half) := by
    intro R S _ _ f u c; simp [mirrorGap, map_mirrorIn]
  have line : ∀ x y : Int, (C x + C y * X : ℤ[X]).natDegree ≤ 1 := fun x y => by compute_degree
  have du : (cellUnit N).natDegree ≤ 1 := line N N
  have dc : (cellCosine a b).natDegree ≤ 1 := line a b
  have bu : Dominated (cellUnit N) (cellUnit N) :=
    (Dominated.const (abs_of_pos hN).le).add ((Dominated.const (abs_of_pos hN).le).mul Dominated.var)
  have bc : Dominated (cellCosine a b) (C |a| + C |b| * X) :=
    (Dominated.const le_rfl).add ((Dominated.const le_rfl).mul Dominated.var)
  have two : Dominated (2 : ℤ[X]) 2 := by simpa using Dominated.cast (a := 2) (b := 2) (by simp)
  have hd : |half.headD 0| ≤ (top : Int) := by
    cases half with
    | nil => simp
    | cons x t => exact he x (by simp)
  obtain ⟨x1, x2, x3⟩ := dominated_tone bu bc half he
  have dom : Dominated (mirrorGap k m (cellUnit N) (cellCosine a b) half)
      (mirrorBound |k| |m| (cellUnit N) (C |a| + C |b| * X) top half.length) :=
    ((Dominated.cast le_rfl).mul ((two.mul ((bu.mul x1).sub (bc.mul x2))).sub
      ((bu.mul x3).mul (Dominated.cast hd)))).add ((Dominated.cast le_rfl).mul (bu.pow _))
  have hbound : (mirrorBound |k| |m| (cellUnit N) (C |a| + C |b| * X) top half.length).eval 1 < 2 ^ B := by
    have e1 : evalRingHom (1 : ℤ) (cellUnit N) = 2 * N := by simp [cellUnit]; ring
    have e2 : evalRingHom (1 : ℤ) (C |a| + C |b| * X) = ((a.natAbs + b.natAbs : Nat) : ℤ) := by simp
    have e3 : (mirrorBound |k| |m| (cellUnit N) (C |a| + C |b| * X) top half.length).eval 1
        = mirrorBound |k| |m| (2 * N) ((a.natAbs + b.natAbs : Nat) : Int) top half.length := by
      rw [← e1, ← e2, ← coe_evalRingHom, map_mirrorBound]
    rw [e3]; exact hB
  have deg : (mirrorGap k m (cellUnit N) (cellCosine a b) half).natDegree < half.length + 2 := by
    obtain ⟨d1, d2, d3⟩ := natDegree_tone du dc half
    have q1 := natDegree_sub_le_of_le (natDegree_mul_le_of_le du d1) (natDegree_mul_le_of_le dc d2)
    have q2 := natDegree_mul_le_of_le (natDegree_ofNat (R := ℤ) 2).le q1
    have q3 := natDegree_mul_le_of_le (natDegree_mul_le_of_le du d3) (natDegree_intCast (R := ℤ) (half.headD 0)).le
    have q4 := natDegree_mul_le_of_le (natDegree_intCast k).le (natDegree_sub_le_of_le q2 q3)
    have q5 := natDegree_mul_le_of_le (natDegree_intCast m).le (natDegree_pow_le_of_le (half.length + 1) du)
    refine lt_of_le_of_lt (natDegree_add_le_of_le q4 q5) ?_
    omega
  have hu : evalRingHom ((2 : ℤ) ^ (B + 1)) (cellUnit N) = N + N * 2 ^ (B + 1) := by simp [cellUnit]
  have hc : evalRingHom ((2 : ℤ) ^ (B + 1)) (cellCosine a b) = a + b * 2 ^ (B + 1) := by simp [cellCosine]
  refine nonneg_on_cell hN (d := half.length + 1)
    (coeff_nonneg (B := B) (w := w) deg (fun i => (dom.le i).trans_lt hbound) ?_ hm) ha hb ?_
  · rw [← coe_evalRingHom, ← map, hu, hc]; exact hw
  · intro s k' hu' hc'
    rw [← map, ← hu', ← hc']
    simp only [mirrorGap, mirrorIn_mul, mul_pow]
    ring

/-! ## A row of cells -/

/-- Whether a test holds of every two neighbours of a list. -/
def neighbours {β : Type} (f : β → β → Bool) : List β → Bool
  | a :: b :: rest => f a b && neighbours f (b :: rest)
  | _ => true

/-- A number between those of the first and the last of a list lies between those of two neighbours. -/
theorem neighbours_at {β : Type} {f : β → β → Bool} {key : β → Int} {c : ℝ} : ∀ {a z : β} {l : List β},
    neighbours f (a :: l ++ [z]) = true → (key a : ℝ) ≤ c → c < key z → ∃ x y, f x y = true ∧ (key x : ℝ) ≤ c ∧ c < key y
  | a, z, [], h, h1, h2 => ⟨a, z, by simpa [neighbours] using h, h1, h2⟩
  | a, z, b :: l, h, h1, h2 => by
    simp only [List.cons_append, neighbours, Bool.and_eq_true] at h
    rcases lt_or_ge c (key b) with hb | hb
    · exact ⟨a, b, h.1, h1, hb⟩
    · exact neighbours_at (l := l) h.2 hb h2

/-- A cosine between the first and the last of a list lies between two neighbours. -/
theorem neighbours_between {f : Int → Int → Bool} {c : ℝ} {a z : Int} {l : List Int}
    (h : neighbours f (a :: l ++ [z]) = true) (h1 : (a : ℝ) ≤ c) (h2 : c < z) :
    ∃ x y, f x y = true ∧ (x : ℝ) ≤ c ∧ c < y := neighbours_at (key := id) h h1 h2

/-- A list whose first and later neighbours pass. -/
theorem neighbours_split {β : Type} {f : β → β → Bool} : ∀ (m : Nat) {l : List β},
    neighbours f (l.take (m + 1)) = true → neighbours f (l.drop m) = true → neighbours f l = true
  | 0, _, _, h => by simpa using h
  | _ + 1, [], _, _ => rfl
  | _ + 1, [_], _, _ => rfl
  | m + 1, a :: b :: l, h0, h1 => by
    simp only [List.take_succ_cons, neighbours, Bool.and_eq_true] at h0 ⊢
    exact ⟨h0.1, neighbours_split m h0.2 h1⟩

/-- A list whose neighbours pass part by part. -/
theorem neighbours_parts {β : Type} {f : β → β → Bool} (m : Nat) : ∀ (n : Nat) {l : List β}, l.length ≤ m * n + 1 →
    (∀ j < n, neighbours f ((l.drop (m * j)).take (m + 1)) = true) → neighbours f l = true
  | 0, [], _, _ => rfl
  | 0, [_], _, _ => rfl
  | 0, _ :: _ :: _, h, _ => by simp at h
  | n + 1, l, hl, h => by
    refine neighbours_split m (by simpa using h 0 (by omega)) (neighbours_parts m n ?_ fun j hj => ?_)
    · rw [List.length_drop, Nat.mul_succ] at *; omega
    · have := h (j + 1) (by omega)
      rwa [List.drop_drop, Nat.add_comm m (m * j), ← Nat.mul_succ]

/-- Whether a test holds of every number below n. -/
def below (f : Nat → Bool) (n : Nat) : Bool := match n with
  | 0 => true
  | n + 1 => f n && below f n

/-- What holds of every number below n holds of one. -/
theorem below_of {f : Nat → Bool} {n : Nat} (h : below f n = true) {k : Nat} (hk : k < n) : f k = true := by
  induction n with
  | zero => omega
  | succ n ih =>
    simp only [below, Bool.and_eq_true] at h
    rcases Nat.lt_succ_iff_lt_or_eq.mp hk with hl | rfl
    · exact ih h.2 hl
    · exact h.1

end Sys2Proof
end

