-- ==== Sys2Proof/Laws/Force.lean ====
section
/-! SUPPORT. Numbers worked out one by one. The kernel puts a term that is not worked out wherever it is used; a number
taken apart by its recursor is worked out first, and only then goes on. Each function here hands what it has worked out
to what comes after it, and one lemma says what that is. -/

namespace Sys2Proof

/-- A number worked out before it is used. -/
noncomputable def force {α : Type} (x : Nat) (f : Nat → α) : α :=
  Nat.rec (motive := fun _ => α) (f 0) (fun n _ => f (Nat.succ n)) x

@[simp] theorem force_eq {α : Type} (x : Nat) (f : Nat → α) : force x f = f x := by cases x <;> rfl

/-- A list made of another element by element, each worked out before it is used. -/
noncomputable def forceMap {α β γ : Type} (one : β → (γ → α) → α) (l : List β) : (List γ → α) → α :=
  List.rec (motive := fun _ => (List γ → α) → α) (fun k => k [])
    (fun h _ ih k => one h fun a => ih fun t => k (a :: t)) l

theorem forceMap_eq {α β γ : Type} {one : β → (γ → α) → α} {f : β → γ} {l : List β}
    (h : ∀ x ∈ l, ∀ k, one x k = k (f x)) (k : List γ → α) : forceMap one l k = k (l.map f) := by
  induction l generalizing k with
  | nil => rfl
  | cons a t ih =>
    change one a (fun b => forceMap one t fun t => k (b :: t)) = _
    rw [h a (by simp), ih fun x hx => h x (by simp [hx]), List.map_cons]

/-- A list of numbers. -/
noncomputable def forceList {α : Type} (l : List Nat) (k : List Nat → α) : α := forceMap force l k

@[simp] theorem forceList_eq {α : Type} (l : List Nat) (k : List Nat → α) : forceList l k = k l := by
  rw [forceList, forceMap_eq (f := id) (fun x _ k => force_eq x k), List.map_id]

/-- A list of pairs of numbers. -/
noncomputable def forcePairs {α : Type} (l : List (Nat × Nat)) (k : List (Nat × Nat) → α) : α :=
  forceMap (fun p k => force p.1 fun a => force p.2 fun b => k (a, b)) l k

@[simp] theorem forcePairs_eq {α : Type} (l : List (Nat × Nat)) (k : List (Nat × Nat) → α) : forcePairs l k = k l := by
  rw [forcePairs, forceMap_eq (f := id) (fun x _ k => by simp), List.map_id]

/-- Whether a test holds of every element. -/
noncomputable def allOf {β : Type} (f : β → Bool) (l : List β) : Bool :=
  List.rec (motive := fun _ => Bool) true (fun h _ ih => and (f h) ih) l

theorem allOf_of {β : Type} {f : β → Bool} {l : List β} (h : allOf f l = true) {x : β} (hx : x ∈ l) : f x = true := by
  induction l with
  | nil => cases hx
  | cons a t ih =>
    have h : (f a && allOf f t) = true := h
    rw [Bool.and_eq_true] at h
    rcases List.mem_cons.mp hx with rfl | ht
    · exact h.1
    · exact ih h.2 ht

/-- It holds of a list part by part. -/
theorem allOf_parts {β : Type} {f : β → Bool} (m : Nat) : ∀ (n : Nat) {l : List β}, l.length ≤ m * n →
    (∀ j < n, allOf f ((l.drop (m * j)).take m) = true) → ∀ {x : β}, x ∈ l → f x = true
  | 0, [], _, _, _, hx => by cases hx
  | 0, _ :: _, h, _, _, _ => by simp at h
  | n + 1, l, hl, h, x, hx => by
    rw [← List.take_append_drop m l, List.mem_append] at hx
    rcases hx with hx | hx
    · exact allOf_of (by simpa using h 0 (by omega)) hx
    · refine allOf_parts m n ?_ (fun j hj => ?_) hx
      · rw [List.length_drop, Nat.mul_succ] at *; omega
      · have := h (j + 1) (by omega)
        rwa [List.drop_drop, Nat.add_comm m (m * j), ← Nat.mul_succ]

/-! ## Goertzel's recurrence -/

/-- Goertzel's recurrence in natural numbers, over a list read backwards, from a point of it on. -/
noncomputable def goertzel {α : Type} (u cp cn : Nat) (l : List (Nat × Nat)) :
    Nat → Nat → Nat → Nat → Nat → (Nat → Nat → Nat → Nat → α) → α :=
  List.rec (motive := fun _ => Nat → Nat → Nat → Nat → Nat → (Nat → Nat → Nat → Nat → α) → α)
    (fun xp xn yp yn _ k => k xp xn yp yn)
    (fun h _ ih xp xn yp yn s k =>
      force (Nat.mul u s) fun s1 =>
      force (Nat.add (Nat.mul s1 h.1)
        (Nat.add (Nat.mul 2 (Nat.add (Nat.mul cp xp) (Nat.mul cn xn))) (Nat.mul u yn))) fun x1 =>
      force (Nat.add (Nat.mul s1 h.2)
        (Nat.add (Nat.mul 2 (Nat.add (Nat.mul cp xn) (Nat.mul cn xp))) (Nat.mul u yp))) fun x2 =>
      force (Nat.mul u xp) fun y1 => force (Nat.mul u xn) fun y2 => ih x1 x2 y1 y2 s1 k) l

/-- It goes on with what `natTone` gives. -/
theorem goertzel_from {α : Type} (u cp cn : Nat) (k : Nat → Nat → Nat → Nat → α) : ∀ l r : List (Nat × Nat),
    let t := natTone u cp cn r
    let e := natTone u cp cn (l.reverse ++ r)
    goertzel u cp cn l t.xp t.xn t.yp t.yn t.scale k = k e.xp e.xn e.yp e.yn
  | [], _ => rfl
  | h :: l, r => by
    have ih := goertzel_from u cp cn k l (h :: r)
    simp only [List.reverse_cons, List.append_assoc, List.cons_append, List.nil_append] at ih ⊢
    rw [← ih]
    unfold goertzel
    simp only [force_eq]
    rfl

theorem goertzel_eq {α : Type} (u cp cn : Nat) (k : Nat → Nat → Nat → Nat → α) (l : List (Nat × Nat)) :
    goertzel u cp cn l.reverse 0 0 0 0 1 k
      = k (natTone u cp cn l).xp (natTone u cp cn l).xn (natTone u cp cn l).yp (natTone u cp cn l).yn := by
  have := goertzel_from u cp cn k l.reverse []
  simpa [natTone] using this

/-! ## Sums of products and squares -/

/-- Σ of products, of the first parts and of the second. -/
def dotPairs : List Nat → List (Nat × Nat) → Nat × Nat
  | a :: t, b :: l => (a * b.1 + (dotPairs t l).1, a * b.2 + (dotPairs t l).2)
  | _, _ => (0, 0)

/-- The two sums, each added to a number. -/
noncomputable def dot {α : Type} (ws : List Nat) : List (Nat × Nat) → Nat → Nat → (Nat → Nat → α) → α :=
  List.rec (motive := fun _ => List (Nat × Nat) → Nat → Nat → (Nat → Nat → α) → α)
    (fun _ a b k => force a fun a => force b fun b => k a b)
    (fun w _ ih es a b k => List.rec (motive := fun _ => α) (ih [] a b k)
      (fun e t _ => ih t (Nat.add a (Nat.mul w e.1)) (Nat.add b (Nat.mul w e.2)) k) es) ws

theorem dot_eq {α : Type} (k : Nat → Nat → α) : ∀ (ws : List Nat) (es : List (Nat × Nat)) (a b : Nat),
    dot ws es a b k = k (a + (dotPairs ws es).1) (b + (dotPairs ws es).2)
  | [], es, a, b => by
    change force a (fun a => force b fun b => k a b) = _
    simp [dotPairs]
  | w :: ws, [], a, b => by
    change dot ws [] a b k = _
    rw [dot_eq k ws [] a b]
    cases ws <;> simp [dotPairs]
  | w :: ws, e :: es, a, b => by
    change dot ws es (a + w * e.1) (b + w * e.2) k = _
    rw [dot_eq k ws es]
    simp [dotPairs, Nat.add_assoc]

/-- The square of a difference. -/
def squareDiff (x y : Nat) : Nat := (x - y + (y - x)) * (x - y + (y - x))

theorem squareDiff_eq (x y : Nat) : (squareDiff x y : Int) = ((x : Int) - y) ^ 2 := by
  unfold squareDiff
  rcases Nat.le_total x y with h | h
  · rw [Nat.sub_eq_zero_of_le h, Nat.zero_add]; push_cast [Nat.cast_sub h]; ring
  · rw [Nat.sub_eq_zero_of_le h, Nat.add_zero]; push_cast [Nat.cast_sub h]; ring

/-- The square of a difference, worked out. -/
noncomputable def square {α : Type} (x y : Nat) (k : Nat → α) : α :=
  force (Nat.add (Nat.sub x y) (Nat.sub y x)) fun d => force (Nat.mul d d) k

@[simp] theorem square_eq {α : Type} (x y : Nat) (k : Nat → α) : square x y k = k (squareDiff x y) := by
  simp [square, squareDiff]

end Sys2Proof
end

