-- ==== Sys2Proof/Laws/Passband.lean ====
section
/-! SUPPORT. The power of a phase of the stand-in, bounded at a cosine and on a cell of cosines. A phase is a sum of six of
nine sets of every fourth coefficient of the filter, weighed by the spline, so the kernel works the responses of the nine
out once for all 256 phases, in natural numbers. -/

namespace Sys2Proof

open Machine

/-! ## Linearity of the two halves -/

/-- What the sum of the halves gives, by Goertzel's recurrence. -/
def evenIn {R : Type} [CommRing R] (u c : R) (l : List Int) : R := (toneIn u c l).1 - (toneIn u c l).2.1

/-- What the difference of the halves gives. -/
def oddIn {R : Type} [CommRing R] (u c : R) (l : List Int) : R := (toneIn u c l).1 + (toneIn u c l).2.1

/-- The response is linear in the coefficients. -/
theorem toneIn_map_add {R : Type} [CommRing R] (u c : R) (idx : List Nat) (b : Int) (f g : Nat → Int) :
    (toneIn u c (idx.map fun k => b * f k + g k)).1 = b * (toneIn u c (idx.map f)).1 + (toneIn u c (idx.map g)).1
      ∧ (toneIn u c (idx.map fun k => b * f k + g k)).2.1
        = b * (toneIn u c (idx.map f)).2.1 + (toneIn u c (idx.map g)).2.1 := by
  induction idx with
  | nil => simp [toneIn]
  | cons k t ih =>
    obtain ⟨h1, h2⟩ := ih
    simp only [List.map_cons, toneIn, h1, h2, toneIn_scale, List.length_map]
    push_cast
    exact ⟨by ring, by ring⟩

/-- No coefficients, no response. -/
theorem toneIn_zero {R : Type} [CommRing R] (u c : R) (n : Nat) :
    (toneIn u c (List.replicate n 0)).1 = 0 ∧ (toneIn u c (List.replicate n 0)).2.1 = 0 := by
  induction n with
  | zero => simp [toneIn]
  | succ n ih => simp [List.replicate_succ, toneIn, ih]

/-- The halves of a weighed sum are the weighed sums of the halves. -/
theorem halves_sum {R : Type} [CommRing R] (u c : R) (idx : List Nat) (b : Nat → Int) (f : Nat → Nat → Int) :
    ∀ js : List Nat,
      evenIn u c (idx.map fun k => (js.map fun j => b j * f j k).sum) = (js.map fun j => (b j : R) * evenIn u c (idx.map (f j))).sum
        ∧ oddIn u c (idx.map fun k => (js.map fun j => b j * f j k).sum)
          = (js.map fun j => (b j : R) * oddIn u c (idx.map (f j))).sum
  | [] => by simp [evenIn, oddIn, toneIn_zero]
  | j :: js => by
    obtain ⟨h1, h2⟩ := halves_sum u c idx b f js
    obtain ⟨e1, e2⟩ := toneIn_map_add u c idx (b j) (f j) fun k => (js.map fun j => b j * f j k).sum
    simp only [List.map_cons, List.sum_cons]
    rw [← h1, ← h2]
    simp only [evenIn, oddIn, e1, e2]
    exact ⟨by ring, by ring⟩

/-! ## A phase by its halves -/

/-- The sum of a list's products with the elements of another from a place on. -/
theorem sum_zipWith_drop (w : List Int) : ∀ (t : List Int) (n : Nat),
    (List.zipWith (· * ·) t (w.drop n)).sum = ((List.range t.length).map fun j => t.getD j 0 * w.getD (n + j) 0).sum
  | [], n => by simp
  | x :: t, n => by
    by_cases h : n < w.length
    · rw [List.length_cons, List.range_succ_eq_map, List.map_cons, List.map_map, List.sum_cons,
        List.drop_eq_getElem_cons h, List.zipWith_cons_cons, List.sum_cons, sum_zipWith_drop w t (n + 1)]
      simp [h, Function.comp_def, Nat.add_comm, Nat.add_left_comm]
    · have z : ∀ j, w.getD (n + j) 0 = 0 := fun j => List.getD_eq_default _ _ (by omega)
      rw [List.drop_eq_nil_of_le (by omega), List.zipWith_nil_right]
      simp only [z, mul_zero, List.map_const', List.sum_replicate, smul_zero, List.sum_nil]

/-- The weight of the spline on the coefficient at a distance. -/
def splineAt (r j : Nat) : Int := (spline (r + (320 - 64 * j)) : Nat)

/-- A coefficient of a phase. -/
def tapAt (w : List Int) (p k : Nat) : Int :=
  ((List.range 6).map fun j => splineAt (p % 64) j * w.getD (4 * k + p / 64 + j) 0).sum

/-- A phase by its coefficients. -/
theorem spread_eq (w : List Int) (p : Nat) : spread w p = (List.range 64).map (tapAt w p) := by
  unfold spread
  refine List.map_congr_left fun k _ => ?_
  rw [sum_zipWith_drop]
  simp only [tapAt, List.length_cons, List.length_nil, List.range_succ, List.range_zero, List.nil_append,
    List.map_append, List.map_cons, List.map_nil, List.sum_append, List.sum_cons, List.sum_nil, splineAt]
  rfl

@[simp] theorem spread_length (w : List Int) (p : Nat) : (spread w p).length = 64 := by simp [spread]

/-- What the halves of a phase are made of: every fourth coefficient of the filter from a place on, forwards and
backwards from the middle. -/
def evenAt (w : List Int) (m k : Nat) : Int := w.getD (4 * (32 + k) + m) 0 + w.getD (4 * (31 - k) + m) 0

/-- Their difference. -/
def oddAt (w : List Int) (m k : Nat) : Int := w.getD (4 * (32 + k) + m) 0 - w.getD (4 * (31 - k) + m) 0

/-- The power of a phase. -/
theorem gain_spread (w : List Int) (p : Nat) (t : ℝ) : 2 * gain t (spread w p)
    = halvesIn (1 : ℝ) (Real.cos t)
        ((List.range 32).map fun k => ((List.range 6).map fun j => splineAt (p % 64) j * evenAt w (p / 64 + j) k).sum)
        ((List.range 32).map fun k => ((List.range 6).map fun j => splineAt (p % 64) j * oddAt w (p / 64 + j) k).sum) := by
  have hs : spread w p = ((List.range 32).map fun k => tapAt w p (31 - k)).reverse
      ++ (List.range 32).map fun k => tapAt w p (32 + k) := by
    rw [spread_eq]
    simp [List.range_succ]
  rw [hs, gain_halves t (by simp)]
  congr 1
  · simp only [List.zipWith_map, List.zipWith_self]
    refine List.map_congr_left fun k _ => ?_
    simp only [tapAt, evenAt, List.range_succ, List.range_zero, List.nil_append, List.map_append, List.map_cons,
      List.map_nil, List.sum_append, List.sum_cons, List.sum_nil, Nat.add_assoc]
    ring
  · simp only [List.zipWith_map, List.zipWith_self]
    refine List.map_congr_left fun k _ => ?_
    simp only [tapAt, oddAt, List.range_succ, List.range_zero, List.nil_append, List.map_append, List.map_cons,
      List.map_nil, List.sum_append, List.sum_cons, List.sum_nil, Nat.add_assoc]
    ring

/-! ## In natural numbers -/

/-- The positive parts of a list. -/
def positives (l : List Int) : List Nat := l.map Int.toNat

/-- The negative parts. -/
def negatives (l : List Int) : List Nat := l.map fun a => (-a).toNat

theorem getD_parts (l : List Int) (n : Nat) : l.getD n 0 = ((positives l).getD n 0 : Int) - (negatives l).getD n 0 := by
  rw [positives, negatives]
  by_cases h : n < l.length
  · have := Int.toNat_sub_toNat_neg l[n]
    simp [h]
  · simp [h]

/-- The elements of `evenAt` as differences. -/
def evenPairs (wp wn : List Nat) (m : Nat) : List (Nat × Nat) :=
  (List.range 32).map fun k =>
    (wp.getD (4 * (32 + k) + m) 0 + wp.getD (4 * (31 - k) + m) 0,
      wn.getD (4 * (32 + k) + m) 0 + wn.getD (4 * (31 - k) + m) 0)

/-- The elements of `oddAt` as differences. -/
def oddPairs (wp wn : List Nat) (m : Nat) : List (Nat × Nat) :=
  (List.range 32).map fun k =>
    (wp.getD (4 * (32 + k) + m) 0 + wn.getD (4 * (31 - k) + m) 0,
      wn.getD (4 * (32 + k) + m) 0 + wp.getD (4 * (31 - k) + m) 0)

/-- The difference of a response's two parts. -/
def evenNat (u cp cn : Nat) (l : List (Nat × Nat)) : Nat × Nat :=
  ((natTone u cp cn l).xp + (natTone u cp cn l).yn, (natTone u cp cn l).xn + (natTone u cp cn l).yp)

/-- Their sum. -/
def oddNat (u cp cn : Nat) (l : List (Nat × Nat)) : Nat × Nat :=
  ((natTone u cp cn l).xp + (natTone u cp cn l).yp, (natTone u cp cn l).xn + (natTone u cp cn l).yn)

theorem evenNat_eq (u cp cn : Nat) (w : List Int) (m : Nat) :
    evenIn (R := Int) u (cp - cn) ((List.range 32).map (evenAt w m))
      = ((evenNat u cp cn (evenPairs (positives w) (negatives w) m)).1 : Int)
        - (evenNat u cp cn (evenPairs (positives w) (negatives w) m)).2 := by
  have e : (List.range 32).map (evenAt w m)
      = (evenPairs (positives w) (negatives w) m).map fun h => (h.1 : Int) - h.2 := by
    rw [evenPairs, List.map_map]
    refine List.map_congr_left fun k _ => ?_
    simp only [evenAt, Function.comp_apply]
    rw [getD_parts w, getD_parts w (4 * (31 - k) + m)]; push_cast; ring
  rw [evenIn, e, natTone_eq]
  simp only [evenNat]; push_cast; ring

theorem oddNat_eq (u cp cn : Nat) (w : List Int) (m : Nat) :
    oddIn (R := Int) u (cp - cn) ((List.range 32).map (oddAt w m))
      = ((oddNat u cp cn (oddPairs (positives w) (negatives w) m)).1 : Int)
        - (oddNat u cp cn (oddPairs (positives w) (negatives w) m)).2 := by
  have e : (List.range 32).map (oddAt w m)
      = (oddPairs (positives w) (negatives w) m).map fun h => (h.1 : Int) - h.2 := by
    rw [oddPairs, List.map_map]
    refine List.map_congr_left fun k _ => ?_
    simp only [oddAt, Function.comp_apply]
    rw [getD_parts w, getD_parts w (4 * (31 - k) + m)]; push_cast; ring
  rw [oddIn, e, natTone_eq]
  simp only [oddNat]; push_cast; ring

/-- The weights of the spline on the six coefficients that reach a frame. -/
def splineNats (r : Nat) : List Nat := [320, 256, 192, 128, 64, 0].map fun j => spline (r + j)

/-- What the weighed sum of six is. -/
theorem dotPairs_eq (r s : Nat) (hs : s < 4) (f : Nat → Nat × Nat) :
    ((dotPairs (splineNats r) (((List.range 9).map f).drop s)).1 : Int)
      - (dotPairs (splineNats r) (((List.range 9).map f).drop s)).2
      = ((List.range 6).map fun j => splineAt r j * (((f (s + j)).1 : Int) - (f (s + j)).2)).sum := by
  interval_cases s <;>
  · simp only [splineNats, List.map_cons, List.map_nil, List.range_succ, List.range_zero, List.nil_append,
      List.cons_append, List.drop_succ_cons, List.drop_zero, dotPairs, List.sum_cons, List.sum_nil, splineAt]
    push_cast
    ring

/-! ## The lists of a filter, worked out once -/

/-- Every fourth element of a list, from the first. -/
def everyFourth : List Nat → List Nat
  | a :: _ :: _ :: _ :: t => a :: everyFourth t
  | a :: _ => [a]
  | [] => []

theorem everyFourth_getD : ∀ (l : List Nat) (k : Nat), (everyFourth l).getD k 0 = l.getD (4 * k) 0
  | a :: _ :: _ :: _ :: t, 0 => rfl
  | a :: b :: c :: d :: t, k + 1 => by
    rw [everyFourth, List.getD_cons_succ, everyFourth_getD t k]
    rw [show 4 * (k + 1) = 4 * k + 1 + 1 + 1 + 1 by omega]
    simp only [List.getD_cons_succ]
  | [], k => by simp [everyFourth]
  | [a], k => by cases k <;> simp [everyFourth, Nat.mul_add]
  | [a, b], k => by cases k <;> simp [everyFourth, Nat.mul_add]
  | [a, b, c], k => by cases k <;> simp [everyFourth, Nat.mul_add]

theorem everyFourth_length : ∀ l : List Nat, (everyFourth l).length = (l.length + 3) / 4
  | a :: _ :: _ :: _ :: t => by simp only [everyFourth, List.length_cons, everyFourth_length t]; omega
  | [] => by simp [everyFourth]
  | [a] => by simp [everyFourth]
  | [a, b] => by simp [everyFourth]
  | [a, b, c] => by simp [everyFourth]

/-- The later 32 elements of every fourth from a place on, backwards, and the earlier 32. -/
def halfLists (l : List Nat) (m : Nat) : List Nat × List Nat :=
  let q := everyFourth (l.drop m)
  (((q.drop 32).take 32).reverse, q.take 32)

/-- Two lists of numbers added to two others, in pairs. -/
def addPairs (a b c d : List Nat) : List (Nat × Nat) :=
  List.zipWith Prod.mk (List.zipWith Nat.add a b) (List.zipWith Nat.add c d)

theorem addPairs_half {p n p' n' : List Nat} {m : Nat} (hm : m ≤ 8)
    (hp : p.length = 261) (hn : n.length = 261) (hp' : p'.length = 261) (hn' : n'.length = 261) :
    addPairs (halfLists p m).1 (halfLists p' m).2 (halfLists n m).1 (halfLists n' m).2
      = ((List.range 32).map fun k =>
        (p.getD (4 * (32 + k) + m) 0 + p'.getD (4 * (31 - k) + m) 0,
          n.getD (4 * (32 + k) + m) 0 + n'.getD (4 * (31 - k) + m) 0)).reverse := by
  have at_ : ∀ (l : List Nat) (i : Nat) (h : i < (everyFourth (l.drop m)).length),
      (everyFourth (l.drop m))[i] = l.getD (4 * i + m) 0 := fun l i h => by
    have := everyFourth_getD (l.drop m) i
    rw [List.getD_eq_getElem _ _ h] at this
    rw [this, List.getD_eq_getElem?_getD, List.getElem?_drop, ← List.getD_eq_getElem?_getD, Nat.add_comm]
  have len : ∀ l : List Nat, l.length = 261 → 64 ≤ (everyFourth (l.drop m)).length := fun l h => by
    rw [everyFourth_length, List.length_drop, h]; omega
  have lp := len p hp
  have lp' := len p' hp'
  have ln := len n hn
  have ln' := len n' hn'
  refine List.ext_getElem ?_ fun i h1 h2 => ?_
  · simp only [addPairs, halfLists, List.length_zipWith, List.length_reverse, List.length_take, List.length_drop,
      List.length_map, List.length_range]
    omega
  · have hi : i < 32 := by simpa using h2
    simp only [addPairs, halfLists, List.getElem_zipWith, List.getElem_reverse, List.getElem_take, List.getElem_drop,
      List.getElem_map, List.getElem_range, List.length_take, List.length_drop, List.length_map, List.length_range,
      Nat.add_eq, at_]
    have e1 : 32 + (min 32 ((everyFourth (p.drop m)).length - 32) - 1 - i) = 32 + (32 - 1 - i) := by omega
    have e2 : 32 + (min 32 ((everyFourth (n.drop m)).length - 32) - 1 - i) = 32 + (32 - 1 - i) := by omega
    rw [e1, e2, show 31 - (32 - 1 - i) = i by omega]

/-- The rows of the spline's weights. -/
def splineRows : List (List Nat) := (List.range 64).map splineNats

/-- What is done with the spline's weights and the lists of a filter, worked out. -/
noncomputable def withFilter {α : Type} (w : List Int)
    (k : List (List Nat) → List (List (Nat × Nat)) → List (List (Nat × Nat)) → α) : α :=
  forceMap forceList splineRows fun rows =>
  forceList (positives w) fun p => forceList (negatives w) fun n =>
  forceMap forcePairs ((List.range 9).map fun m =>
    addPairs (halfLists p m).1 (halfLists p m).2 (halfLists n m).1 (halfLists n m).2) fun es =>
  forceMap forcePairs ((List.range 9).map fun m =>
    addPairs (halfLists p m).1 (halfLists n m).2 (halfLists n m).1 (halfLists p m).2) fun os =>
  k rows es os

/-- The lists of a filter, backwards. -/
def evenLists (w : List Int) : List (List (Nat × Nat)) :=
  (List.range 9).map fun m => (evenPairs (positives w) (negatives w) m).reverse

def oddLists (w : List Int) : List (List (Nat × Nat)) :=
  (List.range 9).map fun m => (oddPairs (positives w) (negatives w) m).reverse

/-- What it is. -/
theorem withFilter_eq {α : Type} {w : List Int} (hw : w.length = 261)
    (k : List (List Nat) → List (List (Nat × Nat)) → List (List (Nat × Nat)) → α) :
    withFilter w k = k splineRows (evenLists w) (oddLists w) := by
  have hp : (positives w).length = 261 := by simpa [positives] using hw
  have hn : (negatives w).length = 261 := by simpa [negatives] using hw
  have he : ∀ m ∈ List.range 9, addPairs (halfLists (positives w) m).1 (halfLists (positives w) m).2
      (halfLists (negatives w) m).1 (halfLists (negatives w) m).2
      = (evenPairs (positives w) (negatives w) m).reverse := fun m hm =>
    addPairs_half (by simpa [Nat.lt_succ_iff] using hm) hp hn hp hn
  have ho : ∀ m ∈ List.range 9, addPairs (halfLists (positives w) m).1 (halfLists (negatives w) m).2
      (halfLists (negatives w) m).1 (halfLists (positives w) m).2
      = (oddPairs (positives w) (negatives w) m).reverse := fun m hm =>
    addPairs_half (by simpa [Nat.lt_succ_iff] using hm) hp hn hn hp
  rw [withFilter, forceMap_eq (f := id) (fun x _ k => forceList_eq x k)]
  simp only [forceList_eq, List.map_id]
  rw [forceMap_eq (f := id) (fun x _ k => forcePairs_eq x k), forceMap_eq (f := id) (fun x _ k => forcePairs_eq x k)]
  simp only [List.map_id]
  rw [List.map_congr_left he, List.map_congr_left ho]
  rfl

/-! ## A test of every phase -/

/-- The differences of the responses of lists read backwards. -/
noncomputable def evens {α : Type} (u cp cn : Nat) : List (List (Nat × Nat)) → (List (Nat × Nat) → α) → α :=
  forceMap fun l k => goertzel u cp cn l 0 0 0 0 1 fun xp xn yp yn =>
    force (Nat.add xp yn) fun a => force (Nat.add xn yp) fun b => k (a, b)

/-- Their sums. -/
noncomputable def odds {α : Type} (u cp cn : Nat) : List (List (Nat × Nat)) → (List (Nat × Nat) → α) → α :=
  forceMap fun l k => goertzel u cp cn l 0 0 0 0 1 fun xp xn yp yn =>
    force (Nat.add xp yp) fun a => force (Nat.add xn yn) fun b => k (a, b)

theorem evens_eq {α : Type} (u cp cn : Nat) (w : List Int) (k : List (Nat × Nat) → α) :
    evens u cp cn (evenLists w) k
      = k ((List.range 9).map fun m => evenNat u cp cn (evenPairs (positives w) (negatives w) m)) := by
  rw [evens, forceMap_eq (f := fun l => evenNat u cp cn l.reverse), evenLists, List.map_map]
  · exact congrArg k (List.map_congr_left fun m _ => by simp)
  · intro l _ k
    have := goertzel_eq u cp cn (fun xp xn yp yn => force (Nat.add xp yn) fun a => force (Nat.add xn yp) fun b => k (a, b))
      l.reverse
    rw [List.reverse_reverse] at this
    rw [this]
    simp [evenNat]

theorem odds_eq {α : Type} (u cp cn : Nat) (w : List Int) (k : List (Nat × Nat) → α) :
    odds u cp cn (oddLists w) k
      = k ((List.range 9).map fun m => oddNat u cp cn (oddPairs (positives w) (negatives w) m)) := by
  rw [odds, forceMap_eq (f := fun l => oddNat u cp cn l.reverse), oddLists, List.map_map]
  · exact congrArg k (List.map_congr_left fun m _ => by simp)
  · intro l _ k
    have := goertzel_eq u cp cn (fun xp xn yp yn => force (Nat.add xp yp) fun a => force (Nat.add xn yn) fun b => k (a, b))
      l.reverse
    rw [List.reverse_reverse] at this
    rw [this]
    simp [oddNat]

/-- Whether a test holds of the powers of 64 phases, given as differences. -/
noncomputable def everyRow (rows : List (List Nat)) (sp sn dp dn : Nat) (test : Nat → Nat → Bool)
    (es os : List (Nat × Nat)) : Bool :=
  allOf (fun r => dot r es 0 0 fun ep en => square ep en fun x => dot r os 0 0 fun op on => square op on fun y =>
    force (Nat.add (Nat.mul sp x) (Nat.mul dp y)) fun p => force (Nat.add (Nat.mul sn x) (Nat.mul dn y)) fun n =>
    test p n) rows

/-- Whether a test holds of the powers of all phases. -/
noncomputable def everyPhase (rows : List (List Nat)) (el ol : List (List (Nat × Nat))) (u : Nat) (c : Int)
    (test : Nat → Nat → Bool) : Bool :=
  force c.toNat fun cp => force (-c).toNat fun cn =>
  force (u + c).toNat fun sp => force (-(u + c)).toNat fun sn =>
  force (u - c).toNat fun dp => force (-(u - c)).toNat fun dn =>
  evens u cp cn el fun es => odds u cp cn ol fun os =>
  allOf (fun s => everyRow rows sp sn dp dn test (es.drop s) (os.drop s)) [0, 1, 2, 3]

/-- The test holds of twice the power of every phase, by its scale. -/
theorem everyPhase_of {w : List Int} {u : Nat} {c : Int} {test : Nat → Nat → Bool}
    (h : everyPhase splineRows (evenLists w) (oddLists w) u c test = true) {p : Nat} (hp : p < 256) :
    ∃ x y : Nat, test x y = true ∧ halvesIn (u : Int) c
        ((List.range 32).map fun k => ((List.range 6).map fun j => splineAt (p % 64) j * evenAt w (p / 64 + j) k).sum)
        ((List.range 32).map fun k => ((List.range 6).map fun j => splineAt (p % 64) j * oddAt w (p / 64 + j) k).sum)
        = (x : Int) - y := by
  have parts : ∀ a : Int, a = (a.toNat : Int) - (-a).toNat := fun a => (Int.toNat_sub_toNat_neg a).symm
  simp only [everyPhase, force_eq, evens_eq, odds_eq] at h
  have hs := allOf_of h (x := p / 64) (by
    rcases (by omega : p / 64 = 0 ∨ p / 64 = 1 ∨ p / 64 = 2 ∨ p / 64 = 3) with h | h | h | h <;> simp [h])
  have hr := allOf_of hs (x := splineNats (p % 64)) (List.mem_map.mpr ⟨p % 64, List.mem_range.mpr (by omega), rfl⟩)
  simp only [dot_eq, square_eq, force_eq, Nat.zero_add] at hr
  refine ⟨_, _, hr, ?_⟩
  have he := (halves_sum (R := Int) u c (List.range 32) (splineAt (p % 64)) (fun j => evenAt w (p / 64 + j)) (List.range 6)).1
  have ho := (halves_sum (R := Int) u c (List.range 32) (splineAt (p % 64)) (fun j => oddAt w (p / 64 + j)) (List.range 6)).2
  have e1 := evenNat_eq u c.toNat (-c).toNat w
  have o1 := oddNat_eq u c.toNat (-c).toNat w
  rw [Int.toNat_sub_toNat_neg] at e1 o1
  simp only [e1, Int.cast_id] at he
  simp only [o1, Int.cast_id] at ho
  rw [← dotPairs_eq (p % 64) (p / 64) (by omega)
    (fun m => evenNat u c.toNat (-c).toNat (evenPairs (positives w) (negatives w) m))] at he
  rw [← dotPairs_eq (p % 64) (p / 64) (by omega)
    (fun m => oddNat u c.toNat (-c).toNat (oddPairs (positives w) (negatives w) m))] at ho
  simp only [evenIn] at he
  simp only [oddIn] at ho
  rw [halvesIn, he, ho, ← squareDiff_eq, ← squareDiff_eq]
  simp only [Nat.add_eq, Nat.mul_eq]
  conv_lhs => rw [parts (u + c), parts (u - c)]
  push_cast
  ring

/-! ## Bounds on every phase -/

/-- A weighed sum of bounded numbers is bounded. -/
theorem abs_sum_le {M : Int} (s f : Nat → Int) : ∀ js : List Nat, (∀ j ∈ js, 0 ≤ s j ∧ |f j| ≤ M) →
    |(js.map fun j => s j * f j).sum| ≤ M * (js.map s).sum
  | [], _ => by simp
  | j :: js, h => by
    have ih := abs_sum_le (M := M) s f js fun i hi => h i (by simp [hi])
    obtain ⟨h0, h1⟩ := h j (by simp)
    simp only [List.map_cons, List.sum_cons, mul_add]
    refine (abs_add_le _ _).trans (add_le_add ?_ ih)
    rw [abs_mul, abs_of_nonneg h0, mul_comm]
    exact mul_le_mul_of_nonneg_right h1 h0

set_option maxRecDepth 20000 in
theorem splineNats_sum : ∀ r < 64, (splineNats r).sum = 2 ^ 30 := by decide +kernel

/-- The weights of six coefficients by those of the places, for any spline. -/
theorem sum_six_places (f : Nat → Nat) (r : Nat) : ((List.range 6).map fun j => (f (r + (320 - 64 * j)) : Int)).sum
    = (([320, 256, 192, 128, 64, 0].map fun j => f (r + j)).sum : Nat) := by
  simp only [List.range_succ, List.range_zero, List.nil_append, List.map_cons, List.map_nil,
    List.sum_cons, List.sum_nil, List.cons_append]
  push_cast
  ring

theorem splineAt_sum (r : Nat) : ((List.range 6).map (splineAt r)).sum = ((splineNats r).sum : Nat) :=
  sum_six_places spline r

/-- The sums of a filter's coefficients, of at most 2²⁷, that a phase is made of. -/
theorem entry_le {w : List Int} (hw : ∀ x ∈ w, |x| ≤ 2 ^ 27) (p k : Nat) :
    |((List.range 6).map fun j => splineAt (p % 64) j * evenAt w (p / 64 + j) k).sum| ≤ ((2 ^ 58 : Nat) : Int)
      ∧ |((List.range 6).map fun j => splineAt (p % 64) j * oddAt w (p / 64 + j) k).sum| ≤ ((2 ^ 58 : Nat) : Int) := by
  have at_ : ∀ n, |w.getD n 0| ≤ 2 ^ 27 := fun n => by
    by_cases h : n < w.length
    · rw [List.getD_eq_getElem _ _ h]; exact hw _ (List.getElem_mem h)
    · rw [List.getD_eq_default _ _ (by omega)]; norm_num
  have pos : ∀ j, 0 ≤ splineAt (p % 64) j := fun j => Int.natCast_nonneg _
  have s := splineAt_sum (p % 64)
  rw [splineNats_sum _ (Nat.mod_lt _ (by norm_num))] at s
  constructor
  · refine (abs_sum_le (M := 2 ^ 28) _ _ _ fun j _ => ⟨pos j, ?_⟩).trans (by rw [s]; norm_num)
    exact (abs_add_le _ _).trans (by linarith [at_ (4 * (32 + k) + (p / 64 + j)), at_ (4 * (31 - k) + (p / 64 + j))])
  · refine (abs_sum_le (M := 2 ^ 28) _ _ _ fun j _ => ⟨pos j, ?_⟩).trans (by rw [s]; norm_num)
    exact (abs_sub _ _).trans (by linarith [at_ (4 * (32 + k) + (p / 64 + j)), at_ (4 * (31 - k) + (p / 64 + j))])

/-- The bound on a response grows with the cosine. -/
theorem toneBound_mono {u c c' top : Int} (hu : 0 ≤ u) (hc : 0 ≤ c) (hc' : c ≤ c') (ht : 0 ≤ top) (n : Nat) :
    0 ≤ (toneBound (R := Int) u c top n).1 ∧ 0 ≤ (toneBound (R := Int) u c top n).2.1
      ∧ 0 ≤ (toneBound (R := Int) u c top n).2.2
      ∧ (toneBound (R := Int) u c top n).1 ≤ (toneBound (R := Int) u c' top n).1
      ∧ (toneBound (R := Int) u c top n).2.1 ≤ (toneBound (R := Int) u c' top n).2.1
      ∧ (toneBound (R := Int) u c top n).2.2 = (toneBound (R := Int) u c' top n).2.2 := by
  have h0 := hc.trans hc'
  induction n with
  | zero => simp [toneBound]
  | succ n ih =>
    obtain ⟨a, b, s, a', b', s'⟩ := ih
    simp only [toneBound, Int.cast_id]
    refine ⟨by positivity, by positivity, by positivity, ?_, by gcongr, by rw [s']⟩
    rw [s']
    gcongr

/-- The bound on a gap's coefficients grows with the cosine and with the number added. -/
theorem halvesBound_mono {k m m' u c c' top : Int} {n : Nat} (hk : 0 ≤ k) (hm' : m ≤ m') (hu : 0 ≤ u)
    (hc : 0 ≤ c) (hc' : c ≤ c') (ht : 0 ≤ top) :
    halvesBound (R := Int) k m u c top n ≤ halvesBound (R := Int) k m' u c' top n := by
  have h0 := hc.trans hc'
  obtain ⟨a, b, -, a', b', -⟩ := toneBound_mono hu hc hc' ht n
  simp only [halvesBound, Int.cast_id]
  gcongr

/-- How cells are worked out: their unit, and the binary digits of a gap's coefficients. -/
structure CellForm where
  unit : Nat
  bits : Nat

/-- What a gap is worked out at. -/
def CellForm.radix (f : CellForm) : Nat := 2 ^ (f.bits + 1)

/-- The unit there. -/
def CellForm.at (f : CellForm) : Nat := f.unit + f.unit * f.radix

/-- Whether the digits are enough for every gap of a phase. -/
def CellForm.fits (f : CellForm) : Bool :=
  let t := natBound (2 * f.unit) (2 * f.unit + 1) (2 ^ 58) 32
  decide (0 < f.unit) && decide (1000000000000 * (2 * ((4 * f.unit + 1) * (t.1 + t.2.1) ^ 2))
    + 1002305238078 * 2 ^ 113 * (2 * f.unit) ^ 65 < 2 ^ f.bits)

/-- The bound on the coefficients of a gap of a phase. -/
theorem halvesBound_lt {f : CellForm} (hf : f.fits = true) {m c : Int} (hm : m ≤ 1002305238078 * 2 ^ 113) (hc : 0 ≤ c)
    (hc' : c ≤ 2 * f.unit + 1) :
    halvesBound (R := Int) 1000000000000 m (2 * f.unit) c ((2 ^ 58 : Nat) : Int) 32 < 2 ^ f.bits := by
  refine (halvesBound_mono (by norm_num) hm (by positivity) hc hc' (by positivity)).trans_lt ?_
  have e := natBound_eq (2 * f.unit) (2 * f.unit + 1) (2 ^ 58) 32
  simp only [CellForm.fits, Bool.and_eq_true, decide_eq_true_eq] at hf
  obtain ⟨-, hf⟩ := hf
  generalize natBound (2 * f.unit) (2 * f.unit + 1) (2 ^ 58) 32 = t at e hf
  rw [show (2 * f.unit : Int) = (2 * f.unit : Nat) by push_cast; rfl,
    show ((2 * f.unit : Nat) : Int) + 1 = (2 * f.unit + 1 : Nat) by push_cast; rfl, halvesBound, e]
  have hf := Int.ofNat_lt.mpr hf
  push_cast at hf ⊢
  refine lt_of_eq_of_lt ?_ hf
  ring

/-- A difference between two bounds, of which the lower is asked only if it is not 0. -/
noncomputable def between (low high : Nat) (more : Nat → Bool) (p n : Nat) : Bool :=
  force (Nat.mul 1000000000000 p) fun p => force (Nat.mul 1000000000000 n) fun n =>
  and (or (Nat.beq low 0) (force (Nat.add low n) fun l => and (Nat.ble l p) (more (Nat.sub p l))))
    (force (Nat.add high n) fun h => and (Nat.ble p h) (more (Nat.sub h p)))

theorem between_eq {low high : Nat} {more : Nat → Bool} {p n : Nat} (h : between low high more p n = true) :
    (low = 0 ∨ low + 1000000000000 * n ≤ 1000000000000 * p
        ∧ more (1000000000000 * p - (low + 1000000000000 * n)) = true)
      ∧ 1000000000000 * p ≤ high + 1000000000000 * n ∧ more (high + 1000000000000 * n - 1000000000000 * p) = true := by
  simpa [between] using h

/-- Whether every phase's power is within bounds on a cell. -/
noncomputable def cellTest (rows : List (List Nat)) (el ol : List (List (Nat × Nat))) (f : CellForm) (u low high mask : Nat)
    (a b : Int) : Bool :=
  and (Nat.ble (a.natAbs + b.natAbs) (2 * f.unit + 1))
    (everyPhase rows el ol u (a + b * f.radix) (between low high fun y => Nat.beq (Nat.land y mask) 0))

/-- What the cell's test shows. -/
theorem within_of_cellTest {f : CellForm} (hf : f.fits = true) {w : List Int} (hw : ∀ x ∈ w, |x| ≤ 2 ^ 27) {least greatest : Nat} (hl : least ≤ greatest)
    (hg : greatest ≤ 1002305238078) {a b : Int}
    (h : cellTest splineRows (evenLists w) (oddLists w) f f.at
      (least * (2 ^ 113 * f.at ^ 65)) (greatest * (2 ^ 113 * f.at ^ 65))
      (topBits f.bits 66) a b = true) {p : Nat} (hp : p < 256) {t : ℝ} (ha : (a : ℝ) ≤ f.unit * Real.cos t)
    (hb : f.unit * Real.cos t < b) : Within 56 least greatest t (spread w p) := by
  simp only [cellTest, Bool.and_eq_true, Nat.ble_eq] at h
  obtain ⟨hab, h⟩ := h
  have hN' : 0 < f.unit := by
    have := hf; simp only [CellForm.fits, Bool.and_eq_true, decide_eq_true_eq] at this; exact this.1
  have hN : (0 : Int) < f.unit := by exact_mod_cast hN'
  obtain ⟨x, y, hxy, e⟩ := everyPhase_of h hp
  obtain ⟨lo, hi, mi⟩ := between_eq hxy
  have g := gain_spread w p t
  set E := (List.range 32).map fun k => ((List.range 6).map fun j => splineAt (p % 64) j * evenAt w (p / 64 + j) k).sum
    with hE
  set O := (List.range 32).map fun k => ((List.range 6).map fun j => splineAt (p % 64) j * oddAt w (p / 64 + j) k).sum
    with hO
  have le : E.length = 32 := by simp [hE]
  have lo' : O.length = E.length := by simp [hE, hO]
  have be : ∀ v ∈ E, |v| ≤ ((2 ^ 58 : Nat) : Int) := fun v hv => by
    obtain ⟨k, -, rfl⟩ := List.mem_map.mp hv; exact (entry_le hw p k).1
  have bo : ∀ v ∈ O, |v| ≤ ((2 ^ 58 : Nat) : Int) := fun v hv => by
    obtain ⟨k, -, rfl⟩ := List.mem_map.mp hv; exact (entry_le hw p k).2
  have hr : (f.radix : Int) = 2 ^ (f.bits + 1) := by unfold CellForm.radix; push_cast; rfl
  have hu : ((f.at : Nat) : Int) = (f.unit : Int) + f.unit * 2 ^ (f.bits + 1) := by
    unfold CellForm.at; push_cast; rw [hr]
  rw [hu, hr] at e
  have c0 : (0 : Int) ≤ ((a.natAbs + b.natAbs : Nat) : Int) := Int.natCast_nonneg _
  have c1 : ((a.natAbs + b.natAbs : Nat)   : Int) ≤ 2 * f.unit + 1 := by exact_mod_cast hab
  have ka : |(1000000000000 : Int)| = 1000000000000 := abs_of_nonneg (by norm_num)
  have fit : ∀ m : Nat, m ≤ 1002305238078 →
      ∀ v : Int, |v| = m * 2 ^ 113 → halvesBound (R := Int) |1000000000000| |v| (2 * f.unit)
        ((a.natAbs + b.natAbs : Nat) : Int) ((2 ^ 58 : Nat) : Int) E.length < 2 ^ f.bits := fun m hm v hv => by
    rw [le, hv, ka]
    refine halvesBound_lt hf ?_ c0 c1
    have : (m : Int) ≤ 1002305238078 := by exact_mod_cast hm
    linarith [mul_le_mul_of_nonneg_right this (by positivity : (0 : Int) ≤ 2 ^ 113)]
  have fit' : ∀ m : Nat, m ≤ 1002305238078 →
      ∀ v : Int, |v| = m * 2 ^ 113 → halvesBound (R := Int) |-1000000000000| |v| (2 * f.unit)
        ((a.natAbs + b.natAbs : Nat) : Int) ((2 ^ 58 : Nat) : Int) E.length < 2 ^ f.bits := fun m hm v hv => by
    rw [abs_neg]; exact fit m hm v hv
  have two : ∀ z : ℝ, (2 : ℝ) ^ 113 * z = 2 * (4 ^ 56 * z) := fun z => by norm_num; ring
  constructor
  · rcases Nat.eq_zero_or_pos least with h0 | h0
    · subst h0; simpa using mul_nonneg (gain_nonneg t _) (by norm_num : (0 : ℝ) ≤ 1000000000000)
    · obtain ⟨l1, l2⟩ := lo.resolve_left (by
        have : 0 < f.at := Nat.add_pos_left hN' _
        positivity)
      have key := halvesGap_on_cell (N := f.unit) hN (k := 1000000000000) (m := -(least * 2 ^ 113)) (B := f.bits) lo' be bo
        (fit least (hl.trans hg) _ (by rw [abs_neg, abs_of_nonneg (by positivity)]))
        (w := 1000000000000 * x - (least * (2 ^ 113 * f.at ^ 65) + 1000000000000 * y))
        (by
          rw [halvesGap, e, le, Nat.cast_sub l1]
          push_cast
          rw [← hu]
          ring)
        (by rw [le]; simpa using l2) ha hb
      rw [halvesGap, ← g] at key
      simp only [Int.cast_neg, Int.cast_mul, Int.cast_natCast, one_pow, mul_one] at key
      push_cast at key ⊢
      linarith [two least]
  · have key := halvesGap_on_cell (N := f.unit) hN (k := -1000000000000) (m := greatest * 2 ^ 113) (B := f.bits) lo' be bo
      (fit' greatest hg _ (by rw [abs_of_nonneg (by positivity)]))
      (w := greatest * (2 ^ 113 * f.at ^ 65) + 1000000000000 * y - 1000000000000 * x)
      (by
        rw [halvesGap, e, le, Nat.cast_sub hi]
        push_cast
        rw [← hu]
        ring)
      (by rw [le]; simpa using mi) ha hb
    rw [halvesGap, ← g] at key
    simp only [Int.cast_neg, Int.cast_mul, Int.cast_natCast, one_pow, mul_one] at key
    push_cast at key ⊢
    linarith [two greatest]

/-- Whether every phase's power is within bounds at a cosine, with its unit. -/
noncomputable def rowTest (rows : List (List Nat)) (el ol : List (List (Nat × Nat))) (u : Nat) (c : Int)
    (least greatest : Nat) : Bool :=
  everyPhase rows el ol u c (between (least * (2 ^ 113 * u ^ 65)) (greatest * (2 ^ 113 * u ^ 65)) fun _ => true)

/-- What the row's test shows. -/
theorem within_of_rowTest {w : List Int} {u : Nat} (hu : 0 < u) {c : Int} {least greatest : Nat}
    (h : rowTest splineRows (evenLists w) (oddLists w) u c least greatest = true) {p : Nat} (hp : p < 256) {t : ℝ}
    (hc : (c : ℝ) = u * Real.cos t) : Within 56 least greatest t (spread w p) := by
  obtain ⟨x, y, hxy, e⟩ := everyPhase_of h hp
  obtain ⟨lo, hi, -⟩ := between_eq hxy
  have g := gain_spread w p t
  set E := (List.range 32).map fun k => ((List.range 6).map fun j => splineAt (p % 64) j * evenAt w (p / 64 + j) k).sum
    with hE
  set O := (List.range 32).map fun k => ((List.range 6).map fun j => splineAt (p % 64) j * oddAt w (p / 64 + j) k).sum
    with hO
  have le : E.length = 32 := by simp [hE]
  have lo' : O.length = E.length := by simp [hE, hO]
  have er := congrArg (Int.castRingHom ℝ) e
  rw [← map_halvesIn] at er
  simp only [eq_intCast] at er
  push_cast at er
  have hu' : (0 : ℝ) < u := by exact_mod_cast hu
  have mul := halvesIn_mul (u : ℝ) 1 (Real.cos t) lo'
  rw [mul_one, ← hc, er, ← g, le] at mul
  have up : (0 : ℝ) < u ^ 65 := by positivity
  constructor
  · rcases Nat.eq_zero_or_pos least with h0 | h0
    · subst h0; simpa using mul_nonneg (gain_nonneg t _) (by norm_num : (0 : ℝ) ≤ 1000000000000)
    · obtain ⟨l1, -⟩ := lo.resolve_left (by positivity)
      have l1 : ((least * (2 ^ 113 * u ^ 65) + 1000000000000 * y : Nat) : ℝ) ≤ ((1000000000000 * x : Nat) : ℝ) := by
        exact_mod_cast l1
      push_cast at l1
      refine le_of_mul_le_mul_left ?_ up
      norm_num at mul l1 ⊢
      nlinarith
  · have hi : ((1000000000000 * x : Nat) : ℝ) ≤ ((greatest * (2 ^ 113 * u ^ 65) + 1000000000000 * y : Nat) : ℝ) := by
      exact_mod_cast hi
    push_cast at hi
    refine le_of_mul_le_mul_left ?_ up
    norm_num at mul hi ⊢
    nlinarith

end Sys2Proof
end

