-- ==== Sys2Proof/Laws/Phases.lean ====
section
/-! SUPPORT. Every phase of the stand-in meets what R38 asks of a phase by itself: the kernel tests the 256 phases of each
class on the cells that make up the passband and the 96 kHz class's stopband, and at the rows of the table. -/

namespace Sys2Proof

open Machine

/-! ## What is tested -/

/-- The filter of a class's stand-in. -/
def Machine.RateClass.someFilter (c : RateClass) : List Int := mirrored c.someHalf

/-- The cells of a band, and those around a row's cosine. -/
def bandForm : CellForm := ⟨16383, 1214⟩

def rowForm : CellForm := ⟨16777215, 1864⟩

/-- The ends of the cells that make up a class's passband. -/
def Machine.RateClass.passCells : RateClass → List Int
  | .k32 => [-15678, -14696, -13418, -11755, -9592, -6779, -3121, 684, 4642, 7935, 10675, 12955, 14852, 15832, 16384]
  | .k44 => [-15690, -14708, -13430, -11767, -9604, -6791, -3133, 672, 4630, 7923, 10663, 12943, 14840, 15828, 16384]
  | .k48 => [-14189, -12653, -10655, -8056, -4676, -1160, 2497, 6301, 9466, 12758, 14614, 15746, 16384]
  | .k96 => [4240, 6640, 9762, 12360, 14522, 15713, 16384]

/-- The ends of the cells of the stopband's steps, each with the step's greatest power. -/
def Machine.RateClass.stepCells : RateClass → List (Nat × List Int)
  | .k32 => []
  | .k44 => []
  | .k48 => []
  | .k96 => [(39810717055, [-6269, -4769, -2817, -278, 1]), (10000000000, [-11584, -10084, -8132, -6269]),
      (158489319, [-14188, -12688, -11584]), (1584893, [-16383, -14883, -14188])]

/-- The rows of the table, the cosine of each with the greatest whole number not above it in the unit of `rowForm`; a
cosine of 0 or −1 stands in units of 1. -/
noncomputable def rowTestOf (rows : List (List Nat)) (el ol : List (List (Nat × Nat))) (mask : Nat) (r : ToneRow) : Bool :=
  if r.cosine = -1152921504606846976 ∨ r.cosine = 0 then
    rowTest rows el ol 1 (if r.cosine = 0 then 0 else -1) r.least.toNat r.greatest.toNat
  else force (2 ^ 113 * rowForm.at ^ 65) fun one => cellTest rows el ol rowForm rowForm.at (r.least.toNat * one)
    (r.greatest.toNat * one) mask (r.cosine * 16777215 / 1152921504606846976)
    (r.cosine * 16777215 / 1152921504606846976 + 1)

/-- The test of every phase of a class on four cells of the passband. The kernel keeps what it has worked out until a
theorem is done, so each takes a part. -/
noncomputable def passTest (c : RateClass) (part : Nat) : Bool :=
  force bandForm.at fun u => force (2 ^ 113 * u ^ 65) fun one => force (997702000000 * one) fun low =>
  force (1002305238078 * one) fun high => force (topBits bandForm.bits 66) fun mask =>
  withFilter c.someFilter fun rows el ol =>
  neighbours (cellTest rows el ol bandForm u low high mask) ((c.passCells.drop (4 * part)).take 5)

/-- The test on one of the stopband's steps. -/
noncomputable def stepTest (c : RateClass) (part : Nat) : Bool :=
  force bandForm.at fun u => force (2 ^ 113 * u ^ 65) fun one => force (topBits bandForm.bits 66) fun mask =>
  withFilter c.someFilter fun rows el ol =>
  allOf (fun q => neighbours (cellTest rows el ol bandForm u (0 * one) (q.1 * one) mask) q.2)
    ((c.stepCells.drop (1 * part)).take 1)

/-- The test at four rows of the table. -/
noncomputable def rowsTest (c : RateClass) (part : Nat) : Bool :=
  force (topBits rowForm.bits 66) fun mask => withFilter c.someFilter fun rows el ol =>
  allOf (rowTestOf rows el ol mask) ((c.toneRows.drop (4 * part)).take 4)

set_option Elab.async false

set_option maxRecDepth 20000 in
theorem passTest_k32_0 : passTest .k32 0 = true := by decide +kernel

set_option maxRecDepth 20000 in
theorem passTest_k32_1 : passTest .k32 1 = true := by decide +kernel

set_option maxRecDepth 20000 in
theorem passTest_k32_2 : passTest .k32 2 = true := by decide +kernel

set_option maxRecDepth 20000 in
theorem passTest_k32_3 : passTest .k32 3 = true := by decide +kernel

set_option maxRecDepth 20000 in
theorem passTest_k44_0 : passTest .k44 0 = true := by decide +kernel

set_option maxRecDepth 20000 in
theorem passTest_k44_1 : passTest .k44 1 = true := by decide +kernel

set_option maxRecDepth 20000 in
theorem passTest_k44_2 : passTest .k44 2 = true := by decide +kernel

set_option maxRecDepth 20000 in
theorem passTest_k44_3 : passTest .k44 3 = true := by decide +kernel

set_option maxRecDepth 20000 in
theorem passTest_k48_0 : passTest .k48 0 = true := by decide +kernel

set_option maxRecDepth 20000 in
theorem passTest_k48_1 : passTest .k48 1 = true := by decide +kernel

set_option maxRecDepth 20000 in
theorem passTest_k48_2 : passTest .k48 2 = true := by decide +kernel

set_option maxRecDepth 20000 in
theorem passTest_k96_0 : passTest .k96 0 = true := by decide +kernel

set_option maxRecDepth 20000 in
theorem passTest_k96_1 : passTest .k96 1 = true := by decide +kernel

set_option maxRecDepth 20000 in
theorem stepTest_k96_0 : stepTest .k96 0 = true := by decide +kernel

set_option maxRecDepth 20000 in
theorem stepTest_k96_1 : stepTest .k96 1 = true := by decide +kernel

set_option maxRecDepth 20000 in
theorem stepTest_k96_2 : stepTest .k96 2 = true := by decide +kernel

set_option maxRecDepth 20000 in
theorem stepTest_k96_3 : stepTest .k96 3 = true := by decide +kernel

set_option maxRecDepth 20000 in
theorem rowsTest_k32_0 : rowsTest .k32 0 = true := by decide +kernel

set_option maxRecDepth 20000 in
theorem rowsTest_k44_0 : rowsTest .k44 0 = true := by decide +kernel

set_option maxRecDepth 20000 in
theorem rowsTest_k48_0 : rowsTest .k48 0 = true := by decide +kernel

set_option maxRecDepth 20000 in
theorem rowsTest_k96_0 : rowsTest .k96 0 = true := by decide +kernel

set_option maxRecDepth 20000 in
theorem rowsTest_k96_1 : rowsTest .k96 1 = true := by decide +kernel

set_option maxRecDepth 20000 in
theorem rowsTest_k96_2 : rowsTest .k96 2 = true := by decide +kernel

set_option maxRecDepth 20000 in
theorem rowsTest_k96_3 : rowsTest .k96 3 = true := by decide +kernel

/-! ## What the tests show -/

theorem bandForm_fits : bandForm.fits = true := by decide +kernel

theorem rowForm_fits : rowForm.fits = true := by decide +kernel

set_option maxRecDepth 20000 in
theorem someFilter_length (c : RateClass) : c.someFilter.length = 261 := by cases c <;> decide +kernel

set_option maxRecDepth 20000 in
theorem someFilter_le (c : RateClass) : ∀ x ∈ c.someFilter, |x| ≤ 2 ^ 27 := by
  have h : (c.someFilter.all fun x => decide (x.natAbs ≤ 2 ^ 27)) = true := by cases c <;> decide +kernel
  intro x hx
  have := List.all_eq_true.mp h x hx
  simp only [decide_eq_true_eq] at this
  rw [Int.abs_eq_natAbs]
  exact_mod_cast this

/-- How many parts of the passband's cells there are, and of the table's rows. -/
def Machine.RateClass.passParts : RateClass → Nat
  | .k32 => 4
  | .k44 => 4
  | .k48 => 3
  | .k96 => 2

def Machine.RateClass.rowsParts : RateClass → Nat
  | .k32 => 1
  | .k44 => 1
  | .k48 => 1
  | .k96 => 4

theorem passTest_all (c : RateClass) : ∀ j < c.passParts, passTest c j = true := by
  intro j hj
  cases c <;> simp only [RateClass.passParts] at hj <;> interval_cases j
  · exact passTest_k32_0
  · exact passTest_k32_1
  · exact passTest_k32_2
  · exact passTest_k32_3
  · exact passTest_k44_0
  · exact passTest_k44_1
  · exact passTest_k44_2
  · exact passTest_k44_3
  · exact passTest_k48_0
  · exact passTest_k48_1
  · exact passTest_k48_2
  · exact passTest_k96_0
  · exact passTest_k96_1

theorem rowsTest_all (c : RateClass) : ∀ j < c.rowsParts, rowsTest c j = true := by
  intro j hj
  cases c <;> simp only [RateClass.rowsParts] at hj <;> interval_cases j
  · exact rowsTest_k32_0
  · exact rowsTest_k44_0
  · exact rowsTest_k48_0
  · exact rowsTest_k96_0
  · exact rowsTest_k96_1
  · exact rowsTest_k96_2
  · exact rowsTest_k96_3

theorem stepTest_all : ∀ j < 4, stepTest .k96 j = true := by
  intro j hj
  interval_cases j
  · exact stepTest_k96_0
  · exact stepTest_k96_1
  · exact stepTest_k96_2
  · exact stepTest_k96_3

/-- A cosine in units of 2⁻⁶⁰ in those of a band's cells. -/
theorem bandForm_unit : (bandForm.unit : ℝ) = 16383 := by norm_num [bandForm]

/-- R38: every phase keeps the passband, and a little more than it asks. -/
theorem phase_passband (c : RateClass) {p : Nat} (hp : p < 256) {t : ℝ}
    (ht : (c.passCells.headD 0 : ℝ) ≤ 16383 * Real.cos t) :
    Within 56 ((997702000000 : Nat) : Int) ((1002305238078 : Nat) : Int) t (spread c.someFilter p) := by
  have h := passTest_all c
  simp only [passTest, force_eq, withFilter_eq (someFilter_length c)] at h
  have h := neighbours_parts 4 c.passParts (by cases c <;> decide) h
  have h1 := Real.cos_le_one t
  have e : c.passCells = c.passCells.headD 0 :: c.passCells.tail.dropLast ++ [16384] := by cases c <;> rfl
  rw [e] at h
  obtain ⟨x, y, hxy, hx, hy⟩ : ∃ x y, cellTest splineRows (evenLists c.someFilter) (oddLists c.someFilter) bandForm
      bandForm.at (997702000000 * (2 ^ 113 * bandForm.at ^ 65)) (1002305238078 * (2 ^ 113 * bandForm.at ^ 65))
      (topBits bandForm.bits 66) x y = true ∧ (x : ℝ) ≤ 16383 * Real.cos t ∧ 16383 * Real.cos t < y :=
    neighbours_between h ht (by push_cast; linarith)
  exact within_of_cellTest bandForm_fits (someFilter_le c) (by norm_num) le_rfl hxy hp
    (by rw [bandForm_unit]; exact hx) (by rw [bandForm_unit]; exact hy)

/-- A step of the stopband is kept where its cells lie. -/
theorem phase_step (c : RateClass) {n : Nat} (hc : ∀ j < n, stepTest c j = true) (hn : c.stepCells.length ≤ 1 * n) {g : Nat} {a z : Int} {l : List Int}
    (hm : (g, a :: l ++ [z]) ∈ c.stepCells) (hg : g ≤ 1002305238078) {p : Nat} (hp : p < 256) {t : ℝ}
    (ha : (a : ℝ) ≤ 16383 * Real.cos t) (hz : 16383 * Real.cos t < z) :
    Within 56 ((0 : Nat) : Int) (g : Int) t (spread c.someFilter p) := by
  simp only [stepTest, force_eq, withFilter_eq (someFilter_length c)] at hc
  have h := allOf_parts 1 n hn hc hm
  obtain ⟨x, y, hxy, hx, hy⟩ := neighbours_between h ha hz
  exact within_of_cellTest bandForm_fits (someFilter_le c) (Nat.zero_le g) hg hxy hp
    (by rw [bandForm_unit]; exact hx) (by rw [bandForm_unit]; exact hy)

/-- A power within narrower bounds. -/
theorem Within.mono {bits : Nat} {l g l' g' : Int} {t : ℝ} {taps : List Int} (h : Within bits l g t taps) (hl : l' ≤ l)
    (hg : g ≤ g') : Within bits l' g' t taps := by
  have hl : (l' : ℝ) ≤ l := by exact_mod_cast hl
  have hg : (g : ℝ) ≤ g' := by exact_mod_cast hg
  have p : (0 : ℝ) ≤ 4 ^ bits := by positivity
  exact ⟨(mul_le_mul_of_nonneg_right hl p).trans h.1, h.2.trans (mul_le_mul_of_nonneg_right hg p)⟩

/-- R38: every phase keeps the rows of its class's table. -/
theorem phase_rows (c : RateClass) {p : Nat} (hp : p < 256) : ∀ r ∈ c.toneRows,
    r.keptBy 56 (spread c.someFilter p) = true := by
  intro r hr
  have h := rowsTest_all c
  simp only [rowsTest, force_eq, withFilter_eq (someFilter_length c)] at h
  have h := allOf_parts 4 c.rowsParts (by cases c <;> decide) h hr
  have hb : ∀ r ∈ c.toneRows, -1152921504606846976 ≤ r.cosine ∧ r.cosine ≤ 1152921504606846976 ∧ 0 ≤ r.least
      ∧ r.least ≤ r.greatest ∧ r.greatest ≤ 1002305238078 := by cases c <;> decide
  obtain ⟨b0, b1, g0, g1, g2⟩ := hb r hr
  obtain ⟨t, -, -, ht⟩ := exists_angle b0 b1
  rw [keptBy_iff_within ht]
  have w : Within 56 (r.least.toNat : Int) (r.greatest.toNat : Int) t (spread c.someFilter p) := by
    unfold rowTestOf at h
    split at h
    · next hu =>
      refine within_of_rowTest (u := 1) (by norm_num) h hp ?_
      rcases hu with hu | hu <;> rw [hu] at ht ⊢ <;> norm_num at ht ⊢ <;> linarith
    · next hu =>
      rw [force_eq] at h
      have un : (rowForm.unit : ℝ) = 16777215 := by norm_num [rowForm]
      have e : (r.cosine : ℝ) * 16777215 = 1152921504606846976 * (16777215 * Real.cos t) := by rw [ht]; ring
      refine within_of_cellTest rowForm_fits (someFilter_le c) (by omega) (by omega) h hp ?_ ?_
      · rw [un]
        have q : ((r.cosine * 16777215 / 1152921504606846976 : Int) : ℝ) * 1152921504606846976 ≤ r.cosine * 16777215 := by
          have := Int.ediv_mul_le (r.cosine * 16777215) (b := 1152921504606846976) (by norm_num)
          exact_mod_cast this
        linarith
      · rw [un]
        have q : (r.cosine : ℝ) * 16777215
            < (((r.cosine * 16777215 / 1152921504606846976 : Int) : ℝ) + 1) * 1152921504606846976 := by
          have := Int.lt_ediv_add_one_mul_self (r.cosine * 16777215) (b := 1152921504606846976) (by norm_num)
          exact_mod_cast this
        push_cast
        linarith
  rwa [Int.toNat_of_nonneg g0, Int.toNat_of_nonneg (g0.trans g1)] at w

/-- What a cosine that a row of a band has lies between. -/
theorem mem_band {k : Int} {n : Nat} (hk : -1152921504606846976 ≤ k) (hk1 : k ≤ 1152921504606846976)
    (hn : n < (k + 1152921504606846976).toNat + 1) :
    ∃ t : ℝ, ((k - n : Int) : ℝ) = 1152921504606846976 * Real.cos t ∧ -1 ≤ Real.cos t
      ∧ 1152921504606846976 * Real.cos t ≤ k := by
  obtain ⟨t, -, -, ht⟩ := exists_angle (c := k - n) (by omega) (by omega)
  refine ⟨t, ht, Real.neg_one_le_cos t, ?_⟩
  rw [← ht]; push_cast
  have : (0 : ℝ) ≤ n := Nat.cast_nonneg n
  linarith

/-- R38: every phase keeps the steps of its class's stopband. -/
theorem phase_steps (c : RateClass) {p : Nat} (hp : p < 256) : ∀ r ∈ c.toneSteps,
    keepsOn 56 (spread c.someFilter p) r = true := by
  cases c
  · simp [RateClass.toneSteps]
  · simp [RateClass.toneSteps]
  · simp [RateClass.toneSteps]
  · have s := @phase_step .k96 4 stepTest_all (by decide)
    have b1 := fun {t : ℝ} => s (g := 39810717055) (a := -6269) (l := [-4769, -2817, -278]) (z := 1)
      (by simp [RateClass.stepCells]) (by norm_num) hp (t := t)
    have b2 := fun {t : ℝ} => s (g := 10000000000) (a := -11584) (l := [-10084, -8132]) (z := -6269)
      (by simp [RateClass.stepCells]) (by norm_num) hp (t := t)
    have b3 := fun {t : ℝ} => s (g := 158489319) (a := -14188) (l := [-12688]) (z := -11584)
      (by simp [RateClass.stepCells]) (by norm_num) hp (t := t)
    have b4 := fun {t : ℝ} => s (g := 1584893) (a := -16383) (l := [-14883]) (z := -14188)
      (by simp [RateClass.stepCells]) (by norm_num) hp (t := t)
    have far : ∀ g : Int, 1584893 ≤ g → ∀ t : ℝ, -1 ≤ Real.cos t → 16383 * Real.cos t < -14188 →
        Within 56 0 g t (spread RateClass.k96.someFilter p) := fun g hg t h0 h1 =>
      (b4 (by norm_num; linarith) (by norm_num; linarith)).mono le_rfl hg
    have mid : ∀ g : Int, 158489319 ≤ g → ∀ t : ℝ, -1 ≤ Real.cos t → 16383 * Real.cos t < -11584 →
        Within 56 0 g t (spread RateClass.k96.someFilter p) := fun g hg t h0 h1 => by
      rcases lt_or_ge (16383 * Real.cos t) (-14188) with h | h
      · exact far g (by linarith) t h0 h
      · exact (b3 (by norm_num; linarith) (by norm_num; linarith)).mono le_rfl hg
    have near : ∀ g : Int, 10000000000 ≤ g → ∀ t : ℝ, -1 ≤ Real.cos t → 16383 * Real.cos t < -6269 →
        Within 56 0 g t (spread RateClass.k96.someFilter p) := fun g hg t h0 h1 => by
      rcases lt_or_ge (16383 * Real.cos t) (-11584) with h | h
      · exact mid g (by linarith) t h0 h
      · exact (b2 (by norm_num; linarith) (by norm_num; linarith)).mono le_rfl hg
    have all : ∀ g : Int, 39810717055 ≤ g → ∀ t : ℝ, -1 ≤ Real.cos t → 16383 * Real.cos t < 1 →
        Within 56 0 g t (spread RateClass.k96.someFilter p) := fun g hg t h0 h1 => by
      rcases lt_or_ge (16383 * Real.cos t) (-6269) with h | h
      · exact near g (by linarith) t h0 h
      · exact (b1 (by norm_num; linarith) (by norm_num; linarith)).mono le_rfl hg
    intro r hr
    simp only [keepsOn, decide_eq_true_eq]
    intro n hn
    simp only [RateClass.toneSteps, List.mem_cons, List.not_mem_nil, or_false] at hr
    obtain ⟨t, ht, h0, h1⟩ := mem_band (k := r.cosine) (by rcases hr with rfl | rfl | rfl | rfl <;> norm_num)
      (by rcases hr with rfl | rfl | rfl | rfl <;> norm_num) hn
    rw [keptBy_iff_within ht]
    rcases hr with rfl | rfl | rfl | rfl <;> push_cast at h1
    · exact all _ le_rfl t h0 (by linarith)
    · exact near _ le_rfl t h0 (by linarith)
    · exact mid _ le_rfl t h0 (by linarith)
    · exact far _ le_rfl t h0 (by linarith)

/-! ## The sums -/

theorem sum_six (f : Nat → Int) : ((List.range 6).map f).sum = f 0 + f 1 + f 2 + f 3 + f 4 + f 5 := by
  simp only [List.range_succ, List.range_zero, List.nil_append, List.map_append, List.map_cons, List.map_nil,
    List.sum_append, List.sum_cons, List.sum_nil]
  ring

/-- A sum of a phase's coefficients, each times a number of its place, from those of the filter's quarters. -/
theorem sum_tapAt (w : List Int) (p : Nat) (g : Nat → Int) (n : Nat) :
    ((List.range n).map fun k => g k * tapAt w p k).sum
      = ((List.range 6).map fun j => splineAt (p % 64) j
          * ((List.range n).map fun k => g k * w.getD (4 * k + (p / 64 + j)) 0).sum).sum := by
  simp only [sum_six, tapAt, Nat.add_assoc]
  induction n with
  | zero => simp
  | succ n ih =>
    simp only [List.range_succ, List.map_append, List.map_cons, List.map_nil, List.sum_append, List.sum_cons,
      List.sum_nil, ih]
    ring

/-- The sum of every fourth coefficient from a place on, each times its frame's place, and the plain sum. -/
def quarterWeight (w : List Int) (m : Nat) : Int :=
  ((List.range 64).map fun (k : Nat) => ((k : Int) - 32) * w.getD (4 * k + m) 0).sum

def quarterSum (w : List Int) (m : Nat) : Int := ((List.range 64).map fun k => 1 * w.getD (4 * k + m) 0).sum

theorem weighPlaces_map (g : Nat → Int) : ∀ (n : Nat) (place : Int) (i : Nat),
    weighPlaces place ((List.range' i n).map g) = ((List.range' i n).map fun (k : Nat) => (place + ((k : Int) - i)) * g k).sum
  | 0, _, _ => by simp [weighPlaces]
  | n + 1, place, i => by
    rw [List.range'_succ, List.map_cons, weighPlaces, weighPlaces_map g n (place + 1) (i + 1), List.map_cons, List.sum_cons]
    push_cast
    congr 1
    · ring
    · congr 2
      funext k
      ring

theorem spread_sum (w : List Int) (p : Nat) : (spread w p).sum
    = ((List.range 6).map fun j => splineAt (p % 64) j * quarterSum w (p / 64 + j)).sum := by
  simp only [quarterSum]
  rw [← sum_tapAt, spread_eq]
  simp only [one_mul]

theorem spread_weigh (w : List Int) (p : Nat) : weighPlaces (-32) (spread w p)
    = ((List.range 6).map fun j => splineAt (p % 64) j * quarterWeight w (p / 64 + j)).sum := by
  have h := weighPlaces_map (tapAt w p) 64 (-32) 0
  rw [← List.range_eq_range'] at h
  rw [spread_eq, h]
  simp only [quarterWeight]
  rw [← sum_tapAt]
  congr 2

/-- Every quarter of a class's filter adds up to 2²⁶. -/
theorem quarterSum_eq (c : RateClass) : ∀ m < 9, quarterSum c.someFilter m = 67108864 := by
  cases c <;> decide +kernel

/-- What the quarters of a class's filter weigh. -/
def Machine.RateClass.weights : RateClass → List Int
  | .k32 => [33554432, 16771442, 0, -16771442, -33554432, -50337422, -67108864, -83880306, -100663296]
  | .k44 => [33554432, 16775714, 0, -16775714, -33554432, -50333150, -67108864, -83884578, -100663296]
  | .k48 => [33554432, 16792394, 0, -16792394, -33554432, -50316470, -67108864, -83901258, -100663296]
  | .k96 => [33554432, 16810977, 0, -16810977, -33554432, -50297887, -67108864, -83919841, -100663296]

theorem quarterWeight_eq (c : RateClass) : ∀ m < 9, quarterWeight c.someFilter m = c.weights.getD m 0 := by
  cases c <;> decide +kernel

/-- Every phase is centred on the read position to half a phase. -/
theorem weights_centred (c : RateClass) : ∀ p < 256,
    (256 * ((List.range 6).map fun j => splineAt (p % 64) j * c.weights.getD (p / 64 + j) 0).sum
      + p * 72057594037927936).natAbs ≤ 36028797018963968 := by
  cases c <;> decide +kernel

/-- The first cell begins at the passband's end. -/
theorem passCells_headD (c : RateClass) : c.passCells.headD 0 * 1152921504606846976 ≤ 16383 * c.passbandEnd := by
  cases c <;> decide

/-- R38: every phase of a class's stand-in gives the response of the class. -/
theorem phase_meets (c : RateClass) {p : Nat} (hp : p < 256) : phaseMeets c 56 p (spread c.someFilter p) = true := by
  have s : (spread c.someFilter p).sum = 72057594037927936 := by
    rw [spread_sum, List.map_congr_left (g := fun j => splineAt (p % 64) j * 67108864) fun j hj => by
      rw [quarterSum_eq c _ (by have := List.mem_range.mp hj; omega)]]
    have e := splineAt_sum (p % 64)
    rw [splineNats_sum _ (Nat.mod_lt _ (by norm_num)), sum_six] at e
    rw [sum_six]
    push_cast at e
    linarith
  have w : weighPlaces (-32) (spread c.someFilter p)
      = ((List.range 6).map fun j => splineAt (p % 64) j * c.weights.getD (p / 64 + j) 0).sum := by
    rw [spread_weigh]
    exact congrArg List.sum (List.map_congr_left fun j hj => by
      rw [quarterWeight_eq c _ (by have := List.mem_range.mp hj; omega)])
  simp only [phaseMeets, Bool.and_eq_true, decide_eq_true_eq, List.all_eq_true]
  refine ⟨⟨⟨⟨⟨spread_length _ _, by rw [s]; norm_num⟩, ?_⟩, ?_⟩, phase_rows c hp⟩, phase_steps c hp⟩
  · have := weights_centred c p hp
    rw [w, s]
    generalize ((List.range 6).map fun j => splineAt (p % 64) j * c.weights.getD (p / 64 + j) 0).sum = v at this ⊢
    rw [show (2 : Nat) ^ 56 = 72057594037927936 by norm_num]
    omega
  · have e0 : -1152921504606846976 ≤ c.passbandEnd ∧ c.passbandEnd ≤ 1152921504606846976 := by cases c <;> decide
    simp only [keepsPassband, decide_eq_true_eq]
    intro n hn
    obtain ⟨t, -, -, ht⟩ := exists_angle (c := 1152921504606846976 - n) (by omega) (by omega)
    rw [keptBy_iff_within ht]
    have ha := passCells_headD c
    have hm : c.passbandEnd ≤ 1152921504606846976 - n := by omega
    have ha : (c.passCells.headD 0 : ℝ) * 1152921504606846976 ≤ 16383 * c.passbandEnd := by exact_mod_cast ha
    have hm : (c.passbandEnd : ℝ) ≤ ((1152921504606846976 - n : Int) : ℝ) := by exact_mod_cast hm
    rw [ht] at hm
    exact (phase_passband c hp (by linarith)).mono (by norm_num) (by norm_num)

end Sys2Proof
end

