-- ==== Sys2Proof/Laws/Sweep.lean ====
section
/-! SUPPORT. The response of a sweep of the stand-in's phases. It is that of the filter, spread by the spline: the
spline's own response is known in full, so a bound on the filter's at a cell of cosines bounds the sweep's at every
frequency whose cosine at the filter's rate lies there. The passband follows from the phases': over the images of a tone
the powers of the sweep add up to those of the phases. -/

namespace Sys2Proof

open Machine Finset ComplexConjugate

/-! ## The sweep as a sum -/

theorem phasor_map_range (z : ℂ) (f : Nat → Int) (n : Nat) :
    phasor z ((List.range n).map f) = ∑ i ∈ range n, z ^ i * (f i : ℂ) := by
  induction n with
  | zero => simp [phasor]
  | succ n ih =>
    rw [List.range_succ, List.map_append, phasor_append, ih, sum_range_succ]
    simp [phasor]

theorem phasor_flatMap (z : ℂ) (f : Nat → Nat → Int) (P K : Nat) :
    phasor z ((List.range K).flatMap fun k => (List.range P).map (f k))
      = ∑ k ∈ range K, z ^ (P * k) * ∑ p ∈ range P, z ^ p * (f k p : ℂ) := by
  induction K with
  | zero => simp [phasor]
  | succ n ih =>
    have hl : ((List.range n).flatMap fun k => (List.range P).map (f k)).length = P * n := by
      simp [List.length_flatMap, Nat.mul_comm]
    rw [List.range_succ, List.flatMap_append, phasor_append, ih, hl, sum_range_succ, List.flatMap_cons,
      List.flatMap_nil, List.append_nil, phasor_map_range]

theorem sum_blocks (f : Nat → ℂ) (P K : Nat) :
    ∑ n ∈ range (K * P), f n = ∑ k ∈ range K, ∑ p ∈ range P, f (P * k + p) := by
  induction K with
  | zero => simp
  | succ K ih => rw [Nat.succ_mul, sum_range_add, ih, sum_range_succ, Nat.mul_comm K P]

/-- The stand-in. -/
theorem someInterpolator_eq (c : RateClass) : someInterpolator c = ⟨56, (List.range 256).map (spread c.someFilter)⟩ := rfl

/-- The response of the sweep, place by place. -/
theorem phasor_sweep_sum (c : RateClass) (z : ℂ) : phasor z (someInterpolator c).sweep
    = ∑ k ∈ range 64, ∑ p ∈ range 256, z ^ (256 * k + p) * (tapAt c.someFilter p k : ℂ) := by
  have e : (someInterpolator c).sweep
      = (List.range 64).flatMap fun k => (List.range 256).map fun p => tapAt c.someFilter p k := by
    rw [someInterpolator_eq, Interpolator.sweep]
    refine List.flatMap_congr fun k hk => List.map_congr_left fun p hp => ?_
    have hk := List.mem_range.mp hk
    have hp := List.mem_range.mp hp
    simp [hp, hk, spread_eq]
  rw [e, phasor_flatMap]
  refine sum_congr rfl fun k _ => ?_
  rw [mul_sum]
  refine sum_congr rfl fun p _ => ?_
  rw [pow_add]
  ring

/-- By its phases. -/
theorem phasor_sweep (c : RateClass) (z : ℂ) : phasor z (someInterpolator c).sweep
    = ∑ p ∈ range 256, z ^ p * phasor (z ^ 256) (spread c.someFilter p) := by
  rw [phasor_sweep_sum, sum_comm]
  refine sum_congr rfl fun p _ => ?_
  rw [spread_eq, phasor_map_range, mul_sum]
  refine sum_congr rfl fun k _ => ?_
  rw [← pow_mul, pow_add]
  ring

/-- By the filter and the spline. -/
theorem phasor_sweep_blocks (c : RateClass) (z : ℂ) : phasor z (someInterpolator c).sweep
    = ∑ q ∈ range 256, ∑ r ∈ range 64, z ^ (64 * q + r)
        * ∑ j ∈ range 6, (splineAt r j : ℂ) * (c.someFilter.getD (q + j) 0 : ℂ) := by
  have t : ∀ p k, (tapAt c.someFilter p k : ℂ)
      = ∑ j ∈ range 6, (splineAt (p % 64) j : ℂ) * (c.someFilter.getD (4 * k + p / 64 + j) 0 : ℂ) := fun p k => by
    rw [tapAt, sum_six]; simp only [sum_range_succ, sum_range_zero]; push_cast; ring
  set G : Nat → ℂ := fun n => z ^ n * ∑ j ∈ range 6, (splineAt (n % 64) j : ℂ) * (c.someFilter.getD (n / 64 + j) 0 : ℂ)
    with hG
  have e1 := sum_blocks G 256 64
  have e2 := sum_blocks G 64 256
  rw [phasor_sweep_sum]
  trans ∑ n ∈ range 16384, G n
  · rw [show 16384 = 64 * 256 by norm_num, e1]
    refine sum_congr rfl fun k _ => sum_congr rfl fun p hp => ?_
    have hp := mem_range.mp hp
    rw [t, hG]
    simp only
    rw [show (256 * k + p) % 64 = p % 64 by omega, show (256 * k + p) / 64 = 4 * k + p / 64 by omega]
  · rw [show 16384 = 256 * 64 by norm_num, e2]
    refine sum_congr rfl fun q _ => sum_congr rfl fun r hr => ?_
    have hr := mem_range.mp hr
    rw [hG]
    simp only
    rw [show (64 * q + r) % 64 = r by omega, show (64 * q + r) / 64 = q by omega]

/-! ## The spline's response -/

/-- The spline. -/
def splineList : List Int := (List.range 384).map fun n => (spline n : Int)

/-- Each element less the one before it. -/
def differences (before : Int) : List Int → List Int
  | [] => [-before]
  | h :: t => (h - before) :: differences h t

theorem phasor_differences (z : ℂ) : ∀ (l : List Int) (a : Int),
    phasor z (differences a l) = (1 - z) * phasor z l - a
  | [], a => by simp [differences, phasor]
  | h :: t, a => by simp only [differences, phasor, phasor_differences z t h]; push_cast; ring

set_option maxRecDepth 20000 in
theorem spline_differences : differences 0 (differences 0 (differences 0 (differences 0 (differences 0
    (differences 0 splineList))))) = List.replicate 3 0 ++ 1 :: (List.replicate 63 0 ++ -6 :: (List.replicate 63 0
      ++ 15 :: (List.replicate 63 0 ++ -20 :: (List.replicate 63 0 ++ 15 :: (List.replicate 63 0 ++ -6 ::
        (List.replicate 63 0 ++ 1 :: List.replicate 2 0)))))) := by decide +kernel

/-- Σ of the spline, times (1 − z)⁶. -/
theorem phasor_spline (z : ℂ) : (1 - z) ^ 6 * phasor z splineList = z ^ 3 * (1 - z ^ 64) ^ 6 := by
  have h := congrArg (phasor z) spline_differences
  simp only [phasor_differences, phasor_append, phasor_zeros, phasor, List.length_replicate] at h
  push_cast at h
  linear_combination h

/-- Which coefficients of a filter are 0. -/
theorem someFilter_zero (c : RateClass) {n : Nat} (h : n < 5 ∨ 256 ≤ n) : c.someFilter.getD n 0 = 0 := by
  have hz : (∀ n < 5, c.someFilter.getD n 0 = 0) ∧ ∀ n < 5, c.someFilter.getD (256 + n) 0 = 0 := by
    cases c <;> exact ⟨by decide +kernel, by decide +kernel⟩
  rcases h with h | h
  · exact hz.1 n h
  · by_cases hn : n < 261
    · have := hz.2 (n - 256) (by omega)
      rwa [show 256 + (n - 256) = n by omega] at this
    · exact List.getD_eq_default _ _ (by rw [someFilter_length]; omega)

theorem phasor_getD (z : ℂ) (l : List Int) : phasor z l = ∑ i ∈ range l.length, z ^ i * (l.getD i 0 : ℂ) := by
  rw [← phasor_map_range]
  congr 1
  exact List.ext_getElem (by simp) fun i h1 h2 => by simp [h1]

/-- The sweep's response is the filter's, at a quarter of the frames' distance, times the spline's. -/
theorem phasor_sweep_mul (c : RateClass) (z : ℂ) : z ^ 320 * phasor z (someInterpolator c).sweep
    = phasor (z ^ 64) c.someFilter * phasor z splineList := by
  have hw : ∀ j < 6, ∑ q ∈ range 256, (z ^ 64) ^ (q + j) * (c.someFilter.getD (q + j) 0 : ℂ)
      = phasor (z ^ 64) c.someFilter := fun j hj => by
    rw [phasor_getD, someFilter_length, show 261 = j + 256 + (5 - j) by omega, sum_range_add, sum_range_add]
    rw [sum_eq_zero (s := range j) fun i hi => by
      rw [someFilter_zero c (by have := mem_range.mp hi; omega)]; simp,
      sum_eq_zero (s := range (5 - j)) fun i _ => by rw [someFilter_zero c (by omega)]; simp]
    rw [zero_add, add_zero]
    exact sum_congr rfl fun q _ => by rw [Nat.add_comm]
  have hs : phasor z splineList
      = ∑ j ∈ range 6, ∑ r ∈ range 64, z ^ (r + (320 - 64 * j)) * (splineAt r j : ℂ) := by
    rw [splineList, phasor_map_range, show 384 = 6 * 64 by norm_num, sum_blocks]
    simp only [sum_range_succ _ 5, sum_range_succ _ 4, sum_range_succ _ 3, sum_range_succ _ 2, sum_range_succ _ 1,
      sum_range_succ _ 0, range_zero, sum_empty, splineAt, Nat.add_comm (64 * _)]
    push_cast
    ring_nf
  rw [phasor_sweep_blocks, hs, mul_sum, mul_sum]
  have step : ∀ j < 6, phasor (z ^ 64) c.someFilter * ∑ r ∈ range 64, z ^ (r + (320 - 64 * j)) * (splineAt r j : ℂ)
      = ∑ q ∈ range 256, ∑ r ∈ range 64, z ^ 320 * (z ^ (64 * q + r) * ((splineAt r j : ℂ)
        * (c.someFilter.getD (q + j) 0 : ℂ))) := fun j hj => by
    rw [← hw j hj, sum_mul_sum]
    refine sum_congr rfl fun q _ => sum_congr rfl fun r _ => ?_
    have : z ^ 320 * z ^ (64 * q + r) = (z ^ 64) ^ (q + j) * z ^ (r + (320 - 64 * j)) := by
      rw [← pow_mul, ← pow_add, ← pow_add]; congr 1; omega
    linear_combination (-((splineAt r j : ℂ) * (c.someFilter.getD (q + j) 0 : ℂ))) * this
  rw [sum_congr rfl fun j hj => step j (mem_range.mp hj), sum_comm]
  refine sum_congr rfl fun q _ => ?_
  rw [sum_comm, mul_sum]
  refine sum_congr rfl fun r _ => ?_
  rw [mul_sum, mul_sum]

/-! ## The power of a sweep -/

/-- The power of 1 − z on the unit circle. -/
theorem normSq_one_sub (a : ℝ) : Complex.normSq (1 - onCircle a) = 2 * (1 - Real.cos a) := by
  rw [Complex.normSq_apply]
  simp only [Complex.sub_re, Complex.sub_im, Complex.one_re, Complex.one_im, onCircle_re, onCircle_im]
  nlinarith [Real.sin_sq_add_cos_sq a]

/-- The filter's response at an angle for one of its coefficients. -/
noncomputable def amplitude (c : RateClass) (a : ℝ) : ℝ := mirrorIn 1 (Real.cos a) c.someHalf

/-- The filter's power. -/
theorem gain_someFilter (c : RateClass) (a : ℝ) : gain a c.someFilter = amplitude c a ^ 2 := by
  obtain ⟨m, rest, h⟩ : ∃ m rest, c.someHalf = m :: rest := by cases c <;> exact ⟨_, _, rfl⟩
  rw [amplitude, h, ← gain_mirror]
  have e : phasor (onCircle a) c.someFilter = onCircle a ^ 5 * phasor (onCircle a) (rest.reverse ++ m :: rest) := by
    rw [RateClass.someFilter, mirrored, h, List.tail_cons, phasor_append, phasor_append, phasor_zeros]
    simp
  rw [gain, e]
  simp [gain]

/-- The power of the sweep, by the filter's response at 64 times the angle. -/
theorem gain_sweep (c : RateClass) (a : ℝ) : gain a (someInterpolator c).sweep * (1 - Real.cos a) ^ 6
    = amplitude c (64 * a) ^ 2 * (1 - Real.cos (64 * a)) ^ 6 := by
  have h1 := phasor_sweep_mul c (onCircle a)
  have h2 := phasor_spline (onCircle a)
  have e64 : onCircle a ^ 64 = onCircle (64 * a) := by rw [onCircle_pow]; norm_num
  rw [e64] at h1 h2
  have h : (1 - onCircle a) ^ 6 * (onCircle a ^ 320 * phasor (onCircle a) (someInterpolator c).sweep)
      = phasor (onCircle (64 * a)) c.someFilter * (onCircle a ^ 3 * (1 - onCircle (64 * a)) ^ 6) := by
    rw [h1, ← h2]; ring
  have g := congrArg Complex.normSq h
  simp only [map_mul, map_pow, normSq_onCircle, one_pow, one_mul, normSq_one_sub, mul_pow] at g
  change _ * gain a _ = gain (64 * a) _ * _ at g
  rw [gain_someFilter] at g
  linarith

/-! ## A sweep and its images

The images of a tone are the sweep's response at the angles that differ from its own by whole turns of the lane's rate.
Their powers together are those of the phases. -/

/-- The angle of a tone's image. -/
noncomputable def image (a : ℝ) (m : Nat) : ℝ := a + m * (Real.pi / 128)

theorem onCircle_image (a : ℝ) (m : Nat) : onCircle (image a m) = onCircle a * onCircle (Real.pi / 128) ^ m := by
  rw [image, onCircle_add, onCircle_pow]

theorem onCircle_turn : onCircle (Real.pi / 128) ^ 256 = 1 := by
  rw [onCircle_pow, onCircle_eq]
  rw [show ((256 : Nat) : ℝ) * (Real.pi / 128) = 2 * Real.pi by push_cast; ring]
  simp

/-- Σ of a turn's powers. -/
theorem sum_turn {d : Nat} (h0 : 0 < d) (h1 : d < 256) : ∑ m ∈ range 256, onCircle (Real.pi / 128) ^ (m * d) = 0 := by
  have hne : onCircle (Real.pi / 128) ^ d ≠ 1 := by
    rw [onCircle_pow]
    intro h
    have hc := congrArg Complex.re h
    rw [onCircle_re, Complex.one_re] at hc
    have hp := Real.pi_pos
    have d0 : (0 : ℝ) < d := by exact_mod_cast h0
    have d1 : (d : ℝ) < 256 := by exact_mod_cast h1
    have := (Real.cos_eq_one_iff_of_lt_of_lt (x := d * (Real.pi / 128)) (by nlinarith) (by nlinarith)).mp hc
    nlinarith
  have hg := geom_sum_eq hne 256
  rw [← pow_mul, Nat.mul_comm, pow_mul, onCircle_turn, one_pow, sub_self, zero_div] at hg
  rw [← hg]
  exact sum_congr rfl fun m _ => by rw [← pow_mul, Nat.mul_comm]

/-- The powers of a tone and its images together are 256 times those of the phases. -/
theorem sum_images (c : RateClass) (a : ℝ) : ∑ m ∈ range 256, gain (image a m) (someInterpolator c).sweep
    = 256 * ∑ p ∈ range 256, gain (256 * a) (spread c.someFilter p) := by
  set w := onCircle (Real.pi / 128) with hw
  have hww : w * conj w = 1 := onCircle_mul_conj _
  have hz : ∀ m, onCircle (image a m) ^ 256 = onCircle (256 * a) := fun m => by
    rw [onCircle_image, mul_pow, ← hw, ← pow_mul, Nat.mul_comm, pow_mul, onCircle_turn, one_pow, mul_one, onCircle_pow]
    norm_num
  set F : Nat → ℂ := fun p => onCircle a ^ p * phasor (onCircle (256 * a)) (spread c.someFilter p) with hF
  have hH : ∀ m, phasor (onCircle (image a m)) (someInterpolator c).sweep = ∑ p ∈ range 256, w ^ (m * p) * F p := fun m => by
    rw [phasor_sweep, hz]
    refine sum_congr rfl fun p _ => ?_
    rw [onCircle_image, mul_pow, ← pow_mul, hF]
    ring
  have cross : ∀ p ∈ range 256, ∀ q ∈ range 256,
      ∑ m ∈ range 256, w ^ (m * p) * conj (w ^ (m * q)) = if p = q then 256 else 0 := by
    intro p hp q hq
    have hp := mem_range.mp hp
    have hq := mem_range.mp hq
    have one : ∀ n, w ^ n * conj (w ^ n) = 1 := fun n => by rw [map_pow, ← mul_pow, hww, one_pow]
    split
    · next h =>
      subst h
      rw [sum_congr rfl fun m _ => one (m * p)]
      simp
    · next h =>
      rcases Nat.lt_or_gt_of_ne h with h | h
      · have s := congrArg conj (sum_turn (d := q - p) (by omega) (by omega))
        rw [map_sum, map_zero] at s
        rw [← s]
        refine sum_congr rfl fun m _ => ?_
        rw [show m * q = m * (q - p) + m * p by rw [← Nat.mul_add]; congr 1; omega, pow_add, map_mul]
        linear_combination conj (w ^ (m * (q - p))) * one (m * p)
      · rw [← sum_turn (d := p - q) (by omega) (by omega)]
        refine sum_congr rfl fun m _ => ?_
        rw [show m * p = m * (p - q) + m * q by rw [← Nat.mul_add]; congr 1; omega, pow_add]
        linear_combination w ^ (m * (p - q)) * one (m * q)
  have key : ((∑ m ∈ range 256, gain (image a m) (someInterpolator c).sweep : ℝ) : ℂ)
      = ((256 * ∑ p ∈ range 256, gain (256 * a) (spread c.someFilter p) : ℝ) : ℂ) := by
    have g1 : ∀ m, ((gain (image a m) (someInterpolator c).sweep : ℝ) : ℂ)
        = ∑ p ∈ range 256, ∑ q ∈ range 256, (w ^ (m * p) * conj (w ^ (m * q))) * (F p * conj (F q)) := fun m => by
      rw [gain, ← Complex.mul_conj, hH, map_sum, sum_mul_sum]
      refine sum_congr rfl fun p _ => sum_congr rfl fun q _ => ?_
      rw [map_mul]; ring
    have g2 : ∀ p, ((gain (256 * a) (spread c.someFilter p) : ℝ) : ℂ) = F p * conj (F p) := fun p => by
      rw [Complex.mul_conj, hF]; simp [gain]
    push_cast
    rw [sum_congr rfl fun m _ => g1 m, sum_comm, mul_sum]
    refine sum_congr rfl fun p hp => ?_
    rw [sum_comm, g2]
    have : ∀ q ∈ range 256, ∑ m ∈ range 256, (w ^ (m * p) * conj (w ^ (m * q))) * (F p * conj (F q))
        = if p = q then 256 * (F p * conj (F p)) else 0 := fun q hq => by
      rw [← sum_mul, cross p hp q hq]
      split
      · next h => rw [h]
      · simp
    rw [sum_congr rfl this, sum_ite_eq, if_pos hp]
  exact_mod_cast key

end Sys2Proof
end

