-- ==== Sys2Proof/Laws/Images.lean ====
section
/-! SUPPORT. Bounds on the power of a sweep. The filter's response is bounded on each of the cells that make up all
cosines at the filter's rate; a cell's cosines belong to tones whose own cosines lie below a limit, or far below 1, and
there the spline's known response carries the bound over to the sweep. The kernel tests every cell. -/

namespace Sys2Proof

open Machine

/-! ## Angles doubled -/

/-- A lower bound on 2⁶⁰ · cos(2ⁿ·t) from one on 2⁶⁰ · cos t. -/
def doubledBelow : Nat → Int → Int
  | 0, k => k
  | n + 1, k => if k < 0 then -1152921504606846976
    else doubledBelow n ((2 * k * k - 1329227995784915872903807060280344576) / 1152921504606846976)

theorem doubledBelow_le : ∀ (n : Nat) {k : Int} {t : ℝ}, (k : ℝ) ≤ 1152921504606846976 * Real.cos t →
    (doubledBelow n k : ℝ) ≤ 1152921504606846976 * Real.cos (2 ^ n * t)
  | 0, k, t, h => by simpa [doubledBelow] using h
  | n + 1, k, t, h => by
    unfold doubledBelow
    split
    · push_cast; linarith [Real.neg_one_le_cos (2 ^ (n + 1) * t)]
    · next hk =>
      have hk : (0 : ℝ) ≤ k := by exact_mod_cast not_lt.mp hk
      have ih := doubledBelow_le n (t := 2 * t) (k := (2 * k * k - 1329227995784915872903807060280344576) / 1152921504606846976) ?_
      · rwa [show (2 : ℝ) ^ (n + 1) * t = 2 ^ n * (2 * t) by ring]
      · have q : (((2 * k * k - 1329227995784915872903807060280344576) / 1152921504606846976 : Int) : ℝ)
            * 1152921504606846976 ≤ 2 * k * k - 1329227995784915872903807060280344576 := by
          have := Int.ediv_mul_le (2 * k * k - 1329227995784915872903807060280344576) (b := 1152921504606846976) (by norm_num)
          exact_mod_cast this
        rw [Real.cos_two_mul]
        nlinarith

/-- An upper bound on 2⁶⁰ · cos(2ⁿ·t) from a lower and an upper one on 2⁶⁰ · cos t. -/
def doubledAbove : Nat → Int → Int → Int
  | 0, _, h => h
  | n + 1, l, h => if l < 0 then 1152921504606846976
    else doubledAbove n ((2 * l * l - 1329227995784915872903807060280344576) / 1152921504606846976)
      (-((1329227995784915872903807060280344576 - 2 * h * h) / 1152921504606846976))

theorem le_doubledAbove : ∀ (n : Nat) {l h : Int} {t : ℝ}, (l : ℝ) ≤ 1152921504606846976 * Real.cos t →
    1152921504606846976 * Real.cos t ≤ h → 1152921504606846976 * Real.cos (2 ^ n * t) ≤ doubledAbove n l h
  | 0, l, h, t, _, h1 => by simpa [doubledAbove] using h1
  | n + 1, l, h, t, h0, h1 => by
    unfold doubledAbove
    split
    · push_cast; linarith [Real.cos_le_one (2 ^ (n + 1) * t)]
    · next hl =>
      have hl : (0 : ℝ) ≤ l := by exact_mod_cast not_lt.mp hl
      have ih := le_doubledAbove n (t := 2 * t)
        (l := (2 * l * l - 1329227995784915872903807060280344576) / 1152921504606846976)
        (h := -((1329227995784915872903807060280344576 - 2 * h * h) / 1152921504606846976)) ?_ ?_
      · rwa [show (2 : ℝ) ^ (n + 1) * t = 2 ^ n * (2 * t) by ring]
      · have q : (((2 * l * l - 1329227995784915872903807060280344576) / 1152921504606846976 : Int) : ℝ)
            * 1152921504606846976 ≤ 2 * l * l - 1329227995784915872903807060280344576 := by
          have := Int.ediv_mul_le (2 * l * l - 1329227995784915872903807060280344576) (b := 1152921504606846976) (by norm_num)
          exact_mod_cast this
        rw [Real.cos_two_mul]
        nlinarith
      · have q : (((1329227995784915872903807060280344576 - 2 * h * h) / 1152921504606846976 : Int) : ℝ)
            * 1152921504606846976 ≤ 1329227995784915872903807060280344576 - 2 * h * h := by
          have := Int.ediv_mul_le (1329227995784915872903807060280344576 - 2 * h * h) (b := 1152921504606846976) (by norm_num)
          exact_mod_cast this
        rw [Real.cos_two_mul]
        push_cast
        nlinarith

/-! ## From the filter's response to the sweep's power -/

/-- An upper bound on the sweep's power. -/
theorem power_le {c : RateClass} {t : ℝ} {a k D g : Int} (hA : amplitude c (64 * t) ^ 2 ≤ (D : ℝ) ^ 2)
    (ha : (a : ℝ) ≤ 16383 * Real.cos (64 * t)) (hk : 1152921504606846976 * Real.cos t ≤ k)
    (hk1 : k < 1152921504606846976)
    (h : D ^ 2 * 1000000000000 * (16383 - a) ^ 6 * 2 ^ 232 ≤ g * 16383 ^ 6 * (1152921504606846976 - k) ^ 6) :
    gain t (someInterpolator c).sweep * 1000000000000 ≤ g * 4 ^ 64 := by
  have e := gain_sweep c t
  have h1 := Real.cos_le_one (64 * t)
  have hk1 : (k : ℝ) < 1152921504606846976 := by exact_mod_cast hk1
  have h : (D : ℝ) ^ 2 * 1000000000000 * (16383 - a) ^ 6 * 2 ^ 232 ≤ g * 16383 ^ 6 * (1152921504606846976 - k) ^ 6 := by
    exact_mod_cast h
  have p0 : (0 : ℝ) < 1152921504606846976 - k := by linarith
  have p6 : (0 : ℝ) < (1152921504606846976 - k) ^ 6 := by positivity
  have b1 : (1152921504606846976 - (k : ℝ)) ^ 6 ≤ (1152921504606846976 * (1 - Real.cos t)) ^ 6 :=
    pow_le_pow_left₀ p0.le (by linarith) 6
  have b2 : (16383 * (1 - Real.cos (64 * t))) ^ 6 ≤ (16383 - (a : ℝ)) ^ 6 :=
    pow_le_pow_left₀ (by linarith) (by linarith) 6
  have g0 := gain_nonneg t (someInterpolator c).sweep
  refine le_of_mul_le_mul_right ?_ p6
  have s1 := mul_le_mul_of_nonneg_left b1 g0
  have s2 : amplitude c (64 * t) ^ 2 * (16383 * (1 - Real.cos (64 * t))) ^ 6 ≤ (D : ℝ) ^ 2 * (16383 - (a : ℝ)) ^ 6 :=
    mul_le_mul hA b2 (by positivity) (by positivity)
  rw [mul_pow] at s1 s2
  have two : (1152921504606846976 : ℝ) ^ 6 = 2 ^ 232 * 4 ^ 64 := by norm_num
  rw [two] at s1
  have s3 : gain t (someInterpolator c).sweep * (1152921504606846976 - k) ^ 6
      ≤ 2 ^ 232 * 4 ^ 64 * (amplitude c (64 * t) ^ 2 * (1 - Real.cos (64 * t)) ^ 6) := by
    rw [← e]; linarith
  have n6 : (0 : ℝ) < 16383 ^ 6 := by positivity
  refine le_of_mul_le_mul_right ?_ n6
  nlinarith [s3, s2, h]

/-- A lower bound. -/
theorem le_power {c : RateClass} {t : ℝ} {b k D g : Int} (hA : (D : ℝ) ^ 2 ≤ amplitude c (64 * t) ^ 2)
    (hb : 16383 * Real.cos (64 * t) ≤ b) (hb1 : b ≤ 16383) (hk : (k : ℝ) ≤ 1152921504606846976 * Real.cos t)
    (hk1 : k < 1152921504606846976)
    (h : g * 16383 ^ 6 * (1152921504606846976 - k) ^ 6 ≤ D ^ 2 * 1000000000000 * (16383 - b) ^ 6 * 2 ^ 232) :
    (g : ℝ) * 4 ^ 64 ≤ gain t (someInterpolator c).sweep * 1000000000000 := by
  have e := gain_sweep c t
  have h1 := Real.cos_le_one t
  have hk1 : (k : ℝ) < 1152921504606846976 := by exact_mod_cast hk1
  have hb1 : (b : ℝ) ≤ 16383 := by exact_mod_cast hb1
  have h : (g : ℝ) * 16383 ^ 6 * (1152921504606846976 - k) ^ 6 ≤ (D : ℝ) ^ 2 * 1000000000000 * (16383 - b) ^ 6 * 2 ^ 232 := by
    exact_mod_cast h
  have p0 : (0 : ℝ) < 1152921504606846976 - k := by linarith
  have p6 : (0 : ℝ) < (1152921504606846976 - k) ^ 6 := by positivity
  have b1 : (1152921504606846976 * (1 - Real.cos t)) ^ 6 ≤ (1152921504606846976 - (k : ℝ)) ^ 6 :=
    pow_le_pow_left₀ (by linarith) (by linarith) 6
  have b2 : (16383 - (b : ℝ)) ^ 6 ≤ (16383 * (1 - Real.cos (64 * t))) ^ 6 :=
    pow_le_pow_left₀ (by linarith) (by linarith) 6
  have g0 := gain_nonneg t (someInterpolator c).sweep
  refine le_of_mul_le_mul_right ?_ p6
  have s1 := mul_le_mul_of_nonneg_left b1 g0
  have s2 : (D : ℝ) ^ 2 * (16383 - (b : ℝ)) ^ 6 ≤ amplitude c (64 * t) ^ 2 * (16383 * (1 - Real.cos (64 * t))) ^ 6 :=
    mul_le_mul hA b2 (by positivity) (by positivity)
  rw [mul_pow] at s1 s2
  have two : (1152921504606846976 : ℝ) ^ 6 = 2 ^ 232 * 4 ^ 64 := by norm_num
  rw [two] at s1
  have s3 : 2 ^ 232 * 4 ^ 64 * (amplitude c (64 * t) ^ 2 * (1 - Real.cos (64 * t)) ^ 6)
      ≤ gain t (someInterpolator c).sweep * (1152921504606846976 - k) ^ 6 := by
    rw [← e]; linarith
  have n6 : (0 : ℝ) < 16383 ^ 6 := by positivity
  refine le_of_mul_le_mul_right ?_ n6
  nlinarith [s3, s2, h]

/-! ## The filter's response on a cell -/

/-- The form of the cells. -/
def sweepForm : CellForm := ⟨16383, 2093⟩

/-- The bound on a gap's coefficients grows with the cosine and with the number added. -/
theorem mirrorBound_mono {m m' u c c' top : Int} {n : Nat} (hm : m ≤ m') (hu : 0 ≤ u) (hc : 0 ≤ c) (hc' : c ≤ c')
    (ht : 0 ≤ top) : mirrorBound (R := Int) 1 m u c top n ≤ mirrorBound (R := Int) 1 m' u c' top n := by
  obtain ⟨a, b, s, a', b', s'⟩ := toneBound_mono hu hc hc' ht n
  have h0 := hc.trans hc'
  simp only [mirrorBound, Int.cast_id, s']
  gcongr

set_option maxRecDepth 20000 in
theorem sweepForm_fits : 2 * (32766 * (natBound 32766 32767 134217728 126).1 + 32767 * (natBound 32766 32767 134217728 126).2.1)
      + 32766 * (natBound 32766 32767 134217728 126).2.2 * 134217728 + 536870912 * 32766 ^ 127 < 2 ^ sweepForm.bits := by
  decide +kernel

/-- The bound on the coefficients of a gap of a filter's half. -/
theorem mirrorBound_lt {m c : Int} (hm : m ≤ 536870912) (hc : 0 ≤ c) (hc' : c ≤ 32767) :
    mirrorBound (R := Int) 1 m 32766 c ((2 ^ 27 : Nat) : Int) 126 < 2 ^ sweepForm.bits := by
  refine (mirrorBound_mono hm (by norm_num) hc hc' (by positivity)).trans_lt ?_
  have e := natBound_eq 32766 32767 134217728 126
  have hf := Int.ofNat_lt.mpr sweepForm_fits
  rw [show (2 ^ 27 : Nat) = 134217728 by norm_num]
  generalize natBound 32766 32767 134217728 126 = t at e hf
  rw [show (32766 : Int) = (32766 : Nat) by rfl, show (32767 : Int) = (32767 : Nat) by rfl, mirrorBound, e]
  push_cast at hf ⊢
  refine lt_of_eq_of_lt ?_ hf
  ring

/-- A filter's half as differences. -/
def halfPairs (c : RateClass) : List (Nat × Nat) := c.someHalf.map fun a => (a.toNat, (-a).toNat)

theorem halfPairs_eq (c : RateClass) : c.someHalf = (halfPairs c).map fun h => (h.1 : Int) - h.2 := by
  rw [halfPairs, List.map_map]
  exact (List.map_id' _).symm.trans (List.map_congr_left fun a _ => (Int.toNat_sub_toNat_neg a).symm)

/-- Whether a difference is not negative and shows no top binary digit. -/
noncomputable def plainDigits (mask x y : Nat) : Bool :=
  force x fun x => force y fun y => and (Nat.ble y x) (Nat.beq (Nat.land (Nat.sub x y) mask) 0)

/-- The test of a cell: whether the response of a filter's half, given backwards, lies between two bounds there. -/
noncomputable def amplitudeTest (l : List (Nat × Nat)) (head u one mask : Nat) (a b lo hi : Int) : Bool :=
  and (and (Nat.ble (a.natAbs + b.natAbs) 32767) (and (Nat.ble lo.natAbs 536870912) (Nat.ble hi.natAbs 536870912)))
    (force (a + b * sweepForm.radix).toNat fun cp => force (-(a + b * sweepForm.radix)).toNat fun cn =>
    goertzel u cp cn l 0 0 0 0 1 fun xp xn yp yn =>
    force (Nat.mul 2 (Nat.add (Nat.mul u xp) (Nat.add (Nat.mul cp yn) (Nat.mul cn yp)))) fun p =>
    force (Nat.add (Nat.mul 2 (Nat.add (Nat.mul u xn) (Nat.add (Nat.mul cp yp) (Nat.mul cn yn)))) (Nat.mul one head)) fun n =>
    and (plainDigits mask (Nat.add p (Nat.mul one (-lo).toNat)) (Nat.add n (Nat.mul one lo.toNat)))
      (plainDigits mask (Nat.add n (Nat.mul one hi.toNat)) (Nat.add p (Nat.mul one (-hi).toNat))))

set_option maxRecDepth 20000 in
theorem someHalf_form (c : RateClass) : c.someHalf.length = 126 ∧ 0 ≤ c.someHalf.headD 0
    ∧ (c.someHalf.all fun x => decide (x.natAbs ≤ 2 ^ 27)) = true := by cases c <;> decide +kernel

/-- What the cell's test shows. -/
theorem amplitude_of_test {c : RateClass} {a b lo hi : Int}
    (h : amplitudeTest (halfPairs c).reverse (c.someHalf.headD 0).toNat sweepForm.at (sweepForm.at ^ 127)
      (topBits sweepForm.bits 128) a b lo hi = true) {t : ℝ} (ha : (a : ℝ) ≤ 16383 * Real.cos t) (hb : 16383 * Real.cos t < b) :
    (lo : ℝ) ≤ amplitude c t ∧ amplitude c t ≤ hi := by
  obtain ⟨hlen, hhead, hle⟩ := someHalf_form c
  have hle : ∀ x ∈ c.someHalf, |x| ≤ ((2 ^ 27 : Nat) : Int) := fun x hx => by
    have := List.all_eq_true.mp hle x hx
    simp only [decide_eq_true_eq] at this
    rw [Int.abs_eq_natAbs]
    exact_mod_cast this
  simp only [amplitudeTest, plainDigits, force_eq, goertzel_eq, Bool.and_eq_true, Nat.ble_eq, Nat.beq_eq,
    Nat.add_eq, Nat.mul_eq, Nat.sub_eq] at h
  obtain ⟨⟨hab, hlo, hhi⟩, ⟨l1, l2⟩, u1, u2⟩ := h
  have e := natTone_eq sweepForm.at (a + b * sweepForm.radix).toNat (-(a + b * sweepForm.radix)).toNat (halfPairs c)
  rw [← halfPairs_eq, Int.toNat_sub_toNat_neg] at e
  have parts : ∀ x : Int, x = (x.toNat : Int) - (-x).toNat := fun x => (Int.toNat_sub_toNat_neg x).symm
  have value : mirrorIn (R := Int) sweepForm.at (a + b * sweepForm.radix) c.someHalf
      = (2 * (sweepForm.at * (natTone sweepForm.at (a + b * sweepForm.radix).toNat (-(a + b * sweepForm.radix)).toNat (halfPairs c)).xp
          + ((a + b * sweepForm.radix).toNat * (natTone sweepForm.at (a + b * sweepForm.radix).toNat (-(a + b * sweepForm.radix)).toNat (halfPairs c)).yn
            + (-(a + b * sweepForm.radix)).toNat * (natTone sweepForm.at (a + b * sweepForm.radix).toNat (-(a + b * sweepForm.radix)).toNat (halfPairs c)).yp)) : Nat)
        - (2 * (sweepForm.at * (natTone sweepForm.at (a + b * sweepForm.radix).toNat (-(a + b * sweepForm.radix)).toNat (halfPairs c)).xn
          + ((a + b * sweepForm.radix).toNat * (natTone sweepForm.at (a + b * sweepForm.radix).toNat (-(a + b * sweepForm.radix)).toNat (halfPairs c)).yp
            + (-(a + b * sweepForm.radix)).toNat * (natTone sweepForm.at (a + b * sweepForm.radix).toNat (-(a + b * sweepForm.radix)).toNat (halfPairs c)).yn))
          + sweepForm.at ^ 127 * (c.someHalf.headD 0).toNat : Nat) := by
    have s := toneIn_scale (R := Int) sweepForm.at (a + b * sweepForm.radix) c.someHalf
    rw [hlen, e] at s
    simp only at s
    simp only [mirrorIn, e, Int.cast_id, s]
    generalize natTone sweepForm.at (a + b * sweepForm.radix).toNat (-(a + b * sweepForm.radix)).toNat (halfPairs c) = T
    generalize hx : (a + b * sweepForm.radix : Int) = x
    push_cast
    rw [Int.toNat_of_nonneg hhead]
    conv_lhs => rw [parts x]
    ring
  generalize 2 * (sweepForm.at * (natTone sweepForm.at (a + b * sweepForm.radix).toNat (-(a + b * sweepForm.radix)).toNat (halfPairs c)).xp
          + ((a + b * sweepForm.radix).toNat * (natTone sweepForm.at (a + b * sweepForm.radix).toNat (-(a + b * sweepForm.radix)).toNat (halfPairs c)).yn
            + (-(a + b * sweepForm.radix)).toNat * (natTone sweepForm.at (a + b * sweepForm.radix).toNat (-(a + b * sweepForm.radix)).toNat (halfPairs c)).yp)) = P at *
  generalize 2 * (sweepForm.at * (natTone sweepForm.at (a + b * sweepForm.radix).toNat (-(a + b * sweepForm.radix)).toNat (halfPairs c)).xn
          + ((a + b * sweepForm.radix).toNat * (natTone sweepForm.at (a + b * sweepForm.radix).toNat (-(a + b * sweepForm.radix)).toNat (halfPairs c)).yp
            + (-(a + b * sweepForm.radix)).toNat * (natTone sweepForm.at (a + b * sweepForm.radix).toNat (-(a + b * sweepForm.radix)).toNat (halfPairs c)).yn))
          + sweepForm.at ^ 127 * (c.someHalf.headD 0).toNat = Q at *
  have hr : ((sweepForm.radix : Nat) : Int) = 2 ^ (sweepForm.bits + 1) := by unfold CellForm.radix; push_cast; rfl
  have hu : ((sweepForm.at : Nat) : Int) = 16383 + 16383 * 2 ^ (sweepForm.bits + 1) := by
    unfold CellForm.at; push_cast; rw [hr]; rfl
  have c0 : (0 : Int) ≤ ((a.natAbs + b.natAbs : Nat) : Int) := Int.natCast_nonneg _
  have c1 : ((a.natAbs + b.natAbs : Nat) : Int) ≤ 32767 := by exact_mod_cast hab
  have fit : ∀ k v : Int, |k| = 1 → v.natAbs ≤ 536870912 → mirrorBound (R := Int) |k| |v| (2 * 16383)
      ((a.natAbs + b.natAbs : Nat) : Int) ((2 ^ 27 : Nat) : Int) c.someHalf.length < 2 ^ sweepForm.bits := fun k v hk hv => by
    rw [hlen, hk]
    refine mirrorBound_lt ?_ c0 c1
    rw [Int.abs_eq_natAbs]; exact_mod_cast hv
  have gap : ∀ (k v : Int) (w : Nat), |k| = 1 → v.natAbs ≤ 536870912 →
      k * ((P : Int) - Q) + v * (sweepForm.at : Int) ^ 127 = w → Nat.land w (topBits sweepForm.bits 128) = 0 →
      0 ≤ (k : ℝ) * amplitude c t + v := fun k v w hk hv hw hl => by
    have := mirrorGap_on_cell (N := 16383) (by norm_num) (B := sweepForm.bits) (a := a) (b := b) (k := k) (m := v) hle
      (fit k v hk hv) (w := w) (by
        rw [mirrorGap, hlen, ← hu, ← hr, value]; simpa only [Int.cast_id] using hw)
      (by rw [hlen]; exact hl) (by exact_mod_cast ha) (by exact_mod_cast hb)
    simpa [mirrorGap, amplitude] using this
  constructor
  · have := gap 1 (-lo) (P + sweepForm.at ^ 127 * (-lo).toNat - (Q + sweepForm.at ^ 127 * lo.toNat)) abs_one
      ((Int.natAbs_neg lo).trans_le hlo) (by
      rw [Nat.cast_sub l1]
      simp only [Nat.cast_add, Nat.cast_mul, Nat.cast_pow]
      linear_combination (-(sweepForm.at : Int) ^ 127) * parts lo) l2
    push_cast at this
    linarith
  · have := gap (-1) hi (Q + sweepForm.at ^ 127 * hi.toNat - (P + sweepForm.at ^ 127 * (-hi).toNat))
      ((abs_neg 1).trans abs_one) hhi (by
      rw [Nat.cast_sub u1]
      simp only [Nat.cast_add, Nat.cast_mul, Nat.cast_pow]
      linear_combination ((sweepForm.at : Int) ^ 127) * parts hi) u2
    push_cast at this
    linarith

/-! ## What is tested -/

/-- A cell of cosines at the filter's rate, up to where the next begins: where it begins, in units of 1/16383; a limit on
2⁶⁰ times the cosine of the tones that lie in it; and a bound on the filter's response there. -/
structure SweepCell where
  start : Int
  cosine : Int
  top : Int

/-- The cells of the 32 kHz class. -/
def sweepCells32 : List SweepCell :=
  [⟨-16383, 1151625879396015744, 32724⟩, ⟨-16289, 1151676171355438208, 29310⟩, ⟨-16156, 1151724986635141760, 26317⟩,
   ⟨-15968, 1151776573934063616, 23462⟩, ⟨-15703, 1151833132939419008, 20657⟩, ⟨-15330, 1151896267375625856, 17883⟩,
   ⟨-14806, 1151967415379966464, 15151⟩, ⟨-14071, 1152029408475457792, 13304⟩, ⟨-13298, 1152102742401129856, 11110⟩,
   ⟨-12214, 1152152945349771648, 10274⟩, ⟨-11360, 1152200496139051392, 9290⟩, ⟨-10463, 1152246000625669632, 8432⟩,
   ⟨-9521, 1152289930314402304, 7671⟩, ⟨-8531, 1152322224084848256, 7366⟩, ⟨-7751, 1152354305219351552, 6871⟩,
   ⟨-6931, 1152386235646397184, 6405⟩, ⟨-6069, 1152418065448817536, 5967⟩, ⟨-5163, 1152449835157136768, 5552⟩,
   ⟨-4211, 1152473787468658816, 5438⟩, ⟨-3461, 1152498062592146816, 5142⟩, ⟨-2672, 1152522639292618496, 4854⟩,
   ⟨-1843, 1152547525535283840, 4572⟩, ⟨-972, 1152572726357143808, 4296⟩, ⟨-57, 1152591957924112768, 4263⟩, ⟨664,
   1152611624595032576, 4055⟩, ⟨1422, 1152631733472533248, 3845⟩, ⟨2219, 1152647167839940736, 3845⟩, ⟨2846,
   1152663044845923328, 3683⟩, ⟨3505, 1152679379247874688, 3517⟩, ⟨4198, 1152692000196308736, 3536⟩, ⟨4744,
   1152705042744797568, 3404⟩, ⟨5318, 1152718505484294528, 3268⟩, ⟨5921, 1152728944910287488, 3300⟩, ⟨6396,
   1152739781894633216, 3188⟩, ⟨6896, 1152751019947259520, 3071⟩, ⟨7422, 1152762661492682368, 2948⟩, ⟨7975,
   1152771718819433984, 2992⟩, ⟨8411, 1152781142043184000, 2889⟩, ⟨8870, 1152788495039615232, 2937⟩, ⟨9232,
   1152796160742543232, 2850⟩] ++
  [⟨9613, 1152804149613129344, 2757⟩, ⟨10014, 1152809779146482304, 2857⟩, ⟨10299, 1152811646870216192, 3116⟩,
   ⟨10394, 1152814293522808320, 303638⟩, ⟨10529, 1152817652932284544, 295517⟩, ⟨10701, 1152822355851450880,
   11195897⟩, ⟨10943, 1152823517619047808, 12314288⟩, ⟨11003, 1152825179899569664, 42910844⟩, ⟨11089,
   1152827532148149248, 41816796⟩, ⟨11211, 1152829378284800768, 42254838⟩, ⟨11307, 1152830836820267136, 42608377⟩,
   ⟨11383, 1152832388417868800, 42331202⟩, ⟨11464, 1152834586200234752, 41248256⟩, ⟨11579, 1152834700703403520,
   44107207⟩, ⟨11585, 0, 328552173⟩, ⟨11595, 0, 330615073⟩, ⟨11611, 0, 333951785⟩, ⟨11635, 0, 339041565⟩, ⟨11670, 0,
   346651238⟩, ⟨11721, 0, 358152731⟩, ⟨11794, 0, 375518123⟩, ⟨11898, 0, 402251556⟩, ⟨12045, 0, 444545719⟩, ⟨12252,
   0, 514777421⟩, ⟨12543, 0, 536870911⟩, ⟨12952, 0, 536870911⟩, ⟨13526, 0, 536870911⟩, ⟨14331, 0, 536870911⟩,
   ⟨15460, 0, 536870911⟩, ⟨16384, 0, 0⟩]

/-- The cells of the 44.1 kHz class. -/
def sweepCells44 : List SweepCell :=
  [⟨-16383, 1151625879396015744, 32724⟩, ⟨-16289, 1151676171355438208, 29310⟩, ⟨-16156, 1151724986635141760, 26317⟩,
   ⟨-15968, 1151776573934063616, 23462⟩, ⟨-15703, 1151833132939419008, 20657⟩, ⟨-15330, 1151896267375625856, 17883⟩,
   ⟨-14806, 1151950969705776000, 15948⟩, ⟨-14255, 1152015542980888704, 13685⟩, ⟨-13482, 1152073498859566848, 12117⟩,
   ⟨-12669, 1152126943219581824, 10828⟩, ⟨-11814, 1152177115211467136, 9738⟩, ⟨-10915, 1152224812483529984, 8798⟩,
   ⟨-9970, 1152270581201630720, 7976⟩, ⟨-8977, 1152314853311261568, 7245⟩, ⟨-7933, 1152347413781512320, 6965⟩,
   ⟨-7111, 1152379780901642496, 6488⟩, ⟨-6247, 1152412010346437376, 6040⟩, ⟨-5339, 1152444147212802304, 5617⟩,
   ⟨-4385, 1152468341287114368, 5498⟩, ⟨-3634, 1152492816562419328, 5199⟩, ⟨-2845, 1152517584917484416, 4906⟩,
   ⟨-2016, 1152542654812766336, 4620⟩, ⟨-1145, 1152561768000853888, 4575⟩, ⟨-459, 1152581300598033024, 4362⟩, ⟨262,
   1152601262653842048, 4149⟩, ⟨1020, 1152621661269774592, 3935⟩, ⟨1817, 1152637310033823104, 3931⟩, ⟨2444,
   1152653400691484672, 3766⟩, ⟨3103, 1152669947922781568, 3597⟩, ⟨3796, 1152686963581773440, 3424⟩, ⟨4525,
   1152700093259934080, 3445⟩, ⟨5099, 1152713643670341632, 3308⟩, ⟨5702, 1152727634104635264, 3165⟩, ⟨6336,
   1152738467951195392, 3200⟩, ⟨6835, 1152749703782653312, 3083⟩, ⟨7360, 1152761344010135424, 2960⟩, ⟨7912,
   1152770395861063168, 3004⟩, ⟨8347, 1152779814453229056, 2901⟩, ⟨8805, 1152787159538157312, 2949⟩, ⟨9166,
   1152794818071914624, 2863⟩] ++
  [⟨9546, 1152802800530715392, 2770⟩, ⟨9946, 1152809483843252992, 2789⟩, ⟨10284, 1152811705779944576, 3088⟩, ⟨10397,
   1152814841364114176, 299457⟩, ⟨10557, 1152817808841805952, 298450⟩, ⟨10709, 1152821968222331648, 9036045⟩,
   ⟨10923, 1152822917581978496, 9853310⟩, ⟨10972, 1152824271869354112, 43381616⟩, ⟨11042, 1152826202621766528,
   42475539⟩, ⟨11142, 1152828936365920768, 41194985⟩, ⟨11284, 1152831086042943616, 41688721⟩, ⟨11396,
   1152833344709392896, 41304362⟩, ⟨11514, 1152834700703403520, 42364222⟩, ⟨11585, 0, 328552173⟩, ⟨11686, 0,
   350205848⟩, ⟨11829, 0, 384243028⟩, ⟨12031, 0, 440269312⟩, ⟨12315, 0, 536870911⟩, ⟨12714, 0, 536870911⟩, ⟨13274,
   0, 536870911⟩, ⟨14060, 0, 536870911⟩, ⟨15162, 0, 536870911⟩, ⟨16384, 0, 0⟩]

/-- The cells of the 48 kHz class. -/
def sweepCells48 : List SweepCell :=
  [⟨-16383, 1151613298568133376, 33686⟩, ⟨-16313, 1151657286120204288, 30597⟩, ⟨-16213, 1151700172412386176, 27842⟩,
   ⟨-16071, 1151745494942264192, 25184⟩, ⟨-15871, 1151795343172528256, 22529⟩, ⟨-15589, 1151851063425286912, 19864⟩,
   ⟨-15193, 1151914050847687552, 17191⟩, ⟨-14637, 1151969070642232064, 15320⟩, ⟨-14052, 1152034338730913792, 13109⟩,
   ⟨-13231, 1152079114476494592, 12182⟩, ⟨-12584, 1152121610007058432, 11145⟩, ⟨-11904, 1152162323075531008, 10232⟩,
   ⟨-11190, 1152201656949514752, 9418⟩, ⟨-10440, 1152239953971676544, 8683⟩, ⟨-9651, 1152289333225388416, 7578⟩,
   ⟨-8545, 1152325313913768192, 7240⟩, ⟨-7674, 1152360815442837760, 6701⟩, ⟨-6759, 1152387352736995328, 6508⟩,
   ⟨-6038, 1152414046812314752, 6136⟩, ⟨-5280, 1152440920980424704, 5778⟩, ⟨-4483, 1152467961805003904, 5435⟩,
   ⟨-3646, 1152495187011828096, 5104⟩, ⟨-2767, 1152515881793720320, 5029⟩, ⟨-2074, 1152536980063029120, 4786⟩,
   ⟨-1345, 1152558462828379648, 4545⟩, ⟨-579, 1152580338240040576, 4306⟩, ⟨226, 1152602611563750144, 4069⟩, ⟨1072,
   1152619665179534464, 4055⟩, ⟨1738, 1152637161882559360, 3873⟩, ⟨2438, 1152655089176892288, 3690⟩, ⟨3173,
   1152668908297885952, 3700⟩, ⟨3752, 1152683169479614336, 3555⟩, ⟨4361, 1152697867828777344, 3407⟩, ⟨5001,
   1152713019814930560, 3252⟩, ⟨5674, 1152724764334490112, 3281⟩, ⟨6205, 1152736914170563328, 3157⟩, ⟨6763,
   1152746360857340800, 3194⟩, ⟨7203, 1152756178076310656, 3091⟩, ⟨7666, 1152766371910429056, 2983⟩, ⟨8153,
   1152776947389509632, 2868⟩] ++
  [⟨8665, 1152785172342338432, 2917⟩, ⟨9068, 1152793734261652224, 2820⟩, ⟨9492, 1152800414203366016, 2871⟩, ⟨9826,
   1152807374172711808, 2791⟩, ⟨10177, 1152811646870216192, 2936⟩, ⟨10394, 1152817613950168960, 1234148⟩, ⟨10699,
   1152821114779759104, 1302589⟩, ⟨10879, 1152823846481739520, 1320658⟩, ⟨11020, 1152827686154372352, 1265733⟩,
   ⟨11219, 1152829935142181248, 1318238⟩, ⟨11336, 1152832292726468864, 1305776⟩, ⟨11459, 1152834089832510336,
   1322821⟩, ⟨11553, 1152834700703403520, 1372388⟩, ⟨11585, 0, 328552173⟩, ⟨11631, 0, 338186120⟩, ⟨11697, 0,
   352677880⟩, ⟨11791, 0, 374782615⟩, ⟨11924, 0, 409329135⟩, ⟨12112, 0, 465796650⟩, ⟨12377, 0, 536870911⟩, ⟨12750,
   0, 536870911⟩, ⟨13274, 0, 536870911⟩, ⟨14009, 0, 536870911⟩, ⟨15040, 0, 536870911⟩, ⟨16384, 0, 0⟩]

/-- The cells of the 96 kHz class. -/
def sweepCells96 : List SweepCell :=
  [⟨-16383, 1151613298568133376, 33686⟩, ⟨-16313, 1151657286120204288, 30597⟩, ⟨-16213, 1151700172412386176, 27842⟩,
   ⟨-16071, 1151745494942264192, 25184⟩, ⟨-15871, 1151795343172528256, 22529⟩, ⟨-15589, 1151851063425286912, 19864⟩,
   ⟨-15193, 1151914050847687552, 17191⟩, ⟨-14637, 1151969070642232064, 15320⟩, ⟨-14052, 1152034338730913792, 13109⟩,
   ⟨-13231, 1152093063174690944, 11587⟩, ⟨-12368, 1152134306886604672, 10864⟩, ⟨-11688, 1152186559278454784, 9499⟩,
   ⟨-10735, 1152236103715267840, 8545⟩, ⟨-9733, 1152283542063198720, 7715⟩, ⟨-8680, 1152318226606745344, 7381⟩,
   ⟨-7850, 1152363556875160704, 6460⟩, ⟨-6686, 1152396960458203520, 6222⟩, ⟨-5769, 1152430168846580480, 5775⟩,
   ⟨-4806, 1152455149924078976, 5643⟩, ⟨-4047, 1152480399448196736, 5327⟩, ⟨-3249, 1152505928733008128, 5020⟩,
   ⟨-2410, 1152531745663566464, 4721⟩, ⟨-1528, 1152551413952422784, 4669⟩, ⟨-833, 1152571481173200128, 4448⟩, ⟨-103,
   1152591957924112768, 4227⟩, ⟨664, 1152612851802943872, 4007⟩, ⟨1470, 1152628891477585664, 3998⟩, ⟨2105,
   1152645387653936768, 3828⟩, ⟨2773, 1152662329493908864, 3655⟩, ⟨3475, 1152679728850956800, 3478⟩, ⟨4213,
   1152693168251124480, 3495⟩, ⟨4795, 1152707044924306816, 3355⟩, ⟨5407, 1152717797022233216, 3383⟩, ⟨5889,
   1152728944910287488, 3270⟩, ⟨6396, 1152744309621306496, 2956⟩, ⟨7107, 1152756199145735296, 2995⟩, ⟨7667,
   1152768510918109184, 2862⟩, ⟨8256, 1152778074984268416, 2909⟩, ⟨8720, 1152788009664028032, 2798⟩, ⟨9208,
   1152798320274444032, 2678⟩] ++
  [⟨9721, 1152806366662681472, 2732⟩, ⟨10126, 1152814743562790656, 2629⟩, ⟨10552, 1152821289421298304, 2687⟩,
   ⟨10888, 1152828128758492544, 2597⟩, ⟨11242, 1152833057940681216, 2695⟩, ⟨11499, 1152834700703403520, 2971⟩,
   ⟨11585, 1152837025428781184, 363721⟩, ⟨11707, 1152840291622365952, 349103⟩, ⟨11879, 1152844864940648576, 328296⟩,
   ⟨12121, 1152851247146523776, 298495⟩, ⟨12461, 1152857895177596672, 284277⟩, ⟨12818, 1152861226757404416, 322103⟩,
   ⟨12998, 1152865886722326784, 2955753⟩, ⟨13251, 1152869551882975360, 3041308⟩, ⟨13451, 1152872672711513472,
   3078361⟩, ⟨13622, 1152877051125747328, 22091179⟩, ⟨13863, 1152883170994964480, 18631095⟩, ⟨14202,
   1152887601732479104, 19881235⟩, ⟨14449, 1152892240284746368, 36588684⟩, ⟨14709, 1152894957864771840, 42118037⟩,
   ⟨14862, 1152897100807790976, 43619981⟩, ⟨14983, 1152897719642761728, 51787409⟩, ⟨15018, 1152897984717418496,
   54026728⟩, ⟨15033, 1152898196716584832, 54351105⟩, ⟨15045, 1152898426321643392, 54192983⟩, ⟨15058,
   1152898779437011712, 53281270⟩, ⟨15078, 1152899308830399744, 51961333⟩, ⟨15108, 1152899802628511616, 52079669⟩,
   ⟨15136, 0, 536870911⟩, ⟨15177, 0, 536870911⟩, ⟨15236, 0, 536870911⟩, ⟨15320, 0, 536870911⟩, ⟨15439, 0,
   536870911⟩, ⟨15607, 0, 536870911⟩, ⟨15844, 0, 536870911⟩, ⟨16177, 0, 536870911⟩, ⟨16384, 0, 0⟩]

/-- The cells of a class. -/
def Machine.RateClass.sweepCells : RateClass → List SweepCell
  | .k32 => sweepCells32
  | .k44 => sweepCells44
  | .k48 => sweepCells48
  | .k96 => sweepCells96

/-- Where the cells of a class's steps end, each with the greatest power of the step. -/
def Machine.RateClass.stepEnds : RateClass → List (Int × Int)
  | .k32 => [(11585, 19952623149), (11003, 1584893192), (10701, 1000000), (10394, 100)]
  | .k44 => [(11585, 19952623149), (10972, 1000000000), (10709, 1000000), (10397, 100)]
  | .k48 => [(11585, 19952623), (10394, 100)]
  | .k96 => [(15136, 39810717055), (14449, 10000000000), (13622, 158489319), (12998, 1584893), (11585, 100)]

/-- A −3 dB row's cell, and the filter's least and greatest response there. -/
structure SweepRow where
  start : Int
  low : Int
  high : Int

/-- The cells of a class's −3 dB rows. -/
def Machine.RateClass.rowCells : RateClass → List SweepRow
  | .k32 => [⟨11948, 219279353, 309887411⟩, ⟨11893, 0, 219566566⟩]
  | .k44 => [⟨11949, 219165356, 309726262⟩, ⟨11909, 0, 219315028⟩]
  | .k48 => [⟨12120, 217884597, 307907925⟩, ⟨12084, 0, 218019009⟩]
  | .k96 => [⟨15280, 196948617, 277760944⟩, ⟨15270, 0, 196309878⟩]

/-- Whether a bound on the filter's response on a cell keeps the sweep's power to a bound below a cosine. -/
def boundTest (start top cosine greatest : Int) : Bool :=
  decide (cosine < 1152921504606846976) && decide (top ^ 2 * 1000000000000 * (16383 - start) ^ 6 * 2 ^ 232
    ≤ greatest * 16383 ^ 6 * (1152921504606846976 - cosine) ^ 6)

/-- The test of a cell: the response's bound; the sweep's, to 100 dB, for the tones far from 0 Hz; and the sweep's, to
that of each step the cell lies in, for all. -/
noncomputable def sweepCellTest (amp : Int → Int → Int → Int → Bool) (steps : List (Int × Int)) (x y : SweepCell) : Bool :=
  and (amp x.start y.start (-x.top) x.top) (and (boundTest x.start x.top 1148828633265492669 100)
    (steps.all fun q => decide (q.1 ≤ x.start) ||
      (decide (y.start * 1152921504606846976 ≤ 16383 * doubledBelow 6 x.cosine)
        && boundTest x.start x.top x.cosine q.2)))

/-- The test of a row. -/
noncomputable def sweepRowTest (amp : Int → Int → Int → Int → Bool) (q : ToneRow × SweepRow) : Bool :=
  and (amp q.2.start (q.2.start + 1) q.2.low q.2.high)
    (decide (q.2.start * 1152921504606846976 ≤ 16383 * doubledBelow 6 q.1.cosine)
      && decide (16383 * doubledAbove 6 q.1.cosine q.1.cosine < (q.2.start + 1) * 1152921504606846976)
      && decide (q.2.start + 1 ≤ 16383) && decide (0 ≤ q.2.low) && boundTest q.2.start q.2.high q.1.cosine q.1.greatest
      && decide (q.1.least * 16383 ^ 6 * (1152921504606846976 - q.1.cosine) ^ 6
        ≤ q.2.low ^ 2 * 1000000000000 * (16383 - (q.2.start + 1)) ^ 6 * 2 ^ 232))

/-- The test of the response on a cell, with what all cells share worked out. -/
noncomputable def withAmplitude {α : Type} (c : RateClass) (k : (Int → Int → Int → Int → Bool) → α) : α :=
  forcePairs (halfPairs c).reverse fun l => force (c.someHalf.headD 0).toNat fun head => force sweepForm.at fun u =>
  force (u ^ 127) fun one => force (topBits sweepForm.bits 128) fun mask => k (amplitudeTest l head u one mask)

theorem withAmplitude_eq {α : Type} (c : RateClass) (k : (Int → Int → Int → Int → Bool) → α) : withAmplitude c k
    = k (amplitudeTest (halfPairs c).reverse (c.someHalf.headD 0).toNat sweepForm.at (sweepForm.at ^ 127)
      (topBits sweepForm.bits 128)) := by
  simp only [withAmplitude, force_eq, forcePairs_eq]

/-- The test of sixteen of a class's cells. The kernel keeps what it has worked out until a theorem is done, so each takes
a part. -/
noncomputable def imageTest (c : RateClass) (part : Nat) : Bool :=
  withAmplitude c fun amp => neighbours (sweepCellTest amp c.stepEnds) ((c.sweepCells.drop (16 * part)).take 17)

/-- The test of a class's −3 dB rows. -/
noncomputable def pointTest (c : RateClass) : Bool :=
  withAmplitude c fun amp => allOf (sweepRowTest amp) (c.sweepRows.zip c.rowCells)

set_option Elab.async false

set_option maxRecDepth 20000 in
theorem imageTest_k32_0 : imageTest .k32 0 = true := by decide +kernel

set_option maxRecDepth 20000 in
theorem imageTest_k32_1 : imageTest .k32 1 = true := by decide +kernel

set_option maxRecDepth 20000 in
theorem imageTest_k32_2 : imageTest .k32 2 = true := by decide +kernel

set_option maxRecDepth 20000 in
theorem imageTest_k32_3 : imageTest .k32 3 = true := by decide +kernel

set_option maxRecDepth 20000 in
theorem imageTest_k32_4 : imageTest .k32 4 = true := by decide +kernel

set_option maxRecDepth 20000 in
theorem imageTest_k44_0 : imageTest .k44 0 = true := by decide +kernel

set_option maxRecDepth 20000 in
theorem imageTest_k44_1 : imageTest .k44 1 = true := by decide +kernel

set_option maxRecDepth 20000 in
theorem imageTest_k44_2 : imageTest .k44 2 = true := by decide +kernel

set_option maxRecDepth 20000 in
theorem imageTest_k44_3 : imageTest .k44 3 = true := by decide +kernel

set_option maxRecDepth 20000 in
theorem imageTest_k48_0 : imageTest .k48 0 = true := by decide +kernel

set_option maxRecDepth 20000 in
theorem imageTest_k48_1 : imageTest .k48 1 = true := by decide +kernel

set_option maxRecDepth 20000 in
theorem imageTest_k48_2 : imageTest .k48 2 = true := by decide +kernel

set_option maxRecDepth 20000 in
theorem imageTest_k48_3 : imageTest .k48 3 = true := by decide +kernel

set_option maxRecDepth 20000 in
theorem imageTest_k96_0 : imageTest .k96 0 = true := by decide +kernel

set_option maxRecDepth 20000 in
theorem imageTest_k96_1 : imageTest .k96 1 = true := by decide +kernel

set_option maxRecDepth 20000 in
theorem imageTest_k96_2 : imageTest .k96 2 = true := by decide +kernel

set_option maxRecDepth 20000 in
theorem imageTest_k96_3 : imageTest .k96 3 = true := by decide +kernel

set_option maxRecDepth 20000 in
theorem imageTest_k96_4 : imageTest .k96 4 = true := by decide +kernel

set_option maxRecDepth 20000 in
theorem pointTest_k32 : pointTest .k32 = true := by decide +kernel

set_option maxRecDepth 20000 in
theorem pointTest_k44 : pointTest .k44 = true := by decide +kernel

set_option maxRecDepth 20000 in
theorem pointTest_k48 : pointTest .k48 = true := by decide +kernel

set_option maxRecDepth 20000 in
theorem pointTest_k96 : pointTest .k96 = true := by decide +kernel

/-- How many parts there are. -/
def Machine.RateClass.imageParts : RateClass → Nat
  | .k32 => 5
  | .k44 => 4
  | .k48 => 4
  | .k96 => 5

theorem imageTest_all (c : RateClass) : ∀ j < c.imageParts, imageTest c j = true := by
  intro j hj
  cases c <;> simp only [RateClass.imageParts] at hj <;> interval_cases j
  · exact imageTest_k32_0
  · exact imageTest_k32_1
  · exact imageTest_k32_2
  · exact imageTest_k32_3
  · exact imageTest_k32_4
  · exact imageTest_k44_0
  · exact imageTest_k44_1
  · exact imageTest_k44_2
  · exact imageTest_k44_3
  · exact imageTest_k48_0
  · exact imageTest_k48_1
  · exact imageTest_k48_2
  · exact imageTest_k48_3
  · exact imageTest_k96_0
  · exact imageTest_k96_1
  · exact imageTest_k96_2
  · exact imageTest_k96_3
  · exact imageTest_k96_4

theorem pointTest_all (c : RateClass) : pointTest c = true := by
  cases c
  · exact pointTest_k32
  · exact pointTest_k44
  · exact pointTest_k48
  · exact pointTest_k96

/-! ## What the tests show -/

/-- What `boundTest` gives, of a response within the bound. -/
theorem power_le_of_boundTest {c : RateClass} {start top cosine greatest : Int} (h : boundTest start top cosine greatest = true)
    {t : ℝ} (hA : -(top : ℝ) ≤ amplitude c (64 * t) ∧ amplitude c (64 * t) ≤ top)
    (ha : (start : ℝ) ≤ 16383 * Real.cos (64 * t)) (hk : 1152921504606846976 * Real.cos t ≤ cosine) :
    gain t (someInterpolator c).sweep * 1000000000000 ≤ greatest * 4 ^ 64 := by
  simp only [boundTest, Bool.and_eq_true, decide_eq_true_eq] at h
  exact power_le (sq_le_sq' hA.1 hA.2) ha hk h.1 h.2

/-- The cell in which a tone lies. -/
theorem cell_of (c : RateClass) (t : ℝ) : ∃ x y : SweepCell,
    (-(x.top : ℝ) ≤ amplitude c (64 * t) ∧ amplitude c (64 * t) ≤ x.top)
      ∧ boundTest x.start x.top 1148828633265492669 100 = true
      ∧ (∀ q ∈ c.stepEnds, q.1 ≤ x.start ∨ y.start * 1152921504606846976 ≤ 16383 * doubledBelow 6 x.cosine
        ∧ boundTest x.start x.top x.cosine q.2 = true)
      ∧ (x.start : ℝ) ≤ 16383 * Real.cos (64 * t) ∧ 16383 * Real.cos (64 * t) < y.start := by
  have h := imageTest_all c
  simp only [imageTest, withAmplitude_eq] at h
  have h := neighbours_parts 16 c.imageParts (by cases c <;> decide) h
  have form : c.sweepCells = c.sweepCells.headD ⟨0, 0, 0⟩ :: c.sweepCells.tail.dropLast ++ [c.sweepCells.getLastD ⟨0, 0, 0⟩]
      ∧ (c.sweepCells.headD ⟨0, 0, 0⟩).start = -16383 ∧ (c.sweepCells.getLastD ⟨0, 0, 0⟩).start = 16384 := by
    cases c <;> exact ⟨rfl, rfl, rfl⟩
  obtain ⟨e, h0, h1⟩ := form
  rw [e] at h
  obtain ⟨x, y, hxy, hx, hy⟩ := neighbours_at (key := SweepCell.start) h
    (c := 16383 * Real.cos (64 * t)) (by rw [h0]; push_cast; linarith [Real.neg_one_le_cos (64 * t)])
    (by rw [h1]; push_cast; linarith [Real.cos_le_one (64 * t)])
  simp only [sweepCellTest, Bool.and_eq_true, List.all_eq_true, Bool.or_eq_true, decide_eq_true_eq] at hxy
  obtain ⟨ha, hf, hs⟩ := hxy
  have ha := amplitude_of_test ha hx hy
  push_cast at ha
  exact ⟨x, y, ha, hf, hs, hx, hy⟩

/-- A tone far from 0 Hz is attenuated by 100 dB. -/
theorem power_far {c : RateClass} {t : ℝ} (h : 1152921504606846976 * Real.cos t ≤ 1148828633265492669) :
    gain t (someInterpolator c).sweep * 1000000000000 ≤ 100 * 4 ^ 64 := by
  obtain ⟨x, y, hA, hf, -, hx, -⟩ := cell_of c t
  have := power_le_of_boundTest hf hA hx (by push_cast; exact h)
  push_cast at this
  exact this

/-- A tone whose cosine at the filter's rate lies below a step's end is attenuated as the step asks. -/
theorem power_step {c : RateClass} {q : Int × Int} (hq : q ∈ c.stepEnds) {t : ℝ} (h : 16383 * Real.cos (64 * t) < q.1) :
    gain t (someInterpolator c).sweep * 1000000000000 ≤ q.2 * 4 ^ 64 := by
  obtain ⟨x, y, hA, -, hs, hx, hy⟩ := cell_of c t
  rcases hs q hq with h1 | ⟨h1, h2⟩
  · have h1 : (q.1 : ℝ) ≤ x.start := by exact_mod_cast h1
    linarith
  · refine power_le_of_boundTest h2 hA hx ?_
    by_contra hn
    have hd := doubledBelow_le 6 (k := x.cosine) (t := t) (by linarith)
    have h1 : (y.start : ℝ) * 1152921504606846976 ≤ 16383 * doubledBelow 6 x.cosine := by exact_mod_cast h1
    rw [show (2 : ℝ) ^ 6 * t = 64 * t by norm_num] at hd
    linarith

/-- The −3 dB rows. -/
theorem sweep_rows (c : RateClass) : ∀ r ∈ c.sweepRows, r.keptBy 64 (someInterpolator c).sweep = true := by
  intro r hr
  obtain ⟨y, hy⟩ : ∃ y, (r, y) ∈ c.sweepRows.zip c.rowCells := by
    have hl : c.sweepRows.length = c.rowCells.length := by cases c <;> rfl
    obtain ⟨i, hi, rfl⟩ := List.getElem_of_mem hr
    exact ⟨c.rowCells[i]'(hl ▸ hi), List.mem_iff_getElem.mpr ⟨i, by simp [hl ▸ hi, hi], by simp⟩⟩
  have h := pointTest_all c
  simp only [pointTest, withAmplitude_eq] at h
  have h := allOf_of h hy
  simp only [sweepRowTest, Bool.and_eq_true, decide_eq_true_eq] at h
  obtain ⟨ha, ⟨⟨⟨⟨h0, h1⟩, h2⟩, h3⟩, h4⟩, h5⟩ := h
  have hk : ∀ r ∈ c.sweepRows, -1152921504606846976 ≤ r.cosine ∧ r.cosine < 1152921504606846976 := by
    cases c <;> decide
  have hk := hk r hr
  obtain ⟨t, -, -, ht⟩ := exists_angle hk.1 hk.2.le
  have d0 := doubledBelow_le 6 (k := r.cosine) (t := t) ht.le
  have d1 := le_doubledAbove 6 (l := r.cosine) (h := r.cosine) (t := t) ht.le ht.ge
  rw [show (2 : ℝ) ^ 6 * t = 64 * t by norm_num] at d0 d1
  have h0 : (y.start : ℝ) * 1152921504606846976 ≤ 16383 * doubledBelow 6 r.cosine := by exact_mod_cast h0
  have h1 : 16383 * (doubledAbove 6 r.cosine r.cosine : ℝ) < (y.start + 1) * 1152921504606846976 := by exact_mod_cast h1
  have hx : (y.start : ℝ) ≤ 16383 * Real.cos (64 * t) := by linarith
  have hy : 16383 * Real.cos (64 * t) < (y.start + 1 : Int) := by push_cast; linarith
  have hA := amplitude_of_test ha hx hy
  have hl : (0 : ℝ) ≤ y.low := by exact_mod_cast h3
  rw [keptBy_iff_within ht]
  exact ⟨le_power (pow_le_pow_left₀ hl hA.1 2) hy.le h2 ht.le hk.2 h5,
    power_le_of_boundTest h4 ⟨by linarith, hA.2⟩ hx ht.ge⟩

/-! ## The steps of the stopband -/

/-- The cosine of 0.0843, and of 0.013874. -/
theorem cos_far : Real.cos (843 / 10000) * 1152921504606846976 ≤ 1148828633265492669 := by
  have h := abs_le.mp (Real.cos_bound (x := 843 / 10000) (by norm_num [abs_le]))
  norm_num [abs_of_pos] at h
  linarith [h.2]

theorem cos_near : Real.cos (13874 / 1000000) * 1152921504606846976 ≤ 1152811632435902274 := by
  have h := abs_le.mp (Real.cos_bound (x := 13874 / 1000000) (by norm_num [abs_le]))
  norm_num [abs_of_pos] at h
  linarith [h.2]

/-- From a frequency on, a sweep is attenuated as a step asks: near it the filter's cosine falls below the step's end, and
does not come back before 100 dB are kept at every tone. -/
theorem power_from {c : RateClass} {q : Int × Int} (hq : q ∈ c.stepEnds) (hg : 100 ≤ q.2) {k : Int}
    (hk0 : 1152811632435902274 ≤ k) (hk1 : k ≤ 1152921504606846976)
    (hk : 16383 * doubledAbove 6 k k < q.1 * 1152921504606846976) {t : ℝ} (ht : 1152921504606846976 * Real.cos t ≤ k) :
    gain t (someInterpolator c).sweep * 1000000000000 ≤ q.2 * 4 ^ 64 := by
  have g : (100 : ℝ) ≤ q.2 := by exact_mod_cast hg
  obtain ⟨a, a0, a1, e⟩ : ∃ a : ℝ, 0 ≤ a ∧ a ≤ Real.pi ∧ Real.cos a = Real.cos t :=
    ⟨Real.arccos (Real.cos t), Real.arccos_nonneg _, Real.arccos_le_pi _,
      Real.cos_arccos (Real.neg_one_le_cos _) (Real.cos_le_one _)⟩
  rw [← gain_congr e]
  rw [← e] at ht
  rcases le_or_gt (1152921504606846976 * Real.cos a) 1148828633265492669 with hf | hn
  · have := power_far (c := c) hf
    have p : (0 : ℝ) ≤ 4 ^ 64 := by positivity
    nlinarith
  · have p := Real.pi_gt_d6
    have small : a < 843 / 10000 := by
      by_contra h
      have := Real.cos_le_cos_of_nonneg_of_le_pi (by norm_num) a1 (not_lt.mp h)
      linarith [cos_far]
    obtain ⟨b, b0, b1, hb⟩ := exists_angle (c := k) (by omega) hk1
    have hb1 : b ≤ 13874 / 1000000 := by
      by_contra h
      have := Real.strictAntiOn_cos ⟨by norm_num, by linarith⟩ ⟨b0, b1⟩ (not_le.mp h)
      have hk0 : (1152811632435902274 : ℝ) ≤ k := by exact_mod_cast hk0
      linarith [cos_near]
    have hab : b ≤ a := by
      by_contra h
      have := Real.strictAntiOn_cos ⟨a0, a1⟩ ⟨b0, b1⟩ (not_le.mp h)
      linarith
    have mono : Real.cos (64 * a) ≤ Real.cos (64 * b) := by
      rcases le_or_gt (64 * a) Real.pi with h | h
      · exact Real.cos_le_cos_of_nonneg_of_le_pi (by linarith) h (by linarith)
      · rw [← Real.cos_two_pi_sub (64 * a)]
        exact Real.cos_le_cos_of_nonneg_of_le_pi (by linarith) (by linarith) (by linarith)
    have d := le_doubledAbove 6 (l := k) (h := k) (t := b) hb.le hb.ge
    rw [show (2 : ℝ) ^ 6 * b = 64 * b by norm_num] at d
    have hk : 16383 * (doubledAbove 6 k k : ℝ) < q.1 * 1152921504606846976 := by exact_mod_cast hk
    exact power_step hq (by linarith)

/-- The steps of the stopband. -/
theorem sweep_steps (c : RateClass) : ∀ r ∈ c.sweepSteps, keepsOn 64 (someInterpolator c).sweep r = true := by
  intro r hr
  have h : ∃ q ∈ c.stepEnds, q.2 = r.greatest ∧ 100 ≤ q.2 ∧ 1152811632435902274 ≤ r.cosine
      ∧ r.cosine ≤ 1152921504606846976 ∧ r.least = 0
      ∧ 16383 * doubledAbove 6 r.cosine r.cosine < q.1 * 1152921504606846976 := by
    revert r; cases c <;> decide
  obtain ⟨q, hq, e, hg, hk0, hk1, hl, hk⟩ := h
  simp only [keepsOn, decide_eq_true_eq]
  intro n hn
  obtain ⟨t, ht, -, h1⟩ := mem_band (k := r.cosine) (by omega) hk1 hn
  rw [keptBy_iff_within ht]
  refine ⟨?_, ?_⟩
  · simp only [hl]
    simpa using gain_nonneg t _
  · simp only [← e]
    exact power_from hq hg hk0 hk1 hk h1

/-! ## The passband -/

/-- The cosine of a turn of the lane's rate. -/
theorem cos_turn : Real.cos (Real.pi / 128) * 1152921504606846976 ≤ 1152811632435902274 := by
  have p := Real.pi_gt_d6
  have := Real.cos_le_cos_of_nonneg_of_le_pi (x := 13874 / 1000000) (y := Real.pi / 128) (by norm_num) (by linarith) (by linarith)
  linarith [cos_near]

/-- Which step the image nearest the passband lies in, and its end. -/
def Machine.RateClass.imageStep : RateClass → Int × Int
  | .k32 => (10701, 1000000)
  | .k44 => (10709, 1000000)
  | .k48 => (10394, 100)
  | .k96 => (11585, 100)

/-- The images of a tone of the passband together lie below −59 dB. -/
theorem power_images {c : RateClass} {a : ℝ} (a0 : 0 ≤ a) (ha : (c.sweepPassbandEnd : ℝ) ≤ 1152921504606846976 * Real.cos a)
    (a1 : a ≤ Real.pi) :
    (∑ m ∈ Finset.range 255, gain (image a (m + 1)) (someInterpolator c).sweep) * 1000000000000 ≤ 1025400 * 4 ^ 64 := by
  have p := Real.pi_gt_d6
  have form : 0 ≤ doubledBelow 6 c.sweepPassbandEnd ∧ 1152811632435902274 < c.sweepPassbandEnd
      ∧ 16383 ^ 2 * (1152921504606846976 ^ 2 - doubledBelow 6 c.sweepPassbandEnd ^ 2)
        < c.imageStep.1 ^ 2 * 1152921504606846976 ^ 2 ∧ 0 ≤ c.imageStep.1 ∧ c.imageStep.2 ≤ 1000000
      ∧ c.imageStep ∈ c.stepEnds := by cases c <;> decide
  obtain ⟨f0, f1, f2, f3, f4, f5⟩ := form
  have turn : a < Real.pi / 128 := by
    by_contra h
    have := Real.cos_le_cos_of_nonneg_of_le_pi (by linarith) a1 (not_lt.mp h)
    have f1 : (1152811632435902274 : ℝ) < c.sweepPassbandEnd := by exact_mod_cast f1
    linarith [cos_turn]
  have far : ∀ m ∈ Finset.range 254, gain (image a (m + 1)) (someInterpolator c).sweep * 1000000000000 ≤ 100 * 4 ^ 64 := by
    intro m hm
    have hm := Finset.mem_range.mp hm
    have m0 : (0 : ℝ) ≤ m := Nat.cast_nonneg m
    have m1 : (m : ℝ) ≤ 253 := by exact_mod_cast Nat.le_of_lt_succ hm
    have i0 : Real.pi / 128 ≤ image a (m + 1) := by unfold image; push_cast; nlinarith
    have i1 : image a (m + 1) ≤ 2 * Real.pi - Real.pi / 128 := by unfold image; push_cast; nlinarith
    have hc : Real.cos (image a (m + 1)) ≤ Real.cos (Real.pi / 128) := by
      rcases le_or_gt (image a (m + 1)) Real.pi with h | h
      · exact Real.cos_le_cos_of_nonneg_of_le_pi (by linarith) h i0
      · rw [← Real.cos_two_pi_sub (image a (m + 1))]
        exact Real.cos_le_cos_of_nonneg_of_le_pi (by linarith) (by linarith) (by linarith)
    have h100 : ∃ q ∈ c.stepEnds, q.2 = 100
        ∧ 16383 * doubledAbove 6 1152811632435902274 1152811632435902274 < q.1 * 1152921504606846976 := by
      cases c <;> decide
    obtain ⟨q, hq, q2, q1⟩ := h100
    have := power_from hq q2.ge le_rfl (by norm_num) q1 (t := image a (m + 1)) (by push_cast; linarith [cos_turn])
    rw [q2] at this
    push_cast at this
    exact this
  have near : gain (image a 255) (someInterpolator c).sweep * 1000000000000 ≤ 1000000 * 4 ^ 64 := by
    have hc : Real.cos (64 * image a 255) = Real.sin (64 * a) := by
      rw [show 64 * image a 255 = 64 * a - Real.pi / 2 + (64 : Nat) * (2 * Real.pi) by unfold image; push_cast; ring,
        Real.cos_add_nat_mul_two_pi, Real.cos_sub_pi_div_two]
    have d := doubledBelow_le 6 (k := c.sweepPassbandEnd) (t := a) ha
    rw [show (2 : ℝ) ^ 6 * a = 64 * a by norm_num] at d
    have f0 : (0 : ℝ) ≤ doubledBelow 6 c.sweepPassbandEnd := by exact_mod_cast f0
    have f2 : 16383 ^ 2 * (1152921504606846976 ^ 2 - (doubledBelow 6 c.sweepPassbandEnd : ℝ) ^ 2)
        < c.imageStep.1 ^ 2 * 1152921504606846976 ^ 2 := by exact_mod_cast f2
    have f3 : (0 : ℝ) ≤ c.imageStep.1 := by exact_mod_cast f3
    have sq := pow_le_pow_left₀ f0 d 2
    have s := Real.sin_sq_add_cos_sq (64 * a)
    have lt : 16383 * Real.sin (64 * a) < c.imageStep.1 := by
      refine lt_of_pow_lt_pow_left₀ 2 f3 ?_
      nlinarith
    have := power_step (c := c) f5 (t := image a 255) (by rw [hc]; exact lt)
    have f4 : (c.imageStep.2 : ℝ) ≤ 1000000 := by exact_mod_cast f4
    have p : (0 : ℝ) ≤ 4 ^ 64 := by positivity
    nlinarith
  rw [Finset.sum_range_succ, add_mul, Finset.sum_mul]
  have s := Finset.sum_le_sum far
  rw [Finset.sum_const, Finset.card_range, nsmul_eq_mul] at s
  push_cast at s
  linarith

/-- R38: a sweep keeps the passband. -/
theorem sweep_passband {c : RateClass} {a : ℝ} (a0 : 0 ≤ a) (a1 : a ≤ Real.pi)
    (ha : (c.sweepPassbandEnd : ℝ) ≤ 1152921504606846976 * Real.cos a) :
    Within 64 997700063822 1002305238078 a (someInterpolator c).sweep := by
  have i := power_images a0 ha a1
  have e := sum_images c a
  rw [Finset.sum_range_succ', show image a 0 = a by simp [image]] at e
  have form : c.passCells.headD 0 * 1152921504606846976 ≤ 16383 * doubledBelow 8 c.sweepPassbandEnd := by
    cases c <;> decide
  have form : (c.passCells.headD 0 : ℝ) * 1152921504606846976 ≤ 16383 * doubledBelow 8 c.sweepPassbandEnd := by
    exact_mod_cast form
  have d := doubledBelow_le 8 (k := c.sweepPassbandEnd) (t := a) ha
  rw [show (2 : ℝ) ^ 8 * a = 256 * a by norm_num] at d
  have w : ∀ p ∈ Finset.range 256, Within 56 ((997702000000 : Nat) : Int) ((1002305238078 : Nat) : Int) (256 * a)
      (spread c.someFilter p) := fun p hp => phase_passband c (Finset.mem_range.mp hp) (by linarith)
  have lo := Finset.sum_le_sum fun p hp => (w p hp).1
  have hi := Finset.sum_le_sum fun p hp => (w p hp).2
  rw [Finset.sum_const, Finset.card_range, ← Finset.sum_mul, nsmul_eq_mul] at lo hi
  push_cast at lo hi
  have rest : 0 ≤ ∑ m ∈ Finset.range 255, gain (image a (m + 1)) (someInterpolator c).sweep :=
    Finset.sum_nonneg fun m _ => gain_nonneg _ _
  have p : (4 : ℝ) ^ 64 = 65536 * 4 ^ 56 := by norm_num
  have q : (0 : ℝ) < 4 ^ 56 := by positivity
  constructor
  · push_cast
    rw [p] at i ⊢
    linarith
  · push_cast
    rw [p]
    linarith

/-- R38: the sweep of the stand-in meets the response of its class. -/
theorem sweep_meets (c : RateClass) : (someInterpolator c).sweepMeets c = true := by
  have hb : (someInterpolator c).bits + 8 = 64 := rfl
  have hk : -1152921504606846976 ≤ c.sweepPassbandEnd ∧ c.sweepPassbandEnd ≤ 1152921504606846976 := by cases c <;> decide
  simp only [Interpolator.sweepMeets, hb, Bool.and_eq_true, decide_eq_true_eq, List.all_eq_true]
  refine ⟨⟨fun n hn => ?_, sweep_rows c⟩, sweep_steps c⟩
  obtain ⟨t, t0, t1, ht⟩ := exists_angle (c := 1152921504606846976 - n) (by omega) (by omega)
  rw [keptBy_iff_within ht]
  refine sweep_passband t0 t1 ?_
  have : c.sweepPassbandEnd ≤ 1152921504606846976 - n := by omega
  rw [← ht]
  exact_mod_cast this

end Sys2Proof
end

