-- ==== Sys2Proof/Laws/Interpolator.lean ====
section
/-! SUPPORT. What the coefficient sets do: the stand-in meets R38's response in every class, phase by phase and swept, so
the part's set does, and of silence a set gives silence. -/

namespace Sys2Proof

open Machine

/-- The set that stands in for one off the response meets it. -/
theorem someInterpolator_meets (c : RateClass) : (someInterpolator c).meets c = true := by
  have hp : ∀ p < 256, phaseMeets c (someInterpolator c).bits p ((someInterpolator c).phases.getD p []) = true := fun p hp => by
    have e : (someInterpolator c).phases.getD p [] = spread c.someFilter p := by
      rw [someInterpolator_eq]; simp [hp]
    rw [e]
    exact phase_meets c hp
  simp only [Interpolator.meets, Bool.and_eq_true, decide_eq_true_eq, List.all_eq_true, List.mem_range]
  exact ⟨⟨by simp [someInterpolator], hp⟩, sweep_meets c⟩

/-- R38: the part's set meets the response of its class. -/
theorem interpolator_meets (c : RateClass) : (interpolator c).meets c = true := by
  unfold interpolator
  split
  · assumption
  · exact someInterpolator_meets c

/-- Of silence every coefficient set gives silence. -/
theorem Interpolator.sample_silence (i : Interpolator) (phase : Nat) (frames : List Sample)
    (h : frames.all (· == 0) = true) : i.sample phase frames = 0 := by
  have z : ∀ (k : List Int) (l : List Sample), l.all (· == 0) = true →
      (List.zipWith (fun k x => k * x.toInt) k l).sum = 0 := by
    intro k l hl
    induction k generalizing l with
    | nil => simp
    | cons a k ih =>
      cases l with
      | nil => simp
      | cons x l =>
        simp only [List.all_cons, Bool.and_eq_true, beq_iff_eq] at hl
        simp [hl.1, ih l hl.2]
  unfold Interpolator.sample roundDiv holdSample clampInt
  rw [z _ _ h]
  have : (2 * 0 + ((2 ^ i.bits : Nat) : Int)) / (2 * ((2 ^ i.bits : Nat) : Int)) = 0 :=
    Int.ediv_eq_zero_of_lt (by positivity) (by have : (0 : Int) < ((2 ^ i.bits : Nat) : Int) := by positivity
                                               omega)
  rw [this]; rfl

/-- R38: a lane's interpolated sample is its coefficient set's sample of the window, of silence too. -/
theorem Machine.Lane.interpolated_eq (l : Lane) (slot : Nat) :
    l.interpolated slot = (interpolator l.loopClass).sample (l.fillQ / 2 ^ 16 % 256) (l.window slot) := by
  unfold Lane.interpolated
  simp only
  split
  · next h => exact (Interpolator.sample_silence _ _ _ h).symm
  · rfl

end Sys2Proof
end

