-- ==== Sys2Proof/Laws/Memory.lean ====
section
/-! SUPPORT. The delay memory's bytes: a byte written reads back, every other byte is left alone, and every operation
keeps the canonical form. -/

namespace Sys2Proof.Machine

/-! ## Canonical form -/

theorem Dram.wfFrom_mono {low low' : Nat} {m : Dram} (h : low' ≤ low) (w : Dram.wfFrom low m = true) :
    Dram.wfFrom low' m = true := by
  cases m with
  | nil => rfl
  | cons c rest =>
    obtain ⟨a, v⟩ := c
    simp only [Dram.wfFrom, Bool.and_eq_true, decide_eq_true_eq] at w ⊢
    exact ⟨⟨by omega, w.1.2⟩, w.2⟩

theorem Dram.wfFrom_write {m : Dram} {low a : Nat} {v : Byte} (h : low ≤ a) (w : Dram.wfFrom low m = true) :
    Dram.wfFrom low (Dram.write m a v) = true := by
  induction m generalizing low with
  | nil =>
    unfold Dram.write
    split
    · rfl
    · simp [Dram.wfFrom, *]
  | cons c rest ih =>
    obtain ⟨b, x⟩ := c
    simp only [Dram.wfFrom, Bool.and_eq_true, decide_eq_true_eq] at w
    obtain ⟨⟨w1, w2⟩, w3⟩ := w
    unfold Dram.write
    split
    · split
      · simp [Dram.wfFrom, w1, w2, w3]
      · rename_i hlt hne
        simp [Dram.wfFrom, h, hne, w2, w3]
        omega
    · split
      · split
        · exact Dram.wfFrom_mono (by omega) w3
        · rename_i heq hne
          subst heq
          simp [Dram.wfFrom, w1, hne, w3]
      · simp only [Dram.wfFrom, Bool.and_eq_true, decide_eq_true_eq]
        exact ⟨⟨w1, w2⟩, ih (by omega) w3⟩

/-- A byte write keeps the canonical form. -/
theorem Dram.wf_write {m : Dram} (a : Nat) (v : Byte) (w : Dram.wf m = true) : Dram.wf (Dram.write m a v) = true :=
  Dram.wfFrom_write (Nat.zero_le a) w

/-- A run of byte writes keeps the canonical form. -/
theorem Dram.wf_writeAll {m : Dram} (a : Nat) (l : List Byte) (w : Dram.wf m = true) :
    Dram.wf (Dram.writeAll m a l) = true := by
  induction l generalizing m a with
  | nil => exact w
  | cons v rest ih => exact ih (a + 1) (Dram.wf_write a v w)

/-- A group write keeps the canonical form. -/
theorem Dram.wf_writeGroup {m : Dram} (page group : Nat) (samples : List Sample) (w : Dram.wf m = true) :
    Dram.wf (writeGroup m page group samples) = true :=
  Dram.wf_writeAll _ _ w

theorem Dram.wfFrom_filter {m : Dram} {low : Nat} (f : Host.Cell → Bool) (w : Dram.wfFrom low m = true) :
    Dram.wfFrom low (m.filter f) = true := by
  induction m generalizing low with
  | nil => rfl
  | cons c rest ih =>
    obtain ⟨b, x⟩ := c
    simp only [Dram.wfFrom, Bool.and_eq_true, decide_eq_true_eq] at w
    obtain ⟨⟨w1, w2⟩, w3⟩ := w
    rw [List.filter_cons]
    split
    · simp only [Dram.wfFrom, Bool.and_eq_true, decide_eq_true_eq]
      exact ⟨⟨w1, w2⟩, ih w3⟩
    · exact Dram.wfFrom_mono (by omega) (ih w3)

/-- Clearing a range keeps the canonical form. -/
theorem Dram.wf_clear {m : Dram} (base len : Nat) (w : Dram.wf m = true) : Dram.wf (Dram.clear m base len) = true :=
  Dram.wfFrom_filter _ w

/-- A page left part-written keeps the canonical form. -/
theorem Dram.wf_partFill {m : Dram} (now : Time) (p : Fin 16) (pool : Pool) (w : Dram.wf m = true) :
    Dram.wf (pool.partFill now p m) = true := by
  unfold Pool.partFill
  split
  · exact w
  · split
    · exact Dram.wf_clear _ _ w
    · exact w

theorem Dram.wfFrom_append {m k : Dram} {low mid : Nat} (w : Dram.wfFrom low m = true)
    (hm : ∀ c ∈ m, c.1 < mid) (hl : low ≤ mid) (wk : Dram.wfFrom mid k = true) : Dram.wfFrom low (m ++ k) = true := by
  induction m generalizing low with
  | nil => exact Dram.wfFrom_mono hl wk
  | cons c rest ih =>
    obtain ⟨b, x⟩ := c
    simp only [Dram.wfFrom, Bool.and_eq_true, decide_eq_true_eq, List.cons_append] at w ⊢
    have hb : b < mid := hm (b, x) (by simp)
    exact ⟨w.1, ih w.2 (fun c hc => hm c (by simp [hc])) (by omega)⟩

theorem Dram.wfFrom_above {m : Dram} {low mid : Nat} (w : Dram.wfFrom low m = true) (h : ∀ c ∈ m, mid ≤ c.1) :
    Dram.wfFrom mid m = true := by
  cases m with
  | nil => rfl
  | cons c rest =>
    obtain ⟨b, x⟩ := c
    simp only [Dram.wfFrom, Bool.and_eq_true, decide_eq_true_eq] at w ⊢
    exact ⟨⟨h (b, x) (by simp), w.1.2⟩, w.2⟩

theorem Dram.wfFrom_run (base start len : Nat) (v : Byte) :
    Dram.wfFrom (base + start)
      ((List.range' start len).filterMap fun i =>
        if v = Dram.blank (base + i) then none else some (base + i, v)) = true := by
  induction len generalizing start with
  | zero => rfl
  | succ n ih =>
    rw [List.range'_succ, List.filterMap_cons]
    split
    · exact Dram.wfFrom_mono (by omega) (ih (start + 1))
    · rename_i b hb
      split at hb
      · cases hb
      · rename_i hne
        cases hb
        simp only [Dram.wfFrom, Bool.and_eq_true, decide_eq_true_eq]
        exact ⟨⟨le_refl _, hne⟩, by simpa [Nat.add_assoc] using ih (start + 1)⟩

/-- Writing one value over a range keeps the canonical form. -/
theorem Dram.wf_fillRange {m : Dram} (base len : Nat) (v : Byte) (w : Dram.wf m = true) :
    Dram.wf (Dram.fillRange m base len v) = true := by
  have hi : Dram.wfFrom (base + len) (m.filter fun c => decide (base + len ≤ c.1)) = true :=
    Dram.wfFrom_above (Dram.wfFrom_filter _ w) fun c hc => by simpa using (List.mem_filter.mp hc).2
  have mid : Dram.wfFrom base ((List.range len).filterMap fun i =>
      if v = Dram.blank (base + i) then none else some (base + i, v)) = true := by
    have := Dram.wfFrom_run base 0 len v
    rwa [Nat.add_zero, ← List.range_eq_range'] at this
  have low : Dram.wfFrom 0 (m.filter fun c => decide (c.1 < base)) = true := Dram.wfFrom_filter _ w
  unfold Dram.fillRange Dram.wf
  rw [List.append_assoc]
  refine Dram.wfFrom_append (mid := base) low (fun c hc => by simpa using (List.mem_filter.mp hc).2) (Nat.zero_le _) ?_
  refine Dram.wfFrom_append (mid := base + len) mid (fun c hc => ?_) (by omega) hi
  obtain ⟨i, hi, hc⟩ := List.mem_filterMap.mp hc
  split at hc
  · cases hc
  · cases hc
    have := List.mem_range.mp hi
    simp only
    omega

/-- Reset's delay memory has the canonical form. -/
theorem Dram.wf_reset : Dram.wf State.reset.dram = true := rfl

/-! ## Read after write -/

theorem Dram.read_of_wfFrom {m : Dram} {low a : Nat} (w : Dram.wfFrom low m = true) (h : a < low) :
    Dram.read m a = Dram.blank a := by
  induction m generalizing low with
  | nil => rfl
  | cons c rest ih =>
    obtain ⟨b, x⟩ := c
    simp only [Dram.wfFrom, Bool.and_eq_true, decide_eq_true_eq] at w
    unfold Dram.read
    rw [if_neg (by omega)]
    exact ih w.2 (by omega)

theorem Dram.read_write_from {m : Dram} {low : Nat} (a : Nat) (v : Byte) (w : Dram.wfFrom low m = true) (x : Nat) :
    Dram.read (Dram.write m a v) x = if x = a then v else Dram.read m x := by
  induction m generalizing low with
  | nil =>
    unfold Dram.write
    by_cases hx : x = a <;> split <;> simp_all [Dram.read]
  | cons c rest ih =>
    obtain ⟨b, y⟩ := c
    simp only [Dram.wfFrom, Bool.and_eq_true, decide_eq_true_eq] at w
    obtain ⟨⟨w1, w2⟩, w3⟩ := w
    unfold Dram.write
    by_cases hab : a < b
    · rw [if_pos hab]
      by_cases hv : v = Dram.blank a
      · rw [if_pos hv]
        by_cases hx : x = a
        · subst hx
          rw [if_pos rfl, hv]
          unfold Dram.read
          rw [if_neg (by omega)]
          exact Dram.read_of_wfFrom w3 (by omega)
        · rw [if_neg hx]
      · rw [if_neg hv]
        by_cases hx : x = a
        · subst hx; simp [Dram.read]
        · rw [if_neg hx]; conv_lhs => unfold Dram.read
          rw [if_neg hx]
    · rw [if_neg hab]
      by_cases he : a = b
      · subst he
        rw [if_pos rfl]
        by_cases hv : v = Dram.blank a
        · rw [if_pos hv]
          by_cases hx : x = a
          · subst hx
            rw [if_pos rfl, hv]
            exact Dram.read_of_wfFrom w3 (by omega)
          · rw [if_neg hx]
            conv_rhs => unfold Dram.read
            rw [if_neg hx]
        · rw [if_neg hv]
          by_cases hx : x = a
          · subst hx; simp [Dram.read]
          · rw [if_neg hx]; simp [Dram.read, hx]
      · rw [if_neg he]
        by_cases hx : x = b
        · subst hx
          rw [if_neg (fun h => he h.symm)]
          simp [Dram.read]
        · simp only [Dram.read, if_neg hx]
          exact ih w3

/-- A byte written reads back, and every other byte reads as before. -/
theorem Dram.read_write {m : Dram} (a : Nat) (v : Byte) (w : Dram.wf m = true) (x : Nat) :
    Dram.read (Dram.write m a v) x = if x = a then v else Dram.read m x :=
  Dram.read_write_from a v w x

/-- A cleared byte reads as zero-fill leaves it, and every other byte as before. -/
theorem Dram.read_clear (m : Dram) (base len x : Nat) :
    (m.clear base len).read x = if base ≤ x ∧ x < base + len then Dram.blank x else m.read x := by
  induction m with
  | nil => simp [Dram.clear, Dram.read]
  | cons c rest ih =>
    obtain ⟨b, v⟩ := c
    unfold Dram.clear at ih ⊢
    rw [List.filter_cons]
    by_cases hb : base ≤ b ∧ b < base + len
    · rw [if_neg (by simp; omega), ih, Dram.read]
      split
      · rfl
      · rw [if_neg (by rintro rfl; contradiction)]
    · rw [if_pos (by simp; omega), Dram.read, ih, Dram.read]
      by_cases hx : x = b
      · subst hx; simp [hb]
      · simp [hx]

/-- What a reported failure does: outside the sized pages nothing; a stuck cell reads as its byte from then on; another
changes its stored byte. Nothing else changes (log entry 18). -/
theorem State.takeFault_spec {s : State} (f : DramFault) (w : Dram.wf s.dram = true) :
    s.takeFault f = { s with dram := (s.takeFault f).dram, stuck := (s.takeFault f).stuck }
    ∧ (s.pool.sized * 15000 ≤ f.address → s.takeFault f = s)
    ∧ (f.address < s.pool.sized * 15000 → f.stuck = true → (s.takeFault f).dram = s.dram
      ∧ ∀ a, stuckAt (s.takeFault f).stuck a = if a = f.address then some f.value else stuckAt s.stuck a)
    ∧ (f.address < s.pool.sized * 15000 → f.stuck = false → (s.takeFault f).stuck = s.stuck
      ∧ ∀ a, Dram.read (s.takeFault f).dram a = if a = f.address then f.value else Dram.read s.dram a) := by
  unfold State.takeFault
  refine ⟨by split_ifs <;> rfl, fun h => if_pos h, fun h hs => ?_, fun h hs => ?_⟩
  · rw [if_neg (by omega), if_pos hs]
    refine ⟨rfl, fun a => ?_⟩
    by_cases ha : a = f.address
    · subst ha; simp [stuckAt]
    · rw [if_neg ha]
      have hb : (f.address == a) = false := by simpa using fun h => ha h.symm
      simp only [stuckAt, List.find?_cons, hb, List.find?_filter]
      congr 2
      funext c
      by_cases hc : c.1 = a
      · simp [hc, ha]
      · simp [hc]
  · rw [if_neg (by omega), if_neg (by simp [hs])]
    exact ⟨rfl, fun a => Dram.read_write _ _ w a⟩

/-- A group whose bytes are as zero-fill leaves them reads as silence, and its check code agrees (R107, R111). -/
theorem readGroup_of_blank {m : Dram} {page group : Nat} (hg : group < 600)
    (h : ∀ i, i < 25 → m.read (groupAddress page group + i) = Dram.blank (groupAddress page group + i)) :
    readGroup m [] page group = List.replicate 8 0 ∧ groupChecks m [] page group = true := by
  have zero : ∀ i, i < 24 → m.read (groupAddress page group + i) = 0 := fun i hi => by
    rw [h i (by omega), Dram.blank, if_pos (by unfold groupAddress; omega)]
  have read : readGroup m [] page group = List.replicate 8 0 := by
    unfold readGroup
    refine List.eq_replicate_iff.mpr ⟨by simp, fun x hx => ?_⟩
    obtain ⟨i, hi, rfl⟩ := List.mem_map.mp hx
    have hi := List.mem_range.mp hi
    simp only [readSampleAt, readByte, stuckAt, List.find?_nil, Option.map_none, Option.getD_none]
    have z0 := zero (3 * i) (by omega)
    have z1 := zero (3 * i + 1) (by omega)
    have z2 := zero (3 * i + 2) (by omega)
    simp only [← Nat.add_assoc] at z1 z2
    simp only [z0, z1, z2]
    rfl
  refine ⟨read, ?_⟩
  unfold groupChecks
  rw [read]
  simp only [readByte, stuckAt, List.find?_nil, Option.map_none, Option.getD_none]
  rw [h 24 (by omega), Dram.blank, if_neg (by unfold groupAddress; omega),
    show (groupAddress page group + 24) / 15000 = page by unfold groupAddress; omega,
    show (groupAddress page group + 24) / 25 % 600 = group by unfold groupAddress; omega]
  simp [silentGroup]

/-- What giving a program's record back does to the DRAM: its fill is abandoned, and nothing else (R111). -/
theorem State.vacate_fillAbandoned {p : Fin 16} {s : State} (h : (s.program p).isSome = true) :
    s.FillAbandoned (fun q => q = p) (s.vacate p) := by
  obtain ⟨x, hx⟩ := Option.isSome_iff_exists.mp h
  have hd : (s.vacate p).dram = s.pool.partFill s.counter p s.dram := by simp [State.vacate, hx]
  unfold State.FillAbandoned
  rw [hd]
  split
  · next he => simp [Pool.partFill, he]
  · next e _ he =>
    simp only [Pool.partFill, he]
    refine ⟨fun hn => if_neg hn, fun hp => ?_⟩
    rw [if_pos hp]
    refine ⟨s.pool.groupsFilled s.counter e.page, ?_, fun h0 => if_pos h0, fun group hg => ?_, fun a ha => ?_⟩
    · unfold Pool.groupsFilled; split <;> omega
    · have hl : s.pool.groupsFilled s.counter e.page ≤ 600 := by unfold Pool.groupsFilled; split <;> omega
      refine readGroup_of_blank (by omega) fun i hi => ?_
      rw [Dram.read_clear, if_pos]
      unfold groupAddress
      omega
    · rw [Dram.read_clear, if_neg (by omega)]

end Sys2Proof.Machine
end

