-- ==== Sys2Proof/Laws/State.lean ====
section
/-! SUPPORT. One lemma per field per update of the state, so that no later proof unfolds a record update. -/

namespace Sys2Proof.Machine

/-! ### `State.setLane` -/

@[simp] theorem State.setLane_pending (s : State) (l : Fin 4) (x : Lane) : (s.setLane l x).pending = s.pending := rfl
@[simp] theorem State.setLane_counter (s : State) (l : Fin 4) (x : Lane) : (s.setLane l x).counter = s.counter := rfl
@[simp] theorem State.setLane_tb (s : State) (l : Fin 4) (x : Lane) : (s.setLane l x).tb = s.tb := rfl
@[simp] theorem State.setLane_programs (s : State) (l : Fin 4) (x : Lane) : (s.setLane l x).programs = s.programs := rfl
@[simp] theorem State.setLane_claims (s : State) (l : Fin 4) (x : Lane) : (s.setLane l x).claims = s.claims := rfl
@[simp] theorem State.setLane_pool (s : State) (l : Fin 4) (x : Lane) : (s.setLane l x).pool = s.pool := rfl
@[simp] theorem State.setLane_dram (s : State) (l : Fin 4) (x : Lane) : (s.setLane l x).dram = s.dram := rfl
@[simp] theorem State.setLane_stuck (s : State) (l : Fin 4) (x : Lane) : (s.setLane l x).stuck = s.stuck := rfl
@[simp] theorem State.setLane_alarm (s : State) (l : Fin 4) (x : Lane) : (s.setLane l x).alarm = s.alarm := rfl
@[simp] theorem State.setLane_link (s : State) (l : Fin 4) (x : Lane) : (s.setLane l x).link = s.link := rfl
@[simp] theorem State.setLane_egress (s : State) (l : Fin 4) (x : Lane) : (s.setLane l x).egress = s.egress := rfl

@[simp] theorem State.lane_setLane (s : State) (l : Fin 4) (x : Lane) : (s.setLane l x).lane l = x := by
  simp [State.lane, State.setLane]

theorem State.lane_setLane_ne (s : State) (l k : Fin 4) (x : Lane) (h : l ≠ k) : (s.setLane l x).lane k = s.lane k := by
  have h' : l.val ≠ k.val := fun e => h (Fin.ext e)
  simp [State.lane, State.setLane, h']

@[simp] theorem State.program_setLane (s : State) (l : Fin 4) (x : Lane) (p : Fin 16) :
    (s.setLane l x).program p = s.program p := rfl

/-! ### `State.setProgram` -/

@[simp] theorem State.setProgram_pending (s : State) (p : Fin 16) (x : Option Program) : (s.setProgram p x).pending = s.pending := rfl
@[simp] theorem State.setProgram_counter (s : State) (p : Fin 16) (x : Option Program) : (s.setProgram p x).counter = s.counter := rfl
@[simp] theorem State.setProgram_tb (s : State) (p : Fin 16) (x : Option Program) : (s.setProgram p x).tb = s.tb := rfl
@[simp] theorem State.setProgram_lanes (s : State) (p : Fin 16) (x : Option Program) : (s.setProgram p x).lanes = s.lanes := rfl
@[simp] theorem State.setProgram_claims (s : State) (p : Fin 16) (x : Option Program) : (s.setProgram p x).claims = s.claims := rfl
@[simp] theorem State.setProgram_pool (s : State) (p : Fin 16) (x : Option Program) : (s.setProgram p x).pool = s.pool := rfl
@[simp] theorem State.setProgram_dram (s : State) (p : Fin 16) (x : Option Program) : (s.setProgram p x).dram = s.dram := rfl
@[simp] theorem State.setProgram_stuck (s : State) (p : Fin 16) (x : Option Program) : (s.setProgram p x).stuck = s.stuck := rfl
@[simp] theorem State.setProgram_alarm (s : State) (p : Fin 16) (x : Option Program) : (s.setProgram p x).alarm = s.alarm := rfl
@[simp] theorem State.setProgram_link (s : State) (p : Fin 16) (x : Option Program) : (s.setProgram p x).link = s.link := rfl
@[simp] theorem State.setProgram_egress (s : State) (p : Fin 16) (x : Option Program) : (s.setProgram p x).egress = s.egress := rfl

@[simp] theorem State.program_setProgram (s : State) (p : Fin 16) (x : Option Program) :
    (s.setProgram p x).program p = x := by
  simp [State.program, State.setProgram]

theorem State.program_setProgram_ne (s : State) (p q : Fin 16) (x : Option Program) (h : p ≠ q) :
    (s.setProgram p x).program q = s.program q := by
  have h' : p.val ≠ q.val := fun e => h (Fin.ext e)
  simp [State.program, State.setProgram, h']

@[simp] theorem State.lane_setProgram (s : State) (p : Fin 16) (x : Option Program) (l : Fin 4) :
    (s.setProgram p x).lane l = s.lane l := rfl

/-! ### `AlarmUnit.setPoint` -/

@[simp] theorem AlarmUnit.setPoint_kinds (a : AlarmUnit) (pt : Fin 118) (x : Point) : (a.setPoint pt x).kinds = a.kinds := rfl
@[simp] theorem AlarmUnit.setPoint_notices (a : AlarmUnit) (pt : Fin 118) (x : Point) : (a.setPoint pt x).notices = a.notices := rfl
@[simp] theorem AlarmUnit.setPoint_summaries (a : AlarmUnit) (pt : Fin 118) (x : Point) : (a.setPoint pt x).summaries = a.summaries := rfl
@[simp] theorem AlarmUnit.setPoint_contacts (a : AlarmUnit) (pt : Fin 118) (x : Point) : (a.setPoint pt x).contacts = a.contacts := rfl
@[simp] theorem AlarmUnit.setPoint_pins (a : AlarmUnit) (pt : Fin 118) (x : Point) : (a.setPoint pt x).pins = a.pins := rfl
@[simp] theorem AlarmUnit.setPoint_silenceLevel (a : AlarmUnit) (pt : Fin 118) (x : Point) : (a.setPoint pt x).silenceLevel = a.silenceLevel := rfl
@[simp] theorem AlarmUnit.setPoint_boundaryTaken (a : AlarmUnit) (pt : Fin 118) (x : Point) : (a.setPoint pt x).boundaryTaken = a.boundaryTaken := rfl

@[simp] theorem AlarmUnit.point_setPoint (a : AlarmUnit) (pt : Fin 118) (x : Point) : (a.setPoint pt x).point pt = x := by
  simp [AlarmUnit.point, AlarmUnit.setPoint]

theorem AlarmUnit.point_setPoint_ne (a : AlarmUnit) (pt q : Fin 118) (x : Point) (h : pt ≠ q) :
    (a.setPoint pt x).point q = a.point q := by
  have h' : pt.val ≠ q.val := fun e => h (Fin.ext e)
  simp [AlarmUnit.point, AlarmUnit.setPoint, h']

@[simp] theorem AlarmUnit.kind_setPoint (a : AlarmUnit) (pt : Fin 118) (x : Point) (k : Fin 13) :
    (a.setPoint pt x).kind k = a.kind k := rfl

@[simp] theorem AlarmUnit.contact_setPoint (a : AlarmUnit) (pt : Fin 118) (x : Point) (c : Fin 4) :
    (a.setPoint pt x).contact c = a.contact c := rfl

/-! ### `AlarmUnit.setContact` -/

@[simp] theorem AlarmUnit.setContact_kinds (a : AlarmUnit) (c : Fin 4) (x : Contact) : (a.setContact c x).kinds = a.kinds := rfl
@[simp] theorem AlarmUnit.setContact_points (a : AlarmUnit) (c : Fin 4) (x : Contact) : (a.setContact c x).points = a.points := rfl
@[simp] theorem AlarmUnit.setContact_notices (a : AlarmUnit) (c : Fin 4) (x : Contact) : (a.setContact c x).notices = a.notices := rfl
@[simp] theorem AlarmUnit.setContact_summaries (a : AlarmUnit) (c : Fin 4) (x : Contact) : (a.setContact c x).summaries = a.summaries := rfl
@[simp] theorem AlarmUnit.setContact_pins (a : AlarmUnit) (c : Fin 4) (x : Contact) : (a.setContact c x).pins = a.pins := rfl
@[simp] theorem AlarmUnit.setContact_silenceLevel (a : AlarmUnit) (c : Fin 4) (x : Contact) : (a.setContact c x).silenceLevel = a.silenceLevel := rfl
@[simp] theorem AlarmUnit.setContact_boundaryTaken (a : AlarmUnit) (c : Fin 4) (x : Contact) : (a.setContact c x).boundaryTaken = a.boundaryTaken := rfl

@[simp] theorem AlarmUnit.contact_setContact (a : AlarmUnit) (c : Fin 4) (x : Contact) :
    (a.setContact c x).contact c = x := by
  simp [AlarmUnit.contact, AlarmUnit.setContact]

@[simp] theorem AlarmUnit.point_setContact (a : AlarmUnit) (c : Fin 4) (x : Contact) (pt : Fin 118) :
    (a.setContact c x).point pt = a.point pt := rfl

/-! ### `State.complete` -/

@[simp] theorem State.complete_pending (c : Completion) (s : State) : (State.complete c s).pending = s.pending := rfl
@[simp] theorem State.complete_counter (c : Completion) (s : State) : (State.complete c s).counter = s.counter := rfl
@[simp] theorem State.complete_tb (c : Completion) (s : State) : (State.complete c s).tb = s.tb := rfl
@[simp] theorem State.complete_lanes (c : Completion) (s : State) : (State.complete c s).lanes = s.lanes := rfl
@[simp] theorem State.complete_programs (c : Completion) (s : State) : (State.complete c s).programs = s.programs := rfl
@[simp] theorem State.complete_claims (c : Completion) (s : State) : (State.complete c s).claims = s.claims := rfl
@[simp] theorem State.complete_pool (c : Completion) (s : State) : (State.complete c s).pool = s.pool := rfl
@[simp] theorem State.complete_dram (c : Completion) (s : State) : (State.complete c s).dram = s.dram := rfl
@[simp] theorem State.complete_stuck (c : Completion) (s : State) : (State.complete c s).stuck = s.stuck := rfl
@[simp] theorem State.complete_alarm (c : Completion) (s : State) : (State.complete c s).alarm = s.alarm := rfl
@[simp] theorem State.complete_egress (c : Completion) (s : State) : (State.complete c s).egress = s.egress := rfl

@[simp] theorem State.complete_completions (c : Completion) (s : State) :
    (State.complete c s).link.completions = s.link.completions ++ [c] := rfl

@[simp] theorem State.complete_link_highRate (c : Completion) (s : State) : (State.complete c s).link.highRate = s.link.highRate := rfl
@[simp] theorem State.complete_link_receiver (c : Completion) (s : State) : (State.complete c s).link.receiver = s.link.receiver := rfl
@[simp] theorem State.complete_link_lastByte (c : Completion) (s : State) : (State.complete c s).link.lastByte = s.link.lastByte := rfl
@[simp] theorem State.complete_link_buffer (c : Completion) (s : State) : (State.complete c s).link.buffer = s.link.buffer := rfl
@[simp] theorem State.complete_link_reply (c : Completion) (s : State) : (State.complete c s).link.reply = s.link.reply := rfl
@[simp] theorem State.complete_link_sending (c : Completion) (s : State) : (State.complete c s).link.sending = s.link.sending := rfl
@[simp] theorem State.complete_link_ops (c : Completion) (s : State) : (State.complete c s).link.ops = s.link.ops := rfl
@[simp] theorem State.complete_link_crcErrors (c : Completion) (s : State) : (State.complete c s).link.crcErrors = s.link.crcErrors := rfl
@[simp] theorem State.complete_link_lengthErrors (c : Completion) (s : State) : (State.complete c s).link.lengthErrors = s.link.lengthErrors := rfl
@[simp] theorem State.complete_link_gapErrors (c : Completion) (s : State) : (State.complete c s).link.gapErrors = s.link.gapErrors := rfl
@[simp] theorem State.complete_link_overruns (c : Completion) (s : State) : (State.complete c s).link.overruns = s.link.overruns := rfl
@[simp] theorem State.complete_link_linkErr (c : Completion) (s : State) : (State.complete c s).link.linkErr = s.link.linkErr := rfl
@[simp] theorem State.complete_link_restarted (c : Completion) (s : State) : (State.complete c s).link.restarted = s.link.restarted := rfl
@[simp] theorem State.complete_link_sizingEnded (c : Completion) (s : State) : (State.complete c s).link.sizingEnded = s.link.sizingEnded := rfl
@[simp] theorem State.complete_link_statusFlags (c : Completion) (s : State) : (State.complete c s).link.statusFlags = s.link.statusFlags := rfl

/-! ### `State.closeOp` -/

@[simp] theorem State.closeOp_pending (t : Byte) (k : Concern) (r : Result) (d : List Byte) (s : State) : (State.closeOp t k r d s).pending = s.pending := rfl
@[simp] theorem State.closeOp_counter (t : Byte) (k : Concern) (r : Result) (d : List Byte) (s : State) : (State.closeOp t k r d s).counter = s.counter := rfl
@[simp] theorem State.closeOp_tb (t : Byte) (k : Concern) (r : Result) (d : List Byte) (s : State) : (State.closeOp t k r d s).tb = s.tb := rfl
@[simp] theorem State.closeOp_lanes (t : Byte) (k : Concern) (r : Result) (d : List Byte) (s : State) : (State.closeOp t k r d s).lanes = s.lanes := rfl
@[simp] theorem State.closeOp_programs (t : Byte) (k : Concern) (r : Result) (d : List Byte) (s : State) : (State.closeOp t k r d s).programs = s.programs := rfl
@[simp] theorem State.closeOp_claims (t : Byte) (k : Concern) (r : Result) (d : List Byte) (s : State) : (State.closeOp t k r d s).claims = s.claims := rfl
@[simp] theorem State.closeOp_pool (t : Byte) (k : Concern) (r : Result) (d : List Byte) (s : State) : (State.closeOp t k r d s).pool = s.pool := rfl
@[simp] theorem State.closeOp_dram (t : Byte) (k : Concern) (r : Result) (d : List Byte) (s : State) : (State.closeOp t k r d s).dram = s.dram := rfl
@[simp] theorem State.closeOp_stuck (t : Byte) (k : Concern) (r : Result) (d : List Byte) (s : State) : (State.closeOp t k r d s).stuck = s.stuck := rfl
@[simp] theorem State.closeOp_alarm (t : Byte) (k : Concern) (r : Result) (d : List Byte) (s : State) : (State.closeOp t k r d s).alarm = s.alarm := rfl
@[simp] theorem State.closeOp_egress (t : Byte) (k : Concern) (r : Result) (d : List Byte) (s : State) : (State.closeOp t k r d s).egress = s.egress := rfl

/-! ### `State.putTimebase` -/

@[simp] theorem State.putTimebase_pending (t : Timebase) (s : State) : (State.putTimebase t s).pending = s.pending := rfl
@[simp] theorem State.putTimebase_counter (t : Timebase) (s : State) : (State.putTimebase t s).counter = s.counter := rfl
@[simp] theorem State.putTimebase_lanes (t : Timebase) (s : State) : (State.putTimebase t s).lanes = s.lanes := rfl
@[simp] theorem State.putTimebase_programs (t : Timebase) (s : State) : (State.putTimebase t s).programs = s.programs := rfl
@[simp] theorem State.putTimebase_claims (t : Timebase) (s : State) : (State.putTimebase t s).claims = s.claims := rfl
@[simp] theorem State.putTimebase_pool (t : Timebase) (s : State) : (State.putTimebase t s).pool = s.pool := rfl
@[simp] theorem State.putTimebase_dram (t : Timebase) (s : State) : (State.putTimebase t s).dram = s.dram := rfl
@[simp] theorem State.putTimebase_stuck (t : Timebase) (s : State) : (State.putTimebase t s).stuck = s.stuck := rfl
@[simp] theorem State.putTimebase_link (t : Timebase) (s : State) : (State.putTimebase t s).link = s.link := rfl
@[simp] theorem State.putTimebase_egress (t : Timebase) (s : State) : (State.putTimebase t s).egress = s.egress := rfl

@[simp] theorem State.putTimebase_tb (t : Timebase) (s : State) : (State.putTimebase t s).tb = t := rfl

/-! ### `State.cancelEntries` -/

@[simp] theorem State.cancelEntries_pending (f : SchedEntry → Bool) (s : State) : (State.cancelEntries f s).pending = s.pending := rfl
@[simp] theorem State.cancelEntries_counter (f : SchedEntry → Bool) (s : State) : (State.cancelEntries f s).counter = s.counter := rfl
@[simp] theorem State.cancelEntries_lanes (f : SchedEntry → Bool) (s : State) : (State.cancelEntries f s).lanes = s.lanes := rfl
@[simp] theorem State.cancelEntries_programs (f : SchedEntry → Bool) (s : State) : (State.cancelEntries f s).programs = s.programs := rfl
@[simp] theorem State.cancelEntries_claims (f : SchedEntry → Bool) (s : State) : (State.cancelEntries f s).claims = s.claims := rfl
@[simp] theorem State.cancelEntries_pool (f : SchedEntry → Bool) (s : State) : (State.cancelEntries f s).pool = s.pool := rfl
@[simp] theorem State.cancelEntries_dram (f : SchedEntry → Bool) (s : State) : (State.cancelEntries f s).dram = s.dram := rfl
@[simp] theorem State.cancelEntries_stuck (f : SchedEntry → Bool) (s : State) : (State.cancelEntries f s).stuck = s.stuck := rfl
@[simp] theorem State.cancelEntries_alarm (f : SchedEntry → Bool) (s : State) : (State.cancelEntries f s).alarm = s.alarm := rfl
@[simp] theorem State.cancelEntries_egress (f : SchedEntry → Bool) (s : State) : (State.cancelEntries f s).egress = s.egress := rfl

/-! ### `State.sendEgress` -/

@[simp] theorem State.sendEgress_pending (s : State) : (s.sendEgress).pending = s.pending := rfl
@[simp] theorem State.sendEgress_counter (s : State) : (s.sendEgress).counter = s.counter := rfl
@[simp] theorem State.sendEgress_tb (s : State) : (s.sendEgress).tb = s.tb := rfl
@[simp] theorem State.sendEgress_lanes (s : State) : (s.sendEgress).lanes = s.lanes := rfl
@[simp] theorem State.sendEgress_programs (s : State) : (s.sendEgress).programs = s.programs := rfl
@[simp] theorem State.sendEgress_claims (s : State) : (s.sendEgress).claims = s.claims := rfl
@[simp] theorem State.sendEgress_pool (s : State) : (s.sendEgress).pool = s.pool := rfl
@[simp] theorem State.sendEgress_dram (s : State) : (s.sendEgress).dram = s.dram := rfl
@[simp] theorem State.sendEgress_stuck (s : State) : (s.sendEgress).stuck = s.stuck := rfl
@[simp] theorem State.sendEgress_alarm (s : State) : (s.sendEgress).alarm = s.alarm := rfl
@[simp] theorem State.sendEgress_link (s : State) : (s.sendEgress).link = s.link := rfl

/-! ### `State.latch` -/

@[simp] theorem State.latch_pending (s : State) : (s.latch).pending = s.pending := rfl
@[simp] theorem State.latch_counter (s : State) : (s.latch).counter = s.counter := rfl
@[simp] theorem State.latch_tb (s : State) : (s.latch).tb = s.tb := rfl
@[simp] theorem State.latch_programs (s : State) : (s.latch).programs = s.programs := rfl
@[simp] theorem State.latch_claims (s : State) : (s.latch).claims = s.claims := rfl
@[simp] theorem State.latch_dram (s : State) : (s.latch).dram = s.dram := rfl
@[simp] theorem State.latch_stuck (s : State) : (s.latch).stuck = s.stuck := rfl
@[simp] theorem State.latch_link (s : State) : (s.latch).link = s.link := rfl
@[simp] theorem State.latch_egress (s : State) : (s.latch).egress = s.egress := rfl

/-! ### `State.openSample` -/

@[simp] theorem State.openSample_pending (pins : BitVec 4) (s : State) : (State.openSample pins s).pending = s.pending := rfl
@[simp] theorem State.openSample_tb (pins : BitVec 4) (s : State) : (State.openSample pins s).tb = s.tb := rfl
@[simp] theorem State.openSample_claims (pins : BitVec 4) (s : State) : (State.openSample pins s).claims = s.claims := rfl
@[simp] theorem State.openSample_pool (pins : BitVec 4) (s : State) : (State.openSample pins s).pool = s.pool := rfl
@[simp] theorem State.openSample_dram (pins : BitVec 4) (s : State) : (State.openSample pins s).dram = s.dram := rfl
@[simp] theorem State.openSample_stuck (pins : BitVec 4) (s : State) : (State.openSample pins s).stuck = s.stuck := rfl
@[simp] theorem State.openSample_link (pins : BitVec 4) (s : State) : (State.openSample pins s).link = s.link := rfl
@[simp] theorem State.openSample_egress (pins : BitVec 4) (s : State) : (State.openSample pins s).egress = s.egress := rfl

@[simp] theorem State.openSample_counter (pins : BitVec 4) (s : State) :
    (State.openSample pins s).counter = s.counter + 1 := rfl

/-! ### `State.linkError` -/

@[simp] theorem State.linkError_pending (s : State) : (s.linkError).pending = s.pending := rfl
@[simp] theorem State.linkError_counter (s : State) : (s.linkError).counter = s.counter := rfl
@[simp] theorem State.linkError_tb (s : State) : (s.linkError).tb = s.tb := rfl
@[simp] theorem State.linkError_lanes (s : State) : (s.linkError).lanes = s.lanes := rfl
@[simp] theorem State.linkError_programs (s : State) : (s.linkError).programs = s.programs := rfl
@[simp] theorem State.linkError_claims (s : State) : (s.linkError).claims = s.claims := rfl
@[simp] theorem State.linkError_pool (s : State) : (s.linkError).pool = s.pool := rfl
@[simp] theorem State.linkError_dram (s : State) : (s.linkError).dram = s.dram := rfl
@[simp] theorem State.linkError_stuck (s : State) : (s.linkError).stuck = s.stuck := rfl
@[simp] theorem State.linkError_egress (s : State) : (s.linkError).egress = s.egress := rfl

/-! ### `State.interpolate` -/

@[simp] theorem State.interpolate_pending (s : State) : (s.interpolate).pending = s.pending := rfl
@[simp] theorem State.interpolate_counter (s : State) : (s.interpolate).counter = s.counter := rfl
@[simp] theorem State.interpolate_tb (s : State) : (s.interpolate).tb = s.tb := rfl
@[simp] theorem State.interpolate_programs (s : State) : (s.interpolate).programs = s.programs := rfl
@[simp] theorem State.interpolate_claims (s : State) : (s.interpolate).claims = s.claims := rfl
@[simp] theorem State.interpolate_pool (s : State) : (s.interpolate).pool = s.pool := rfl
@[simp] theorem State.interpolate_dram (s : State) : (s.interpolate).dram = s.dram := rfl
@[simp] theorem State.interpolate_stuck (s : State) : (s.interpolate).stuck = s.stuck := rfl
@[simp] theorem State.interpolate_alarm (s : State) : (s.interpolate).alarm = s.alarm := rfl
@[simp] theorem State.interpolate_link (s : State) : (s.interpolate).link = s.link := rfl
@[simp] theorem State.interpolate_egress (s : State) : (s.interpolate).egress = s.egress := rfl

@[simp] theorem State.interpolate_lane (s : State) (l : Fin 4) : s.interpolate.lane l = (s.lane l).fillPipe := by
  simp [State.lane, State.interpolate]

/-! ### `Lane.fillPipe` -/

@[simp] theorem Lane.fillPipe_enabled (l : Lane) : (l.fillPipe).enabled = l.enabled := rfl
@[simp] theorem Lane.fillPipe_state (l : Lane) : (l.fillPipe).state = l.state := rfl
@[simp] theorem Lane.fillPipe_clockPresent (l : Lane) : (l.fillPipe).clockPresent = l.clockPresent := rfl
@[simp] theorem Lane.fillPipe_cls (l : Lane) : (l.fillPipe).cls = l.cls := rfl
@[simp] theorem Lane.fillPipe_store (l : Lane) : (l.fillPipe).store = l.store := rfl
@[simp] theorem Lane.fillPipe_fillQ (l : Lane) : (l.fillPipe).fillQ = l.fillQ := rfl
@[simp] theorem Lane.fillPipe_rho (l : Lane) : (l.fillPipe).rho = l.rho := rfl
@[simp] theorem Lane.fillPipe_rhoInt (l : Lane) : (l.fillPipe).rhoInt = l.rhoInt := rfl
@[simp] theorem Lane.fillPipe_startsNow (l : Lane) : (l.fillPipe).startsNow = l.startsNow := rfl
@[simp] theorem Lane.fillPipe_slip (l : Lane) : (l.fillPipe).slip = l.slip := rfl
@[simp] theorem Lane.fillPipe_entryFade (l : Lane) : (l.fillPipe).entryFade = l.entryFade := rfl
@[simp] theorem Lane.fillPipe_inUse (l : Lane) : (l.fillPipe).inUse = l.inUse := rfl
@[simp] theorem Lane.fillPipe_windowCount (l : Lane) : (l.fillPipe).windowCount = l.windowCount := rfl

/-! ### `Channel.endBlock` -/

@[simp] theorem Channel.endBlock_role (ch : Channel) : (ch.endBlock).role = ch.role := rfl
@[simp] theorem Channel.endBlock_primary (ch : Channel) : (ch.endBlock).primary = ch.primary := rfl
@[simp] theorem Channel.endBlock_backup (ch : Channel) : (ch.endBlock).backup = ch.backup := rfl
@[simp] theorem Channel.endBlock_mode (ch : Channel) : (ch.endBlock).mode = ch.mode := rfl
@[simp] theorem Channel.endBlock_demand (ch : Channel) : (ch.endBlock).demand = ch.demand := rfl
@[simp] theorem Channel.endBlock_desired (ch : Channel) : (ch.endBlock).desired = ch.desired := rfl
@[simp] theorem Channel.endBlock_current (ch : Channel) : (ch.endBlock).current = ch.current := rfl
@[simp] theorem Channel.endBlock_inUse (ch : Channel) : (ch.endBlock).inUse = ch.inUse := rfl
@[simp] theorem Channel.endBlock_coFade (ch : Channel) : (ch.endBlock).coFade = ch.coFade := rfl
@[simp] theorem Channel.endBlock_egress (ch : Channel) : (ch.endBlock).egress = ch.egress := rfl
@[simp] theorem Channel.endBlock_trim (ch : Channel) : (ch.endBlock).trim = ch.trim := rfl
@[simp] theorem Channel.endBlock_trimFade (ch : Channel) : (ch.endBlock).trimFade = ch.trimFade := rfl
@[simp] theorem Channel.endBlock_live (ch : Channel) : (ch.endBlock).live = ch.live := rfl
@[simp] theorem Channel.endBlock_pathLat (ch : Channel) : (ch.endBlock).pathLat = ch.pathLat := rfl
@[simp] theorem Channel.endBlock_required (ch : Channel) : (ch.endBlock).required = ch.required := rfl
@[simp] theorem Channel.endBlock_trimBuf (ch : Channel) : (ch.endBlock).trimBuf = ch.trimBuf := rfl
@[simp] theorem Channel.endBlock_filter (ch : Channel) : (ch.endBlock).filter = ch.filter := rfl
@[simp] theorem Channel.endBlock_writeBuf (ch : Channel) : (ch.endBlock).writeBuf = ch.writeBuf := rfl
@[simp] theorem Channel.endBlock_readBuf (ch : Channel) : (ch.endBlock).readBuf = ch.readBuf := rfl
@[simp] theorem Channel.endBlock_aligned (ch : Channel) : (ch.endBlock).aligned = ch.aligned := rfl
@[simp] theorem Channel.endBlock_delayed (ch : Channel) : (ch.endBlock).delayed = ch.delayed := rfl
@[simp] theorem Channel.endBlock_output (ch : Channel) : (ch.endBlock).output = ch.output := rfl
@[simp] theorem Channel.endBlock_overRun (ch : Channel) : (ch.endBlock).overRun = ch.overRun := rfl
@[simp] theorem Channel.endBlock_overDue (ch : Channel) : (ch.endBlock).overDue = ch.overDue := rfl
@[simp] theorem Channel.endBlock_satCount (ch : Channel) : (ch.endBlock).satCount = ch.satCount := rfl
@[simp] theorem Channel.endBlock_blockEnergy (ch : Channel) : (ch.endBlock).blockEnergy = ch.energy := rfl
@[simp] theorem Channel.endBlock_energySum (ch : Channel) : (ch.endBlock).energySum = 0 := rfl

/-! ### `Program.retotal` -/

@[simp] theorem Program.retotal_state (x : Program) : (x.retotal).state = x.state := by
  unfold Program.retotal; dsimp only; split <;> rfl
@[simp] theorem Program.retotal_channels (x : Program) : (x.retotal).channels = x.channels := by
  unfold Program.retotal; dsimp only; split <;> rfl
@[simp] theorem Program.retotal_maxDelay (x : Program) : (x.retotal).maxDelay = x.maxDelay := by
  unfold Program.retotal; dsimp only; split <;> rfl
@[simp] theorem Program.retotal_rows (x : Program) : (x.retotal).rows = x.rows := by
  unfold Program.retotal; dsimp only; split <;> rfl
@[simp] theorem Program.retotal_onAir (x : Program) : (x.retotal).onAir = x.onAir := by
  unfold Program.retotal; dsimp only; split <;> rfl
@[simp] theorem Program.retotal_openDef (x : Program) : (x.retotal).openDef = x.openDef := by
  unfold Program.retotal; dsimp only; split <;> rfl
@[simp] theorem Program.retotal_ring (x : Program) : (x.retotal).ring = x.ring := by
  unfold Program.retotal; dsimp only; split <;> rfl
@[simp] theorem Program.retotal_align (x : Program) : (x.retotal).align = x.align := by
  unfold Program.retotal; dsimp only; split <;> rfl
@[simp] theorem Program.retotal_loud (x : Program) : (x.retotal).loud = x.loud := by
  unfold Program.retotal; dsimp only; split <;> rfl
@[simp] theorem Program.retotal_corr (x : Program) : (x.retotal).corr = x.corr := by
  unfold Program.retotal; dsimp only; split <;> rfl
@[simp] theorem Program.retotal_out_schedule (x : Program) : (x.retotal).out.schedule = x.out.schedule := by
  unfold Program.retotal; dsimp only; split <;> rfl
@[simp] theorem Program.retotal_out_applied (x : Program) : (x.retotal).out.applied = x.out.applied := by
  unfold Program.retotal; dsimp only; split <;> rfl
@[simp] theorem Program.retotal_out_pad (x : Program) : (x.retotal).out.pad = x.out.pad := by
  unfold Program.retotal; dsimp only; split <;> rfl
@[simp] theorem Program.retotal_out_multUsed (x : Program) : (x.retotal).out.multUsed = x.out.multUsed := by
  unfold Program.retotal; dsimp only; split <;> rfl
@[simp] theorem Program.retotal_out_muted (x : Program) : (x.retotal).out.muted = x.out.muted := by
  unfold Program.retotal; dsimp only; split <;> rfl
@[simp] theorem Program.retotal_out_muteFade (x : Program) : (x.retotal).out.muteFade = x.out.muteFade := by
  unfold Program.retotal; dsimp only; split <;> rfl

/-! ### `Answer.placed` -/

@[simp] theorem Answer.placed_reply (kind tag : Byte) (a : Answer) :
    (a.placed kind tag).link.reply = some ⟨kind, tag, a.result, a.report⟩ := rfl
@[simp] theorem Answer.placed_pending (kind tag : Byte) (a : Answer) : (a.placed kind tag).pending = a.state.pending := rfl
@[simp] theorem Answer.placed_counter (kind tag : Byte) (a : Answer) : (a.placed kind tag).counter = a.state.counter := rfl
@[simp] theorem Answer.placed_tb (kind tag : Byte) (a : Answer) : (a.placed kind tag).tb = a.state.tb := rfl
@[simp] theorem Answer.placed_programs (kind tag : Byte) (a : Answer) : (a.placed kind tag).programs = a.state.programs := rfl
@[simp] theorem Answer.placed_claims (kind tag : Byte) (a : Answer) : (a.placed kind tag).claims = a.state.claims := rfl
@[simp] theorem Answer.placed_pool (kind tag : Byte) (a : Answer) : (a.placed kind tag).pool = a.state.pool := rfl
@[simp] theorem Answer.placed_dram (kind tag : Byte) (a : Answer) : (a.placed kind tag).dram = a.state.dram := rfl
@[simp] theorem Answer.placed_stuck (kind tag : Byte) (a : Answer) : (a.placed kind tag).stuck = a.state.stuck := rfl
@[simp] theorem Answer.placed_alarm (kind tag : Byte) (a : Answer) : (a.placed kind tag).alarm = a.state.alarm := rfl
@[simp] theorem Answer.placed_egress (kind tag : Byte) (a : Answer) : (a.placed kind tag).egress = a.state.egress := rfl
@[simp] theorem Answer.placed_lanes (kind tag : Byte) (a : Answer) : (a.placed kind tag).lanes = a.state.lanes := rfl

end Sys2Proof.Machine
end

