-- ==== Sys2Proof/Laws/Ops.lean ====
section
/-! SUPPORT. What the shared operations can do, said once each: what they answer and what they leave alone. -/

namespace Sys2Proof.Machine

/-! ## Running over subjects -/

/-- A property that every single operation keeps is kept by the run over a list of subjects. -/
theorem forAll_keeps {α : Type} {P : State → Prop} {f : α → State → State} (l : List α)
    (h : ∀ a s, P s → P (f a s)) {s : State} (hs : P s) : P (forAll l f s) := by
  induction l generalizing s with
  | nil => exact hs
  | cons a rest ih => exact ih (h a s hs)

/-- A reflexive and transitive relation that every single operation respects is respected by the run. -/
theorem forAll_rel {α : Type} {R : State → State → Prop} (refl : ∀ s, R s s) (trans : ∀ a b c, R a b → R b c → R a c)
    {f : α → State → State} (l : List α) (h : ∀ a s, R s (f a s)) (s : State) : R s (forAll l f s) := by
  induction l generalizing s with
  | nil => exact refl s
  | cons a rest ih => exact trans _ _ _ (h a s) (ih (f a s))

/-! ## Runs of commands -/

/-- A run of commands joined to one that is answered with a next state goes on from that state. -/
theorem execAll_append {a : List Instr} {s t : State} (b : List Instr) (h : execAll a s = .next t) :
    execAll (a ++ b) s = execAll b t := by
  induction a generalizing s with
  | nil => cases h; rfl
  | cons c rest ih =>
    simp only [List.cons_append, execAll] at h ⊢
    split at h
    · exact ih h
    · cases h
    · cases h

/-- Commands that make one operation for each subject make it over the list of subjects. -/
theorem execAll_flatMap {α : Type} {g : α → List Instr} {f : α → State → State}
    (h : ∀ a s, execAll (g a) s = .next (f a s)) (l : List α) (s : State) :
    execAll (l.flatMap g) s = .next (forAll l f s) := by
  induction l generalizing s with
  | nil => rfl
  | cons a rest ih => rw [List.flatMap_cons, execAll_append _ (h a s), ih]; rfl

/-! ## Loudness settings -/

/-- Settings held lie within their ranges. -/
theorem LoudSettings.inRange_holds (c : LoudSettings) : c.inRange.InRange := by
  constructor <;> simp only [LoudSettings.inRange, clampInt] <;> omega

/-- The defaults do. -/
theorem LoudSettings.default_holds : LoudSettings.default.InRange := by
  constructor <;> decide

/-! ## The two directions of the link -/

/-- A busy transmitter begins nothing. -/
theorem transmit_busy {s : State} {l : List Byte} (h : s.link.sending = some l) : s.transmit = s := by
  simp [State.transmit, h]

/-- An empty receive buffer gives up nothing. -/
theorem takeFrame_empty {s : State} (h : s.link.buffer = []) : s.takeFrame = s := by simp [State.takeFrame, h]

/-- While the reply place is full no frame is taken. -/
theorem takeFrame_full {s : State} {r : Reply} (h : s.link.reply = some r) : s.takeFrame = s := by
  unfold State.takeFrame
  split
  · rfl
  · simp [State.mayTake, h]

/-- What waits in the receive buffer is all that giving it frames changes. -/
@[simp] theorem State.withBuffer_link (b : List Frame) (s : State) :
    (s.withBuffer b).link = { s.link with buffer := b } := rfl
@[simp] theorem State.withBuffer_alarm (b : List Frame) (s : State) : (s.withBuffer b).alarm = s.alarm := rfl
@[simp] theorem State.withBuffer_tb (b : List Frame) (s : State) : (s.withBuffer b).tb = s.tb := rfl
@[simp] theorem State.withBuffer_counter (b : List Frame) (s : State) : (s.withBuffer b).counter = s.counter := rfl
@[simp] theorem State.withBuffer_program (b : List Frame) (s : State) (p : Fin 16) :
    (s.withBuffer b).program p = s.program p := rfl
@[simp] theorem State.withBuffer_lane (b : List Frame) (s : State) (l : Fin 4) : (s.withBuffer b).lane l = s.lane l := rfl
@[simp] theorem State.withBuffer_outstanding (b : List Frame) (s : State) : (s.withBuffer b).outstanding = s.outstanding :=
  rfl

/-! ## What stays -/

theorem KeepsOutside.refl (s : State) : KeepsOutside s s := ⟨rfl, rfl, rfl, rfl, rfl, rfl, rfl, rfl, rfl⟩

theorem KeepsOutside.trans {a b c : State} (h : KeepsOutside a b) (k : KeepsOutside b c) : KeepsOutside a c :=
  ⟨k.pending.trans h.pending, k.counter.trans h.counter, k.tb.trans h.tb, k.lanes.trans h.lanes,
    k.claims.trans h.claims, k.pool.trans h.pool, k.dram.trans h.dram, k.stuck.trans h.stuck,
    k.egress.trans h.egress⟩

theorem keepsOutside_setProgram (s : State) (p : Fin 16) (x : Option Program) : KeepsOutside s (s.setProgram p x) :=
  ⟨rfl, rfl, rfl, rfl, rfl, rfl, rfl, rfl, rfl⟩

theorem keepsOutside_closeOp (t : Byte) (k : Concern) (r : Result) (d : List Byte) (s : State) :
    KeepsOutside s (State.closeOp t k r d s) :=
  ⟨rfl, rfl, rfl, rfl, rfl, rfl, rfl, rfl, rfl⟩

theorem keepsOutside_openOp (t : Byte) (k : Concern) (s : State) : KeepsOutside s (State.openOp t k s) := by
  unfold State.openOp
  split
  · exact .refl s
  · exact ⟨rfl, rfl, rfl, rfl, rfl, rfl, rfl, rfl, rfl⟩

theorem keepsOutside_endDelayOp (p : Fin 16) (r : Result) (s : State) : KeepsOutside s (s.endDelayOp p r) := by
  unfold State.endDelayOp
  split
  · exact .refl s
  · split
    · exact .refl s
    · exact (keepsOutside_setProgram ..).trans (keepsOutside_closeOp ..)

theorem keepsOutside_settleDelay (p : Fin 16) (s : State) : KeepsOutside s (s.settleDelay p) := by
  unfold State.settleDelay
  split
  · exact .refl s
  · split
    · exact keepsOutside_endDelayOp ..
    · exact .refl s

theorem keepsOutside_handProgram (p : Fin 16) (s : State) : KeepsOutside s (s.handProgram p) := by
  unfold State.handProgram
  split
  · exact .refl s
  · exact ⟨rfl, rfl, rfl, rfl, rfl, rfl, rfl, rfl, rfl⟩

theorem keepsOutside_putProgram (p : Fin 16) (x y : Program) (s : State) : KeepsOutside s (s.putProgram p x y) :=
  ((keepsOutside_setProgram ..).trans (keepsOutside_settleDelay ..)).trans (keepsOutside_handProgram ..)

/-- An operation on a program changes nothing outside the programs, the Alarm Unit and the Link Port. -/
theorem keepsOutside_progStep (p : Fin 16) (f : Program → Program) (s : State) : KeepsOutside s (s.progStep p f) := by
  unfold State.progStep
  split
  · exact .refl s
  · split
    · exact .refl s
    · exact keepsOutside_putProgram ..

/-- The handing over of a program's demands changes nothing outside the programs, the Alarm Unit and the Link Port. -/
theorem keepsOutside_handDemands (p : Fin 16) (s : State) : KeepsOutside s (s.handDemands p) := keepsOutside_progStep ..

/-- So does the handing over of its bypass. -/
theorem keepsOutside_handBypass (p : Fin 16) (s : State) : KeepsOutside s (s.handBypass p) := keepsOutside_progStep ..

/-- So does the giving or taking of its pad. -/
theorem keepsOutside_padded (p : Fin 16) (on : Bool) (s : State) : KeepsOutside s (s.padded p on) :=
  keepsOutside_progStep ..

/-- So does the handing over of its pad. -/
theorem keepsOutside_handPad (p : Fin 16) (s : State) : KeepsOutside s (s.handPad p) := keepsOutside_padded ..

/-! ## Fades and the ramp -/

/-- A tick moves a fade by one step. -/
theorem Fade.tick_eq_moved (top : Nat) (f : Fade) : f.tick top = f.moved top := by
  cases f with
  | mk level dir prev => cases dir <;> rfl

/-- The multiplier is the ramp of R143 written out. -/
theorem OutStage.multiplier_eq_rampNow (o : OutStage) : o.multiplier = o.rampNow := by
  unfold OutStage.multiplier OutStage.rampNow roundDiv
  rfl

/-- A house sample's slew tick looks at the distance: less than the step is an arrival, otherwise D_cur moves (R130). -/
theorem Align.slewTick_slewing {a : Align} (h : a.motion = .slewing) :
    a.slewTick = if a.distance < slewStep a.slewRate then { a with arriving := true } else a.slewMove := by
  simp [Align.slewTick, h]

@[simp] theorem Align.slewTick_other {a : Align} (h : a.motion ≠ .slewing) : a.slewTick = a := by
  simp [Align.slewTick, h]

/-! ## Operations on one program -/

/-- A VACANT program is left alone. -/
theorem progStep_vacant {p : Fin 16} {f : Program → Program} {s : State} (h : s.program p = none) :
    s.progStep p f = s := by
  simp [State.progStep, h]

/-- An operation that changes nothing hands nothing over. -/
theorem progStep_same {p : Fin 16} {f : Program → Program} {s : State} {x : Program} (h : s.program p = some x)
    (e : f x = x) : s.progStep p f = s := by
  simp [State.progStep, h, e]

/-- An operation that changes the program puts it in its place. -/
theorem progStep_put {p : Fin 16} {f : Program → Program} {s : State} {x : Program} (h : s.program p = some x)
    (e : f x ≠ x) : s.progStep p f = s.putProgram p x (f x) := by
  simp [State.progStep, h, e]

/-- A program with no open delay operation is put in its place, and its raw conditions are handed over. -/
theorem putProgram_noOp {p : Fin 16} {x y : Program} {s : State} (hl : y.lineDelay = x.lineDelay)
    (ho : y.align.op = none) :
    s.putProgram p x y =
      { s.setProgram p (some y) with alarm := s.alarm.handProgram s.counter p y } := by
  have h1 : (s.setProgram p (some y)).settleDelay p = s.setProgram p (some y) := by
    simp [State.settleDelay, State.endDelayOp, ho]
  simp [State.putProgram, hl, h1, State.handProgram]

theorem endDelayOp_program_ne (p q : Fin 16) (r : Result) (s : State) (h : p ≠ q) :
    (s.endDelayOp p r).program q = s.program q := by
  unfold State.endDelayOp
  split
  · rfl
  · split
    · rfl
    · exact State.program_setProgram_ne _ _ _ _ h

theorem settleDelay_program_ne (p q : Fin 16) (s : State) (h : p ≠ q) : (s.settleDelay p).program q = s.program q := by
  unfold State.settleDelay
  split
  · rfl
  · split
    · exact endDelayOp_program_ne _ _ _ _ h
    · rfl

theorem handProgram_program (p q : Fin 16) (s : State) : (s.handProgram p).program q = s.program q := by
  unfold State.handProgram
  split <;> rfl

/-- An operation on one program leaves every other program alone. -/
theorem progStep_program_ne (p q : Fin 16) (f : Program → Program) (s : State) (h : p ≠ q) :
    (s.progStep p f).program q = s.program q := by
  unfold State.progStep
  split
  · rfl
  · split
    · rfl
    · rw [State.putProgram, handProgram_program, settleDelay_program_ne _ _ _ h, State.program_setProgram_ne _ _ _ _ h]

/-! ## The Alarm Unit -/

theorem KeepsSettings.refl (a : AlarmUnit) : KeepsSettings a a := ⟨rfl, rfl, rfl, rfl, rfl, rfl⟩

theorem KeepsSettings.trans {a b c : AlarmUnit} (h : KeepsSettings a b) (k : KeepsSettings b c) : KeepsSettings a c :=
  ⟨k.kinds.trans h.kinds, k.summaries.trans h.summaries, k.contacts.trans h.contacts, k.pins.trans h.pins,
    k.silenceLevel.trans h.silenceLevel, k.boundaryTaken.trans h.boundaryTaken⟩

theorem keepsSettings_setPoint (a : AlarmUnit) (pt : Fin 118) (x : Point) : KeepsSettings a (a.setPoint pt x) :=
  ⟨rfl, rfl, rfl, rfl, rfl, rfl⟩

theorem keepsSettings_enterNotice (now : Time) (pt : Fin 118) (a : AlarmUnit) :
    KeepsSettings a (a.enterNotice now pt) := by
  unfold AlarmUnit.enterNotice
  dsimp only
  split <;> exact ⟨rfl, rfl, rfl, rfl, rfl, rfl⟩

theorem keepsSettings_protect (now : Time) (pt : Fin 118) (x : Bool) (a : AlarmUnit) :
    KeepsSettings a (a.protect now pt x) := by
  unfold AlarmUnit.protect
  split
  · exact .refl a
  · exact (keepsSettings_setPoint ..).trans (keepsSettings_enterNotice ..)

theorem keepsSettings_annunciate (now : Time) (pt : Fin 118) (x : Annunciation) (a : AlarmUnit) :
    KeepsSettings a (a.annunciate now pt x) := by
  unfold AlarmUnit.annunciate
  split
  · exact .refl a
  · exact (keepsSettings_setPoint ..).trans (keepsSettings_enterNotice ..)

theorem keepsSettings_protectIfMay (now : Time) (pt : Fin 118) (a : AlarmUnit) :
    KeepsSettings a (a.protectIfMay now pt) := by
  unfold AlarmUnit.protectIfMay
  split
  · exact keepsSettings_protect ..
  · exact .refl a

theorem keepsSettings_rise (now : Time) (pt : Fin 118) (a : AlarmUnit) : KeepsSettings a (a.rise now pt) :=
  ((keepsSettings_setPoint ..).trans (keepsSettings_annunciate ..)).trans (keepsSettings_protectIfMay ..)

theorem keepsSettings_fall (now : Time) (pt : Fin 118) (a : AlarmUnit) : KeepsSettings a (a.fall now pt) :=
  (keepsSettings_setPoint ..).trans (keepsSettings_annunciate ..)

theorem keepsSettings_handRaw (now : Time) (pt : Fin 118) (v : Bool) (a : AlarmUnit) :
    KeepsSettings a (a.handRaw now pt v) := by
  unfold AlarmUnit.handRaw
  split
  · exact .refl a
  · dsimp only
    split
    · exact (keepsSettings_setPoint ..).trans (keepsSettings_protectIfMay ..)
    · exact keepsSettings_setPoint ..

theorem keepsSettings_event (now : Time) (pt : Fin 118) (a : AlarmUnit) : KeepsSettings a (a.event now pt) := by
  unfold AlarmUnit.event
  dsimp only
  split
  · exact keepsSettings_setPoint ..
  · split
    · split
      · exact keepsSettings_setPoint ..
      · exact (keepsSettings_setPoint ..).trans (keepsSettings_protectIfMay ..)
    · exact (keepsSettings_setPoint ..).trans (keepsSettings_rise ..)

theorem keepsSettings_judge (now : Time) (pt : Fin 118) (a : AlarmUnit) : KeepsSettings a (a.judge now pt) := by
  have h1 : KeepsSettings a (a.restPoint now pt) := by
    unfold AlarmUnit.restPoint
    split
    · exact keepsSettings_setPoint ..
    · exact .refl a
  have h2 (b : AlarmUnit) : KeepsSettings b (b.filterRise now pt) := by
    unfold AlarmUnit.filterRise
    split
    · exact keepsSettings_rise ..
    · exact .refl b
  have h3 (b : AlarmUnit) : KeepsSettings b (b.filterFall now pt) := by
    unfold AlarmUnit.filterFall
    split
    · exact keepsSettings_fall ..
    · exact .refl b
  have h4 (b : AlarmUnit) : KeepsSettings b (b.retry now pt) := by
    unfold AlarmUnit.retry
    split
    · exact keepsSettings_protect ..
    · exact .refl b
  exact ((h1.trans (h2 _)).trans (h3 _)).trans (h4 _)

/-! ### The other points -/

theorem enterNotice_point (now : Time) (pt q : Fin 118) (a : AlarmUnit) :
    (a.enterNotice now pt).point q = (a.setPoint pt { a.point pt with lastChange := some now }).point q := by
  unfold AlarmUnit.enterNotice
  dsimp only
  split <;> rfl

theorem enterNotice_point_ne {pt q : Fin 118} (now : Time) (a : AlarmUnit) (h : pt ≠ q) :
    (a.enterNotice now pt).point q = a.point q := by
  rw [enterNotice_point, AlarmUnit.point_setPoint_ne _ _ _ _ h]

theorem protect_point_ne {pt q : Fin 118} (now : Time) (x : Bool) (a : AlarmUnit) (h : pt ≠ q) :
    (a.protect now pt x).point q = a.point q := by
  unfold AlarmUnit.protect
  split
  · rfl
  · rw [enterNotice_point_ne _ _ h, AlarmUnit.point_setPoint_ne _ _ _ _ h]

theorem annunciate_point_ne {pt q : Fin 118} (now : Time) (x : Annunciation) (a : AlarmUnit) (h : pt ≠ q) :
    (a.annunciate now pt x).point q = a.point q := by
  unfold AlarmUnit.annunciate
  split
  · rfl
  · rw [enterNotice_point_ne _ _ h, AlarmUnit.point_setPoint_ne _ _ _ _ h]

theorem protectIfMay_point_ne {pt q : Fin 118} (now : Time) (a : AlarmUnit) (h : pt ≠ q) :
    (a.protectIfMay now pt).point q = a.point q := by
  unfold AlarmUnit.protectIfMay
  split
  · exact protect_point_ne _ _ _ h
  · rfl

/-- A raw condition handed to one point leaves every other point alone. -/
theorem handRaw_point_ne {pt q : Fin 118} (now : Time) (v : Bool) (a : AlarmUnit) (h : pt ≠ q) :
    (a.handRaw now pt v).point q = a.point q := by
  unfold AlarmUnit.handRaw
  split
  · rfl
  · dsimp only
    split
    · rw [protectIfMay_point_ne _ _ h, AlarmUnit.point_setPoint_ne _ _ _ _ h]
    · rw [AlarmUnit.point_setPoint_ne _ _ _ _ h]

/-- A raw condition handed as it stands changes nothing. -/
theorem handRaw_same {pt : Fin 118} {v : Bool} {a : AlarmUnit} (now : Time) (h : (a.point pt).raw = v) :
    a.handRaw now pt v = a := by
  simp [AlarmUnit.handRaw, h]

theorem protect_raw (now : Time) (pt : Fin 118) (x : Bool) (a : AlarmUnit) :
    ((a.protect now pt x).point pt).raw = (a.point pt).raw := by
  unfold AlarmUnit.protect
  split
  · rfl
  · rw [enterNotice_point]; simp

/-- After a raw condition has been handed over, the point holds it. -/
theorem handRaw_raw (now : Time) (pt : Fin 118) (v : Bool) (a : AlarmUnit) :
    ((a.handRaw now pt v).point pt).raw = v := by
  unfold AlarmUnit.handRaw
  split
  · assumption
  · dsimp only
    split
    · unfold AlarmUnit.protectIfMay
      split
      · rw [protect_raw]; simp
      · simp
    · simp

/-- An event at one point leaves every other point alone. -/
theorem event_point_ne {pt q : Fin 118} (now : Time) (a : AlarmUnit) (h : pt ≠ q) :
    (a.event now pt).point q = a.point q := by
  have hs (x : Point) : (a.setPoint pt x).point q = a.point q := AlarmUnit.point_setPoint_ne _ _ _ _ h
  unfold AlarmUnit.event
  dsimp only
  split
  · exact hs _
  · split
    · split
      · exact hs _
      · rw [protectIfMay_point_ne _ _ h, hs]
    · unfold AlarmUnit.rise
      dsimp only
      rw [protectIfMay_point_ne _ _ h, annunciate_point_ne _ _ _ h, AlarmUnit.point_setPoint_ne _ _ _ _ h, hs]

end Sys2Proof.Machine
end

