-- ==== Sys2Proof/Laws/Stopband.lean ====
section
/-! SUPPORT. Why the model does not ask the whole stopband of R38's 96 kHz class: no 64 coefficients keep both that
class's passband and 100 dB from 24 kHz to half the lane's rate. The power of 64 coefficients is a polynomial of degree
at most 63 in the cosine, so its 65-point divided difference is nothing; at 27 cosines of the passband and 38 of the
stopband the bounds would make it more. -/

namespace Sys2Proof

open Machine Polynomial

/-! ## The power as a polynomial in the cosine -/

/-- The power of one coefficient more. -/
theorem powerIn_cons {R : Type} [CommRing R] (u c : R) (h : Int) (l : List Int) :
    powerIn u c (h :: l) = u * (u * (toneIn u c l).2.2 * h * (u * (toneIn u c l).2.2 * h)
      + 2 * (u * (toneIn u c l).2.2 * h) * (c * (toneIn u c l).1 - u * (toneIn u c l).2.1)) + u * u * powerIn u c l := by
  simp only [powerIn, toneIn]
  ring

/-- The unit of the cosines of the nodes, 2²⁰. -/
noncomputable def nodeUnit : ℤ[X] := C 1048576

/-- The degrees of a response and its power in the cosine. -/
theorem natDegree_response (h : Int) (l : List Int) :
    (toneIn nodeUnit X (h :: l)).1.natDegree ≤ l.length ∧ (toneIn nodeUnit X (h :: l)).2.1.natDegree ≤ l.length
      ∧ (powerIn nodeUnit X (h :: l)).natDegree ≤ l.length := by
  have hu : nodeUnit.natDegree ≤ 0 := by simp [nodeUnit]
  have hs : ∀ k : List Int, (toneIn nodeUnit X k).2.2.natDegree ≤ 0 := fun k => by
    rw [toneIn_scale]; exact natDegree_pow_le_of_le _ hu |>.trans (by simp)
  have hx : (X : ℤ[X]).natDegree ≤ 1 := natDegree_X_le
  have two : (2 : ℤ[X]).natDegree ≤ 0 := by simp
  have hn : ∀ z : Int, ((z : Int) : ℤ[X]).natDegree ≤ 0 := fun z => by simp
  have tap : ∀ (z : Int) (k : List Int), (nodeUnit * (toneIn nodeUnit X k).2.2 * (z : ℤ[X])).natDegree ≤ 0 := fun z k =>
    natDegree_mul_le_of_le (natDegree_mul_le_of_le hu (hs k)) (hn z)
  induction l generalizing h with
  | nil =>
    have a := tap h []
    refine ⟨by simpa [toneIn] using a, by simp [toneIn], ?_⟩
    rw [powerIn_cons]
    simpa [toneIn, powerIn] using natDegree_mul_le_of_le hu (natDegree_mul_le_of_le a a)
  | cons g t ih =>
    obtain ⟨ix, iy, ip⟩ := ih g
    have a := tap h (g :: t)
    have b := natDegree_mul_le_of_le hu iy
    have cx := natDegree_mul_le_of_le hx ix
    simp only [zero_add, List.length_cons] at b cx ⊢
    refine ⟨?_, (natDegree_mul_le_of_le hu ix).trans (by omega), ?_⟩
    · refine (natDegree_sub_le_of_le (natDegree_add_le_of_le a
        (natDegree_mul_le_of_le (natDegree_mul_le_of_le two hx) ix)) b).trans ?_
      simp only [sup_le_iff]; omega
    · rw [powerIn_cons]
      refine (natDegree_add_le_of_le (natDegree_mul_le_of_le hu (natDegree_add_le_of_le (natDegree_mul_le_of_le a a)
        (natDegree_mul_le_of_le (natDegree_mul_le_of_le two a) (natDegree_sub_le_of_le cx b))))
        (natDegree_mul_le_of_le (natDegree_mul_le_of_le hu hu) ip)).trans ?_
      simp only [sup_le_iff]; omega

/-! ## Divided differences -/

/-- Whether the moments of some weights at some places, those below a count, are nothing. -/
def noMoments (places : List Int) : Nat → List Int → Bool
  | 0, _ => true
  | n + 1, ws => decide (ws.sum = 0) && noMoments places n (List.zipWith (· * ·) ws places)

/-- The moments of weights that `noMoments` accepts are nothing. -/
theorem moment_of_noMoments {n : Nat} {xs ws : List Int} (h : noMoments xs n ws = true) (hl : ws.length = xs.length)
    {k : Nat} (hk : k < n) : (List.zipWith (fun w x => w * x ^ k) ws xs).sum = 0 := by
  induction n generalizing ws k with
  | zero => omega
  | succ n ih =>
    simp only [noMoments, Bool.and_eq_true, decide_eq_true_eq] at h
    have z : ∀ (f : Int → Int → Int) (g : Int → Int → Int) (a b : List Int),
        List.zipWith g (List.zipWith f a b) b = List.zipWith (fun x y => g (f x y) y) a b := by
      intro f g a b
      induction a generalizing b with
      | nil => simp
      | cons x a ih => cases b <;> simp [ih]
    cases k with
    | zero =>
      have e : List.zipWith (fun w x => w * x ^ 0) ws xs = ws := by
        have : ∀ (a b : List Int), a.length = b.length → List.zipWith (fun w x => w * x ^ 0) a b = a := by
          intro a b e
          induction a generalizing b with
          | nil => simp
          | cons x a ih => cases b with
            | nil => simp at e
            | cons y b => simp at e; simp at ih; simp [ih b e]
        exact this ws xs hl
      rw [e, h.1]
    | succ k =>
      have := ih h.2 (by simp [hl]) (k := k) (by omega)
      rw [z] at this
      simpa [pow_succ, mul_comm, mul_left_comm, mul_assoc] using this

/-- Weights without moments sum a polynomial of low degree to nothing. -/
theorem weighted_eval {n : Nat} {xs ws : List Int} (h : noMoments xs n ws = true) (hl : ws.length = xs.length)
    {p : ℤ[X]} (hp : p.natDegree < n) : (List.zipWith (fun w x => w * p.eval x) ws xs).sum = 0 := by
  have s : ∀ a b : List Int, (List.zipWith (fun w x => w * p.eval x) a b).sum
      = ∑ k ∈ Finset.range n, p.coeff k * (List.zipWith (fun w x => w * x ^ k) a b).sum := by
    intro a b
    induction a generalizing b with
    | nil => simp
    | cons x a ih =>
      cases b with
      | nil => simp
      | cons y b =>
        simp only [List.zipWith_cons_cons, List.sum_cons, ih, mul_add, Finset.sum_add_distrib, add_left_inj]
        rw [eval_eq_sum_range' hp, Finset.mul_sum]
        exact Finset.sum_congr rfl fun k _ => by ring
  rw [s]
  exact Finset.sum_eq_zero fun k hk => by rw [moment_of_noMoments h hl (Finset.mem_range.1 hk), mul_zero]

/-- Values that keep to bounds sum, weighed, to no less than the bounds allow. -/
theorem sum_bounds {f : Int → Int} {b : Int → Int × Int} {m : Int} (xs ws : List Int)
    (h : ∀ x ∈ xs, (b x).1 * m ≤ f x ∧ f x ≤ (b x).2 * m) :
    (List.zipWith (fun w x => if 0 ≤ w then w * (b x).1 else w * (b x).2) ws xs).sum * m
      ≤ (List.zipWith (fun w x => w * f x) ws xs).sum := by
  induction ws generalizing xs with
  | nil => simp
  | cons w ws ih =>
    cases xs with
    | nil => simp
    | cons x xs =>
      obtain ⟨h1, h2⟩ := h x (by simp)
      have := ih xs fun y hy => h y (by simp [hy])
      simp only [List.zipWith_cons_cons, List.sum_cons, add_mul]
      refine add_le_add ?_ this
      split
      · nlinarith
      · nlinarith

/-! ## The 96 kHz class -/

/-- Cosines of the 96 kHz class's passband, in units of 2⁻²⁰. -/
def passNodes : List Int :=
  [1048576, 1047139, 1042832, 1035666, 1025662, 1012847, 997255, 978930, 957922, 934288, 908093, 879410, 848316, 811430,
   775559, 737563, 697545, 655614, 611887, 566483, 514750, 466234, 416440, 370645, 324028, 287267, 271392]

/-- Cosines of its stopband. -/
def stopNodes : List Int :=
  [0, -6588, -19764, -39521, -65841, -98680, -137955, -177035, -215863, -260770, -298864, -342767, -386007, -428500,
   -476044, -516662, -556281, -594825, -637461, -673451, -712983, -746099, -782176, -816277, -844427, -874595, -902553,
   -925149, -948780, -970014, -986585, -1003185, -1017251, -1028748, -1037646, -1043282, -1047252, -1048576]

/-- The weights of the divided difference, times a common multiple of their denominators. -/
def nodeWeights : List Int :=
  let xs := passNodes ++ stopNodes
  let ds := xs.map fun x => ((xs.filter (· != x)).map (x - ·)).prod
  let m := ds.foldl (fun m d => Nat.lcm m d.natAbs) 1
  ds.map fun d => (m : Int) / d

/-- The bounds that R38 gives the power at a node. -/
def nodeBounds (x : Int) : Int × Int := if 0 < x then (997700063822, 1002305238078) else (0, 100)

set_option maxRecDepth 20000 in
theorem noMoments_nodes : noMoments (passNodes ++ stopNodes) 64 nodeWeights = true := by decide +kernel

set_option maxRecDepth 20000 in
theorem nodes_apart : 0 < (List.zipWith (fun w x => if 0 ≤ w then w * (nodeBounds x).1 else w * (nodeBounds x).2)
    nodeWeights (passNodes ++ stopNodes)).sum := by decide +kernel

/-- A row kept at a node bounds the power there. -/
theorem power_of_keptBy {x least greatest : Int} {bits : Nat} {l : List Int}
    (h : (ToneRow.mk (1099511627776 * x) least greatest).keptBy bits l = true) :
    least * (1048576 ^ (2 * l.length + 1) * 4 ^ bits) ≤ powerIn 1048576 x l * 1000000000000
      ∧ powerIn 1048576 x l * 1000000000000 ≤ greatest * (1048576 ^ (2 * l.length + 1) * 4 ^ bits) := by
  have u : (1152921504606846976 : Int) = 1099511627776 * 1048576 := by norm_num
  rw [keptBy_iff, u, powerIn_mul, mul_pow] at h
  have k : (0 : Int) < 1099511627776 ^ (2 * l.length + 1) := by positivity
  obtain ⟨h1, h2⟩ := h
  constructor
  · refine le_of_mul_le_mul_left ?_ k
    linarith
  · refine le_of_mul_le_mul_left ?_ k
    linarith

/-- R38's table as it stands: no 64 coefficients, at any number of fraction bits, keep the passband of the 96 kHz class
and 100 dB at every cosine from 24 kHz to half the lane's rate. -/
theorem stopband_not_kept (bits : Nat) (taps : List Int) (hl : taps.length = 64)
    (hp : keepsPassband .k96 bits taps = true) :
    ¬ ∀ n : Nat, n ≤ 1152921504606846976 → (ToneRow.mk (-n) 0 100).keptBy bits taps = true := by
  intro hs
  obtain ⟨h, t, rfl⟩ : ∃ h t, taps = h :: t := by cases taps <;> simp_all
  have hz : (C 1000000000000 * powerIn nodeUnit X (h :: t)).natDegree < 64 :=
    (natDegree_C_mul_le _ _).trans_lt ((natDegree_response h t).2.2.trans_lt (by simp at hl; omega))
  have hlen : nodeWeights.length = (passNodes ++ stopNodes).length := by
    simp only [nodeWeights, List.length_map]
  have h0 := weighted_eval noMoments_nodes hlen hz
  have ev : ∀ x : Int, (C 1000000000000 * powerIn nodeUnit X (h :: t)).eval x
      = powerIn 1048576 x (h :: t) * 1000000000000 := by
    intro x
    rw [eval_mul, eval_C, mul_comm, ← coe_evalRingHom, ← map_powerIn]
    simp [nodeUnit]
  have hb := sum_bounds (b := nodeBounds) (m := 1048576 ^ (2 * (h :: t).length + 1) * 4 ^ bits)
    (f := fun x => (C 1000000000000 * powerIn nodeUnit X (h :: t)).eval x) (passNodes ++ stopNodes) nodeWeights ?_
  · rw [h0] at hb
    have k : (0 : Int) < 1048576 ^ (2 * (h :: t).length + 1) * 4 ^ bits := by positivity
    exact absurd hb (not_le.2 (mul_pos nodes_apart k))
  · intro x hx
    simp only [ev]
    refine power_of_keptBy ?_
    have pass : ∀ x ∈ passNodes, 0 < x ∧ RateClass.k96.passbandEnd ≤ 1099511627776 * x ∧ x ≤ 1048576 := by decide
    have stop : ∀ x ∈ stopNodes, x ≤ 0 ∧ -1048576 ≤ x := by decide
    rcases List.mem_append.1 hx with hx | hx
    · obtain ⟨h1, h2, h3⟩ := pass x hx
      simp only [keepsPassband, decide_eq_true_eq] at hp
      have := hp (1152921504606846976 - 1099511627776 * x).toNat (by omega)
      rw [Int.toNat_of_nonneg (by omega)] at this
      simpa [nodeBounds, h1] using this
    · obtain ⟨h1, h2⟩ := stop x hx
      have := hs (-(1099511627776 * x)).toNat (by omega)
      rw [Int.toNat_of_nonneg (by omega), neg_neg] at this
      simpa [nodeBounds, not_lt.2 h1] using this

end Sys2Proof
end

