-- ==== Sys2Proof/Laws/Weighting.lean ====
section
/-! SUPPORT. What the weighting filter and the carried figures' neighbours do: the filter meets R70's response, a filter
at rest stays at rest on silence, and a carried whole number is one of the two beside the exact figure. -/

namespace Sys2Proof

/-- The filter that stands in for coefficients off the response meets R70's table. -/
theorem someWeighting_meetsResponse : someWeighting.meetsResponse = true := by decide +kernel

/-- R70: the part's filter meets the response. -/
theorem weighting_meetsResponse : weighting.meetsResponse = true := by
  unfold weighting
  split
  · assumption
  · exact someWeighting_meetsResponse

/-- A whole number is carried as itself. -/
theorem carryWhole_exact {bits : Nat} {n : Int} (h : n % 2 ^ bits = 0) : carryWhole bits n = n / 2 ^ bits := by
  simp [carryWhole, h]

@[simp] theorem carryWhole_zero (bits : Nat) : carryWhole bits 0 = 0 := by
  simp [carryWhole]

/-- A carried whole number lies less than 1 from the exact figure, and is it where that is whole. -/
theorem carryWhole_near (bits : Nat) (n : Int) :
    (2 ^ bits * carryWhole bits n - n).natAbs < 2 ^ bits ∧ (n % 2 ^ bits = 0 → 2 ^ bits * carryWhole bits n = n) := by
  have hp : (0 : Int) < 2 ^ bits := by positivity
  have hc : ((2 ^ bits : Nat) : Int) = 2 ^ bits := by push_cast; rfl
  have hd := Int.emod_add_mul_ediv n (2 ^ bits)
  have h0 := Int.emod_nonneg n hp.ne'
  have h1 := Int.emod_lt_of_pos n hp
  unfold carryWhole
  split
  · next h => rw [h] at hd; constructor
              · omega
              · intro _; omega
  · next h =>
    refine ⟨?_, fun e => absurd e h⟩
    split
    · rw [mul_add, mul_one]; omega
    · omega

/-- A stage at rest given silence stays at rest. -/
@[simp] theorem Stage.step_rest (bits : Nat) (g : Stage) : g.step bits 0 0 0 = (0, 0, 0) := by
  simp [Stage.step]

/-- A filter at rest given silence stays at rest (R70). -/
theorem Weighting.step_rest (w : Weighting) : w.step ⟨0, 0, 0, 0⟩ 0 = (⟨0, 0, 0, 0⟩, 0) := by
  simp [Weighting.step]

/-- One step of a channel's filter is one step of the part's filter, at rest too. -/
theorem Machine.weighSample_eq (st : FilterState) (x : Sample) :
    Machine.weighSample st x = weighting.step st (x.toInt * 2 ^ 41) := by
  unfold Machine.weighSample
  split
  · next h => obtain ⟨rfl, rfl⟩ := h; simp [Weighting.step_rest]
  · rfl

end Sys2Proof
end

