-- ==== Sys2Proof/Tests/Slice0.lean ====
section
/-! SUPPORT. Tests of single operations against the spec's worked values and tables, and, for every statement with
hypotheses, concrete states and operands that meet them, clause by clause at the edges of their ranges. -/

namespace Sys2Proof.Tests

set_option Elab.async false

open Sys2Proof.Machine

/-! ## Well-formedness: each check refuses an ill-formed command -/

theorem test_wf_schedule_inner_too_long : (Instr.schedule 1 9 0x21 (List.replicate 243 0)).wellFormed = false := by
  decide +kernel
theorem test_wf_schedule_longest : (Instr.schedule 1 9 0x21 (List.replicate 242 0)).wellFormed = true := by
  decide +kernel
theorem test_wf_define_too_many_channels :
    (Instr.defineProgram 1 0 0 (List.replicate 49 ⟨0, 0, 0, 0, 0⟩)).wellFormed = false := by decide +kernel
theorem test_wf_lane_frame_needs_sixteen_slots :
    (Instr.laneFrameStart 0 (List.replicate 15 0) false false).wellFormed = false := by decide +kernel
theorem test_wf_fault_outside_the_dram :
    (Instr.houseSampleTick 0 [⟨6144 * 15000, 0, true⟩]).wellFormed = false
      ∧ (Instr.houseSampleTick 0 [⟨6144 * 15000 - 1, 0, true⟩]).wellFormed = true := by decide +kernel
theorem test_wf_unknown_kind_is_no_request :
    (Instr.unknownKindRequest 0x21 1 []).wellFormed = false
      ∧ (Instr.unknownKindRequest 0x99 1 (List.replicate 249 0)).wellFormed = false := by decide +kernel
theorem test_wf_length_in_range_is_no_error :
    (Instr.frameLengthError 2).wellFormed = false ∧ (Instr.frameLengthError 250).wellFormed = false
      ∧ (Instr.frameLengthError 1).wellFormed = true ∧ (Instr.frameLengthError 251).wellFormed = true := by
  decide +kernel

/-! ## States for the tests and the witnesses -/

/-- Memory sized at four free pages, a quiet link, at a house counter. -/
def ready (now : Nat) : State :=
  { State.reset with
    counter := BitVec.ofNat 48 now
    pool := { Pool.reset with device := .mib64, sized := 4, free := [0, 1, 2, 3] }
    link := { LinkPort.reset with sizingEnded := true } }

/-- A channel on lane 0, slot 0, with a backup on lane 1, sent on egress 0. -/
def chan : Channel := Channel.fresh .l ⟨0, 0⟩ (some ⟨1, 0⟩) .auto ⟨0, 0⟩

/-- A program in STANDBY with one channel and a ring of two pages. -/
def prog : Program :=
  { state := .standby, channels := [chan], maxDelay := 100, rows := 2, onAir := Fade.restAt 0, openDef := none
    ring := [⟨0, false⟩, ⟨1, true⟩], align := .fresh 96, loud := { Loud.fresh 0 with standbyAt := some 0 }
    corr := .fresh, out := .fresh }

/-- Program 0 RUNNING. -/
def running : Program := { prog with state := .running, onAir := Fade.restAt 480 }

/-- Program 0 put into a state, with its conditions shown. -/
def put (x : Program) (s : State) : State := State.handProgram 0 (s.setProgram 0 (some x))

/-- Program 0 with its alignment given. -/
def aligned (a : Align) : Program := { prog with align := a }

/-- A kind's mode, and a point's record, put into a state. -/
def pointed (k : Fin 13) (x : KindSettings) (pt : Fin 118) (y : Point) (s : State) : State :=
  { s with alarm := { s.alarm with kinds := s.alarm.kinds.set k.val x k.isLt }.setPoint pt y }

/-- Settings under a protection that retries. -/
def retryKind : KindSettings := { KindSettings.default 1 0 0 0 with mode := .protectRetry }

/-- A point under its protection. -/
def shielded (pt : Fin 118) (s : State) : State :=
  { s with alarm := s.alarm.setPoint pt { s.alarm.point pt with applied := true } }

theorem shielded_program (pt : Fin 118) (s : State) (p : Fin 16) : (shielded pt s).program p = s.program p := rfl

/-- A LOCKED lane of class 48k with 63 frames in its store. -/
def locked : Lane :=
  { Lane.reset with
    enabled := true, state := .locked, clockPresent := true, lastStart := some 0, cls := some .k48
    fillQ := 63 * 2 ^ 24 }

/-- Lane 0 put into a state, with its conditions shown. -/
def putLane (x : Lane) (s : State) : State := { s.setLane 0 x with alarm := s.alarm.handLane s.counter 0 x }

/-- A state with its timebase given, and its condition shown. -/
def putTb (t : Timebase) (s : State) : State := s.putTimebase t

/-- A reference input that is PRESENT. -/
def present : RefState := ⟨true, some 0, some 0, 2, false, 0, false⟩

/-- A timebase with both inputs PRESENT that follows A. -/
def onA : Timebase := { Timebase.reset with refA := present, refB := present, selection := .a }

/-- Whether the state points of a program show its conditions. -/
def programShown (s : State) (p : Fin 16) : Bool :=
  match s.program p with
  | none => [(0 : Fin 6), 2, 3, 4].all fun k => (s.alarm.point (progPoint k p)).raw == false
  | some x =>
    (s.alarm.point (progPoint 0 p)).raw == decide (1 ≤ x.loud.silentRun)
      && (s.alarm.point (progPoint 2 p)).raw == x.corr.loud
      && (s.alarm.point (progPoint 3 p)).raw == x.corr.gainLimit
      && (s.alarm.point (progPoint 4 p)).raw == x.delayShort
      && (!x.align.op.isSome || !x.align.settled)

/-- Whether the state points of a lane show its conditions. -/
def laneShown (s : State) (l : Fin 4) : Bool :=
  (s.alarm.point (lanePoint 0 l)).raw == (s.lane l).stall && (s.alarm.point (lanePoint 1 l)).raw == (s.lane l).unlock
    && (s.alarm.point (lanePoint 3 l)).raw == (s.lane l).rateWrong

/-- Whether every state point shows the condition of its source. -/
def shown (s : State) : Bool :=
  (List.finRange 16).all (programShown s) && (List.finRange 4).all (laneShown s)
    && (s.alarm.point refLossPoint).raw == s.tb.refLoss

theorem shown_of {s : State} (h : shown s = true) : s.Shown := by
  simp only [shown, Bool.and_eq_true, List.all_eq_true, List.mem_finRange, forall_const, beq_iff_eq] at h
  refine ⟨fun p => ?_, fun l => ?_, h.2⟩
  · have hp := h.1.1 p
    cases hx : s.program p with
    | none =>
      simp only [programShown, hx, List.all_eq_true, beq_iff_eq] at hp
      simp only [State.ProgramShown, hx]
      exact hp
    | some x =>
      simp only [programShown, hx, Bool.and_eq_true, beq_iff_eq, Bool.or_eq_true, Bool.not_eq_true'] at hp
      simp only [State.ProgramShown, hx]
      refine ⟨hp.1.1.1.1, hp.1.1.1.2, hp.1.1.2, hp.1.2, fun ho => ?_⟩
      rcases hp.2 with h2 | h2
      · simp [h2] at ho
      · exact h2
  · have hl := h.1.2 l
    simp only [laneShown, Bool.and_eq_true, beq_iff_eq] at hl
    exact ⟨hl.1.1, hl.1.2, hl.2⟩

theorem ready_shown : (ready 0).Shown := shown_of (by decide +kernel)

/-- The quiet link of the small states takes a request at once. -/
theorem ready_free (now : Nat) : (ready now).LinkFree := ⟨rfl, rfl, rfl⟩

theorem put_program (x : Program) (s : State) : (put x s).program 0 = some x := by
  have h : (s.setProgram 0 (some x)).program 0 = some x := by simp [State.setProgram, State.program]
  simp only [put, State.handProgram, h]
  simpa [State.program] using h

/-- A program's state is the one put there, and its conditions are shown. -/
theorem put_ready (x : Program) (h : shown (put x (ready 0)) = true) :
    (put x (ready 0)).Shown ∧ (put x (ready 0)).program 0 = some x ∧ (put x (ready 0)).LinkFree :=
  ⟨shown_of h, put_program x (ready 0), rfl, rfl, rfl⟩

theorem prog_ready : (put prog (ready 0)).Shown ∧ (put prog (ready 0)).program 0 = some prog
    ∧ (put prog (ready 0)).LinkFree := put_ready prog (by decide +kernel)

theorem running_ready : (put running (ready 0)).Shown ∧ (put running (ready 0)).program 0 = some running
    ∧ (put running (ready 0)).LinkFree := put_ready running (by decide +kernel)

/-! ## Shared arithmetic, against the values the spec states -/

/-- R153's table at its corners. -/
theorem test_interval_codes :
    [(0, some 0), (50, some 24000), (100, some 48000), (101, some 52800), (110, some 96000), (150, some 288000),
      (190, some 480000), (191, some 528000), (250, some 3360000), (251, some 5760000), (254, some 86400000),
      (255, none)].all (fun c => decide (intervalSamples (BitVec.ofNat 8 c.1) = c.2)) = true := by decide +kernel

/-- The common check value of R177's CRC over the ASCII digits 1 to 9. -/
theorem test_crc16_of_digits : crc16 [0x31, 0x32, 0x33, 0x34, 0x35, 0x36, 0x37, 0x38, 0x39] = 0x29B1 := by
  decide +kernel

/-- 6.1: "Over the nine bytes of the ASCII digits "1" to "9" the code is 0xF4." -/
theorem test_check_code_of_digits : crc8 [0x31, 0x32, 0x33, 0x34, 0x35, 0x36, 0x37, 0x38, 0x39] = 0xF4 := by
  decide +kernel

/-- Gains of R142 worked out by hand: 2²⁰ × 10^(g/20) at 20, 11, 2.6, 0, −10 and −60 dB. -/
theorem test_gain_numbers :
    gainNumber 20 200 = 10485760 ∧ gainNumber 20 110 = 3720488 ∧ gainNumber 20 26 = 1414490
      ∧ gainNumber 20 0 = 1048576 ∧ gainNumber 20 (-100) = 331589 ∧ gainNumber 20 (-600) = 1049 := by decide +kernel

/-- The slew steps of R130's rates of 1, 5, 10 and 20 per thousand. -/
theorem test_slew_steps : slewStep 1 = 66 ∧ slewStep 5 = 328 ∧ slewStep 10 = 655 ∧ slewStep 20 = 1311 := by
  decide +kernel

/-- Two frames at 29.97 and at 59.94 are 3,203 and 1,602 samples (R126: to the nearest sample). -/
theorem test_delay_in_frames : delaySamples .r29_97 2 2 = some 3203 ∧ delaySamples .r59_94 2 2 = some 1602 := by
  decide +kernel

/-- The bounds of the four classes (R26). -/
theorem test_class_bounds :
    [636, 637, 643, 644].map classOfCount = [none, some .k32, some .k32, none]
      ∧ [877, 878, 886, 887].map classOfCount = [none, some .k44, some .k44, none]
      ∧ [955, 956, 964, 965].map classOfCount = [none, some .k48, some .k48, none]
      ∧ [1910, 1911, 1929, 1930].map classOfCount = [none, some .k96, some .k96, none] := by decide +kernel

/-- A ring of 100 ms holds two rows, of 101 ms three, of 0 ms none (R109). -/
theorem test_ring_rows : ringRows 0 = 0 ∧ ringRows 1 = 2 ∧ ringRows 100 = 2 ∧ ringRows 101 = 3 := by decide +kernel

/-- A power of 1 is −0.7 LUFS, a power of 0 has no loudness, and the result is held at +15.0 (R73). -/
theorem test_loudness : loudness 1 1 = some (-7) ∧ loudness 0 1 = none ∧ loudness 1000 1 = some 150 := by
  decide +kernel

/-! ## One command on a small state -/

/-- The state a command answers with, the reply taken off the reply place. -/
def after (c : Instr) (s : State) : State :=
  match exec c s with
  | .next t => { t with link := { t.link with reply := none } }
  | .fault _ => s
  | .refused _ => s

/-- The result of the reply a command leaves. -/
def result (c : Instr) (s : State) : Option Result :=
  match exec c s with
  | .next t => t.link.reply.map Reply.result
  | .fault _ => none
  | .refused _ => none

/-- The loop of R37 at 44.1 kHz: an e of 128 moves the integrator by 2 and the ratio by 2,048 more. -/
theorem test_ratio_loop :
    let x := { locked with cls := some .k44, rho := 15414067, rhoInt := 15414067, fillQ := 16512 * 2 ^ 16 }
    let y := (after (.controlInstant 0) (putLane x (ready 48))).lane 0
    (y.rhoInt, y.rho) = (15414069, 15416117) := by decide +kernel

/-- A store of 100 frames that hold their age, read some frames behind the newest. -/
def aged (fill : Nat) : Lane :=
  { locked with store := (List.range 100).map fun k => [BitVec.ofNat 24 k], fillQ := fill * 2 ^ 24 }

/-- R40: at the set point the path latency is 64 frames and the interpolator's 32, 96 house samples at 48 kHz. -/
theorem test_lane_is_read_its_fill_behind :
    (((aged 64).window 0).getD 31 0, ((aged 64).window 0).getD 32 0, ((aged 64).window 0).getD 33 0)
      = (65, 64, 63) ∧ (aged 64).measured = 3072 := by decide +kernel

/-- R36: a read position held at the write position reads the newest frames again. -/
theorem test_lane_reads_the_newest_again : ((aged 0).window 0).drop 32 = List.replicate 32 0 := by decide +kernel

/-- R38: the gain at 0 Hz is 0 dB. -/
theorem test_interpolator_keeps_a_constant :
    (someInterpolator .k44).sample 77 (List.replicate 64 0x123456) = 0x123456 := by decide +kernel

theorem test_start_begins_the_fade :
    ((after (.start 0 0) (put prog (ready 0))).program 0).map (fun x => (x.state, x.onAir))
      = some (.running, ⟨1, .rising, 0⟩) := by decide +kernel
theorem test_start_of_a_vacant_program : result (.start 0 0) (ready 0) = some .wrongState := by decide +kernel
theorem test_define_without_delay_is_standby :
    ((after (.defineProgram 0 3 0 [⟨8, 0, 0xFF, 0, 5⟩]) (ready 0)).program 3).map Program.state = some .standby := by
  decide +kernel
theorem test_define_too_large_has_no_space :
    result (.defineProgram 0 0 201 [⟨0, 0, 0xFF, 0, 0⟩, ⟨1, 1, 0xFF, 0, 1⟩]) (ready 0) = some .noSpace := by
  decide +kernel
theorem test_early_request_is_starting : result (.readTime 0) State.reset = some .starting := by decide +kernel
theorem test_set_delay_off_air_jumps :
    ((after (.setDelay 0 0 ⟨1000, 0, 0, 0, 1, 480⟩) (put prog (ready 0))).program 0).map (fun x => x.align.cur)
      = some (904 * 65536) := by decide +kernel
theorem test_set_kind_holds_priority :
    result (.setAlarmKind 0 0 ⟨1, 8, 0, 0, 0, 0, 0⟩) (ready 0) = some .clamped := by decide +kernel
theorem test_power_on_starts_with_ref_loss :
    ((after (.powerOnReset true) (ready 7)).alarm.point 112).raw = true
      ∧ (after (.powerOnReset true) (ready 7)).link.highRate = true := by decide +kernel
theorem test_open_sample_counts :
    ((ready 7).openSample 5).counter = 8 ∧ ((ready 7).openSample 5).alarm.pins = 5 := by decide +kernel
theorem test_frame_boundary :
    (after .frameBoundary (ready 1919)).tb.frameIndex = 0 ∧ (after .frameBoundary (ready 1920)).tb.frameIndex = 1 := by
  decide +kernel
theorem test_lane_start_wakes_a_dark_lane :
    ((after (.laneFrameStart 0 (List.replicate 16 0) false false)
      (putLane { Lane.reset with enabled := true } (ready 0))).lane 0).state = .sensing := by decide +kernel
theorem test_check_memory_takes_a_window :
    (after (.checkMemory 3) (ready 0)).pool.window = [0, 1, 2, 3] := by decide +kernel
theorem test_mute_turns_the_fade :
    ((after (.muteProgram 0 0 1) (put prog (ready 0))).program 0).map (fun x => x.out.muteFade)
      = some ⟨479, .falling, 480⟩ := by decide +kernel
/-- R157: an ALARM input set to EDGE and back to LEVEL, inactive throughout, keeps the house sample of its last raw
change. -/
theorem test_set_contact_keeps_the_last_raw_change :
    let s := { ready 0 with alarm :=
      ((ready 0).alarm.setContact 0 ⟨.alarm, false, 0, false, none, false⟩).setPoint 114 { Point.reset with lastRaw := some 5 } }
    let t := after (.setContact 0 0 ⟨4, 0, 0, 0⟩) (after (.setContact 0 0 ⟨4, 0, 0, 1⟩) s)
    (t.alarm.point 114).lastRaw = some 5 := by decide +kernel
/-- R189: the flags taken, RESTARTED and LINK_ERR, before they are cleared; R198: a report of 18 bytes. -/
theorem test_read_status_gives_the_flags :
    (match exec (.readStatus 0) { ready 0 with link := { (ready 0).link with restarted := true, linkErr := true } } with
      | .next t => t.link.reply.bind fun r => t.link.statusFlags.map fun b => (b, r.report.length, t.link.linkErr)
      | .fault _ => none
      | .refused _ => none) = some (0xC8, 18, false) := by decide +kernel
theorem test_set_contact_of_a_wrong_input : result (.setContact 0 4 ⟨0, 0, 0, 0⟩) (ready 0) = some .badValue := by
  decide +kernel

/-! ## Witnesses: the machine and its invariants -/

theorem witness_StepTakesTheFrontCommandOrIdles :
    { ready 0 with pending := [.blockEnd, .pageTestEnd] }.pending = [.blockEnd, .pageTestEnd] ∧ (ready 0).pending = [] := by
  decide +kernel

theorem witness_StepKeepsConditionsShown :
    State.Shown { ready 0 with pending := [.frameBoundary] }
      ∧ ∃ t, step { ready 0 with pending := [.frameBoundary] } = .next t :=
  ⟨shown_of (by decide +kernel), _, rfl⟩

theorem reset_claims (i : Nat) (h : i < 64) : State.reset.claims[i] = none := by simp [State.reset]

theorem reset_program (p : Fin 16) : State.reset.program p = none := by simp [State.reset, State.program]

theorem witness_StepKeepsPagesAndClaimsInPlace :
    ((ready 0).PagesPlaced ∧ ∃ t, step (ready 0) = .next t) ∧ State.reset.ClaimsMatch ∧ ∃ t, step State.reset = .next t :=
  ⟨⟨⟨by decide +kernel, by decide +kernel⟩, _, rfl⟩, fun i p c => by simp [reset_claims, reset_program], _, rfl⟩

theorem locked_bounded : locked.Bounded := by
  constructor <;> decide +kernel

theorem witness_StepKeepsLaneRatiosInTheCatchRange :
    (∀ l, (State.reset.lane l).Bounded) ∧ ∃ t, step State.reset = .next t :=
  ⟨fun l => by
    have h : State.reset.lane l = Lane.reset := by simp [State.reset, State.lane]
    rw [h]; constructor <;> decide +kernel, _, rfl⟩

theorem witness_StepKeepsProgramsAligned : State.reset.Aligned ∧ ∃ t, step State.reset = .next t :=
  ⟨⟨by decide +kernel, fun p x h => by simp [reset_program] at h⟩, _, rfl⟩

theorem witness_StepKeepsFramesWorkAndHistogramsInOrder :
    onA.InOrder ∧ State.WorkInOrder { ready 0 with
      tb := { onA with schedule := [⟨1, 4, 0x21, [0]⟩, ⟨2, 4, 0x22, [0]⟩] }
      link := { (ready 0).link with ops := [⟨3, .check, 0⟩, ⟨9, .definition 0, 0⟩] } }
    ∧ Loud.HistogramInOrder { Loud.fresh 0 with hist := [⟨0, 1, ⟨1, 0⟩⟩, ⟨850, 2 ^ 32 - 1, ⟨1, 0⟩⟩] }
    ∧ State.reset.HistogramsInOrder := by
  refine ⟨⟨?_, ?_, ?_, ?_, ?_⟩, ⟨?_, ?_, ?_, ?_, ?_, ?_⟩, ⟨?_, ?_⟩, fun p x h => by simp [reset_program] at h⟩ <;>
    decide +kernel

theorem witness_StepKeepsProtectionsAndNoticesInOrder :
    State.reset.alarm.InOrder ∧ ∃ t, step State.reset = .next t :=
  ⟨⟨by decide +kernel, by decide +kernel, by decide +kernel, by decide +kernel⟩, _, rfl⟩

theorem witness_StepKeepsTheDramCanonical :
    Dram.wf [(0, 0x12), (24, 0x01), (25, 0x7F)] = true ∧ Dram.blank 24 ≠ 0x01 := by decide +kernel

/-! ## Witnesses: the link -/

theorem witness_RequestBodiesReadBack :
    requestFits (.schedule 9 0x21 (List.replicate 242 0)) = true
      ∧ requestFits (.defineProgram 0 100 [⟨0, 0, 0xFF, 0, 0⟩]) = true ∧ requestFits .identify = true := by decide +kernel

theorem witness_FramesReceivedByteByByteAreTheirCommands :
    (ready 0).link.receiver = .hunt ∧ (ready 0).link.buffer = []
      ∧ requestOf (.start 5 0) = some (5, .start 0) ∧ requestFits (.start 0) = true
      ∧ isRequestKind 0x99 = false ∧ (List.replicate 248 (0 : Byte)).length ≤ 248
      ∧ isRequestKind 0x21 = true ∧ parseRequest 0x21 [] = none ∧ parseRequest 0x21 (List.replicate 248 0) = none
      ∧ (ready 0).link.reply = none ∧ (ready 0).outstanding < 40
      ∧ State.reset.link.receiver = .hunt ∧ State.reset.link.sizingEnded = false := by decide +kernel

theorem witness_IdentifyReportsThePart :
    ([0] : List Byte) ≠ [] ∧ (ready 0).link.buffer = [] ∧ (ready 0).link.reply = none := by decide +kernel

theorem witness_ReadStatusReportsAndClears :
    { ready 0 with link := { (ready 0).link with crcErrors := 65535 } }.link.buffer = []
      ∧ { ready 0 with link := { (ready 0).link with crcErrors := 65535 } }.link.reply = none := by decide +kernel

theorem witness_RestartClearsWorkAndKeepsSettings : (put prog (ready 0)).LinkFree := ⟨rfl, rfl, rfl⟩

/-- A frame that waits in the receive buffer. -/
def waiting : Frame := ⟨0x21, 0, [0]⟩

/-- The quiet state with its link given. -/
def linked (k : LinkPort) : State := { ready 0 with link := k }

theorem witness_RequestsAreTurnedAwayWaitOrOverrun :
    isRequestKind 0x99 = false ∧ (ready 0).link.buffer = [] ∧ (ready 0).link.reply = none
      ∧ requestOf (.start 5 0) = some (5, .start 0) ∧ Request.start 0 ≠ .identify ∧ Request.start 0 ≠ .readStatus
      ∧ State.reset.link.sizingEnded = false ∧ State.reset.link.buffer = [] ∧ State.reset.link.reply = none
      ∧ State.reset.outstanding < 40
      ∧ (linked { (ready 0).link with buffer := List.replicate 3 waiting }).link.buffer ≠ []
      ∧ (linked { (ready 0).link with buffer := List.replicate 3 waiting }).link.buffer.length < 4
      ∧ (linked { (ready 0).link with buffer := List.replicate 4 waiting }).link.buffer ≠ []
      ∧ 4 ≤ (linked { (ready 0).link with buffer := List.replicate 4 waiting }).link.buffer.length
      ∧ (linked { (ready 0).link with reply := some ⟨1, 0, .ok, []⟩ }).link.reply.isSome = true
      ∧ requestOf (.checkMemory 5) = some (5, .checkMemory) ∧ takesTag (requestKind (.checkMemory)) = true
      ∧ 40 ≤ (linked { (ready 0).link with completions := List.replicate 40 ⟨1, 0x20, .done, none, []⟩ }).outstanding := by
  decide +kernel

/-- A tag that is held, and a full operation table, for each of the three requests that open an operation. -/
theorem witness_RequestsAreTurnedAwayWaitOrOverrun_tags :
    [(Instr.checkMemory 7, Request.checkMemory), (.setDelay 7 0 ⟨5, 0, 0, 0, 1, 480⟩, .setDelay 0 ⟨5, 0, 0, 0, 1, 480⟩),
        (.defineProgram 7 0 0 [], .defineProgram 0 0 [])].all (fun c =>
          decide (requestOf c.1 = some (7, c.2)) && opensOp c.2) = true
      ∧ (linked { (ready 0).link with ops := [⟨7, .check, 0⟩] }).LinkFree
      ∧ (linked { (ready 0).link with ops := [⟨7, .check, 0⟩] }).tagHeld 7 = true
      ∧ (linked { (ready 0).link with ops := List.replicate 8 ⟨1, .check, 0⟩ }).LinkFree
      ∧ (linked { (ready 0).link with ops := List.replicate 8 ⟨1, .check, 0⟩ }).tagHeld 7 = false
      ∧ (linked { (ready 0).link with ops := List.replicate 8 ⟨1, .check, 0⟩ }).outstanding < 40 := by
  refine ⟨?_, ⟨rfl, rfl, rfl⟩, ?_, ⟨rfl, rfl, rfl⟩, ?_, ?_⟩ <;> decide +kernel

/-- The bytes of a START frame without its last CRC byte, the length byte first. -/
def startBytes : List Byte :=
  [3, 0x21, 0, 0] ++ (bigEndian 2 (crc16 [3, 0x21, 0, 0]).toNat).take 1

theorem witness_ReceiverFollowsItsTableAndTakesFrames :
    (ready 0).link.receiver = .hunt ∧ (ready 0).link.buffer = []
      ∧ (linked { (ready 0).link with receiver := .length }).link.receiver = .length
      ∧ 2 ≤ (2 : Byte).toNat ∧ (250 : Byte).toNat ≤ 250 ∧ (1 : Byte).toNat < 2 ∧ 250 < (251 : Byte).toNat
      ∧ (linked { (ready 0).link with receiver := .collect 2 [3] }).link.receiver = .collect 2 [3]
      ∧ (linked { (ready 0).link with receiver := .collect 1 startBytes }).link.receiver = .collect 1 startBytes
      ∧ 2 ≤ startBytes.length
      ∧ (startBytes ++ [(bigEndian 2 (crc16 [3, 0x21, 0, 0]).toNat).getD 1 0 + 1]).drop (startBytes.length - 1)
          ≠ bigEndian 2 (crc16 (startBytes.take (startBytes.length - 1))).toNat
      ∧ (linked { (ready 0).link with
          receiver := .collect 1 startBytes, reply := some ⟨1, 0, .ok, []⟩ }).link.reply.isSome = true
      ∧ startBytes ++ [(bigEndian 2 (crc16 [3, 0x21, 0, 0]).toNat).getD 1 0]
          = (BitVec.ofNat 8 (([0] : List Byte).length + 2) :: 0x21 :: 0 :: [0])
            ++ bigEndian 2 (crc16 (BitVec.ofNat 8 (([0] : List Byte).length + 2) :: 0x21 :: 0 :: [0])).toNat
      ∧ Receiver.collect 2 [3] ≠ .hunt
      ∧ 241 ≤ since (ready 241).counter 0 ∧ since (ready 240).counter 0 < 241 := by decide +kernel

/-- The last CRC byte of a START frame: taken at once, kept waiting behind a reply, an overrun, and behind a frame that
the reserve holds back; and with a CRC that differs, nothing is taken. -/
theorem witness_ReceiverFollowsItsTableAndTakesFrames_taking :
    let last := (bigEndian 2 (crc16 [3, 0x21, 0, 0]).toNat).getD 1 0
    let k := { (ready 0).link with receiver := .collect 1 startBytes }
    let full := List.replicate 4 waiting
    let behind : LinkPort :=
      { k with buffer := [⟨0x34, 5, []⟩], completions := List.replicate 40 ⟨1, 0x20, .done, none, []⟩ }
    let seen := fun (b : Byte) (k : LinkPort) =>
      match exec (.frameReceived b) (linked k) with
      | .next t => (t.link.reply.map fun r => (r.kind, r.result), t.link.buffer.length, t.link.overruns, t.link.crcErrors)
      | _ => (none, 0, 0, 0)
    waiting.carries (.start 0 0) ∧ ¬(linked k).reserveHolds waiting ∧ (linked behind).reserveHolds ⟨0x34, 5, []⟩
      ∧ seen last k = (some (0x21, .wrongState), 0, 0, 0)
      ∧ seen last { k with sizingEnded := false } = (some (0x21, .starting), 0, 0, 0)
      ∧ seen last { k with reply := some ⟨1, 0, .ok, []⟩, buffer := full } = (some (1, .ok), 4, 1, 0)
      ∧ seen last behind = (none, 2, 0, 0) ∧ seen (last + 1) k = (none, 0, 0, 1)
      ∧ (∀ kept, (linked { k with receiver := .hunt }).link.receiver ≠ .collect 1 kept)
      ∧ isRequestKind 0x21 = true ∧ parseRequest 0x21 [] = none :=
  ⟨Or.inl ⟨.start 0, by decide +kernel, by decide +kernel, by decide +kernel⟩, by
      simp only [State.reserveHolds]; decide +kernel, by
      simp only [State.reserveHolds]; decide +kernel, by decide +kernel, by decide +kernel, by decide +kernel,
    by decide +kernel, by decide +kernel, by simp [linked], by decide +kernel, by decide +kernel⟩

theorem witness_TransmitterServesReplyThenCompletionThenNotice :
    (linked { (ready 0).link with sending := some [] }).link.sending = some []
      ∧ (linked { (ready 0).link with sending := some [] }).link.buffer = [] := by decide +kernel

/-- A frame that waits: behind a reply with the transmitter busy and idle, and with the reply place empty. -/
theorem witness_TransmitterServesReplyThenCompletionThenNotice_waiting :
    (requestOf (.start 0 0) = some (0, .start 0) ∧ requestFits (.start 0) = true
        ∧ waiting = ⟨requestKind (.start 0), 0, requestBody (.start 0)⟩) ∧ isRequestKind 0x99 = false
      ∧ [((some [] : Option (List Byte)), some (⟨1, 0, .ok, []⟩ : Reply)), (none, some ⟨1, 0, .ok, []⟩), (some [], none), (none, none)].all
          (fun c =>
            let k := { (ready 0).link with buffer := [waiting, waiting], sending := c.1, reply := c.2 }
            decide ((linked k).link.buffer = waiting :: [waiting] ∧ (linked k).link.sending = c.1
              ∧ (linked k).link.reply = c.2)) = true
      ∧ takesTag waiting.kind = false ∧ (linked (ready 0).link).link.sending = none
      ∧ (requestOf (.checkMemory 5) = some (5, .checkMemory) ∧ requestFits .checkMemory = true
        ∧ takesTag (requestKind .checkMemory) = true
        ∧ 40 ≤ (linked { (ready 0).link with
            completions := List.replicate 40 ⟨1, 0x20, .done, none, []⟩ }).outstanding) := by
  decide +kernel

theorem witness_HouseClockAdvancesAndEgressSlotsAreSent : (ready 0).link.buffer = [] := rfl

theorem witness_HouseClockMovesAndMeasuresTheAudio :
    (put running (putLane locked (ready 48))).link.buffer = [] ∧ (put running (putLane locked (ready 48))).program 0 = some running
      ∧ locked.state = .locked ∧ chan.inUse.lane = 0 ∧ (1 ≤ 1 ∧ 20 ≤ 20) ∧ (0 ≤ 480 ∧ 480 ≤ 480)
      ∧ (((8388607 : Sample).toInt * (480 : Nat)) % 480 = 0) :=
  ⟨rfl, put_program _ _, by decide +kernel⟩

set_option maxRecDepth 100000 in
/-- The last address of the sized pages, after a tick, and the first beyond them. -/
theorem witness_HouseClockMovesAndMeasuresTheAudio_faults :
    Dram.wf (ready 0).dram = true
      ∧ (match exec (.houseSampleTick 0 []) (ready 0) with
        | .next t => decide (t.pool.sized * 15000 ≤ 60000) && decide (59999 < t.pool.sized * 15000)
        | .fault _ => false
        | .refused _ => false) = true := by decide +kernel

/-- Bypass in a state of its own, over a line delay that falls toward 100 samples. -/
def bypassing (b : Bypass) (m : Motion) (applied : Bool) : Align :=
  { Align.fresh 96 with
    value := 196, target := 100, cur := 0, motion := m, fade := ⟨9, .falling, 10⟩, bypass := b, applied := applied
    op := some ⟨7, 196, false⟩ }

/-- A program with its alignment and its pad given. -/
def handed (x : Program) (a : Align) (pad : Int) : Program := { x with align := a, out := { x.out with pad := pad } }

/-- PROG_OVER or PROG_MEMORY in a protect mode, with no protection applied. -/
def guarded (k : Fin 13) (s : State) : State :=
  { s with alarm := { s.alarm with kinds := s.alarm.kinds.set k.val { s.alarm.kind k with mode := .protectLatched } k.isLt } }

/-- A program that reads 100 samples back, and one whose next sample at full level is over. -/
def reading : Program := handed running { bypassing .none .slewing true with cur := 100 * 65536, op := none } 0
def nearlyOver : Program :=
  { handed running running.align (-100) with channels := [{ chan with overRun := 15, delayed := 0x7FFFFF }] }

theorem witness_ProtectionsAreHandedOverAtTheEndOfTheSample :
    (ready 0).Shown ∧ (ready 0).link.buffer = []
      ∧ (shielded 0 (put prog (ready 0))).Shown ∧ (shielded 0 (put prog (ready 0))).program 0 = some prog
      ∧ (shielded 32 (put prog (ready 0))).Shown ∧ ((shielded 32 (put prog (ready 0))).alarm.point (progPoint 1 0)).applied = true
      ∧ prog.out.pad ≠ -100 ∧ (handed prog prog.align (-100)).out.pad ≠ 0
      ∧ [(running, bypassing .none .steady false), (running, bypassing .none .cutOut false),
          (prog, { bypassing .none .steady false with op := none }), (prog, bypassing .inEffect .cutOut false),
          (running, bypassing .entering .steady false), (running, bypassing .inEffect .cutOut false)].all (fun c =>
            shown (shielded 96 (put { c.1 with align := c.2 } (ready 0)))
              && ((shielded 96 (put { c.1 with align := c.2 } (ready 0))).alarm.point (progPoint 5 0)).applied
                != c.2.applied) = true
      ∧ [(running, bypassing .entering .steady true), (running, bypassing .inEffect .steady true),
          (prog, bypassing .entering .steady true), (prog, { bypassing .inEffect .steady true with op := none })].all (fun c =>
            shown (put { c.1 with align := c.2 } (ready 0))
              && ((put { c.1 with align := c.2 } (ready 0)).alarm.point (progPoint 5 0)).applied != c.2.applied) = true
      ∧ ((put reading (guarded 9 { ready 1000 with stuck := [(groupAddress 0 112, 5)] })).Shown ∧ reading.align.applied = true
        ∧ (((put reading (guarded 9 { ready 1000 with stuck := [(groupAddress 0 112, 5)] })).readRing 0).alarm.point
            (progPoint 5 0)).applied = true)
      ∧ ((put nearlyOver (guarded 5 (ready 0))).Shown ∧ nearlyOver.out.pad = -100
        ∧ (((put nearlyOver (guarded 5 (ready 0))).formOutput 0).alarm.point (progPoint 1 0)).applied = true) := by
  refine ⟨ready_shown, ?_, shown_of ?_, (shielded_program _ _ _).trans (put_program _ _), shown_of ?_, ?_, ?_, ?_, ?_, ?_, ⟨shown_of ?_, ?_, ?_⟩,
    shown_of ?_, ?_, ?_⟩ <;> decide +kernel

/-- Program 0 on air with a full-level sample, its over run one short of the count, under a pad and a manual trim. -/
def loudest (pad : Int) (delayed : Sample) : Program :=
  { running with
    out := { OutStage.fresh with pad := pad, total := pad }
    channels := [{ chan with overRun := 15, delayed := delayed }] }

/-- A house sample's output: its own overs apply the pad, the ramp's first step keeps the sample over, or under; a
pad that stands; and a quiet sample. -/
theorem witness_OutputSamplesMutesAndOvers_formed :
    let held := fun t : State => (t.alarm.point (progPoint 1 0)).applied
    let under := fun (x : Program) (pad : Int) =>
      held (((put x (guarded 5 (ready 0))).setProgram 0 (some (x.withPad pad))).outputUnder 0)
    [loudest 0 0x7FFFFF, loudest 0 8292584, loudest (-100) 0x7FFFFF, loudest 0 100].all (fun x =>
        shown (put x (guarded 5 (ready 0))) && !held (put x (guarded 5 (ready 0)))) = true
      ∧ (held ((put (loudest 0 0x7FFFFF) (guarded 5 (ready 0))).outputUnder 0) = true
        ∧ under (loudest 0 0x7FFFFF) (-100) = true)
      ∧ (held ((put (loudest 0 8292584) (guarded 5 (ready 0))).outputUnder 0) = true
        ∧ under (loudest 0 8292584) (-100) = false)
      ∧ (held ((put (loudest (-100) 0x7FFFFF) (guarded 5 (ready 0))).outputUnder 0) = true
        ∧ (loudest (-100) 0x7FFFFF).out.pad = -100)
      ∧ held ((put (loudest 0 100) (guarded 5 (ready 0))).outputUnder 0) = false
      ∧ (shown (shielded 32 (put (loudest (-100) 100) (guarded 5 (ready 0)))) = true
        ∧ held ((shielded 32 (put (loudest (-100) 100) (guarded 5 (ready 0)))).outputUnder 0) = true) := by
  decide +kernel

/-- 8.2: a total held at +20.0 dB under a pad: the over that applies it is formed at 10,485,760 − 14,094, the ramp's
first step, and 838,861 × 10,471,666 / 2²⁰ rounds to 8,377,335. -/
theorem test_pad_ramps_in_its_own_sample :
    let o := { OutStage.fresh with
      applied := 120, total := 200, gainHeld := true, rampStart := 10485760, rampTarget := 10485760, multUsed := 10485760 }
    let x := { loudest 0 838861 with out := o, corr := { Correction.fresh with settings :=
      { LoudSettings.default with manualTrim := 90 } } }
    (((put x (guarded 5 (ready 0))).formOutput 0).program 0).map (fun y =>
        (y.out.total, y.out.gainHeld, y.out.rampStep, y.out.multiplier, y.channels.map fun ch => ch.output.toInt))
      = some (110, false, 1, 10471666, [8377335]) := by decide +kernel

/-! ## Witnesses: the House Timebase -/

theorem witness_FramesEndAtTheirLength :
    (ready 1920).Shown ∧ (ready 1920).tb.realign = false
      ∧ (ready 1920).tb.frameLen ≤ since (ready 1920).counter (ready 1920).tb.frameStart
      ∧ (ready 1920).tb.pendingRate = none
      ∧ (putTb { Timebase.reset with pendingRate := some .r60 } (ready 1920)).Shown
      ∧ (putTb { Timebase.reset with pendingRate := some .r60 } (ready 1920)).tb.selection = .free
      ∧ (putTb { onA with pendingRate := some .r60 } (ready 1920)).Shown ∧ onA.selection ≠ .free
      ∧ (putTb { onA with realign := true } (ready 2880)).Shown
      ∧ 3 * onA.frameLen / 2 ≤ since (ready 2880).counter onA.frameStart := by
  refine ⟨shown_of ?_, ?_, ?_, ?_, shown_of ?_, ?_, shown_of ?_, ?_, shown_of ?_, ?_⟩ <;> decide +kernel

/-- The further ways a frame rate takes effect: with a realignment, in FREE with both inputs ABSENT, in a hold. -/
theorem witness_FramesEndAtTheirLength_rates :
    (putTb { onA with realign := true, pendingRate := some .r60 } (ready 2880)).Shown
      ∧ (putTb { Timebase.reset with pendingRate := some .r50 } (ready 1920)).Shown
      ∧ (Timebase.reset.refA.present = false ∧ Timebase.reset.refB.present = false)
      ∧ (putTb { onA with refA := .reset, holdSince := some 0, pendingRate := some .r50 } (ready 1920)).Shown
      ∧ ¬ onA.frameLen ≤ since (ready 1919).counter onA.frameStart
      ∧ ¬ 3 * onA.frameLen / 2 ≤ since (ready 2879).counter onA.frameStart
      ∧ FrameRate.fractional .r29_97 = true ∧ { onA with rate := .r29_97, nextCadenceZero := true }.nextCadenceZero = true := by
  refine ⟨shown_of ?_, shown_of ?_, ?_, shown_of ?_, ?_⟩ <;> decide +kernel

theorem witness_ReferencePulsesAreTimedAndQualify :
    (putTb onA (ready 1920)).Shown ∧ onA.pendingRate = none ∧ onA.selection ≠ .free ∧ Timebase.reset.selection = .free
      ∧ ({ Timebase.reset with refA := { present with present := false, validRun := 1 } }.ref .a).lastPulse = some 0
      ∧ FrameRate.validInterval .r25 1919 = true ∧ FrameRate.validInterval .r25 1921 = true
      ∧ FrameRate.validInterval .r25 1918 = false ∧ FrameRate.validInterval .r25 1922 = false := by
  refine ⟨shown_of ?_, ?_⟩ <;> decide +kernel

/-- A timebase in FREE whose input A is one valid pulse away from PRESENT, its frame begun at a house sample. -/
def qualifying (from_ : Nat) (other : RefState) : Timebase :=
  { Timebase.reset with
    refA := { present with present := false, validRun := 1 }, refB := other, frameStart := BitVec.ofNat 48 from_ }

/-- Selections out of FREE: by the pulse itself, at and before half the frame, and of the preferred one of two. -/
theorem witness_ReferencePulsesAreTimedAndQualify_selections :
    ((after (.referencePulse .a false) (putTb (qualifying 960 .reset) (ready 1920))).tb.selection = .a
        ∧ (qualifying 960 .reset).frameLen ≤ 2 * since (ready 1920).counter (qualifying 960 .reset).frameStart)
      ∧ ((after (.referencePulse .a false) (putTb (qualifying 961 .reset) (ready 1920))).tb.selection = .a
        ∧ ¬ (qualifying 961 .reset).frameLen ≤ 2 * since (ready 1920).counter (qualifying 961 .reset).frameStart)
      ∧ (after (.referencePulse .a false) (putTb { qualifying 960 present with preference := .b } (ready 1920))).tb.selection
          = .b
      ∧ (after (.referencePulse .a false) (putTb (qualifying 960 present) (ready 1000))).tb.selection = .b := by
  decide +kernel

/-- R7: input A, preferred, becomes PRESENT while B is selected: the revert timer starts at this pulse. -/
theorem witness_ReferencePulsesAreTimedAndQualify_revert :
    let t := { qualifying 0 present with selection := .b, revertive := true }
    let u := (after (.referencePulse .a false) (putTb t (ready 1920))).tb
    t.revertSince = none ∧ (u.ref .a).present = true ∧ u.selection = .b ∧ u.revertSince = some 1920
      ∧ (after (.referencePulse .a false) (putTb t (ready 1900))).tb.revertSince = none := by decide +kernel

theorem witness_SelectedPulsesKeepOrRealignTheFrame :
    onA.pendingRate = none ∧ onA.selection = selectionOf .a ∧ (onA.ref .a).present = true
      ∧ (onA.ref .a).lastPulse = some 0 ∧ onA.rate.validInterval (since (ready 1920).counter 0) = true
      ∧ [2, 3, 959, 960, 1917, 1918].map (fun o =>
          let t := { onA with frameStart := BitVec.ofNat 48 (1920 - o) }
          let k := since (ready 1920).counter t.frameStart
          (decide (k ≤ 2 ∨ t.frameLen ≤ k + 2), decide (2 * k < t.frameLen)))
        = [(true, true), (false, true), (false, true), (false, false), (false, false), (true, false)]
      ∧ { onA with realign := true }.realign = true := by decide +kernel

/-- A fractional timebase on A whose frame in progress began some samples before 1602. -/
def cadenced (o : Nat) : Timebase :=
  { onA with rate := .r29_97, cadence := 3, frameLen := 1601, frameStart := BitVec.ofNat 48 (1602 - o) }

/-- Marked pulses in step near the two ends of the frame, and a pulse that is a boundary with a frame rate pending. -/
theorem witness_SelectedPulsesKeepOrRealignTheFrame_markers :
    (cadenced 2).rate.fractional = true ∧ (cadenced 2).rate.validInterval (since (ready 1602).counter 0) = true
      ∧ [2, 1599].map (fun o => since (ready 1602).counter (cadenced o).frameStart) = [2, 1599]
      ∧ (2 ≤ 2 ∧ 1601 ≤ 1599 + 2) ∧ (cadenced 801).frameLen ≤ 2 * since (ready 1602).counter (cadenced 801).frameStart
      ∧ { cadenced 801 with pendingRate := some .r60 }.pendingRate = some .r60 := by decide +kernel

/-- A hold that began at 0, with a valid pulse on input B at a house sample half a frame or more in. -/
def pulsedB (t : Timebase) (now : Time) : Timebase :=
  { t with refA := .reset, holdSince := some 0, refB := { t.refB with present := true, lastValid := some now } }

theorem witness_ReferencesAreLostHeldAndReverted :
    (putTb onA (ready 2880)).Shown ∧ (onA.ref .a).present = true ∧ (onA.ref .a).lastValid = some 0
      ∧ 10 * since (ready 2880).counter 0 ≤ 3 * onA.rate.fiveFrames
      ∧ 3 * onA.rate.fiveFrames < 10 * since (ready 2881).counter 0
      ∧ (putTb { onA with refA := .reset, holdSince := some 0 } (ready 24000)).Shown
      ∧ intervalSamples onA.holdCode = some 24000 ∧ 24000 ≤ since (ready 24000).counter 0
      ∧ ({ onA with refB := .reset }.ref (otherInput .a)).present = false ∧ (onA.ref (otherInput .a)).present = true
      ∧ intervalSamples { onA with holdCode := 255 }.holdCode = none
      ∧ (putTb { onA with selection := .b, revertSince := some 0 } (ready 96000)).Shown
      ∧ 96000 ≤ since (ready 96000).counter 0
      ∧ ¬(putTb { onA with refA := .reset, holdSince := some 0 } (ready 24000)).PulsedLate .b
      ∧ (putTb (pulsedB onA 24000) (ready 24000)).Shown ∧ (pulsedB onA 24000).holdSince = some 0
      ∧ ((pulsedB onA 24000).ref .b).present = true ∧ (putTb (pulsedB onA 24000) (ready 24000)).PulsedLate .b
      ∧ ¬(putTb { onA with selection := .b, revertSince := some 0 } (ready 96000)).PulsedLate .a
      ∧ (putTb { pulsedB onA 96000 with preference := .b, revertSince := some 0 } (ready 96000)).Shown
      ∧ (putTb { pulsedB onA 96000 with preference := .b, revertSince := some 0 } (ready 96000)).PulsedLate .b := by
  simp only [State.PulsedLate]
  refine ⟨shown_of ?_, ?_, ?_, ?_, ?_, shown_of ?_, ?_, ?_, ?_, ?_, ?_, shown_of ?_, ?_, ?_, shown_of ?_, ?_, ?_, ?_,
    ?_, shown_of ?_, ?_⟩ <;> decide +kernel

theorem witness_SetTimebaseTakesFourSettings :
    (putTb onA (ready 0)).LinkFree ∧ (putTb onA (ready 0)).Shown ∧ 6 ≤ (6 : Byte).toNat ∧ 2 ≤ (2 : Byte).toNat
      ∧ FrameRate.r60.code = (5 : Byte).toNat ∧ refCode .b = (1 : Byte).toNat ∧ flagCode true = (1 : Byte).toNat
      ∧ onA.holdSince = none := by
  refine ⟨⟨rfl, rfl, rfl⟩, shown_of ?_, ?_⟩ <;> decide +kernel

/-- A SET_TIMEBASE that finds a hold running: its new time past or to come, the other input PRESENT, ABSENT, or with a
valid pulse in this house sample. -/
theorem witness_SetTimebaseTakesFourSettings_hold :
    let held := { onA with refA := .reset, holdSince := some 0 }
    let lone := { held with refB := .reset }
    (putTb held (ready 24000)).LinkFree ∧ (putTb held (ready 24000)).Shown ∧ (putTb lone (ready 24000)).Shown
      ∧ (putTb (pulsedB onA 24000) (ready 24000)).Shown ∧ held.selection = selectionOf .a
      ∧ intervalSamples 50 = some 24000 ∧ 24000 ≤ since (ready 24000).counter 0 ∧ since (ready 23999).counter 0 < 24000
      ∧ intervalSamples 255 = none ∧ (held.ref .b).present = true ∧ (lone.ref .b).present = false
      ∧ ¬(putTb held (ready 24000)).PulsedLate .b ∧ (putTb (pulsedB onA 24000) (ready 24000)).PulsedLate .b := by
  simp only [State.PulsedLate]
  refine ⟨⟨rfl, rfl, rfl⟩, shown_of ?_, shown_of ?_, shown_of ?_, ?_⟩ <;> decide +kernel

/-- A schedule of n entries, due in frames 2 and on. -/
def entries (n : Nat) : List SchedEntry :=
  (List.range n).map fun i => ⟨BitVec.ofNat 8 (i + 1), BitVec.ofNat 40 (i + 2), 0x21, [0]⟩

theorem witness_ScheduleIsCheckedInOrder :
    (ready 0).LinkFree ∧ (ready 0).outstanding < 40
      ∧ (0x41 : Byte) ∉ ([0x21, 0x22, 0x24, 0x30, 0x29, 0x28, 0x38] : List Byte)
      ∧ parseRequest 0x21 [] = none ∧ (parseRequest 0x21 [0]).isSome = true
      ∧ { ready 0 with tb := { Timebase.reset with schedule := entries 1 } }.tagHeld 1 = true
      ∧ (ready 0).tagHeld 7 = false ∧ (0 : FrameIndex).toNat ≤ (ready 0).tb.frameIndex.toNat
      ∧ (ready 0).tb.frameIndex.toNat < (1 : FrameIndex).toNat
      ∧ { ready 0 with tb := { Timebase.reset with schedule := entries 32 } }.outstanding < 40
      ∧ { ready 0 with tb := { Timebase.reset with schedule := entries 32 } }.tagHeld 77 = false
      ∧ 32 ≤ (entries 32).length ∧ (entries 31).length < 32
      ∧ State.WorkInOrder { ready 0 with tb := { Timebase.reset with schedule := entries 3 } } := by
  refine ⟨ready_free 0, ?_, ?_, ?_, ?_, ?_, ?_, ?_, ?_, ?_, ?_, ?_, ?_, ⟨?_, ?_, ?_, ?_, ?_, ?_⟩⟩ <;> decide +kernel

/-- A state at a boundary with one entry due in the frame about to begin. -/
def dueEntry (e : SchedEntry) (s : State) : State := putTb { Timebase.reset with schedule := [e] } s

theorem witness_ScheduledRequestsRunAtTheirFrame :
    (dueEntry ⟨3, 1, 0x21, [0]⟩ (put prog (ready 1920))).Shown
      ∧ (dueEntry ⟨3, 1, 0x21, [0]⟩ (ready 1920)).Shown
      ∧ (dueEntry ⟨3, 1, 0x21, [0]⟩ (ready 1920)).tb.realign = false
      ∧ (dueEntry ⟨3, 1, 0x21, [0]⟩ (ready 1920)).tb.frameLen
          ≤ since (ready 1920).counter (dueEntry ⟨3, 1, 0x21, [0]⟩ (ready 1920)).tb.frameStart
      ∧ (1 : FrameIndex) = (dueEntry ⟨3, 1, 0x21, [0]⟩ (ready 1920)).tb.frameIndex + 1
      ∧ (dueEntry ⟨3, 1, 0x21, [0]⟩ (put prog (ready 1920))).program 0 = some prog ∧ prog.state = .standby
      ∧ (ready 1920).program 0 = none ∧ (0 : Byte).toNat = (0 : Fin 16).val
      ∧ (requestBody (.setDelay 0 ⟨5, 0, 0, 0, 1, 480⟩)).length = 11
      ∧ 8 ≤ (List.replicate 8 (⟨1, .check, 0⟩ : OpEntry)).length := by
  refine ⟨shown_of ?_, shown_of ?_, ?_, ?_, ?_, ?_, ?_, ?_, ?_, ?_, ?_⟩ <;> decide +kernel

/-- Two entries due in one frame and one later; a SET_DELAY that finds the table full, and one that finds room. -/
theorem witness_ScheduledRequestsRunAtTheirFrame_order :
    let three : List SchedEntry := [⟨9, 1, 0x21, [0]⟩, ⟨3, 1, 0x38, [0, 1]⟩, ⟨4, 2, 0x22, [0]⟩]
    let s := putTb { Timebase.reset with schedule := three } (put prog (ready 1920))
    let delays := putTb { Timebase.reset with schedule := [⟨7, 1, 0x30, requestBody (.setDelay 0 ⟨577, 0, 1, 0, 1, 480⟩)⟩] }
      (put running (ready 1920))
    s.Shown ∧ s.WorkInOrder ∧ s.tb.frameIndex.toNat + 1 < 2 ^ 40
      ∧ (three.filter fun e => decide (e.due = s.tb.frameIndex + 1)).length = 2
      ∧ [(0x21, [0]), (0x22, [0]), (0x24, [0, 0xFF, 1]), (0x28, requestBody (.setLoudness 0 2 ⟨0, 0, 0, 0, 0, 0, 0, 0, 0⟩)),
          (0x29, [0]), (0x38, [0, 1])].all (fun c : Byte × List Byte => (parseRequest c.1 c.2).isSome) = true
      ∧ parseRequest 0x30 (requestBody (.setDelay 0 ⟨577, 0, 1, 0, 1, 480⟩)) = some (.setDelay 0 ⟨577, 0, 1, 0, 1, 480⟩)
      ∧ delays.link.ops.length < 8 ∧ State.LinkFree { delays with tb := { delays.tb with schedule := [] } }
      ∧ { delays with tb := { delays.tb with schedule := [] } }.tagHeld 7 = false ∧ delays.outstanding < 40
      ∧ result (.setDelay 7 0 ⟨577, 0, 1, 0, 1, 480⟩) { delays with tb := { delays.tb with schedule := [] } } = some .accepted
      ∧ delays.program 0 = some running ∧ running.align.op = none := by
  refine ⟨shown_of ?_, ⟨?_, ?_, ?_, ?_, ?_, ?_⟩, ?_, ?_, ?_, ?_, ?_, ⟨rfl, rfl, rfl⟩, ?_⟩ <;> decide +kernel

/-- R18: an entry runs while a reply waits. -/
theorem witness_ScheduledRequestsRunAtTheirFrame_link :
    let s := dueEntry ⟨3, 1, 0x21, [0]⟩ (put prog (ready 1920))
    let t := match exec .frameBoundary { s with
        link := { s.link with reply := some ⟨1, 0, .ok, []⟩, buffer := [waiting] } } with
      | .next t => t
      | _ => s
    t.link.reply = some ⟨1, 0, .ok, []⟩ ∧ t.link.buffer = [waiting] ∧ t.link.completions.length = 1
      ∧ (t.program 0).map Program.state = some .running := by decide +kernel

theorem witness_CancelEndsTheWorkItNames :
    (ready 0).LinkFree ∧ (7 : Byte) ≠ 0 ∧ (ready 0).tagHeld 7 = false
      ∧ State.LinkFree { ready 0 with tb := { Timebase.reset with schedule := entries 2 } }
      ∧ State.WorkInOrder { ready 0 with tb := { Timebase.reset with schedule := entries 2 } }
      ∧ (⟨2, 3, 0x21, [0]⟩ : SchedEntry) ∈ entries 2
      ∧ (⟨7, .check, 0⟩ : OpEntry).tag = 7 ∧ (⟨7, .check, 0⟩ : OpEntry).concern = .check
      ∧ { ready 0 with pool := { (ready 0).pool with check := some ⟨7, 4, 4, 1, 0⟩, window := [1, 2, 3] } }.pool.check
          = some ⟨7, 4, 4, 1, 0⟩
      ∧ (ready 0).link.ops = []
      ∧ (put (aligned { Align.fresh 96 with op := some ⟨7, 0, false⟩ }) (ready 0)).program 0
          = some (aligned { Align.fresh 96 with op := some ⟨7, 0, false⟩ }) := by
  refine ⟨ready_free 0, ?_, ?_, ⟨rfl, rfl, rfl⟩, ⟨?_, ?_, ?_, ?_, ?_, ?_⟩, ?_, ?_, ?_, ?_, ?_, ?_⟩ <;> decide +kernel

/-- A slew whose arrival is due in this house sample, under an open operation of tag 7. -/
def arriving : Program :=
  { running with align :=
    { Align.fresh 96 with
      value := 196, target := 100, cur := 6553535, motion := .slewing, arriving := true, op := some ⟨7, 196, false⟩ } }

/-- A definition, a delay and a check in the operation table, with two entries in the schedule. -/
def busy : State :=
  { (put arriving (ready 0)).setProgram 1 (some { prog with state := .preparing, openDef := some 3 }) with
    tb := { Timebase.reset with schedule := [⟨5, 1, 0x21, [0]⟩, ⟨2, 3, 0x21, [0]⟩] }
    pool := { (ready 0).pool with check := some ⟨9, 4, 4, 1, 0⟩, window := [1, 2, 3], free := [0] }
    link := { (ready 0).link with ops := [⟨3, .definition 1, 0⟩, ⟨7, .delay 0, 0⟩, ⟨9, .check, 0⟩] } }

theorem busy_programs : busy.program 0 = some arriving
    ∧ busy.program 1 = some { prog with state := .preparing, openDef := some 3 } := by decide +kernel

/-- CANCEL of a delay at its arrival, and of all of three operations and two entries. -/
theorem witness_CancelEndsTheWorkItNames_all :
    busy.LinkFree ∧ busy.WorkInOrder ∧ (⟨7, .delay 0, 0⟩ : OpEntry) ∈ busy.link.ops
      ∧ arriving.align.op = some ⟨7, 196, false⟩ ∧ arriving.align.found = 100 * 65536
      ∧ (∀ e ∈ busy.link.ops, busy.OpStands e) ∧ (busy.link.ops.map OpEntry.concern).Nodup := by
  refine ⟨⟨rfl, rfl, rfl⟩, ⟨?_, ?_, ?_, ?_, ?_, ?_⟩, ?_, ?_, ?_, ?_, ?_⟩ <;> try decide +kernel
  intro e h
  simp only [busy, List.mem_cons, List.not_mem_nil, or_false] at h
  rcases h with rfl | rfl | rfl
  · exact ⟨_, busy_programs.2, rfl, rfl⟩
  · exact ⟨_, busy_programs.1, rfl, rfl⟩
  · exact ⟨_, rfl, rfl⟩

/-! ## Witnesses: the lanes -/

theorem witness_EntriesToTheLaneStates : 0 < locked.rho := by decide +kernel

theorem witness_LaneFramesAreTakenIn :
    locked.state.reading = true ∧ locked.enabled = true
      ∧ { locked with partialBlock := some (List.replicate 191 true) }.partialBlock.map (· ++ [true])
          = some (List.replicate 192 true)
      ∧ (List.replicate 191 true).length < 192 ∧ 192 ≤ (List.replicate 192 true).length
      ∧ Lane.reset.enabled = false := by decide +kernel

theorem witness_LanesChangeStateAtLossesAndTimes :
    locked.clockPresent = true ∧ locked.lastStart = some 0 ∧ since (ready 47).counter 0 < 48
      ∧ 48 ≤ since (ready 48).counter 0
      ∧ { locked with state := .sensing }.state = .sensing
      ∧ 960 ≤ since (ready 960).counter { locked with state := .sensing }.windowStart
      ∧ { locked with pinRun := 100 }.state.reading = true ∧ 100 ≤ { locked with pinRun := 100 }.pinRun
      ∧ { locked with state := .holdover }.state = .holdover ∧ intervalSamples locked.holdCode = some 24000
      ∧ 24000 ≤ since (ready 24000).counter { locked with state := .holdover }.holdSince
      ∧ { locked with state := .holdover, returnStart := some 0 }.returnStart = some 0 := by decide +kernel

theorem witness_ControlInstantsRunTheRatioLoop :
    (putLane locked (ready 48)).counter.toNat % 48 = 0 ∧ ((putLane locked (ready 48)).lane 0).controlTaken = false
      ∧ (ready 47).counter.toNat % 48 ≠ 0 ∧ { locked with controlTaken := true }.controlTaken = true := by
  decide +kernel

/-- A program that reads a lane which leaves LOCKED, enters it, and has its in-use latency set again. -/
theorem witness_lanes_followed_by_their_programs :
    [(Instr.laneRestart 0 0, locked), (.laneAdmit 0 0, { locked with state := .ready, inUse := 200 }),
        (.controlInstant 0, { locked with fillQ := 20 * 2 ^ 24 })].all (fun c =>
      let s := put running (putLane c.2 (ready 48))
      shown s && running.usesLane 0
        && (decide ((s.lane 0).state ≠ ((after c.1 s).lane 0).state) || decide ((s.lane 0).inUse ≠ ((after c.1 s).lane 0).inUse)))
      = true := by decide +kernel

theorem witness_LanesLockByCriterionAndAdmission :
    { locked with state := .pulling, lockRun := 500 }.state = .pulling
      ∧ 500 ≤ { locked with state := .pulling, lockRun := 500 }.lockRun
      ∧ (putLane { locked with state := .ready } (ready 0)).LinkFree ∧ 4 ≤ (4 : Byte).toNat
      ∧ (3 : Byte).toNat = (3 : Fin 4).val := by
  refine ⟨?_, ?_, ⟨rfl, rfl, rfl⟩, ?_⟩ <;> decide +kernel

theorem witness_SlipsStepAndLaneFadesEnd :
    (putLane { locked with slip := ⟨0, .falling, 0⟩ } (ready 0)).Shown
      ∧ { locked with slip := ⟨0, .falling, 0⟩ }.state.reading = true
      ∧ (putLane { locked with entryFade := ⟨96, .rising, 96⟩ } (ready 0)).Shown
      ∧ (putLane { locked with slip := ⟨96, .rising, 96⟩ } (ready 0)).Shown := by
  refine ⟨shown_of ?_, ?_, shown_of ?_, shown_of ?_⟩ <;> decide +kernel

theorem witness_LaneRequestsSetAndRestart :
    (ready 0).LinkFree ∧ (putLane locked (ready 0)).LinkFree ∧ 4 ≤ (4 : Byte).toNat ∧ 2 ≤ (2 : Byte).toNat
      ∧ (1 : Byte).toNat < 2 ∧ (0 : Byte).toNat = (0 : Fin 4).val ∧ ((ready 0).lane 0).enabled = false
      ∧ ((putLane locked (ready 0)).lane 0).enabled = true := by
  refine ⟨ready_free 0, ⟨rfl, rfl, rfl⟩, ?_⟩; decide +kernel

/-! ## Witnesses: programs -/

theorem witness_ProgramRequestsAreJudgedByIndexAndState :
    (put prog (ready 0)).LinkFree ∧ requestOf (.start 5 0) = some (5, .start 0) ∧ programNamed (.start 0) = some 0
      ∧ opensOp (.start 0) = false ∧ (put prog (ready 0)).tagFree 0 ∧ 16 ≤ (16 : Byte).toNat
      ∧ (0 : Byte).toNat = (0 : Fin 16).val ∧ (ready 0).program 0 = none ∧ requestKind (.start 0) = 0x21
      ∧ requestKind (.defineProgram 0 0 []) = 0x20 ∧ requestKind (.release 0) = 0x23
      ∧ (put prog (ready 0)).program 0 = some prog
      ∧ (put { prog with state := .preparing } (ready 0)).program 0 = some { prog with state := .preparing }
      ∧ (put running (ready 0)).program 0 = some running ∧ running.state = .running := by
  refine ⟨⟨rfl, rfl, rfl⟩, ?_, ?_, ?_, Or.inl rfl, ?_⟩ <;> decide +kernel

/-- A channel entry on slot and egress i. -/
def entry (role slot : Byte) : ChannelDef := ⟨role, slot, 0xFF, 0, slot⟩

theorem entry_wrong : ¬ (entry 9 0).InLists ∧ ¬ (entry 8 64).InLists :=
  ⟨fun h => absurd h.role (by decide), fun h => absurd h.primary (by decide)⟩

/-- Two channels at the ends of the lists. -/
def two : List ChannelDef := [entry 0 0, entry 8 63]

theorem two_inLists : ∀ k ∈ two, k.InLists := by
  intro k h
  simp only [two, List.mem_cons, List.not_mem_nil, or_false] at h
  rcases h with rfl | rfl <;> exact ⟨by decide, by decide, by decide, by decide, by decide⟩

theorem putLane_lane (x : Lane) (s : State) : (putLane x s).lane 0 = x := by simp [putLane, State.setLane, State.lane]

theorem witness_DefinitionsAreCheckedInOrder :
    (ready 0).LinkFree ∧ (0 : Byte).toNat = (0 : Fin 16).val ∧ (ready 0).program 0 = none ∧ (ready 0).outstanding < 40
      ∧ (linked { (ready 0).link with ops := [⟨7, .check, 0⟩] }).tagHeld 7 = true
      ∧ (linked { (ready 0).link with ops := List.replicate 8 ⟨7, .check, 0⟩ }).tagHeld 6 = false
      ∧ 8 ≤ (List.replicate 8 (⟨7, .check, 0⟩ : OpEntry)).length ∧ (ready 0).tagFree 6
      ∧ 8 < (List.replicate 9 (entry 0 0)).length ∧ ¬ (entry 9 0).InLists ∧ ¬ (entry 8 64).InLists ∧ ¬ [(0 : Byte), 0].Nodup
      ∧ (∀ k ∈ two, k.InLists) ∧ (two.map ChannelDef.role).Nodup
      ∧ (two.map ChannelDef.egress).Nodup
      ∧ (∀ k ∈ two, (ready 0).claims[k.egress.toNat]? = some none)
      ∧ (State.reset.pool.sized = 0 ∧ 0 < (ready 0).pool.sized)
      ∧ (ready 0).pool.free.length < 2 * ((min 10000 201 * 48 + 4799) / 4800 + 1)
      ∧ 2 * ((min 10000 100 * 48 + 4799) / 4800 + 1) ≤ (ready 0).pool.free.length := by
  refine ⟨ready_free 0, ?_, ?_, ?_, ?_, ?_, ?_, Or.inr ⟨?_, ?_, ?_⟩, ?_, entry_wrong.1, entry_wrong.2, ?_, two_inLists, ?_, ?_, ?_, ?_,
    ?_, ?_⟩ <;> decide +kernel

theorem witness_DefinitionsAreTakenWhole :
    (ready 0).LinkFree ∧ (ready 0).Shown ∧ (0 : Byte).toNat = (0 : Fin 16).val ∧ (ready 0).program 0 = none
      ∧ (ready 0).tagFree 6 ∧ two ≠ [] ∧ two.length ≤ 8 ∧ (∀ k ∈ two, k.InLists)
      ∧ (two.map ChannelDef.role).Nodup ∧ (two.map ChannelDef.egress).Nodup
      ∧ (∀ k ∈ two, (ready 0).claims[k.egress.toNat]? = some none)
      ∧ 0 < (ready 0).pool.sized ∧ two.length * ((min 10000 100 * 48 + 4799) / 4800 + 1) ≤ (ready 0).pool.free.length := by
  refine ⟨ready_free 0, ready_shown, ?_, ?_, Or.inr ⟨?_, ?_, ?_⟩, ?_, ?_, two_inLists, ?_, ?_, ?_, ?_, ?_⟩ <;>
    decide +kernel

theorem witness_ProgramsStartStopAndFade :
    ((put prog (ready 0)).Shown ∧ (put prog (ready 0)).program 0 = some prog ∧ (put prog (ready 0)).LinkFree)
      ∧ ((put running (ready 0)).Shown ∧ (put running (ready 0)).program 0 = some running
        ∧ (put running (ready 0)).LinkFree)
      ∧ prog.state ≠ .preparing ∧ running.state ≠ .preparing ∧ (0 : Byte).toNat = (0 : Fin 16).val :=
  ⟨prog_ready, running_ready, by decide +kernel⟩

/-- The ends of the on-air fade, a STOP while it rises, and a START while it falls from the top and from near 0. -/
theorem witness_ProgramsStartStopAndFade_fades :
    [⟨0, .falling, 1⟩, ⟨480, .rising, 479⟩, ⟨240, .rising, 239⟩, ⟨479, .falling, 480⟩, ⟨0, .falling, 0⟩].all (fun f : Fade =>
      shown (put { running with onAir := f } (ready 0))) = true := by decide +kernel

theorem witness_ReleasedProgramsGiveEverythingBack :
    ((put prog (ready 0)).LinkFree ∧ (put prog (ready 0)).program 0 = some prog ∧ prog.state ≠ .running)
      ∧ State.LinkFree { put { prog with state := .preparing, openDef := some 7 } (ready 0) with
          link := { (ready 0).link with ops := [⟨7, .definition 0, 0⟩] } }
      ∧ (7 : Byte) ≠ 0 ∧ (0 : Byte).toNat = (0 : Fin 16).val :=
  ⟨⟨prog_ready.2.2, prog_ready.2.1, by decide +kernel⟩, ⟨rfl, rfl, rfl⟩, by decide, by decide⟩

/-- A PREPARING program with its definition open, a suspect page, its silence point present and two entries naming it. -/
def releasing : State :=
  { put { prog with state := .preparing, openDef := some 7, ring := [⟨0, false⟩, ⟨1, true⟩] } (ready 0) with
    tb := { Timebase.reset with schedule := [⟨4, 1, 0x21, [0]⟩, ⟨5, 2, 0x22, [1]⟩] }
    link := { (ready 0).link with ops := [⟨7, .definition 0, 0⟩] }
    alarm := (ready 0).alarm.setPoint 16 { Point.reset with raw := true } }

theorem witness_ReleasedProgramsGiveEverythingBack_cancel :
    releasing.LinkFree ∧ releasing.WorkInOrder ∧ (⟨7, .definition 0, 0⟩ : OpEntry) ∈ releasing.link.ops
      ∧ (releasing.program 0).map Program.openDef = some (some 7)
      ∧ pointOfProgram 0 16 = true ∧ (releasing.alarm.point 16).raw = true
      ∧ (releasing.tb.schedule.filter fun e => e.body.head?.map BitVec.toNat == some 0).length = 1 := by
  refine ⟨⟨rfl, rfl, rfl⟩, ⟨?_, ?_, ?_, ?_, ?_, ?_⟩, ?_⟩ <;> decide +kernel

theorem witness_SelectionsBeginChangeovers :
    ((put prog (ready 0)).Shown ∧ (put prog (ready 0)).program 0 = some prog ∧ (put prog (ready 0)).LinkFree)
      ∧ 3 ≤ (3 : Byte).toNat ∧ prog.channels.length ≤ (1 : Byte).toNat ∧ (0 : Byte).toNat < prog.channels.length
      ∧ SelectMode.forceBackup.code = (2 : Byte).toNat ∧ prog.state ≠ .preparing ∧ 64 ≤ (64 : Byte).toNat
      ∧ (64 : Byte) ≠ 0xFF ∧ (⟨3, 15⟩ : Source).byte = 63 ∧ ((none : Option Source).map Source.byte).getD 0xFF = 0xFF :=
  ⟨prog_ready, by decide +kernel⟩

/-- Program 0 with its one channel given. -/
def withChan (ch : Channel) : Program := { prog with channels := [ch] }

theorem witness_ChangeoversAndTrimStepsSwitchAndEnd :
    (put (withChan { chan with coFade := ⟨0, .falling, 0⟩ }) (ready 0)).program 0
        = some (withChan { chan with coFade := ⟨0, .falling, 0⟩ })
      ∧ (withChan { chan with coFade := ⟨0, .falling, 0⟩ }).channels[(0 : Fin 8).val]?
        = some { chan with coFade := ⟨0, .falling, 0⟩ }
      ∧ { chan with coFade := ⟨0, .falling, 1⟩ }.coFade.prev ≠ 0 ∧ chan.coFade.dir ≠ .falling
      ∧ (put (withChan { chan with coFade := ⟨480, .rising, 480⟩ }) (ready 0)).Shown
      ∧ (put (withChan { chan with trimFade := ⟨0, .falling, 0⟩ }) (ready 0)).Shown
      ∧ (put (withChan { chan with trimFade := ⟨480, .rising, 480⟩ }) (ready 0)).Shown := by
  refine ⟨put_program _ _, ?_, ?_, ?_, shown_of ?_, shown_of ?_, shown_of ?_⟩ <;> decide +kernel

/-- Two channels of one program that switch at one house sample, on LOCKED lanes. -/
theorem witness_ChangeoversAndTrimStepsSwitchAndEnd_together :
    let x := { prog with channels := [{ chan with coFade := ⟨0, .falling, 0⟩ }, { chan with coFade := ⟨0, .falling, 0⟩, role := .r }] }
    let s := put x (putLane locked (ready 0))
    s.program 0 = some x ∧ x.channels[(1 : Fin 8).val]? = some { chan with coFade := ⟨0, .falling, 0⟩, role := .r }
      ∧ { chan with coFade := ⟨0, .falling, 0⟩ }.coFade.dir ≠ .steady
      ∧ ((s.lane 0).state = .locked ∧ chan.inUse.lane = 0) :=
  ⟨put_program _ _, by decide +kernel⟩

/-! ## Witnesses: the delay memory -/

/-- Program 0 in PREPARING with two pages to fill. -/
def filling (now : Nat) (rest : List FillEntry) : State :=
  { put { prog with state := .preparing } (ready now) with
    pool := { (ready now).pool with fill := ⟨0, 1⟩ :: rest } }

theorem witness_SizingAndZeroFillEnd :
    State.reset.link.sizingEnded = false ∧ (filling 4 []).Shown ∧ (filling 4 [⟨0, 2⟩]).Shown
      ∧ since (filling 3 []).counter (filling 3 []).pool.fillSince < 4
      ∧ 4 ≤ since (filling 4 []).counter (filling 4 []).pool.fillSince
      ∧ (∃ e ∈ ([⟨0, 2⟩] : List FillEntry), e.program = 0) ∧ (∀ e ∈ ([] : List FillEntry), e.program ≠ 0)
      ∧ (filling 4 []).program 0 = some { prog with state := .preparing } := by
  refine ⟨?_, shown_of ?_, shown_of ?_, ?_, ?_, ?_, ?_, put_program _ _⟩ <;> decide +kernel

/-- For the statements about RELEASE, CANCEL and RESTART: fills that are abandoned, the one in progress begun in the house
sample in progress, or before it, and one of another program behind it. -/
theorem witness_FillAbandoned :
    (filling 3 [⟨0, 2⟩, ⟨5, 7⟩]).pool.fill.head? = some ⟨0, 1⟩
      ∧ ((filling 3 [⟨0, 2⟩, ⟨5, 7⟩]).program 0).isSome = true ∧ ((filling 3 [⟨0, 2⟩, ⟨5, 7⟩]).program 5).isSome = false
      ∧ (filling 3 []).pool.fillSince ≠ (filling 3 []).counter ∧ (filling 0 []).pool.fillSince = (filling 0 []).counter
      ∧ (filling 3 []).LinkFree := by
  refine ⟨?_, ?_, ?_, ?_, ?_, ⟨rfl, rfl, rfl⟩⟩ <;> decide +kernel

/-- R111: a fill abandoned in the house sample at which it began has written nothing. -/
theorem test_abandoned_fill_just_begun :
    ({ filling 0 [] with dram := [(15000, 7)] }.vacate 0).dram = [(15000, 7)] := by decide +kernel

/-- A check of the pages 0 to 3. -/
def checking (c : Check) (window free : List Nat) (run : Nat) : State :=
  { ready 0 with pool := { (ready 0).pool with check := some c, window := window, free := free, testRun := run } }

theorem witness_MemoryChecksTestPages :
    (ready 0).LinkFree ∧ (ready 0).tagFree 6 ∧ (State.reset.pool.sized = 0 ∧ 0 < (ready 0).pool.sized)
      ∧ (checking ⟨7, 4, 4, 1, 0⟩ [1, 2, 3] [0] 23).pool.check.isSome = true
      ∧ ((ready 0).pool.check = none ∧ (ready 0).pool.window = [] ∧ (ready 0).pool.free ≠ [])
      ∧ (checking ⟨7, 4, 4, 1, 0⟩ [1, 2, 3] [0] 23).pool.testRun < 24
      ∧ 24 ≤ (checking ⟨7, 4, 4, 1, 0⟩ [1, 2, 3] [0] 24).pool.testRun ∧ [2, 3] ≠ []
      ∧ (checking ⟨7, 4, 3, 2, 0⟩ [2] [3, 0, 1] 24).pool.window = 2 :: []
      ∧ (⟨7, 4, 3, 2, 0⟩ : Check).taken < (⟨7, 4, 3, 2, 0⟩ : Check).quota
      ∧ (⟨7, 4, 4, 3, 0⟩ : Check).quota ≤ (⟨7, 4, 4, 3, 0⟩ : Check).taken := by
  refine ⟨ready_free 0, Or.inr ⟨?_, ?_, ?_⟩, ?_, ?_, ?_, ?_, ?_, ?_, ?_, ?_⟩ <;> decide +kernel

/-- A check with no page to take, and the three ways on from the last page of a window. -/
theorem witness_MemoryChecksTestPages_rest :
    State.LinkFree { ready 0 with pool := { (ready 0).pool with free := [] } } ∧ 0 < (ready 0).pool.sized
      ∧ { (ready 0).pool with free := [] }.free = [] ∧ { (ready 0).pool with free := [] }.window = []
      ∧ (checking ⟨7, 4, 4, 3, 0⟩ [2] [3, 0, 1] 24).pool.window = [2]
      ∧ (checking ⟨7, 4, 3, 2, 0⟩ [2] [] 24).stuck.any (fun k => decide (2 * 15000 ≤ k.1)) = false
      ∧ { checking ⟨7, 4, 3, 2, 0⟩ [2] [] 24 with stuck := [(2 * 15000 + 14999, 1)] }.stuck.any (fun k =>
          decide (2 * 15000 ≤ k.1) && decide (k.1 < 2 * 15000 + 15000)) = true := by
  refine ⟨⟨rfl, rfl, rfl⟩, ?_⟩; decide +kernel

theorem witness_RingIsWrittenAndReadInGroups :
    Dram.wf [] = true ∧ [1, 2, 3, 4, 5, 6, 7, (8 : Sample)].length = 8
      ∧ stuckAt [(groupAddress 1 599 + 25, 5)] (groupAddress 1 599) = none
      ∧ stuckAt [(groupAddress 1 599, 5)] (groupAddress 1 599) = some 5
      ∧ Dram.read (writeGroup [] 1 599 [1, 2, 3, 4, 5, 6, 7, 8]) (groupAddress 1 599) = 0 := by decide +kernel

/-- A program that gathers its groups of eight, one of them held. -/
def gathering : Program :=
  { running with channels := [{ chan with writeBuf := List.replicate 8 5, readBuf := [⟨112, List.replicate 8 6⟩] }] }

/-- The house sample at which a group is whole, and reads from the write buffer, a held group and the ring. -/
theorem witness_RingIsWrittenAndReadInGroups_reads :
    (put gathering (ready 1007)).program 0 = some gathering ∧ 1007 % 8 = 7 ∧ 1006 % 8 ≠ 7 ∧ 0 < gathering.rows
      ∧ (gathering.ring.map PageEntry.page).Nodup ∧ gathering.ring.length = gathering.rows * gathering.channels.length
      ∧ (∀ ch ∈ gathering.channels, ch.writeBuf.length = 8)
      ∧ [(1007 : Int), 1000, 999, 900].map (fun i => i / 8 == 1007 / 8) = [true, true, false, false]
      ∧ ((gathering.channels[0]?).bind fun ch => ch.readBuf.find? fun h => h.number == (900 : Int) / 8).isSome = true
      ∧ ((gathering.channels[0]?).bind fun ch => ch.readBuf.find? fun h => h.number == (800 : Int) / 8) = none
      ∧ gathering.ring[((800 : Int) / 4800 % (gathering.rows : Int)).toNat * 1 + 0]? = some ⟨0, false⟩
      ∧ groupChecks [] [] 0 100 = true ∧ groupChecks [] [(groupAddress 0 100, 5)] 0 100 = false
      ∧ (100 * 65536 % 65536 = 0 ∧ (100 * 65536 + 1) % 65536 ≠ 0)
      ∧ gathering.align.applied = ((put gathering (ready 1007)).alarm.point (progPoint 5 0)).applied
      ∧ gathering.align.bypass ≠ .inEffect := ⟨put_program _ _, by decide +kernel⟩

/-! ## Witnesses: loudness and the gain schedule -/

/-- Program 0 with its loudness mode given, and a silence run that its point shows. -/
def tracking (mode : LoudMode) (marked : Bool) (st : Option Int) : Program :=
  { running with
    loud := { running.loud with blockTaken := false, markPreparing := marked, shortTerm := st }
    corr := { Correction.fresh with settings := { LoudSettings.default with mode := mode } } }

theorem witness_BlockEndsMeasureAndCorrect :
    ((ready 0).counter = 0 ∧ (ready 4799).counter.toNat % 4800 ≠ 0)
      ∧ (ready 4800).counter ≠ 0 ∧ (ready 4800).counter.toNat % 4800 = 0
      ∧ (put (tracking .track false none) (ready 4800)).program 0 = some (tracking .track false none)
      ∧ (tracking .track false none).loud.blockTaken = false ∧ (tracking .track false none).lineDelay < 2 ^ 47
      ∧ (tracking .off true none).corr.settings.mode = .off ∧ (tracking .freeze true none).corr.settings.mode = .freeze
      ∧ (tracking .track true none).loud.markPreparing = true ∧ (tracking .track false none).out.schedule = [] := by
  refine ⟨?_, ?_, ?_, put_program _ _, ?_, ?_, ?_, ?_, ?_, ?_⟩ <;> decide +kernel

/-- The settings of a block end lie within R90's ranges, at both ends of them too. -/
theorem witness_BlockEndsMeasureAndCorrect_settings :
    (tracking .track false none).corr.settings.InRange
      ∧ LoudSettings.InRange ⟨.track, -400, 0, 0, 1, 1, 50, 10, -200, 0⟩
      ∧ LoudSettings.InRange ⟨.track, -50, 150, 300, 50, 100, 400, 200, 200, 48000⟩ := by
  refine ⟨?_, ?_, ?_⟩ <;> constructor <;> decide

/-- A full gain schedule of entries a block apart, the first at an output index of 0. -/
def fullSchedule : List GainEntry := (List.range 129).map fun i => ⟨i, i, BitVec.ofNat 48 (4800 * i)⟩

/-- Acceptances and refusals of a window, the two ends of a histogram, and the edges of the gain schedule. -/
theorem witness_BlockEndsMeasureAndCorrect_edges :
    [⟨0, 1, ⟨1, 0⟩⟩, ⟨850, 2 ^ 32 - 1, ⟨1, 0⟩⟩].Pairwise (fun a b : HistBin => a.bin < b.bin)
      ∧ (-700 : Int) ≤ -700 ∧ (-701 : Int) < -700 ∧ { running.loud with wasRunning := true }.wasPaused = false
      ∧ running.loud.start ≠ (ready 4800).counter ∧ { running.loud with start := 4800 }.start = (ready 4800).counter
      ∧ fullSchedule = fullSchedule.take 1 ++ fullSchedule.drop 1 ∧ 128 ≤ (fullSchedule.drop 1).length
      ∧ (∀ e ∈ fullSchedule.take 1, ((ready 4800).counter - BitVec.ofNat 48 4800 - e.due).msb = false)
      ∧ (∀ e, (fullSchedule.drop 1).head? = some e → ((ready 4800).counter - BitVec.ofNat 48 4800 - e.due).msb = true)
      ∧ ((ready 4800).counter - BitVec.ofNat 48 4800 - 0).msb = false
      ∧ ((ready 4800).counter - BitVec.ofNat 48 4800 - 1).msb = true := by decide +kernel

theorem witness_LoudnessRequestsTakeEffect :
    ((put prog (ready 0)).Shown ∧ (put prog (ready 0)).program 0 = some prog ∧ (put prog (ready 0)).LinkFree)
      ∧ (0 : Byte).toNat = (0 : Fin 16).val ∧ 3 ≤ (3 : Byte).toNat ∧ LoudMode.track.code = (2 : Byte).toNat :=
  ⟨prog_ready, by decide +kernel⟩

theorem witness_LoudnessRequestsTakeEffect_settings :
    State.LoudnessInRange { ready 0 with pending := [.blockEnd] }
      ∧ ∃ t, step { ready 0 with pending := [.blockEnd] } = .next t :=
  ⟨fun p x h => by
    change State.reset.program p = some x at h
    simp [reset_program] at h, _, rfl⟩

/-- Program 0 with two gain entries held, the first due. -/
def scheduled : Program :=
  { running with out := { OutStage.fresh with schedule := [⟨0, 30, 4800⟩, ⟨1, 35, 9600⟩] } }

theorem witness_GainEntriesApplyAndRampsEnd :
    (put scheduled (ready 4800)).Shown ∧ (put scheduled (ready 4800)).program 0 = some scheduled
      ∧ scheduled.out.schedule = [] ++ ⟨0, 30, 4800⟩ :: [⟨1, 35, 9600⟩]
      ∧ (((put scheduled (ready 4800)).counter - BitVec.ofNat 48 scheduled.lineDelay) - 4800).msb = false
      ∧ (((put scheduled (ready 4800)).counter - BitVec.ofNat 48 scheduled.lineDelay) - 9600).msb = true
      ∧ (-600 : Int) ≤ -600 ∧ (200 : Int) ≤ 200 := by
  refine ⟨shown_of ?_, put_program _ _, ?_, ?_, ?_, ?_, ?_⟩ <;> decide +kernel

/-! ## Witnesses: output and delay -/

/-- Program 0 RUNNING with an over run at its count. -/
def withOver : Program := { running with channels := [{ chan with overRun := 3, overDue := true }] }

theorem witness_OutputSamplesMutesAndOvers :
    ((put running (ready 0)).Shown ∧ (put running (ready 0)).program 0 = some running
        ∧ (put running (ready 0)).LinkFree)
      ∧ 2 ≤ (2 : Byte).toNat ∧ (1 : Byte).toNat < 2 ∧ (0 : Byte).toNat = (0 : Fin 16).val
      ∧ running.channels[(0 : Fin 8).val]? = some chan :=
  ⟨running_ready, by decide +kernel⟩

/-- An over run that has reached the count, and the threshold of the over level at the ends of its range and at −0.1 dB:
8,388,608 × 10^(−20) rounds to 838,861 and 8,388,608 × 10^(−0.01/2) to 8,292,584. -/
theorem witness_OutputSamplesMutesAndOvers_levels :
    (withOver.channels[(0 : Fin 8).val]?).map Channel.overDue = some true
      ∧ (∀ ch ∈ { prog with state := .preparing }.channels, ch.overDue = false) ∧ running.channels.length ≤ 8
      ∧ [((-200 : Int), 838861), (-1, 8292584), (0, 2 ^ 23)].all (fun v =>
          decide ((2 * v.2 - 1) ^ 200 * 10 ^ (-v.1).toNat ≤ 2 ^ 4800) && decide (2 ^ 4800 < (2 * v.2 + 1) ^ 200 * 10 ^ (-v.1).toNat))
        = true
      ∧ ((put withOver (ready 0)).alarm.kind 5).level = -1
      ∧ ((put withOver (pointed 5 { KindSettings.default 3 0 (-200) 1 with mode := .report } 32 Point.reset (ready 0))).alarm.kind 5).level
          = -200 := by decide +kernel

theorem witness_SetDelayMovesTheLineDelay :
    ((put prog (ready 0)).Shown ∧ (put prog (ready 0)).program 0 = some prog ∧ (put prog (ready 0)).LinkFree)
      ∧ ((put running (ready 0)).Shown ∧ (put running (ready 0)).program 0 = some running
        ∧ (put running (ready 0)).LinkFree)
      ∧ ((put prog (ready 0)).tagFree 0 ∧ (put prog (ready 0)).tagFree 6) ∧ 3 ≤ (3 : Byte).toNat
      ∧ (2 : Byte).toNat < 3 ∧ ChangeMode.cut.code = (0 : Byte).toNat ∧ ChangeMode.auto.code = (2 : Byte).toNat
      ∧ prog.align.bypass = .none ∧ prog.state ≠ .running ∧ running.state = .running
      ∧ running.align.motion = .steady
      ∧ min ((prog.rows - 1) * 4800) (min 500000 577 - prog.align.pathLat) ≠ prog.align.target
      ∧ ((running.align.cur : Int) - (577 - 96 : Nat) * 65536).natAbs ≠ 0
      ∧ 480 * 65536 < ((running.align.cur : Int) - (577 - 96 : Nat) * 65536).natAbs
      ∧ ((running.align.cur : Int) - (576 - 96 : Nat) * 65536).natAbs ≤ 480 * 65536 := by
  refine ⟨prog_ready, running_ready, ⟨Or.inl rfl, Or.inr ⟨?_, ?_, ?_⟩⟩, ?_⟩ <;> decide +kernel

/-- The alignments in which SET_DELAY finds a program on air: in each motion, under bypass, with an operation open. -/
theorem witness_SetDelayMovesTheLineDelay_motions :
    [bypassing .none .slewing false, bypassing .none .cutOut false, bypassing .none .cutIn false,
        bypassing .entering .steady true, bypassing .inEffect .cutOut false].all (fun a =>
      shown (put { running with align := a } (ready 0)) && a.target == 100) = true
      ∧ min ((running.rows - 1) * 4800) (min 500000 196 - 96) = 100
      ∧ min ((running.rows - 1) * 4800) (min 500000 5000 - 96) ≠ 100 := by decide +kernel

/-- A delay operation in progress toward a V of 196, with its target at 100. -/
def moving (motion : Motion) (fade : Fade) : Program :=
  aligned { Align.fresh 96 with
    value := 196, target := 100, cur := 100 * 65536, motion := motion, fade := fade, op := some ⟨7, 196, false⟩ }

theorem witness_LineDelayTakesItsSteps :
    (put (moving .cutOut ⟨0, .falling, 0⟩) (ready 0)).Shown ∧ (moving .cutOut ⟨0, .falling, 0⟩).align.applied = false
      ∧ (put (moving .cutOut ⟨0, .falling, 0⟩) (ready 0)).program 0 = some (moving .cutOut ⟨0, .falling, 0⟩)
      ∧ (put (moving .cutIn ⟨480, .rising, 480⟩) (ready 0)).Shown
      ∧ (moving .cutIn ⟨480, .rising, 480⟩).align.cur = (moving .cutIn ⟨480, .rising, 480⟩).align.target * 65536
      ∧ (put (aligned { (moving .slewing (Fade.restAt 480)).align with cur := 6553535, arriving := true })
          (ready 0)).Shown
      ∧ ({ (moving .slewing (Fade.restAt 480)).align with cur := 6553535, arriving := true } : Align).distance
          < slewStep 1
      ∧ (put (aligned { Align.fresh 96 with applied := true, bypass := .entering, fade := ⟨0, .falling, 0⟩ })
          (ready 0)).Shown
      ∧ (put (aligned { Align.fresh 96 with applied := true, bypass := .inEffect, fade := ⟨480, .rising, 479⟩ })
          (ready 0)).Shown
      ∧ prog.align.motion ≠ .cutOut ∧ prog.align.motion ≠ .cutIn ∧ prog.align.motion ≠ .slewing
      ∧ prog.align.applied = false := by
  refine ⟨shown_of ?_, ?_, put_program _ _, shown_of ?_, ?_, shown_of ?_, ?_, shown_of ?_, shown_of ?_, ?_⟩ <;>
    decide +kernel

/-- Cut-ins that find another target under each pending mode, a slew short of its target, and the bypass switches. -/
theorem witness_LineDelayTakesItsSteps_rest :
    [none, some ChangeMode.cut, some .slew, some .auto].all (fun m =>
        let a := { bypassing .none .cutIn false with fade := ⟨480, .rising, 480⟩, pending := m }
        shown (put { running with align := a } (ready 0)) && a.cur != a.target * 65536) = true
      ∧ (let a := { bypassing .none .slewing false with arriving := true }
         shown (put { running with align := a } (ready 0)) = true ∧ slewStep a.slewRate ≤ a.distance)
      ∧ (let a := { bypassing .entering .cutOut true with fade := ⟨0, .falling, 0⟩ }
         shown (put { running with align := a } (ready 0)) = true)
      ∧ (let a := { bypassing .inEffect .cutOut true with fade := ⟨0, .falling, 0⟩ }
         shown (put { running with align := a } (ready 0)) = true)
      ∧ fullSchedule = fullSchedule.take 2 ++ fullSchedule.drop 2
      ∧ (∀ e ∈ fullSchedule.take 2, (((ready 4900).counter - BitVec.ofNat 48 100) - e.due).msb = false)
      ∧ (∀ e, (fullSchedule.drop 2).head? = some e → (((ready 4900).counter - BitVec.ofNat 48 100) - e.due).msb = true) := by
  decide +kernel

/-! ## Witnesses: the Alarm Unit -/

theorem witness_AlarmBoundariesJudgeEveryPoint :
    (ready 479).counter.toNat % 480 ≠ 0 ∧ (ready 480).counter.toNat % 480 = 0
      ∧ (ready 480).alarm.boundaryTaken = false ∧ (put prog (ready 480)).program 0 = some prog
      ∧ prog.loud.standbyAt = some 0 ∧ 480 ≤ since (ready 480).counter 0
      ∧ { prog.loud with standbyAt := none }.standbyAt = none := by
  refine ⟨?_, ?_, ?_, put_program _ _, ?_⟩ <;> decide +kernel

/-- A state at a boundary whose contact input 0, with its function and sense, has read active once. -/
def contacted (f : ContactFunction) (edge : Bool) : State :=
  { put prog (ready 480) with alarm :=
    { (put prog (ready 480)).alarm with
      pins := 1
      contacts := (ready 480).alarm.contacts.set 0 ⟨f, false, 0x0001, edge, some true, false⟩ } }

theorem witness_AlarmBoundariesJudgeEveryPoint_contacts :
    [(ContactFunction.alarm, false), (.alarm, true), (.integrationReset, false)].all (fun c =>
        shown (contacted c.1 c.2)
          && ((contacted c.1 c.2).alarm.contact 0).lastReading
            == some ((contacted c.1 c.2).alarm.pins.getLsbD 0 != ((contacted c.1 c.2).alarm.contact 0).activeLow)
          && !((contacted c.1 c.2).alarm.contact 0).level) = true
      ∧ ((contacted .integrationReset false).alarm.contact 0).programs.getLsbD 0 = true
      ∧ 480 ≤ since (ready 480).counter 0 ∧ ¬ 480 ≤ since (ready 480).counter 1 := by decide +kernel

/-- The edges of the four steps of a point: event points 8 (LANE_SLIP), state points 0 (LANE_STALL). -/
theorem witness_PointsRestRiseFallAndRetry :
    (ready 480).counter.toNat % 480 = 0 ∧ (ready 480).alarm.boundaryTaken = false
      ∧ (ready 480).alarm.isEventPoint 8 = true ∧ (ready 480).alarm.isEventPoint 0 = false
      ∧ { Point.reset with raw := true, lastEvent := some 0 }.lastEvent = some 0
      ∧ since (ready 480).counter 0 ≤ 480 ∧ 480 < since (ready 960).counter 0
      ∧ ((ready 480).alarm.settingsOf 0).mode ≠ .off ∧ intervalSamples ((ready 480).alarm.settingsOf 0).raiseCode = some 0
      ∧ intervalSamples ((ready 480).alarm.settingsOf 0).clearCode = some 24000
      ∧ 24000 ≤ since (ready 24000).counter 0 ∧ ¬ 24000 ≤ since (ready 23520).counter 0
      ∧ intervalSamples 255 = none ∧ retryKind.mode = .protectRetry ∧ intervalSamples retryKind.retryCode = some 288000
      ∧ 288000 ≤ since (ready 288000).counter 0
      ∧ ((pointed 0 retryKind 0 { Point.reset with applied := true } (ready 288000)).alarm.point 0).applied = true
      ∧ ((pointed 0 retryKind 0 { Point.reset with applied := true } (ready 288000)).alarm.settingsOf 0).mode
          = .protectRetry := by decide +kernel

/-- The steps that are not taken, and an event that finds its filtered condition present. -/
theorem witness_PointsRestRiseFallAndRetry_idle :
    (ready 479).counter.toNat % 480 ≠ 0 ∧ ((ready 480).alarm.point 0).raw = false
      ∧ ((pointed 0 { retryKind with mode := .off } 0 Point.reset (ready 480)).alarm.settingsOf 0).mode = .off
      ∧ ((pointed 9 retryKind 96 { Point.reset with filtered := true } (ready 480)).alarm.point 96).filtered = true
      ∧ (pointed 9 retryKind 96 { Point.reset with filtered := true } (ready 480)).alarm.mayProtect 96 = true
      ∧ (pointed 9 retryKind 96 { Point.reset with filtered := true } (ready 480)).alarm.isEventPoint 96 = true := by
  decide +kernel

theorem ready_alarm_inOrder : (ready 0).alarm.InOrder :=
  ⟨by decide +kernel, by decide +kernel, by decide +kernel, by decide +kernel⟩

theorem witness_SetAlarmKindTakesSettings :
    (ready 0).LinkFree ∧ 13 ≤ (13 : Byte).toNat ∧ 4 ≤ (4 : Byte).toNat ∧ 2 ≤ (2 : Byte).toNat
      ∧ (2 : Byte).toNat ∉ [0, 1, 4, 5, 9] ∧ (9 : Byte).toNat = (9 : Fin 13).val
      ∧ AlarmMode.protectRetry.code = (3 : Byte).toNat ∧ (9 : Fin 13).val ∈ [0, 1, 4, 5, 9]
      ∧ (ready 0).alarm.InOrder := by
  refine ⟨ready_free 0, ?_, ?_, ?_, ?_, ?_, ?_, ?_, ready_alarm_inOrder⟩ <;> decide +kernel

/-- Kind 0 in each mode that a change can leave. -/
theorem witness_SetAlarmKindTakesSettings_modes (m : AlarmMode) :
    (pointed 0 { retryKind with mode := m } 0 { Point.reset with raw := true } (ready 0)).alarm.InOrder := by
  cases m <;> exact ⟨by decide +kernel, by decide +kernel, by decide +kernel, by decide +kernel⟩

theorem witness_AckAlarmAcknowledgesThePointsNamed :
    (ready 0).LinkFree ∧ 118 ≤ (118 : Byte).toNat ∧ 118 ≤ (254 : Byte).toNat ∧ (254 : Byte) ≠ 0xFF
      ∧ (117 : Byte).toNat < 118 ∧ (ready 0).outstanding < 40
      ∧ ((pointed 0 retryKind 117 { Point.reset with ann := .activeUnack } (ready 0)).alarm.point 117).ann = .activeUnack
      ∧ ((pointed 0 retryKind 117 { Point.reset with ann := .returnedUnack } (ready 0)).alarm.point 117).ann
          = .returnedUnack := by
  refine ⟨ready_free 0, ?_⟩; decide +kernel

theorem witness_ClearProtectionSparesPresentConditions :
    (ready 0).LinkFree ∧ 118 ≤ (118 : Byte).toNat ∧ (118 : Byte) ≠ 0xFF ∧ (3 : Byte).toNat = (3 : Fin 118).val
      ∧ (pointed 0 retryKind 3 { Point.reset with applied := true, raw := true } (ready 0)).LinkFree
      ∧ ((pointed 0 retryKind 3 { Point.reset with applied := true, raw := true } (ready 0)).alarm.point 3).applied = true
      ∧ ((pointed 0 retryKind 3 { Point.reset with applied := true, raw := true } (ready 0)).alarm.point 3).raw = true
      ∧ ((pointed 0 retryKind 3 { Point.reset with applied := true } (ready 0)).alarm.point 3).raw = false
      ∧ ((ready 0).alarm.point 3).applied = false ∧ (ready 0).outstanding < 40
      ∧ ((pointed 0 retryKind 3 { Point.reset with filtered := true } (ready 0)).alarm.point 3).filtered = true
      ∧ ((pointed 0 retryKind 3 { Point.reset with filtered := true } (ready 0)).alarm.point 3).raw = false
      ∧ (pointed 0 retryKind 3 { Point.reset with filtered := true } (ready 0)).alarm.mayProtect 3 = true := by
  refine ⟨ready_free 0, ?_, ?_, ?_, ⟨rfl, rfl, rfl⟩, ?_⟩ <;> decide +kernel

theorem witness_SummariesAndContactsAreSet :
    (ready 0).LinkFree ∧ 4 ≤ (4 : Byte).toNat ∧ 2 ≤ (2 : Byte).toNat ∧ 8192 ≤ (0x2000 : BitVec 16).toNat
      ∧ (3 : Byte).toNat = (3 : Fin 4).val ∧ (1 : Byte).toNat < 2 ∧ (0x1FFF : BitVec 16).toNat < 8192
      ∧ 5 ≤ (5 : Byte).toNat ∧ ContactFunction.alarm.code = (4 : Byte).toNat
      ∧ ((contacted .alarm true).LinkFree ∧ ((contacted .alarm true).alarm.contact 0).function = .alarm
        ∧ ((contacted .alarm true).alarm.contact 0).edge = true) := by
  refine ⟨ready_free 0, ?_, ?_, ?_, ?_, ?_, ?_, ?_, ?_, ⟨rfl, rfl, rfl⟩, ?_⟩ <;> decide +kernel

/-! ## Witnesses: the reads -/

theorem witness_ReadsReportAndChangeNothing :
    ((put prog (ready 0)).Shown ∧ (put prog (ready 0)).program 0 = some prog ∧ (put prog (ready 0)).LinkFree)
      ∧ 4 ≤ (4 : Byte).toNat ∧ (3 : Byte).toNat = (3 : Fin 4).val ∧ 118 ≤ (118 : Byte).toNat
      ∧ (117 : Byte).toNat = (117 : Fin 118).val ∧ (117 : Byte).toNat < 118
      ∧ (15 : Byte).toNat = (15 : Fin 16).val ∧ (ready 0).program 15 = none ∧ 2 ≤ (2 : Byte).toNat
      ∧ (1 : Byte).toNat < 2
      ∧ (0 < (⟨5, 3⟩ : Power).mant ∧ 2 ^ 2 ≤ (⟨5, 3⟩ : Power).mant ∧ (⟨5, 3⟩ : Power).mant < 2 ^ (2 + 1)
        ∧ (⟨5, 128⟩ : Power).shift < 2 + 127) :=
  ⟨prog_ready, by decide +kernel⟩

end Sys2Proof.Tests
end

section
/-! PROOF. What one command can do, said once. A command other than power-on and the clock's period is a run of leaf
changes (`Reach`); those that the part makes of itself (`OwnStep`) are told apart from those that a request asks for. An
invariant is then shown for each leaf change, and holds after every command. -/

namespace Sys2Proof.Machine

/-! ## The leaf changes -/

/-- The operations that are made on one program with `State.progStep`, under the lanes as they stand. -/
inductive ProgramStep (lanes : Vector Lane 4) : (Program → Program) → Prop where
  | start : ProgramStep lanes Program.start
  | stop : ProgramStep lanes Program.stop
  | onAirEnd : ProgramStep lanes Program.onAirEnd
  | takeModes (m : SelectMode) :
    ProgramStep lanes fun x => { x with channels := x.channels.map (Channel.takeMode m) }
  | takeMode (c : Nat) (m : SelectMode) : ProgramStep lanes (Program.atChannel c (Channel.takeMode m))
  | takeSources (c : Nat) (a : AlarmUnit) (p : Fin 16) (primary : Source) (backup : Option Source) :
    ProgramStep lanes (Program.atChannel c (Channel.takeSources a p primary backup))
  | takeDemands (a : AlarmUnit) (p : Fin 16) : ProgramStep lanes (Program.takeDemands a p)
  | changeoverSwitch (c : Nat) : ProgramStep lanes (Program.changeoverSwitch lanes c)
  | changeoverEnd (c : Nat) : ProgramStep lanes (Program.atChannel c Channel.changeoverEnd)
  | stepTrim (c : Nat) : ProgramStep lanes (Program.atChannel c Channel.stepTrim)
  | endTrimStep (c : Nat) : ProgramStep lanes (Program.atChannel c Channel.endTrimStep)
  | realignIf (l : Fin 4) : ProgramStep lanes fun x => if x.usesLane l then x.realign lanes else x
  | setLoudness (c : LoudSettings) : ProgramStep lanes (Program.setLoudness c.inRange)
  | resetIntegration (t : Time) : ProgramStep lanes fun x => { x with loud := x.loud.resetIntegration t }
  | pause (flag : Bool) : ProgramStep lanes fun x => { x with loud := { x.loud with paused := flag } }
  | blockEnd (now : Time) : ProgramStep lanes (Program.blockEnd now)
  | judgeSilence (now : Time) (level : Int) : ProgramStep lanes (Program.judgeSilence now level)
  | takeDelay (tag : Byte) (d : DelayAsk) : ProgramStep lanes (Program.takeDelay tag d)
  | stopDelay : ProgramStep lanes fun x => x.slewArrival.stopDelay
  | cutJump : ProgramStep lanes Program.cutJump
  | cutInEnd : ProgramStep lanes Program.cutInEnd
  | slewArrival : ProgramStep lanes Program.slewArrival
  | takeBypass (applied : Bool) : ProgramStep lanes (Program.takeBypass applied)
  | bypassSwitch : ProgramStep lanes Program.bypassSwitch
  | bypassFadeInEnd : ProgramStep lanes Program.bypassFadeInEnd
  | applyDue (now : Time) : ProgramStep lanes (Program.applyDue now)
  | rampEnd : ProgramStep lanes Program.rampEnd
  | takePad (on : Bool) : ProgramStep lanes (Program.takePad on)
  | mute (flag : Bool) : ProgramStep lanes (Program.mute flag)
  | muteEnd : ProgramStep lanes Program.muteEnd

/-- The operations that are made on one lane with `State.laneStep`. -/
inductive LaneStep (now : Time) : (Lane → Lane) → Prop where
  | frameStart (slots : List Sample) (status marker : Bool) : LaneStep now (Lane.frameStart now slots status marker)
  | clockLost : LaneStep now (Lane.clockLost now)
  | windowEnd : LaneStep now (Lane.windowEnd now)
  | returnEnd : LaneStep now (Lane.returnEnd now)
  | holdoverExpiry : LaneStep now (Lane.holdoverExpiry now)
  | controlInstant : LaneStep now (Lane.controlInstant now)
  | pinLimit : LaneStep now (Lane.pinLimit now)
  | lockMet : LaneStep now Lane.lockMet
  | entryFadeEnd : LaneStep now Lane.entryFadeEnd
  | slipStep : LaneStep now Lane.slipStep
  | slipEnd : LaneStep now Lane.slipEnd
  | configure (enabled oneShot : Bool) (hold : Byte) : LaneStep now (Lane.configure now enabled oneShot hold)
  | takeAdmit : LaneStep now Lane.takeAdmit
  | restart : LaneStep now (Lane.restart now)

/-- The next timebase that a step of the House Timebase gives, and whether it begins a frame. -/
inductive TimebaseStep (now : Time) (t : Timebase) : Timebase → Bool → Prop where
  | lose (i : RefInput) : TimebaseStep now t (t.lose now i) false
  | configure (r : FrameRate) (p : RefInput) (v : Bool) (hold : Byte) :
    TimebaseStep now t (t.configure now r p v hold) false
  | boundary : TimebaseStep now t (t.boundary now) true
  | realignTimeout : TimebaseStep now t (t.realignTimeout now) true
  | pulse (i : RefInput) (marked : Bool) : TimebaseStep now t (t.pulse now i marked).1 (t.pulse now i marked).2
  | holdExpire : TimebaseStep now t ((t.holdExpire now).countPulse now).1 ((t.holdExpire now).countPulse now).2
  | revert : TimebaseStep now t ((t.revert now).countPulse now).1 ((t.revert now).countPulse now).2

/-- Whether a point is one of the event kinds LANE_SLIP, PROG_OVER, PROG_MEMORY and LINK_ERROR. -/
def eventKind (pt : Fin 118) : Bool := [2, 5, 9, 11].contains (kindOfPoint pt).val

/-- What the part itself does to its Alarm Unit, the conditions handed over by the other blocks apart. -/
inductive AlarmStep (now : Time) (a : AlarmUnit) : AlarmUnit → Prop where
  | event (pt : Fin 118) (kind : eventKind pt = true) : AlarmStep now a (a.event now pt)
  | restPoint (pt : Fin 118) : AlarmStep now a (a.restPoint now pt)
  | filterRise (pt : Fin 118) : AlarmStep now a (a.filterRise now pt)
  | filterFall (pt : Fin 118) : AlarmStep now a (a.filterFall now pt)
  | retry (pt : Fin 118) : AlarmStep now a (a.retry now pt)
  | readContact (c : Fin 4) : AlarmStep now a (a.readContact now c)
  | boundaryTaken : AlarmStep now a { a with boundaryTaken := true }
  | popNotice (n : Notice) (rest : List Notice) (queue : a.notices = n :: rest) : AlarmStep now a
    { a with notices := rest }

/-- What a request does to the Alarm Unit. -/
inductive AlarmRequest (now : Time) (a : AlarmUnit) : AlarmUnit → Prop where
  | setKind (k : Fin 13) (x : KindSettings) : AlarmRequest now a (a.setKind now k x)
  | acknowledge (pt : Fin 118) : AlarmRequest now a (a.acknowledge now pt)
  | clearPoint (pt : Fin 118) : AlarmRequest now a (a.clearPoint now pt)
  | setSummary (v : Vector Summary 4) : AlarmRequest now a { a with summaries := v }
  | changeContact (c : Fin 4) (f : ContactFunction) (activeLow : Bool) (programs : BitVec 16) (edge : Bool) :
    AlarmRequest now a (a.changeContact now c f activeLow programs edge)

/-- What the forming of a house sample's audio leaves unchanged in a program. -/
structure Program.AudioOnly (x y : Program) : Prop where
  align : y.align = x.align
  corr : y.corr = x.corr
  state : y.state = x.state
  silentRun : y.loud.silentRun = x.loud.silentRun
  hist : y.loud.hist = x.loud.hist

/-- The state after a step of the timebase; where it begins a frame, with the entries due on it run. -/
def State.timed (t : Timebase) (begins : Bool) (s : State) : State :=
  if begins then (s.tbStep fun _ => t).runFrame else s.tbStep fun _ => t

/-- The leaf changes that the part makes of itself. -/
inductive OwnStep (s : State) : State → Prop where
  | program (p : Fin 16) {f : Program → Program} (step : ProgramStep s.lanes f) : OwnStep s (s.progStep p f)
  | lane (l : Fin 4) {f : Lane → Lane} (step : LaneStep s.counter f) : OwnStep s (s.laneStep l f)
  | time {t : Timebase} {begins : Bool} (step : TimebaseStep s.counter s.tb t begins) : OwnStep s (s.timed t begins)
  | alarm {a : AlarmUnit} (step : AlarmStep s.counter s.alarm a) : OwnStep s { s with alarm := a }
  | link (k : LinkPort) (ops : k.ops = s.link.ops) (buffer : k.buffer = s.link.buffer) : OwnStep s { s with link := k }
  | closeOp (tag : Byte) (concern : Concern) (result : Result) (details : List Byte) :
    OwnStep s (s.closeOp tag concern result details)
  | memory (pool : Pool) (dram : Dram) : OwnStep s { s with pool := pool, dram := dram }
  | standby (p : Fin 16) (x : Program) (defined : s.program p = some x) :
    OwnStep s (s.putProgram p x (x.enterStandby s.counter))
  | record (p : Fin 16) (x y : Program) (defined : s.program p = some x) (audio : x.AudioOnly y) :
    OwnStep s (s.setProgram p (some y))
  | output (p : Fin 16) : OwnStep s (s.formOutput p)
  | interpolate : OwnStep s s.interpolate

/-- New work may be opened under a tag: it is 0, or nothing holds it and the operation table has a place. -/
def State.Opens (s : State) (tag : Byte) : Prop := tag = 0 ∨ (s.tagHeld tag = false ∧ s.link.ops.length < 8)

/-- A program's record, pages, claims and operation as the acceptance of a definition makes them (R52). -/
def State.defined (p : Fin 16) (tag : Byte) (maxDelay : Nat) (chs : List Channel) (s : State) : State :=
  let x := s.freshProgram p tag maxDelay chs
  (State.openOp tag (.definition p) { s.setProgram p (some x) with
    pool := s.pool.allocate s.counter p (chs.length * x.rows)
    claims := claimAll p 0 chs s.claims }).handProgram p

/-- A SET_DELAY that has been judged, taken (R126, R134, R135). -/
def State.takeDelay (p : Fin 16) (tag : Byte) (d : DelayAsk) (s : State) : State :=
  ((s.endDelayOp p .superseded).openOp tag (.delay p)).progStep p (Program.takeDelay tag d)

/-- What RESTART does once every program is VACANT. -/
def State.restarted (now : Time) (s : State) : State :=
  { s with
    tb := { s.tb with schedule := [] }
    pool := { s.pool.returnWindow with check := none, fill := [] }
    alarm := s.alarm.restart now
    link := { s.link with ops := [], completions := [], receiver := .hunt, restarted := true } }

/-- The leaf changes of every command but power-on and the clock's period. -/
inductive Leaf (s : State) : State → Prop where
  | own {t : State} (step : OwnStep s t) : Leaf s t
  | asked {a : AlarmUnit} (step : AlarmRequest s.counter s.alarm a) : Leaf s { s with alarm := a }
  | buffer (b : List Frame) (room : b.length ≤ max 4 s.link.buffer.length) :
    Leaf s { s with link := { s.link with buffer := b } }
  | define (p : Fin 16) (tag : Byte) (maxDelay : Nat) (chs : List Channel) (vacant : s.program p = none)
      (opens : s.Opens tag) : Leaf s (s.defined p tag maxDelay chs)
  | delay (p : Fin 16) (tag : Byte) (d : DelayAsk) (opens : s.Opens tag) : Leaf s (s.takeDelay p tag d)
  | openCheck (tag : Byte) (opens : s.Opens tag) : Leaf s (s.openOp tag .check)
  | dropDelay (p : Fin 16) (x : Program) (defined : s.program p = some x) :
    Leaf s (s.setProgram p (some { x with align := { x.align with op := none } }))
  | vacate (p : Fin 16) : Leaf s (s.vacate p)
  | cancelEntries (f : SchedEntry → Bool) : Leaf s (s.cancelEntries f)
  | addEntry (e : SchedEntry) (nonzero : e.tag ≠ 0) (free : s.tagHeld e.tag = false)
      (ahead : s.tb.frameIndex.toNat < e.due.toNat) (room : s.tb.schedule.length < 32) :
    Leaf s { s with tb := { s.tb with schedule := insertEntry e s.tb.schedule } }
  | clearReady (l : Fin 4) : Leaf s (s.setLane l { s.lane l with blockReady := false })
  | restarted (vacant : ∀ p, s.program p = none) : Leaf s (s.restarted s.counter)

/-- Runs of the part's own leaf changes. -/
abbrev OwnReach : State → State → Prop := Relation.ReflTransGen OwnStep

/-- Runs of leaf changes. -/
abbrev Reach : State → State → Prop := Relation.ReflTransGen Leaf

theorem OwnReach.reach {s t : State} (h : OwnReach s t) :
    Reach s t := Relation.ReflTransGen.mono (fun _ _ => Leaf.own) _ _ h

theorem OwnStep.reach {s t : State} (h : OwnStep s t) : OwnReach s t := .single h

theorem Leaf.reach {s t : State} (h : Leaf s t) : Reach s t := .single h

/-- A property that every leaf change keeps is kept by a run. -/
theorem Reach.keeps {P : State → Prop} (h : ∀ a b, Leaf a b → P a → P b) {s t : State} (r : Reach s t) (hs : P s) :
    P t := by
  induction r with
  | refl => exact hs
  | tail _ last ih => exact h _ _ last ih

/-- A property that every one of the part's own leaf changes keeps is kept by a run of them. -/
theorem OwnReach.keeps {P : State → Prop} (h : ∀ a b, OwnStep a b → P a → P b) {s t : State} (r : OwnReach s t)
    (hs : P s) : P t := by
  induction r with
  | refl => exact hs
  | tail _ last ih => exact h _ _ last ih

theorem OwnReach.forAll {α : Type} (l : List α) {f : α → State → State} (h : ∀ a s, OwnReach s (f a s)) (s : State) :
    OwnReach s (Machine.forAll l f s) :=
  forAll_rel (fun _ => .refl) (fun _ _ _ => .trans) l h s

theorem Reach.forAll {α : Type} (l : List α) {f : α → State → State} (h : ∀ a s, Reach s (f a s)) (s : State) :
    Reach s (Machine.forAll l f s) :=
  forAll_rel (fun _ => .refl) (fun _ _ _ => .trans) l h s

end Sys2Proof.Machine
end

section
/-! PROOF. The part's own steps are runs of leaf changes: the walk through the model's operations, block by block. -/

namespace Sys2Proof.Machine

/-! ## The counter under the shared operations -/

@[simp] theorem State.progStep_counter (p : Fin 16) (f : Program → Program) (s : State) :
    (s.progStep p f).counter = s.counter := (keepsOutside_progStep p f s).counter

@[simp] theorem State.progStep_lanes (p : Fin 16) (f : Program → Program) (s : State) :
    (s.progStep p f).lanes = s.lanes := (keepsOutside_progStep p f s).lanes

/-- A lane's change reaches the programs by `realignFor` alone, which keeps everything outside them. -/
theorem keepsOutside_realignAll (l : Fin 4) (s : State) : KeepsOutside s (forAll allPrograms (State.realignFor l) s) :=
  forAll_rel KeepsOutside.refl (fun _ _ _ => KeepsOutside.trans) _ (fun _ _ => keepsOutside_progStep ..) s

@[simp] theorem State.laneStep_counter (l : Fin 4) (f : Lane → Lane) (s : State) :
    (s.laneStep l f).counter = s.counter := by
  unfold State.laneStep State.putLane
  split
  · rfl
  · dsimp only
    split
    · exact (keepsOutside_realignAll l _).counter
    · rfl

/-! ## Single leaf changes -/

theorem OwnReach.program (p : Fin 16) {f : Program → Program} {s : State} (h : ProgramStep s.lanes f) :
    OwnReach s (s.progStep p f) := (OwnStep.program p h).reach

theorem OwnReach.lane (l : Fin 4) {f : Lane → Lane} {s : State} (h : LaneStep s.counter f) :
    OwnReach s (s.laneStep l f) := (OwnStep.lane l h).reach

theorem OwnReach.alarm {s : State} (a : AlarmUnit) (h : AlarmStep s.counter s.alarm a) :
    OwnReach s { s with alarm := a } := (OwnStep.alarm h).reach

theorem OwnReach.link (s : State) (k : LinkPort) (ops : k.ops = s.link.ops) (buffer : k.buffer = s.link.buffer) :
    OwnReach s { s with link := k } := (OwnStep.link k ops buffer).reach

theorem OwnReach.memory (s : State) (pool : Pool) (dram : Dram) : OwnReach s { s with pool := pool, dram := dram } :=
  (OwnStep.memory pool dram).reach

theorem OwnReach.pool (s : State) (pool : Pool) : OwnReach s { s with pool := pool } := OwnReach.memory s pool s.dram

theorem OwnReach.closeOp (tag : Byte) (concern : Concern) (result : Result) (details : List Byte) (s : State) :
    OwnReach s (s.closeOp tag concern result details) := (OwnStep.closeOp ..).reach

/-- Steps of the Alarm Unit made for each point or contact of a list. -/
theorem OwnReach.alarmFold {α : Type} {f : AlarmUnit → α → AlarmUnit} (now : Time)
    (h : ∀ (s : State) (x : α), s.counter = now → OwnReach s { s with alarm := f s.alarm x }) (l : List α) (s : State)
    (hs : s.counter = now) : OwnReach s { s with alarm := l.foldl f s.alarm } := by
  induction l generalizing s with
  | nil => exact .refl
  | cons x rest ih => exact (h s x hs).trans (ih { s with alarm := f s.alarm x } hs)

/-- Requests of the Alarm Unit made for each point of a list. -/
theorem Reach.alarmFold {α : Type} {f : AlarmUnit → α → AlarmUnit} (now : Time)
    (h : ∀ (a : AlarmUnit) (x : α), AlarmRequest now a (f a x)) (l : List α) (s : State) (hs : s.counter = now) :
    Reach s { s with alarm := l.foldl f s.alarm } := by
  induction l generalizing s with
  | nil => exact .refl
  | cons x rest ih =>
    have first : Reach s { s with alarm := f s.alarm x } := (Leaf.asked (hs ▸ h s.alarm x)).reach
    exact first.trans (ih { s with alarm := f s.alarm x } hs)

/-! ## Lanes -/

/-- LANE_SLIP is an event kind. -/
theorem eventKind_slip : ∀ l : Fin 4, eventKind (lanePoint 2 l) = true := by decide

theorem slipStep_reach (l : Fin 4) (s : State) : OwnReach s (s.slipStep l) := by
  have step : OwnReach s (s.laneStep l Lane.slipStep) := OwnReach.lane l .slipStep
  have event (u : State) (h : u.counter = s.counter) :
      OwnReach u { u with alarm := u.alarm.event s.counter (lanePoint 2 l) } := by
    rw [← h]; exact OwnReach.alarm _ (.event _ (eventKind_slip l))
  unfold State.slipStep
  dsimp only
  split
  · exact step.trans (event _ (State.laneStep_counter ..))
  · exact step

theorem settleLane_reach (l : Fin 4) (s : State) : OwnReach s (s.settleLane l) := by
  have lost (s : State) : OwnReach s (s.clockLost l) := OwnReach.lane l .clockLost
  have control (s : State) : OwnReach s (s.controlInstant l) := OwnReach.lane l .controlInstant
  have pin (s : State) : OwnReach s (s.pinLimit l) := OwnReach.lane l .pinLimit
  have lock (s : State) : OwnReach s (s.lockMet l) := OwnReach.lane l .lockMet
  have window (s : State) : OwnReach s (s.windowEnd l) := OwnReach.lane l .windowEnd
  have ret (s : State) : OwnReach s (s.returnEnd l) := OwnReach.lane l .returnEnd
  have hold (s : State) : OwnReach s (s.holdoverExpiry l) := OwnReach.lane l .holdoverExpiry
  have fade (s : State) : OwnReach s (s.entryFadeEnd l) := OwnReach.lane l .entryFadeEnd
  have slipEnd (s : State) : OwnReach s (s.slipEnd l) := OwnReach.lane l .slipEnd
  exact (((((((((lost s).trans (control _)).trans (pin _)).trans (lock _)).trans (window _)).trans (ret _)).trans
    (hold _)).trans (fade _)).trans (slipStep_reach l _)).trans (slipEnd _)

/-! ## The timebase -/

theorem referenceLost_reach (i : RefInput) (s : State) : OwnReach s (s.referenceLost i) := by
  unfold State.referenceLost
  split
  · exact (OwnStep.time (.lose i)).reach
  · exact .refl

theorem holdExpiry_reach (s : State) : OwnReach s s.holdExpiry := by
  unfold State.holdExpiry
  split
  · exact (OwnStep.time .holdExpire).reach
  · exact .refl

theorem revertExpiry_reach (s : State) : OwnReach s s.revertExpiry := by
  unfold State.revertExpiry
  split
  · exact (OwnStep.time .revert).reach
  · exact .refl

theorem frameBoundary_reach (s : State) : OwnReach s s.frameBoundary := by
  unfold State.frameBoundary
  split
  · exact (OwnStep.time .boundary).reach
  · exact .refl

theorem realignTimeout_reach (s : State) : OwnReach s s.realignTimeout := by
  unfold State.realignTimeout
  split
  · exact (OwnStep.time .realignTimeout).reach
  · exact .refl

theorem referencePulse_reach (i : RefInput) (marked : Bool) (s : State) : OwnReach s (s.referencePulse i marked) :=
  (OwnStep.time (.pulse i marked)).reach

theorem settleReferences_reach (s : State) : OwnReach s s.settleReferences :=
  (((referenceLost_reach .a s).trans (referenceLost_reach .b _)).trans (holdExpiry_reach _)).trans
    (revertExpiry_reach _)

/-! ## The link's own steps -/

/-- A frame error is counted, and its event handed to the Alarm Unit. -/
theorem linkError_reach (s : State) : OwnReach s s.linkError := by
  have event := OwnReach.alarm (s := s) _ (.event linkErrorPoint (by decide))
  exact event.trans (OwnReach.link { s with alarm := _ } { s.link with linkErr := true } rfl rfl)

theorem crcError_reach (s : State) : OwnReach s s.crcError :=
  (OwnReach.link s { s.link with crcErrors := holdAt 65535 (s.link.crcErrors + 1) } rfl rfl).trans (linkError_reach _)

theorem lengthError_reach (s : State) : OwnReach s s.lengthError :=
  (OwnReach.link s { s.link with
      receiver := .hunt, lengthErrors := holdAt 65535 (s.link.lengthErrors + 1) } rfl rfl).trans (linkError_reach _)

theorem gapError_reach (s : State) : OwnReach s s.gapError :=
  (OwnReach.link s { s.link with receiver := .hunt, gapErrors := holdAt 65535 (s.link.gapErrors + 1) } rfl rfl).trans
    (linkError_reach _)

theorem overrun_reach (s : State) : OwnReach s s.overrun :=
  (OwnReach.link s { s.link with overruns := holdAt 65535 (s.link.overruns + 1) } rfl rfl).trans (linkError_reach _)

theorem gapCheck_reach (s : State) : OwnReach s s.gapCheck := by
  unfold State.gapCheck
  split
  · exact gapError_reach s
  · exact .refl

theorem transmit_reach (s : State) : OwnReach s s.transmit := by
  unfold State.transmit
  split
  · exact .refl
  · split
    · exact OwnReach.link s _ rfl rfl
    · split
      · exact OwnReach.link s _ rfl rfl
      · split
        · rename_i n rest queue
          have pop := OwnReach.alarm _ (.popNotice n rest queue)
          exact pop.trans (OwnReach.link { s with alarm := _ } { s.link with sending := _ } rfl rfl)
        · exact .refl

theorem endSending_reach (s : State) : OwnReach s s.endSending :=
  (OwnReach.link s { s.link with sending := none } rfl rfl).trans (transmit_reach _)

theorem settleTime_reach (s : State) : OwnReach s s.settleTime :=
  ((((settleReferences_reach s).trans (realignTimeout_reach _)).trans (frameBoundary_reach _)).trans
    (settleReferences_reach _)).trans (gapCheck_reach _)

/-! ## Programs -/

theorem settleChannel_reach (p : Fin 16) (c : Fin 8) (s : State) : OwnReach s (s.settleChannel p c) := by
  have switch (s : State) : OwnReach s (s.changeoverSwitch p c) := OwnReach.program p (.changeoverSwitch c.val)
  have fadeEnd (s : State) : OwnReach s (s.changeoverEnd p c) := OwnReach.program p (.changeoverEnd c.val)
  have trim (s : State) : OwnReach s (s.trimStep p c) := OwnReach.program p (.stepTrim c.val)
  have trimEnd (s : State) : OwnReach s (s.trimStepEnd p c) := OwnReach.program p (.endTrimStep c.val)
  exact (((switch s).trans (fadeEnd _)).trans (trim _)).trans (trimEnd _)

theorem settleProgram_reach (p : Fin 16) (s : State) : OwnReach s (s.settleProgram p) := by
  have air (s : State) : OwnReach s (s.onAirEnd p) := OwnReach.program p .onAirEnd
  have mute (s : State) : OwnReach s (s.muteFadeEnd p) := OwnReach.program p .muteEnd
  have jump (s : State) : OwnReach s (s.cutJump p) := OwnReach.program p .cutJump
  have cutIn (s : State) : OwnReach s (s.cutInEnd p) := OwnReach.program p .cutInEnd
  have slew (s : State) : OwnReach s (s.slewArrival p) := OwnReach.program p .slewArrival
  have bypass (s : State) : OwnReach s (s.bypassSwitch p) := OwnReach.program p .bypassSwitch
  have fadeIn (s : State) : OwnReach s (s.bypassFadeInEnd p) := OwnReach.program p .bypassFadeInEnd
  have ramp (s : State) : OwnReach s (s.gainRampEnd p) := OwnReach.program p .rampEnd
  have gain (s : State) : OwnReach s (s.gainEntryDue p) := OwnReach.program p (.applyDue _)
  have channels := ((air s).trans (mute _)).trans (OwnReach.forAll allChannels (settleChannel_reach p) _)
  exact ((((((channels.trans (jump _)).trans (cutIn _)).trans (slew _)).trans (bypass _)).trans (fadeIn _)).trans
    (ramp _)).trans (gain _)

theorem blockEnd_reach (s : State) : OwnReach s s.blockEnd := by
  unfold State.blockEnd
  split
  · exact OwnReach.forAll _ (fun p _ => OwnReach.program p (.blockEnd _)) s
  · exact .refl

/-! ## The delay memory's own steps -/

theorem enterStandby_reach (p : Fin 16) (s : State) : OwnReach s (s.enterStandby p) := by
  unfold State.enterStandby
  split
  · exact .refl
  · rename_i x defined
    have put := (OwnStep.standby p x defined).reach
    dsimp only
    split
    · exact put.trans (OwnReach.closeOp ..)
    · exact put

theorem fillPage_reach (s : State) : OwnReach s s.fillPage := by
  unfold State.fillPage
  split
  · exact .refl
  · split
    · dsimp only
      split
      · exact OwnReach.memory ..
      · exact (OwnReach.memory ..).trans (enterStandby_reach ..)
    · exact .refl

theorem endCheck_reach (result : Result) (s : State) : OwnReach s (s.endCheck result) := by
  unfold State.endCheck
  split
  · exact .refl
  · dsimp only
    split
    · exact OwnReach.pool ..
    · exact (OwnReach.pool ..).trans (OwnReach.closeOp ..)

theorem nextWindow_reach (s : State) : OwnReach s s.nextWindow := by
  unfold State.nextWindow
  split
  · exact .refl
  · split
    · exact .refl
    · split
      · exact endCheck_reach ..
      · exact OwnReach.pool ..

theorem endPageTest_reach (s : State) : OwnReach s s.endPageTest := by
  unfold State.endPageTest
  split
  · split
    · exact (OwnReach.memory s _ _).trans (nextWindow_reach _)
    · exact .refl
  · exact .refl

theorem cancelCheck_reach (s : State) : OwnReach s s.cancelCheck := (OwnReach.pool s _).trans (endCheck_reach ..)

/-! ## Alarm boundaries -/

theorem eventPointRest_reach (pt : Fin 118) (s : State) : OwnReach s (s.eventPointRest pt) := by
  unfold State.eventPointRest
  split
  · exact OwnReach.alarm _ (.restPoint pt)
  · exact .refl

theorem filterRise_reach (pt : Fin 118) (s : State) : OwnReach s (s.filterRise pt) := by
  unfold State.filterRise
  split
  · exact OwnReach.alarm _ (.filterRise pt)
  · exact .refl

theorem filterFall_reach (pt : Fin 118) (s : State) : OwnReach s (s.filterFall pt) := by
  unfold State.filterFall
  split
  · exact OwnReach.alarm _ (.filterFall pt)
  · exact .refl

theorem retryExpiry_reach (pt : Fin 118) (s : State) : OwnReach s (s.retryExpiry pt) := by
  unfold State.retryExpiry
  split
  · exact OwnReach.alarm _ (.retry pt)
  · exact .refl

/-- The four judgements of one point, one after another. -/
theorem judge_reach (now : Time) (s : State) (pt : Fin 118) (hs : s.counter = now) :
    OwnReach s { s with alarm := s.alarm.judge now pt } := by
  subst hs
  have rest := OwnReach.alarm _ (.restPoint (a := s.alarm) pt)
  have rise (a : AlarmUnit) : OwnReach { s with alarm := a } { s with alarm := a.filterRise s.counter pt } :=
    OwnReach.alarm (s := { s with alarm := a }) _ (.filterRise pt)
  have fall (a : AlarmUnit) : OwnReach { s with alarm := a } { s with alarm := a.filterFall s.counter pt } :=
    OwnReach.alarm (s := { s with alarm := a }) _ (.filterFall pt)
  have retry (a : AlarmUnit) : OwnReach { s with alarm := a } { s with alarm := a.retry s.counter pt } :=
    OwnReach.alarm (s := { s with alarm := a }) _ (.retry pt)
  exact ((rest.trans (rise _)).trans (fall _)).trans (retry _)

theorem readContactPins_reach (s : State) : OwnReach s s.readContactPins := by
  have read (v : State) (c : Fin 4) (hv : v.counter = s.counter) :
      OwnReach v { v with alarm := v.alarm.readContact s.counter c } := by
    rw [← hv]; exact OwnReach.alarm _ (.readContact c)
  have pins := OwnReach.alarmFold s.counter read allLanes s rfl
  exact pins.trans (OwnReach.forAll _ (fun p _ => OwnReach.program p (.resetIntegration _)) _)

theorem alarmBoundary_reach (s : State) : OwnReach s s.alarmBoundary := by
  have silence : OwnReach s s.judgeSilence := by
    unfold State.judgeSilence
    exact OwnReach.forAll _ (fun p _ => OwnReach.program p (.judgeSilence ..)) s
  have points (u : State) : OwnReach u u.judgePoints :=
    OwnReach.alarmFold u.counter (judge_reach u.counter) allPoints u rfl
  have taken (u : State) : OwnReach u { u with alarm := { u.alarm with boundaryTaken := true } } :=
    OwnReach.alarm _ .boundaryTaken
  unfold State.alarmBoundary
  split
  · have judged := (silence.trans (readContactPins_reach _)).trans (points _)
    exact judged.trans (taken _)
  · exact .refl

theorem settle_reach (s : State) : OwnReach s s.settle := by
  have lanes := (settleTime_reach s).trans (OwnReach.forAll allLanes settleLane_reach _)
  have programs := (lanes.trans (blockEnd_reach _)).trans (OwnReach.forAll allPrograms settleProgram_reach _)
  exact ((programs.trans (fillPage_reach _)).trans (endPageTest_reach _)).trans (alarmBoundary_reach _)

end Sys2Proof.Machine
end

section
/-! PROOF. The audio of a house sample is a run of the part's own leaf changes. -/

namespace Sys2Proof.Machine

/-! ## What the ring reads leave unchanged in a program -/

theorem Program.AudioOnly.refl (x : Program) : x.AudioOnly x := ⟨rfl, rfl, rfl, rfl, rfl⟩

theorem Program.AudioOnly.trans {x y z : Program} (h : x.AudioOnly y) (k : y.AudioOnly z) : x.AudioOnly z :=
  ⟨k.align.trans h.align, k.corr.trans h.corr, k.state.trans h.state, k.silentRun.trans h.silentRun,
    k.hist.trans h.hist⟩

theorem audioOnly_takeInput (now : Time) (lanes : Vector Lane 4) (held : Bool) (x : Program) :
    x.AudioOnly (x.takeInput now lanes held) := ⟨rfl, rfl, rfl, rfl, rfl⟩

theorem audioOnly_channels (x : Program) (l : List Channel) : x.AudioOnly { x with channels := l } :=
  ⟨rfl, rfl, rfl, rfl, rfl⟩

theorem audioOnly_fetch (m : Dram) (stuck : List Host.Cell) (c : Nat) (i : Int) (x : Program) :
    x.AudioOnly (x.fetch m stuck c i).program := by
  unfold Program.fetch
  dsimp only
  split
  · exact .refl x
  · split <;> exact ⟨rfl, rfl, rfl, rfl, rfl⟩

theorem audioOnly_serve (m : Dram) (stuck : List Host.Cell) (n c : Nat) (i : Int) (x : Program) :
    x.AudioOnly (x.serve m stuck n c i).program := by
  unfold Program.serve
  split
  · exact .refl x
  · split
    · exact .refl x
    · split
      · exact .refl x
      · exact audioOnly_fetch ..

theorem audioOnly_setDelayed (c : Nat) (v : Sample) (x : Program) : x.AudioOnly (x.setDelayed c v) :=
  audioOnly_channels ..

theorem audioOnly_readChannel (m : Dram) (stuck : List Host.Cell) (n : Nat) (x : Program) (c : Nat) :
    x.AudioOnly (x.readChannel m stuck n c).1 := by
  have serve (i : Int) (y : Program) (h : x.AudioOnly y) : x.AudioOnly (y.serve m stuck n c i).program :=
    h.trans (audioOnly_serve ..)
  unfold Program.readChannel
  dsimp only
  split
  · exact (serve _ _ (.refl x)).trans (audioOnly_setDelayed ..)
  · exact (serve _ _ (serve _ _ (serve _ _ (serve _ _ (.refl x))))).trans (audioOnly_setDelayed ..)

theorem audioOnly_readAll (m : Dram) (stuck : List Host.Cell) (n : Nat) (x : Program) :
    x.AudioOnly (x.readAll m stuck n).1 := by
  have fold (l : List Nat) (r : Program × Nat) (h : x.AudioOnly r.1) :
      x.AudioOnly (l.foldl (fun r c => let k := r.1.readChannel m stuck n c; (k.1, r.2 + k.2)) r).1 := by
    induction l generalizing r with
    | nil => exact h
    | cons c rest ih => exact ih _ (h.trans (audioOnly_readChannel ..))
  exact fold _ _ (.refl x)

theorem audioOnly_formDelayed (m : Dram) (stuck : List Host.Cell) (n : Nat) (x : Program) :
    x.AudioOnly (x.formDelayed m stuck n).1 := by
  unfold Program.formDelayed
  split
  · exact .refl x
  · split
    · exact audioOnly_channels ..
    · exact audioOnly_readAll ..

theorem audioOnly_formOutputs (threshold count : Nat) (x : Program) :
    x.AudioOnly (x.formOutputs threshold count) := by
  unfold Program.formOutputs
  split
  · exact .refl x
  · exact audioOnly_channels ..

theorem audioOnly_takeRead (y x : Program) : x.AudioOnly (y.takeRead x) := ⟨rfl, rfl, rfl, rfl, rfl⟩

/-! ## The stages of the audio -/

theorem OwnReach.record {s : State} {p : Fin 16} {x y : Program} (defined : s.program p = some x)
    (audio : x.AudioOnly y) : OwnReach s (s.setProgram p (some y)) := (OwnStep.record p x y defined audio).reach

theorem takeInput_reach (p : Fin 16) (s : State) : OwnReach s (s.takeInput p) := by
  unfold State.takeInput
  split
  · exact .refl
  · exact OwnReach.record ‹_› (audioOnly_takeInput ..)

theorem writeRing_reach (p : Fin 16) (s : State) : OwnReach s (s.writeRing p) := by
  unfold State.writeRing
  split
  · exact .refl
  · split
    · rename_i x hx _
      have gathered := OwnReach.record hx (audioOnly_channels x (x.channels.map (Channel.gather s.counter.toNat)))
      exact gathered.trans (OwnReach.memory _ s.pool _)
    · exact .refl

/-- PROG_OVER is an event kind. -/
theorem eventKind_over : ∀ p : Fin 16, eventKind (progPoint 1 p) = true := by decide

/-- PROG_MEMORY is an event kind. -/
theorem eventKind_memory : ∀ p : Fin 16, eventKind (progPoint 5 p) = true := by decide

theorem memoryEvents_reach (p : Fin 16) (n : Nat) (s : State) :
    OwnReach s { s with alarm := s.alarm.memoryEvents s.counter p n } := by
  induction n generalizing s with
  | zero => exact .refl
  | succ n ih =>
    have event := OwnReach.alarm (s := s) _ (.event (progPoint 5 p) (eventKind_memory p))
    exact event.trans (ih { s with alarm := s.alarm.event s.counter (progPoint 5 p) })

theorem countReadErrors_reach (p : Fin 16) (n : Nat) (s : State) : OwnReach s (s.countReadErrors p n) :=
  (memoryEvents_reach p n s).trans (OwnReach.pool { s with alarm := s.alarm.memoryEvents s.counter p n } _)

theorem handBypass_reach (p : Fin 16) (s : State) : OwnReach s (s.handBypass p) := OwnReach.program p (.takeBypass _)

theorem handDemands_reach (p : Fin 16) (s : State) :
    OwnReach s (s.handDemands p) := OwnReach.program p (.takeDemands ..)

theorem readRing_reach (p : Fin 16) (s : State) : OwnReach s (s.readRing p) := by
  unfold State.readRing
  dsimp only
  split
  · rename_i x y hx hy
    have read : OwnReach s
        (((s.handBypass p).setProgram p (some (y.formDelayed s.dram s.stuck s.counter.toNat).1)).countReadErrors p
          (y.formDelayed s.dram s.stuck s.counter.toNat).2) :=
      ((handBypass_reach p s).trans (OwnReach.record hy (audioOnly_formDelayed ..))).trans (countReadErrors_reach ..)
    split
    · exact (OwnReach.record hx (audioOnly_takeRead _ x)).trans (countReadErrors_reach ..)
    · exact read.trans (handBypass_reach ..)
  · exact .refl

theorem overEvent_reach (p : Fin 16) (c : Fin 8) (s : State) : OwnReach s (s.overEvent p c) := by
  unfold State.overEvent
  split
  · exact .refl
  · split
    · rename_i x hx _
      have cleared := OwnReach.record hx (audioOnly_channels x (x.channels.modify c.val Channel.clearOver))
      have event (u : State) (h : u.counter = s.counter) :
          OwnReach u { u with alarm := u.alarm.event s.counter (progPoint 1 p) } := by
        rw [← h]; exact OwnReach.alarm _ (.event _ (eventKind_over p))
      exact cleared.trans (event _ rfl)
    · exact .refl

/-- R145 to R147: the output of a program is the one formed under the pad handed over, the one formed under a new pad,
or that one's with the over runs of the other. -/
theorem formOutput_cases (p : Fin 16) (s : State) :
    s.formOutput p = (s.handPad p).outputUnder p ∨ s.formOutput p = (s.padded p true).outputUnder p
      ∨ s.formOutput p = ((s.padded p true).outputUnder p).overThenPad p ((s.handPad p).outputUnder p) := by
  unfold State.formOutput
  dsimp only
  split
  · exact .inl rfl
  · split
    · exact .inr (.inl rfl)
    · split
      · exact .inr (.inr rfl)
      · exact .inl rfl

/-- R145: the outputs of a house sample formed, with its egress slots still to be sent. -/
def State.formed (s : State) : State :=
  let inputs := forAll allPrograms State.takeInput (forAll allPrograms State.handDemands s).interpolate
  forAll allPrograms State.formOutput (forAll allPrograms State.readRing (forAll allPrograms State.writeRing inputs))

theorem audio_eq (s : State) : s.audio = s.formed.sendEgress := rfl

theorem formed_reach (s : State) : OwnReach s s.formed := by
  have demands := OwnReach.forAll allPrograms handDemands_reach s
  have inputs := (demands.trans OwnStep.interpolate.reach).trans (OwnReach.forAll allPrograms takeInput_reach _)
  have ring := (inputs.trans (OwnReach.forAll allPrograms writeRing_reach _)).trans
    (OwnReach.forAll allPrograms readRing_reach _)
  exact ring.trans (OwnReach.forAll allPrograms (fun p _ => (OwnStep.output p).reach) _)

end Sys2Proof.Machine
end

section
/-! PROOF. A request, and so every command other than power-on and the clock's period, is a run of leaf changes. -/

namespace Sys2Proof.Machine

/-! ## Requests that name a program -/

theorem withProgram_reach {b : Byte} {f : Fin 16 → Program → Answer} {s : State}
    (h : ∀ p x, s.program p = some x → Reach s (f p x).state) : Reach s (s.withProgram b f).state := by
  unfold State.withProgram
  split
  · exact .refl
  · split
    · exact .refl
    · exact h _ _ ‹_›

theorem Reach.program (p : Fin 16) {f : Program → Program} {s : State} (h : ProgramStep s.lanes f) :
    Reach s (s.progStep p f) := (OwnReach.program p h).reach

/-- An answer that leaves the state as it was, or has made one operation on one program. -/
def Answer.MakesStep (s : State) (a : Answer) : Prop :=
  a.state = s ∨ ∃ p f, ProgramStep s.lanes f ∧ a.state = s.progStep p f

theorem Answer.MakesStep.refuse (r : Result) (s : State) : (Answer.refuse r s).MakesStep s := .inl rfl

theorem Answer.MakesStep.program {s : State} {a : Answer} (p : Fin 16) {f : Program → Program}
    (h : ProgramStep s.lanes f) (e : a.state = s.progStep p f) : a.MakesStep s := .inr ⟨p, f, h, e⟩

theorem Answer.MakesStep.reach {s : State} {a : Answer} (h : a.MakesStep s) : Reach s a.state := by
  obtain same | ⟨p, f, step, made⟩ := h
  · rw [same]
  · rw [made]; exact Reach.program p step

theorem withProgram_step {b : Byte} {f : Fin 16 → Program → Answer} {s : State}
    (h : ∀ p x, s.program p = some x → (f p x).MakesStep s) : (s.withProgram b f).MakesStep s := by
  unfold State.withProgram
  split
  · exact .refuse ..
  · split
    · exact .refuse ..
    · exact h _ _ ‹_›

theorem startProgram_step (b : Byte) (s : State) : (s.startProgram b).MakesStep s :=
  withProgram_step fun p x _ => by
    split
    · exact .refuse ..
    · exact .program p .start rfl

theorem stopProgram_step (b : Byte) (s : State) : (s.stopProgram b).MakesStep s :=
  withProgram_step fun p x _ => by
    split
    · exact .refuse ..
    · exact .program p .stop rfl

theorem selectSource_step (b c m : Byte) (s : State) : (s.selectSource b c m).MakesStep s :=
  withProgram_step fun p x _ => by
    split
    · exact .refuse ..
    · split
      · exact .program p (.takeModes _) rfl
      · split
        · exact .refuse ..
        · exact .program p (.takeMode ..) rfl

theorem setChannelSource_step (b c i j : Byte) (s : State) : (s.setChannelSource b c i j).MakesStep s :=
  withProgram_step fun p x _ => by
    split
    · exact .refuse ..
    · split
      · exact .refuse ..
      · split
        · exact .program p (.takeSources ..) rfl
        · exact .refuse ..

theorem setLoudness_step (b m : Byte) (f : LoudnessFields) (s : State) : (s.setLoudness b m f).MakesStep s :=
  withProgram_step fun p x _ => by
    split
    · exact .refuse ..
    · exact .program p (.setLoudness _) rfl

theorem resetIntegration_step (b : Byte) (s : State) : (s.resetIntegration b).MakesStep s :=
  withProgram_step fun p _ _ => .program p (.resetIntegration _) rfl

theorem pauseIntegration_step (flag : Bool) (b : Byte) (s : State) : (s.pauseIntegration flag b).MakesStep s :=
  withProgram_step fun p _ _ => .program p (.pause flag) rfl

theorem muteProgram_step (b f : Byte) (s : State) : (s.muteProgram b f).MakesStep s := by
  unfold State.muteProgram
  split
  · exact .refuse ..
  · exact withProgram_step fun p _ _ => .program p (.mute _) rfl

/-- R18: an immediate inner request makes one operation on one program, or nothing. -/
theorem runInner_step (r : Request) (s : State) : (s.runInner r).MakesStep s := by
  unfold State.runInner
  split
  · exact startProgram_step ..
  · exact stopProgram_step ..
  · exact selectSource_step ..
  · exact resetIntegration_step ..
  · exact setLoudness_step ..
  · exact muteProgram_step ..
  · exact .refuse ..

theorem readLoudness_reach (b f : Byte) (s : State) : Reach s (s.readLoudness b f).state :=
  withProgram_reach fun p x _ => by split <;> exact .refl

theorem setDelay_reach (tag b : Byte) (f : DelayFields) (s : State) (opens : s.Opens tag) :
    Reach s (s.setDelay tag b f).state :=
  withProgram_reach fun p x _ => by
    split
    · exact .refl
    · exact (Leaf.delay p tag _ opens).reach

/-! ## Definitions and the end of work -/

theorem acceptDefinition_eq (p : Fin 16) (tag : Byte) (maxDelay : Nat) (chs : List Channel) (s : State) :
    s.acceptDefinition p tag maxDelay chs =
      if (s.freshProgram p tag maxDelay chs).rows = 0 then (s.defined p tag maxDelay chs).enterStandby p
      else s.defined p tag maxDelay chs := rfl

theorem acceptDefinition_reach (p : Fin 16) (tag : Byte) (maxDelay : Nat) (chs : List Channel) (s : State)
    (vacant : s.program p = none) (opens : s.Opens tag) : Reach s (s.acceptDefinition p tag maxDelay chs) := by
  have made := (Leaf.define p tag maxDelay chs vacant opens).reach
  rw [acceptDefinition_eq]
  split
  · exact made.trans (enterStandby_reach p _).reach
  · exact made

theorem defineProgram_reach (tag b : Byte) (d : BitVec 16) (defs : List ChannelDef) (s : State) (opens : s.Opens tag) :
    Reach s (s.defineProgram tag b d defs).state := by
  unfold State.defineProgram
  split
  · exact .refl
  rename_i p _
  split
  · exact .refl
  rename_i vacant
  split
  · exact .refl
  split
  · exact .refl
  split
  · exact .refl
  unfold State.judgeDefinition
  dsimp only
  split
  · exact .refl
  split
  · exact .refl
  split
  · exact .refl
  exact acceptDefinition_reach p tag _ _ s (by simpa using vacant) opens

theorem endDelayOp_reach (p : Fin 16) (r : Result) (s : State) : Reach s (s.endDelayOp p r) := by
  unfold State.endDelayOp
  split
  · exact .refl
  · split
    · exact .refl
    · exact (Leaf.dropDelay p _ ‹_›).reach.trans (OwnReach.closeOp ..).reach

theorem endDefinition_reach (p : Fin 16) (tag : Byte) (r : Result) (s : State) :
    Reach s (s.endDefinition p tag r) := by
  unfold State.endDefinition
  split
  · exact .refl
  · exact (Leaf.vacate p).reach.trans (OwnReach.closeOp ..).reach

theorem releaseProgram_reach (b : Byte) (s : State) : Reach s (s.releaseProgram b).state :=
  withProgram_reach fun p x _ => by
    split
    · exact .refl
    · have ended : Reach s (match x.openDef with
          | some tag => s.endDefinition p tag .aborted
          | none => (s.endDelayOp p .aborted).vacate p) := by
        split
        · exact endDefinition_reach ..
        · exact (endDelayOp_reach ..).trans (Leaf.vacate p).reach
      exact ended.trans (Leaf.cancelEntries _).reach

theorem cancelDelay_reach (p : Fin 16) (s : State) : Reach s (s.cancelDelay p) := by
  unfold State.cancelDelay
  split
  · exact .refl
  · split
    · exact .refl
    · exact ((Leaf.dropDelay p _ ‹s.program p = _›).reach.trans (OwnReach.closeOp ..).reach).trans
        (Reach.program p .stopDelay)

theorem cancelOp_reach (s : State) (e : OpEntry) : Reach s (s.cancelOp e) := by
  unfold State.cancelOp
  split
  · exact endDefinition_reach ..
  · exact cancelDelay_reach ..
  · exact (cancelCheck_reach s).reach

theorem cancel_reach (target : Byte) (s : State) : Reach s (s.cancel target).state := by
  have all (l : List OpEntry) (u : State) : Reach u (l.foldl State.cancelOp u) := by
    induction l generalizing u with
    | nil => exact .refl
    | cons e rest ih => exact (cancelOp_reach u e).trans (ih _)
  unfold State.cancel
  split
  · exact (all _ _).trans (Leaf.cancelEntries _).reach
  · split
    · exact cancelOp_reach ..
    · split
      · exact (Leaf.cancelEntries _).reach
      · exact .refl

theorem vacate_program (p q : Fin 16) (s : State) :
    (s.vacate p).program q = if p = q then none else s.program q := by
  unfold State.vacate
  split
  · split
    · subst p; assumption
    · rfl
  · split
    · subst p; exact State.program_setProgram ..
    · exact State.program_setProgram_ne _ _ _ _ ‹_›

theorem vacate_counter (p : Fin 16) (s : State) : (s.vacate p).counter = s.counter := by
  unfold State.vacate
  split <;> rfl

/-- With each program of a list made VACANT, a program is VACANT where it is in the list, or was before. -/
theorem vacateAll_program (l : List (Fin 16)) (q : Fin 16) (s : State) (h : q ∈ l ∨ s.program q = none) :
    (forAll l State.vacate s).program q = none := by
  induction l generalizing s with
  | nil => exact h.resolve_left (by simp)
  | cons p rest ih =>
    refine ih (s.vacate p) ?_
    rw [vacate_program]
    split
    · exact .inr rfl
    · rename_i ne
      exact h.imp_left fun mem => (List.mem_cons.1 mem).resolve_left (Ne.symm ne)

theorem vacateAll_counter (l : List (Fin 16)) (s : State) : (forAll l State.vacate s).counter = s.counter :=
  forAll_rel (R := fun a b => b.counter = a.counter) (fun _ => rfl) (fun _ _ _ h k => k.trans h) l
    (fun p s => vacate_counter p s) s

theorem mem_allPrograms : ∀ p : Fin 16, p ∈ allPrograms := by decide

theorem restartAll_eq (s : State) : s.restartAll = (forAll allPrograms State.vacate s).restarted s.counter := rfl

theorem restartAll_reach (s : State) : Reach s s.restartAll := by
  have vacated : Reach s (forAll allPrograms State.vacate s) := Reach.forAll _ (fun p _ => (Leaf.vacate p).reach) s
  have last := (Leaf.restarted fun p => vacateAll_program allPrograms p s (.inl (mem_allPrograms p))).reach
  rw [vacateAll_counter] at last
  rw [restartAll_eq]
  exact vacated.trans last

/-! ## The other requests -/

theorem Reach.lane (l : Fin 4) {f : Lane → Lane} {s : State} (h : LaneStep s.counter f) :
    Reach s (s.laneStep l f) := (OwnReach.lane l h).reach

theorem withLane_reach {b : Byte} {f : Fin 4 → Answer} {s : State} (h : ∀ l, Reach s (f l).state) :
    Reach s (s.withLane b f).state := by
  unfold State.withLane
  split
  · exact .refl
  · exact h _

theorem configureLane_reach (b e a h : Byte) (s : State) : Reach s (s.configureLane b e a h).state :=
  withLane_reach fun l => by
    split
    · exact Reach.lane l (.configure ..)
    · exact .refl

theorem admitLane_reach (b : Byte) (s : State) : Reach s (s.admitLane b).state :=
  withLane_reach fun l => Reach.lane l .takeAdmit

theorem restartLane_reach (b : Byte) (s : State) : Reach s (s.restartLane b).state :=
  withLane_reach fun l => by
    split
    · exact Reach.lane l .restart
    · exact .refl

theorem readLane_reach (b : Byte) (s : State) : Reach s (s.readLane b).state :=
  withLane_reach fun l => (Leaf.clearReady l).reach

theorem setTimebase_reach (r p v h : Byte) (s : State) : Reach s (s.setTimebase r p v h).state := by
  unfold State.setTimebase
  split
  · exact (OwnStep.time (.configure ..)).reach.reach.trans (holdExpiry_reach _).reach
  · exact .refl

theorem beginCheck_reach (tag : Byte) (s : State) (opens : s.Opens tag) : Reach s (s.beginCheck tag) := by
  let begun : State := { s with pool := { s.pool with check := some ⟨tag, s.pool.free.length, 0, 0, 0⟩, testRun := 0 } }
  have first : Reach s begun := (OwnReach.pool s _).reach
  have opened : Leaf begun (begun.openOp tag .check) := .openCheck tag opens
  exact (first.trans opened.reach).trans (nextWindow_reach _).reach

theorem checkMemory_reach (tag : Byte) (s : State) (opens : s.Opens tag) : Reach s (s.checkMemory tag).state := by
  unfold State.checkMemory
  split
  · exact .refl
  · split
    · exact .refl
    · exact beginCheck_reach tag s opens

theorem Reach.asked {s : State} (a : AlarmUnit) (h : AlarmRequest s.counter s.alarm a) :
    Reach s { s with alarm := a } := (Leaf.asked h).reach

theorem setAlarmKind_reach (b : Byte) (f : KindFields) (s : State) : Reach s (s.setAlarmKind b f).state := by
  unfold State.setAlarmKind
  split
  · split
    · exact .refl
    · exact Reach.asked _ (.setKind ..)
  · exact .refl

theorem ackAlarm_reach (b : Byte) (s : State) : Reach s (s.ackAlarm b).state := by
  unfold State.ackAlarm
  split
  · exact Reach.alarmFold s.counter (fun _ pt => .acknowledge pt) _ s rfl
  · split
    · exact Reach.asked _ (.acknowledge _)
    · exact .refl

theorem clearProtection_reach (b : Byte) (s : State) : Reach s (s.clearProtection b).state := by
  unfold State.clearProtection
  split
  · exact Reach.alarmFold s.counter (fun _ pt => .clearPoint pt) _ s rfl
  · split
    · split
      · exact .refl
      · exact Reach.asked _ (.clearPoint _)
    · exact .refl

theorem setSummaryOutput_reach (b : Byte) (f : SummaryFields) (s : State) : Reach s (s.setSummaryOutput b f).state := by
  unfold State.setSummaryOutput
  split
  · split
    · exact .refl
    · exact Reach.asked _ (.setSummary _)
  · exact .refl

theorem setContact_reach (b : Byte) (f : ContactFields) (s : State) : Reach s (s.setContact b f).state := by
  unfold State.setContact
  split
  · exact Reach.asked _ (.changeContact ..)
  · exact .refl

theorem addEntry_reach (tag : Byte) (due : FrameIndex) (kind : Byte) (inner : List Byte) (s : State) :
    Reach s (s.addEntry tag due kind inner).state := by
  unfold State.addEntry
  split
  · exact .refl
  split
  · exact .refl
  split
  · exact .refl
  rename_i nonzero
  split
  · exact .refl
  rename_i free
  split
  · exact .refl
  rename_i ahead
  split
  · exact .refl
  rename_i room
  exact (Leaf.addEntry ⟨tag, due, kind, inner⟩ nonzero (by simpa using free) (by simpa using ahead)
    (by simpa using room)).reach

/-! ## Judging and taking -/

/-- Every request does what leaf changes do, where one that opens an operation may open it. -/
theorem answer_reach (tag : Byte) (r : Request) (s : State) (opens : opensOp r = true → s.Opens tag) :
    Reach s (s.answer tag r).state := by
  cases r with
  | identify | readSchedule | readTime | readPool | readContacts => exact .refl
  | readStatus => exact (OwnReach.link s _ (by rfl) (by rfl)).reach
  | restart => exact restartAll_reach s
  | cancel target => exact cancel_reach target s
  | schedule due kind inner => exact addEntry_reach tag due kind inner s
  | setTimebase r p v h => exact setTimebase_reach r p v h s
  | setLane l e a h => exact configureLane_reach l e a h s
  | laneAdmit l => exact admitLane_reach l s
  | laneRestart l => exact restartLane_reach l s
  | readLane l => exact readLane_reach l s
  | defineProgram p d chs => exact defineProgram_reach tag p d chs s (opens rfl)
  | start p => exact (startProgram_step p s).reach
  | stop p => exact (stopProgram_step p s).reach
  | release p => exact releaseProgram_reach p s
  | selectSource p c m => exact (selectSource_step p c m s).reach
  | setChannelSource p c a b => exact (setChannelSource_step p c a b s).reach
  | readProgram p =>
    simp only [State.answer, State.readProgram]
    split <;> exact .refl
  | setLoudness p m f => exact (setLoudness_step p m f s).reach
  | resetIntegration p => exact (resetIntegration_step p s).reach
  | pauseIntegration p => exact (pauseIntegration_step true p s).reach
  | resumeIntegration p => exact (pauseIntegration_step false p s).reach
  | readLoudness p f => exact readLoudness_reach p f s
  | setDelay p f => exact setDelay_reach tag p f s (opens rfl)
  | readDelay p => exact withProgram_reach fun _ _ _ => .refl
  | checkMemory => exact checkMemory_reach tag s (opens rfl)
  | muteProgram p f => exact (muteProgram_step p f s).reach
  | readOutput p => exact withProgram_reach fun _ _ _ => .refl
  | setAlarmKind k f => exact setAlarmKind_reach k f s
  | ackAlarm p => exact ackAlarm_reach p s
  | clearProtection p => exact clearProtection_reach p s
  | readAlarm p =>
    simp only [State.answer, State.readAlarm]
    split <;> exact .refl
  | readAlarmList a n =>
    simp only [State.answer, State.readAlarmList]
    split <;> exact .refl
  | setSummaryOutput o f => exact setSummaryOutput_reach o f s
  | setContact i f => exact setContact_reach i f s

/-- R180, R181: a request that opens an operation is handed on only where it may open it. -/
theorem judge_cases (tag : Byte) (r : Request) (s : State) :
    (s.judge tag r = .refuse .tagBusy s) ∨ (s.judge tag r = .refuse .opsFull s)
      ∨ (s.judge tag r = s.answer tag r ∧ (opensOp r = true → s.Opens tag)) := by
  unfold State.judge
  split
  · exact .inl rfl
  · split
    · exact .inr (.inl rfl)
    · rename_i busy full
      refine .inr (.inr ⟨rfl, fun opens => ?_⟩)
      by_cases zero : tag = 0
      · exact .inl zero
      · simp only [opens, Bool.true_and, Bool.and_eq_true, bne_iff_ne, ne_eq, zero, not_false_eq_true, true_and,
          decide_eq_true_eq, Bool.not_eq_true, Nat.not_le] at busy full
        exact .inr ⟨busy, full⟩

theorem judge_reach_request (tag : Byte) (r : Request) (s : State) : Reach s (s.judge tag r).state := by
  obtain h | h | ⟨h, opens⟩ := judge_cases tag r s
  · rw [h]; exact .refl
  · rw [h]; exact .refl
  · rw [h]; exact answer_reach tag r s opens

theorem judgeFrame_reach (f : Frame) (s : State) : Reach s (s.judgeFrame f).state := by
  unfold State.judgeFrame
  split
  · exact .refl
  · split
    · exact .refl
    · split
      · exact .refl
      · exact judge_reach_request ..

theorem placed_reach {kind tag : Byte} {a : Answer} {s : State} (h : Reach s a.state) : Reach s (a.placed kind tag) :=
  h.trans (OwnReach.link a.state _ (by rfl) (by rfl)).reach

theorem takeFrame_reach (s : State) : Reach s s.takeFrame := by
  unfold State.takeFrame
  split
  · exact .refl
  · rename_i f rest queue
    split
    · have popped : Reach s { s with link := { s.link with buffer := rest } } :=
        (Leaf.buffer rest (by simp [queue])).reach
      exact placed_reach (popped.trans (judgeFrame_reach ..))
    · exact .refl

theorem serveLink_reach (s : State) : Reach s s.serveLink :=
  (((transmit_reach s).reach.trans (takeFrame_reach _)).trans (transmit_reach _).reach).trans (takeFrame_reach _)

theorem appendFrame_reach (f : Frame) (s : State) : Reach s (s.appendFrame f) := by
  unfold State.appendFrame
  split
  · exact (overrun_reach s).reach
  · exact (Leaf.buffer _ (by simp; omega)).reach

theorem present_reach (tag : Byte) (r : Request) (s : State) : Reach s (s.present tag r) := by
  unfold State.present
  dsimp only
  split
  · refine placed_reach ?_
    split
    · exact .refl
    · exact judge_reach_request ..
  · exact appendFrame_reach ..

theorem presentUnknown_reach (kind tag : Byte) (body : List Byte) (s : State) :
    Reach s (s.presentUnknown kind tag body) := by
  unfold State.presentUnknown
  split
  · exact placed_reach (judgeFrame_reach ..)
  · exact appendFrame_reach ..

theorem receiveByte_reach (b : Byte) (s : State) : Reach s (s.receiveByte b) := by
  have noted (r : Receiver) : Reach s { s with link := s.link.noteByte s.counter r } :=
    (OwnReach.link s _ (by rfl) (by rfl)).reach
  unfold State.receiveByte
  split
  · exact noted _
  · split
    · exact noted _
    · exact (noted .hunt).trans (lengthError_reach _).reach
  · split
    · exact noted _
    · refine (noted .hunt).trans ?_
      unfold State.judgeCollected
      dsimp only
      split
      · split
        · exact appendFrame_reach ..
        · exact (crcError_reach _).reach
      · exact (crcError_reach _).reach

/-! ## Commands -/

/-- A command that is a request of the control link presents it. -/
theorem exec_request {c : Instr} {tag : Byte} {r : Request} (h : requestOf c = some (tag, r)) (s : State) :
    exec c s = .next (s.present tag r) := by
  cases c <;> simp only [requestOf, Option.some.injEq, Prod.mk.injEq, reduceCtorEq] at h <;>
    (obtain ⟨rfl, rfl⟩ := h; rfl)

/-- Whether a command is power-on or the clock's period. -/
def Instr.isClock : Instr → Bool
  | .powerOnReset _ => true
  | .houseSampleTick _ _ => true
  | _ => false

/-- Every command other than power-on and the clock's period is answered with a state that leaf changes reach. -/
theorem exec_reach (c : Instr) (s : State) (h : Instr.isClock c = false) : ∃ t, exec c s = .next t ∧ Reach s t := by
  have request (tag : Byte) (r : Request) (hr : requestOf c = some (tag, r)) : ∃ t, exec c s = .next t ∧ Reach s t :=
    ⟨_, exec_request hr s, present_reach ..⟩
  cases c with
  | powerOnReset | houseSampleTick => cases h
  | frameBoundary => exact ⟨_, rfl, (frameBoundary_reach s).reach⟩
  | referencePulse i m => exact ⟨_, rfl, (referencePulse_reach i m s).reach⟩
  | realignFrameTimeout => exact ⟨_, rfl, (realignTimeout_reach s).reach⟩
  | referenceLost i => exact ⟨_, rfl, (referenceLost_reach i s).reach⟩
  | referenceHoldExpiry => exact ⟨_, rfl, (holdExpiry_reach s).reach⟩
  | revertTimerExpiry => exact ⟨_, rfl, (revertExpiry_reach s).reach⟩
  | laneFrameStart l slots status marker => exact ⟨_, rfl, Reach.lane l (.frameStart ..)⟩
  | laneClockLost l => exact ⟨_, rfl, Reach.lane l .clockLost⟩
  | classificationWindowEnd l => exact ⟨_, rfl, Reach.lane l .windowEnd⟩
  | controlInstant l => exact ⟨_, rfl, Reach.lane l .controlInstant⟩
  | lockCriterionMet l => exact ⟨_, rfl, Reach.lane l .lockMet⟩
  | pinRunLimit l => exact ⟨_, rfl, Reach.lane l .pinLimit⟩
  | lockFadeInEnd l => exact ⟨_, rfl, Reach.lane l .entryFadeEnd⟩
  | slipStep l => exact ⟨_, rfl, (slipStep_reach l s).reach⟩
  | slipFadeInEnd l => exact ⟨_, rfl, Reach.lane l .slipEnd⟩
  | holdoverExpiry l => exact ⟨_, rfl, Reach.lane l .holdoverExpiry⟩
  | returnWindowEnd l => exact ⟨_, rfl, Reach.lane l .returnEnd⟩
  | onAirFadeEnd p => exact ⟨_, rfl, Reach.program p .onAirEnd⟩
  | changeoverSwitch p c => exact ⟨_, rfl, Reach.program p (.changeoverSwitch c.val)⟩
  | changeoverEnd p c => exact ⟨_, rfl, Reach.program p (.changeoverEnd c.val)⟩
  | zeroFillPageEnd => exact ⟨_, rfl, (fillPage_reach s).reach⟩
  | memorySizingEnd d =>
    refine ⟨_, rfl, ?_⟩
    unfold State.endSizing
    split
    · exact .refl
    · exact (OwnReach.pool s (s.pool.size d)).reach.trans
        (OwnReach.link { s with pool := s.pool.size d } { s.link with sizingEnded := true } rfl rfl).reach
  | pageTestEnd => exact ⟨_, rfl, (endPageTest_reach s).reach⟩
  | blockEnd => exact ⟨_, rfl, (blockEnd_reach s).reach⟩
  | gainEntryDue p => exact ⟨_, rfl, Reach.program p (.applyDue _)⟩
  | gainRampEnd p => exact ⟨_, rfl, Reach.program p .rampEnd⟩
  | trimStep p c => exact ⟨_, rfl, Reach.program p (.stepTrim c.val)⟩
  | trimStepEnd p c => exact ⟨_, rfl, Reach.program p (.endTrimStep c.val)⟩
  | cutJump p => exact ⟨_, rfl, Reach.program p .cutJump⟩
  | cutInEnd p => exact ⟨_, rfl, Reach.program p .cutInEnd⟩
  | slewArrival p => exact ⟨_, rfl, Reach.program p .slewArrival⟩
  | bypassSwitch p => exact ⟨_, rfl, Reach.program p .bypassSwitch⟩
  | bypassFadeInEnd p => exact ⟨_, rfl, Reach.program p .bypassFadeInEnd⟩
  | muteFadeEnd p => exact ⟨_, rfl, Reach.program p .muteEnd⟩
  | overCountReached p c => exact ⟨_, rfl, (overEvent_reach p c s).reach⟩
  | alarmBoundary => exact ⟨_, rfl, (alarmBoundary_reach s).reach⟩
  | eventPointRest pt => exact ⟨_, rfl, (eventPointRest_reach pt s).reach⟩
  | filterRise pt => exact ⟨_, rfl, (filterRise_reach pt s).reach⟩
  | filterFall pt => exact ⟨_, rfl, (filterFall_reach pt s).reach⟩
  | retryExpiry pt => exact ⟨_, rfl, (retryExpiry_reach pt s).reach⟩
  | frameReceived b =>
    refine ⟨_, rfl, ?_⟩
    unfold State.frameReceived
    split
    · exact (receiveByte_reach b s).trans (takeFrame_reach _)
    · exact .refl
  | frameLengthError b =>
    refine ⟨_, rfl, ?_⟩
    unfold State.frameLengthError
    split
    · exact receiveByte_reach b s
    · exact .refl
  | gapTimeout => exact ⟨_, rfl, (gapCheck_reach s).reach⟩
  | unknownKindRequest k t b => exact ⟨_, rfl, presentUnknown_reach k t b s⟩
  | transmitFrameEnd =>
    refine ⟨_, rfl, ?_⟩
    unfold State.transmitFrameEnd
    split
    · exact (endSending_reach s).reach.trans (takeFrame_reach _)
    · exact .refl
  | linkByteReceived b => exact ⟨_, rfl, (receiveByte_reach b s).trans (takeFrame_reach _)⟩
  | setTimebase | readTime | schedule | readSchedule | cancel | setLane | laneAdmit | laneRestart | readLane
  | defineProgram | start | stop | release | selectSource | setChannelSource | readProgram | checkMemory | readPool
  | resetIntegration | pauseIntegration | resumeIntegration | readLoudness | setLoudness | setDelay | readDelay
  | muteProgram | readOutput | setAlarmKind | ackAlarm | clearProtection | setSummaryOutput | setContact | readAlarm
  | readAlarmList | readContacts | identify | readStatus | restart => exact request _ _ rfl

/-- What leaf changes and the sending of the egress slots keep is kept by the closing of a house sample. -/
theorem closeSample_keeps {P : State → Prop} (leaf : ∀ a b, Leaf a b → P a → P b)
    (egress : ∀ (a : State) (e : EgressOut), P a → P { a with egress := e }) {s : State} (h : P s) :
    P s.closeSample := by
  have formed : Reach s s.settle.serveLink.formed := ((settle_reach s).reach.trans (serveLink_reach _)).trans
    (formed_reach _).reach
  exact (serveLink_reach _).keeps leaf (egress _ _ (formed.keeps leaf h))

end Sys2Proof.Machine
end

section
/-! PROOF. The schedule's entries, run at a frame boundary: what a property must meet so that they keep it. -/

namespace Sys2Proof.Machine

/-- A property that reads neither the operation table nor the completions, and that every operation on one program
keeps. -/
structure Inside (P : State → Prop) : Prop where
  program : ∀ s p f, ProgramStep s.lanes f → P s → P (s.progStep p f)
  dropDelay : ∀ s p x, s.program p = some x → P s →
    P (s.setProgram p (some { x with align := { x.align with op := none } }))
  link : ∀ (s : State) (k : LinkPort), k.buffer = s.link.buffer → P s → P { s with link := k }

/-- An entry taken out of the schedule as it runs. -/
def State.unscheduled (s : State) (e : SchedEntry) : State :=
  { s with tb := { s.tb with schedule := removeFirst (· == e) s.tb.schedule } }

namespace Inside

variable {P : State → Prop} (h : Inside P)
include h

theorem complete {s : State} (c : Completion) (hs : P s) : P (s.complete c) := h.link s _ rfl hs

theorem closeOp {s : State} (tag : Byte) (k : Concern) (r : Result) (d : List Byte) (hs : P s) :
    P (s.closeOp tag k r d) := h.link s { (s.closeOp tag k r d).link with } rfl hs

theorem openOp {s : State} (tag : Byte) (k : Concern) (hs : P s) : P (s.openOp tag k) := by
  unfold State.openOp
  split
  · exact hs
  · exact h.link s _ rfl hs

theorem endDelayOp {s : State} (p : Fin 16) (r : Result) (hs : P s) : P (s.endDelayOp p r) := by
  unfold State.endDelayOp
  split
  · exact hs
  · split
    · exact hs
    · exact h.closeOp _ _ _ _ (h.dropDelay _ _ _ ‹_› hs)

theorem takeDelay {s : State} (p : Fin 16) (tag : Byte) (d : DelayAsk) (hs : P s) : P (s.takeDelay p tag d) :=
  h.program _ _ _ (.takeDelay tag d) (h.openOp _ _ (h.endDelayOp p _ hs))

theorem setDelay {s : State} (tag b : Byte) (f : DelayFields) (hs : P s) : P (s.setDelay tag b f).state := by
  unfold State.setDelay State.withProgram
  split
  · exact hs
  · split
    · exact hs
    · split
      · exact hs
      · exact h.takeDelay _ _ _ hs

/-- R18, R19: what runs with an entry that has left the schedule. -/
theorem runEntry {s : State} (e : SchedEntry) (left : P (s.unscheduled e)) : P (s.runEntry e) := by
  unfold State.runEntry
  dsimp only
  split
  · unfold State.carryDelay
    split
    · exact h.complete _ left
    · dsimp only
      split
      · exact h.setDelay _ _ _ left
      · exact h.complete _ left
  · rename_i r _ _
    obtain same | ⟨p, f, step, made⟩ := runInner_step r (s.unscheduled e)
    · exact h.complete (s := ((s.unscheduled e).runInner r).state) _ (by rw [same]; exact left)
    · exact h.complete (s := ((s.unscheduled e).runInner r).state) _ (by rw [made]; exact h.program _ p f step left)
  · exact left

end Inside

/-- Such a property that reads the schedule neither. -/
structure Stable (P : State → Prop) : Prop extends Inside P where
  schedule : ∀ (s : State) (l : List SchedEntry), P s → P { s with tb := { s.tb with schedule := l } }

namespace Stable

variable {P : State → Prop} (h : Stable P)
include h

theorem runFrame {s : State} (hs : P s) : P s.runFrame := by
  have fold (l : List SchedEntry) (u : State) (hu : P u) : P (l.foldl State.runEntry u) := by
    induction l generalizing u with
    | nil => exact hu
    | cons e rest ih => exact ih _ (h.toInside.runEntry e (h.schedule u _ hu))
  exact fold _ _ hs

/-- A step of the timebase keeps it where the new timebase does. -/
theorem timed {s : State} {t : Timebase} {begins : Bool} (ht : P (s.putTimebase t)) (hs : P s) :
    P (s.timed t begins) := by
  have step : P (s.tbStep fun _ => t) := by
    unfold State.tbStep
    split
    · exact hs
    · exact ht
  unfold State.timed
  split
  · exact h.runFrame step
  · exact step

end Stable

/-! ## What a lane's change leaves unchanged -/

/-- The lanes' operations keep a property that a new lane keeps, the programs realigned and its conditions handed. -/
theorem laneStep_keeps {P : State → Prop} {s : State} {l : Fin 4} {f : Lane → Lane}
    (set : P s → P (s.setLane l (f (s.lane l))))
    (realign : ∀ u p, P u → P (u.realignFor l p))
    (hand : ∀ u x, P u → P { u with alarm := u.alarm.handLane s.counter l x }) (hs : P s) : P (s.laneStep l f) := by
  unfold State.laneStep
  split
  · exact hs
  · unfold State.putLane
    dsimp only
    refine hand _ _ ?_
    split
    · exact forAll_keeps _ (fun p u hu => realign u p hu) (set hs)
    · exact set hs

end Sys2Proof.Machine
end

section
/-! PROOF. O2: every command is answered, and only the clock moves the counter. -/

namespace Sys2Proof.Machine

/-- The queue and the house counter stand as they were. -/
structure SameClock (s t : State) : Prop where
  pending : t.pending = s.pending
  counter : t.counter = s.counter

theorem SameClock.refl (s : State) : SameClock s s := ⟨rfl, rfl⟩

theorem SameClock.trans {a b c : State} (h : SameClock a b) (k : SameClock b c) : SameClock a c :=
  ⟨k.pending.trans h.pending, k.counter.trans h.counter⟩

theorem KeepsOutside.sameClock {s t : State} (h : KeepsOutside s t) : SameClock s t := ⟨h.pending, h.counter⟩

theorem sameClock_stable (s : State) : Stable (SameClock s) where
  program u p f _ h := h.trans (keepsOutside_progStep p f u).sameClock
  dropDelay _ _ _ _ h := ⟨h.pending, h.counter⟩
  link _ _ _ h := ⟨h.pending, h.counter⟩
  schedule _ _ h := ⟨h.pending, h.counter⟩

theorem keepsOutside_overEvents (p : Fin 16) (s : State) : KeepsOutside s (s.overEvents p) := by
  unfold State.overEvents
  refine forAll_rel KeepsOutside.refl (fun _ _ _ => KeepsOutside.trans) _ (fun c u => ?_) s
  unfold State.overEvent
  split
  · exact .refl u
  · split
    · exact ⟨rfl, rfl, rfl, rfl, rfl, rfl, rfl, rfl, rfl⟩
    · exact .refl u

theorem keepsOutside_outputUnder (p : Fin 16) (s : State) : KeepsOutside s (s.outputUnder p) := by
  unfold State.outputUnder
  split
  · exact .refl s
  · exact (keepsOutside_setProgram ..).trans (keepsOutside_overEvents ..)

/-- The forming of a program's outputs changes nothing outside the programs, the Alarm Unit and the Link Port. -/
theorem keepsOutside_formOutput (p : Fin 16) (s : State) : KeepsOutside s (s.formOutput p) := by
  have handed := (keepsOutside_handPad p s).trans (keepsOutside_outputUnder p _)
  obtain h | h | h := formOutput_cases p s
  · rw [h]; exact handed
  · rw [h]; exact (keepsOutside_padded p true s).trans (keepsOutside_outputUnder ..)
  · rw [h]
    unfold State.overThenPad
    split
    · exact handed.trans (keepsOutside_setProgram ..)
    · exact handed

theorem sameClock_own {s t : State} (h : OwnStep s t) : SameClock s t := by
  cases h with
  | program p _ => exact (keepsOutside_progStep ..).sameClock
  | lane l _ =>
    exact laneStep_keeps (P := SameClock s) (fun _ => ⟨rfl, rfl⟩)
      (fun u p h => h.trans (keepsOutside_progStep ..).sameClock) (fun _ _ h => ⟨h.pending, h.counter⟩) (.refl s)
  | time _ => exact (sameClock_stable s).timed ⟨rfl, rfl⟩ (.refl s)
  | standby p x _ => exact (keepsOutside_putProgram ..).sameClock
  | output p => exact (keepsOutside_formOutput p s).sameClock
  | alarm | link | closeOp | memory | record | interpolate => exact ⟨rfl, rfl⟩

theorem sameClock_leaf {s t : State} (h : Leaf s t) : SameClock s t := by
  cases h with
  | own h => exact sameClock_own h
  | define p tag d chs _ _ =>
    unfold State.defined State.handProgram
    have opened := (sameClock_stable s).toInside.openOp tag (.definition p) (s := { s.setProgram p
      (some (s.freshProgram p tag d chs)) with
        pool := s.pool.allocate s.counter p (chs.length * (s.freshProgram p tag d chs).rows)
        claims := claimAll p 0 chs s.claims }) ⟨rfl, rfl⟩
    dsimp only
    split
    · exact opened
    · exact ⟨opened.pending, opened.counter⟩
  | delay p tag d _ => exact (sameClock_stable s).toInside.takeDelay p tag d (.refl s)
  | openCheck tag _ => exact (sameClock_stable s).toInside.openOp tag .check (.refl s)
  | vacate p =>
    unfold State.vacate
    split
    · exact .refl s
    · exact ⟨rfl, rfl⟩
  | asked | buffer | dropDelay | cancelEntries | addEntry | clearReady | restarted => exact ⟨rfl, rfl⟩

theorem sameClock_reach {s t : State} (h : Reach s t) : SameClock s t :=
  h.keeps (P := SameClock s) (fun _ _ leaf k => k.trans (sameClock_leaf leaf)) (.refl s)

theorem sameClock_closeSample (s : State) : SameClock s s.closeSample :=
  closeSample_keeps (P := SameClock s) (fun _ _ leaf k => k.trans (sameClock_leaf leaf))
    (fun _ _ k => ⟨k.pending, k.counter⟩) (.refl s)

/-! ## The clock's own period -/

/-- Failures of the DRAM reach its bytes and its failed cells alone. -/
theorem takeFault_eq (s : State) (f : DramFault) :
    ∃ (dram : List Host.Cell) (stuck : List Host.Cell), s.takeFault f = { s with dram := dram, stuck := stuck } := by
  unfold State.takeFault
  split
  · exact ⟨s.dram, s.stuck, rfl⟩
  · split
    · exact ⟨s.dram, _, rfl⟩
    · exact ⟨_, s.stuck, rfl⟩

theorem takeFaults_eq (faults : List DramFault) (s : State) : ∃ (dram : List Host.Cell) (stuck : List Host.Cell),
    faults.foldl State.takeFault s = { s with dram := dram, stuck := stuck } := by
  induction faults generalizing s with
  | nil => exact ⟨s.dram, s.stuck, rfl⟩
  | cons f rest ih =>
    obtain ⟨dram, stuck, h⟩ := takeFault_eq s f
    obtain ⟨dram', stuck', h'⟩ := ih (s.takeFault f)
    exact ⟨dram', stuck', by rw [List.foldl_cons, h', h]⟩

/-- The period of the house clock: the sample closed, the latch, the next sample opened, and the DRAM's failures. -/
theorem tick_eq (pins : BitVec 4) (faults : List DramFault) (s : State) :
    ∃ (dram : List Host.Cell) (stuck : List Host.Cell),
      s.tick pins faults = { s.closeSample.latch.openSample pins with dram := dram, stuck := stuck } :=
  takeFaults_eq faults _

theorem opened_clock {s u : State} (pins : BitVec 4) (dram stuck : List Host.Cell) (h : SameClock s u) :
    ({ u.latch.openSample pins with dram := dram, stuck := stuck } : State).pending = s.pending
      ∧ ({ u.latch.openSample pins with dram := dram, stuck := stuck } : State).counter = s.counter + 1 :=
  ⟨h.pending, congrArg (· + 1) h.counter⟩

end Sys2Proof.Machine

open Sys2Proof Sys2Proof.Machine

/-- Settles O2: every leaf change keeps the queue and the counter; the clock's period adds one and power-on sets 0. -/
theorem everyCommandGoesOnAndOnlyTheClockMovesTheCounter :
    Obligations.EveryCommandGoesOnAndOnlyTheClockMovesTheCounter := by
  intro c s
  by_cases clock : Instr.isClock c = true
  · cases c with
    | powerOnReset high => exact ⟨_, rfl, rfl, rfl⟩
    | houseSampleTick pins faults =>
      obtain ⟨dram, stuck, h⟩ := tick_eq pins faults s
      refine ⟨s.tick pins faults, rfl, ?_⟩
      rw [h]
      exact opened_clock pins dram stuck (sameClock_closeSample s)
    | _ => cases clock
  · obtain ⟨t, answered, reach⟩ := exec_reach c s (by simpa using clock)
    have same := sameClock_reach reach
    refine ⟨t, answered, same.pending, ?_⟩
    rw [same.counter]
    split
    · exact absurd rfl clock
    · exact absurd rfl clock
    · rfl

end

section
/-! PROOF. The timebase stays in order (O9): what its operations do to the frame, the counts and the revert timer. -/

namespace Sys2Proof.Machine

/-! ## The revert timer -/

/-- After it has been judged the timer runs exactly while its condition holds (R7). -/
theorem judgeRevert_revertSince (now : Time) (t : Timebase) :
    (t.judgeRevert now).revertSince = if t.revertHolds then some (t.revertSince.getD now) else none := rfl

/-- The revert condition, written out (R7). -/
theorem revertHolds_iff (t : Timebase) : t.revertHolds = true ↔
    t.revertive = true ∧ t.selection = selectionOf (otherInput t.preference) ∧ (t.ref t.preference).present = true := by
  simp only [Timebase.revertHolds, Bool.and_eq_true, beq_iff_eq, and_assoc]

/-- What the order of the timebase asks of the frame and the counts. -/
structure Timebase.FrameInOrder (t : Timebase) : Prop where
  cadence : t.cadence < 5
  counts : t.refA.cadenceCount < 5 ∧ t.refB.cadenceCount < 5
  integer : t.rate.fractional = false → t.cadence = 0
  length : t.frameLen = t.rate.length t.cadence

theorem Timebase.InOrder.frame {t : Timebase} (h : t.InOrder) : t.FrameInOrder :=
  ⟨h.cadence, h.counts, h.integer, h.length⟩

/-- A timebase whose frame is in order is in order once its revert condition has been judged. -/
theorem inOrder_judgeRevert {t : Timebase} (now : Time) (h : t.FrameInOrder) : (t.judgeRevert now).InOrder where
  cadence := h.cadence
  counts := h.counts
  integer := h.integer
  length := h.length
  revert := by
    rw [judgeRevert_revertSince]
    refine Iff.trans ?_ (revertHolds_iff t)
    cases t.revertHolds <;> simp

theorem inOrder_select {t : Timebase} (now : Time) (i : RefInput) (h : t.FrameInOrder) : (t.select now i).InOrder :=
  inOrder_judgeRevert now ⟨h.cadence, h.counts, h.integer, h.length⟩

theorem frameInOrder_leaveFree {t : Timebase} (now : Time) (h : t.FrameInOrder) : (t.leaveFree now).FrameInOrder := by
  unfold Timebase.leaveFree
  split
  · exact h
  · split
    · exact (inOrder_select now _ h).frame
    · split
      · exact (inOrder_select now _ h).frame
      · exact h

/-- Leaving FREE keeps the timebase in order. -/
theorem inOrder_leaveFree {t : Timebase} (now : Time) (h : t.InOrder) : (t.leaveFree now).InOrder := by
  unfold Timebase.leaveFree
  split
  · exact h
  · split
    · exact inOrder_select now _ h.frame
    · split
      · exact inOrder_select now _ h.frame
      · exact h

/-! ## Inputs -/

theorem Timebase.ref_setRef (t : Timebase) (i : RefInput) (r : RefState) : (t.setRef i r).ref i = r := by
  cases i <;> rfl

theorem Timebase.ref_setRef_other (t : Timebase) (i : RefInput) (r : RefState) :
    (t.setRef i r).ref (otherInput i) = t.ref (otherInput i) := by
  cases i <;> rfl

theorem Timebase.FrameInOrder.count {t : Timebase} (h : t.FrameInOrder) (i : RefInput) :
    (t.ref i).cadenceCount < 5 := by
  cases i with
  | a => exact h.counts.1
  | b => exact h.counts.2

/-- An input replaced by one whose count is among the five leaves the frame in order. -/
theorem frameInOrder_setRef {t : Timebase} {i : RefInput} {r : RefState} (h : t.FrameInOrder)
    (count : r.cadenceCount < 5) : (t.setRef i r).FrameInOrder := by
  cases i with
  | a => exact ⟨h.cadence, ⟨count, h.counts.2⟩, h.integer, h.length⟩
  | b => exact ⟨h.cadence, ⟨h.counts.1, count⟩, h.integer, h.length⟩

theorem frameInOrder_timePulse {t : Timebase} (now : Time) (i : RefInput) (marked : Bool) (h : t.FrameInOrder) :
    (t.timePulse now i marked).FrameInOrder := by
  have old := h.count i
  refine frameInOrder_setRef h ?_
  dsimp only
  split
  · exact old
  · split
    · omega
    · split
      · exact Nat.mod_lt _ (by omega)
      · exact old

theorem inOrder_qualify {t : Timebase} (now : Time) (i : RefInput) (h : t.FrameInOrder) :
    (t.qualify now i).InOrder := by
  have left := frameInOrder_leaveFree now h
  refine inOrder_judgeRevert now ?_
  split
  · exact ⟨left.cadence, left.counts, left.integer, left.length⟩
  · exact left

/-! ## Frames -/

/-- A frame that begins at a cadence position among the five is in order. -/
theorem inOrder_beginFrame {t : Timebase} (now : Time) (cadence : Nat) (realign : Bool) (h : t.InOrder)
    (among : cadence < 5) : (t.beginFrame now cadence realign).InOrder := by
  unfold Timebase.beginFrame
  dsimp only
  split
  · cases fractional : t.rate.fractional
    · exact ⟨by simp, h.counts, fun _ => by simp, by simp, h.revert⟩
    · exact ⟨by simpa using among, h.counts, fun no => absurd fractional (by simp [no]), by simp, h.revert⟩
  · refine inOrder_leaveFree now ⟨by simp, by simp [RefState.restartCount], fun _ => rfl, rfl, ?_⟩
    refine h.revert.trans ?_
    cases t.preference <;> rfl

theorem cadenceAfter_lt {t : Timebase} : t.cadenceAfter < 5 := by
  unfold Timebase.cadenceAfter FrameRate.nextCadence
  split
  · omega
  · split
    · exact Nat.mod_lt _ (by omega)
    · omega

theorem inOrder_endRealigned {t : Timebase} (now : Time) (i : RefInput) (h : t.InOrder) :
    (t.endRealigned now i).InOrder := by
  refine inOrder_beginFrame now _ _ h ?_
  have := h.frame.count i
  split <;> omega

theorem inOrder_takeMarker {t : Timebase} (now : Time) (h : t.InOrder) : (t.takeMarker now).InOrder := by
  unfold Timebase.takeMarker
  split
  · exact ⟨by simp, h.counts, fun _ => rfl, rfl, h.revert⟩
  · exact ⟨h.cadence, h.counts, h.integer, h.length, h.revert⟩

theorem inOrder_realign {t : Timebase} (flag : Bool) (h : t.InOrder) :
    ({ t with realign := flag } : Timebase).InOrder :=
  ⟨h.cadence, h.counts, h.integer, h.length, h.revert⟩

theorem inOrder_judgePulse {t : Timebase} (now : Time) (i : RefInput) (marked : Bool) (h : t.InOrder) :
    (t.judgePulse now i marked).1.InOrder := by
  unfold Timebase.judgePulse
  dsimp only
  split
  · split
    · exact inOrder_endRealigned now i h
    · exact h
  · split
    · dsimp only
      split
      · exact inOrder_takeMarker now h
      · exact h
    · split
      · exact inOrder_endRealigned now i (inOrder_realign true h)
      · exact inOrder_realign true h

theorem inOrder_countPulse {t : Timebase} (now : Time) (h : t.InOrder) : (t.countPulse now).1.InOrder := by
  unfold Timebase.countPulse
  split
  · split
    · exact inOrder_judgePulse now _ false h
    · exact h
  · exact h

theorem inOrder_pulse {t : Timebase} (now : Time) (i : RefInput) (marked : Bool) (h : t.InOrder) :
    (t.pulse now i marked).1.InOrder := by
  have qualified := inOrder_qualify now i (frameInOrder_timePulse now i marked h.frame)
  unfold Timebase.pulse
  dsimp only
  split
  · exact inOrder_judgePulse now i marked qualified
  · exact qualified

theorem inOrder_lose {t : Timebase} (now : Time) (i : RefInput) (h : t.InOrder) : (t.lose now i).InOrder := by
  have lost := frameInOrder_setRef (i := i) (r := { t.ref i with present := false, markerSeen := false, validRun := 0 })
    h.frame (h.frame.count i)
  unfold Timebase.lose
  refine inOrder_judgeRevert now ?_
  dsimp only
  split
  · exact ⟨lost.cadence, lost.counts, lost.integer, lost.length⟩
  · exact lost

theorem inOrder_holdExpire {t : Timebase} (now : Time) (h : t.InOrder) : (t.holdExpire now).InOrder := by
  unfold Timebase.holdExpire
  split
  · split
    · exact inOrder_select now _ h.frame
    · refine ⟨h.cadence, h.counts, h.integer, h.length, ?_⟩
      cases t.preference <;> simp [otherInput, selectionOf]
  · exact ⟨h.cadence, h.counts, h.integer, h.length, h.revert⟩

/-- Every step of the House Timebase keeps it in order. -/
theorem TimebaseStep.keeps_inOrder {now : Time} {t u : Timebase} {begins : Bool} (step : TimebaseStep now t u begins)
    (h : t.InOrder) : u.InOrder := by
  cases step with
  | lose i => exact inOrder_lose now i h
  | configure r p v hold => exact inOrder_judgeRevert now ⟨h.cadence, h.counts, h.integer, h.length⟩
  | boundary => exact inOrder_beginFrame now _ _ h cadenceAfter_lt
  | realignTimeout => exact inOrder_beginFrame now _ _ h cadenceAfter_lt
  | pulse i marked => exact inOrder_pulse now i marked h
  | holdExpire => exact inOrder_countPulse now (inOrder_holdExpire now h)
  | revert => exact inOrder_countPulse now (inOrder_select now _ h.frame)

/-! ## The whole part -/

theorem KeepsOutside.inOrder {s t : State} (k : KeepsOutside s t) (h : s.tb.InOrder) : t.tb.InOrder := by
  rw [k.tb]; exact h

theorem inOrder_stable : Stable fun s => s.tb.InOrder where
  program s p f _ h := (keepsOutside_progStep p f s).inOrder h
  dropDelay _ _ _ _ h := h
  link _ _ _ h := h
  schedule _ _ h := ⟨h.cadence, h.counts, h.integer, h.length, h.revert⟩

theorem inOrder_own {s t : State} (step : OwnStep s t) (h : s.tb.InOrder) : t.tb.InOrder := by
  cases step with
  | program p _ => exact (keepsOutside_progStep ..).inOrder h
  | lane l _ =>
    exact laneStep_keeps (P := fun s => s.tb.InOrder) id
      (fun u p h => (keepsOutside_progStep p _ u).inOrder h) (fun _ _ h => h) h
  | time step => exact inOrder_stable.timed (step.keeps_inOrder h) h
  | standby p x _ => exact (keepsOutside_putProgram ..).inOrder h
  | output p => exact (keepsOutside_formOutput p s).inOrder h
  | alarm | link | closeOp | memory | record | interpolate => exact h

theorem inOrder_leaf {s t : State} (leaf : Leaf s t) (h : s.tb.InOrder) : t.tb.InOrder := by
  cases leaf with
  | own step => exact inOrder_own step h
  | define p tag d chs _ _ =>
    unfold State.defined State.handProgram State.openOp
    dsimp only
    split <;> split <;> exact h
  | delay p tag d _ => exact inOrder_stable.toInside.takeDelay p tag d h
  | openCheck tag _ => exact inOrder_stable.toInside.openOp tag .check h
  | vacate p =>
    unfold State.vacate
    split <;> exact h
  | cancelEntries | addEntry | restarted => exact ⟨h.cadence, h.counts, h.integer, h.length, h.revert⟩
  | asked | buffer | dropDelay | clearReady => exact h

theorem timebase_reset_inOrder : Timebase.reset.InOrder := by
  constructor <;> decide

/-! ## Invariants of every step -/

/-- What leaf changes, power-on and the opening of a house sample keep is kept by every step. -/
theorem step_keeps {P : State → Prop} (queue : ∀ (s : State) (l : List Instr), P s → P { s with pending := l })
    (egress : ∀ (s : State) (e : EgressOut), P s → P { s with egress := e })
    (leaf : ∀ s t, Leaf s t → P s → P t) (reset : ∀ s high, P (State.powerOn high s))
    (opened : ∀ s pins, P s → P (s.latch.openSample pins))
    (faults : ∀ (s : State) (dram stuck : List Host.Cell), P s → P { s with dram := dram, stuck := stuck })
    {s t : State} (hs : P s) (h : step s = .next t) : P t := by
  unfold step at h
  split at h
  · cases h; exact hs
  · rename_i c rest _
    have start := queue s rest hs
    by_cases clock : Instr.isClock c = true
    · cases c with
      | powerOnReset high => cases h; exact reset _ high
      | houseSampleTick pins fs =>
        cases h
        obtain ⟨dram, stuck, e⟩ := tick_eq pins fs { s with pending := rest }
        rw [e]
        exact faults _ _ _ (opened _ _ (closeSample_keeps leaf egress start))
      | _ => cases clock
    · obtain ⟨u, answered, reach⟩ := exec_reach c { s with pending := rest } (by simpa using clock)
      rw [answered] at h
      cases h
      exact reach.keeps leaf start

/-- The timebase stays in order. -/
theorem step_keeps_inOrder {s t : State} (hs : s.tb.InOrder) (h : step s = .next t) : t.tb.InOrder :=
  step_keeps (P := fun s => s.tb.InOrder) (fun _ _ h => h) (fun _ _ h => h) (fun _ _ => inOrder_leaf)
    (fun _ _ => timebase_reset_inOrder)
    (fun _ _ h => h) (fun _ _ _ h => h) hs h

end Sys2Proof.Machine
end

section
/-! PROOF. What is kept of every program's record (O9): a property of one record that the operations on it keep is
kept of every record by every step; the integration histogram's order is one. -/

namespace Sys2Proof.Machine

/-! ## A program's record in its place -/

/-- A record whose open delay operation is closed where the delay is settled (R134). -/
def Program.closeSettled (x : Program) : Program :=
  if x.align.settled then { x with align := { x.align with op := none } } else x

/-- The record that stands once a program has been replaced: moved with its line delay, its settled operation closed. -/
def Program.standing (now : Time) (old new : Program) : Program :=
  (if new.lineDelay = old.lineDelay then new else new.applyDue now).closeSettled

theorem endDelayOp_program (p : Fin 16) (r : Result) (s : State) :
    (s.endDelayOp p r).program p = (s.program p).map fun x => { x with align := { x.align with op := none } } := by
  unfold State.endDelayOp
  split
  · simp [*]
  · rename_i x hx
    split
    · rename_i none_op
      rw [hx, Option.map_some, ← none_op]
    · simp only [hx, Option.map_some]
      exact State.program_setProgram ..

theorem settleDelay_program (p : Fin 16) (s : State) :
    (s.settleDelay p).program p = (s.program p).map Program.closeSettled := by
  unfold State.settleDelay
  split
  · simp [*]
  · rename_i x hx
    simp only [hx, Option.map_some, Program.closeSettled]
    split
    · rw [endDelayOp_program, hx]; rfl
    · exact hx

theorem putProgram_program (p : Fin 16) (x y : Program) (s : State) :
    (s.putProgram p x y).program p = some (Program.standing s.counter x y) := by
  unfold State.putProgram
  rw [handProgram_program, settleDelay_program, State.program_setProgram]
  rfl

theorem putProgram_program_ne (p q : Fin 16) (x y : Program) (s : State) (h : p ≠ q) :
    (s.putProgram p x y).program q = s.program q := by
  rw [State.putProgram, handProgram_program, settleDelay_program_ne _ _ _ h, State.program_setProgram_ne _ _ _ _ h]

/-! ## Properties of one record -/

/-- A property of a program's record that everything done to a record keeps. -/
structure RecordKept (Q : Program → Prop) : Prop where
  step : ∀ {lanes f} x, ProgramStep lanes f → Q x → Q (f x)
  dropDelay : ∀ x, Q x → Q { x with align := { x.align with op := none } }
  audio : ∀ {x y}, x.AudioOnly y → Q x → Q y
  standby : ∀ {x} now, Q x → Q (x.enterStandby now)
  fresh : ∀ s p tag d chs, Q (State.freshProgram s p tag d chs)
  tick : ∀ {x}, Q x → Q x.tick

/-- A property of every program's record. -/
def State.EveryProgram (Q : Program → Prop) (s : State) : Prop := ∀ p x, s.program p = some x → Q x

section
variable {Q : Program → Prop}

theorem everyProgram_setProgram {s : State} {p : Fin 16} {x : Option Program} (h : s.EveryProgram Q)
    (hx : ∀ y, x = some y → Q y) : (s.setProgram p x).EveryProgram Q := by
  intro q y hy
  by_cases e : p = q
  · subst e
    rw [State.program_setProgram] at hy
    exact hx y hy
  · rw [State.program_setProgram_ne _ _ _ _ e] at hy
    exact h q y hy

variable (k : RecordKept Q)
include k

theorem RecordKept.closeSettled {x : Program} (hx : Q x) : Q x.closeSettled := by
  unfold Program.closeSettled
  split
  · exact k.dropDelay x hx
  · exact hx

theorem RecordKept.standing {x y : Program} (now : Time) (hy : Q y) : Q (Program.standing now x y) := by
  refine k.closeSettled ?_
  split
  · exact hy
  · exact k.step (lanes := State.reset.lanes) y (.applyDue now) hy

theorem RecordKept.putProgram {s : State} {p : Fin 16} {x y : Program} (h : s.EveryProgram Q) (hy : Q y) :
    (s.putProgram p x y).EveryProgram Q := by
  intro q z hz
  by_cases e : p = q
  · subst e
    rw [putProgram_program] at hz
    cases hz
    exact k.standing _ hy
  · rw [putProgram_program_ne _ _ _ _ _ e] at hz
    exact h q z hz

theorem RecordKept.progStep {s : State} {p : Fin 16} {f : Program → Program} (step : ProgramStep s.lanes f)
    (h : s.EveryProgram Q) : (s.progStep p f).EveryProgram Q := by
  unfold State.progStep
  split
  · exact h
  · split
    · exact h
    · exact k.putProgram h (k.step _ step (h p _ ‹_›))

theorem RecordKept.stable : Stable (State.EveryProgram Q) where
  program _ _ _ step h := k.progStep step h
  dropDelay s p x hx h := everyProgram_setProgram h fun y hy => by cases hy; exact k.dropDelay x (h p x hx)
  link _ _ _ h := h
  schedule _ _ h := h

theorem RecordKept.audioSet {s : State} {p : Fin 16} {x y : Program} (defined : s.program p = some x)
    (audio : x.AudioOnly y) (h : s.EveryProgram Q) : (s.setProgram p (some y)).EveryProgram Q :=
  everyProgram_setProgram h fun z hz => by cases hz; exact k.audio audio (h p x defined)

theorem RecordKept.overEvents {s : State} (p : Fin 16) (h : s.EveryProgram Q) : (s.overEvents p).EveryProgram Q := by
  unfold State.overEvents
  refine forAll_keeps _ (fun c u hu => ?_) h
  unfold State.overEvent
  split
  · exact hu
  · split
    · exact k.audioSet ‹_› (audioOnly_channels ..) hu
    · exact hu

theorem RecordKept.outputUnder {s : State} (p : Fin 16) (h : s.EveryProgram Q) : (s.outputUnder p).EveryProgram Q := by
  unfold State.outputUnder
  split
  · exact h
  · exact k.overEvents p (k.audioSet ‹_› (audioOnly_formOutputs ..) h)

theorem RecordKept.formOutput {s : State} (p : Fin 16) (h : s.EveryProgram Q) : (s.formOutput p).EveryProgram Q := by
  have handed : ((s.handPad p).outputUnder p).EveryProgram Q := k.outputUnder p (k.progStep (.takePad _) h)
  have padded : ((s.padded p true).outputUnder p).EveryProgram Q := k.outputUnder p (k.progStep (.takePad _) h)
  obtain e | e | e := formOutput_cases p s
  · rw [e]; exact handed
  · rw [e]; exact padded
  · rw [e]
    unfold State.overThenPad
    split
    · exact everyProgram_setProgram handed fun z hz => by
        cases hz; exact k.audio (audioOnly_channels ..) (padded p _ ‹_›)
    · exact handed

theorem RecordKept.own {s t : State} (step : OwnStep s t) (h : s.EveryProgram Q) : t.EveryProgram Q := by
  cases step with
  | program p step => exact k.progStep step h
  | lane l _ =>
    exact laneStep_keeps (P := State.EveryProgram Q) id (fun u p => k.progStep (.realignIf l)) (fun _ _ h => h) h
  | time _ => exact k.stable.timed h h
  | standby p x defined => exact k.putProgram h (k.standby _ (h p x defined))
  | record p x y defined audio => exact k.audioSet defined audio h
  | output p => exact k.formOutput p h
  | alarm | link | closeOp | memory | interpolate => exact h

theorem RecordKept.defined {s : State} (p : Fin 16) (tag : Byte) (d : Nat) (chs : List Channel)
    (h : s.EveryProgram Q) : (s.defined p tag d chs).EveryProgram Q := by
  have set : (s.setProgram p (some (s.freshProgram p tag d chs))).EveryProgram Q :=
    everyProgram_setProgram h fun y hy => by cases hy; exact k.fresh ..
  unfold State.defined State.handProgram State.openOp
  dsimp only
  split <;> split <;> exact set

theorem RecordKept.leaf {s t : State} (leaf : Leaf s t) (h : s.EveryProgram Q) : t.EveryProgram Q := by
  cases leaf with
  | own step => exact k.own step h
  | define p tag d chs _ _ => exact k.defined p tag d chs h
  | delay p tag d _ => exact k.stable.toInside.takeDelay p tag d h
  | openCheck tag _ => exact k.stable.toInside.openOp tag .check h
  | dropDelay p x defined => exact k.stable.dropDelay s p x defined h
  | vacate p =>
    intro q x hx
    rw [vacate_program] at hx
    split at hx
    · cases hx
    · exact h q x hx
  | asked | buffer | cancelEntries | addEntry | clearReady | restarted => exact h

/-- A property of a record that everything done to a record keeps holds of every record after every step. -/
theorem RecordKept.step_keeps {s t : State} (hs : s.EveryProgram Q) (h : Machine.step s = .next t) :
    t.EveryProgram Q := by
  refine Machine.step_keeps (P := State.EveryProgram Q) (fun _ _ h => h) (fun _ _ h => h) (fun _ _ => k.leaf) ?_ ?_
    (fun _ _ _ h => h) hs h
  · intro s high p x hx
    simp [State.program, State.powerOn, State.reset] at hx
  · intro s pins hs p y hy
    simp only [State.program, State.openSample, State.latch, Vector.getElem_map, Option.map_eq_some_iff] at hy
    obtain ⟨x, hx, rfl⟩ := hy
    exact k.tick (hs p x hx)

end

/-! ## The measurement under the operations on a record -/

section
variable (x : Program)

@[simp] theorem setApplied_loud (v : Int) : (x.setApplied v).loud = x.loud := Program.retotal_loud _

@[simp] theorem setPad_loud (v : Int) : (x.setPad v).loud = x.loud := Program.retotal_loud _

@[simp] theorem takePad_loud (on : Bool) : (x.takePad on).loud = x.loud := by
  unfold Program.takePad
  generalize (if on then (-100 : Int) else 0) = pad
  dsimp only
  split
  · rfl
  · exact setPad_loud ..

@[simp] theorem applyDue_loud (now : Time) : (x.applyDue now).loud = x.loud := by
  unfold Program.applyDue
  dsimp only
  split
  · rfl
  · exact setApplied_loud ..

@[simp] theorem makeRoom_loud : x.makeRoom.loud = x.loud := by
  unfold Program.makeRoom
  split
  · split
    · exact setApplied_loud ..
    · rfl
  · rfl

@[simp] theorem post_loud (now : Time) (block : Nat) : (x.post now block).loud = x.loud := by
  unfold Program.post
  dsimp only
  split
  · rfl
  · split
    · exact setApplied_loud ..
    · exact makeRoom_loud x

@[simp] theorem takeChange_loud (mode : ChangeMode) : (x.takeChange mode).loud = x.loud := by
  unfold Program.takeChange
  split
  · rfl
  · split
    · rfl
    · split
      · rfl
      · split <;> rfl
      · rfl
      · rfl

@[simp] theorem retarget_loud (mode : ChangeMode) (v p : Nat) : (x.retarget mode v p).loud = x.loud := by
  unfold Program.retarget
  dsimp only
  split
  · rfl
  · exact takeChange_loud ..

@[simp] theorem realign_loud (lanes : Vector Lane 4) : (x.realign lanes).loud = x.loud := retarget_loud ..

@[simp] theorem slewArrival_loud : x.slewArrival.loud = x.loud := by
  unfold Program.slewArrival
  split <;> rfl

@[simp] theorem bypassNow_loud (f : Fade) : (x.bypassNow f).loud = x.loud := by
  unfold Program.bypassNow
  dsimp only
  split <;> rfl

@[simp] theorem applyBypass_loud : x.applyBypass.loud = x.loud := by
  unfold Program.applyBypass
  dsimp only
  split
  · split
    · exact bypassNow_loud ..
    · rfl
  · rfl
  · split
    · exact bypassNow_loud ..
    · rfl

@[simp] theorem removeBypass_loud : x.removeBypass.loud = x.loud := by
  unfold Program.removeBypass
  dsimp only
  split
  · rfl
  · split <;> rfl
  · split <;> rfl

end

/-! ## The integration histogram (R79) -/

theorem loudness_le {num den : Nat} {m : Int} (h : loudness num den = some m) : m ≤ 150 := by
  unfold loudness at h
  split at h
  · cases h
  · cases h; omega

/-- A power added to a histogram in order leaves it in order, and its bins are the new one and the ones it had. -/
theorem histAdd_inOrder {bin : Nat} (w : Power) (among : bin ≤ 850) {h : List HistBin}
    (rising : h.Pairwise fun a b => a.bin < b.bin) (bins : ∀ b ∈ h, b.bin ≤ 850 ∧ 1 ≤ b.count ∧ b.count < 2 ^ 32) :
    (histAdd bin w h).Pairwise (fun a b => a.bin < b.bin)
      ∧ (∀ b ∈ histAdd bin w h, b.bin ≤ 850 ∧ 1 ≤ b.count ∧ b.count < 2 ^ 32)
      ∧ ∀ b ∈ histAdd bin w h, b.bin = bin ∨ ∃ c ∈ h, c.bin = b.bin := by
  have new : bin ≤ 850 ∧ 1 ≤ 1 ∧ 1 < 2 ^ 32 := ⟨among, by decide, by decide⟩
  induction h with
  | nil => simpa [histAdd] using new
  | cons b rest ih =>
    obtain ⟨first, tail⟩ := List.pairwise_cons.1 rising
    obtain ⟨hb, hrest⟩ := List.forall_mem_cons.1 bins
    unfold histAdd
    split
    · rename_i less
      refine ⟨List.pairwise_cons.2 ⟨fun c hc => ?_, rising⟩, List.forall_mem_cons.2 ⟨new, bins⟩, fun c hc => ?_⟩
      · obtain rfl | mem := List.mem_cons.1 hc
        · exact less
        · exact less.trans (first c mem)
      · obtain rfl | mem := List.mem_cons.1 hc
        · exact .inl rfl
        · exact .inr ⟨c, mem, rfl⟩
    · split
      · rename_i same
        have kept (d : HistBin) (hd : d.bin = b.bin) (ok : 1 ≤ d.count ∧ d.count < 2 ^ 32) :
            (d :: rest).Pairwise (fun a b => a.bin < b.bin)
              ∧ (∀ b ∈ d :: rest, b.bin ≤ 850 ∧ 1 ≤ b.count ∧ b.count < 2 ^ 32)
              ∧ ∀ c ∈ d :: rest, c.bin = bin ∨ ∃ e ∈ b :: rest, e.bin = c.bin := by
          refine ⟨List.pairwise_cons.2 ⟨fun c hc => hd ▸ first c hc, tail⟩,
            List.forall_mem_cons.2 ⟨⟨hd ▸ hb.1, ok⟩, hrest⟩, fun c hc => ?_⟩
          obtain rfl | mem := List.mem_cons.1 hc
          · exact .inl (hd.trans same.symm)
          · exact .inr ⟨c, List.mem_cons_of_mem _ mem, rfl⟩
        split
        · exact kept _ rfl ⟨by simp, by simp; omega⟩
        · exact kept b rfl hb.2
      · rename_i notLess notSame
        obtain ⟨ihRising, ihBins, ihMem⟩ := ih tail hrest
        refine ⟨List.pairwise_cons.2 ⟨fun c hc => ?_, ihRising⟩, List.forall_mem_cons.2 ⟨hb, ihBins⟩, fun c hc => ?_⟩
        · obtain e | ⟨d, mem, e⟩ := ihMem c hc
          · omega
          · exact e ▸ first d mem
        · obtain rfl | mem := List.mem_cons.1 hc
          · exact .inr ⟨c, List.mem_cons_self, rfl⟩
          · obtain e | ⟨d, dmem, e⟩ := ihMem c mem
            · exact .inl e
            · exact .inr ⟨d, List.mem_cons_of_mem _ dmem, e⟩

theorem integrate_hist (l : Loud) : l.integrate.hist = l.hist := by
  unfold Loud.integrate
  dsimp only
  split <;> rfl

/-- A measurement whose histogram is another's is in order with it. -/
theorem Loud.HistogramInOrder.of_hist {l m : Loud} (h : l.HistogramInOrder) (e : m.hist = l.hist) :
    m.HistogramInOrder := ⟨e ▸ h.rising, e ▸ h.bins⟩

/-- A block end leaves the histogram, or adds a window to a bin within the 851 (R80). -/
theorem endBlock_hist (now : Time) (block : Nat) (power : Power) (l : Loud) :
    (l.endBlock now block power).hist = l.hist
      ∨ ∃ bin w, bin ≤ 850 ∧ (l.endBlock now block power).hist = histAdd bin w l.hist := by
  unfold Loud.endBlock
  dsimp only
  rw [integrate_hist]
  cases window : momentaryPower (ringAppend l.ring ⟨block, power, power.loudness, l.validity⟩) with
  | none => exact .inl rfl
  | some w =>
    cases value : w.loudness with
    | none => simp [value]
    | some m =>
      have top := loudness_le value
      simp only [Option.bind_some, value]
      split
      · exact .inr ⟨(m + 700).toNat, w, by omega, rfl⟩
      · exact .inl rfl

theorem histogramInOrder_endBlock {l : Loud} (now : Time) (block : Nat) (power : Power) (h : l.HistogramInOrder) :
    (l.endBlock now block power).HistogramInOrder := by
  obtain same | ⟨bin, w, among, added⟩ := endBlock_hist now block power l
  · exact h.of_hist same
  · obtain ⟨rising, bins, _⟩ := histAdd_inOrder w among h.rising h.bins
    exact ⟨added ▸ rising, added ▸ bins⟩

theorem histogramInOrder_blockEnd {x : Program} (now : Time) (h : x.loud.HistogramInOrder) :
    (x.blockEnd now).loud.HistogramInOrder := by
  unfold Program.blockEnd
  dsimp only
  split
  · exact h
  · rw [post_loud, applyDue_loud]
    exact histogramInOrder_endBlock now _ _ h

/-- Of the operations on a record only a block end and a reset reach the histogram (R79, R82). -/
theorem ProgramStep.keeps_histogram {lanes : Vector Lane 4} {f : Program → Program} (x : Program)
    (step : ProgramStep lanes f) (h : x.loud.HistogramInOrder) : (f x).loud.HistogramInOrder := by
  cases step with
  | blockEnd now => exact histogramInOrder_blockEnd now h
  | resetIntegration t => exact ⟨.nil, fun _ mem => nomatch mem⟩
  | start =>
    refine h.of_hist ?_
    unfold Program.start
    split
    · rfl
    · split <;> rfl
    · rfl
  | stop =>
    refine h.of_hist ?_
    unfold Program.stop
    split <;> rfl
  | onAirEnd =>
    refine h.of_hist ?_
    unfold Program.onAirEnd
    split
    · rfl
    · split <;> rfl
  | changeoverSwitch c =>
    refine h.of_hist ?_
    unfold Program.changeoverSwitch
    split
    · split
      · rw [realign_loud]; rfl
      · rfl
    · rfl
  | realignIf l =>
    refine h.of_hist ?_
    dsimp only
    split
    · rw [realign_loud]
    · rfl
  | setLoudness c => exact h.of_hist (congrArg Loud.hist (Program.retotal_loud _))
  | takeDelay tag d => exact h.of_hist (congrArg Loud.hist (retarget_loud ..))
  | stopDelay => exact h.of_hist (congrArg Loud.hist ((retarget_loud ..).trans (slewArrival_loud x)))
  | cutJump =>
    refine h.of_hist ?_
    unfold Program.cutJump
    split <;> rfl
  | cutInEnd =>
    refine h.of_hist ?_
    unfold Program.cutInEnd
    split <;> rfl
  | slewArrival => exact h.of_hist (congrArg Loud.hist (slewArrival_loud x))
  | takeBypass applied =>
    refine h.of_hist ?_
    unfold Program.takeBypass
    split
    · rfl
    · split
      · rw [applyBypass_loud]
      · rw [removeBypass_loud]
  | bypassSwitch =>
    refine h.of_hist ?_
    unfold Program.bypassSwitch
    split
    · rw [bypassNow_loud]
    · rfl
  | bypassFadeInEnd =>
    refine h.of_hist ?_
    unfold Program.bypassFadeInEnd
    split <;> rfl
  | applyDue now => exact h.of_hist (congrArg Loud.hist (applyDue_loud ..))
  | rampEnd =>
    refine h.of_hist ?_
    unfold Program.rampEnd
    split <;> rfl
  | takePad on => exact h.of_hist (congrArg Loud.hist (takePad_loud ..))
  | mute flag =>
    refine h.of_hist ?_
    unfold Program.mute
    split <;> rfl
  | muteEnd =>
    refine h.of_hist ?_
    unfold Program.muteEnd
    split <;> rfl
  | takeModes | takeMode | takeSources | takeDemands | changeoverEnd | stepTrim | endTrimStep | pause | judgeSilence =>
    exact h.of_hist rfl

theorem histogram_kept : RecordKept fun x => x.loud.HistogramInOrder where
  step x step h := step.keeps_histogram x h
  dropDelay _ h := h
  audio audio h := h.of_hist audio.hist
  standby _ h := h.of_hist rfl
  fresh _ _ _ _ _ := ⟨.nil, fun _ mem => nomatch mem⟩
  tick h := h.of_hist rfl

/-- Every program's integration histogram stays in order. -/
theorem step_keeps_histograms {s t : State} (hs : s.HistogramsInOrder) (h : step s = .next t) : t.HistogramsInOrder :=
  histogram_kept.step_keeps hs h

end Sys2Proof.Machine
end

section
/-! PROOF. Tagged work stays in order (O9): the operation table, the schedule and the receive buffer. -/

namespace Sys2Proof.Machine

/-! ## The ordered lists -/

theorem removeFirst_sublist {α : Type} (f : α → Bool) (l : List α) : (removeFirst f l).Sublist l := by
  induction l with
  | nil => exact .refl _
  | cons x rest ih =>
    unfold removeFirst
    split
    · exact List.sublist_cons_self ..
    · exact ih.cons_cons x

theorem removeFirst_eq_erase (e : SchedEntry) (l : List SchedEntry) : removeFirst (· == e) l = l.erase e := by
  induction l with
  | nil => rfl
  | cons x rest ih => rw [removeFirst, List.erase_cons, ih]

theorem insertOp_perm (e : OpEntry) (l : List OpEntry) : (insertOp e l).Perm (e :: l) := by
  induction l with
  | nil => exact .refl _
  | cons x rest ih =>
    unfold insertOp
    split
    · exact .refl _
    · exact (ih.cons x).trans (.swap e x rest)

/-- An entry whose tag the table does not hold is put in without breaking the order of the tags. -/
theorem insertOp_sorted (e : OpEntry) (l : List OpEntry) (sorted : l.Pairwise fun a b => a.tag.toNat < b.tag.toNat)
    (free : ∀ x ∈ l, x.tag ≠ e.tag) : (insertOp e l).Pairwise fun a b => a.tag.toNat < b.tag.toNat := by
  induction l with
  | nil => simp [insertOp]
  | cons x rest ih =>
    obtain ⟨first, tail⟩ := List.pairwise_cons.1 sorted
    obtain ⟨differs, freeRest⟩ := List.forall_mem_cons.1 free
    unfold insertOp
    split
    · rename_i less
      refine List.pairwise_cons.2 ⟨fun y hy => ?_, sorted⟩
      obtain rfl | mem := List.mem_cons.1 hy
      · exact less
      · exact less.trans (first y mem)
    · rename_i notLess
      refine List.pairwise_cons.2 ⟨fun y hy => ?_, ih tail freeRest⟩
      obtain rfl | mem := List.mem_cons.1 ((insertOp_perm e rest).mem_iff.1 hy)
      · have apart : x.tag.toNat ≠ y.tag.toNat := fun h => differs (BitVec.eq_of_toNat_eq h)
        omega
      · exact first y mem

theorem insertEntry_perm (e : SchedEntry) (l : List SchedEntry) : (insertEntry e l).Perm (e :: l) := by
  induction l with
  | nil => exact .refl _
  | cons x rest ih =>
    unfold insertEntry
    split
    · exact .refl _
    · exact (ih.cons x).trans (.swap e x rest)

/-- R16: an entry is put in its place by due frame. -/
theorem insertEntry_sorted (e : SchedEntry) (l : List SchedEntry)
    (sorted : l.Pairwise fun a b => a.due.toNat ≤ b.due.toNat) :
    (insertEntry e l).Pairwise fun a b => a.due.toNat ≤ b.due.toNat := by
  induction l with
  | nil => simp [insertEntry]
  | cons x rest ih =>
    obtain ⟨first, tail⟩ := List.pairwise_cons.1 sorted
    unfold insertEntry
    split
    · rename_i less
      refine List.pairwise_cons.2 ⟨fun y hy => ?_, sorted⟩
      obtain rfl | mem := List.mem_cons.1 hy
      · exact less.le
      · exact less.le.trans (first y mem)
    · rename_i notLess
      refine List.pairwise_cons.2 ⟨fun y hy => ?_, ih tail⟩
      obtain rfl | mem := List.mem_cons.1 ((insertEntry_perm e rest).mem_iff.1 hy)
      · omega
      · exact first y mem

/-! ## The tables, apart from the frame in progress -/

/-- What the order of tagged work asks of the tables, whatever frame is in progress. -/
structure State.TablesInOrder (s : State) : Prop where
  sorted : s.tb.schedule.Pairwise fun a b => a.due.toNat ≤ b.due.toNat
  tags : (s.link.ops.map OpEntry.tag ++ s.tb.schedule.map SchedEntry.tag).Nodup
  nonzero : (∀ e ∈ s.link.ops, e.tag ≠ 0) ∧ ∀ e ∈ s.tb.schedule, e.tag ≠ 0
  ops : s.link.ops.Pairwise fun a b => a.tag.toNat < b.tag.toNat
  sizes : s.tb.schedule.length ≤ 32 ∧ s.link.ops.length ≤ 8 ∧ s.link.buffer.length ≤ 4

theorem State.WorkInOrder.tables {s : State} (h : s.WorkInOrder) : s.TablesInOrder :=
  ⟨h.sorted, h.tags, h.nonzero, h.ops, h.sizes⟩

theorem State.TablesInOrder.work {s : State} (h : s.TablesInOrder)
    (ahead : ∀ e ∈ s.tb.schedule, s.tb.frameIndex.toNat < e.due.toNat) : s.WorkInOrder :=
  ⟨h.sorted, ahead, h.tags, h.nonzero, h.ops, h.sizes⟩

/-- Nothing has been put into the tables: work may have left them. -/
structure Shrinks (s t : State) : Prop where
  schedule : t.tb.schedule.Sublist s.tb.schedule
  ops : t.link.ops.Sublist s.link.ops
  buffer : t.link.buffer.length ≤ max 4 s.link.buffer.length

theorem Shrinks.refl (s : State) : Shrinks s s := ⟨.refl _, .refl _, by omega⟩

theorem Shrinks.trans {a b c : State} (h : Shrinks a b) (k : Shrinks b c) : Shrinks a c :=
  ⟨k.schedule.trans h.schedule, k.ops.trans h.ops, by have := h.buffer; have := k.buffer; omega⟩

theorem Shrinks.tables {s t : State} (k : Shrinks s t) (h : s.TablesInOrder) : t.TablesInOrder where
  sorted := h.sorted.sublist k.schedule
  tags := h.tags.sublist ((k.ops.map _).append (k.schedule.map _))
  nonzero := ⟨fun e he => h.nonzero.1 e (k.ops.subset he), fun e he => h.nonzero.2 e (k.schedule.subset he)⟩
  ops := h.ops.sublist k.ops
  sizes := by
    have := h.sizes
    have := k.schedule.length_le
    have := k.ops.length_le
    have := k.buffer
    omega

theorem Shrinks.work {s t : State} (k : Shrinks s t) (frame : t.tb.frameIndex = s.tb.frameIndex) (h : s.WorkInOrder) :
    t.WorkInOrder :=
  (k.tables h.tables).work fun e he => frame ▸ h.ahead e (k.schedule.subset he)

/-- A tag is held where an operation or an entry carries it (R181). -/
theorem tagHeld_false_iff (s : State) (tag : Byte) :
    s.tagHeld tag = false ↔ (∀ e ∈ s.link.ops, e.tag ≠ tag) ∧ ∀ e ∈ s.tb.schedule, e.tag ≠ tag := by
  simp [State.tagHeld]

theorem tag_not_mem {s : State} {tag : Byte} (free : s.tagHeld tag = false) :
    tag ∉ s.link.ops.map OpEntry.tag ++ s.tb.schedule.map SchedEntry.tag := by
  obtain ⟨ops, schedule⟩ := (tagHeld_false_iff s tag).1 free
  intro mem
  obtain op | entry := List.mem_append.1 mem
  · obtain ⟨e, he, same⟩ := List.mem_map.1 op
    exact ops e he same
  · obtain ⟨e, he, same⟩ := List.mem_map.1 entry
    exact schedule e he same

/-- New work may still be opened where work has only left the tables. -/
theorem Shrinks.opens {s t : State} {tag : Byte} (k : Shrinks s t) (h : s.Opens tag) : t.Opens tag := by
  obtain zero | ⟨free, room⟩ := h
  · exact .inl zero
  · obtain ⟨ops, schedule⟩ := (tagHeld_false_iff s tag).1 free
    refine .inr ⟨(tagHeld_false_iff t tag).2 ⟨fun e he => ops e (k.ops.subset he),
      fun e he => schedule e (k.schedule.subset he)⟩, ?_⟩
    have := k.ops.length_le
    omega

/-! ## Work that leaves the tables -/

theorem shrinks_closeOp (tag : Byte) (k : Concern) (r : Result) (d : List Byte) (s : State) :
    Shrinks s (s.closeOp tag k r d) := ⟨.refl _, removeFirst_sublist _ _, le_max_right ..⟩

/-- A change that leaves the timebase and the Link Port as they are leaves the tables so. -/
theorem shrinks_of_eq {s t : State} (tb : t.tb = s.tb) (link : t.link = s.link) : Shrinks s t :=
  ⟨tb ▸ .refl _, link ▸ .refl _, by rw [link]; omega⟩

theorem work_of_eq {s t : State} (tb : t.tb = s.tb) (link : t.link = s.link) (h : s.WorkInOrder) : t.WorkInOrder :=
  (shrinks_of_eq tb link).work (by rw [tb]) h

theorem shrinks_setProgram (p : Fin 16) (x : Option Program) (s : State) : Shrinks s (s.setProgram p x) :=
  shrinks_of_eq rfl rfl

theorem shrinks_overEvents (p : Fin 16) (s : State) : Shrinks s (s.overEvents p) := by
  unfold State.overEvents
  refine forAll_rel Shrinks.refl (fun _ _ _ => Shrinks.trans) _ (fun c u => ?_) s
  unfold State.overEvent
  split
  · exact .refl u
  · split
    · exact shrinks_of_eq rfl rfl
    · exact .refl u

theorem shrinks_endDelayOp (p : Fin 16) (r : Result) (s : State) : Shrinks s (s.endDelayOp p r) := by
  unfold State.endDelayOp
  split
  · exact .refl s
  · split
    · exact .refl s
    · exact (shrinks_setProgram ..).trans (shrinks_closeOp ..)

theorem shrinks_settleDelay (p : Fin 16) (s : State) : Shrinks s (s.settleDelay p) := by
  unfold State.settleDelay
  split
  · exact .refl s
  · split
    · exact shrinks_endDelayOp ..
    · exact .refl s

theorem shrinks_handProgram (p : Fin 16) (s : State) : Shrinks s (s.handProgram p) := by
  unfold State.handProgram
  split
  · exact .refl s
  · exact shrinks_of_eq rfl rfl

theorem shrinks_putProgram (p : Fin 16) (x y : Program) (s : State) : Shrinks s (s.putProgram p x y) :=
  ((shrinks_setProgram p _ s).trans (shrinks_settleDelay p _)).trans (shrinks_handProgram p _)

theorem shrinks_progStep (p : Fin 16) (f : Program → Program) (s : State) : Shrinks s (s.progStep p f) := by
  unfold State.progStep
  split
  · exact .refl s
  · split
    · exact .refl s
    · exact shrinks_putProgram ..

theorem shrinks_outputUnder (p : Fin 16) (s : State) : Shrinks s (s.outputUnder p) := by
  unfold State.outputUnder
  split
  · exact .refl s
  · exact (shrinks_setProgram ..).trans (shrinks_overEvents p _)

theorem shrinks_formOutput (p : Fin 16) (s : State) : Shrinks s (s.formOutput p) := by
  have handed : Shrinks s ((s.handPad p).outputUnder p) := (shrinks_progStep ..).trans (shrinks_outputUnder ..)
  obtain h | h | h := formOutput_cases p s
  · rw [h]; exact handed
  · rw [h]; exact (shrinks_progStep ..).trans (shrinks_outputUnder ..)
  · rw [h]
    unfold State.overThenPad
    split
    · exact handed.trans (shrinks_of_eq rfl rfl)
    · exact handed

/-! ## Work that enters the tables -/

/-- R181, R182: work opened under a tag that may be given to it leaves the tables in order. -/
theorem tables_openOp {s : State} (tag : Byte) (k : Concern) (opens : s.Opens tag) (h : s.TablesInOrder) :
    (s.openOp tag k).TablesInOrder := by
  unfold State.openOp
  split
  · exact h
  rename_i nonzero
  obtain ⟨held, room⟩ := opens.resolve_left nonzero
  have freeOps := ((tagHeld_false_iff s tag).1 held).1
  have perm := insertOp_perm ⟨tag, k, s.counter⟩ s.link.ops
  refine ⟨h.sorted, ?_, ⟨fun e he => ?_, h.nonzero.2⟩, insertOp_sorted _ _ h.ops freeOps, h.sizes.1, ?_, h.sizes.2.2⟩
  · refine (((perm.map OpEntry.tag).append_right _).nodup_iff).2 (List.nodup_cons.2 ⟨?_, h.tags⟩)
    exact tag_not_mem held
  · obtain rfl | mem := List.mem_cons.1 (perm.mem_iff.1 he)
    · exact nonzero
    · exact h.nonzero.1 e mem
  · rw [perm.length_eq]; exact room

/-- R126, R135: a SET_DELAY taken under a tag that may be given to it leaves the tables in order. -/
theorem tables_takeDelay {s : State} (p : Fin 16) (tag : Byte) (d : DelayAsk) (opens : s.Opens tag)
    (h : s.TablesInOrder) : (s.takeDelay p tag d).TablesInOrder := by
  have ended := shrinks_endDelayOp p .superseded s
  exact (shrinks_progStep ..).tables (tables_openOp tag (.delay p) (ended.opens opens) (ended.tables h))

theorem tables_setDelay {s : State} (tag b : Byte) (f : DelayFields) (opens : s.Opens tag) (h : s.TablesInOrder) :
    (s.setDelay tag b f).state.TablesInOrder := by
  unfold State.setDelay State.withProgram
  split
  · exact h
  · split
    · exact h
    · split
      · exact h
      · exact tables_takeDelay _ _ _ opens h

theorem keepsOutside_takeDelay (p : Fin 16) (tag : Byte) (d : DelayAsk) (s : State) :
    KeepsOutside s (s.takeDelay p tag d) :=
  ((keepsOutside_endDelayOp ..).trans (keepsOutside_openOp ..)).trans (keepsOutside_progStep ..)

theorem keepsOutside_inside (s : State) : Inside (KeepsOutside s) where
  program _ _ _ _ h := h.trans (keepsOutside_progStep ..)
  dropDelay _ _ _ _ h := h.trans (keepsOutside_setProgram ..)
  link _ _ _ h := h.trans ⟨rfl, rfl, rfl, rfl, rfl, rfl, rfl, rfl, rfl⟩

/-- R18: an entry that runs reaches the programs, the Alarm Unit and the Link Port, once it has left the schedule. -/
theorem keepsOutside_runEntry (e : SchedEntry) (s : State) : KeepsOutside (s.unscheduled e) (s.runEntry e) :=
  (keepsOutside_inside (s.unscheduled e)).runEntry e (.refl _)

theorem runEntry_tb (e : SchedEntry) (s : State) :
    (s.runEntry e).tb = { s.tb with schedule := s.tb.schedule.erase e } := by
  rw [(keepsOutside_runEntry e s).tb, ← removeFirst_eq_erase]; rfl

theorem shrinks_unscheduled (e : SchedEntry) (s : State) : Shrinks s (s.unscheduled e) :=
  ⟨removeFirst_sublist _ _, .refl _, le_max_right ..⟩

theorem unscheduled_schedule (e : SchedEntry) (s : State) :
    (s.unscheduled e).tb.schedule = s.tb.schedule.erase e := removeFirst_eq_erase e _

/-- An entry that has left the schedule leaves its tag free. -/
theorem unscheduled_tagHeld {s : State} {e : SchedEntry} (h : s.TablesInOrder) (mem : e ∈ s.tb.schedule) :
    (s.unscheduled e).tagHeld e.tag = false := by
  obtain ⟨_, schedule, apart⟩ := List.nodup_append.1 h.tags
  refine (tagHeld_false_iff _ _).2 ⟨fun o ho same => ?_, fun x hx same => ?_⟩
  · exact apart o.tag (List.mem_map_of_mem ho) e.tag (List.mem_map_of_mem mem) same
  · rw [unscheduled_schedule] at hx
    have perm := ((List.perm_cons_erase mem).map SchedEntry.tag).nodup_iff.1 schedule
    exact (List.nodup_cons.1 perm).1 (same ▸ List.mem_map_of_mem hx)

/-- R18, R19: an entry that runs leaves the tables in order. -/
theorem tables_runEntry {s : State} {e : SchedEntry} (h : s.TablesInOrder) (mem : e ∈ s.tb.schedule) :
    (s.runEntry e).TablesInOrder := by
  have left := (shrinks_unscheduled e s).tables h
  have complete (u : State) (c : Completion) (hu : u.TablesInOrder) : (u.complete c).TablesInOrder := by
    have same : Shrinks u (u.complete c) := ⟨.refl _, .refl _, le_max_right ..⟩
    exact same.tables hu
  unfold State.runEntry
  dsimp only
  split
  · unfold State.carryDelay
    split
    · exact complete _ _ left
    · rename_i room
      have opens : (s.unscheduled e).Opens e.tag := .inr ⟨unscheduled_tagHeld h mem, Nat.lt_of_not_le room⟩
      dsimp only
      split
      · exact tables_setDelay _ _ _ opens left
      · exact complete _ _ left
  · rename_i r _ _
    obtain same | ⟨p, f, _, made⟩ := runInner_step r (s.unscheduled e)
    · exact complete ((s.unscheduled e).runInner r).state _ (by rw [same]; exact left)
    · exact complete ((s.unscheduled e).runInner r).state _ (by rw [made]; exact (shrinks_progStep ..).tables left)
  · exact left

/-! ## The entries of a frame -/

/-- R18: with the entries due on the frame that has begun run one after another, every entry left is still to come. -/
theorem work_runEntries (l : List SchedEntry) {s : State} (tables : s.TablesInOrder)
    (due : (s.tb.schedule.filter fun e => e.due == s.tb.frameIndex) = l)
    (reached : ∀ e ∈ s.tb.schedule, s.tb.frameIndex.toNat ≤ e.due.toNat) : (l.foldl State.runEntry s).WorkInOrder := by
  induction l generalizing s with
  | nil =>
    refine tables.work fun e he => Nat.lt_of_le_of_ne (reached e he) fun same => ?_
    have := (List.filter_eq_nil_iff.1 due) e he
    simp [BitVec.eq_of_toNat_eq same] at this
  | cons e rest ih =>
    have mem : e ∈ s.tb.schedule := (List.mem_filter.1 (due ▸ List.mem_cons_self (a := e) (l := rest))).1
    have tb := runEntry_tb e s
    refine ih (tables_runEntry tables mem) ?_ fun x hx => ?_
    · rw [tb]
      dsimp only
      rw [← List.erase_filter, due, List.erase_cons_head]
    · rw [tb] at hx ⊢
      exact reached x (List.mem_of_mem_erase hx)

theorem work_runFrame {s : State} (tables : s.TablesInOrder)
    (reached : ∀ e ∈ s.tb.schedule, s.tb.frameIndex.toNat ≤ e.due.toNat) : s.runFrame.WorkInOrder :=
  work_runEntries _ tables rfl reached

/-! ## The schedule under the steps of the timebase -/

/-- What a step of the timebase does to the frame index and the schedule: a frame that begins takes the next index. -/
structure Timebase.Follows (t u : Timebase) (begins : Bool) : Prop where
  schedule : u.schedule = t.schedule
  frameIndex : u.frameIndex = if begins then t.frameIndex + 1 else t.frameIndex

theorem select_frame (now : Time) (i : RefInput) (t : Timebase) : t.Follows (t.select now i) false := ⟨rfl, rfl⟩

theorem leaveFree_frame (now : Time) (t : Timebase) : t.Follows (t.leaveFree now) false := by
  unfold Timebase.leaveFree
  split
  · exact ⟨rfl, rfl⟩
  · split
    · exact ⟨rfl, rfl⟩
    · split <;> exact ⟨rfl, rfl⟩

theorem beginFrame_frame (now : Time) (cadence : Nat) (realign : Bool) (t : Timebase) :
    t.Follows (t.beginFrame now cadence realign) true := by
  unfold Timebase.beginFrame
  dsimp only
  split
  · exact ⟨rfl, rfl⟩
  · exact ⟨(leaveFree_frame now _).schedule, (leaveFree_frame now _).frameIndex⟩

theorem Timebase.Follows.trans {t u v : Timebase} {begins : Bool} (h : t.Follows u false) (k : u.Follows v begins) :
    t.Follows v begins :=
  ⟨k.schedule.trans h.schedule, by rw [k.frameIndex, h.frameIndex]; rfl⟩

theorem qualify_frame (now : Time) (i : RefInput) (t : Timebase) : t.Follows (t.qualify now i) false := by
  have left := leaveFree_frame now t
  unfold Timebase.qualify Timebase.judgeRevert
  dsimp only
  split <;> exact ⟨left.schedule, left.frameIndex⟩

theorem setRef_frame (i : RefInput) (r : RefState) (t : Timebase) : t.Follows (t.setRef i r) false := by
  cases i <;> exact ⟨rfl, rfl⟩

theorem judgePulse_frame (now : Time) (i : RefInput) (marked : Bool) (t : Timebase) :
    t.Follows (t.judgePulse now i marked).1 (t.judgePulse now i marked).2 := by
  unfold Timebase.judgePulse
  dsimp only
  split
  · split
    · exact beginFrame_frame ..
    · exact ⟨rfl, rfl⟩
  · split
    · dsimp only
      split
      · unfold Timebase.takeMarker
        split <;> exact ⟨rfl, rfl⟩
      · exact ⟨rfl, rfl⟩
    · split
      · exact beginFrame_frame ..
      · exact ⟨rfl, rfl⟩

theorem countPulse_frame (now : Time) (t : Timebase) : t.Follows (t.countPulse now).1 (t.countPulse now).2 := by
  unfold Timebase.countPulse
  split
  · split
    · exact judgePulse_frame ..
    · exact ⟨rfl, rfl⟩
  · exact ⟨rfl, rfl⟩

theorem pulse_frame (now : Time) (i : RefInput) (marked : Bool) (t : Timebase) :
    t.Follows (t.pulse now i marked).1 (t.pulse now i marked).2 := by
  have qualified : t.Follows ((t.timePulse now i marked).qualify now i) false :=
    (setRef_frame ..).trans (qualify_frame ..)
  unfold Timebase.pulse
  dsimp only
  split
  · exact qualified.trans (judgePulse_frame ..)
  · exact qualified

theorem holdExpire_frame (now : Time) (t : Timebase) : t.Follows (t.holdExpire now) false := by
  unfold Timebase.holdExpire
  split
  · split <;> exact ⟨rfl, rfl⟩
  · exact ⟨rfl, rfl⟩

theorem lose_frame (now : Time) (i : RefInput) (t : Timebase) : t.Follows (t.lose now i) false := by
  have set := setRef_frame i { t.ref i with present := false, markerSeen := false, validRun := 0 } t
  unfold Timebase.lose Timebase.judgeRevert
  dsimp only
  split <;> exact ⟨set.schedule, set.frameIndex⟩

theorem TimebaseStep.follows {now : Time} {t u : Timebase} {begins : Bool} (step : TimebaseStep now t u begins) :
    t.Follows u begins := by
  cases step with
  | lose i => exact lose_frame now i t
  | configure => exact ⟨rfl, rfl⟩
  | boundary => exact beginFrame_frame ..
  | realignTimeout => exact beginFrame_frame ..
  | pulse i marked => exact pulse_frame now i marked t
  | holdExpire => exact (holdExpire_frame now t).trans (countPulse_frame ..)
  | revert => exact (select_frame now _ t).trans (countPulse_frame ..)

/-- A step of the timebase puts the new one in its place. -/
theorem tbStep_tb (t : Timebase) (s : State) : (s.tbStep fun _ => t).tb = t := by
  unfold State.tbStep
  split
  · rename_i same; exact same.symm
  · rfl

theorem tbStep_link (f : Timebase → Timebase) (s : State) : (s.tbStep f).link = s.link := by
  unfold State.tbStep
  split <;> rfl

/-- R18: a step of the timebase keeps the work in order: the entries due on a frame that begins are run. -/
theorem work_timed {s : State} {t : Timebase} {begins : Bool} (step : TimebaseStep s.counter s.tb t begins)
    (h : s.WorkInOrder) : (s.timed t begins).WorkInOrder := by
  obtain ⟨schedule, frameIndex⟩ := step.follows
  have shrinks : Shrinks s (s.tbStep fun _ => t) :=
    ⟨by rw [tbStep_tb, schedule], by rw [tbStep_link], by rw [tbStep_link]; omega⟩
  unfold State.timed
  cases begins with
  | false => exact shrinks.work (by rw [tbStep_tb, frameIndex]; rfl) h
  | true =>
    refine work_runFrame (shrinks.tables h.tables) fun e he => ?_
    rw [tbStep_tb] at he ⊢
    have ahead := h.ahead e (schedule ▸ he)
    rw [frameIndex]
    have small := e.due.isLt
    have one : (1 : FrameIndex).toNat = 1 := rfl
    simp only [↓reduceIte, BitVec.toNat_add, one]
    omega

/-! ## The whole part -/

theorem shrinks_laneStep (l : Fin 4) (f : Lane → Lane) (s : State) : Shrinks s (s.laneStep l f) :=
  laneStep_keeps (P := Shrinks s) (fun _ => shrinks_of_eq rfl rfl)
    (fun u p h => h.trans (shrinks_progStep p _ u)) (fun _ _ h => h.trans (shrinks_of_eq rfl rfl)) (.refl s)

theorem keepsOutside_laneStep_tb (l : Fin 4) (f : Lane → Lane) (s : State) : (s.laneStep l f).tb = s.tb :=
  laneStep_keeps (P := fun u => u.tb = s.tb) (fun _ => rfl)
    (fun u p h => (keepsOutside_progStep p _ u).tb.trans h) (fun _ _ h => h) rfl

theorem work_own {s t : State} (step : OwnStep s t) (h : s.WorkInOrder) : t.WorkInOrder := by
  cases step with
  | program p _ => exact (shrinks_progStep ..).work (congrArg _ (keepsOutside_progStep ..).tb) h
  | lane l _ => exact (shrinks_laneStep ..).work (congrArg _ (keepsOutside_laneStep_tb ..)) h
  | time step => exact work_timed step h
  | link k ops buffer =>
    have same : Shrinks s { s with link := k } := ⟨.refl _, by simp [ops], by simp [buffer]⟩
    exact same.work rfl h
  | closeOp => exact (shrinks_closeOp ..).work rfl h
  | standby p x _ => exact (shrinks_putProgram ..).work (congrArg _ (keepsOutside_putProgram ..).tb) h
  | output p => exact (shrinks_formOutput p s).work (congrArg _ (keepsOutside_formOutput p s).tb) h
  | alarm | memory | record | interpolate => exact work_of_eq (s := s) rfl rfl h

theorem work_leaf {s t : State} (leaf : Leaf s t) (h : s.WorkInOrder) : t.WorkInOrder := by
  cases leaf with
  | own step => exact work_own step h
  | buffer b room =>
    have same : Shrinks s { s with link := { s.link with buffer := b } } := ⟨.refl _, .refl _, room⟩
    exact same.work rfl h
  | define p tag d chs _ opens =>
    have made : Shrinks s { s.setProgram p (some (s.freshProgram p tag d chs)) with
        pool := s.pool.allocate s.counter p (chs.length * (s.freshProgram p tag d chs).rows)
        claims := claimAll p 0 chs s.claims } := shrinks_of_eq rfl rfl
    have tables := tables_openOp tag (.definition p) (made.opens opens) (made.tables h.tables)
    refine ((shrinks_handProgram p _).tables tables).work ?_
    rw [(keepsOutside_handProgram ..).tb, (keepsOutside_openOp ..).tb]
    exact h.ahead
  | delay p tag d opens =>
    refine (tables_takeDelay p tag d opens h.tables).work ?_
    rw [(keepsOutside_takeDelay ..).tb]
    exact h.ahead
  | openCheck tag opens =>
    refine (tables_openOp tag .check opens h.tables).work ?_
    rw [(keepsOutside_openOp ..).tb]
    exact h.ahead
  | vacate p =>
    refine (?_ : Shrinks s _ ∧ _).elim fun shrinks frame => shrinks.work frame h
    unfold State.vacate
    split
    · exact ⟨.refl s, rfl⟩
    · exact ⟨shrinks_of_eq rfl rfl, rfl⟩
  | cancelEntries f =>
    have left : Shrinks s (s.cancelEntries f) := ⟨List.filter_sublist, .refl _, le_max_right ..⟩
    exact left.work rfl h
  | addEntry e nonzero free ahead room =>
    have perm := insertEntry_perm e s.tb.schedule
    refine ⟨insertEntry_sorted e _ h.sorted, fun x hx => ?_, ?_, ⟨h.nonzero.1, fun x hx => ?_⟩, h.ops, ?_, h.sizes.2⟩
    · obtain rfl | mem := List.mem_cons.1 (perm.mem_iff.1 hx)
      · exact ahead
      · exact h.ahead x mem
    · refine (((perm.map SchedEntry.tag).append_left _).trans List.perm_middle).nodup_iff.2
        (List.nodup_cons.2 ⟨?_, h.tags⟩)
      exact tag_not_mem free
    · obtain rfl | mem := List.mem_cons.1 (perm.mem_iff.1 hx)
      · exact nonzero
      · exact h.nonzero.2 x mem
    · exact perm.length_eq ▸ room
  | restarted =>
    have cleared : Shrinks s (s.restarted s.counter) := ⟨List.nil_sublist _, List.nil_sublist _, le_max_right ..⟩
    exact cleared.work rfl h
  | asked | dropDelay | clearReady => exact work_of_eq (s := s) rfl rfl h

theorem work_empty {s : State} (schedule : s.tb.schedule = []) (ops : s.link.ops = []) (buffer : s.link.buffer = []) :
    s.WorkInOrder := by
  constructor <;> simp [schedule, ops, buffer]

/-- Tagged work stays in order. -/
theorem step_keeps_work {s t : State} (hs : s.WorkInOrder) (h : step s = .next t) : t.WorkInOrder :=
  step_keeps (P := State.WorkInOrder) (fun _ _ h => ⟨h.sorted, h.ahead, h.tags, h.nonzero, h.ops, h.sizes⟩)
    (fun _ _ h => ⟨h.sorted, h.ahead, h.tags, h.nonzero, h.ops, h.sizes⟩)
    (fun _ _ => work_leaf) (fun _ _ => work_empty rfl rfl rfl)
    (fun _ _ h => ⟨h.sorted, h.ahead, h.tags, h.nonzero, h.ops, h.sizes⟩)
    (fun _ _ _ h => ⟨h.sorted, h.ahead, h.tags, h.nonzero, h.ops, h.sizes⟩) hs h

end Sys2Proof.Machine

open Sys2Proof Sys2Proof.Machine

/-- Settles O9: the timebase, the tagged work and the histograms are each kept by every leaf change. -/
theorem stepKeepsFramesWorkAndHistogramsInOrder : Obligations.StepKeepsFramesWorkAndHistogramsInOrder :=
  ⟨fun _ _ => step_keeps_inOrder, fun _ _ => step_keeps_work, fun _ _ => step_keeps_histograms⟩

end

section
/-! PROOF. The raw conditions of the Alarm Unit's points: what each of its operations leaves them. -/

namespace Sys2Proof.Machine

/-! ## Annunciation, protection and notices leave every raw condition -/

theorem setPoint_raw (a : AlarmUnit) (pt q : Fin 118) (x : Point) :
    ((a.setPoint pt x).point q).raw = if pt = q then x.raw else (a.point q).raw := by
  split
  · rename_i e
    subst e
    rw [AlarmUnit.point_setPoint]
  · rw [AlarmUnit.point_setPoint_ne _ _ _ _ ‹_›]

/-- A point given a new record with the raw condition it has leaves every raw condition. -/
theorem setPoint_raw_same {a : AlarmUnit} {pt : Fin 118} {x : Point} (q : Fin 118) (h : x.raw = (a.point pt).raw) :
    ((a.setPoint pt x).point q).raw = (a.point q).raw := by
  rw [setPoint_raw]
  split
  · rename_i e
    rw [h, e]
  · rfl

@[simp] theorem enterNotice_raw (now : Time) (pt q : Fin 118) (a : AlarmUnit) :
    ((a.enterNotice now pt).point q).raw = (a.point q).raw := by
  rw [enterNotice_point]
  exact setPoint_raw_same q rfl

@[simp] theorem annunciate_raw (now : Time) (pt q : Fin 118) (x : Annunciation) (a : AlarmUnit) :
    ((a.annunciate now pt x).point q).raw = (a.point q).raw := by
  unfold AlarmUnit.annunciate
  split
  · rfl
  · rw [enterNotice_raw]
    exact setPoint_raw_same q rfl

@[simp] theorem protect_raw_all (now : Time) (pt q : Fin 118) (x : Bool) (a : AlarmUnit) :
    ((a.protect now pt x).point q).raw = (a.point q).raw := by
  unfold AlarmUnit.protect
  split
  · rfl
  · rw [enterNotice_raw]
    exact setPoint_raw_same q rfl

@[simp] theorem protectIfMay_raw (now : Time) (pt q : Fin 118) (a : AlarmUnit) :
    ((a.protectIfMay now pt).point q).raw = (a.point q).raw := by
  unfold AlarmUnit.protectIfMay
  split
  · exact protect_raw_all ..
  · rfl

theorem rise_raw (now : Time) (pt q : Fin 118) (a : AlarmUnit) :
    ((a.rise now pt).point q).raw = (a.point q).raw := by
  unfold AlarmUnit.rise
  rw [protectIfMay_raw, annunciate_raw]
  exact setPoint_raw_same q rfl

theorem fall_raw (now : Time) (pt q : Fin 118) (a : AlarmUnit) :
    ((a.fall now pt).point q).raw = (a.point q).raw := by
  unfold AlarmUnit.fall
  rw [annunciate_raw]
  exact setPoint_raw_same q rfl

theorem modeChanged_raw (now : Time) (old : AlarmMode) (a : AlarmUnit) (pt q : Fin 118) :
    ((a.modeChanged now old pt).point q).raw = (a.point q).raw := by
  have since (x : Time) : ((a.setPoint pt { a.point pt with since := x }).point q).raw = (a.point q).raw :=
    setPoint_raw_same q rfl
  have counted : ((if (a.point pt).raw && !a.isEventPoint pt then a.setPoint pt { a.point pt with since := now }
      else a : AlarmUnit).point q).raw = (a.point q).raw := by
    split
    · exact since now
    · rfl
  have raised : ((if old = .report ∧ (a.point pt).filtered ∧ (a.point pt).raw then a.protect now pt true
      else a : AlarmUnit).point q).raw = (a.point q).raw := by
    split
    · exact protect_raw_all ..
    · rfl
  unfold AlarmUnit.modeChanged
  split
  · split
    · rfl
    · rw [protect_raw_all, annunciate_raw]
      exact setPoint_raw_same q rfl
  · split
    · exact counted
    · exact protect_raw_all ..
  · split
    · exact counted
    · exact raised
  · split
    · exact counted
    · exact raised

/-! ## Raw conditions handed over -/

/-- A raw condition handed over is the one its point holds; every other point keeps its own. -/
theorem handRaw_raw_all (now : Time) (pt q : Fin 118) (v : Bool) (a : AlarmUnit) :
    ((a.handRaw now pt v).point q).raw = if pt = q then v else (a.point q).raw := by
  split
  · rename_i e
    subst e
    exact handRaw_raw ..
  · rw [handRaw_point_ne _ _ _ ‹_›]

/-- The kinds of a program's state points (R152). -/
def stateKinds : List (Fin 6) := [0, 2, 3, 4]

/-- The raw condition that a program's record makes of a state kind (R87, R95, R96, R127). -/
def Program.condition (x : Program) : Fin 6 → Bool
  | 0 => decide (1 ≤ x.loud.silentRun)
  | 2 => x.corr.loud
  | 3 => x.corr.gainLimit
  | 4 => x.delayShort
  | 1 => false
  | 5 => false

theorem progPoint_inj {k j : Fin 6} {p q : Fin 16} : progPoint k p = progPoint j q ↔ k = j ∧ p = q := by
  simp only [progPoint, Fin.ext_iff]
  omega

theorem lanePoint_inj {k j l m : Fin 4} : lanePoint k l = lanePoint j m ↔ k = j ∧ l = m := by
  simp only [lanePoint, Fin.ext_iff]
  omega

theorem lanePoint_ne_progPoint (k l : Fin 4) (j : Fin 6) (p : Fin 16) : progPoint j p ≠ lanePoint k l := by
  simp only [lanePoint, progPoint, ne_eq, Fin.mk.injEq]
  omega

theorem refLossPoint_ne_progPoint (j : Fin 6) (p : Fin 16) : progPoint j p ≠ refLossPoint := by
  simp only [refLossPoint, progPoint, ne_eq, Fin.ext_iff]
  omega

theorem refLossPoint_ne_lanePoint (k l : Fin 4) : lanePoint k l ≠ refLossPoint := by
  simp only [refLossPoint, lanePoint, ne_eq, Fin.ext_iff]
  omega

/-- A program's conditions handed over stand at its state points. -/
theorem handProgram_raw (now : Time) (p : Fin 16) (x : Program) (a : AlarmUnit) {k : Fin 6} (hk : k ∈ stateKinds) :
    ((a.handProgram now p x).point (progPoint k p)).raw = x.condition k := by
  simp only [stateKinds, List.mem_cons, List.not_mem_nil, or_false] at hk
  unfold AlarmUnit.handProgram
  obtain rfl | rfl | rfl | rfl := hk <;> simp [handRaw_raw_all, progPoint_inj, Program.condition]

/-- They leave every point that is not one of the program's. -/
theorem handProgram_raw_ne {now : Time} {p : Fin 16} {x : Program} {a : AlarmUnit} {q : Fin 118}
    (h : ∀ k, progPoint k p ≠ q) : ((a.handProgram now p x).point q).raw = (a.point q).raw := by
  unfold AlarmUnit.handProgram
  rw [handRaw_point_ne _ _ _ (h 4), handRaw_point_ne _ _ _ (h 3), handRaw_point_ne _ _ _ (h 2),
    handRaw_point_ne _ _ _ (h 0)]

/-- A lane's conditions handed over leave every point that is not one of the lane's. -/
theorem handLane_raw_ne {now : Time} {l : Fin 4} {x : Lane} {a : AlarmUnit} {q : Fin 118}
    (h : ∀ k, lanePoint k l ≠ q) : ((a.handLane now l x).point q).raw = (a.point q).raw := by
  unfold AlarmUnit.handLane
  rw [handRaw_point_ne _ _ _ (h 3), handRaw_point_ne _ _ _ (h 1), handRaw_point_ne _ _ _ (h 0)]

/-! ## State points -/

/-- A point that is a state point whatever its settings are: none of an event kind, none of a contact input (R152). -/
def statePoint (q : Fin 118) : Bool := decide (q.val < 114) && !eventKind q

theorem statePoint_prog : ∀ p : Fin 16, ∀ k ∈ stateKinds, statePoint (progPoint k p) = true := by decide

theorem statePoint_lane : ∀ l : Fin 4, ∀ k : Fin 4, k ≠ 2 → statePoint (lanePoint k l) = true := by decide

theorem statePoint_ref : statePoint refLossPoint = true := by decide

section
variable {q : Fin 118} (hq : statePoint q = true)
include hq

theorem statePoint_small : q.val < 114 := by
  simp only [statePoint, Bool.and_eq_true, decide_eq_true_eq] at hq
  exact hq.1

theorem statePoint_kind : eventKind q = false := by
  simp only [statePoint, Bool.and_eq_true, Bool.not_eq_true'] at hq
  exact hq.2

/-- A state point is no event point (R152). -/
theorem statePoint_not_event (a : AlarmUnit) : a.isEventPoint q = false := by
  have small := statePoint_small hq
  unfold AlarmUnit.isEventPoint
  rw [dif_neg (by omega)]
  exact statePoint_kind hq

theorem statePoint_ne_external (c : Fin 4) : externalPoint c ≠ q := by
  have small := statePoint_small hq
  intro e
  subst e
  simp [externalPoint] at small

theorem event_raw_state {pt : Fin 118} (now : Time) (a : AlarmUnit) (kind : eventKind pt = true) :
    ((a.event now pt).point q).raw = (a.point q).raw := by
  have ne : pt ≠ q := by
    intro e
    subst e
    simp [statePoint_kind hq] at kind
  rw [event_point_ne _ _ ne]

/-- What the part does to its Alarm Unit of itself leaves the raw condition of every state point. -/
theorem AlarmStep.raw_state {now : Time} {a b : AlarmUnit} (step : AlarmStep now a b) :
    (b.point q).raw = (a.point q).raw := by
  cases step with
  | event pt kind => exact event_raw_state hq now a kind
  | restPoint pt =>
    unfold AlarmUnit.restPoint
    split
    · rename_i due
      have ne : pt ≠ q := by
        intro e
        subst e
        simp [AlarmUnit.restDue, statePoint_not_event hq a] at due
      rw [AlarmUnit.point_setPoint_ne _ _ _ _ ne]
    · rfl
  | filterRise pt =>
    unfold AlarmUnit.filterRise
    split
    · exact rise_raw ..
    · rfl
  | filterFall pt =>
    unfold AlarmUnit.filterFall
    split
    · exact fall_raw ..
    · rfl
  | retry pt =>
    unfold AlarmUnit.retry
    split
    · exact protect_raw_all ..
    · rfl
  | readContact c =>
    have ne := statePoint_ne_external hq c
    unfold AlarmUnit.readContact AlarmUnit.externalChange
    dsimp only
    split
    · rfl
    · split
      · split
        · split
          · rw [event_point_ne _ _ ne]; rfl
          · rfl
        · rw [handRaw_point_ne _ _ _ ne]; rfl
      · rfl
  | boundaryTaken => rfl
  | popNotice => rfl

/-- So does what a request does to the Alarm Unit. -/
theorem AlarmRequest.raw_state {now : Time} {a b : AlarmUnit} (step : AlarmRequest now a b) :
    (b.point q).raw = (a.point q).raw := by
  cases step with
  | setKind k x =>
    have fold (old : AlarmMode) (l : List (Fin 118)) (c : AlarmUnit) :
        ((l.foldl (AlarmUnit.modeChanged now old) c).point q).raw = (c.point q).raw := by
      induction l generalizing c with
      | nil => rfl
      | cons pt rest ih => exact (ih _).trans (modeChanged_raw ..)
    unfold AlarmUnit.setKind
    dsimp only
    split
    · rfl
    · exact fold ..
  | acknowledge pt => exact annunciate_raw ..
  | clearPoint pt =>
    unfold AlarmUnit.clearPoint
    split
    · rfl
    · exact protect_raw_all ..
  | setSummary => rfl
  | changeContact c =>
    unfold AlarmUnit.changeContact
    dsimp only
    split
    · rfl
    · rw [handRaw_point_ne _ _ _ (statePoint_ne_external hq c)]; rfl

/-! ## Points set back -/

omit hq in
theorem withNotices_point (a : AlarmUnit) (l : List Notice) :
    ({ a with notices := l } : AlarmUnit).point q = a.point q :=
  rfl

/-- R175: a RESTART keeps the raw condition of a state point whose subject remains. -/
theorem restart_raw_state (now : Time) (a : AlarmUnit) (remains : ¬(16 ≤ q.val ∧ q.val < 112)) :
    ((a.restart now).point q).raw = (a.point q).raw := by
  have fold (l : List (Fin 118)) (b : AlarmUnit) :
      ((l.foldl (AlarmUnit.restartPoint now) b).point q).raw = (b.point q).raw := by
    induction l generalizing b with
    | nil => rfl
    | cons pt rest ih =>
      refine (ih _).trans ?_
      unfold AlarmUnit.restartPoint
      dsimp only
      rw [setPoint_raw]
      split
      · rename_i e
        subst e
        have out : (decide (16 ≤ pt.val) && decide (pt.val < 112)) = false := by simpa using remains
        simp [out, statePoint_not_event hq b]
      · rfl
  unfold AlarmUnit.restart
  rw [withNotices_point]
  exact fold allPoints a

end

/-- R175: no RESTART makes a raw condition present. -/
theorem restart_raw_absent {q : Fin 118} (now : Time) {a : AlarmUnit} (absent : (a.point q).raw = false) :
    ((a.restart now).point q).raw = false := by
  have fold (l : List (Fin 118)) (b : AlarmUnit) (hb : (b.point q).raw = false) :
      ((l.foldl (AlarmUnit.restartPoint now) b).point q).raw = false := by
    induction l generalizing b with
    | nil => exact hb
    | cons pt rest ih =>
      refine ih _ ?_
      unfold AlarmUnit.restartPoint
      dsimp only
      rw [setPoint_raw]
      split
      · rename_i e
        subst e
        simp [hb]
      · exact hb
  unfold AlarmUnit.restart
  rw [withNotices_point]
  exact fold allPoints a absent

theorem dropPoint_raw (now : Time) (a : AlarmUnit) (pt q : Fin 118) :
    ((a.dropPoint now pt).point q).raw = if pt = q then false else (a.point q).raw := setPoint_raw a pt q _

/-- R169: the points of a program at its end are at rest. -/
theorem dropProgram_raw (now : Time) (p : Fin 16) (a : AlarmUnit) (k : Fin 6) :
    ((a.dropProgram now p).point (progPoint k p)).raw = false := by
  unfold AlarmUnit.dropProgram programPoints
  simp only [List.foldl_cons, List.foldl_nil, dropPoint_raw, progPoint_inj, and_true]
  fin_cases k <;> rfl

theorem dropProgram_raw_ne {now : Time} {p : Fin 16} {a : AlarmUnit} {q : Fin 118} (h : ∀ k, progPoint k p ≠ q) :
    ((a.dropProgram now p).point q).raw = (a.point q).raw := by
  unfold AlarmUnit.dropProgram programPoints
  simp only [List.foldl_cons, List.foldl_nil, dropPoint_raw, if_neg (h _)]

end Sys2Proof.Machine
end

section
/-! PROOF. Every state point shows the condition of its source after every step (O4). The lanes' and the reference's
points are followed apart from the programs', and the open delay operations apart from both. -/

namespace Sys2Proof.Machine

/-! ## The points of the lanes and the reference -/

/-- The lanes' points and the reference's show their conditions. -/
structure State.FrontShown (s : State) : Prop where
  lanes : ∀ l, s.LaneShown l
  ref : (s.alarm.point refLossPoint).raw = s.tb.refLoss

/-- Raw conditions that are neither a program's nor an event kind's are left as they are. -/
structure SameFront (a b : AlarmUnit) : Prop where
  raw : ∀ q, statePoint q = true → (∀ k p, progPoint k p ≠ q) → (b.point q).raw = (a.point q).raw

theorem SameFront.refl (a : AlarmUnit) : SameFront a a := ⟨fun _ _ _ => rfl⟩

theorem SameFront.trans {a b c : AlarmUnit} (h : SameFront a b) (k : SameFront b c) : SameFront a c :=
  ⟨fun q hq outside => (k.raw q hq outside).trans (h.raw q hq outside)⟩

theorem SameFront.lane {a b : AlarmUnit} (h : SameFront a b) (l k : Fin 4) (hk : k ≠ 2) :
    (b.point (lanePoint k l)).raw = (a.point (lanePoint k l)).raw :=
  h.raw _ (statePoint_lane l k hk) fun j p => lanePoint_ne_progPoint k l j p

theorem SameFront.ref {a b : AlarmUnit} (h : SameFront a b) : (b.point refLossPoint).raw = (a.point refLossPoint).raw :=
  h.raw _ statePoint_ref fun j p => refLossPoint_ne_progPoint j p

theorem SameFront.laneShown {s t : State} {l : Fin 4} (alarm : SameFront s.alarm t.alarm)
    (stall : (t.lane l).stall = (s.lane l).stall) (unlock : (t.lane l).unlock = (s.lane l).unlock)
    (rate : (t.lane l).rateWrong = (s.lane l).rateWrong) (h : s.LaneShown l) : t.LaneShown l := by
  obtain ⟨h0, h1, h3⟩ := h
  refine ⟨?_, ?_, ?_⟩
  · rw [alarm.lane l 0 (by decide), stall, h0]
  · rw [alarm.lane l 1 (by decide), unlock, h1]
  · rw [alarm.lane l 3 (by decide), rate, h3]

/-- Where the lanes and the timebase stand as they were, their points show them as before. -/
theorem SameFront.shown {s t : State} (alarm : SameFront s.alarm t.alarm) (lanes : t.lanes = s.lanes)
    (tb : t.tb.refLoss = s.tb.refLoss) (h : s.FrontShown) : t.FrontShown where
  lanes l := by
    have same : t.lane l = s.lane l := by unfold State.lane; rw [lanes]
    exact alarm.laneShown (by rw [same]) (by rw [same]) (by rw [same]) (h.lanes l)
  ref := by rw [alarm.ref, tb, h.ref]

theorem sameFront_handProgram (now : Time) (p : Fin 16) (x : Program) (a : AlarmUnit) :
    SameFront a (a.handProgram now p x) := ⟨fun _ _ outside => handProgram_raw_ne fun k => outside k p⟩

theorem settleDelay_alarm (p : Fin 16) (s : State) : (s.settleDelay p).alarm = s.alarm := by
  unfold State.settleDelay State.endDelayOp
  split
  · rfl
  · split
    · split
      · rfl
      · split <;> rfl
    · rfl

theorem sameFront_handed (p : Fin 16) (s : State) : SameFront s.alarm (s.handProgram p).alarm := by
  unfold State.handProgram
  split
  · exact .refl _
  · exact sameFront_handProgram ..

theorem sameFront_putProgram (p : Fin 16) (x y : Program) (s : State) :
    SameFront s.alarm (s.putProgram p x y).alarm := by
  unfold State.putProgram
  have handed (u : State) : SameFront (u.settleDelay p).alarm ((u.settleDelay p).handProgram p).alarm :=
    sameFront_handed p _
  exact settleDelay_alarm p (s.setProgram p _) ▸ handed _

theorem sameFront_progStep (p : Fin 16) (f : Program → Program) (s : State) :
    SameFront s.alarm (s.progStep p f).alarm := by
  unfold State.progStep
  split
  · exact .refl _
  · split
    · exact .refl _
    · exact sameFront_putProgram ..

theorem frontShown_progStep {p : Fin 16} {f : Program → Program} {s : State} (h : s.FrontShown) :
    (s.progStep p f).FrontShown :=
  (sameFront_progStep p f s).shown (keepsOutside_progStep ..).lanes (by rw [(keepsOutside_progStep p f s).tb]) h

theorem frontShown_stable : Stable State.FrontShown where
  program _ _ _ _ h := frontShown_progStep h
  dropDelay _ _ _ _ h := ⟨h.lanes, h.ref⟩
  link _ _ _ h := ⟨h.lanes, h.ref⟩
  schedule _ _ h := ⟨h.lanes, h.ref⟩

/-- R43, R44: a lane's conditions handed over stand at its points. -/
theorem handLane_raw (now : Time) (l : Fin 4) (x : Lane) (a : AlarmUnit) :
    ((a.handLane now l x).point (lanePoint 0 l)).raw = x.stall
      ∧ ((a.handLane now l x).point (lanePoint 1 l)).raw = x.unlock
      ∧ ((a.handLane now l x).point (lanePoint 3 l)).raw = x.rateWrong := by
  simp [AlarmUnit.handLane, handRaw_raw_all, lanePoint_inj]

/-- R42: a lane replaced and its conditions handed over, its points show them, whatever they showed before. -/
theorem frontShown_handLane {l : Fin 4} {new : Lane} {s u : State} (outside : KeepsOutside (s.setLane l new) u)
    (front : SameFront s.alarm u.alarm) (now : Time) (h : s.FrontShown) :
    ({ u with alarm := u.alarm.handLane now l new } : State).FrontShown := by
  have lane (m : Fin 4) : u.lane m = (s.setLane l new).lane m := by unfold State.lane; rw [outside.lanes]
  have other (m : Fin 4) (ne : l ≠ m) (k : Fin 4) (hk : k ≠ 2) :
      ((u.alarm.handLane now l new).point (lanePoint k m)).raw = (s.alarm.point (lanePoint k m)).raw := by
    rw [handLane_raw_ne fun j same => ne (lanePoint_inj.1 same).2, front.lane m k hk]
  constructor
  · intro m
    let handed := u.alarm.handLane now l new
    show (handed.point (lanePoint 0 m)).raw = (u.lane m).stall ∧ (handed.point (lanePoint 1 m)).raw = (u.lane m).unlock
      ∧ (handed.point (lanePoint 3 m)).raw = (u.lane m).rateWrong
    by_cases same : l = m
    · subst same
      rw [lane, State.lane_setLane]
      exact handLane_raw ..
    · obtain ⟨h0, h1, h3⟩ := h.lanes m
      rw [lane, State.lane_setLane_ne _ _ _ _ same]
      exact ⟨(other m same 0 (by decide)).trans h0, (other m same 1 (by decide)).trans h1,
        (other m same 3 (by decide)).trans h3⟩
  · have raw : ((u.alarm.handLane now l new).point refLossPoint).raw = (s.alarm.point refLossPoint).raw := by
      rw [handLane_raw_ne fun k => refLossPoint_ne_lanePoint k l, front.ref]
    exact raw.trans (h.ref.trans (congrArg Timebase.refLoss outside.tb.symm))

theorem sameFront_realignAll (l : Fin 4) (s : State) :
    SameFront s.alarm (forAll allPrograms (State.realignFor l) s).alarm :=
  forAll_rel (R := fun a b => SameFront a.alarm b.alarm) (fun u => .refl u.alarm) (fun _ _ _ h k => h.trans k) _
    (fun p u => sameFront_progStep p _ u) s

theorem frontShown_laneStep {l : Fin 4} {f : Lane → Lane} {s : State} (h : s.FrontShown) :
    (s.laneStep l f).FrontShown := by
  unfold State.laneStep
  split
  · exact h
  · unfold State.putLane
    dsimp only
    split
    · exact frontShown_handLane (s := s) (keepsOutside_realignAll l (s.setLane l (f (s.lane l))))
        (sameFront_realignAll l (s.setLane l (f (s.lane l)))) s.counter h
    · exact frontShown_handLane (u := s.setLane l (f (s.lane l))) (.refl _) (.refl s.alarm) s.counter h

theorem frontShown_putTimebase {s : State} (t : Timebase) (h : s.FrontShown) : (s.putTimebase t).FrontShown where
  lanes l := by
    have raw (k : Fin 4) : (((s.alarm.handRaw s.counter refLossPoint t.refLoss)).point (lanePoint k l)).raw
        = (s.alarm.point (lanePoint k l)).raw := by
      rw [handRaw_point_ne _ _ _ (refLossPoint_ne_lanePoint k l).symm]
    obtain ⟨h0, h1, h3⟩ := h.lanes l
    exact ⟨(raw 0).trans h0, (raw 1).trans h1, (raw 3).trans h3⟩
  ref := handRaw_raw ..

theorem AlarmStep.sameFront {now : Time} {a b : AlarmUnit} (step : AlarmStep now a b) : SameFront a b :=
  ⟨fun _ hq _ => step.raw_state hq⟩

theorem AlarmRequest.sameFront {now : Time} {a b : AlarmUnit} (step : AlarmRequest now a b) : SameFront a b :=
  ⟨fun _ hq _ => step.raw_state hq⟩

/-! ## What the output of a program keeps -/

/-- A property that the handing of a pad, a record with new audio and an event keep. -/
structure OutputKept (P : State → Prop) : Prop where
  pad : ∀ s p on, P s → P (s.padded p on)
  record : ∀ s p x y, s.program p = some x → x.AudioOnly y → P s → P (s.setProgram p (some y))
  event : ∀ (s : State) now pt, eventKind pt = true → P s → P { s with alarm := s.alarm.event now pt }

theorem OutputKept.outputUnder {P : State → Prop} (k : OutputKept P) {s : State} (p : Fin 16) (h : P s) :
    P (s.outputUnder p) := by
  unfold State.outputUnder
  split
  · exact h
  · rename_i x hx
    unfold State.overEvents
    refine forAll_keeps _ (fun c u hu => ?_) (k.record s p x _ hx (audioOnly_formOutputs ..) h)
    unfold State.overEvent
    split
    · exact hu
    · rename_i y hy
      split
      · exact k.event (u.setProgram p _) _ _ (eventKind_over p) (k.record u p y _ hy (audioOnly_channels ..) hu)
      · exact hu

/-- It is kept by the output of a program where the over runs of the outputs without the pad keep it. -/
theorem OutputKept.formOutput {P : State → Prop} (k : OutputKept P) {s : State} (p : Fin 16)
    (mixed : P ((s.handPad p).outputUnder p) → P ((s.padded p true).outputUnder p) →
      P (((s.padded p true).outputUnder p).overThenPad p ((s.handPad p).outputUnder p))) (h : P s) :
    P (s.formOutput p) := by
  have handed : P ((s.handPad p).outputUnder p) := k.outputUnder p (k.pad _ _ _ h)
  have padded : P ((s.padded p true).outputUnder p) := k.outputUnder p (k.pad _ _ _ h)
  obtain e | e | e := formOutput_cases p s
  · rw [e]; exact handed
  · rw [e]; exact padded
  · rw [e]; exact mixed handed padded

theorem frontShown_output : OutputKept State.FrontShown where
  pad _ _ _ h := frontShown_progStep h
  record _ _ _ _ _ _ h := ⟨h.lanes, h.ref⟩
  event s now _ kind h :=
    SameFront.shown (s := s) ⟨fun _ hq _ => event_raw_state hq now s.alarm kind⟩ rfl rfl h

/-! ## Lanes a house sample on -/

/-- Every lane replaced by one that shows the same conditions. -/
theorem frontShown_lanes {s t : State} (f : Lane → Lane) (lanes : t.lanes = s.lanes.map f)
    (alarm : SameFront s.alarm t.alarm)
    (tb : t.tb = s.tb) (same : ∀ l, (f l).stall = l.stall ∧ (f l).unlock = l.unlock ∧ (f l).rateWrong = l.rateWrong)
    (h : s.FrontShown) : t.FrontShown where
  lanes l := by
    have lane : t.lane l = f (s.lane l) := by unfold State.lane; rw [lanes]; simp
    obtain ⟨stall, unlock, rate⟩ := same (s.lane l)
    exact alarm.laneShown (lane ▸ stall) (lane ▸ unlock) (lane ▸ rate) (h.lanes l)
  ref := by rw [alarm.ref, tb, h.ref]

theorem laneTick_conditions (l : Lane) :
    l.closeSample.tick.stall = l.stall ∧ l.closeSample.tick.unlock = l.unlock
      ∧ l.closeSample.tick.rateWrong = l.rateWrong := by
  unfold Lane.tick Lane.slipTest
  dsimp only
  split <;> split <;> exact ⟨rfl, rfl, rfl⟩

theorem fillPipe_conditions (l : Lane) :
    l.fillPipe.stall = l.stall ∧ l.fillPipe.unlock = l.unlock ∧ l.fillPipe.rateWrong = l.rateWrong :=
  ⟨rfl, rfl, rfl⟩

/-! ## The lanes and the reference under every leaf change -/

theorem frontShown_own {s t : State} (step : OwnStep s t) (h : s.FrontShown) : t.FrontShown := by
  cases step with
  | program p _ => exact frontShown_progStep h
  | lane l _ => exact frontShown_laneStep h
  | time _ => exact frontShown_stable.timed (frontShown_putTimebase _ h) h
  | alarm step => exact SameFront.shown (s := s) step.sameFront rfl rfl h
  | standby p x _ =>
    exact (sameFront_putProgram ..).shown (keepsOutside_putProgram ..).lanes
      (by rw [(keepsOutside_putProgram ..).tb]) h
  | output p =>
    refine frontShown_output.formOutput p (fun handed _ => ?_) h
    unfold State.overThenPad
    split
    · exact ⟨handed.lanes, handed.ref⟩
    · exact handed
  | interpolate => exact frontShown_lanes Lane.fillPipe rfl (.refl _) rfl fillPipe_conditions h
  | link | closeOp | memory | record => exact ⟨h.lanes, h.ref⟩

theorem frontShown_leaf {s t : State} (leaf : Leaf s t) (h : s.FrontShown) : t.FrontShown := by
  cases leaf with
  | own step => exact frontShown_own step h
  | asked step => exact SameFront.shown (s := s) step.sameFront rfl rfl h
  | define p tag d chs _ _ =>
    have opened (u : State) (hu : u.FrontShown) : ((u.openOp tag (.definition p)).handProgram p).FrontShown := by
      have op := frontShown_stable.toInside.openOp tag (.definition p) hu
      exact (sameFront_handed p _).shown (keepsOutside_handProgram ..).lanes
        (by rw [(keepsOutside_handProgram ..).tb]) op
    exact opened _ ⟨h.lanes, h.ref⟩
  | delay p tag d _ => exact frontShown_stable.toInside.takeDelay p tag d h
  | openCheck tag _ => exact frontShown_stable.toInside.openOp tag .check h
  | vacate p =>
    have dropped : SameFront s.alarm (s.alarm.dropProgram s.counter p) :=
      ⟨fun _ _ outside => dropProgram_raw_ne fun k => outside k p⟩
    unfold State.vacate
    split
    · exact h
    · exact SameFront.shown (s := s) dropped rfl rfl h
  | clearReady l =>
    refine ⟨fun m => ?_, h.ref⟩
    by_cases same : l = m
    · subst same
      exact SameFront.laneShown (s := s) (.refl _) (by rw [State.lane_setLane]; rfl) (by rw [State.lane_setLane]; rfl)
        (by rw [State.lane_setLane]; rfl) (h.lanes l)
    · have kept := State.lane_setLane_ne s l m { s.lane l with blockReady := false } same
      exact SameFront.laneShown (s := s) (.refl _) (by rw [kept]) (by rw [kept]) (by rw [kept]) (h.lanes m)
  | restarted =>
    refine ⟨fun l => ?_, ?_⟩
    · have raw (k : Fin 4) (hk : k ≠ 2) : ((s.alarm.restart s.counter).point (lanePoint k l)).raw
          = (s.alarm.point (lanePoint k l)).raw :=
        restart_raw_state (statePoint_lane l k hk) _ _ (by simp only [lanePoint]; omega)
      obtain ⟨h0, h1, h3⟩ := h.lanes l
      exact ⟨(raw 0 (by decide)).trans h0, (raw 1 (by decide)).trans h1, (raw 3 (by decide)).trans h3⟩
    · exact (restart_raw_state statePoint_ref _ _ (by decide)).trans h.ref
  | buffer | dropDelay | cancelEntries | addEntry => exact ⟨h.lanes, h.ref⟩

end Sys2Proof.Machine
end

section
/-! PROOF. The programs' state points and their open delay operations after every step (O4). -/

namespace Sys2Proof.Machine

/-! ## Open delay operations (R134) -/

/-- An open delay operation is not yet settled. -/
def Program.Unsettled (x : Program) : Prop := x.align.op.isSome = true → x.align.settled = false

theorem closeSettled_unsettled (x : Program) : x.closeSettled.Unsettled := by
  unfold Program.closeSettled Program.Unsettled
  split
  · simp
  · simp [*]

theorem standing_unsettled (now : Time) (x y : Program) : (Program.standing now x y).Unsettled :=
  closeSettled_unsettled _

theorem slewTick_settled (a : Align) : a.slewTick.settled = a.settled := by
  by_cases slewing : a.motion = .slewing
  · rw [Align.slewTick_slewing slewing]
    have moving (b : Align) (h : b.motion = .slewing) : b.settled = false := by simp [Align.settled, h]
    rw [moving a slewing]
    split <;> exact moving _ slewing
  · rw [Align.slewTick_other slewing]

theorem slewTick_kept (a : Align) :
    a.slewTick.op = a.op ∧ a.slewTick.target = a.target ∧ a.slewTick.value = a.value ∧ a.slewTick.pathLat = a.pathLat
      ∧ a.slewTick.applied = a.applied := by
  unfold Align.slewTick
  split
  · exact ⟨rfl, rfl, rfl, rfl, rfl⟩
  · split <;> exact ⟨rfl, rfl, rfl, rfl, rfl⟩

theorem tick_unsettled {x : Program} (h : x.Unsettled) : x.tick.Unsettled := by
  intro op
  refine (slewTick_settled _).trans (h ?_)
  exact (congrArg Option.isSome (slewTick_kept { x.align with fade := x.align.fade.tick 480 }).1).symm.trans op

/-! ## What a record's conditions depend on -/

theorem Program.AudioOnly.condition {x y : Program} (h : x.AudioOnly y) (k : Fin 6) :
    y.condition k = x.condition k := by
  unfold Program.condition Program.delayShort
  rw [h.align, h.corr, h.silentRun]

theorem closeSettled_condition (x : Program) (k : Fin 6) : x.closeSettled.condition k = x.condition k := by
  unfold Program.closeSettled
  split <;> rfl

theorem setApplied_condition (v : Int) (x : Program) (k : Fin 6) : (x.setApplied v).condition k = x.condition k := by
  unfold Program.setApplied Program.retotal
  dsimp only
  split <;> rfl

theorem setPad_condition (v : Int) (x : Program) (k : Fin 6) : (x.setPad v).condition k = x.condition k := by
  unfold Program.setPad Program.retotal
  dsimp only
  split <;> rfl

theorem applyDue_condition (now : Time) (x : Program) (k : Fin 6) : (x.applyDue now).condition k = x.condition k := by
  unfold Program.applyDue
  dsimp only
  split
  · rfl
  · exact setApplied_condition ..

theorem takePad_condition (on : Bool) (x : Program) (k : Fin 6) : (x.takePad on).condition k = x.condition k := by
  unfold Program.takePad
  generalize (if on then (-100 : Int) else 0) = pad
  dsimp only
  split
  · rfl
  · exact setPad_condition ..

theorem standing_condition (now : Time) (x y : Program) (k : Fin 6) :
    (Program.standing now x y).condition k = y.condition k := by
  unfold Program.standing
  rw [closeSettled_condition]
  split
  · rfl
  · exact applyDue_condition ..

theorem tick_condition (x : Program) (k : Fin 6) : x.tick.condition k = x.condition k := by
  obtain ⟨_, target, value, pathLat, applied⟩ := slewTick_kept { x.align with fade := x.align.fade.tick 480 }
  have delayShort : x.tick.delayShort = x.delayShort := by
    show (decide (((Align.slewTick _).target : Int) ≠ (Align.slewTick _).value - (Align.slewTick _).pathLat)
      || (Align.slewTick _).applied) = _
    simp only [target, value, pathLat, applied]
    rfl
  unfold Program.condition
  split
  · rfl
  · rfl
  · rfl
  · exact delayShort
  · rfl
  · rfl

/-! ## The programs' points -/

/-- The raw condition of a program's state kind: its record's, and absent where it is VACANT (R169). -/
def State.condition (s : State) (p : Fin 16) (k : Fin 6) : Bool := (s.program p).any fun x => x.condition k

/-- A program's state points show its conditions. -/
def State.PointsShown (s : State) (p : Fin 16) : Prop :=
  ∀ k ∈ stateKinds, (s.alarm.point (progPoint k p)).raw = s.condition p k

theorem condition_of_program {s : State} {p : Fin 16} {x : Program} (h : s.program p = some x) (k : Fin 6) :
    s.condition p k = x.condition k := by
  simp [State.condition, h]

theorem programShown_iff (s : State) (p : Fin 16) :
    s.ProgramShown p ↔ s.PointsShown p ∧ ∀ x, s.program p = some x → x.Unsettled := by
  unfold State.ProgramShown State.PointsShown State.condition
  split
  · rename_i vacant
    simp [vacant, stateKinds]
  · rename_i x defined
    simp [defined, stateKinds, Program.condition, Program.Unsettled, and_assoc]

/-- Where the conditions of a program and the raw conditions of its state points stand, the points show it as before. -/
theorem State.PointsShown.of_same {s t : State} {p : Fin 16} (cond : ∀ k, t.condition p k = s.condition p k)
    (raw : ∀ k ∈ stateKinds, (t.alarm.point (progPoint k p)).raw = (s.alarm.point (progPoint k p)).raw)
    (h : s.PointsShown p) : t.PointsShown p := fun k hk => by rw [raw k hk, cond, h k hk]

theorem State.PointsShown.of_program {s t : State} {p : Fin 16} (program : t.program p = s.program p)
    (raw : ∀ k ∈ stateKinds, (t.alarm.point (progPoint k p)).raw = (s.alarm.point (progPoint k p)).raw)
    (h : s.PointsShown p) : t.PointsShown p :=
  h.of_same (fun k => by unfold State.condition; rw [program]) raw

/-- A program that has been handed to the Alarm Unit is shown. -/
theorem pointsShown_handed {s : State} {p : Fin 16} {x : Program} (defined : s.program p = some x) :
    (s.handProgram p).PointsShown p := by
  intro k hk
  rw [condition_of_program ((handProgram_program p p s).trans defined)]
  unfold State.handProgram
  simp only [defined]
  exact handProgram_raw _ _ _ _ hk

/-- The handing over of one program leaves the points of every other. -/
theorem handed_raw_ne {p q : Fin 16} (ne : p ≠ q) (k : Fin 6) (s : State) :
    ((s.handProgram p).alarm.point (progPoint k q)).raw = (s.alarm.point (progPoint k q)).raw := by
  unfold State.handProgram
  split
  · rfl
  · exact handProgram_raw_ne fun j same => ne (progPoint_inj.1 same).2

theorem pointsShown_putProgram {s : State} {p q : Fin 16} {x y : Program} (h : s.PointsShown q) :
    (s.putProgram p x y).PointsShown q := by
  by_cases same : p = q
  · subst same
    have stands := putProgram_program p x y s
    unfold State.putProgram at stands ⊢
    rw [handProgram_program] at stands
    exact pointsShown_handed stands
  · refine h.of_program (putProgram_program_ne _ _ _ _ _ same) fun k _ => ?_
    unfold State.putProgram
    rw [handed_raw_ne same, settleDelay_alarm]
    rfl

theorem pointsShown_progStep {s : State} {p q : Fin 16} {f : Program → Program} (h : s.PointsShown q) :
    (s.progStep p f).PointsShown q := by
  unfold State.progStep
  split
  · exact h
  · split
    · exact h
    · exact pointsShown_putProgram h

/-- A record with the same conditions put in its place. -/
theorem pointsShown_setProgram {s : State} {p q : Fin 16} {x y : Program} (defined : s.program p = some x)
    (cond : ∀ k, y.condition k = x.condition k) (h : s.PointsShown q) : (s.setProgram p (some y)).PointsShown q := by
  refine State.PointsShown.of_same (s := s) (fun k => ?_) (fun _ _ => rfl) h
  by_cases same : p = q
  · subst same
    rw [condition_of_program (State.program_setProgram ..), condition_of_program defined, cond]
  · unfold State.condition
    rw [State.program_setProgram_ne _ _ _ _ same]

theorem pointsShown_alarm {s : State} {p : Fin 16} {a : AlarmUnit} (h : s.PointsShown p)
    (raw : ∀ q, statePoint q = true → (a.point q).raw = (s.alarm.point q).raw) :
    ({ s with alarm := a } : State).PointsShown p :=
  State.PointsShown.of_program (s := s) rfl (fun k hk => raw _ (statePoint_prog p k hk)) h

theorem pointsShown_stable (q : Fin 16) : Stable fun s => s.PointsShown q where
  program _ _ _ _ h := pointsShown_progStep h
  dropDelay _ _ _ defined h := pointsShown_setProgram defined (fun _ => rfl) h
  link _ _ _ h := h
  schedule _ _ h := h

theorem pointsShown_output (q : Fin 16) : OutputKept fun s => s.PointsShown q where
  pad _ _ _ h := pointsShown_progStep h
  record _ _ _ _ defined audio h := pointsShown_setProgram defined audio.condition h
  event s now _ kind h := pointsShown_alarm h fun _ hq => event_raw_state hq now s.alarm kind

/-! ### The outputs of a program leave its conditions -/

theorem progStep_condition {s : State} {p : Fin 16} {f : Program → Program}
    (same : ∀ x k, (f x).condition k = x.condition k)
    (k : Fin 6) : (s.progStep p f).condition p k = s.condition p k := by
  unfold State.progStep
  split
  · rfl
  · rename_i x defined
    split
    · rfl
    · rw [condition_of_program (putProgram_program ..), condition_of_program defined, standing_condition, same]

theorem outputUnder_condition (p : Fin 16) (s : State) (k : Fin 6) :
    (s.outputUnder p).condition p k = s.condition p k := by
  have record (u : State) (x y : Program) (defined : u.program p = some x) (audio : x.AudioOnly y) :
      (u.setProgram p (some y)).condition p k = u.condition p k := by
    rw [condition_of_program (State.program_setProgram ..), condition_of_program defined, audio.condition]
  unfold State.outputUnder
  split
  · rfl
  · rename_i x defined
    unfold State.overEvents
    refine forAll_keeps (P := fun u => u.condition p k = s.condition p k) _ (fun c u hu => ?_)
      (record s x _ defined (audioOnly_formOutputs ..))
    unfold State.overEvent
    split
    · exact hu
    · split
      · exact (record u _ _ ‹_› (audioOnly_channels ..)).trans hu
      · exact hu

theorem pointsShown_formOutput {s : State} (p q : Fin 16) (h : s.PointsShown q) : (s.formOutput p).PointsShown q := by
  have formed (on : Bool) (k : Fin 6) : ((s.padded p on).outputUnder p).condition p k = s.condition p k :=
    (outputUnder_condition ..).trans (progStep_condition (fun x k => takePad_condition on x k) k)
  refine (pointsShown_output q).formOutput p (fun handed _ => ?_) h
  unfold State.overThenPad
  split
  · rename_i x y hx hy
    refine pointsShown_setProgram hx (fun k => ?_) handed
    have cx := condition_of_program hx k
    have cy := condition_of_program hy k
    show y.condition k = x.condition k
    rw [← cx, ← cy, formed]
    exact (formed _ k).symm
  · exact handed

/-! ### Every leaf change -/

theorem pointsShown_own {s t : State} (q : Fin 16) (step : OwnStep s t) (h : s.PointsShown q) : t.PointsShown q := by
  cases step with
  | program p _ => exact pointsShown_progStep h
  | lane l _ =>
    refine laneStep_keeps (P := fun s => s.PointsShown q) id (fun _ _ => pointsShown_progStep) (fun u x hu => ?_) h
    exact State.PointsShown.of_program (s := u) rfl
      (fun k _ => handLane_raw_ne fun j => (lanePoint_ne_progPoint j l k q).symm) hu
  | @time t _ _ =>
    refine (pointsShown_stable q).timed ?_ h
    refine State.PointsShown.of_program (s := s) rfl (fun k _ => ?_) h
    exact congrArg Point.raw (handRaw_point_ne _ _ _ (refLossPoint_ne_progPoint k q).symm)
  | alarm step => exact pointsShown_alarm h fun _ hq => step.raw_state hq
  | standby p x _ => exact pointsShown_putProgram h
  | record p x y defined audio => exact pointsShown_setProgram defined audio.condition h
  | output p => exact pointsShown_formOutput p q h
  | link | closeOp | memory | interpolate => exact h

theorem pointsShown_leaf {s t : State} (q : Fin 16) (leaf : Leaf s t) (h : s.PointsShown q) : t.PointsShown q := by
  cases leaf with
  | own step => exact pointsShown_own q step h
  | asked step => exact pointsShown_alarm h fun _ hq => step.raw_state hq
  | define p tag d chs vacant _ =>
    generalize made : ({ s.setProgram p (some (s.freshProgram p tag d chs)) with
        pool := s.pool.allocate s.counter p (chs.length * (s.freshProgram p tag d chs).rows)
        claims := claimAll p 0 chs s.claims } : State) = u
    have record : (u.openOp tag (.definition p)).program p = some (s.freshProgram p tag d chs) := by
      subst made
      unfold State.openOp
      split <;> exact State.program_setProgram ..
    have result : s.defined p tag d chs = (u.openOp tag (.definition p)).handProgram p := by rw [← made]; rfl
    rw [result]
    by_cases same : p = q
    · subst same
      exact pointsShown_handed record
    · refine h.of_program ?_ fun k _ => ?_
      · rw [handProgram_program, ← made]
        unfold State.openOp
        split <;> exact State.program_setProgram_ne _ _ _ _ same
      · rw [handed_raw_ne same, ← made]
        unfold State.openOp
        split <;> rfl
  | delay p tag d _ => exact (pointsShown_stable q).toInside.takeDelay p tag d h
  | openCheck tag _ => exact (pointsShown_stable q).toInside.openOp tag .check h
  | dropDelay p x defined => exact pointsShown_setProgram defined (fun _ => rfl) h
  | vacate p =>
    by_cases same : p = q
    · subst same
      intro k hk
      have vacant : (s.vacate p).condition p k = false := by simp [State.condition, vacate_program]
      rw [vacant]
      unfold State.vacate
      split
      · rename_i was
        exact (h k hk).trans (by simp [State.condition, was])
      · exact dropProgram_raw ..
    · refine h.of_program (by rw [vacate_program, if_neg same]) fun k _ => ?_
      unfold State.vacate
      split
      · rfl
      · exact dropProgram_raw_ne fun j e => same (progPoint_inj.1 e).2
  | restarted vacant =>
    intro k hk
    have absent (u : State) (hu : u.program q = none) : u.condition q k = false := by simp [State.condition, hu]
    have before := (h k hk).trans (absent s (vacant q))
    exact (restart_raw_absent _ before).trans (absent (s.restarted s.counter) (vacant q)).symm
  | buffer | cancelEntries | addEntry | clearReady => exact h

/-! ## Open delay operations under every leaf change -/

theorem unsettled_putProgram {s : State} {p : Fin 16} {x y : Program} (h : s.EveryProgram Program.Unsettled) :
    (s.putProgram p x y).EveryProgram Program.Unsettled := by
  intro q z hz
  by_cases same : p = q
  · subst same
    rw [putProgram_program] at hz
    cases hz
    exact standing_unsettled s.counter x y
  · rw [putProgram_program_ne _ _ _ _ _ same] at hz
    exact h q z hz

theorem unsettled_progStep {s : State} {p : Fin 16} {f : Program → Program} (h : s.EveryProgram Program.Unsettled) :
    (s.progStep p f).EveryProgram Program.Unsettled := by
  unfold State.progStep
  split
  · exact h
  · split
    · exact h
    · exact unsettled_putProgram h

/-- A record with no open operation put in its place. -/
theorem unsettled_noOp {s : State} {p : Fin 16} {x : Program} (op : x.align.op = none)
    (h : s.EveryProgram Program.Unsettled) : (s.setProgram p (some x)).EveryProgram Program.Unsettled :=
  everyProgram_setProgram h fun y hy held => by cases hy; simp [op] at held

theorem unsettled_audio {s : State} {p : Fin 16} {x y : Program} (defined : s.program p = some x)
    (audio : x.AudioOnly y) (h : s.EveryProgram Program.Unsettled) :
    (s.setProgram p (some y)).EveryProgram Program.Unsettled := by
  refine everyProgram_setProgram h fun z hz => ?_
  cases hz
  unfold Program.Unsettled
  rw [audio.align]
  exact h p x defined

theorem unsettled_stable : Stable (State.EveryProgram Program.Unsettled) where
  program _ _ _ _ h := unsettled_progStep h
  dropDelay _ _ _ _ h := unsettled_noOp rfl h
  link _ _ _ h := h
  schedule _ _ h := h

theorem unsettled_output : OutputKept (State.EveryProgram Program.Unsettled) where
  pad _ _ _ h := unsettled_progStep h
  record _ _ _ _ defined audio h := unsettled_audio defined audio h
  event _ _ _ _ h := h

theorem unsettled_own {s t : State} (step : OwnStep s t) (h : s.EveryProgram Program.Unsettled) :
    t.EveryProgram Program.Unsettled := by
  cases step with
  | program p _ => exact unsettled_progStep h
  | lane l _ =>
    exact laneStep_keeps (P := State.EveryProgram Program.Unsettled) id (fun _ _ => unsettled_progStep)
      (fun _ _ h => h) h
  | time _ => exact unsettled_stable.timed h h
  | standby p x _ => exact unsettled_putProgram h
  | record p x y defined audio => exact unsettled_audio defined audio h
  | output p =>
    refine unsettled_output.formOutput p (fun handed padded => ?_) h
    unfold State.overThenPad
    split
    · rename_i x y _ hy
      exact everyProgram_setProgram handed fun z hz => by cases hz; exact padded p y hy
    · exact handed
  | alarm | link | closeOp | memory | interpolate => exact h

theorem unsettled_leaf {s t : State} (leaf : Leaf s t) (h : s.EveryProgram Program.Unsettled) :
    t.EveryProgram Program.Unsettled := by
  cases leaf with
  | own step => exact unsettled_own step h
  | define p tag d chs _ _ =>
    have set := unsettled_noOp (p := p) (x := s.freshProgram p tag d chs) rfl h
    unfold State.defined State.handProgram State.openOp
    dsimp only
    split <;> split <;> exact set
  | delay p tag d _ => exact unsettled_stable.toInside.takeDelay p tag d h
  | openCheck tag _ => exact unsettled_stable.toInside.openOp tag .check h
  | dropDelay p x defined => exact unsettled_noOp rfl h
  | vacate p =>
    intro q x hx
    rw [vacate_program] at hx
    split at hx
    · cases hx
    · exact h q x hx
  | asked | buffer | cancelEntries | addEntry | clearReady | restarted => exact h

/-! ## The whole part -/

theorem shown_iff (s : State) :
    s.Shown ↔ s.FrontShown ∧ (∀ p, s.PointsShown p) ∧ s.EveryProgram Program.Unsettled := by
  constructor
  · intro h
    exact ⟨⟨h.lanes, h.ref⟩, fun p => ((programShown_iff s p).1 (h.programs p)).1,
      fun p => ((programShown_iff s p).1 (h.programs p)).2⟩
  · rintro ⟨front, points, unsettled⟩
    exact ⟨fun p => (programShown_iff s p).2 ⟨points p, unsettled p⟩, front.lanes, front.ref⟩

theorem shown_leaf {s t : State} (leaf : Leaf s t) (h : s.Shown) : t.Shown := by
  obtain ⟨front, points, unsettled⟩ := (shown_iff s).1 h
  exact (shown_iff t).2 ⟨frontShown_leaf leaf front, fun p => pointsShown_leaf p leaf (points p),
    unsettled_leaf leaf unsettled⟩

/-- Every point is at rest but REF_LOSS, whose raw condition is present (R8, R175). -/
theorem reset_point (pt : Fin 118) :
    AlarmUnit.reset.point pt = { Point.reset with raw := decide (pt = refLossPoint) } := by
  have same : pt = refLossPoint ↔ 112 = pt.val := by rw [Fin.ext_iff, eq_comm]; rfl
  simp only [AlarmUnit.reset, AlarmUnit.point, Vector.getElem_set, Vector.getElem_replicate, same]
  split <;> simp [Point.reset, *]

theorem shown_powerOn (s : State) (high : Bool) : (State.powerOn high s).Shown := by
  have vacant (p : Fin 16) : (State.powerOn high s).program p = none := by
    simp [State.program, State.powerOn, State.reset]
  have raw (q : Fin 118) : ((State.powerOn high s).alarm.point q).raw = decide (q = refLossPoint) :=
    congrArg Point.raw (reset_point q)
  have lane (l : Fin 4) : (State.powerOn high s).lane l = Lane.reset := by simp [State.lane, State.powerOn, State.reset]
  have off (l k : Fin 4) : ((State.powerOn high s).alarm.point (lanePoint k l)).raw = false := by
    rw [raw]; exact decide_eq_false (refLossPoint_ne_lanePoint k l)
  refine ⟨fun p => ?_, fun l => ?_, raw _⟩
  · unfold State.ProgramShown
    rw [vacant]
    intro k _
    rw [raw]
    exact decide_eq_false (refLossPoint_ne_progPoint k p)
  · unfold State.LaneShown
    rw [lane]
    exact ⟨off l 0, off l 1, off l 3⟩

theorem shown_openSample (pins : BitVec 4) {s : State} (h : s.Shown) : (s.latch.openSample pins).Shown := by
  obtain ⟨front, points, unsettled⟩ := (shown_iff s).1 h
  have program (p : Fin 16) : (s.latch.openSample pins).program p = (s.program p).map Program.tick := by
    simp [State.program, State.openSample, State.latch]
  refine (shown_iff _).2 ⟨?_, fun p => ?_, fun p y hy => ?_⟩
  · refine frontShown_lanes (s := s) (fun l => l.closeSample.tick) ?_ ⟨fun _ _ _ => rfl⟩ rfl laneTick_conditions front
    simp [State.openSample, State.latch, Function.comp_def]
  · refine State.PointsShown.of_same (s := s) (fun k => ?_) (fun _ _ => rfl) (points p)
    unfold State.condition
    rw [program, Option.any_map]
    exact congrArg (fun f => (s.program p).any f) (funext fun x => tick_condition x k)
  · rw [program, Option.map_eq_some_iff] at hy
    obtain ⟨x, hx, rfl⟩ := hy
    exact tick_unsettled (unsettled p x hx)

theorem Shown.of_parts {s t : State} (alarm : t.alarm = s.alarm) (programs : t.programs = s.programs)
    (lanes : t.lanes = s.lanes) (tb : t.tb = s.tb) (h : s.Shown) : t.Shown := by
  have program (p : Fin 16) : t.program p = s.program p := by unfold State.program; rw [programs]
  obtain ⟨front, points, unsettled⟩ := (shown_iff s).1 h
  have point : t.alarm.point = s.alarm.point := by rw [alarm]
  refine (shown_iff t).2 ⟨SameFront.shown (s := s) (alarm ▸ .refl _) lanes (by rw [tb]) front, fun p => ?_,
    fun p x hx => ?_⟩
  · exact State.PointsShown.of_program (s := s) (program p) (fun _ _ => by rw [point]) (points p)
  · exact unsettled p x (program p ▸ hx)

end Sys2Proof.Machine

open Sys2Proof Sys2Proof.Machine

/-- Settles O4: every leaf change hands over what it changes, and power-on, the opening of a house sample and the
failures of DRAM cells leave the conditions and their points in step. -/
theorem stepKeepsConditionsShown : Obligations.StepKeepsConditionsShown := fun _ _ hs h =>
  step_keeps (P := State.Shown) (fun _ _ => Shown.of_parts rfl rfl rfl rfl) (fun _ _ => Shown.of_parts rfl rfl rfl rfl)
    (fun _ _ => shown_leaf) shown_powerOn (fun _ pins hs => shown_openSample pins hs)
      (fun _ _ _ => Shown.of_parts rfl rfl rfl rfl) hs h

end

section
/-! PROOF. The reset state (O3, O21): each vector of the state holds its reset value in every place. -/

namespace Sys2Proof.Machine

theorem reset_lane (l : Fin 4) : State.reset.lane l = Lane.reset := by simp [State.lane, State.reset]

theorem reset_program (p : Fin 16) : State.reset.program p = none := by simp [State.program, State.reset]

theorem reset_claims (i : Fin 64) : State.reset.claims[i.val]'i.isLt = none := by simp [State.reset]

theorem reset_slots (i : Fin 64) : State.reset.egress.slots[i.val]'i.isLt = 0 := by simp [State.reset, EgressOut.reset]

theorem reset_contact (c : Fin 4) : AlarmUnit.reset.contact c = Contact.reset := by
  simp [AlarmUnit.contact, AlarmUnit.reset]

theorem reset_summary (o : Fin 4) : AlarmUnit.reset.summaries[o.val]'o.isLt = Summary.reset := by
  simp [AlarmUnit.reset]

theorem laneReset_bounded : Lane.reset.Bounded := by
  constructor <;> decide

/-- Whatever is asked of every defined program holds in the reset state. -/
theorem reset_no_program {P : Prop} {p : Fin 16} {x : Program} (h : State.reset.program p = some x) : P := by
  rw [reset_program] at h
  cases h

theorem reset_pagesPlaced : State.reset.PagesPlaced := by
  have pages : allPrograms.flatMap State.reset.ringPages = [] := by
    simp [List.flatMap_eq_nil_iff, State.ringPages, reset_program]
  exact ⟨by rw [pages]; exact .refl _, fun _ => rfl⟩

theorem reset_claimsMatch : State.reset.ClaimsMatch := by
  intro i p c
  rw [reset_claims]
  exact ⟨fun h => (nomatch h), fun ⟨_, _, h, _⟩ => reset_no_program h⟩

theorem reset_alarm_inOrder : State.reset.alarm.InOrder where
  protection pt h := by
    rw [State.reset, reset_point] at h
    cases h
  off pt _ := by
    rw [State.reset, reset_point]
    exact ⟨rfl, rfl⟩
  once := .nil
  sorted := .nil

end Sys2Proof.Machine

open Sys2Proof Sys2Proof.Machine

/-- Settles O3: the reset state, invariant by invariant. -/
theorem resetMeetsTheInvariants : Obligations.ResetMeetsTheInvariants :=
  ⟨shown_powerOn State.reset false, reset_pagesPlaced, reset_claimsMatch,
    fun l => reset_lane l ▸ laneReset_bounded,
    ⟨fun l => by rw [reset_lane]; decide, fun _ _ => reset_no_program⟩,
    timebase_reset_inOrder, work_empty rfl rfl rfl, fun _ _ => reset_no_program, reset_alarm_inOrder, rfl⟩

/-- Settles O21: power-on puts the reset state in place, but for the queue, the pins, the failed cells and the strap. -/
theorem powerOnSetsTheResetValues : Obligations.PowerOnSetsTheResetValues := by
  intro s high
  have refs (i : RefInput) : Timebase.reset.ref i = ⟨false, none, none, 0, false, 0, false⟩ := by cases i <;> rfl
  have lanes (l : Fin 4) : (State.powerOn high s).lane l = Lane.reset := reset_lane l
  have kinds : ∀ k : Fin 13, (AlarmUnit.reset.kind k).mode = .report ∧ (AlarmUnit.reset.kind k).clearCode = 50
      ∧ (AlarmUnit.reset.kind k).retryCode = 150
      ∧ (AlarmUnit.reset.kind k).priority = [1, 2, 5, 4, 2, 3, 5, 6, 4, 1, 0, 6, 3].getD k.val 0
      ∧ (AlarmUnit.reset.kind k).raiseCode = [0, 0, 0, 0, 110, 0, 150, 0, 0, 0, 0, 0, 0].getD k.val 0
      ∧ (AlarmUnit.reset.kind k).level = [0, 0, 0, 0, -600, -1, 0, 0, 0, 0, 0, 0, 0].getD k.val 0
      ∧ (AlarmUnit.reset.kind k).count = [0, 0, 0, 0, 0, 3, 0, 0, 0, 0, 0, 0, 0].getD k.val 0 := by decide
  have summary (o : Fin 4) : (State.powerOn high s).alarm.summaries[o.val]'o.isLt = Summary.reset := reset_summary o
  refine ⟨State.powerOn high s, rfl, ?_⟩
  refine ⟨rfl, rfl, rfl, rfl, rfl, rfl, rfl, rfl, rfl, rfl, rfl, rfl, rfl, rfl, rfl, rfl, rfl, rfl, refs, fun l => ?_,
    reset_program, reset_claims, rfl, rfl, rfl, rfl, rfl, rfl, rfl, rfl, rfl, reset_slots, kinds, reset_point, rfl,
    fun o => ⟨summary o, ?_⟩, reset_contact,
    rfl, rfl, rfl, rfl, rfl, rfl, rfl, rfl, rfl, rfl, rfl, rfl, rfl, rfl, rfl⟩
  · rw [lanes]
    exact ⟨rfl, rfl, rfl, rfl, rfl, rfl, rfl, rfl, rfl, rfl, rfl, rfl, rfl, rfl, rfl, rfl, rfl, rfl⟩
  · simp [AlarmUnit.summaryPin, AlarmUnit.asserted, summary, Summary.reset]

end

section
/-! PROOF. O22: the clock's period and the egress slots. What the link's frame parts, the claims and the egress slots
keep under the leaf changes. -/

namespace Sys2Proof.Machine

/-! ## The Link Port but for its operation table and its completions -/

theorem KeepsLink.refl (k : LinkPort) : KeepsLink k k := ⟨rfl⟩

theorem KeepsLink.trans {a b c : LinkPort} (h : KeepsLink a b) (k : KeepsLink b c) : KeepsLink a c :=
  ⟨by rw [k.eq, h.eq]⟩

theorem KeepsLink.buffer {a b : LinkPort} (h : KeepsLink a b) : b.buffer = a.buffer := by rw [h.eq]

theorem keepsLink_endDelayOp (p : Fin 16) (r : Result) (s : State) : KeepsLink s.link (s.endDelayOp p r).link := by
  unfold State.endDelayOp
  split
  · exact .refl _
  · split
    · exact .refl _
    · exact ⟨rfl⟩

theorem keepsLink_putProgram (p : Fin 16) (x y : Program) (s : State) : KeepsLink s.link (s.putProgram p x y).link := by
  have settled (u : State) : KeepsLink u.link (u.settleDelay p).link := by
    unfold State.settleDelay
    split
    · exact .refl _
    · split
      · exact keepsLink_endDelayOp ..
      · exact .refl _
  have handed (u : State) : KeepsLink u.link (u.handProgram p).link := by
    unfold State.handProgram
    split
    · exact .refl _
    · exact ⟨rfl⟩
  exact (settled (s.setProgram p _)).trans (handed _)

/-- An operation on a program reaches the operation table and the completions of the Link Port alone. -/
theorem keepsLink_progStep (p : Fin 16) (f : Program → Program) (s : State) :
    KeepsLink s.link (s.progStep p f).link := by
  unfold State.progStep
  split
  · exact .refl _
  · split
    · exact .refl _
    · exact keepsLink_putProgram ..

theorem keepsLink_output (s : State) : OutputKept fun t => KeepsLink s.link t.link where
  pad u p _ h := h.trans (keepsLink_progStep p _ u)
  record _ _ _ _ _ _ h := h
  event _ _ _ _ h := h

theorem keepsLink_formOutput (p : Fin 16) (s : State) : KeepsLink s.link (s.formOutput p).link := by
  refine (keepsLink_output s).formOutput p (fun handed _ => ?_) (.refl _)
  unfold State.overThenPad
  split
  · exact handed
  · exact handed

/-! ## Claims and the receive buffer under the part's own steps -/

/-- The claims of the egress slots and the receive buffer stand as they were. -/
structure SameClaims (s t : State) : Prop where
  claims : t.claims = s.claims
  buffer : t.link.buffer = s.link.buffer

theorem SameClaims.refl (s : State) : SameClaims s s := ⟨rfl, rfl⟩

theorem SameClaims.trans {a b c : State} (h : SameClaims a b) (k : SameClaims b c) : SameClaims a c :=
  ⟨k.claims.trans h.claims, k.buffer.trans h.buffer⟩

theorem KeepsOutside.sameClaims {s t : State} (h : KeepsOutside s t) (link : KeepsLink s.link t.link) :
    SameClaims s t :=
  ⟨h.claims, link.buffer⟩

theorem sameClaims_progStep (p : Fin 16) (f : Program → Program) (s : State) : SameClaims s (s.progStep p f) :=
  (keepsOutside_progStep ..).sameClaims (keepsLink_progStep ..)

theorem sameClaims_stable (s : State) : Stable (SameClaims s) where
  program u p f _ h := h.trans (sameClaims_progStep p f u)
  dropDelay _ _ _ _ h := ⟨h.claims, h.buffer⟩
  link _ _ same h := ⟨h.claims, same.trans h.buffer⟩
  schedule _ _ h := ⟨h.claims, h.buffer⟩

theorem sameClaims_own {s t : State} (step : OwnStep s t) : SameClaims s t := by
  cases step with
  | program p _ => exact sameClaims_progStep ..
  | lane l _ =>
    exact laneStep_keeps (P := SameClaims s) (fun _ => ⟨rfl, rfl⟩) (fun u p h => h.trans (sameClaims_progStep p _ u))
      (fun _ _ h => ⟨h.claims, h.buffer⟩) (.refl s)
  | time _ => exact (sameClaims_stable s).timed ⟨rfl, rfl⟩ (.refl s)
  | link k _ buffer => exact ⟨rfl, buffer⟩
  | standby p x _ => exact (keepsOutside_putProgram ..).sameClaims (keepsLink_putProgram ..)
  | output p => exact (keepsOutside_formOutput p s).sameClaims (keepsLink_formOutput p s)
  | alarm | closeOp | memory | record | interpolate => exact ⟨rfl, rfl⟩

/-- The part of itself moves no claim and takes no frame. -/
theorem sameClaims_reach {s t : State} (h : OwnReach s t) : SameClaims s t :=
  h.keeps (P := SameClaims s) (fun _ _ step k => k.trans (sameClaims_own step)) (.refl s)

/-! ## The egress slots under the leaf changes -/

theorem sameEgress_stable (e : EgressOut) : Stable fun s => s.egress = e where
  program s p f _ h := (keepsOutside_progStep p f s).egress.trans h
  dropDelay _ _ _ _ h := h
  link _ _ _ h := h
  schedule _ _ h := h

theorem sameEgress_own {s t : State} {e : EgressOut} (step : OwnStep s t) (h : s.egress = e) : t.egress = e := by
  cases step with
  | program p _ => exact (keepsOutside_progStep ..).egress.trans h
  | lane l _ =>
    exact laneStep_keeps (P := fun s => s.egress = e) id (fun u p h => (keepsOutside_progStep p _ u).egress.trans h)
      (fun _ _ h => h) h
  | time _ => exact (sameEgress_stable e).timed h h
  | standby p x _ => exact (keepsOutside_putProgram ..).egress.trans h
  | output p => exact (keepsOutside_formOutput p s).egress.trans h
  | alarm | link | closeOp | memory | record | interpolate => exact h

theorem sameEgress_leaf {s t : State} {e : EgressOut} (leaf : Leaf s t) (h : s.egress = e) : t.egress = e := by
  cases leaf with
  | own step => exact sameEgress_own step h
  | define p tag d chs _ _ =>
    unfold State.defined State.handProgram State.openOp
    dsimp only
    split <;> split <;> exact h
  | delay p tag d _ => exact (sameEgress_stable e).toInside.takeDelay p tag d h
  | openCheck tag _ => exact (sameEgress_stable e).toInside.openOp tag .check h
  | vacate p =>
    unfold State.vacate
    split <;> exact h
  | asked | buffer | dropDelay | cancelEntries | addEntry | clearReady | restarted => exact h

/-- No leaf change reaches the egress slots sent: the closing of a house sample alone sends them. -/
theorem sameEgress_reach {s t : State} (h : Reach s t) : t.egress = s.egress :=
  h.keeps (P := fun u => u.egress = s.egress) (fun _ _ => sameEgress_leaf) rfl

/-! ## The period -/

/-- With no frame waiting, serving the link is two looks of the transmitter. -/
theorem serveLink_empty {s : State} (h : s.link.buffer = []) : s.serveLink = s.transmit.transmit := by
  have first := (sameClaims_reach (transmit_reach s)).buffer.trans h
  have second := (sameClaims_reach (transmit_reach s.transmit)).buffer.trans first
  show s.transmit.takeFrame.transmit.takeFrame = _
  rw [takeFrame_empty first, takeFrame_empty second]

theorem sameClaims_sendEgress (s : State) : SameClaims s s.sendEgress := ⟨rfl, rfl⟩

theorem sameClaims_audio (s : State) : SameClaims s s.audio :=
  (sameClaims_reach (formed_reach s)).trans (sameClaims_sendEgress s.formed)

theorem looked_claims (s : State) : SameClaims s s.transmit.transmit :=
  sameClaims_reach ((transmit_reach s).trans (transmit_reach s.transmit))

theorem transmit_program (p : Fin 16) (s : State) : s.transmit.program p = s.program p := by
  unfold State.transmit
  split
  · rfl
  · split
    · rfl
    · split
      · rfl
      · split <;> rfl

theorem openSample_program (pins : BitVec 4) (p : Fin 16) (s : State) :
    (s.latch.openSample pins).program p = (s.program p).map Program.tick := by
  simp [State.program, State.openSample, State.latch]

/-- What a claimed slot carries looks at the program's state and at the channel's output alone. -/
theorem slotOutput_tick {s t : State} (program : ∀ p, t.program p = (s.program p).map Program.tick)
    (claim : Option Claim) : t.slotOutput claim = s.slotOutput claim := by
  unfold State.slotOutput
  cases claim with
  | none => rfl
  | some k =>
    dsimp only
    rw [program]
    cases s.program k.program with
    | none => rfl
    | some x =>
      have output : (x.tick.channels[k.channel]?).map Channel.output = (x.channels[k.channel]?).map Channel.output := by
        simp [Program.tick, Function.comp_def]
      show (if x.state = .running then ((x.tick.channels[k.channel]?).map Channel.output).getD 0 else 0) = _
      rw [output]

/-- The claim of an egress slot. -/
def State.slotClaim (s : State) (i : Fin 64) : Option Claim := s.claims[i.val]'i.isLt

theorem sendEgress_slots (s : State) (i : Fin 64) :
    s.sendEgress.egress.slots[i.val]'i.isLt = s.sendEgress.slotOutput (s.sendEgress.slotClaim i) := by
  have slot : s.sendEgress.egress.slots[i.val]'i.isLt = s.slotOutput (s.slotClaim i) := by
    simp [State.sendEgress, State.slotClaim]
  exact slot

/-- The egress slots of the audio are the outputs of the channels that claim them, as it leaves them. -/
theorem audio_slots {s : State} {e : EgressOut} (h : e = s.audio.egress) (i : Fin 64) :
    e.slots[i.val]'i.isLt = s.audio.slotOutput (s.audio.slotClaim i) := by
  rw [h, audio_eq]
  exact sendEgress_slots s.formed i

/-- The counter that the closing of a house sample ends with. -/
theorem formed_counter (s : State) : s.settle.serveLink.formed.counter = s.counter :=
  (sameClock_reach (((settle_reach s).reach.trans (serveLink_reach _)).trans (formed_reach _).reach)).counter

/-- With no frame waiting the closing of a house sample keeps the claims, and its programs are those of the audio. -/
theorem closeSample_empty {s : State} (h : s.link.buffer = []) :
    s.closeSample.claims = s.claims ∧ s.settle.serveLink.audio.claims = s.claims
      ∧ ∀ p, s.closeSample.program p = s.settle.serveLink.audio.program p := by
  have settled := sameClaims_reach (settle_reach s)
  have served : OwnReach s.settle s.settle.serveLink := by
    rw [serveLink_empty (settled.buffer.trans h)]
    exact (transmit_reach _).trans (transmit_reach _)
  have sent := (settled.trans (sameClaims_reach served)).trans (sameClaims_audio s.settle.serveLink)
  have last := serveLink_empty (sent.buffer.trans h)
  have close : s.closeSample = s.settle.serveLink.audio.transmit.transmit := last
  refine ⟨?_, sent.claims, fun p => ?_⟩
  · rw [close]
    exact (looked_claims _).claims.trans sent.claims
  · rw [close, transmit_program, transmit_program]

theorem closeSample_egress (s : State) : s.closeSample.egress = s.settle.serveLink.audio.egress :=
  sameEgress_reach (serveLink_reach s.settle.serveLink.audio)

/-- What a house sample that opens after another, and the DRAM's failures at it, make of what was closed. -/
structure Opened (pins : BitVec 4) (u t : State) : Prop where
  counter : t.counter = u.counter + 1
  pins : t.alarm.pins = pins
  boundary : t.alarm.boundaryTaken = false
  egress : t.egress = u.egress
  claims : t.claims = u.claims
  programs : ∀ p, t.program p = (u.program p).map Program.tick

theorem opened_faulted (pins : BitVec 4) (faults : List DramFault) (u : State) :
    Opened pins u (faults.foldl State.takeFault (u.latch.openSample pins)) := by
  obtain ⟨dram, stuck, e⟩ := takeFaults_eq faults (u.latch.openSample pins)
  rw [e]
  exact ⟨rfl, rfl, rfl, rfl, rfl, fun p => openSample_program pins p u⟩

theorem tick_opened (pins : BitVec 4) (faults : List DramFault) (s : State) :
    Opened pins s.closeSample (s.tick pins faults) := opened_faulted pins faults s.closeSample

theorem sendEgress_marker (s : State) : s.sendEgress.egress.marker = decide (s.counter.toNat % 192 = 0) := rfl

theorem sendEgress_status (s : State) :
    s.sendEgress.egress.status = decide (s.counter.toNat % 192 = 6 ∨ s.counter.toNat % 192 = 7) := by
  rw [Bool.decide_or]
  rfl

/-- What a slot carries under the programs given (R148). -/
def carried (program : Fin 16 → Option Program) : Option Claim → Sample
  | none => 0
  | some k =>
    match program k.program with
    | none => 0
    | some x => if x.state = .running then ((x.channels[k.channel]?).map Channel.output).getD 0 else 0

theorem slotOutput_eq (s : State) (claim : Option Claim) : s.slotOutput claim = carried s.program claim := by
  cases claim <;> rfl

/-- The slots of the audio, and where the next house sample keeps claims and programs, those that it shows. -/
theorem slots_carried {s t v : State} (egress : t.egress = s.audio.egress) (formed : s.audio = v) (i : Fin 64) :
    t.egress.slots[i.val]'i.isLt = carried v.program (v.claims[i.val]'i.isLt) := by
  rw [audio_slots egress, slotOutput_eq, State.slotClaim, formed]

theorem slots_carried_on {s t : State} {claims : Vector (Option Claim) 64} (egress : t.egress = s.audio.egress)
    (heard : s.audio.claims = claims) (ticked : ∀ p, t.program p = (s.audio.program p).map Program.tick) (i : Fin 64) :
    t.egress.slots[i.val]'i.isLt = carried t.program (claims[i.val]'i.isLt) := by
  rw [audio_slots egress, ← slotOutput_tick ticked, slotOutput_eq, State.slotClaim, heard]

theorem audio_marker (s : State) :
    s.settle.serveLink.audio.egress.marker = decide (s.counter.toNat % 192 = 0) := by
  rw [audio_eq, sendEgress_marker, formed_counter]

theorem audio_status (s : State) :
    s.settle.serveLink.audio.egress.status = decide (s.counter.toNat % 192 = 6 ∨ s.counter.toNat % 192 = 7) := by
  rw [audio_eq, sendEgress_status, formed_counter]

theorem tick_egress (pins : BitVec 4) (faults : List DramFault) (s : State) :
    (s.tick pins faults).egress = s.settle.serveLink.audio.egress :=
  (tick_opened pins faults s).egress.trans (closeSample_egress s)

theorem tick_counter (pins : BitVec 4) (faults : List DramFault) (s : State) :
    (s.tick pins faults).counter = s.counter + 1 := by
  rw [(tick_opened pins faults s).counter, (sameClock_closeSample s).counter]

/-- With no frame waiting the period keeps the claims, and moves the programs of the audio on. -/
theorem tick_empty (pins : BitVec 4) (faults : List DramFault) {s : State} (empty : s.link.buffer = []) :
    (s.tick pins faults).claims = s.claims ∧ s.settle.serveLink.audio.claims = s.claims
      ∧ ∀ p, (s.tick pins faults).program p = (s.settle.serveLink.audio.program p).map Program.tick := by
  obtain ⟨closed, heard, same⟩ := closeSample_empty empty
  have opened := tick_opened pins faults s
  exact ⟨opened.claims.trans closed, heard, fun p => (opened.programs p).trans (congrArg _ (same p))⟩

end Sys2Proof.Machine

open Sys2Proof Sys2Proof.Machine

/-- Settles O22: the egress slots are sent by the audio alone, and what follows it in the period leaves them. The state
that the period gives stands as a name: the slots' equations must not be looked for by running it. -/
theorem houseClockAdvancesAndEgressSlotsAreSent : Obligations.HouseClockAdvancesAndEgressSlotsAreSent := by
  intro s pins faults
  have counter := tick_counter pins faults s
  have opened := tick_opened pins faults s
  have egress := tick_egress pins faults s
  have waiting := tick_empty (s := s) pins faults
  obtain ⟨t, made⟩ : ∃ t, t = s.tick pins faults := ⟨_, rfl⟩
  rw [← made] at counter opened egress waiting
  have marker := (congrArg EgressOut.marker egress).trans (audio_marker s)
  have status := (congrArg EgressOut.status egress).trans (audio_status s)
  refine ⟨t, by rw [made]; rfl, counter, opened.pins, opened.boundary, marker, status, ?_⟩
  intro v sent
  have sent_of (claims : Vector (Option Claim) 64) (program : Fin 16 → Option Program)
      (slots : ∀ i : Fin 64, t.egress.slots[i.val]'i.isLt = carried program (claims[i.val]'i.isLt)) :
      sent claims program := by
    intro i
    rw [slots i]
    split
    · rename_i free
      rw [free]; rfl
    · rename_i k claimed
      rw [claimed]
      split <;> simp [carried, *]
  refine ⟨sent_of v.claims v.program (slots_carried (v := v) egress rfl), fun empty => ?_⟩
  obtain ⟨claims, heard, ticked⟩ := waiting empty
  exact ⟨claims, sent_of s.claims t.program (slots_carried_on egress heard ticked)⟩

end

section
/-! PROOF. O23: the frames of the House Timebase. What a step of the timebase leaves, the entries of a frame
included. -/

namespace Sys2Proof.Machine

/-! ## The commands of the timebase -/

theorem exec_frameBoundary (s : State) : exec .frameBoundary s = .next s.frameBoundary := rfl

theorem exec_realignFrameTimeout (s : State) : exec .realignFrameTimeout s = .next s.realignTimeout := rfl

theorem exec_referenceLost (i : RefInput) (s : State) : exec (.referenceLost i) s = .next (s.referenceLost i) := rfl

theorem exec_referenceHoldExpiry (s : State) : exec .referenceHoldExpiry s = .next s.holdExpiry := rfl

theorem exec_revertTimerExpiry (s : State) : exec .revertTimerExpiry s = .next s.revertExpiry := rfl

/-! ## A step of the timebase -/

/-- A step that leaves REF_LOSS as its point shows it puts the timebase in place and does nothing else (R8). -/
theorem tbStep_shown {s : State} {f : Timebase → Timebase} (loss : (f s.tb).refLoss = s.tb.refLoss) (h : s.Shown) :
    s.tbStep f = { s with tb := f s.tb } := by
  unfold State.tbStep
  split
  · rename_i same; rw [same]
  · unfold State.putTimebase
    rw [handRaw_same _ (h.ref.trans loss.symm)]

/-- The entries of a frame leave the timebase as it is but for its schedule. -/
theorem runFrame_tb (s : State) : s.runFrame.tb = { s.tb with schedule := s.runFrame.tb.schedule } := by
  have fold (l : List SchedEntry) (u : State) :
      (l.foldl State.runEntry u).tb = { u.tb with schedule := (l.foldl State.runEntry u).tb.schedule } := by
    induction l generalizing u with
    | nil => rfl
    | cons e rest ih => rw [List.foldl_cons, ih, runEntry_tb]
  exact fold _ s

/-- What the steps of the timebase leave unchanged in the other blocks, the entries of a frame included. -/
structure SameBlocks (s t : State) : Prop where
  counter : t.counter = s.counter
  lanes : t.lanes = s.lanes
  claims : t.claims = s.claims
  pool : t.pool = s.pool
  dram : t.dram = s.dram

theorem SameBlocks.refl (s : State) : SameBlocks s s := ⟨rfl, rfl, rfl, rfl, rfl⟩

theorem sameBlocks_stable (s : State) : Stable (SameBlocks s) where
  program u p f _ h := by
    have k := keepsOutside_progStep p f u
    exact ⟨k.counter.trans h.counter, k.lanes.trans h.lanes, k.claims.trans h.claims, k.pool.trans h.pool,
      k.dram.trans h.dram⟩
  dropDelay _ _ _ _ h := ⟨h.counter, h.lanes, h.claims, h.pool, h.dram⟩
  link _ _ _ h := ⟨h.counter, h.lanes, h.claims, h.pool, h.dram⟩
  schedule _ _ h := ⟨h.counter, h.lanes, h.claims, h.pool, h.dram⟩

theorem timed_blocks (t : Timebase) (begins : Bool) (s : State) : SameBlocks s (s.timed t begins) :=
  (sameBlocks_stable s).timed ⟨rfl, rfl, rfl, rfl, rfl⟩ (.refl s)

/-- A step that begins no frame leaves the timebase it gives. -/
theorem timed_tb_running (t : Timebase) (s : State) : (s.timed t false).tb = t := tbStep_tb t s

/-- A step that begins a frame leaves it but for the schedule. -/
theorem timed_tb (t : Timebase) (begins : Bool) (s : State) :
    (s.timed t begins).tb = { t with schedule := (s.timed t begins).tb.schedule } := by
  cases begins with
  | false => rw [timed_tb_running]
  | true =>
    have tb := runFrame_tb (s.tbStep fun _ => t)
    rw [tbStep_tb] at tb
    exact tb

/-! ## Leaving FREE (R5) -/

/-- A selection that is not FREE stands. -/
theorem leaveFree_selected {t : Timebase} (now : Time) (h : t.selection ≠ .free) : t.leaveFree now = t := by
  simp [Timebase.leaveFree, h]

/-- Neither does FREE end with both inputs ABSENT. -/
theorem leaveFree_absent {t : Timebase} (now : Time) (h : ∀ i, (t.ref i).present = false) : t.leaveFree now = t := by
  simp [Timebase.leaveFree, h]

/-! ## A frame begins (R2, R12) -/

/-- With no rate pending a frame begins at the cadence position given. -/
theorem beginFrame_same_rate {t : Timebase} (now : Time) (cadence : Nat) (realign : Bool) (h : t.pendingRate = none) :
    t.beginFrame now cadence realign = { t with
      frameIndex := t.frameIndex + 1, frameStart := now, nextCadenceZero := false
      cadence := if t.rate.fractional then cadence else 0
      frameLen := t.rate.length (if t.rate.fractional then cadence else 0), realign := realign } := by
  simp [Timebase.beginFrame, h]

/-- A frame at whose beginning a pending rate takes effect, in FREE still to be left. -/
def Timebase.rateTaken (now : Time) (r : FrameRate) (t : Timebase) : Timebase :=
  { t with
    frameIndex := t.frameIndex + 1, frameStart := now, nextCadenceZero := false
    rate := r, pendingRate := none, cadence := 0, frameLen := r.length 0
    refA := t.refA.restartCount, refB := t.refB.restartCount
    realign := decide (t.selection ≠ Selection.free) }

theorem beginFrame_new_rate {t : Timebase} {r : FrameRate} (now : Time) (cadence : Nat) (realign : Bool)
    (h : t.pendingRate = some r) : t.beginFrame now cadence realign = (t.rateTaken now r).leaveFree now := by
  simp [Timebase.beginFrame, Timebase.rateTaken, h]

/-- R12: a pending rate takes effect; nothing is selected where an input is already, or both are ABSENT. -/
theorem beginFrame_settled {t : Timebase} {r : FrameRate} (now : Time) (cadence : Nat) (realign : Bool)
    (h : t.pendingRate = some r)
    (settled : t.selection ≠ .free ∨ (t.refA.present = false ∧ t.refB.present = false)) :
    t.beginFrame now cadence realign = t.rateTaken now r := by
  rw [beginFrame_new_rate now cadence realign h]
  obtain selected | ⟨a, b⟩ := settled
  · exact leaveFree_selected now selected
  · refine leaveFree_absent now fun i => ?_
    cases i with
    | a => exact a
    | b => exact b

/-- The cadence position that a frame begins with where it has none from a pulse (R2, R9). -/
theorem cadenceAfter_eq (t : Timebase) : (if t.rate.fractional then t.cadenceAfter else 0)
    = if t.rate.fractional ∧ t.nextCadenceZero = false then (t.cadence + 1) % 5 else 0 := by
  unfold Timebase.cadenceAfter FrameRate.nextCadence
  cases t.rate.fractional <;> cases t.nextCadenceZero <;> simp

/-- A frame that begins with no change of rate leaves the inputs and the preference, and with them REF_LOSS. -/
theorem rateTaken_refLoss (now : Time) (r : FrameRate) (t : Timebase) : (t.rateTaken now r).refLoss = t.refLoss := by
  unfold Timebase.refLoss Timebase.rateTaken
  cases t.preference <;> rfl

end Sys2Proof.Machine

open Sys2Proof Sys2Proof.Machine

/-- Settles O23: a boundary is a frame begun where it is due, and REF_LOSS stands. -/
theorem framesEndAtTheirLength : Obligations.FramesEndAtTheirLength := by
  intro s shown c next changed settled
  have same (realign : Bool) (none : s.tb.pendingRate = none) :
      s.tbStep (fun t => t.beginFrame s.counter t.cadenceAfter realign) = next realign := by
    have frame := beginFrame_same_rate s.counter s.tb.cadenceAfter realign none
    rw [tbStep_shown (by rw [frame]; rfl) shown, frame, cadenceAfter_eq]
  have rate (realign : Bool) (r : FrameRate) (some : s.tb.pendingRate = some r) (h : settled) :
      s.tbStep (fun t => t.beginFrame s.counter t.cadenceAfter realign) = changed r := by
    have frame := beginFrame_settled s.counter s.tb.cadenceAfter realign some h
    rw [tbStep_shown (by rw [frame]; exact rateTaken_refLoss ..) shown, frame]
    rfl
  refine ⟨fun running due => ?_, fun pending due => ?_, fun early => ?_, fun early => ?_⟩
  · have boundary : exec .frameBoundary s
        = .next (s.tbStep fun t => t.beginFrame s.counter t.cadenceAfter false).runFrame := by
      rw [exec_frameBoundary, State.frameBoundary, if_pos
        (by simp [Timebase.boundaryDue, running, Timebase.offset, due])]
      rfl
    rw [boundary]
    exact ⟨fun none => by rw [same false none], fun r some h => by rw [rate false r some h]⟩
  · have timeout : exec .realignFrameTimeout s
        = .next (s.tbStep fun t => t.beginFrame s.counter t.cadenceAfter true).runFrame := by
      rw [exec_realignFrameTimeout, State.realignTimeout, if_pos
        (by simp [Timebase.timeoutDue, pending, Timebase.offset, due])]
      rfl
    rw [timeout]
    exact ⟨fun none => by rw [same true none], fun r some h => by rw [rate true r some h]⟩
  · have notDue : s.tb.boundaryDue s.counter = false := by
      obtain pending | before := early
      · simp [Timebase.boundaryDue, pending]
      · simp [Timebase.boundaryDue, Timebase.offset, Nat.not_le.2 before]
    simp [exec_frameBoundary, State.frameBoundary, notDue]
  · have notDue : s.tb.timeoutDue s.counter = false := by
      obtain running | before := early
      · simp [Timebase.timeoutDue, running]
      · simp [Timebase.timeoutDue, Timebase.offset, Nat.not_le.2 before]
    simp [exec_realignFrameTimeout, State.realignTimeout, notDue]

end

section
/-! PROOF. Pulses of the reference inputs (O24, O25): what a pulse times, what it selects, and what it does to the
frame. -/

namespace Sys2Proof.Machine

/-! ## Inputs and selections -/

theorem selectionOf_ne_free (i : RefInput) : selectionOf i ≠ .free := by cases i <;> simp [selectionOf]

theorem selectionOf_inj {i j : RefInput} : selectionOf i = selectionOf j ↔ i = j := by
  cases i <;> cases j <;> simp [selectionOf]

/-- What the timebase holds of the frames, the rate and the settings: all that the inputs, the selection and its timers
leave alone. -/
structure SameFrame (t u : Timebase) : Prop where
  frameIndex : u.frameIndex = t.frameIndex
  frameStart : u.frameStart = t.frameStart
  frameLen : u.frameLen = t.frameLen
  cadence : u.cadence = t.cadence
  nextCadenceZero : u.nextCadenceZero = t.nextCadenceZero
  rate : u.rate = t.rate
  pendingRate : u.pendingRate = t.pendingRate
  preference : u.preference = t.preference
  revertive : u.revertive = t.revertive
  holdCode : u.holdCode = t.holdCode
  schedule : u.schedule = t.schedule

theorem SameFrame.refl (t : Timebase) : SameFrame t t := ⟨rfl, rfl, rfl, rfl, rfl, rfl, rfl, rfl, rfl, rfl, rfl⟩

theorem SameFrame.trans {a b c : Timebase} (h : SameFrame a b) (k : SameFrame b c) : SameFrame a c :=
  ⟨k.frameIndex.trans h.frameIndex, k.frameStart.trans h.frameStart, k.frameLen.trans h.frameLen,
    k.cadence.trans h.cadence, k.nextCadenceZero.trans h.nextCadenceZero, k.rate.trans h.rate,
    k.pendingRate.trans h.pendingRate, k.preference.trans h.preference, k.revertive.trans h.revertive,
    k.holdCode.trans h.holdCode, k.schedule.trans h.schedule⟩

theorem sameFrame_setRef (i : RefInput) (r : RefState) (t : Timebase) : SameFrame t (t.setRef i r) := by
  cases i <;> exact ⟨rfl, rfl, rfl, rfl, rfl, rfl, rfl, rfl, rfl, rfl, rfl⟩

theorem setRef_rest (i : RefInput) (r : RefState) (t : Timebase) :
    (t.setRef i r).selection = t.selection ∧ (t.setRef i r).realign = t.realign
      ∧ (t.setRef i r).holdSince = t.holdSince ∧ (t.setRef i r).revertSince = t.revertSince := by
  cases i <;> exact ⟨rfl, rfl, rfl, rfl⟩

/-! ## Selection from FREE (R5) -/

/-- The selection that FREE ends with, told from one input. -/
theorem leaveFree_selection (now : Time) (i : RefInput) (t : Timebase) (free : t.selection = .free) :
    (t.leaveFree now).selection =
      if (t.ref i).present = true ∧ (t.ref (otherInput i)).present = true then selectionOf t.preference
      else if (t.ref i).present = true then selectionOf i
      else if (t.ref (otherInput i)).present = true then selectionOf (otherInput i)
      else .free := by
  unfold Timebase.leaveFree
  rw [if_neg (by simp [free])]
  by_cases here : i = t.preference
  · subst here
    cases (t.ref t.preference).present <;> cases (t.ref (otherInput t.preference)).present <;>
      simp [Timebase.select, Timebase.judgeRevert, free]
  · have there : t.preference = otherInput i := by
      revert here
      cases i <;> cases t.preference <;> simp [otherInput]
    have back : otherInput (otherInput i) = i := by cases i <;> rfl
    rw [there, back]
    cases (t.ref i).present <;> cases (t.ref (otherInput i)).present <;>
      simp [Timebase.select, Timebase.judgeRevert, free]

/-- FREE stands, or an input that is PRESENT is selected. -/
theorem leaveFree_cases (now : Time) (t : Timebase) :
    t.leaveFree now = t ∧ (t.selection ≠ .free ∨ (t.leaveFree now).selection = .free)
      ∨ ∃ j, t.selection = .free ∧ (t.ref j).present = true ∧ t.leaveFree now = t.select now j := by
  unfold Timebase.leaveFree
  split
  · exact .inl ⟨rfl, .inl ‹_›⟩
  · rename_i free
    simp only [ne_eq, Decidable.not_not] at free
    split
    · exact .inr ⟨_, free, ‹_›, rfl⟩
    · split
      · exact .inr ⟨_, free, ‹_›, rfl⟩
      · exact .inl ⟨rfl, .inr free⟩

theorem sameFrame_leaveFree (now : Time) (t : Timebase) : SameFrame t (t.leaveFree now) := by
  obtain ⟨same, _⟩ | ⟨j, _, _, selected⟩ := leaveFree_cases now t
  · rw [same]; exact .refl t
  · rw [selected]; exact ⟨rfl, rfl, rfl, rfl, rfl, rfl, rfl, rfl, rfl, rfl, rfl⟩

theorem leaveFree_ref (now : Time) (j : RefInput) (t : Timebase) : (t.leaveFree now).ref j = t.ref j := by
  obtain ⟨same, _⟩ | ⟨k, _, _, selected⟩ := leaveFree_cases now t
  · rw [same]
  · rw [selected]; cases j <;> rfl

/-! ## Qualification (R5 to R7) -/

/-- A timebase once an input has been qualified: the selection, the realignment and the two timers. -/
structure Qualified (now : Time) (i : RefInput) (t u : Timebase) : Prop where
  frame : SameFrame t u
  refs : ∀ j, u.ref j = t.ref j
  stands : t.selection ≠ .free → u.selection = t.selection ∧ u.realign = t.realign
  leaves : t.selection = .free → u.selection =
    if (t.ref i).present = true ∧ (t.ref (otherInput i)).present = true then selectionOf t.preference
    else if (t.ref i).present = true then selectionOf i
    else if (t.ref (otherInput i)).present = true then selectionOf (otherInput i)
    else .free
  realign : t.selection = .free → u.selection ≠ .free → u.realign = true
  hold : u.holdSince =
    if (u.selection = selectionOf i ∧ (u.ref i).present = true) ∨ (t.selection = .free ∧ u.selection ≠ .free) then none
    else t.holdSince
  revert : u.revertSince =
    if t.revertive = true ∧ u.selection = selectionOf (otherInput t.preference) ∧ (u.ref t.preference).present = true
    then some (if t.selection = .free then now else t.revertSince.getD now)
    else none

/-- The timebase that qualification judges the hold and the revert condition of. -/
def Timebase.holdEnded (i : RefInput) (t : Timebase) : Timebase :=
  if t.selection = selectionOf i ∧ (t.ref i).present then { t with holdSince := none } else t

theorem qualify_eq (now : Time) (i : RefInput) (t : Timebase) :
    t.qualify now i = ((t.leaveFree now).holdEnded i).judgeRevert now := rfl

/-- Ending a hold leaves everything but the hold. -/
theorem holdEnded_eq (i : RefInput) (t : Timebase) :
    t.holdEnded i = { t with
      holdSince := if t.selection = selectionOf i ∧ (t.ref i).present = true then none else t.holdSince } := by
  unfold Timebase.holdEnded
  split <;> rfl

theorem ref_eq_of {t u : Timebase} (a : u.refA = t.refA) (b : u.refB = t.refB) (j : RefInput) : u.ref j = t.ref j := by
  cases j
  · exact a
  · exact b

/-- The timer as it is judged after FREE has been left or has not (R7). -/
theorem leaveFree_revert (now : Time) (t : Timebase) :
    (if (t.leaveFree now).revertHolds then some ((t.leaveFree now).revertSince.getD now) else none) =
      if t.revertive = true ∧ (t.leaveFree now).selection = selectionOf (otherInput t.preference)
          ∧ ((t.leaveFree now).ref t.preference).present = true then
        some (if t.selection = .free then now else t.revertSince.getD now)
      else none := by
  have frame := sameFrame_leaveFree now t
  have holds := revertHolds_iff (t.leaveFree now)
  rw [frame.revertive, frame.preference] at holds
  simp only [← holds]
  by_cases runs : (t.leaveFree now).revertHolds = true
  · rw [if_pos runs, if_pos runs]
    obtain ⟨same, selected⟩ | ⟨j, free, _, selected⟩ := leaveFree_cases now t
    · have notFree : t.selection ≠ .free := by
        intro free
        have sel := (holds.1 runs).2.1
        rw [same, free] at sel
        exact selectionOf_ne_free _ sel.symm
      rw [same, if_neg notFree]
    · rw [selected, if_pos free]
      unfold Timebase.select
      rw [judgeRevert_revertSince]
      split <;> rfl
  · rw [if_neg runs, if_neg runs]

theorem qualify_qualified (now : Time) (i : RefInput) (t : Timebase) : Qualified now i t (t.qualify now i) := by
  have left := sameFrame_leaveFree now t
  have refs := leaveFree_ref now (t := t)
  have cases := leaveFree_cases now t
  have leaves := leaveFree_selection now i t
  have revert := leaveFree_revert now t
  rw [qualify_eq, holdEnded_eq]
  generalize t.leaveFree now = l at left refs cases leaves revert
  refine ⟨⟨left.frameIndex, left.frameStart, left.frameLen, left.cadence, left.nextCadenceZero, left.rate,
    left.pendingRate, left.preference, left.revertive, left.holdCode, left.schedule⟩, fun j => ?_, fun selected => ?_,
    leaves, fun free selected => ?_, ?_, revert⟩
  · rw [← refs]; cases j <;> rfl
  · obtain ⟨same, _⟩ | ⟨_, free, _⟩ := cases
    · have selection : l.selection = t.selection := congrArg _ same
      have realign : l.realign = t.realign := congrArg _ same
      exact ⟨selection, realign⟩
    · exact absurd free selected
  · obtain ⟨same, kept⟩ | ⟨_, _, _, made⟩ := cases
    · exact absurd (kept.resolve_left (not_not.2 free)) selected
    · have realign : l.realign = true := congrArg Timebase.realign made
      exact realign
  · show (if l.selection = selectionOf i ∧ (l.ref i).present = true then none else l.holdSince) =
      (if (l.selection = selectionOf i ∧ (l.ref i).present = true) ∨ (t.selection = .free ∧ l.selection ≠ .free)
        then none else t.holdSince)
    obtain ⟨same, kept⟩ | ⟨j, free, _, made⟩ := cases
    · have stays : ¬(t.selection = .free ∧ l.selection ≠ .free) := fun ⟨free, selected⟩ =>
        selected (kept.resolve_left (not_not.2 free))
      rw [same] at stays ⊢
      simp only [stays, or_false]
    · have leaves : t.selection = .free ∧ l.selection ≠ .free := ⟨free, by rw [made]; exact selectionOf_ne_free j⟩
      have ended : l.holdSince = none := congrArg Timebase.holdSince made
      rw [ended, ite_self, if_pos (Or.inr leaves)]

/-! ## What a followed pulse does to the frames (R9, R11) -/

section
variable {now : Time} {i : RefInput} {marked : Bool} {t : Timebase}

theorem judgePulse_realign_late (h : t.realign = true) (late : t.frameLen ≤ 2 * t.offset now) :
    t.judgePulse now i marked = (t.endRealigned now i, true) := by simp [Timebase.judgePulse, h, late]

theorem judgePulse_realign_early (h : t.realign = true) (early : ¬t.frameLen ≤ 2 * t.offset now) :
    t.judgePulse now i marked = (t, false) := by simp [Timebase.judgePulse, h, early]

theorem judgePulse_inStep (h : t.realign = false) (step : t.inStep now = true) :
    t.judgePulse now i marked = (if marked && t.rate.fractional then t.takeMarker now else t, false) := by
  simp [Timebase.judgePulse, h, step]

theorem judgePulse_out_late (h : t.realign = false) (step : t.inStep now = false)
    (late : t.frameLen ≤ 2 * t.offset now) :
    t.judgePulse now i marked = (({ t with realign := true } : Timebase).endRealigned now i, true) := by
  simp [Timebase.judgePulse, h, step, late]

theorem judgePulse_out_early (h : t.realign = false) (step : t.inStep now = false)
    (early : ¬t.frameLen ≤ 2 * t.offset now) :
    t.judgePulse now i marked = ({ t with realign := true }, false) := by
  simp [Timebase.judgePulse, h, step, early]

end

/-- What the frames' own work on a pulse leaves in the timebase of everything else; a rate that takes effect at a
boundary restarts the inputs' counts (R12). -/
structure Judged (t u : Timebase) (begins : Bool) : Prop where
  selection : u.selection = t.selection
  holdSince : u.holdSince = t.holdSince
  revertSince : u.revertSince = t.revertSince
  preference : u.preference = t.preference
  revertive : u.revertive = t.revertive
  holdCode : u.holdCode = t.holdCode
  refs : ∀ j, u.ref j = if begins = true ∧ t.pendingRate.isSome = true then (t.ref j).restartCount else t.ref j
  frameIndex : u.frameIndex = if begins then t.frameIndex + 1 else t.frameIndex

theorem Judged.refl (t : Timebase) : Judged t t false := ⟨rfl, rfl, rfl, rfl, rfl, rfl, fun _ => rfl, rfl⟩

theorem judged_beginFrame {t : Timebase} (now : Time) (cadence : Nat) (realign : Bool) (h : t.selection ≠ .free) :
    Judged t (t.beginFrame now cadence realign) true := by
  cases pending : t.pendingRate with
  | none =>
    rw [beginFrame_same_rate now cadence realign pending]
    exact ⟨rfl, rfl, rfl, rfl, rfl, rfl, fun j => by rw [pending]; cases j <;> rfl, rfl⟩
  | some r =>
    rw [beginFrame_settled now cadence realign pending (.inl h)]
    exact ⟨rfl, rfl, rfl, rfl, rfl, rfl, fun j => by rw [pending]; cases j <;> rfl, rfl⟩

theorem judgePulse_judged {t : Timebase} (now : Time) (i : RefInput) (marked : Bool) (h : t.selection ≠ .free) :
    Judged t (t.judgePulse now i marked).1 (t.judgePulse now i marked).2 := by
  have running (u : Timebase) (selection : u.selection = t.selection) (holdSince : u.holdSince = t.holdSince)
      (revertSince : u.revertSince = t.revertSince) (preference : u.preference = t.preference)
      (revertive : u.revertive = t.revertive) (holdCode : u.holdCode = t.holdCode) (a : u.refA = t.refA)
      (b : u.refB = t.refB) (frameIndex : u.frameIndex = t.frameIndex) : Judged t u false :=
    ⟨selection, holdSince, revertSince, preference, revertive, holdCode, fun j => ref_eq_of a b j, frameIndex⟩
  unfold Timebase.judgePulse
  dsimp only
  split
  · split
    · exact judged_beginFrame _ _ _ h
    · exact .refl t
  · split
    · dsimp only
      split
      · unfold Timebase.takeMarker
        split <;> exact running _ rfl rfl rfl rfl rfl rfl rfl rfl rfl
      · exact .refl t
    · split
      · exact ⟨(judged_beginFrame (t := { t with realign := true }) now _ _ h).selection,
          (judged_beginFrame (t := { t with realign := true }) now _ _ h).holdSince,
          (judged_beginFrame (t := { t with realign := true }) now _ _ h).revertSince,
          (judged_beginFrame (t := { t with realign := true }) now _ _ h).preference,
          (judged_beginFrame (t := { t with realign := true }) now _ _ h).revertive,
          (judged_beginFrame (t := { t with realign := true }) now _ _ h).holdCode,
          (judged_beginFrame (t := { t with realign := true }) now _ _ h).refs,
          (judged_beginFrame (t := { t with realign := true }) now _ _ h).frameIndex⟩
      · exact running _ rfl rfl rfl rfl rfl rfl rfl rfl rfl

/-! ## A pulse, whole -/

theorem pulse_followed {now : Time} {i : RefInput} {marked : Bool} {t : Timebase} (valid : t.validPulse now i = true)
    (follows : ((t.timePulse now i marked).qualify now i).follows i = true) :
    t.pulse now i marked = ((t.timePulse now i marked).qualify now i).judgePulse now i marked := by
  simp [Timebase.pulse, valid, follows]

theorem pulse_passed {now : Time} {i : RefInput} {marked : Bool} {t : Timebase}
    (h : ¬(t.validPulse now i = true ∧ ((t.timePulse now i marked).qualify now i).follows i = true)) :
    t.pulse now i marked = ((t.timePulse now i marked).qualify now i, false) := by
  unfold Timebase.pulse
  dsimp only
  rw [if_neg (by simpa using h)]

theorem follows_iff (i : RefInput) (t : Timebase) :
    t.follows i = true ↔ t.selection = selectionOf i ∧ (t.ref i).present = true := by
  simp [Timebase.follows]

theorem pulse_judged (now : Time) (i : RefInput) (marked : Bool) (t : Timebase) :
    Judged ((t.timePulse now i marked).qualify now i) (t.pulse now i marked).1 (t.pulse now i marked).2 := by
  by_cases h : t.validPulse now i = true ∧ ((t.timePulse now i marked).qualify now i).follows i = true
  · rw [pulse_followed h.1 h.2]
    refine judgePulse_judged now i marked ?_
    rw [((follows_iff ..).1 h.2).1]
    exact selectionOf_ne_free i
  · rw [pulse_passed h]
    exact .refl _

end Sys2Proof.Machine
end

section
/-! PROOF. O24 and O25: the state after a reference pulse, clause by clause. -/

namespace Sys2Proof.Machine

/-- The timebase once a pulse has been timed and its input qualified, before the frames are judged. -/
def Timebase.qualifiedBy (now : Time) (i : RefInput) (marked : Bool) (t : Timebase) : Timebase :=
  (t.timePulse now i marked).qualify now i

/-- The state after a pulse. -/
def State.pulsed (i : RefInput) (marked : Bool) (s : State) : State :=
  s.timed (s.tb.pulse s.counter i marked).1 (s.tb.pulse s.counter i marked).2

theorem exec_pulsed (i : RefInput) (marked : Bool) (s : State) :
    exec (.referencePulse i marked) s = .next (s.pulsed i marked) := rfl

/-! ## A pulse timed -/

theorem timePulse_frame (now : Time) (i : RefInput) (marked : Bool) (t : Timebase) :
    SameFrame t (t.timePulse now i marked) := sameFrame_setRef ..

theorem timePulse_rest (now : Time) (i : RefInput) (marked : Bool) (t : Timebase) :
    (t.timePulse now i marked).selection = t.selection ∧ (t.timePulse now i marked).realign = t.realign
      ∧ (t.timePulse now i marked).holdSince = t.holdSince ∧ (t.timePulse now i marked).revertSince = t.revertSince :=
  setRef_rest ..

theorem timePulse_other (now : Time) (i : RefInput) (marked : Bool) (t : Timebase) :
    (t.timePulse now i marked).ref (otherInput i) = t.ref (otherInput i) := Timebase.ref_setRef_other ..

/-- An input that was PRESENT is so after its pulse. -/
theorem timePulse_present {t : Timebase} {i : RefInput} (now : Time) (marked : Bool) (h : (t.ref i).present = true) :
    ((t.timePulse now i marked).ref i).present = true := by
  unfold Timebase.timePulse
  rw [Timebase.ref_setRef]
  simp [h]

section
variable (i : RefInput) (marked : Bool) (s : State)

theorem qualifiedBy_qualified (now : Time) (t : Timebase) :
    Qualified now i (t.timePulse now i marked) (t.qualifiedBy now i marked) := qualify_qualified ..

theorem qualifiedBy_frame (now : Time) (t : Timebase) : SameFrame t (t.qualifiedBy now i marked) :=
  (timePulse_frame ..).trans (qualifiedBy_qualified ..).frame

theorem pulsed_judged : Judged (s.tb.qualifiedBy s.counter i marked) (s.tb.pulse s.counter i marked).1
    (s.tb.pulse s.counter i marked).2 := pulse_judged ..

theorem pulsed_tb : (s.pulsed i marked).tb
    = { (s.tb.pulse s.counter i marked).1 with schedule := (s.pulsed i marked).tb.schedule } := timed_tb ..

/-! ## The timebase after a pulse -/

theorem pulsed_selection : (s.pulsed i marked).tb.selection = (s.tb.qualifiedBy s.counter i marked).selection := by
  rw [pulsed_tb]; exact (pulsed_judged i marked s).selection

theorem pulsed_holdSince : (s.pulsed i marked).tb.holdSince = (s.tb.qualifiedBy s.counter i marked).holdSince := by
  rw [pulsed_tb]; exact (pulsed_judged i marked s).holdSince

theorem pulsed_revertSince :
    (s.pulsed i marked).tb.revertSince = (s.tb.qualifiedBy s.counter i marked).revertSince := by
  rw [pulsed_tb]; exact (pulsed_judged i marked s).revertSince

theorem pulsed_settings : (s.pulsed i marked).tb.preference = s.tb.preference
    ∧ (s.pulsed i marked).tb.revertive = s.tb.revertive ∧ (s.pulsed i marked).tb.holdCode = s.tb.holdCode := by
  have judged := pulsed_judged i marked s
  have frame := qualifiedBy_frame i marked s.counter s.tb
  rw [pulsed_tb]
  exact ⟨judged.preference.trans frame.preference, judged.revertive.trans frame.revertive,
    judged.holdCode.trans frame.holdCode⟩

theorem pulsed_frameIndex : (s.pulsed i marked).tb.frameIndex
    = if (s.tb.pulse s.counter i marked).2 then s.tb.frameIndex + 1 else s.tb.frameIndex := by
  have judged := pulsed_judged i marked s
  rw [pulsed_tb]
  dsimp only
  rw [judged.frameIndex, (qualifiedBy_frame i marked s.counter s.tb).frameIndex]

theorem pulsed_begins : (s.tb.pulse s.counter i marked).2 = true
    ↔ (s.pulsed i marked).tb.frameIndex ≠ s.tb.frameIndex := by
  rw [pulsed_frameIndex]
  split <;> simp [*]

theorem withSchedule_ref (t : Timebase) (l : List SchedEntry) (j : RefInput) :
    ({ t with schedule := l } : Timebase).ref j = t.ref j := by cases j <;> rfl

/-- The inputs after a pulse: as it timed them, their counts restarted where a rate took effect (R12). -/
theorem pulsed_ref (j : RefInput) : (s.pulsed i marked).tb.ref j =
    if s.tb.pendingRate.isSome ∧ (s.pulsed i marked).tb.frameIndex ≠ s.tb.frameIndex then
      ((s.tb.timePulse s.counter i marked).ref j).restartCount
    else (s.tb.timePulse s.counter i marked).ref j := by
  have refs := (pulsed_judged i marked s).refs j
  have timed := (qualifiedBy_qualified i marked s.counter s.tb).refs j
  have pending := (qualifiedBy_frame i marked s.counter s.tb).pendingRate
  rw [timed, pending] at refs
  rw [pulsed_tb, withSchedule_ref, refs, ← pulsed_tb]
  simp only [← pulsed_begins, and_comm]

theorem pulsed_present (j : RefInput) : ((s.pulsed i marked).tb.ref j).present
    = ((s.tb.qualifiedBy s.counter i marked).ref j).present := by
  rw [pulsed_ref, (qualifiedBy_qualified i marked s.counter s.tb).refs]
  split <;> rfl

/-! ## Pulses that leave the frames -/

variable {i marked s}

/-- A pulse that is not a valid one of the followed input leaves the frames and the entries (R9). -/
theorem pulsed_passed (h : ¬(s.tb.validPulse s.counter i = true
    ∧ (s.tb.qualifiedBy s.counter i marked).follows i = true)) :
    s.pulsed i marked = s.tbStep fun _ => s.tb.qualifiedBy s.counter i marked := by
  unfold State.pulsed
  rw [pulse_passed h]
  rfl

theorem tbStep_programs (f : Timebase → Timebase) (s : State) : (s.tbStep f).programs = s.programs := by
  unfold State.tbStep
  split <;> rfl

/-- The timebase that a change of the inputs, the hold and the revert timer alone leaves. -/
theorem SameFrame.eq_of {t u : Timebase} (h : SameFrame t u) (selection : u.selection = t.selection)
    (realign : u.realign = t.realign) :
    u = { t with refA := u.refA, refB := u.refB, holdSince := u.holdSince, revertSince := u.revertSince } := by
  obtain ⟨h1, h2, h3, h4, h5, h6, h7, h8, h9, h10, h11⟩ := h
  cases t
  cases u
  simp only at *
  subst_vars
  rfl

/-- A pulse of the followed input is judged against the frame (R9, R11). -/
theorem pulsed_followed (valid : s.tb.validPulse s.counter i = true)
    (follows : (s.tb.qualifiedBy s.counter i marked).follows i = true) :
    s.tb.pulse s.counter i marked = (s.tb.qualifiedBy s.counter i marked).judgePulse s.counter i marked :=
  pulse_followed valid follows

/-! ## A boundary by a pulse (R11, R12) -/

/-- The frame that a pulse of an input has begun, the realignment complete unless a rate took effect at it. -/
structure BegunBy (now : Time) (i : RefInput) (t u : Timebase) : Prop where
  frameIndex : u.frameIndex = t.frameIndex + 1
  frameStart : u.frameStart = now
  pendingRate : u.pendingRate = none
  same : t.pendingRate = none → u.rate = t.rate ∧ u.realign = false
    ∧ u.cadence = (if t.rate.fractional = true ∧ (t.ref i).markerSeen = true then (t.ref i).cadenceCount else 0)
    ∧ u.frameLen = t.rate.length u.cadence
  changed : ∀ r, t.pendingRate = some r → u.rate = r ∧ u.realign = true ∧ u.cadence = 0 ∧ u.frameLen = r.length 0

theorem endRealigned_begun {t : Timebase} (now : Time) (i : RefInput) (h : t.selection ≠ .free) :
    BegunBy now i t (t.endRealigned now i) := by
  unfold Timebase.endRealigned
  cases pending : t.pendingRate with
  | none =>
    rw [beginFrame_same_rate now _ _ pending]
    refine ⟨rfl, rfl, pending, fun _ => ⟨rfl, rfl, ?_, rfl⟩, fun r some => by simp [pending] at some⟩
    cases t.rate.fractional <;> simp
  | some r =>
    rw [beginFrame_settled now _ _ pending (.inl h)]
    refine ⟨rfl, rfl, rfl, fun none => by simp [pending] at none, fun q same => ?_⟩
    obtain rfl : r = q := by simpa [pending] using same
    exact ⟨rfl, by simp [Timebase.rateTaken, h], rfl, rfl⟩

/-- A realignment set at the pulse itself makes no difference to the frame that it begins (R11). -/
theorem endRealigned_begun_now {t : Timebase} (now : Time) (i : RefInput) (h : t.selection ≠ .free) :
    BegunBy now i t (({ t with realign := true } : Timebase).endRealigned now i) := by
  obtain ⟨frameIndex, frameStart, pendingRate, same, changed⟩ :=
    endRealigned_begun (t := { t with realign := true }) now i h
  have ref : ({ t with realign := true } : Timebase).ref i = t.ref i := by cases i <;> rfl
  rw [ref] at same
  exact ⟨frameIndex, frameStart, pendingRate, same, changed⟩

end

/-! ## The pulse's own judgement -/

/-- R3: validity, written out. -/
theorem validPulse_of_last {t : Timebase} {i : RefInput} {p : Time} (now : Time) (h : (t.ref i).lastPulse = some p) :
    t.validPulse now i = decide ((((5 * since now p : Nat) : Int) - t.rate.fiveFrames).natAbs * 1000
      ≤ t.rate.fiveFrames) := by
  simp [Timebase.validPulse, FrameRate.validInterval, h]

theorem validPulse_of_none {t : Timebase} {i : RefInput} (now : Time) (h : (t.ref i).lastPulse = none) :
    t.validPulse now i = false := by
  simp [Timebase.validPulse, h]

/-- R3, R4: what a pulse times of its own input, for its validity. -/
theorem timePulse_self {t : Timebase} {i : RefInput} {now : Time} {valid : Bool} (marked : Bool)
    (h : t.validPulse now i = valid) : (t.timePulse now i marked).ref i =
    { present := (t.ref i).present || (valid && decide (1 ≤ (t.ref i).validRun))
      lastPulse := some now
      lastValid := if valid then some now else (t.ref i).lastValid
      validRun := if valid then min 2 ((t.ref i).validRun + 1) else 0
      markerSeen := if t.rate.fractional then marked || (t.ref i).markerSeen else (t.ref i).markerSeen
      cadenceCount :=
        if t.rate.fractional then
          (if marked then 0 else if (t.ref i).counting then ((t.ref i).cadenceCount + 1) % 5 else
            (t.ref i).cadenceCount)
        else (t.ref i).cadenceCount
      counting := if t.rate.fractional then marked || (t.ref i).counting else (t.ref i).counting } := by
  have present : decide (2 ≤ if valid = true then min 2 ((t.ref i).validRun + 1) else 0)
      = (valid && decide (1 ≤ (t.ref i).validRun)) := by
    cases valid
    · rfl
    · simp only [if_true, Bool.true_and, decide_eq_decide]
      omega
  unfold Timebase.timePulse
  rw [Timebase.ref_setRef, h]
  rw [present]
  cases t.rate.fractional <;> rfl

/-- With a realignment pending a pulse is the boundary from half the frame on, and leaves the frame running before. -/
theorem pulsed_running {i : RefInput} {marked : Bool} {s : State}
    (realign : (s.tb.qualifiedBy s.counter i marked).realign = true)
    (h : ¬(s.tb.validPulse s.counter i = true ∧ (s.tb.qualifiedBy s.counter i marked).follows i = true
      ∧ s.tb.frameLen ≤ 2 * since s.counter s.tb.frameStart)) :
    (s.pulsed i marked).tb = s.tb.qualifiedBy s.counter i marked := by
  have frame := qualifiedBy_frame i marked s.counter s.tb
  by_cases judged : s.tb.validPulse s.counter i = true ∧ (s.tb.qualifiedBy s.counter i marked).follows i = true
  · have early : ¬(s.tb.qualifiedBy s.counter i marked).frameLen
        ≤ 2 * (s.tb.qualifiedBy s.counter i marked).offset s.counter := by
      unfold Timebase.offset
      rw [frame.frameLen, frame.frameStart]
      exact fun late => h ⟨judged.1, judged.2, late⟩
    unfold State.pulsed
    rw [pulsed_followed judged.1 judged.2, judgePulse_realign_early realign early]
    exact timed_tb_running ..
  · rw [pulsed_passed judged]
    exact tbStep_tb ..

/-- A pulse that its frame ends with has begun the next one. -/
theorem pulsed_begun {i : RefInput} {marked : Bool} {s : State} {u : Timebase}
    (ends : s.tb.pulse s.counter i marked = (u, true))
    (begun : BegunBy s.counter i (s.tb.qualifiedBy s.counter i marked) u) :
    BegunBy s.counter i (s.tb.qualifiedBy s.counter i marked) (s.pulsed i marked).tb := by
  have tb := pulsed_tb i marked s
  rw [ends] at tb
  obtain ⟨frameIndex, frameStart, pendingRate, same, changed⟩ := begun
  rw [tb]
  exact ⟨frameIndex, frameStart, pendingRate, same, changed⟩

/-! ## FREE left at a pulse (R5, R10, R11) -/

section
variable {i : RefInput} {marked : Bool} {s : State}

/-- Where FREE is left for the pulse's own input, the pulse has found it PRESENT. -/
theorem pulsed_selects_present (free : s.tb.selection = .free)
    (selects : (s.pulsed i marked).tb.selection = selectionOf i) :
    ((s.tb.timePulse s.counter i marked).ref i).present = true := by
  have leaves := (qualifiedBy_qualified i marked s.counter s.tb).leaves
    ((timePulse_rest s.counter i marked s.tb).1.trans free)
  rw [← pulsed_selection, selects] at leaves
  by_contra absent
  simp only [absent, false_and, if_false] at leaves
  split at leaves
  · rw [selectionOf_inj] at leaves
    cases i <;> simp [otherInput] at leaves
  · exact selectionOf_ne_free i leaves

/-- Its pulse, valid and late, is the boundary: the realignment is complete unless a new rate takes effect. -/
theorem pulsed_left_late (free : s.tb.selection = .free) (selects : (s.pulsed i marked).tb.selection = selectionOf i)
    (valid : s.tb.validPulse s.counter i = true) (late : s.tb.frameLen ≤ 2 * since s.counter s.tb.frameStart) :
    (s.pulsed i marked).tb.frameIndex = s.tb.frameIndex + 1 ∧ (s.pulsed i marked).tb.frameStart = s.counter
      ∧ (s.pulsed i marked).tb.realign = s.tb.pendingRate.isSome
      ∧ (s.pulsed i marked).tb.rate = s.tb.pendingRate.getD s.tb.rate ∧ (s.pulsed i marked).tb.pendingRate = none := by
  have qualified := qualifiedBy_qualified i marked s.counter s.tb
  have frame := qualifiedBy_frame i marked s.counter s.tb
  have isSelected := (pulsed_selection i marked s).symm.trans selects
  have isLeft : (s.tb.qualifiedBy s.counter i marked).selection ≠ .free := isSelected ▸ selectionOf_ne_free i
  have realign := qualified.realign ((timePulse_rest s.counter i marked s.tb).1.trans free) isLeft
  have follows : (s.tb.qualifiedBy s.counter i marked).follows i = true := by
    rw [follows_iff, qualified.refs]
    exact ⟨isSelected, pulsed_selects_present free selects⟩
  have followed := pulsed_followed (marked := marked) valid follows
  have isLate : (s.tb.qualifiedBy s.counter i marked).frameLen
      ≤ 2 * (s.tb.qualifiedBy s.counter i marked).offset s.counter := by
    unfold Timebase.offset
    rw [frame.frameLen, frame.frameStart]
    exact late
  rw [judgePulse_realign_late realign isLate] at followed
  obtain ⟨frameIndex, frameStart, pendingRate, same, changed⟩ :=
    pulsed_begun followed (endRealigned_begun s.counter i isLeft)
  rw [frame.frameIndex] at frameIndex
  rw [frame.pendingRate] at same changed
  refine ⟨frameIndex, frameStart, ?_, ?_, pendingRate⟩
  · cases pending : s.tb.pendingRate with
    | none => exact (same pending).2.1
    | some r => exact (changed r pending).2.1
  · cases pending : s.tb.pendingRate with
    | none => exact (same pending).1.trans frame.rate
    | some r => exact (changed r pending).1

/-- Otherwise the frame runs on, the realignment pending. -/
theorem pulsed_left_running (free : s.tb.selection = .free) (left : (s.pulsed i marked).tb.selection ≠ .free)
    (running : ¬((s.pulsed i marked).tb.selection = selectionOf i ∧ s.tb.validPulse s.counter i = true
      ∧ s.tb.frameLen ≤ 2 * since s.counter s.tb.frameStart)) :
    let u := (s.pulsed i marked).tb
    u.realign = true ∧ u.frameIndex = s.tb.frameIndex ∧ u.frameStart = s.tb.frameStart ∧ u.frameLen = s.tb.frameLen
      ∧ u.cadence = s.tb.cadence ∧ u.rate = s.tb.rate ∧ u.pendingRate = s.tb.pendingRate
      ∧ u.schedule = s.tb.schedule := by
  have qualified := qualifiedBy_qualified i marked s.counter s.tb
  have frame := qualifiedBy_frame i marked s.counter s.tb
  have selection := pulsed_selection i marked s
  have realign := qualified.realign ((timePulse_rest s.counter i marked s.tb).1.trans free) (selection ▸ left)
  have stays := pulsed_running (i := i) (marked := marked) realign fun ⟨isValid, followed, late⟩ =>
    running ⟨selection.trans ((follows_iff ..).1 followed).1, isValid, late⟩
  rw [stays]
  exact ⟨realign, frame.frameIndex, frame.frameStart, frame.frameLen, frame.cadence, frame.rate, frame.pendingRate,
    frame.schedule⟩

end

end Sys2Proof.Machine

open Sys2Proof Sys2Proof.Machine

/-- Settles O24: the pulse is timed, its input qualified, and the frames judged; each clause is one of these. -/
theorem referencePulsesAreTimedAndQualify : Obligations.ReferencePulsesAreTimedAndQualify := by
  intro s i marked
  have qualified := qualifiedBy_qualified i marked s.counter s.tb
  have frame := qualifiedBy_frame i marked s.counter s.tb
  obtain ⟨timedSelection, timedRealign, timedHold, timedRevert⟩ := timePulse_rest s.counter i marked s.tb
  have timedFrame := timePulse_frame s.counter i marked s.tb
  have selection := pulsed_selection i marked s
  have present := pulsed_present i marked s
  obtain ⟨preference, revertive, holdCode⟩ := pulsed_settings i marked s
  have blocks := timed_blocks (s.tb.pulse s.counter i marked).1 (s.tb.pulse s.counter i marked).2 s
  refine ⟨s.pulsed i marked, exec_pulsed i marked s, ?_, ?_, ?_, preference, revertive, holdCode, fun shown => ?_,
    blocks.counter, blocks.lanes, blocks.claims, blocks.pool, blocks.dram⟩
  · intro r other valid timed held
    have judged : s.tb.validPulse s.counter i = valid := by
      cases last : (s.tb.ref i).lastPulse with
      | none => rw [validPulse_of_none _ last]; simp [valid, r, last]
      | some p => rw [validPulse_of_last _ last]; simp [valid, r, last]
    have self : (s.tb.timePulse s.counter i marked).ref i = timed := timePulse_self marked judged
    have others : (s.tb.timePulse s.counter i marked).ref (otherInput i) = other := timePulse_other ..
    have follows : (s.tb.qualifiedBy s.counter i marked).follows i = true ↔
        (s.pulsed i marked).tb.selection = selectionOf i ∧ timed.present = true := by
      rw [follows_iff, selection, qualified.refs, self]
    refine ⟨?_, ?_, fun selected => ?_, fun free => ?_, fun free left => ?_⟩
    · rw [pulsed_ref, self]; rfl
    · rw [pulsed_ref, others]; rfl
    · obtain ⟨stays, realign⟩ := qualified.stands (by rw [timedSelection]; exact selected)
      have stands := selection.trans (stays.trans timedSelection)
      refine ⟨stands, fun passed => ?_⟩
      have notJudged : ¬(s.tb.validPulse s.counter i = true
          ∧ (s.tb.qualifiedBy s.counter i marked).follows i = true) := by
        rw [judged, follows, stands]
        rintro ⟨isValid, isSelected, isPresent⟩
        obtain h | h | h := passed
        · simp [h] at isValid
        · exact h isSelected
        · simp [h] at isPresent
      rw [pulsed_passed notJudged]
      refine ⟨?_, tbStep_programs .., tbStep_link ..⟩
      rw [tbStep_tb]
      exact frame.eq_of (stays.trans timedSelection) (realign.trans timedRealign)
    · rw [selection, qualified.leaves (by rw [timedSelection]; exact free), self, others, timedFrame.preference]
    · refine ⟨fun ⟨isSelected, isValid, late⟩ => pulsed_left_late free isSelected (judged.trans isValid) late,
        fun running => pulsed_left_running free left fun ⟨isSelected, isValid, late⟩ =>
          running ⟨isSelected, judged.symm.trans isValid, late⟩⟩
  · rw [pulsed_holdSince, qualified.hold, timedHold, timedSelection, ← selection, ← present]
  · rw [pulsed_revertSince, qualified.revert, timedRevert, timedSelection, timedFrame.preference, timedFrame.revertive,
      ← selection, ← present]
  · exact (shown_leaf (.own (.time (.pulse i marked))) shown).ref

end

section
/-! PROOF. O25: a valid pulse of the followed input against the frame in progress. -/

namespace Sys2Proof.Machine

/-- A valid pulse of the selected, PRESENT input: what is judged of it, and the timebase it finds. -/
structure Followed (i : RefInput) (marked : Bool) (s : State) : Prop where
  selected : (s.tb.qualifiedBy s.counter i marked).selection ≠ .free
  realign : (s.tb.qualifiedBy s.counter i marked).realign = s.tb.realign
  judged : s.tb.pulse s.counter i marked = (s.tb.qualifiedBy s.counter i marked).judgePulse s.counter i marked

theorem followed_of_valid {i : RefInput} (marked : Bool) {s : State} {p : Time}
    (selected : s.tb.selection = selectionOf i)
    (present : (s.tb.ref i).present = true) (last : (s.tb.ref i).lastPulse = some p)
    (valid : s.tb.rate.validInterval (since s.counter p) = true) : Followed i marked s := by
  have qualified := qualifiedBy_qualified i marked s.counter s.tb
  obtain ⟨timedSelection, timedRealign, _, _⟩ := timePulse_rest s.counter i marked s.tb
  have notFree : s.tb.selection ≠ .free := by rw [selected]; exact selectionOf_ne_free i
  obtain ⟨stays, realign⟩ := qualified.stands (by rw [timedSelection]; exact notFree)
  have stands := stays.trans timedSelection
  refine ⟨stands ▸ notFree, realign.trans timedRealign, pulsed_followed ?_ ?_⟩
  · simpa [Timebase.validPulse, last] using valid
  · rw [follows_iff, qualified.refs]
    exact ⟨stands.trans selected, timePulse_present _ _ present⟩

namespace Followed

variable {i : RefInput} {marked : Bool} {s : State} (h : Followed i marked s)
include h

/-- The timebase after a pulse that leaves the frame running. -/
theorem tb_running {u : Timebase}
    (judged : (s.tb.qualifiedBy s.counter i marked).judgePulse s.counter i marked = (u, false)) :
    (s.pulsed i marked).tb = u := by
  unfold State.pulsed
  rw [h.judged, judged]
  exact timed_tb_running ..

/-- The frame that a pulse has begun, and the inputs at it. -/
theorem begun {u : Timebase}
    (judged : (s.tb.qualifiedBy s.counter i marked).judgePulse s.counter i marked = (u, true))
    (begun : BegunBy s.counter i (s.tb.qualifiedBy s.counter i marked) u) :
    let t := s.pulsed i marked
    t.tb.frameIndex = s.tb.frameIndex + 1 ∧ t.tb.frameStart = s.counter ∧ t.tb.pendingRate = none
      ∧ (s.tb.pendingRate = none → t.tb.rate = s.tb.rate ∧ t.tb.realign = false
        ∧ t.tb.cadence =
          (if s.tb.rate.fractional ∧ (t.tb.ref i).markerSeen then (t.tb.ref i).cadenceCount else 0)
        ∧ t.tb.frameLen = s.tb.rate.length t.tb.cadence)
      ∧ ∀ r, s.tb.pendingRate = some r → t.tb.rate = r ∧ t.tb.realign = true ∧ t.tb.cadence = 0
        ∧ t.tb.frameLen = r.length 0
        ∧ ∀ j, (t.tb.ref j).markerSeen = false ∧ (t.tb.ref j).cadenceCount = 0 := by
  intro t
  have frame := qualifiedBy_frame i marked s.counter s.tb
  have refs := (qualifiedBy_qualified i marked s.counter s.tb).refs
  have ends : s.tb.pulse s.counter i marked = (u, true) := h.judged.trans judged
  have begins : t.tb.frameIndex ≠ s.tb.frameIndex := (pulsed_begins i marked s).1 (by rw [ends])
  obtain ⟨frameIndex, frameStart, pendingRate, same, changed⟩ := pulsed_begun ends begun
  rw [frame.pendingRate, frame.rate] at same
  rw [frame.pendingRate] at changed
  refine ⟨frameIndex.trans (by rw [frame.frameIndex]), frameStart, pendingRate, fun none => ?_, fun r pending => ?_⟩
  · have ref : t.tb.ref i = (s.tb.qualifiedBy s.counter i marked).ref i := by
      show (s.pulsed i marked).tb.ref i = _
      rw [pulsed_ref, refs, if_neg (by simp [none])]
    rw [ref]
    exact same none
  · obtain ⟨rate, realign, cadence, frameLen⟩ := changed r pending
    refine ⟨rate, realign, cadence, frameLen, fun j => ?_⟩
    have ref : t.tb.ref j = ((s.tb.timePulse s.counter i marked).ref j).restartCount := by
      show (s.pulsed i marked).tb.ref j = _
      rw [pulsed_ref, if_pos ⟨by simp [pending], begins⟩]
    rw [ref]
    exact ⟨rfl, rfl⟩

end Followed

end Sys2Proof.Machine

open Sys2Proof Sys2Proof.Machine

/-- Settles O25: the five offsets of a followed pulse are the five branches of its judgement. -/
theorem selectedPulsesKeepOrRealignTheFrame : Obligations.SelectedPulsesKeepOrRealignTheFrame := by
  intro s i marked p selected present last valid
  have followed := followed_of_valid marked selected present last valid
  have frame := qualifiedBy_frame i marked s.counter s.tb
  refine ⟨s.pulsed i marked, exec_pulsed i marked s, ?_⟩
  intro o l sets boundary same runsOn unmoved
  have offset : (s.tb.qualifiedBy s.counter i marked).offset s.counter = o := by
    unfold Timebase.offset; rw [frame.frameStart]
  have lateIff : (s.tb.qualifiedBy s.counter i marked).frameLen
      ≤ 2 * (s.tb.qualifiedBy s.counter i marked).offset s.counter ↔ l ≤ 2 * o := by
    rw [offset, frame.frameLen]
  have stepIff : (s.tb.qualifiedBy s.counter i marked).inStep s.counter = true ↔ o ≤ 2 ∨ l ≤ o + 2 := by
    unfold Timebase.inStep
    rw [offset, frame.frameLen]
    simp [l]
  have realign := followed.realign
  have runs (u : Timebase) (stays : SameFrame (s.tb.qualifiedBy s.counter i marked) u)
      (running : (s.pulsed i marked).tb = u) : unmoved := by
    have kept := frame.trans stays
    rw [← running] at kept
    exact ⟨⟨⟨kept.frameIndex, kept.frameStart, kept.rate, kept.pendingRate, kept.schedule⟩, kept.frameLen,
      kept.cadence⟩,
      kept.nextCadenceZero⟩
  refine ⟨fun settled near => ?_, fun settled after before early => ?_, fun settled after before late => ?_,
    fun pending late => ?_, fun pending early => ?_⟩
  · have judged := judgePulse_inStep (i := i) (marked := marked) (realign.trans settled) (stepIff.2 near)
    have tb := followed.tb_running judged
    rw [frame.rate] at tb
    refine ⟨?_, fun unset => ?_, fun set start => ?_, fun set far => ?_⟩
    · rw [tb]
      split
      · unfold Timebase.takeMarker
        split <;> exact realign.trans settled
      · exact realign.trans settled
    · rw [if_neg (by simpa [sets] using unset)] at tb
      exact runs _ (.refl _) tb
    · rw [if_pos (by simpa [sets] using set), Timebase.takeMarker, if_pos (by rw [offset]; exact start)] at tb
      simp only [same, tb]
      exact ⟨⟨frame.frameIndex, frame.frameStart, frame.rate, frame.pendingRate, frame.schedule⟩, trivial,
        congrArg (FrameRate.length · 0) frame.rate⟩
    · rw [if_pos (by simpa [sets] using set), Timebase.takeMarker, if_neg (by rw [offset]; omega)] at tb
      simp only [runsOn, same, tb]
      exact ⟨⟨⟨frame.frameIndex, frame.frameStart, frame.rate, frame.pendingRate, frame.schedule⟩, frame.frameLen,
        frame.cadence⟩, trivial⟩
  · have out : (s.tb.qualifiedBy s.counter i marked).inStep s.counter = false := by
      rw [← Bool.not_eq_true, stepIff]; omega
    have tb := followed.tb_running (judgePulse_out_early (realign.trans settled) out (by rw [lateIff]; omega))
    refine ⟨runs _ ?_ tb, by rw [tb]⟩
    exact ⟨rfl, rfl, rfl, rfl, rfl, rfl, rfl, rfl, rfl, rfl, rfl⟩
  · have out : (s.tb.qualifiedBy s.counter i marked).inStep s.counter = false := by
      rw [← Bool.not_eq_true, stepIff]; omega
    exact followed.begun (judgePulse_out_late (realign.trans settled) out (lateIff.2 late))
      (endRealigned_begun_now s.counter i followed.selected)
  · exact followed.begun (judgePulse_realign_late (realign.trans pending) (lateIff.2 late))
      (endRealigned_begun s.counter i followed.selected)
  · have tb := followed.tb_running
      (judgePulse_realign_early (marked := marked) (i := i) (realign.trans pending) (by rw [lateIff]; omega))
    exact ⟨runs _ (.refl _) tb, by rw [tb]; exact realign.trans pending⟩

end

section
/-! PROOF. O26: loss, hold and revert of the references. -/

namespace Sys2Proof.Machine

/-! ## Steps of the timebase alone -/

/-- A step of the timebase reaches the timebase and the REF_LOSS point alone. -/
theorem tbStep_only (f : Timebase → Timebase) (s : State) : OnlyTimebase s (s.tbStep f) := by
  unfold State.tbStep
  split
  · exact ⟨rfl, .refl _, fun _ _ => rfl⟩
  · exact ⟨rfl, keepsSettings_handRaw .., fun pt ne => handRaw_point_ne _ _ _ ne.symm⟩

theorem tbStep_tb_of (f : Timebase → Timebase) (s : State) : (s.tbStep f).tb = f s.tb := by
  unfold State.tbStep
  split
  · rename_i same; exact same.symm
  · rfl

/-- After a step of the timebase the REF_LOSS point shows it, where the points showed it before. -/
theorem tbStep_raw {s : State} (f : Timebase → Timebase) (h : s.Shown) :
    ((s.tbStep f).alarm.point refLossPoint).raw = (f s.tb).refLoss := by
  unfold State.tbStep
  split
  · rename_i same; rw [same]; exact h.ref
  · exact handRaw_raw ..

/-! ## An input selected (R5 to R7, R10) -/

/-- A change of the selection to an input, written out with the revert timer that it leaves. -/
theorem select_eq (j : RefInput) (s : State) : s.tb.select s.counter j =
    { s.tb with selection := selectionOf j, realign := true, holdSince := none, revertSince := s.revertAfter j } := by
  have other : selectionOf j = selectionOf (otherInput s.tb.preference) ↔ j ≠ s.tb.preference := by
    rw [selectionOf_inj]
    cases j <;> cases s.tb.preference <;> simp [otherInput]
  have holds : ({ s.tb with selection := selectionOf j, realign := true, holdSince := none, revertSince := none
      } : Timebase).revertHolds = true
      ↔ s.tb.revertive = true ∧ j ≠ s.tb.preference ∧ (s.tb.ref s.tb.preference).present = true := by
    rw [revertHolds_iff, ← other]
    cases s.tb.preference <;> rfl
  unfold Timebase.select Timebase.judgeRevert State.revertAfter
  simp only [holds, Option.getD_none]

theorem select_frame_same (now : Time) (j : RefInput) (t : Timebase) : SameFrame t (t.select now j) :=
  ⟨rfl, rfl, rfl, rfl, rfl, rfl, rfl, rfl, rfl, rfl, rfl⟩

theorem select_ref (now : Time) (j k : RefInput) (t : Timebase) : (t.select now j).ref k = t.ref k := by
  cases k <;> rfl

theorem select_refLoss (now : Time) (j : RefInput) (t : Timebase) : (t.select now j).refLoss = t.refLoss := by
  unfold Timebase.refLoss
  rw [(select_frame_same now j t).preference, select_ref]

theorem selectionOf_input (j : RefInput) : (selectionOf j).input = some j := by cases j <;> rfl

/-- What a pulse already timed does after a change of the selection, told from the state before (R11). -/
theorem select_countPulse (now : Time) (j : RefInput) (t : Timebase) : (t.select now j).countPulse now =
    if (t.ref j).present = true ∧ (t.ref j).lastValid = some now then (t.select now j).judgePulse now j false
    else (t.select now j, false) := by
  have selection : (t.select now j).selection = selectionOf j := rfl
  unfold Timebase.countPulse
  rw [selection, selectionOf_input]
  simp only [Timebase.follows, selection, select_ref, beq_self_eq_true, Bool.true_and, Bool.and_eq_true, beq_iff_eq]

/-- Without a late pulse of the input the frame runs on (R10). -/
theorem select_counts_nothing {s : State} {j : RefInput} (h : ¬s.PulsedLate j) :
    (s.tb.select s.counter j).countPulse s.counter = (s.tb.select s.counter j, false) := by
  rw [select_countPulse]
  split
  · rename_i pulsed
    exact judgePulse_realign_early (t := s.tb.select s.counter j) rfl fun late => h ⟨pulsed.2, late⟩
  · rfl

/-- A late pulse of the input ends the frame (R11). -/
theorem select_counts_boundary {s : State} {j : RefInput} (present : (s.tb.ref j).present = true) (h : s.PulsedLate j) :
    (s.tb.select s.counter j).countPulse s.counter = ((s.tb.select s.counter j).endRealigned s.counter j, true) := by
  rw [select_countPulse, if_pos ⟨present, h.1⟩]
  exact judgePulse_realign_late (t := s.tb.select s.counter j) rfl h.2

/-! ## A change of the selection at its timer's end -/

theorem changeSelection_eq (f : Timebase → Timebase) (s : State) :
    s.changeSelection f = s.timed ((f s.tb).countPulse s.counter).1 ((f s.tb).countPulse s.counter).2 := rfl

/-- The selection changes and nothing else. -/
theorem changeSelection_running {s : State} {f : Timebase → Timebase} {u : Timebase} (shown : s.Shown)
    (counted : (f s.tb).countPulse s.counter = (u, false)) (loss : u.refLoss = s.tb.refLoss) :
    s.changeSelection f = { s with tb := u } := by
  rw [changeSelection_eq, counted]
  exact tbStep_shown (f := fun _ => u) loss shown

/-- The input that is selected has begun the next frame with its pulse. -/
theorem changeSelection_realigned {s : State} {f : Timebase → Timebase} {j : RefInput}
    (made : f s.tb = s.tb.select s.counter j) (present : (s.tb.ref j).present = true) (late : s.PulsedLate j) :
    (s.changeSelection f).RealignedOn j s := by
  have counted := select_counts_boundary present late
  have selection : (s.tb.select s.counter j).selection ≠ .free := selectionOf_ne_free j
  have judged : Judged (s.tb.select s.counter j) ((s.tb.select s.counter j).endRealigned s.counter j) true :=
    judged_beginFrame _ _ _ selection
  have begun := endRealigned_begun s.counter j selection
  have revert : (s.tb.select s.counter j).revertSince = s.revertAfter j := congrArg _ (select_eq j s)
  rw [changeSelection_eq, made, counted]
  generalize (s.tb.select s.counter j).endRealigned s.counter j = u at judged begun
  have blocks := timed_blocks u true s
  have tb := timed_tb u true s
  obtain ⟨frameIndex, frameStart, pendingRate, same, changed⟩ := begun
  rw [select_ref] at same
  unfold State.RealignedOn
  rw [tb]
  refine ⟨judged.selection, judged.holdSince, judged.revertSince.trans revert, frameIndex, frameStart, ?_, ?_, ?_,
    fun none => (same none).2.2.1, fun some => ?_, blocks.counter, blocks.lanes, blocks.claims, blocks.pool,
      blocks.dram⟩
  · cases pending : s.tb.pendingRate with
    | none => exact (same pending).2.1
    | some r => exact (changed r pending).2.1
  · cases pending : s.tb.pendingRate with
    | none => exact (same pending).1
    | some r => exact (changed r pending).1
  · cases pending : s.tb.pendingRate with
    | none =>
      obtain ⟨rate, _, _, frameLen⟩ := same pending
      dsimp only
      rw [frameLen, rate]
    | some r =>
      obtain ⟨rate, _, cadence, frameLen⟩ := changed r pending
      dsimp only
      rw [frameLen, rate, cadence]
  · obtain ⟨r, pending⟩ := Option.isSome_iff_exists.1 some
    exact (changed r pending).2.2.1

/-! ### The hold runs out (R6) -/

section
variable {s : State} {i : RefInput}

/-- R153: a hold whose time has passed is due; the code "never" does not run out. -/
theorem holdDue_of_out {h : Time} {n : Nat} (hold : s.tb.holdSince = some h)
    (code : intervalSamples s.tb.holdCode = some n) (out : n ≤ since s.counter h) : s.tb.holdDue s.counter = true := by
  simp [Timebase.holdDue, hold, timeOut, code, out]

theorem holdExpiry_due (due : s.tb.holdDue s.counter = true) :
    s.holdExpiry = s.changeSelection (Timebase.holdExpire s.counter) := by
  rw [State.holdExpiry, if_pos due]

theorem holdExpire_present (selected : s.tb.selection = selectionOf i)
    (present : (s.tb.ref (otherInput i)).present = true) :
    s.tb.holdExpire s.counter = s.tb.select s.counter (otherInput i) := by
  simp only [Timebase.holdExpire, selected, selectionOf_input, present, if_true]

/-- The other input is selected, and the frame runs on. -/
theorem holdExpiry_running (shown : s.Shown) (due : s.tb.holdDue s.counter = true)
    (selected : s.tb.selection = selectionOf i) (present : (s.tb.ref (otherInput i)).present = true)
    (early : ¬s.PulsedLate (otherInput i)) : s.holdExpiry = { s with tb :=
      { s.tb with
        selection := selectionOf (otherInput i), realign := true, holdSince := none
        revertSince := s.revertAfter (otherInput i) } } := by
  rw [holdExpiry_due due, changeSelection_running shown
    (by rw [holdExpire_present selected present]; exact select_counts_nothing early) (select_refLoss ..), select_eq]

/-- The other input is selected, and its pulse has begun the next frame. -/
theorem holdExpiry_realigned (due : s.tb.holdDue s.counter = true)
    (selected : s.tb.selection = selectionOf i) (present : (s.tb.ref (otherInput i)).present = true)
    (late : s.PulsedLate (otherInput i)) : s.holdExpiry.RealignedOn (otherInput i) s := by
  rw [holdExpiry_due due]
  exact changeSelection_realigned (holdExpire_present selected present) present late

/-- With the other input ABSENT the selection goes to FREE. -/
theorem holdExpiry_free (shown : s.Shown) (due : s.tb.holdDue s.counter = true)
    (selected : s.tb.selection = selectionOf i) (absent : (s.tb.ref (otherInput i)).present = false) :
    s.holdExpiry = { s with tb :=
      { s.tb with selection := .free, realign := false, holdSince := none, revertSince := none } } := by
  have expire : s.tb.holdExpire s.counter =
      { s.tb with selection := .free, realign := false, holdSince := none, revertSince := none } := by
    simp [Timebase.holdExpire, selected, selectionOf_input, absent]
  have loss : ({ s.tb with selection := .free, realign := false, holdSince := none, revertSince := none
      } : Timebase).refLoss = s.tb.refLoss := by
    unfold Timebase.refLoss
    cases s.tb.preference <;> rfl
  rw [holdExpiry_due due, changeSelection_running shown (by rw [expire]; rfl) loss]

end

/-! ## Loss (R3, R4, R6) -/

theorem lose_ref_self (now : Time) (i : RefInput) (t : Timebase) :
    (t.lose now i).ref i = { t.ref i with present := false, markerSeen := false, validRun := 0 } := by
  unfold Timebase.lose Timebase.judgeRevert
  cases i <;> dsimp only <;> split <;> rfl

theorem lose_ref_other (now : Time) (i : RefInput) (t : Timebase) :
    (t.lose now i).ref (otherInput i) = t.ref (otherInput i) := by
  unfold Timebase.lose Timebase.judgeRevert
  cases i <;> dsimp only <;> split <;> rfl

/-- A loss of the selected input starts the hold and drops the realignment; nothing else of the frames moves. -/
theorem lose_rest (now : Time) (i : RefInput) (t : Timebase) : SameFrame t (t.lose now i)
    ∧ (t.lose now i).selection = t.selection
    ∧ (t.lose now i).holdSince = (if t.selection = selectionOf i then some now else t.holdSince)
    ∧ (t.lose now i).realign = (if t.selection = selectionOf i then false else t.realign) := by
  have frame := sameFrame_setRef i { t.ref i with present := false, markerSeen := false, validRun := 0 } t
  obtain ⟨selection, realign, hold, _⟩ :=
    setRef_rest i { t.ref i with present := false, markerSeen := false, validRun := 0 } t
  unfold Timebase.lose
  generalize t.setRef i { t.ref i with present := false, markerSeen := false, validRun := 0 } = u
    at frame selection realign hold ⊢
  unfold Timebase.judgeRevert
  dsimp only
  rw [selection]
  split
  · exact ⟨⟨frame.frameIndex, frame.frameStart, frame.frameLen, frame.cadence, frame.nextCadenceZero, frame.rate,
      frame.pendingRate, frame.preference, frame.revertive, frame.holdCode, frame.schedule⟩, rfl, rfl, rfl⟩
  · exact ⟨⟨frame.frameIndex, frame.frameStart, frame.frameLen, frame.cadence, frame.nextCadenceZero, frame.rate,
      frame.pendingRate, frame.preference, frame.revertive, frame.holdCode, frame.schedule⟩, selection, hold, realign⟩

theorem lose_revertSince (now : Time) (i : RefInput) (t : Timebase) : (t.lose now i).revertSince =
    if i ≠ t.preference ∧ t.revertive = true ∧ t.selection = selectionOf (otherInput t.preference)
        ∧ (t.ref t.preference).present = true then some (t.revertSince.getD now) else none := by
  have judged : ∃ u : Timebase, t.lose now i = u.judgeRevert now ∧ u.revertSince = t.revertSince := by
    refine ⟨_, rfl, ?_⟩
    dsimp only
    split <;> exact (setRef_rest ..).2.2.2
  obtain ⟨u, made, kept⟩ := judged
  have frame := (lose_rest now i t).1
  have selection := (lose_rest now i t).2.1
  have presence : ((t.lose now i).ref t.preference).present = true
      ↔ i ≠ t.preference ∧ (t.ref t.preference).present = true := by
    by_cases same : i = t.preference
    · subst same
      rw [lose_ref_self]
      simp
    · have other : t.preference = otherInput i := by
        revert same
        cases i <;> cases t.preference <;> simp [otherInput]
      rw [other, lose_ref_other]
      cases i <;> simp [otherInput]
  have holds := revertHolds_iff (t.lose now i)
  rw [frame.revertive, frame.preference, selection, presence] at holds
  have holdsU : (t.lose now i).revertHolds = u.revertHolds := by
    rw [made]
    cases h : u.preference <;> simp [Timebase.revertHolds, Timebase.judgeRevert, Timebase.ref, h]
  have timer : (t.lose now i).revertSince = if u.revertHolds then some (u.revertSince.getD now) else none := by
    rw [made]; rfl
  rw [timer, ← holdsU, kept]
  refine if_congr (holds.trans ?_) rfl rfl
  constructor
  · rintro ⟨revertive, selected, ne, present⟩
    exact ⟨ne, revertive, selected, present⟩
  · rintro ⟨ne, revertive, selected, present⟩
    exact ⟨revertive, selected, ne, present⟩

theorem lose_refLoss (now : Time) (i : RefInput) (t : Timebase) :
    (t.lose now i).refLoss = if i = t.preference then true else t.refLoss := by
  unfold Timebase.refLoss
  rw [(lose_rest now i t).1.preference]
  by_cases same : i = t.preference
  · subst same
    rw [lose_ref_self]
    simp
  · have other : t.preference = otherInput i := by
      revert same
      cases i <;> cases t.preference <;> simp [otherInput]
    rw [if_neg same, other, lose_ref_other]

end Sys2Proof.Machine

open Sys2Proof Sys2Proof.Machine

/-- Settles O26: the loss of an input, and the selection changed by the hold's end and by the revert timer's. -/
theorem referencesAreLostHeldAndReverted : Obligations.ReferencesAreLostHeldAndReverted := by
  refine ⟨fun s i v shown present last => ⟨fun early => ?_, fun late => ?_⟩, 
    fun s i h n shown selected hold code out => ?_,
    fun s never => ?_, fun s r shown since out => ?_⟩
  · have notDue : s.tb.lossDue s.counter i = false := by
      simp only [Timebase.lossDue, present, last, FrameRate.overdue, Bool.true_and, decide_eq_false_iff_not]
      omega
    simp [exec_referenceLost, State.referenceLost, notDue]
  · have due : s.tb.lossDue s.counter i = true := by
      simp only [Timebase.lossDue, present, last, FrameRate.overdue, Bool.true_and, decide_eq_true_eq]
      exact late
    have tb := tbStep_tb_of (Timebase.lose s.counter i) s
    obtain ⟨frame, selection, holdSince, realign⟩ := lose_rest s.counter i s.tb
    refine ⟨s.tbStep (Timebase.lose s.counter i), ?_, tbStep_only .., ?_⟩
    · rw [exec_referenceLost, State.referenceLost, if_pos due]
    · rw [tbStep_raw _ shown, lose_refLoss, tb, shown.ref]
      exact ⟨lose_ref_self .., lose_ref_other .., selection, holdSince, realign, lose_revertSince .., rfl,
        frame.frameIndex, frame.frameStart, frame.schedule⟩
  · have due := holdDue_of_out hold code out
    rw [exec_referenceHoldExpiry]
    exact ⟨fun present early => by rw [holdExpiry_running shown due selected present early],
      fun present late => ⟨_, rfl, holdExpiry_realigned due selected present late⟩,
      fun absent => by rw [holdExpiry_free shown due selected absent]⟩
  · have notDue : s.tb.holdDue s.counter = false := by
      unfold Timebase.holdDue
      split
      · simp [timeOut, never]
      · rfl
    simp [exec_referenceHoldExpiry, State.holdExpiry, notDue]
  · have due : s.tb.revertDue s.counter = true := by simp [Timebase.revertDue, since, out]
    have expiry : exec .revertTimerExpiry s = .next (s.changeSelection (Timebase.revert s.counter)) := by
      rw [exec_revertTimerExpiry, State.revertExpiry, if_pos due]
    have dropped : s.revertAfter s.tb.preference = none := by simp [State.revertAfter]
    rw [expiry]
    refine ⟨fun early => ?_, fun present late => ⟨_, rfl, changeSelection_realigned rfl present late⟩⟩
    rw [changeSelection_running (f := Timebase.revert s.counter) shown (select_counts_nothing early)
      (select_refLoss ..),
      select_eq, dropped]

end

section
/-! PROOF. Requests that find the link free, and two of them: SET_TIMEBASE (O27) and SCHEDULE (O28). -/

namespace Sys2Proof.Machine

/-! ## A request taken at once (R179 to R183) -/

/-- With the link free a request that the completion reserve does not hold back is judged at once. -/
theorem present_taken {s : State} {tag : Byte} {r : Request} (free : s.LinkFree)
    (held : s.heldBack (requestKind r) tag = false) :
    s.present tag r = (s.judge tag r).placed (requestKind r) tag := by
  simp [State.present, State.mayTake, State.starting, free.buffer, free.reply, free.sizingEnded, held]

/-- A request that opens no operation is handed to its owner. -/
theorem judge_answer {tag : Byte} {r : Request} (opens : opensOp r = false) (s : State) :
    s.judge tag r = s.answer tag r := by simp [State.judge, opens]

/-- The reply that an answer places. -/
theorem placed_eq (kind tag : Byte) (a : Answer) : a.placed kind tag = a.state.replied kind tag a.result a.report := rfl

/-- With the link free a request that takes no tag is answered by its owner, and its reply placed. -/
theorem exec_answered {c : Instr} {tag : Byte} {r : Request} {s : State} (request : requestOf c = some (tag, r))
    (free : s.LinkFree) (opens : opensOp r = false) (takes : takesTag (requestKind r) = false) :
    exec c s = .next ((s.answer tag r).state.replied (requestKind r) tag (s.answer tag r).result
      (s.answer tag r).report) := by
  rw [exec_request request, present_taken free (by simp [State.heldBack, takes]), judge_answer opens, placed_eq]

theorem exec_refused {c : Instr} {tag : Byte} {r : Request} {s : State} {e : Result}
    (request : requestOf c = some (tag, r))
    (free : s.LinkFree) (opens : opensOp r = false) (takes : takesTag (requestKind r) = false)
    (refused : s.answer tag r = .refuse e s) : exec c s = .next (s.replied (requestKind r) tag e []) := by
  rw [exec_answered request free opens takes, refused]
  rfl

/-! ## Values of a request (R194) -/

theorem rateOfCode_none {b : Byte} (h : 6 ≤ b.toNat) : rateOfCode b = none := by
  simp [rateOfCode, h]

theorem refOfByte_none {b : Byte} (h : 2 ≤ b.toNat) : refOfByte b = none := by
  simpa [refOfByte] using Nat.lt_of_succ_le h

theorem flagOfByte_none {b : Byte} (h : 2 ≤ b.toNat) : flagOfByte b = none := by
  simpa [flagOfByte] using Nat.lt_of_succ_le h

theorem rateOfCode_code {b : Byte} {r : FrameRate} (h : r.code = b.toNat) : rateOfCode b = some r := by
  unfold rateOfCode
  rw [← h]
  cases r <;> rfl

theorem refOfByte_code {b : Byte} {p : RefInput} (h : refCode p = b.toNat) : refOfByte b = some p := by
  unfold refOfByte
  rw [← h]
  cases p <;> rfl

theorem flagOfByte_code {b : Byte} {v : Bool} (h : flagCode v = b.toNat) : flagOfByte b = some v := by
  unfold flagOfByte
  rw [← h]
  cases v <;> rfl

/-! ## SET_TIMEBASE (R13) -/

section
variable {s : State} {rate pref rev hold : Byte}

theorem setTimebase_refused (h : 6 ≤ rate.toNat ∨ 2 ≤ pref.toNat ∨ 2 ≤ rev.toNat) :
    s.setTimebase rate pref rev hold = .refuse .badValue s := by
  unfold State.setTimebase
  obtain h | h | h := h
  · rw [rateOfCode_none h]
  · rw [refOfByte_none h]
    split <;> simp_all
  · rw [flagOfByte_none h]
    split <;> simp_all

theorem setTimebase_taken {r : FrameRate} {p : RefInput} {v : Bool} (hr : r.code = rate.toNat)
    (hp : refCode p = pref.toNat) (hv : flagCode v = rev.toNat) : s.setTimebase rate pref rev hold
      = .ok (s.tbStep (Timebase.configure s.counter r p v hold)).holdExpiry := by
  unfold State.setTimebase
  rw [rateOfCode_code hr, refOfByte_code hp, flagOfByte_code hv]

end

/-- The settings taken leave the inputs. -/
theorem configure_ref (now : Time) (r : FrameRate) (p : RefInput) (v : Bool) (hold : Byte) (j : RefInput)
    (t : Timebase) :
    (t.configure now r p v hold).ref j = t.ref j := by cases j <;> rfl

/-- The revert timer after the settings have been taken (R7, R13). -/
theorem configure_revertSince (now : Time) (r : FrameRate) (p : RefInput) (v : Bool) (hold : Byte) (t : Timebase) :
    (t.configure now r p v hold).revertSince =
      if v = true ∧ t.selection = selectionOf (otherInput p) ∧ (t.ref p).present = true then
        some (t.revertSince.getD now) else none := by
  have holds := revertHolds_iff { t with
    pendingRate := if r = t.rate then none else some r
    preference := p, revertive := v, holdCode := hold }
  have ref : ({ t with
    pendingRate := if r = t.rate then none else some r
    preference := p, revertive := v, holdCode := hold } : Timebase).ref p = t.ref p := by cases p <;> rfl
  dsimp only at holds
  rw [ref] at holds
  unfold Timebase.configure
  rw [judgeRevert_revertSince]
  simp only [holds]

/-- A hold whose time has not passed is not due. -/
theorem holdDue_of_before {t : Timebase} {now : Time}
    (before : ∀ h n, t.holdSince = some h → intervalSamples t.holdCode = some n → since now h < n) :
    t.holdDue now = false := by
  unfold Timebase.holdDue timeOut
  split
  · rename_i h hold
    split
    · rename_i n code
      simpa using before h n hold code
    · rfl
  · rfl

/-! ## SCHEDULE (R16, R17) -/

theorem schedulable_iff (kind : Byte) :
    schedulable kind = true ↔ kind ∈ ([0x21, 0x22, 0x24, 0x30, 0x29, 0x28, 0x38] : List Byte) := by
  simp [schedulable, BitVec.toNat_eq]

/-- R16: an entry stands after those due no later, and before those due later. -/
theorem insertEntry_split (e : SchedEntry) (l : List SchedEntry) : ∃ before after, l = before ++ after
    ∧ (l.Pairwise (fun a b => a.due.toNat ≤ b.due.toNat) →
      (∀ x ∈ before, x.due.toNat ≤ e.due.toNat) ∧ ∀ x ∈ after, e.due.toNat < x.due.toNat)
    ∧ insertEntry e l = before ++ e :: after := by
  induction l with
  | nil => exact ⟨[], [], rfl, fun _ => by simp, rfl⟩
  | cons x rest ih =>
    by_cases less : e.due.toNat < x.due.toNat
    · refine ⟨[], x :: rest, rfl, fun sorted => ⟨by simp, fun y hy => ?_⟩, by simp [insertEntry, less]⟩
      obtain rfl | mem := List.mem_cons.1 hy
      · exact less
      · exact less.trans_le ((List.pairwise_cons.1 sorted).1 y mem)
    · obtain ⟨before, after, rfl, ordered, inserted⟩ := ih
      refine ⟨x :: before, after, rfl, fun sorted => ?_, by simp [insertEntry, less, inserted]⟩
      obtain ⟨earlier, later⟩ := ordered (List.pairwise_cons.1 sorted).2
      exact ⟨List.forall_mem_cons.2 ⟨Nat.not_lt.1 less, earlier⟩, later⟩

end Sys2Proof.Machine

open Sys2Proof Sys2Proof.Machine

/-- Settles O27: the settings are taken as a step of the timebase, and the hold's own expiry follows. -/
theorem setTimebaseTakesFourSettings : Obligations.SetTimebaseTakesFourSettings := by
  intro s tag rate pref rev hold free
  refine ⟨fun out => exec_refused (r := .setTimebase rate pref rev hold) rfl free rfl rfl (setTimebase_refused out),
    fun r p v hr hp hv => ?_⟩
  have tb := tbStep_tb_of (Timebase.configure s.counter r p v hold) s
  have counter : (s.tbStep (Timebase.configure s.counter r p v hold)).counter = s.counter := by
    unfold State.tbStep
    split <;> rfl
  have raw := tbStep_raw (s := s) (Timebase.configure s.counter r p v hold)
  have shows (h : s.Shown) : (s.tbStep (Timebase.configure s.counter r p v hold)).Shown :=
    shown_leaf (.own (.time (.configure r p v hold))) h
  have only := tbStep_only (Timebase.configure s.counter r p v hold) s
  have answered : s.answer tag (.setTimebase rate pref rev hold)
      = .ok (s.tbStep (Timebase.configure s.counter r p v hold)).holdExpiry := setTimebase_taken hr hp hv
  generalize s.tbStep (Timebase.configure s.counter r p v hold) = t at tb counter raw shows only answered
  have pulsed (j : RefInput) : t.PulsedLate j ↔ s.PulsedLate j := by
    unfold State.PulsedLate
    rw [tb, configure_ref, counter]
    rfl
  refine ⟨t, t.holdExpiry, only, ?_, ?_, fun shown => ?_, exec_referenceHoldExpiry t, ?_, fun before => ?_, ?_⟩
  · rw [tb]; rfl
  · rw [tb, configure_revertSince]
  · rw [raw shown]
    show (!((s.tb.configure s.counter r p v hold).ref p).present) = _
    rw [configure_ref]
  · rw [exec_answered (r := .setTimebase rate pref rev hold) rfl free rfl rfl, answered]
    rfl
  · have notDue : t.tb.holdDue t.counter = false := holdDue_of_before (by rw [tb, counter]; exact before)
    simp [State.holdExpiry, notDue]
  · intro h n i shown held code out selected
    have due : t.tb.holdDue t.counter = true := by
      refine holdDue_of_out (h := h) (n := n) ?_ ?_ (by rw [counter]; exact out)
      · rw [tb]; exact held
      · rw [tb]; exact code
    have selects : t.tb.selection = selectionOf i := by rw [tb]; exact selected
    have present : (t.tb.ref (otherInput i)).present = (s.tb.ref (otherInput i)).present := by
      rw [tb, configure_ref]
    rw [← present, ← pulsed]
    exact ⟨holdExpiry_free (shows shown) due selects, holdExpiry_running (shows shown) due selects,
      holdExpiry_realigned due selects⟩

/-- Settles O28: SCHEDULE's checks one by one, and the entry put in its place. -/
theorem scheduleIsCheckedInOrder : Obligations.ScheduleIsCheckedInOrder := by
  intro s tag due kind inner free reserve refused
  have held : s.heldBack 0x05 tag = false := by
    obtain zero | room := reserve
    · simp [State.heldBack, zero]
    · simp [State.heldBack, Nat.not_le.2 room]
  have taken : exec (.schedule tag due kind inner) s = .next ((s.addEntry tag due kind inner).placed 0x05 tag) := by
    have request := exec_request (c := .schedule tag due kind inner) rfl s
    rw [present_taken (r := .schedule due kind inner) free held, judge_answer rfl] at request
    exact request
  have refuses (r : Result) (h : s.addEntry tag due kind inner = .refuse r s) : refused r := taken.trans
    (by rw [h]; rfl)
  rw [← schedulable_iff]
  unfold State.addEntry at taken refuses
  refine ⟨fun no => refuses _ (if_pos (by simpa using no)), fun kinds => ?_⟩
  rw [if_neg (by simp [kinds])] at taken refuses
  refine ⟨fun long => refuses _ (if_pos (by simp [long])), fun parses => ?_⟩
  rw [if_neg (by simpa [← Option.isSome_iff_ne_none] using parses)] at taken refuses
  refine ⟨fun zero => refuses _ (if_pos zero), fun nonzero => ?_⟩
  rw [if_neg nonzero] at taken refuses
  refine ⟨fun busy => refuses _ (if_pos busy), fun fresh => ?_⟩
  rw [if_neg (by simp [fresh])] at taken refuses
  refine ⟨fun late => refuses _ (if_pos late), fun ahead => ?_⟩
  rw [if_neg (Nat.not_le.2 ahead)] at taken refuses
  refine ⟨fun full => refuses _ (if_pos full), fun room => ?_⟩
  obtain ⟨before, after, split, ordered, inserted⟩ := insertEntry_split ⟨tag, due, kind, inner⟩ s.tb.schedule
  rw [if_neg (Nat.not_le.2 room), inserted] at taken
  exact ⟨before, after, split, fun work => ordered work.sorted, taken⟩

end

section
/-! PROOF. The reads (O60): the float form of a power, the field forms of the reports, and the reports laid out as R197
and R198 give them. -/

namespace Sys2Proof.Machine

/-! ## The float form of a power (R197, log entry 11) -/

/-- The 24-bit significand that the float form takes of a power whose leading bit is l: truncated, and rounded up where
the configuration rounds up what does not fit. -/
def Power.significand (l : Nat) (p : Power) : Nat :=
  if l < 23 then p.mant * 2 ^ (23 - l)
  else p.mant / 2 ^ (l - 23)
    + if p.mant % 2 ^ (l - 23) ≠ 0 ∧ Config.reportRoundsUp p.mant p.shift = true then 1 else 0

theorem Power.float32_eq {p : Power} {l : Nat} (low : 2 ^ l ≤ p.mant) (high : p.mant < 2 ^ (l + 1))
    (normal : p.shift < l + 127) : p.float32 = (l + 126 - p.shift) * 2 ^ 23 + p.significand l := by
  have nonzero : p.mant ≠ 0 := Nat.ne_of_gt (Nat.lt_of_lt_of_le (Nat.two_pow_pos l) low)
  have leading : Nat.log2 p.mant = l := (Nat.log2_eq_iff nonzero).2 ⟨low, high⟩
  have positive : 0 < (l : Int) - p.shift + 127 := by omega
  have exponent : ((l : Int) - p.shift + 127).toNat - 1 = l + 126 - p.shift := by omega
  simp only [Power.float32, if_neg nonzero, leading, if_pos positive, exponent, Power.significand]
  by_cases short : l < 23
  · simp [short, Nat.not_le.2 short]
  · by_cases up : p.mant % 2 ^ (l - 23) ≠ 0 ∧ Config.reportRoundsUp p.mant p.shift = true <;>
      simp [short, Nat.not_lt.1 short, up]

theorem Power.significand_near (p : Power) (l : Nat) :
    ((p.significand l * 2 ^ l : Int) - p.mant * 2 ^ 23).natAbs < 2 ^ l
      ∧ (p.mant * 2 ^ 23 % 2 ^ l = 0 → p.significand l * 2 ^ l = p.mant * 2 ^ 23) := by
  unfold Power.significand
  by_cases short : l < 23
  · have exact : p.mant * 2 ^ (23 - l) * 2 ^ l = p.mant * 2 ^ 23 := by
      rw [Nat.mul_assoc, ← Nat.pow_add, Nat.sub_add_cancel (Nat.le_of_lt short)]
    rw [if_pos short]
    refine ⟨?_, fun _ => exact⟩
    rw [show ((p.mant * 2 ^ (23 - l) : Nat) * 2 ^ l : Int) = p.mant * 2 ^ 23 by exact_mod_cast exact, Int.sub_self]
    exact Nat.two_pow_pos l
  · have whole : 2 ^ l = 2 ^ (l - 23) * 2 ^ 23 := by rw [← Nat.pow_add, Nat.sub_add_cancel (Nat.not_lt.1 short)]
    have wholeInt : (2 ^ l : Int) = ((2 ^ (l - 23) : Nat) : Int) * 2 ^ 23 := by exact_mod_cast whole
    have divides := Nat.div_add_mod p.mant (2 ^ (l - 23))
    have small := Nat.mod_lt p.mant (Nat.two_pow_pos (l - 23))
    rw [if_neg short, wholeInt, whole, Nat.mul_mod_mul_right]
    generalize 2 ^ (l - 23) = d at *
    generalize p.mant / d = q at *
    generalize p.mant % d = r at *
    by_cases up : r ≠ 0 ∧ Config.reportRoundsUp p.mant p.shift = true
    · rw [if_pos up]
      refine ⟨?_, fun none => absurd none (by omega)⟩
      have : (((q + 1 : Nat) : Int) * (d * 2 ^ 23) - p.mant * 2 ^ 23) = ((d : Int) - r) * 2 ^ 23 := by
        rw [← divides]; push_cast; ring
      rw [this, Int.natAbs_mul, show ((2 : Int) ^ 23).natAbs = 2 ^ 23 from rfl]
      omega
    · rw [if_neg up]
      have : (((q + 0 : Nat) : Int) * (d * 2 ^ 23) - p.mant * 2 ^ 23) = - (r : Int) * 2 ^ 23 := by
        rw [← divides]; push_cast; ring
      refine ⟨?_, fun none => ?_⟩
      · rw [this, Int.natAbs_mul, show ((2 : Int) ^ 23).natAbs = 2 ^ 23 from rfl]
        omega
      · have : r = 0 := by omega
        rw [← divides, this]
        ring
/-! ## Field forms (R193 to R195) -/

theorem bigEndian_one (v : Nat) : bigEndian 1 v = [BitVec.ofNat 8 v] := by simp [bigEndian]

theorem Source.bytes_eq (c : Source) : bigEndian 1 (c.lane.val * 16 + c.slot.val) = [c.byte] := bigEndian_one _

theorem refCode_eq (p : RefInput) : refCode p = if p = .a then 0 else 1 := by cases p <;> rfl

theorem pendingCode_eq (r : Option FrameRate) : (r.map FrameRate.code).getD 255 = match r with
    | some r => r.code
    | none => 255 := by cases r <;> rfl

theorem readingCode_eq (r : Option Bool) : (r.map flagCode).getD 2 = match r with
    | some r => flagCode r
    | none => 2 := by cases r <;> rfl

theorem classCode_eq (c : Option RateClass) : classCode c = match c with
    | none => 0
    | some .k32 => 1
    | some .k44 => 2
    | some .k48 => 3
    | some .k96 => 4 := by
  rcases c with _ | c
  · rfl
  · cases c <;> rfl

theorem pendingMode_eq (m : Option ChangeMode) : (m.map ChangeMode.code).getD 255 = match m with
    | some m => m.code
    | none => 255 := by cases m <;> rfl

theorem delayTag_eq (w : Option DelayOp) : (w.map DelayOp.tag).getD 0 = match w with
    | some w => w.tag
    | none => 0 := by cases w <;> rfl

theorem openTag_eq (x : Program) : x.openTag = match x.openDef, x.align.op with
          | some t, _ => t
          | none, some w => w.tag
          | none, none => 0 := by
  unfold Program.openTag
  cases x.openDef <;> cases x.align.op <;> rfl

theorem stateByte_eq (y : Point) :
    [y.stateByte] = bigEndian 1 (y.ann.code * 64 + flagCode y.raw * 32 + flagCode y.filtered * 16
      + flagCode y.applied * 8) := by
  rw [bigEndian_one]
  unfold Point.stateByte
  rcases y.ann <;> rcases y.raw <;> rcases y.filtered <;> rcases y.applied <;> decide

theorem reading_ite {α : Type} (x : LaneState) (a b : α) :
    (if x.reading then a else b) = if x = .pulling ∨ x = .ready ∨ x = .locked then a else b := by
  cases x <;> rfl

theorem filterNames_eq (any : Bool) (x : Annunciation) :
    filterNames any x = (x == .activeUnack || x == .returnedUnack || (any && x == .activeAck)) := by
  cases any <;> cases x <;> rfl

theorem laneOfByte_val {b : Byte} {l : Fin 4} (h : b.toNat = l.val) : laneOfByte b = some l := by
  simp [laneOfByte, h]

theorem laneOfByte_none {b : Byte} (h : 4 ≤ b.toNat) : laneOfByte b = none := by
  simp [laneOfByte, h]

theorem pointOfByte_val {b : Byte} {pt : Fin 118} (h : b.toNat = pt.val) : pointOfByte b = some pt := by
  simp [pointOfByte, h]

theorem pointOfByte_none {b : Byte} (h : 118 ≤ b.toNat) : pointOfByte b = none := by
  simp [pointOfByte, h]

theorem programOfByte_val {b : Byte} {p : Fin 16} (h : b.toNat = p.val) : programOfByte b = some p := by
  simp [programOfByte, h]

/-! ## Records of the reports (R197, R198) -/

theorem idxOf_toNat (k : Byte) (l : List Byte) : (l.map BitVec.toNat).idxOf k.toNat = l.idxOf k := by
  induction l with
  | nil => rfl
  | cons x l ih =>
    by_cases same : x = k
    · simp [same, List.idxOf_cons_self]
    · have other : x.toNat ≠ k.toNat := fun h => same (BitVec.eq_of_toNat_eq h)
      simp [List.idxOf_cons_ne _ same, List.idxOf_cons_ne _ other, ih]

theorem scheduleCode_eq (k : Byte) :
    scheduleCode k = ([0x21, 0x22, 0x24, 0x30, 0x29, 0x28, 0x38] : List Byte).idxOf k := 
  idxOf_toNat k [0x21, 0x22, 0x24, 0x30, 0x29, 0x28, 0x38]

theorem SchedEntry.bytes_eq (e : SchedEntry) :
    e.bytes = e.tag :: (bigEndian 1 (([0x21, 0x22, 0x24, 0x30, 0x29, 0x28, 0x38] : List Byte).idxOf e.kind * 32
      + (match e.body with
        | b :: _ => if b.toNat < 16 then b.toNat else 31
        | [] => 31)) ++ bigEndian 5 e.due.toNat) := by
  unfold SchedEntry.bytes
  rw [scheduleCode_eq]
  unfold SchedEntry.program programOfByte
  rcases e.body with _ | ⟨b, l⟩
  · rfl
  · by_cases small : b.toNat < 16 <;> simp [small]

theorem fillGroups_bytes (l : List FillEntry) :
    (fillGroups l).flatMap (fun g => bigEndian 1 g.1.val ++ bigEndian 2 g.2)
      = (l.map FillEntry.program).eraseDups.flatMap fun p =>
          bigEndian 1 p.val ++ bigEndian 2 (l.filter fun e => e.program == p).length := by
  simp [fillGroups, List.flatMap_map]

theorem fillGroups_length (l : List FillEntry) :
    (fillGroups l).length = (l.map FillEntry.program).eraseDups.length := by
  simp [fillGroups]

theorem Channel.reportRecord_eq (s : State) (ch : Channel) : ch.reportRecord s.lanes =
    bigEndian 1 ch.role.code ++ bigEndian 1 (ch.primary.lane.val * 16 + ch.primary.slot.val)
      ++ (match ch.backup with
          | some c => bigEndian 1 (c.lane.val * 16 + c.slot.val)
          | none => [0xFF])
      ++ bigEndian 1 ch.mode.code
      ++ [flagsByte [ch.demand, ch.desired == .backup, ch.current == .backup, ch.laneLocked s.lanes]]
      ++ bigEndian 1 (ch.inUse.lane.val * 16 + ch.inUse.slot.val) ++ bigEndian 1 ch.coFade.dir.code
      ++ bigEndian 2 ch.coFade.level ++ bigEndian 1 (ch.egress.lane.val * 16 + ch.egress.slot.val)
      ++ bigEndian 1 ch.trim := by
  unfold Channel.reportRecord backupByte
  cases ch.backup <;> simp only [List.append_assoc, List.cons_append, List.nil_append, Source.bytes_eq] <;> rfl

theorem outputRecord_eq (ch : Channel) : ch.egress.byte :: (bigEndian 1 ch.overRun ++ bigEndian 4 ch.satCount) =
    bigEndian 1 (ch.egress.lane.val * 16 + ch.egress.slot.val) ++ bigEndian 1 ch.overRun
      ++ bigEndian 4 ch.satCount := by
  rw [Source.bytes_eq]
  rfl

theorem LoudSettings.bytes_append (l : List Byte) (c : LoudSettings) : l ++ c.bytes =
    l ++ bigEndian 1 c.mode.code ++ bigEndianInt 2 c.target ++ bigEndianInt 2 c.maxBoost
      ++ bigEndianInt 2 c.maxAttenuation ++ bigEndianInt 2 c.upSlew ++ bigEndianInt 2 c.downSlew
      ++ bigEndianInt 2 c.holdDepth ++ bigEndianInt 2 c.window ++ bigEndianInt 2 c.manualTrim
      ++ bigEndian 4 c.lookAhead := by
  simp only [LoudSettings.bytes, List.append_assoc]

theorem AlarmUnit.report_eq (now : Time) (pt : Fin 118) (a : AlarmUnit) : a.report now pt =
    bigEndian 1 pt.val ++ [(a.point pt).stateByte] ++ bigEndian 2 (a.point pt).raiseCount
      ++ timeBytes (a.point pt).lastChange ++ timeBytes (a.point pt).lastRise
      ++ timeBytes (if a.isEventPoint pt then (a.point pt).lastEvent else (a.point pt).lastRaw)
      ++ (match a.isEventPoint pt, (a.point pt).lastEvent with
        | true, some e => countBytes now 80 4 (since now e)
        | true, none => unstated now 80 4
        | false, _ => unstated now 80 4)
      ++ leftBytes (a.raiseLeft now pt) ++ leftBytes (a.clearLeft now pt) ++ leftBytes (a.retryLeft now pt)
      ++ (match a.notices.find? fun n => n.point == pt with
        | some n => 1 :: (bigEndian 1 n.coalesced ++ bigEndian 6 n.first.toNat)
        | none => 0 :: (unstated now 84 1 ++ timeBytes none))
      ++ bigEndian 1 (a.settingsOf pt).mode.code ++ bigEndian 1 (a.settingsOf pt).priority
      ++ [(a.settingsOf pt).raiseCode, (a.settingsOf pt).clearCode, (a.settingsOf pt).retryCode]
      ++ bigEndianInt 2 (a.settingsOf pt).level ++ bigEndian 1 (a.settingsOf pt).count := by
  unfold AlarmUnit.report KindSettings.bytes
  dsimp only
  cases a.isEventPoint pt <;> cases (a.point pt).lastEvent <;>
    simp only [List.append_assoc, List.cons_append, List.nil_append] <;> rfl

theorem listedBytes_eq (a : AlarmUnit) (pt : Fin 118) : a.listedBytes pt =
    bigEndian 1 pt.val ++ [(a.point pt).stateByte] ++ bigEndian 2 (a.point pt).raiseCount
      ++ timeBytes (a.point pt).lastChange := by
  simp only [AlarmUnit.listedBytes, List.append_assoc, List.cons_append, List.nil_append]

theorem AlarmUnit.reportList_eq (first maximum : Nat) (a : AlarmUnit) : a.reportList first maximum =
    bigEndian 1 (min maximum (a.listFrom first).length)
      ++ bigEndian 1 (match (a.listFrom first).drop maximum with
          | pt :: _ => pt.val
          | [] => 255)
      ++ ((a.listFrom first).take maximum).flatMap fun pt =>
          bigEndian 1 pt.val ++ bigEndian 1 ((a.point pt).ann.code * 64 + flagCode (a.point pt).raw * 32
            + flagCode (a.point pt).filtered * 16 + flagCode (a.point pt).applied * 8)
          ++ bigEndian 2 (a.point pt).raiseCount ++ timeBytes (a.point pt).lastChange := by
  unfold AlarmUnit.reportList
  rw [funext (listedBytes_eq a)]
  simp only [stateByte_eq, List.length_take, ← List.head?_drop]
  cases (a.listFrom first).drop maximum <;> rfl

/-! ## The reads answered -/

theorem exec_read {c : Instr} {tag : Byte} {r : Request} {s t : State} {res : Result} {report body : List Byte}
    (request : requestOf c = some (tag, r)) (free : s.LinkFree) (opens : opensOp r = false)
    (takes : takesTag (requestKind r) = false) (answered : s.answer tag r = ⟨res, report, t⟩) (same : report = body) :
    exec c s = .next (t.replied (requestKind r) tag res body) := by
  rw [exec_answered request free opens takes, answered, same]

theorem State.withProgram_some {s : State} {b : Byte} {p : Fin 16} {x : Program} (f : Fin 16 → Program → Answer)
    (code : b.toNat = p.val) (defined : s.program p = some x) : s.withProgram b f = f p x := by
  simp only [State.withProgram, programOfByte_val code, defined]

theorem readLoudness_eq {s : State} {b f : Byte} {p : Fin 16} {x : Program} (code : b.toNat = p.val)
    (defined : s.program p = some x) (inside : f.toNat < 2) : s.readLoudness b f =
      .read (x.reportLoudness s.counter (s.alarm.holdCovers p) ++ if f = 1 then ringBytes x.loud.ring else []) s := by
  rw [State.readLoudness, State.withProgram_some _ code defined]
  by_cases ring : f = 1
  · rw [ring]
    rfl
  · have none : f = 0 := by bv_omega
    rw [none]
    rfl

theorem readProgram_eq {s : State} {b : Byte} {p : Fin 16} (code : b.toNat = p.val) :
    s.readProgram b = .read (s.reportProgram p) s := by
  simp only [State.readProgram, programOfByte_val code]

theorem readLane_eq {s : State} {b : Byte} {l : Fin 4} (code : b.toNat = l.val) :
    s.readLane b = .read ((s.lane l).report s.counter) (s.setLane l { s.lane l with blockReady := false }) := by
  simp only [State.readLane, State.withLane, laneOfByte_val code]

theorem readLane_outside {s : State} {b : Byte} (outside : 4 ≤ b.toNat) : s.readLane b = .refuse .badValue s := by
  simp only [State.readLane, State.withLane, laneOfByte_none outside]

theorem readAlarm_eq {s : State} {b : Byte} {pt : Fin 118} (code : b.toNat = pt.val) :
    s.readAlarm b = .read (s.alarm.report s.counter pt) s := by
  simp only [State.readAlarm, pointOfByte_val code]

theorem readAlarm_outside {s : State} {b : Byte} (outside : 118 ≤ b.toNat) : s.readAlarm b = .refuse .badValue s := by
  simp only [State.readAlarm, pointOfByte_none outside]

theorem readAlarmList_eq {s : State} {b n : Byte} (inside : b.toNat < 118) :
    s.readAlarmList b n = ⟨if n.toNat ≤ 24 then .ok else .clamped,
      s.alarm.reportList b.toNat (if n = 0 then 24 else min 24 n.toNat), s⟩ := by
  by_cases most : n.toNat ≤ 24 <;>
    simp [State.readAlarmList, pointOfByte_val (pt := ⟨b.toNat, inside⟩) rfl, Result.ofHeld, most]

theorem readAlarmList_outside {s : State} {b n : Byte} (outside : 118 ≤ b.toNat) :
    s.readAlarmList b n = .refuse .badValue s := by
  simp only [State.readAlarmList, pointOfByte_none outside]

end Sys2Proof.Machine

open Sys2Proof Sys2Proof.Machine

/-- Settles O60: each read is answered by its report, which is laid out field by field as R197 and R198 give it. -/
theorem readsReportAndChangeNothing : Obligations.ReadsReportAndChangeNothing := by
  unfold Obligations.ReadsReportAndChangeNothing
  refine ⟨fun p _ l low high normal => ⟨p.significand l, p.float32_eq low high normal, p.significand_near l⟩,
    fun s tag free => ?_⟩
  intro now tb bit unstatedBytes count gain index time left runs fade source held state
  refine ⟨?_, ?_, ?_, ?_, ?_, ?_, ?_, ?_⟩
  · refine exec_read (r := .readTime) rfl free rfl rfl rfl ?_
    unfold State.reportTime
    extract_lets
    rw [pendingCode_eq, refCode_eq] <;> rfl
  · refine exec_read (r := .readSchedule) rfl free rfl rfl rfl ?_
    unfold State.reportSchedule
    rw [funext SchedEntry.bytes_eq] <;> rfl
  · intro first q ring filled slice
    refine exec_read (r := .readPool first) rfl free rfl rfl rfl ?_
    unfold State.reportPool
    extract_lets
    rw [fillGroups_bytes, fillGroups_length] <;> rfl
  · intro input output
    refine exec_read (r := .readContacts) rfl free rfl rfl rfl ?_
    have inputs (c : Fin 4) : (s.alarm.contact c).bytes = input c := by
      unfold Contact.bytes
      rw [readingCode_eq] <;> rfl
    have outputs (o : Fin 4) : s.alarm.summaryBytes o = output o := by
      unfold AlarmUnit.summaryBytes AlarmUnit.asserted
      simp only [filterNames_eq]
      rfl
    rw [AlarmUnit.reportContacts, funext inputs, funext outputs]
  · intro b
    refine ⟨fun outside => exec_refused (r := .readLane b) rfl free rfl rfl (readLane_outside outside), ?_⟩
    intro l code x class_
    refine exec_read (r := .readLane b) rfl free rfl rfl (readLane_eq code) ?_
    unfold Lane.report
    rw [classCode_eq, reading_ite] <;> rfl
  · intro b
    refine ⟨fun outside => exec_refused (r := .readAlarm b) rfl free rfl rfl (readAlarm_outside outside), ?_⟩
    intro pt code x k event raising clearing retrying
    refine exec_read (r := .readAlarm b) rfl free rfl rfl (readAlarm_eq code) ?_
    rw [AlarmUnit.report_eq, stateByte_eq] <;> rfl
  · intro b n
    refine ⟨fun outside => exec_refused (r := .readAlarmList b n) rfl free rfl rfl (readAlarmList_outside outside), ?_⟩
    intro inside most l
    refine exec_read (r := .readAlarmList b n) rfl free rfl rfl (readAlarmList_eq inside) ?_
    rw [AlarmUnit.reportList_eq] <;> rfl
  · intro p b code
    constructor
    · intro vacant
      exact exec_read (r := .readProgram b) rfl free rfl rfl (readProgram_eq code)
        (by rw [State.reportProgram, vacant])
    intro x defined a o line out openTag
    refine ⟨?_, ?_, ?_, ?_, ?_⟩
    · refine exec_read (r := .readProgram b) rfl free rfl rfl (readProgram_eq code) ?_
      rw [State.reportProgram, defined, funext (Channel.reportRecord_eq s)]
      dsimp only
      rw [openTag_eq] <;> rfl
    · refine exec_read (r := .readDelay b) rfl free rfl rfl (State.withProgram_some _ code defined) ?_
      unfold Program.reportDelay
      extract_lets
      rw [pendingMode_eq, delayTag_eq] <;> rfl
    · intro f outside
      exact exec_refused (r := .readLoudness b f) rfl free rfl rfl
        ((State.withProgram_some _ code defined).trans (by rw [flagOfByte_none outside]))
    · intro f inside l c entry
      refine exec_read (r := .readLoudness b f) rfl free rfl rfl (readLoudness_eq code defined inside) ?_
      unfold Program.reportLoudness
      extract_lets
      rw [LoudSettings.bytes_append] <;> rfl
    · refine exec_read (r := .readOutput b) rfl free rfl rfl (State.withProgram_some _ code defined) ?_
      unfold Program.reportOutput
      extract_lets
      rw [funext outputRecord_eq] <;> rfl

end

section
/-! PROOF. Scheduled requests run at their frame (O29): a request taken at the boundary and the same request from the
link do the same, whatever stands in the receive buffer and the reply place. -/

namespace Sys2Proof.Machine

/-! ## The kind of a request read from its body (R194) -/

theorem kind_of_ite {c : Prop} [Decidable c] {a : Request} {b : Option Request} {r : Request} {kind : Byte}
    (h : (if c then some a else b) = some r) (here : c → requestKind a = kind)
    (there : b = some r → requestKind r = kind) : requestKind r = kind := by
  split at h
  · next yes =>
    cases h
    exact here yes
  · exact there h

theorem parseNone_kind {kind : Byte} {r : Request} (h : parseNone kind = some r) : requestKind r = kind := by
  iterate 7 refine kind_of_ite h Eq.symm fun h => ?_
  cases h

theorem parseOne_kind {kind a : Byte} {r : Request} (h : parseOne kind a = some r) : requestKind r = kind := by
  iterate 16 refine kind_of_ite h Eq.symm fun h => ?_
  cases h

theorem parseTwo_kind {kind a b : Byte} {r : Request} (h : parseTwo kind a b = some r) : requestKind r = kind := by
  iterate 4 refine kind_of_ite h Eq.symm fun h => ?_
  cases h

theorem parseFour_kind {kind a b c d : Byte} {r : Request} (h : parseFour kind a b c d = some r) :
    requestKind r = kind := by
  iterate 3 refine kind_of_ite h Eq.symm fun h => ?_
  cases h

theorem parseFixed_kind {kind : Byte} {body : List Byte} {r : Request} (h : parseFixed kind body = some r) :
    requestKind r = kind := by
  unfold parseFixed at h
  split at h
  case h_1 => exact parseNone_kind h
  case h_2 => exact parseOne_kind h
  case h_3 => exact parseTwo_kind h
  case h_5 => exact parseFour_kind h
  case h_11 => cases h
  all_goals exact kind_of_ite h Eq.symm nofun

theorem parseRequest_kind {kind : Byte} {body : List Byte} {r : Request} (parsed : parseRequest kind body = some r) :
    requestKind r = kind := by
  unfold parseRequest at parsed
  split_ifs at parsed with define schedule
  · unfold parseDefine at parsed
    split at parsed
    · split_ifs at parsed
      obtain ⟨chs, _, rfl⟩ := Option.map_eq_some_iff.1 parsed
      exact define.symm
    · cases parsed
  · unfold parseSchedule at parsed
    split at parsed <;> cases parsed
    exact schedule.symm
  · exact parseFixed_kind parsed

/-! ## The parts of the Link Port that no owner looks at -/

/-- A state with the end of sizing, the receive buffer and the reply place of another Link Port. -/
def State.framed (k : LinkPort) (s : State) : State :=
  { s with link := { s.link with sizingEnded := k.sizingEnded, buffer := k.buffer, reply := k.reply } }

/-- An answer with its state so changed. -/
def Answer.framed (k : LinkPort) (a : Answer) : Answer := ⟨a.result, a.report, a.state.framed k⟩

section
variable (k : LinkPort) (s : State) (p : Fin 16)

theorem framed_program : (s.framed k).program p = s.program p := rfl

theorem openOp_framed (tag : Byte) (c : Concern) : (s.framed k).openOp tag c = (s.openOp tag c).framed k := by
  unfold State.openOp
  split <;> rfl

theorem endDelayOp_framed (r : Result) : (s.framed k).endDelayOp p r = (s.endDelayOp p r).framed k := by
  unfold State.endDelayOp
  rw [framed_program]
  split
  · rfl
  · split <;> rfl

theorem settleDelay_framed : (s.framed k).settleDelay p = (s.settleDelay p).framed k := by
  unfold State.settleDelay
  rw [framed_program, endDelayOp_framed]
  split
  · rfl
  · split <;> rfl

theorem handProgram_framed : (s.framed k).handProgram p = (s.handProgram p).framed k := by
  unfold State.handProgram
  rw [framed_program]
  split <;> rfl

theorem putProgram_framed (x y : Program) : (s.framed k).putProgram p x y = (s.putProgram p x y).framed k := by
  unfold State.putProgram
  rw [← handProgram_framed, ← settleDelay_framed]
  rfl

theorem progStep_framed (f : Program → Program) : (s.framed k).progStep p f = (s.progStep p f).framed k := by
  unfold State.progStep
  rw [framed_program]
  split
  · rfl
  · split
    · rfl
    · exact putProgram_framed k s p _ _

end

/-- What an owner answers with no report and whatever stands in the receive buffer and the reply place. -/
structure Unframed (g : State → Answer) : Prop where
  framed : ∀ k s, g (s.framed k) = (g s).framed k
  report : ∀ s, (g s).report = []

theorem unframed_refuse (r : Result) : Unframed (.refuse r) := ⟨fun _ _ => rfl, fun _ => rfl⟩

theorem unframed_progStep (r : Result) (p : Fin 16) {f : State → Program → Program}
    (same : ∀ k s, f (s.framed k) = f s) :
    Unframed fun s => ⟨r, [], s.progStep p (f s)⟩ where
  framed k s := by
    rw [progStep_framed, same]
    rfl
  report _ := rfl

theorem unframed_ite {c : Prop} [Decidable c] {g h : State → Answer} (yes : Unframed g) (no : Unframed h) :
    Unframed fun s => if c then g s else h s := by
  split
  · exact yes
  · exact no

theorem unframed_withProgram (b : Byte) {g : Fin 16 → Program → State → Answer} (h : ∀ p x, Unframed (g p x)) :
    Unframed fun s => s.withProgram b fun p x => g p x s := by
  unfold State.withProgram
  cases programOfByte b with
  | none => exact unframed_refuse .badValue
  | some p =>
    constructor
    · intro k s
      dsimp only
      rw [framed_program]
      cases s.program p with
      | none => rfl
      | some x => exact (h p x).framed k s
    · intro s
      dsimp only
      cases s.program p with
      | none => rfl
      | some x => exact (h p x).report s

/-- The kinds of the requests that a schedule entry carries out at once (R18). -/
def immediateKinds : List Byte := [0x21, 0x22, 0x24, 0x28, 0x29, 0x38]

theorem runInner_immediate {r : Request} (kind : requestKind r ∈ immediateKinds) (s : State) (tag : Byte) :
    s.runInner r = s.answer tag r := by
  cases r with
  | start | stop | selectSource | resetIntegration | setLoudness | muteProgram => rfl
  | _ => simp [requestKind, immediateKinds] at kind

theorem unframed_runInner (r : Request) : Unframed (State.runInner r) := by
  cases r with
  | start p | stop p =>
    exact unframed_withProgram p fun q x => unframed_ite (unframed_refuse _) (unframed_progStep _ q fun _ _ => rfl)
  | selectSource p c m =>
    refine unframed_withProgram p fun q x => ?_
    cases selectModeOfByte m with
    | none => exact unframed_refuse _
    | some m =>
      exact unframed_ite (unframed_progStep _ q fun _ _ => rfl)
        (unframed_ite (unframed_refuse _) (unframed_progStep _ q fun _ _ => rfl))
  | resetIntegration p => exact unframed_withProgram p fun q x => unframed_progStep _ q fun _ _ => rfl
  | setLoudness p m f =>
    refine unframed_withProgram p fun q x => ?_
    cases loudModeOfByte m with
    | none => exact unframed_refuse _
    | some m => exact unframed_progStep _ q fun _ _ => rfl
  | muteProgram p f =>
    show Unframed (State.muteProgram p f)
    unfold State.muteProgram
    cases flagOfByte f with
    | none => exact unframed_refuse _
    | some m => exact unframed_withProgram p fun q x => unframed_progStep _ q fun _ _ => rfl
  | _ => exact unframed_refuse _

/-- What such an answer finds in the receive buffer and the reply place stays there. -/
theorem Unframed.link {g : State → Answer} (h : Unframed g) (s : State) : (g s).state.framed s.link = (g s).state :=
  (congrArg Answer.state (h.framed s.link s)).symm

/-- SET_DELAY is one of them; it is accepted or changes nothing. -/
theorem unframed_setDelay (tag p : Byte) (f : DelayFields) : Unframed (State.setDelay tag p f) := by
  unfold State.setDelay State.withProgram
  cases programOfByte p with
  | none => exact unframed_refuse .badValue
  | some q =>
    constructor
    · intro k s
      dsimp only
      rw [framed_program]
      cases s.program q with
      | none => rfl
      | some x =>
        show (match delayAsk s.tb.rate f with | none => _ | some d => _) = _
        cases delayAsk s.tb.rate f with
        | none => rfl
        | some d => 
          dsimp only
          rw [endDelayOp_framed, openOp_framed, progStep_framed]
          rfl
    · intro s
      dsimp only
      cases s.program q with
      | none => rfl
      | some x =>
        dsimp only
        cases delayAsk s.tb.rate f <;> rfl

/-! ## The same request from the link (R180) -/

theorem linkFree_cleared (s : State) : (s.framed s.link.cleared).LinkFree := ⟨rfl, rfl, rfl⟩

/-- A request that an entry can carry out at once, sent untagged with the link free. -/
theorem exec_immediate {c : Instr} {r : Request} (request : requestOf c = some (0, r))
    (kind : requestKind r ∈ immediateKinds) (s : State) :
    exec c (s.framed s.link.cleared) = .next (State.replied (requestKind r) 0 (s.runInner r).result []
      ((s.runInner r).state.framed s.link.cleared)) := by
  have plain : opensOp r = false ∧ takesTag (requestKind r) = false := by
    cases r with
    | start | stop | selectSource | resetIntegration | setLoudness | muteProgram => exact ⟨rfl, rfl⟩
    | _ => simp [requestKind, immediateKinds] at kind
  rw [exec_answered request (linkFree_cleared s) plain.1 plain.2, ← runInner_immediate kind,
    (unframed_runInner r).framed]
  show Host.Outcome.next (State.replied _ _ _ (s.runInner r).report _) = _
  rw [(unframed_runInner r).report]
  rfl

/-- A tagged request that finds its tag free, a place in the table and room in the completion reserve. -/
theorem present_fresh {s : State} {tag : Byte} {r : Request} (free : s.LinkFree) (fresh : s.tagHeld tag = false)
    (room : s.link.ops.length < 8) (reserve : s.outstanding < 40) :
    s.present tag r = (s.answer tag r).placed (requestKind r) tag := by
  rw [present_taken free (by simp [State.heldBack, Nat.not_le.2 reserve])]
  simp [State.judge, fresh, Nat.not_le.2 room]

/-! ## One entry (R18, R19) -/

theorem runEntry_immediate {e : SchedEntry} {r : Request} (parsed : parseRequest e.kind e.body = some r)
    (kind : requestKind r ∈ immediateKinds) (s : State) :
    s.runEntry e = ((s.unscheduled e).runInner r).state.complete
      (e.completion ((s.unscheduled e).runInner r).result) := by
  unfold State.runEntry
  rw [parsed]
  cases r with
  | setDelay => simp [requestKind, immediateKinds] at kind
  | _ => rfl

theorem runEntry_setDelay {e : SchedEntry} {p : Byte} {f : DelayFields}
    (parsed : parseRequest e.kind e.body = some (.setDelay p f)) (s : State) :
    s.runEntry e = (s.unscheduled e).carryDelay e p f := by
  unfold State.runEntry
  rw [parsed]
  rfl

/-- A SET_DELAY that is not accepted changes nothing. -/
theorem setDelay_refused {s : State} {tag p : Byte} {f : DelayFields} (tagged : tag ≠ 0)
    (refused : (s.setDelay tag p f).result ≠ .accepted) : (s.setDelay tag p f).state = s := by
  unfold State.setDelay State.withProgram at *
  cases hp : programOfByte p with
  | none => rfl
  | some q =>
    rw [hp] at refused
    dsimp only at *
    cases hx : s.program q with
    | none => rfl
    | some x =>
      rw [hx] at refused
      dsimp only at *
      cases hd : delayAsk s.tb.rate f with
      | none => rfl
      | some d =>
        rw [hd] at refused
        exact absurd (if_neg tagged) refused

/-- A tagged SET_DELAY sent with the link free, its tag free and room for it. -/
theorem exec_setDelay_fresh {s : State} {tag p : Byte} {f : DelayFields} (fresh : s.tagHeld tag = false)
    (room : s.link.ops.length < 8) (reserve : s.outstanding < 40) :
    exec (.setDelay tag p f) (s.framed s.link.cleared) = .next (State.replied 0x30 tag (s.setDelay tag p f).result []
      ((s.setDelay tag p f).state.framed s.link.cleared)) := by
  have owner := unframed_setDelay tag p f
  have taken := present_fresh (r := .setDelay p f) (linkFree_cleared s) fresh room reserve
  rw [exec_request (r := .setDelay p f) rfl, taken]
  show Host.Outcome.next (Answer.placed 0x30 tag (State.setDelay tag p f (s.framed s.link.cleared))) = _
  rw [owner.framed, placed_eq]
  show Host.Outcome.next (State.replied _ _ _ (s.setDelay tag p f).report _) = _
  rw [owner.report]
  rfl

/-- A SET_DELAY that is accepted supersedes the open operation, opens its own and is taken. -/
theorem setDelay_accepted {s : State} {tag p : Byte} {f : DelayFields} {q : Fin 16} (code : p.toNat = q.val)
    (accepted : (s.setDelay tag p f).result = .accepted) : ∃ d, (s.setDelay tag p f).state =
      ((s.endDelayOp q .superseded).openOp tag (.delay q)).progStep q (Program.takeDelay tag d) := by
  unfold State.setDelay State.withProgram at *
  rw [programOfByte_val code] at *
  dsimp only at *
  cases hx : s.program q with
  | none => rw [hx] at accepted; cases accepted
  | some x =>
    rw [hx] at accepted
    dsimp only at *
    cases hd : delayAsk s.tb.rate f with
    | none => rw [hd] at accepted; cases accepted
    | some d => exact ⟨d, rfl⟩

theorem endDelayOp_none {s : State} {p : Fin 16} {x : Program} (r : Result) (defined : s.program p = some x)
    (none : x.align.op = none) : s.endDelayOp p r = s := by
  unfold State.endDelayOp
  rw [defined]
  dsimp only
  rw [none]

/-- A program with no delay operation to end leaves the table and the completions alone (R134). -/
theorem settleDelay_unsettled {s : State} {p : Fin 16} {x : Program} (defined : s.program p = some x)
    (open_ : x.Unsettled) : s.settleDelay p = s := by
  unfold State.settleDelay
  rw [defined]
  dsimp only
  split
  · next settled =>
    refine endDelayOp_none _ defined ?_
    cases op : x.align.op with
    | none => rfl
    | some _ => rw [open_ (by rw [op]; rfl)] at settled; cases settled
  · rfl

theorem handProgram_link (p : Fin 16) (s : State) : (s.handProgram p).link = s.link := by
  unfold State.handProgram
  split <;> rfl

theorem putProgram_link {s : State} {p : Fin 16} {x y : Program}
    (open_ : (if y.lineDelay = x.lineDelay then y else y.applyDue s.counter).Unsettled) :
    (s.putProgram p x y).link = s.link := by
  unfold State.putProgram
  rw [handProgram_link, settleDelay_unsettled (State.program_setProgram ..) open_]
  rfl

theorem unsettled_of_open {x : Program} (opened : x.closeSettled.align.op.isSome = true) : x.Unsettled := by
  intro _
  unfold Program.closeSettled at opened
  split at opened
  · cases opened
  · next open_ => simpa using open_

/-- An operation after which the program's delay operation is still open leaves the Link Port alone. -/
theorem progStep_link {s : State} {p : Fin 16} {f : Program → Program} {y : Program}
    (defined : (s.progStep p f).program p = some y) (opened : y.align.op.isSome = true) :
    (s.progStep p f).link = s.link := by
  unfold State.progStep at *
  split
  · rfl
  · next x before =>
    rw [before] at defined
    dsimp only at defined ⊢
    split
    · rfl
    · next changed =>
      rw [if_neg changed, putProgram_program, Option.some.injEq] at defined
      exact putProgram_link (unsettled_of_open (by rw [← defined] at opened; exact opened))

/-- A SET_DELAY accepted with no operation open, its own still open afterwards, has only taken its place in the
table. -/
theorem setDelay_link {s : State} {tag p : Byte} {f : DelayFields} {q : Fin 16} {x y : Program} (tagged : tag ≠ 0)
    (code : p.toNat = q.val) (accepted : (s.setDelay tag p f).result = .accepted) (defined : s.program q = some x)
    (none : x.align.op = none) (after : (s.setDelay tag p f).state.program q = some y)
    (opened : y.align.op.isSome = true) :
    (s.setDelay tag p f).state.link = { s.link with ops := insertOp ⟨tag, .delay q, s.counter⟩ s.link.ops } := by
  obtain ⟨d, taken⟩ := setDelay_accepted code accepted
  rw [endDelayOp_none _ defined none] at taken
  rw [taken] at after ⊢
  rw [progStep_link after opened, State.openOp, if_neg tagged]

/-! ## A START of a program in STANDBY (R55) -/

theorem complete_link {s : State} {k : LinkPort} (c : Completion) (h : s.link = k) :
    (s.complete c).link = { k with completions := k.completions ++ [c] } := by
  subst h
  rfl

theorem State.withProgram_none {s : State} {b : Byte} {p : Fin 16} (f : Fin 16 → Program → Answer)
    (code : b.toNat = p.val) (vacant : s.program p = none) : s.withProgram b f = .refuse .wrongState s := by
  simp only [State.withProgram, programOfByte_val code, vacant]

theorem closeSettled_of_unsettled {x : Program} (open_ : x.Unsettled) : x.closeSettled = x := by
  unfold Program.closeSettled
  split
  · next settled =>
    have none : x.align.op = none := by
      cases op : x.align.op with
      | none => rfl
      | some _ => rw [open_ (by rw [op]; rfl)] at settled; cases settled
    rw [← none]
  · rfl

/-- A START in STANDBY puts the program in RUNNING with its fade rising, and does nothing to the Link Port. -/
theorem progStep_start {s : State} {p : Fin 16} {x : Program} (defined : s.program p = some x)
    (standby : x.state = .standby) (open_ : x.Unsettled) :
    (s.progStep p Program.start).program p = some { x with state := .running, onAir := ⟨1, .rising, 0⟩ }
      ∧ (s.progStep p Program.start).link = s.link := by
  have started : x.start = { x with state := .running, onAir := ⟨1, .rising, 0⟩ } := by
    simp only [Program.start, standby]
    rfl
  have changed : x.start ≠ x := fun same => by
    have := congrArg Program.state same
    rw [started, standby] at this
    cases this
  have step : s.progStep p Program.start = s.putProgram p x x.start := by
    simp only [State.progStep, defined, if_neg changed]
  have still : x.start.lineDelay = x.lineDelay := by rw [started]; rfl
  have unsettled : x.start.Unsettled := by rw [started]; exact open_
  rw [step]
  constructor
  · rw [putProgram_program, Program.standing, if_pos still, closeSettled_of_unsettled unsettled, started]
  · exact putProgram_link (by rw [if_pos still]; exact unsettled)

/-- An entry that carries a START of a program in STANDBY. -/
theorem runEntry_start_standby {s : State} {e : SchedEntry} {p : Fin 16} {b : Byte} {x : Program}
    (parsed : parseRequest e.kind e.body = some (.start b)) (kind : e.kind = 0x21) (code : b.toNat = p.val)
    (defined : s.program p = some x) (standby : x.state = .standby) (open_ : x.Unsettled) :
    (s.runEntry e).program p = some { x with state := .running, onAir := ⟨1, .rising, 0⟩ }
      ∧ (s.runEntry e).link =
        { s.link with completions := s.link.completions ++ [⟨e.tag, 0x21, .ok, some e.due, []⟩] } := by
  obtain ⟨program, link⟩ := progStep_start (s := s.unscheduled e) defined standby open_
  have taken : (s.unscheduled e).startProgram b = .ok ((s.unscheduled e).progStep p Program.start) := by
    rw [State.startProgram, State.withProgram_some (s := s.unscheduled e) _ code defined,
      if_neg (by simp [standby])]
  rw [runEntry_immediate parsed (show (0x21 : Byte) ∈ immediateKinds by decide), State.runInner, taken,
    SchedEntry.completion, kind]
  exact ⟨program, complete_link _ link⟩

/-- An entry that carries a START of a VACANT program. -/
theorem runEntry_start_vacant {s : State} {e : SchedEntry} {p : Fin 16} {b : Byte}
    (parsed : parseRequest e.kind e.body = some (.start b)) (kind : e.kind = 0x21) (code : b.toNat = p.val)
    (vacant : s.program p = none) : (s.runEntry e).program p = none
      ∧ (s.runEntry e).link =
        { s.link with completions := s.link.completions ++ [⟨e.tag, 0x21, .wrongState, some e.due, []⟩] } := by
  have refused : (s.unscheduled e).startProgram b = .refuse .wrongState (s.unscheduled e) :=
    State.withProgram_none _ code vacant
  rw [runEntry_immediate parsed (show (0x21 : Byte) ∈ immediateKinds by decide), State.runInner, refused,
    SchedEntry.completion, kind]
  exact ⟨vacant, rfl⟩

/-! ## The entries of a frame (R16, R18) -/

/-- In a schedule in order with no entry passed over, the entries of the next frame stand first. -/
theorem due_first {index : FrameIndex} (next : index.toNat + 1 < 2 ^ 40) (l : List SchedEntry)
    (sorted : l.Pairwise fun a b => a.due.toNat ≤ b.due.toNat) (ahead : ∀ e ∈ l, index.toNat < e.due.toNat) :
    ∃ later, l = l.filter (fun e => decide (e.due = index + 1)) ++ later := by
  induction l with
  | nil => exact ⟨[], rfl⟩
  | cons e l ih =>
    obtain ⟨first, sorted⟩ := List.pairwise_cons.1 sorted
    by_cases due : e.due = index + 1
    · obtain ⟨later, split⟩ := ih sorted fun x hx => ahead x (List.mem_cons_of_mem _ hx)
      refine ⟨later, ?_⟩
      rw [List.filter_cons_of_pos (by simpa using due), List.cons_append, ← split]
    · have after : index.toNat + 1 < e.due.toNat := by
        have := ahead e List.mem_cons_self
        have : e.due.toNat ≠ index.toNat + 1 := fun same => due (by bv_omega)
        omega
      refine ⟨e :: l, ?_⟩
      rw [List.filter_eq_nil_iff.2, List.nil_append]
      intro x hx
      have : e.due.toNat ≤ x.due.toNat := by
        rcases List.mem_cons.1 hx with rfl | hx
        · exact Nat.le_refl _
        · exact first x hx
      simp only [decide_eq_true_eq]
      intro same
      rw [same] at this
      bv_omega

/-- A timebase with another schedule. -/
def Timebase.withSchedule (l : List SchedEntry) (t : Timebase) : Timebase := { t with schedule := l }

section
variable (now : Time) (l : List SchedEntry) (t : Timebase)

theorem select_withSchedule (i : RefInput) : (t.withSchedule l).select now i = (t.select now i).withSchedule l := by
  unfold Timebase.select Timebase.judgeRevert Timebase.revertHolds
  cases preference : t.preference <;> simp only [Timebase.withSchedule, preference] <;> rfl

theorem refLoss_withSchedule : (t.withSchedule l).refLoss = t.refLoss := by
  unfold Timebase.refLoss
  exact congrArg (fun r => !RefState.present r) (withSchedule_ref t l t.preference)

theorem leaveFree_withSchedule : (t.withSchedule l).leaveFree now = (t.leaveFree now).withSchedule l := by
  have ref (j : RefInput) : (t.withSchedule l).ref j = t.ref j := withSchedule_ref t l j
  unfold Timebase.leaveFree
  rw [ref, ref, select_withSchedule, select_withSchedule, apply_ite (Timebase.withSchedule l),
    apply_ite (Timebase.withSchedule l), apply_ite (Timebase.withSchedule l)]
  rfl

theorem beginFrame_withSchedule (cadence : Nat) (realign : Bool) :
    (t.withSchedule l).beginFrame now cadence realign = (t.beginFrame now cadence realign).withSchedule l := by
  cases pending : t.pendingRate with
  | none =>
    rw [beginFrame_same_rate (t := t) _ _ _ pending, beginFrame_same_rate (t := t.withSchedule l) _ _ _ pending]
    rfl
  | some r =>
    rw [beginFrame_new_rate (t := t) _ _ _ pending, beginFrame_new_rate (t := t.withSchedule l) _ _ _ pending,
      ← leaveFree_withSchedule]
    rfl

end

theorem leaveFree_refLoss (now : Time) (t : Timebase) : (t.leaveFree now).refLoss = t.refLoss := by
  unfold Timebase.refLoss
  rw [leaveFree_ref, (sameFrame_leaveFree now t).preference]

theorem beginFrame_refLoss (now : Time) (cadence : Nat) (realign : Bool) (t : Timebase) :
    (t.beginFrame now cadence realign).refLoss = t.refLoss := by
  cases pending : t.pendingRate with
  | none => rw [beginFrame_same_rate _ _ _ pending]; rfl
  | some r => rw [beginFrame_new_rate _ _ _ pending, leaveFree_refLoss, rateTaken_refLoss]

/-- The boundary at the table length, as the conditions shown have it (R2, R18). -/
theorem exec_boundary {s : State} (shown : s.Shown) (running : s.tb.realign = false)
    (due : s.tb.frameLen ≤ since s.counter s.tb.frameStart) :
    exec .frameBoundary s = .next
      ((s.tb.schedule.filter fun e => decide (e.due = s.tb.frameIndex + 1)).foldl State.runEntry
        { s with tb := s.tb.boundary s.counter }) := by
  have frame := beginFrame_frame s.counter s.tb.cadenceAfter false s.tb
  rw [exec_frameBoundary, State.frameBoundary, if_pos (by simp [Timebase.boundaryDue, running, Timebase.offset, due]),
    tbStep_shown (f := Timebase.boundary s.counter) (beginFrame_refLoss ..) shown]
  unfold State.runFrame
  have index : (s.tb.boundary s.counter).frameIndex = s.tb.frameIndex + 1 := frame.frameIndex
  have schedule : (s.tb.boundary s.counter).schedule = s.tb.schedule := frame.schedule
  dsimp only
  rw [index, schedule]
  rfl

end Sys2Proof.Machine

open Sys2Proof Sys2Proof.Machine

/-- Settles O29: the entries due stand first and run on the state the boundary leaves; what an entry does is what its
request does with the Link Port cleared, since no owner looks at the parts cleared. -/
theorem scheduledRequestsRunAtTheirFrame : Obligations.ScheduledRequestsRunAtTheirFrame := by
  refine ⟨fun s shown running due => ?_, fun b e c r => ?_, fun b e p f => ?_, ?_⟩
  · let bare : State := { s with tb := s.tb.withSchedule [] }
    have loss : bare.tb.refLoss = s.tb.refLoss := refLoss_withSchedule [] s.tb
    have bareShown : bare.Shown := ⟨shown.programs, shown.lanes, shown.ref.trans loss.symm⟩
    refine ⟨fun work next => due_first next _ work.sorted work.ahead,
      { bare with tb := bare.tb.boundary s.counter }, ?_, ?_, ?_⟩
    · exact exec_boundary bareShown running due
    · exact (beginFrame_frame ..).frameIndex
    · have same : (bare.tb.boundary s.counter).withSchedule s.tb.schedule = s.tb.boundary s.counter := by
        show (Timebase.beginFrame ..).withSchedule _ = _
        rw [← beginFrame_withSchedule]
        rfl
      rw [exec_boundary shown running due, ← same]
      rfl
  · intro a parsed request kind
    have own : requestKind r = e.kind := parseRequest_kind parsed
    have immediate : requestKind r ∈ immediateKinds := own.symm ▸ kind
    refine ⟨(a.runInner r).state.framed a.link.cleared, (a.runInner r).result, ?_, ?_⟩
    · rw [← own]
      exact exec_immediate request immediate a
    · rw [runEntry_immediate parsed immediate]
      conv_lhs => rw [← (unframed_runInner r).link (b.unscheduled e)]
      rfl
  · intro a ended parsed under
    constructor
    · intro full
      rw [runEntry_setDelay parsed]
      exact if_pos full
    intro room tagged fresh reserve
    have inner := unframed_setDelay e.tag p f
    have carried : b.runEntry e = if (a.setDelay e.tag p f).result = .accepted then (a.setDelay e.tag p f).state
        else a.complete (e.completion (a.setDelay e.tag p f).result) := by
      rw [runEntry_setDelay parsed]
      exact if_neg (Nat.not_le.2 room)
    refine ⟨(a.setDelay e.tag p f).state.framed a.link.cleared, (a.setDelay e.tag p f).result, ?_, ?_, ?_⟩
    · exact exec_setDelay_fresh fresh room reserve
    · intro refused
      rw [carried, if_neg refused, setDelay_refused tagged refused]
      rfl
    · intro accepted
      rw [carried, if_pos accepted]
      refine ⟨(inner.link a).symm, ?_⟩
      intro q x y code defined none after opened
      have link := setDelay_link tagged code accepted defined none after opened
      have ops := congrArg LinkPort.ops link
      have completions := congrArg LinkPort.completions link
      exact ⟨ops, completions⟩
  · intro s e p b shown running due schedule next code kind body
    let begun : State := { s with tb := s.tb.boundary s.counter }
    have index : begun.tb.frameIndex = s.tb.frameIndex + 1 := (beginFrame_frame ..).frameIndex
    have stands : begun.tb.schedule = [e] :=
      (beginFrame_frame s.counter s.tb.cadenceAfter false s.tb).schedule.trans schedule
    have parsed : parseRequest e.kind e.body = some (.start b) := by rw [kind, body]; rfl
    have run : exec .frameBoundary s = .next (begun.runEntry e) := by
      rw [exec_boundary shown running due, schedule, List.filter_cons_of_pos (by simpa using next)]
      rfl
    have tb := runEntry_tb e begun
    refine ⟨begun.runEntry e, run, ?_, ?_, ?_, ?_⟩
    · rw [tb, next]
      exact index
    · rw [tb, stands]
      simp
    · intro x defined standby
      have unsettled := ((programShown_iff s p).1 (shown.programs p)).2 x defined
      exact runEntry_start_standby (s := begun) parsed kind code defined standby unsettled
    · exact fun vacant => runEntry_start_vacant (s := begun) parsed kind code vacant

end

section
/-! PROOF. What CANCEL does to one program's delay (R136): the slew found arrived, the target moved to where the delay
stands, and the gain schedule moved with the line delay. -/

namespace Sys2Proof.Machine

theorem distance_eq (a : Align) : a.distance = ((a.cur : Int) - a.target * 65536).natAbs := by
  unfold Align.distance
  omega

/-! ## A change of the target (R127, R128, R132) -/

/-- A program whose delay is aimed anew, before the motion takes the change. -/
def Program.aimed (value pprog : Nat) (x : Program) : Program :=
  { x with align := { x.align with value := value, pathLat := pprog, target := x.targetFor value pprog } }

section
variable {mode : ChangeMode} {value pprog : Nat} {x : Program}

theorem retarget_same (h : x.targetFor value pprog = x.align.target) :
    x.retarget mode value pprog = x.aimed value pprog :=
  if_pos h

theorem retarget_moved (h : x.targetFor value pprog ≠ x.align.target) :
    x.retarget mode value pprog = (x.aimed value pprog).takeChange mode := if_neg h

theorem takeChange_bypassed (h : x.align.bypass ≠ .none) : x.takeChange mode = x := if_pos h

theorem takeChange_offAir (bypass : x.align.bypass = .none) (h : x.state ≠ .running) :
    x.takeChange mode = x.immediateJump := by
  rw [Program.takeChange, if_neg (not_not.2 bypass), if_pos h]

theorem takeChange_onAir (bypass : x.align.bypass = .none) (h : x.state = .running) : x.takeChange mode =
    match x.align.motion with
    | .steady => { x with align := x.align.startMotion mode }
    | .slewing =>
      match x.align.resolve mode with
      | .cut => { x with align := x.align.beginCut }
      | .slew => x
      | .auto => x
    | .cutOut => x
    | .cutIn => { x with align := { x.align with pending := some mode } } :=
  (if_neg (not_not.2 bypass)).trans (if_neg (not_not.2 h))

theorem resolve_eq (a : Align) : a.resolve mode =
    if mode = .auto then (if ((a.cur : Int) - a.target * 65536).natAbs ≤ a.autoLimit * 65536 then .slew else .cut)
    else mode := by
  rw [← distance_eq]
  cases mode <;> rfl

theorem resolve_ne_auto (a : Align) : a.resolve mode ≠ .auto := by
  rw [resolve_eq]
  split
  · split <;> nofun
  · assumption

/-- A motion that starts from STEADY away from the target is a cut or a slew (R128). -/
theorem startMotion_apart {a : Align} (apart : a.distance ≠ 0) : a.startMotion mode =
    if a.resolve mode = .cut then a.beginCut else a.beginSlew := by
  rw [Align.startMotion, if_neg apart]
  cases h : a.resolve mode with
  | auto => exact absurd h (resolve_ne_auto a)
  | cut | slew => rfl

/-- What the motion leaves of a record: the rest of it, and of its alignment everything but the motion itself. -/
structure Program.MotionTaken (x y : Program) : Prop where
  record : y = { x with channels := y.channels, align := y.align }
  align : y.align = { x.align with
    cur := y.align.cur, motion := y.align.motion, arriving := y.align.arriving, pending := y.align.pending
    fade := y.align.fade }

theorem takeChange_motion (mode : ChangeMode) (x : Program) : x.MotionTaken (x.takeChange mode) := by
  by_cases bypass : x.align.bypass = .none
  · by_cases onAir : x.state = .running
    · rw [takeChange_onAir bypass onAir]
      cases x.align.motion with
      | steady =>
        dsimp only
        unfold Align.startMotion
        split
        · exact ⟨rfl, rfl⟩
        · cases x.align.resolve mode <;> exact ⟨rfl, rfl⟩
      | slewing => cases x.align.resolve mode <;> exact ⟨rfl, rfl⟩
      | cutOut => exact ⟨rfl, rfl⟩
      | cutIn => exact ⟨rfl, rfl⟩
    · rw [takeChange_offAir bypass onAir]
      exact ⟨rfl, rfl⟩
  · rw [takeChange_bypassed bypass]
    exact ⟨rfl, rfl⟩

/-- The settings, the operation and the target that stand after a change of the target. -/
theorem retarget_motion (mode : ChangeMode) (value pprog : Nat) (x : Program) :
    (x.aimed value pprog).MotionTaken (x.retarget mode value pprog) := by
  by_cases same : x.targetFor value pprog = x.align.target
  · rw [retarget_same same]
    exact ⟨rfl, rfl⟩
  · rw [retarget_moved same]
    exact takeChange_motion ..

/-- The motion takes a change of the target as R128, R132 and 7.5 have it. -/
theorem targetMoved_retarget (mode : ChangeMode) (value pprog : Nat) (x : Program) :
    x.TargetMoved mode (x.targetFor value pprog) (x.retarget mode value pprog) := by
  have kept := (retarget_motion mode value pprog x).align
  have same := retarget_same (mode := mode) (value := value) (pprog := pprog) (x := x)
  have moved := retarget_moved (mode := mode) (value := value) (pprog := pprog) (x := x)
  generalize x.retarget mode value pprog = y at *
  unfold Program.TargetMoved
  intro a b distance taken
  have resolved : (x.aimed value pprog).align.resolve mode = taken := resolve_eq ..
  have apart : (x.aimed value pprog).align.distance = distance := distance_eq ..
  have settled : taken ≠ .auto := resolved ▸ resolve_ne_auto _
  clear_value distance taken
  have target := congrArg Align.target kept
  have bypassed := congrArg Align.bypass kept
  have applied := congrArg Align.applied kept
  refine ⟨target, bypassed, applied, ?_, ?_, ?_⟩
  · intro stays
    have still : y = x.aimed value pprog := by
      by_cases aim : x.targetFor value pprog = x.align.target
      · exact same aim
      · exact (moved aim).trans (takeChange_bypassed (stays.resolve_left aim))
    subst still
    exact ⟨rfl, rfl, rfl, rfl, rfl⟩
  · intro moves bypass offAir
    have jump : y = (x.aimed value pprog).immediateJump := (moved moves).trans (takeChange_offAir bypass offAir)
    subst jump
    refine ⟨rfl, rfl, rfl, rfl, fun ch mem => ?_⟩
    obtain ⟨_, _, rfl⟩ := List.mem_map.1 mem
    rfl
  · intro moves bypass onAir
    have takes := (moved moves).trans (takeChange_onAir bypass onAir)
    have running : (x.aimed value pprog).align.motion = a.motion := rfl
    rw [running, resolved] at takes
    cases motion : a.motion with
    | steady =>
      rw [motion] at takes
      by_cases here : distance = 0
      · have stays : (x.aimed value pprog).align.startMotion mode = (x.aimed value pprog).align :=
          if_pos (apart.trans here)
        rw [stays] at takes
        subst takes
        exact ⟨rfl, rfl, fun _ _ => ⟨motion, rfl, rfl⟩, fun goes => absurd here (goes.resolve_left nofun).2, nofun,
          nofun⟩
      · have starts := startMotion_apart (mode := mode) (a := (x.aimed value pprog).align) (by rwa [apart])
        rw [starts, resolved] at takes
        cases taken with
        | auto => exact absurd rfl settled
        | cut =>
          subst takes
          exact ⟨rfl, rfl, fun _ none => absurd none here, fun _ => ⟨rfl, fun _ => ⟨rfl, rfl⟩, nofun⟩, nofun, nofun⟩
        | slew =>
          subst takes
          exact ⟨rfl, rfl, fun _ none => absurd none here, fun _ => ⟨rfl, nofun, fun _ => ⟨rfl, rfl⟩⟩, nofun, nofun⟩
    | slewing =>
      rw [motion] at takes
      cases taken with
      | auto => exact absurd rfl settled
      | cut =>
        subst takes
        exact ⟨rfl, rfl, nofun, fun _ => ⟨rfl, fun _ => ⟨rfl, rfl⟩, nofun⟩, nofun, nofun⟩
      | slew =>
        subst takes
        exact ⟨rfl, rfl, nofun, fun _ => ⟨rfl, nofun, fun _ => ⟨motion, rfl⟩⟩, nofun, nofun⟩
    | cutOut =>
      rw [motion] at takes
      subst takes
      exact ⟨rfl, rfl, nofun, nofun, fun _ => ⟨motion, rfl, rfl⟩, nofun⟩
    | cutIn =>
      rw [motion] at takes
      subst takes
      exact ⟨rfl, rfl, nofun, nofun, nofun, fun _ => ⟨motion, rfl, rfl⟩⟩
end

/-! ## A slew found arrived (R130, R136) -/

/-- A program as a CANCEL finds it. -/
theorem slewArrival_eq (x : Program) : x.slewArrival = { x with align := { x.align with
    cur := x.align.found
    motion := if (x.align.motion = .slewing ∧ x.align.arriving = true) ∧ x.align.distance < slewStep x.align.slewRate
      then .steady else x.align.motion
    arriving := if x.align.motion = .slewing ∧ x.align.arriving = true then false else x.align.arriving } } := by
  unfold Program.slewArrival Align.found Align.slewMove
  by_cases looked : x.align.motion = .slewing ∧ x.align.arriving = true
  · by_cases near : x.align.distance < slewStep x.align.slewRate <;> simp [looked, near]
  · simp [looked]

/-! ## The gain schedule at a move of the line delay (R97, R101, R102) -/

theorem applyDue_record (now : Time) (x : Program) : x.applyDue now = { x with out := (x.applyDue now).out } := by
  unfold Program.applyDue Program.setApplied Program.retotal
  dsimp only
  split
  · rfl
  · split <;> rfl

/-- The entries reached are the first ones, up to the first that is not. -/
theorem applyDue_split {now : Time} {x : Program} {done held : List GainEntry} (split : x.out.schedule = done ++ held)
    (due : ∀ e ∈ done, ((now - BitVec.ofNat 48 x.lineDelay) - e.due).msb = false)
    (ahead : ∀ e, held.head? = some e → ((now - BitVec.ofNat 48 x.lineDelay) - e.due).msb = true) :
    (x.applyDue now).out.schedule = held
      ∧ (x.applyDue now).out.applied = ((done.getLast?).map GainEntry.value).getD x.out.applied
      ∧ (x.applyDue now).out.pad = x.out.pad ∧ (x.applyDue now).out.muted = x.out.muted
      ∧ (x.applyDue now).out.muteFade = x.out.muteFade := by
  have taken : (x.out.schedule.takeWhile fun e => reached e.due (x.outputIndex now)) = done := by
    have all : ∀ e ∈ done, reached e.due (x.outputIndex now) = true := fun e mem => by
      simp [reached, Program.outputIndex, due e mem]
    have none : (held.takeWhile fun e => reached e.due (x.outputIndex now)) = [] := by
      cases held with
      | nil => rfl
      | cons e l => simp [reached, Program.outputIndex, ahead e rfl]
    rw [split, List.takeWhile_append_of_pos all, none, List.append_nil]
  unfold Program.applyDue
  rw [taken]
  dsimp only
  cases last : done.getLast? with
  | none =>
    rw [List.getLast?_eq_none_iff.1 last] at split
    exact ⟨split, rfl, rfl, rfl, rfl⟩
  | some e =>
    simp [Program.setApplied, split]

/-- A record that stands at a change moves its gain schedule with the line delay. -/
theorem scheduleMoved_standing {now : Time} {x z : Program} (out : z.out = x.out) (idle : z.align.op = none) :
    x.ScheduleMoved now (Program.standing now x z).lineDelay (Program.standing now x z) := by
  have closed (u : Program) (h : u.align.op = none) : u.closeSettled = u :=
    closeSettled_of_unsettled (by simp [Program.Unsettled, h])
  unfold Program.standing
  by_cases still : z.lineDelay = x.lineDelay
  · rw [if_pos still, closed z idle]
    exact ⟨fun _ => out, fun moved => absurd still moved⟩
  · have record := applyDue_record now z
    have align : (z.applyDue now).align = z.align := by rw [record]
    have line : (z.applyDue now).lineDelay = z.lineDelay := by unfold Program.lineDelay; rw [align]
    rw [if_neg still, closed _ (by rw [align, idle]), line]
    refine ⟨fun same => absurd same still, fun _ done held split due ahead => ?_⟩
    have applied := applyDue_split (now := now) (x := z) (out ▸ split) due ahead
    rwa [out] at applied

/-! ## The delay stopped (R136) -/

/-- What stopping the delay of a program leaves of its record: V and D_target stand at the delay found, no operation is
open, the settings and P_prog stand, and the change is taken in the mode SLEW. -/
structure Program.DelayStopped (now : Time) (x y : Program) : Prop where
  value : y.align.value = x.align.found / 65536 + x.align.pathLat
  target : y.align.target = min ((x.rows - 1) * 4800) (x.align.found / 65536)
  idle : y.align.op = none
  moved : x.slewArrival.TargetMoved .slew (min ((x.rows - 1) * 4800) (x.align.found / 65536)) y
  schedule : x.ScheduleMoved now y.lineDelay y
  pathLat : y.align.pathLat = x.align.pathLat
  retrim : y.align.retrim = x.align.retrim
  slewRate : y.align.slewRate = x.align.slewRate
  autoLimit : y.align.autoLimit = x.align.autoLimit
  record : y = { x with channels := y.channels, align := y.align, out := y.out }

/-- A record without its open delay operation. -/
def Program.withoutOp (x : Program) : Program := { x with align := { x.align with op := none } }

theorem TargetMoved.of_same {mode : ChangeMode} {target : Nat} {x y z : Program} (align : z.align = y.align)
    (channels : z.channels = y.channels) (h : x.TargetMoved mode target y) : x.TargetMoved mode target z := by
  unfold Program.TargetMoved at *
  rwa [align, channels]

/-- What stands once a record with no operation open has been put in place. -/
theorem standing_idle {now : Time} {x z : Program} (idle : z.align.op = none) :
    Program.standing now x z = { z with out := (Program.standing now x z).out } := by
  have closed (u : Program) (h : u.align.op = none) : u.closeSettled = u :=
    closeSettled_of_unsettled (by simp [Program.Unsettled, h])
  have record := applyDue_record now z
  unfold Program.standing
  split
  · rw [closed z idle]
  · rw [closed _ (by rw [record]; exact idle)]
    exact record

theorem slewArrival_withoutOp (x : Program) : x.withoutOp.slewArrival = x.slewArrival.withoutOp := by
  rw [slewArrival_eq, slewArrival_eq]
  rfl

theorem stopDelay_target (x : Program) :
    x.slewArrival.withoutOp.targetFor (x.slewArrival.align.cur / 65536 + x.align.pathLat) x.align.pathLat
      = min ((x.rows - 1) * 4800) (x.align.found / 65536) := by
  unfold Program.targetFor
  rw [Nat.add_sub_cancel, slewArrival_eq]
  rfl

theorem delayStopped_standing (now : Time) (x : Program) :
    x.DelayStopped now (Program.standing now x.withoutOp x.withoutOp.slewArrival.stopDelay) := by
  have found := slewArrival_eq x
  have cur : x.slewArrival.align.cur = x.align.found := by rw [found]
  have pathLat : x.slewArrival.align.pathLat = x.align.pathLat := by rw [found]
  have stop : x.withoutOp.slewArrival.stopDelay
      = x.slewArrival.withoutOp.retarget .slew (x.slewArrival.align.cur / 65536 + x.align.pathLat) x.align.pathLat := by
    rw [slewArrival_withoutOp, ← pathLat]
    rfl
  rw [stop]
  have target := stopDelay_target x
  have moved := targetMoved_retarget .slew (x.slewArrival.align.cur / 65536 + x.align.pathLat) x.align.pathLat
    x.slewArrival.withoutOp
  obtain ⟨record, align⟩ := retarget_motion .slew (x.slewArrival.align.cur / 65536 + x.align.pathLat) x.align.pathLat
    x.slewArrival.withoutOp
  generalize x.slewArrival.withoutOp.retarget .slew _ _ = z at *
  have idle : z.align.op = none := congrArg Align.op align
  have stands := standing_idle (now := now) (x := x.withoutOp) idle
  have kept : z = { x with channels := z.channels, align := z.align } := by
    rw [found] at record
    exact record
  have out : z.out = x.out := (congrArg Program.out kept :)
  have schedule := scheduleMoved_standing (now := now) (x := x.withoutOp) out idle
  generalize Program.standing now x.withoutOp z = y at *
  have aligned : y.align = z.align := (congrArg Program.align stands :)
  have channels : y.channels = z.channels := (congrArg Program.channels stands :)
  rw [target] at moved
  have settings : z.align.value = x.slewArrival.align.cur / 65536 + x.align.pathLat ∧ z.align.pathLat = x.align.pathLat
      ∧ z.align.retrim = x.slewArrival.align.retrim ∧ z.align.slewRate = x.slewArrival.align.slewRate
      ∧ z.align.autoLimit = x.slewArrival.align.autoLimit := by
    rw [align]
    exact ⟨rfl, rfl, rfl, rfl, rfl⟩
  obtain ⟨value, latency, retrim, slewRate, autoLimit⟩ := settings
  rw [found] at retrim slewRate autoLimit
  rw [cur] at value
  constructor
  · rw [aligned, value]
  · rw [aligned]; exact moved.1
  · rw [aligned, idle]
  · exact TargetMoved.of_same aligned channels moved
  · exact schedule
  · rw [aligned, latency]
  · rw [aligned, retrim]
  · rw [aligned, slewRate]
  · rw [aligned, autoLimit]
  · rw [channels, aligned]
    exact stands.trans (congrArg (fun u : Program => { u with out := y.out }) kept)

end Sys2Proof.Machine
end

section
/-! PROOF. CANCEL (O30): what an operation on one program leaves unchanged, the end of each kind of tagged work, and
the ends of all the work held, one after another. -/

namespace Sys2Proof.Machine

/-! ## An operation on one program -/

theorem OnlyProgram.refl (p : Fin 16) (s : State) : OnlyProgram p s s :=
  ⟨.refl _, fun _ _ => rfl, .refl _, fun _ _ => rfl, .refl _⟩

theorem OnlyProgram.trans {p : Fin 16} {s t u : State} (h : OnlyProgram p s t) (k : OnlyProgram p t u) :
    OnlyProgram p s u where
  outside := h.outside.trans k.outside
  others q hq := (k.others q hq).trans (h.others q hq)
  settings := h.settings.trans k.settings
  points pt hp := (k.points pt hp).trans (h.points pt hp)
  link := h.link.trans k.link

theorem keepsSettings_handProgram (now : Time) (p : Fin 16) (x : Program) (a : AlarmUnit) :
    KeepsSettings a (a.handProgram now p x) :=
  (((keepsSettings_handRaw ..).trans (keepsSettings_handRaw ..)).trans (keepsSettings_handRaw ..)).trans
    (keepsSettings_handRaw ..)

theorem handProgram_point_ne {now : Time} {p : Fin 16} {x : Program} {a : AlarmUnit} {pt : Fin 118}
    (other : pointOfProgram p pt = false) : (a.handProgram now p x).point pt = a.point pt := by
  have ne (k : Fin 6) : progPoint k p ≠ pt := by
    intro same
    have listed : progPoint k p ∈ programPoints p := by
      unfold programPoints
      fin_cases k <;> simp
    simp [pointOfProgram, same ▸ listed] at other
  unfold AlarmUnit.handProgram
  rw [handRaw_point_ne _ _ _ (ne 4), handRaw_point_ne _ _ _ (ne 3), handRaw_point_ne _ _ _ (ne 2),
    handRaw_point_ne _ _ _ (ne 0)]

theorem putProgram_alarm (p : Fin 16) (x y : Program) (s : State) :
    (s.putProgram p x y).alarm = s.alarm.handProgram s.counter p (Program.standing s.counter x y) := by
  have handed (u : State) (z : Program) (stands : u.program p = some z) :
      (u.handProgram p).alarm = u.alarm.handProgram u.counter p z := by
    unfold State.handProgram
    rw [stands]
  have stands := putProgram_program p x y s
  unfold State.putProgram at *
  rw [handProgram_program] at stands
  rw [handed _ _ stands, settleDelay_alarm, (keepsOutside_settleDelay ..).counter]
  rfl

theorem onlyProgram_progStep (p : Fin 16) (f : Program → Program) (s : State) : OnlyProgram p s (s.progStep p f) := by
  have alarm : (s.progStep p f).alarm = s.alarm ∨ ∃ x, (s.progStep p f).alarm = s.alarm.handProgram s.counter p x := by
    unfold State.progStep
    split
    · exact .inl rfl
    · split
      · exact .inl rfl
      · exact .inr ⟨_, putProgram_alarm ..⟩
  refine ⟨keepsOutside_progStep p f s, fun q hq => progStep_program_ne p q f s hq.symm, ?_, fun pt other => ?_,
    keepsLink_progStep p f s⟩
  · obtain same | ⟨x, handed⟩ := alarm
    · rw [same]; exact .refl _
    · rw [handed]; exact keepsSettings_handProgram ..
  · obtain same | ⟨x, handed⟩ := alarm
    · rw [same]
    · rw [handed]; exact handProgram_point_ne other

theorem progStep_standing {s : State} {p : Fin 16} {x : Program} (f : Program → Program)
    (defined : s.program p = some x) (open_ : x.Unsettled) :
    (s.progStep p f).program p = some (Program.standing s.counter x (f x)) := by
  by_cases same : f x = x
  · rw [progStep_same defined same, same, Program.standing, if_pos rfl, closeSettled_of_unsettled open_]
    exact defined
  · rw [progStep_put defined same, putProgram_program]

/-- An operation that leaves no delay operation open leaves the Link Port alone. -/
theorem progStep_link_idle {s : State} {p : Fin 16} {x : Program} {f : Program → Program}
    (defined : s.program p = some x) (idle : (f x).align.op = none) : (s.progStep p f).link = s.link := by
  by_cases same : f x = x
  · rw [progStep_same defined same]
  · rw [progStep_put defined same]
    refine putProgram_link ?_
    split
    · simp [Program.Unsettled, idle]
    · rw [applyDue_record]
      simp [Program.Unsettled, idle]

/-! ## A delay operation ended by CANCEL (R136) -/

theorem stopDelay_idle (x : Program) : x.withoutOp.slewArrival.stopDelay.align.op = none := by
  rw [slewArrival_withoutOp]
  exact congrArg Align.op (retarget_motion .slew _ _ x.slewArrival.withoutOp).align

theorem delayDetails_found (p : Fin 16) (op : DelayOp) (x : Program) :
    delayDetails p op x.slewArrival.align = delayReport p op x.align.found x.align.target := by
  rw [slewArrival_eq]
  simp only [delayDetails, delayReport, Align.remaining, distance_eq, flagCode]

theorem cancelDelay_eq {s : State} {p : Fin 16} {x : Program} {op : DelayOp} (defined : s.program p = some x)
    (open_ : x.align.op = some op) : s.cancelDelay p =
      ((s.setProgram p (some x.withoutOp)).closeOp op.tag (.delay p) .cancelled
        (delayReport p op x.align.found x.align.target)).progStep p fun y => y.slewArrival.stopDelay := by
  unfold State.cancelDelay
  rw [defined]
  dsimp only
  rw [open_]
  dsimp only
  rw [delayDetails_found]
  rfl

theorem cancelDelay_ended {s : State} {p : Fin 16} {x : Program} {op : DelayOp} (defined : s.program p = some x)
    (open_ : x.align.op = some op) : ∃ y, (s.cancelDelay p).program p = some y ∧ x.DelayStopped s.counter y
      ∧ OnlyProgram p s (s.cancelDelay p)
      ∧ (s.cancelDelay p).link = { s.link with
          ops := removeFirst (fun e => e.tag == op.tag) s.link.ops
          completions := s.link.completions
            ++ [⟨op.tag, 0x30, .cancelled, none, delayReport p op x.align.found x.align.target⟩] } := by
  rw [cancelDelay_eq defined open_]
  have closed : OnlyProgram p s ((s.setProgram p (some x.withoutOp)).closeOp op.tag (.delay p) .cancelled
      (delayReport p op x.align.found x.align.target)) :=
    ⟨(keepsOutside_setProgram ..).trans (keepsOutside_closeOp ..),
      fun q hq => State.program_setProgram_ne s p q _ hq.symm, .refl _, fun _ _ => rfl, ⟨rfl⟩⟩
  have stands : ((s.setProgram p (some x.withoutOp)).closeOp op.tag (.delay p) .cancelled
      (delayReport p op x.align.found x.align.target)).program p = some x.withoutOp := State.program_setProgram ..
  refine ⟨_, progStep_standing _ stands (by simp [Program.Unsettled, Program.withoutOp]), delayStopped_standing ..,
    closed.trans (onlyProgram_progStep ..), ?_⟩
  rw [progStep_link_idle stands (stopDelay_idle x)]
  rfl

/-! ## One operation ended by CANCEL (R184) -/

/-- What the end of one operation's work does, by what it concerns. -/
structure WorkEnded (e : OpEntry) (s t : State) : Prop where
  tb : t.tb = s.tb
  lanes : t.lanes = s.lanes
  counter : t.counter = s.counter
  link : t.link = { s.link with
    ops := removeFirst (fun x => x.tag == e.tag) s.link.ops, completions := s.link.completions ++ [s.cancelled e] }
  others : ∀ q, e.concern ≠ .definition q → e.concern ≠ .delay q → t.program q = s.program q
  vacated : ∀ q, e.concern = .definition q → t.program q = none
  stopped : ∀ q, e.concern = .delay q → ∃ x y, s.program q = some x ∧ t.program q = some y ∧ y.align.op = none
    ∧ y.align.value = x.align.found / 65536 + x.align.pathLat
  checkEnded : e.concern = .check → t.pool.check = none ∧ t.pool.window = []
  checkStands : e.concern ≠ .check → t.pool.check = s.pool.check ∧ t.pool.window = s.pool.window
  fillStands : (∀ q, e.concern ≠ .definition q) →
    t.dram = s.dram ∧ t.pool.fill = s.pool.fill ∧ t.pool.fillSince = s.pool.fillSince
  fillEnded : ∀ p, e.concern = .definition p → s.FillAbandoned (fun q => q = p) t
    ∧ t.pool.fill = s.pool.fill.filter (fun f => f.program != p)
    ∧ t.pool.fillSince =
      if (s.pool.fill.head?.map FillEntry.program) = some p then s.counter else s.pool.fillSince

theorem vacate_eq {s : State} {p : Fin 16} {x : Program} (defined : s.program p = some x) : s.vacate p =
    { s.setProgram p none with
      pool := (s.pool.giveBack x.ring).abandonFill s.counter p
      dram := s.pool.partFill s.counter p s.dram
      claims := s.claims.map fun c => if c.any (fun k => k.program == p) then none else c
      alarm := s.alarm.dropProgram s.counter p } := by
  unfold State.vacate
  rw [defined]

theorem fillAbandoned_dram {ends : Fin 16 → Prop} {s t u : State} (same : u.dram = t.dram)
    (h : s.FillAbandoned ends t) :
    s.FillAbandoned ends u := by
  unfold State.FillAbandoned at *
  rwa [same]

theorem definitionEnded {s : State} {e : OpEntry} {p : Fin 16} (concern : e.concern = .definition p)
    (stands : s.OpStands e) : WorkEnded e s (s.cancelOp e) := by
  unfold State.OpStands at stands
  rw [concern] at stands
  obtain ⟨x, defined, _, _⟩ := stands
  have ended : s.cancelOp e = (s.vacate p).closeOp e.tag (.definition p) .cancelled (definitionDetails p x) := by
    unfold State.cancelOp State.endDefinition
    rw [concern]
    dsimp only
    rw [defined]
  have dram : (s.cancelOp e).dram = (s.vacate p).dram := by rw [ended]; rfl
  have abandoned := fillAbandoned_dram dram (State.vacate_fillAbandoned (p := p) (s := s) (by rw [defined]; rfl))
  rw [vacate_eq defined] at ended
  have details : s.cancelled e = ⟨e.tag, 0x20, .cancelled, none, definitionDetails p x⟩ := by
    unfold State.cancelled
    rw [concern]
    dsimp only
    rw [defined]
    rfl
  rw [ended] at *
  constructor
  · rfl
  · rfl
  · rfl
  · rw [details]; rfl
  · intro q other _
    exact State.program_setProgram_ne s p q none fun same => other (by rw [concern, same])
  · intro q same
    rw [concern] at same
    cases same
    exact State.program_setProgram ..
  · exact fun _ same => nomatch concern.symm.trans same
  · exact fun same => nomatch concern.symm.trans same
  · exact fun _ => ⟨rfl, rfl⟩
  · exact fun none => absurd concern (none p)
  · intro q same
    rw [concern] at same
    cases same
    exact ⟨abandoned, rfl, rfl⟩

theorem delayEnded {s : State} {e : OpEntry} {p : Fin 16} (concern : e.concern = .delay p)
    (stands : s.OpStands e) : WorkEnded e s (s.cancelOp e) := by
  unfold State.OpStands at stands
  rw [concern] at stands
  obtain ⟨x, defined, _, tagged⟩ := stands
  obtain ⟨op, open_, tag⟩ := Option.map_eq_some_iff.1 tagged
  obtain ⟨y, stopped, delay, only, link⟩ := cancelDelay_ended defined open_
  have ended : s.cancelOp e = s.cancelDelay p := by
    unfold State.cancelOp
    rw [concern]
  have details : s.cancelled e = ⟨e.tag, 0x30, .cancelled, none, delayReport p op x.align.found x.align.target⟩ := by
    unfold State.cancelled
    rw [concern]
    dsimp only
    rw [defined]
    dsimp only [Option.bind_some]
    rw [open_]
    rfl
  rw [ended]
  have pool := only.outside.pool
  constructor
  · exact only.outside.tb
  · exact only.outside.lanes
  · exact only.outside.counter
  · rw [link, details, tag]
  · intro q _ other
    exact only.others q fun same => other (by rw [concern, same])
  · exact fun _ same => nomatch concern.symm.trans same
  · intro q same
    rw [concern] at same
    cases same
    exact ⟨x, y, defined, stopped, delay.idle, delay.value⟩
  · exact fun same => nomatch concern.symm.trans same
  · exact fun _ => by rw [pool]; exact ⟨rfl, rfl⟩
  · exact fun _ => by rw [pool]; exact ⟨only.outside.dram, rfl, rfl⟩
  · exact fun _ same => nomatch concern.symm.trans same

/-- The check ended by CANCEL (R119). -/
theorem cancelCheck_eq {s : State} {c : Check} (running : s.pool.check = some c) (tagged : c.tag ≠ 0) : s.cancelCheck =
    { s with
      pool := { s.pool with check := none, free := s.pool.free ++ s.pool.window, window := [], testRun := 0 }
      link := { s.link with
        ops := removeFirst (fun x => x.tag == c.tag) s.link.ops
        completions := s.link.completions ++ [⟨c.tag, 0x34, .cancelled, none, c.details⟩] } } := by
  unfold State.cancelCheck State.endCheck Pool.returnWindow
  dsimp only
  rw [running]
  exact if_neg tagged

theorem checkEnded {s : State} {e : OpEntry} (concern : e.concern = .check) (stands : s.OpStands e)
    (tagged : e.tag ≠ 0) :
    WorkEnded e s (s.cancelOp e) := by
  unfold State.OpStands at stands
  rw [concern] at stands
  obtain ⟨c, running, tag⟩ := stands
  have ended : s.cancelOp e = s.cancelCheck := by
    unfold State.cancelOp
    rw [concern]
  have details : s.cancelled e = ⟨e.tag, 0x34, .cancelled, none, c.details⟩ := by
    unfold State.cancelled
    rw [concern]
    dsimp only
    rw [running]
    rfl
  rw [ended, cancelCheck_eq running (tag ▸ tagged)]
  constructor
  · rfl
  · rfl
  · rfl
  · rw [details, tag]
  · exact fun _ _ _ => rfl
  · exact fun _ same => nomatch concern.symm.trans same
  · exact fun _ same => nomatch concern.symm.trans same
  · exact fun _ => ⟨rfl, rfl⟩
  · exact fun other => absurd concern other
  · exact fun _ => ⟨rfl, rfl, rfl⟩
  · exact fun _ same => nomatch concern.symm.trans same

theorem workEnded_cancelOp {s : State} {e : OpEntry} (stands : s.OpStands e) (tagged : e.tag ≠ 0) :
    WorkEnded e s (s.cancelOp e) := by
  cases concern : e.concern with
  | definition p => exact definitionEnded concern stands
  | delay p => exact delayEnded concern stands
  | check => exact checkEnded concern stands tagged

/-! ## All the operations ended, one after another (R184) -/

/-- What the ends of a list of operations do. -/
structure AllEnded (l : List OpEntry) (s t : State) : Prop where
  tb : t.tb = s.tb
  lanes : t.lanes = s.lanes
  counter : t.counter = s.counter
  link : s.link.ops = l →
    t.link = { s.link with ops := [], completions := s.link.completions ++ l.map s.cancelled }
  others : ∀ q, (∀ e ∈ l, e.concern ≠ .definition q ∧ e.concern ≠ .delay q) → t.program q = s.program q
  vacated : ∀ e ∈ l, ∀ q, e.concern = .definition q → t.program q = none
  stopped : ∀ e ∈ l, ∀ q, e.concern = .delay q → ∃ x y, s.program q = some x ∧ t.program q = some y
    ∧ y.align.op = none ∧ y.align.value = x.align.found / 65536 + x.align.pathLat
  checkEnded : ∀ e ∈ l, e.concern = .check → t.pool.check = none ∧ t.pool.window = []
  checkStands : (∀ e ∈ l, e.concern ≠ .check) → t.pool.check = s.pool.check ∧ t.pool.window = s.pool.window
  fill : s.FillAbandoned (fun q => ∃ e ∈ l, e.concern = .definition q) t

/-- The DRAM that fills abandoned leave depends on what it reads as. -/
theorem FillAbandoned.of_read {ends ends' : Fin 16 → Prop} {s t u : State} (sub : ∀ q, ends q → ends' q)
    (ended : ∃ f rest, s.pool.fill = f :: rest ∧ ends f.program) (same : ∀ a, Dram.read u.dram a = Dram.read t.dram a)
    (h : s.FillAbandoned ends t) : s.FillAbandoned ends' u := by
  obtain ⟨f, rest, fill, ends⟩ := ended
  unfold State.FillAbandoned at *
  rw [fill] at h ⊢
  obtain ⟨n, most, began, silent, rest⟩ := h.2 ends
  have group (g : Nat) : readGroup u.dram [] f.page g = readGroup t.dram [] f.page g := by
    simp only [readGroup, readSampleAt, readByte, same]
  have checks (g : Nat) : groupChecks u.dram [] f.page g = groupChecks t.dram [] f.page g := by
    simp only [groupChecks, group, readByte, same]
  refine ⟨fun none => absurd (sub _ ends) none, fun _ => ⟨n, most, began, fun g hg => ?_, fun a ha => ?_⟩⟩
  · rw [group, checks]
    exact silent g hg
  · rw [same]
    exact rest a ha

/-- Fills abandoned where the first abandoned has begun at this house sample leave every byte as it was. -/
theorem FillAbandoned.read_fresh {ends : Fin 16 → Prop} {s t : State} (fresh : s.pool.fillSince = s.counter)
    (h : s.FillAbandoned ends t) (a : Nat) : Dram.read t.dram a = Dram.read s.dram a := by
  unfold State.FillAbandoned at h
  split at h
  · rw [h]
  · next f _ _ =>
    by_cases ended : ends f.program
    · obtain ⟨n, _, began, _, rest⟩ := h.2 ended
      rw [began fresh] at rest
      exact rest a (by omega)
    · rw [h.1 ended]

theorem FillAbandoned.congr {ends ends' : Fin 16 → Prop} {s u t : State} (fill : u.pool.fill = s.pool.fill)
    (began : u.pool.fillSince = s.pool.fillSince) (counter : u.counter = s.counter) (dram : u.dram = s.dram)
    (same : ∀ q, ends q ↔ ends' q) (h : u.FillAbandoned ends t) : s.FillAbandoned ends' t := by
  have : ends = ends' := funext fun q => propext (same q)
  unfold State.FillAbandoned at *
  rwa [fill, began, counter, dram, this] at h

/-- The fills abandoned by an operation that ends and by those after it. -/
theorem fillAbandoned_cons {e : OpEntry} {l : List OpEntry} {s u t : State} (first : WorkEnded e s u)
    (rest : u.FillAbandoned (fun q => ∃ e ∈ l, e.concern = .definition q) t) :
    s.FillAbandoned (fun q => ∃ x ∈ e :: l, x.concern = .definition q) t := by
  by_cases definition : ∃ p, e.concern = .definition p
  · obtain ⟨p, concern⟩ := definition
    obtain ⟨abandoned, fill, began⟩ := first.fillEnded p concern
    have ends (q : Fin 16) (h : q = p) : ∃ x ∈ e :: l, x.concern = .definition q :=
      ⟨e, List.mem_cons_self, h ▸ concern⟩
    cases queue : s.pool.fill with
    | nil =>
      rw [queue] at fill
      unfold State.FillAbandoned at *
      rw [queue] at abandoned ⊢
      rw [fill] at rest
      exact rest.trans abandoned
    | cons f more =>
      rw [queue] at fill began
      by_cases head : f.program = p
      · have fresh : u.pool.fillSince = u.counter := by
          rw [began, first.counter, if_pos (by simp [head])]
        exact FillAbandoned.of_read ends ⟨f, more, queue, head⟩ (FillAbandoned.read_fresh fresh rest) abandoned
      · have later : u.pool.fill = f :: more.filter (fun g => g.program != p) := by
          rw [fill, List.filter_cons_of_pos (by simpa using head)]
        rw [if_neg (by simpa using head)] at began
        unfold State.FillAbandoned at *
        rw [queue] at abandoned ⊢
        rw [later, began, first.counter, abandoned.1 head] at rest
        have same : (∃ x ∈ l, x.concern = .definition f.program) ↔ ∃ x ∈ e :: l, x.concern = .definition f.program := by
          simp only [List.mem_cons, exists_eq_or_imp]
          exact ⟨.inr, fun h => h.resolve_left fun h => head (by rw [concern] at h; cases h; rfl)⟩
        exact ⟨fun none => rest.1 fun h => none (same.1 h), fun some => rest.2 (same.2 some)⟩
  · obtain ⟨dram, fill, began⟩ := first.fillStands fun q h => definition ⟨q, h⟩
    refine FillAbandoned.congr fill began first.counter dram (fun q => ?_) rest
    simp only [List.mem_cons, exists_eq_or_imp]
    exact ⟨.inr, fun h => h.resolve_left fun h => definition ⟨q, h⟩⟩

/-- A program in PREPARING has no delay operation open (R54, R134). -/
theorem definition_not_delay {e x : OpEntry} {s : State} {q : Fin 16} (he : s.OpStands e) (hx : s.OpStands x)
    (definition : e.concern = .definition q) (delay : x.concern = .delay q) : False := by
  unfold State.OpStands at *
  rw [definition] at he
  rw [delay] at hx
  obtain ⟨y, defined, _, closed⟩ := he
  obtain ⟨z, same, _, opened⟩ := hx
  rw [defined] at same
  cases same
  rw [closed] at opened
  cases opened

/-- What other work stands on is as it was when an operation has ended. -/
theorem WorkEnded.apart {e x : OpEntry} {s t : State} (h : WorkEnded e s t) (he : s.OpStands e) (hx : s.OpStands x)
    (other : x.concern ≠ e.concern) :
    (∀ q, x.concern = .definition q ∨ x.concern = .delay q → t.program q = s.program q)
      ∧ (x.concern = .check → t.pool.check = s.pool.check) := by
  refine ⟨fun q named => h.others q (fun ends => ?_) (fun ends => ?_), fun check =>
    (h.checkStands (check ▸ other.symm)).1⟩
  · obtain definition | delay := named
    · exact other (definition.trans ends.symm)
    · exact definition_not_delay he hx ends delay
  · obtain definition | delay := named
    · exact definition_not_delay hx he definition ends
    · exact other (delay.trans ends.symm)

/-- Other work stands, and ends as it would have. -/
theorem WorkEnded.stands {e x : OpEntry} {s t : State} (h : WorkEnded e s t) (he : s.OpStands e) (hx : s.OpStands x)
    (other : x.concern ≠ e.concern) : t.OpStands x ∧ t.cancelled x = s.cancelled x := by
  obtain ⟨program, check⟩ := h.apart he hx other
  unfold State.OpStands State.cancelled at *
  cases concern : x.concern with
  | definition q =>
    rw [concern] at hx
    dsimp only
    rw [program q (.inl concern)]
    exact ⟨hx, rfl⟩
  | delay q =>
    rw [concern] at hx
    dsimp only
    rw [program q (.inr concern)]
    exact ⟨hx, rfl⟩
  | check =>
    rw [concern] at hx
    dsimp only
    rw [check concern]
    exact ⟨hx, rfl⟩

theorem allEnded_cancelOps (l : List OpEntry) (s : State) (stands : ∀ e ∈ l, s.OpStands e)
    (apart : (l.map OpEntry.concern).Nodup) (tagged : ∀ e ∈ l, e.tag ≠ 0) : AllEnded l s
      (l.foldl State.cancelOp s) := by
  induction l generalizing s with
  | nil =>
    refine ⟨rfl, rfl, rfl, fun none => ?_, fun _ _ => rfl, nofun, nofun, nofun, fun _ => ⟨rfl, rfl⟩, ?_⟩
    · show s.link = { s.link with ops := [], completions := s.link.completions ++ [] }
      rw [List.append_nil, ← none]
    · unfold State.FillAbandoned
      split
      · rfl
      · exact ⟨fun _ => rfl, nofun⟩
  | cons e l ih =>
    obtain ⟨own, apart⟩ := List.nodup_cons.1 (List.map_cons ▸ apart)
    have first := workEnded_cancelOp (stands e List.mem_cons_self) (tagged e List.mem_cons_self)
    have other (x : OpEntry) (hx : x ∈ l) : x.concern ≠ e.concern := fun same =>
      own (same ▸ List.mem_map_of_mem hx)
    have he := stands e List.mem_cons_self
    have still (x : OpEntry) (hx : x ∈ l) := first.stands he (stands x (List.mem_cons_of_mem _ hx)) (other x hx)
    have rest := ih (s.cancelOp e) (fun x hx => (still x hx).1) apart fun x hx => tagged x (List.mem_cons_of_mem _ hx)
    have untouched (q : Fin 16) (named : e.concern = .definition q ∨ e.concern = .delay q) :
        ((e :: l).foldl State.cancelOp s).program q = (s.cancelOp e).program q := by
      refine rest.others q fun x hx => ?_
      have hx' := stands x (List.mem_cons_of_mem _ hx)
      obtain definition | delay := named
      · exact ⟨fun same => other x hx (same.trans definition.symm), fun same => definition_not_delay he hx'
          definition same⟩
      · exact ⟨fun same => definition_not_delay hx' he same delay, fun same => other x hx (same.trans delay.symm)⟩
    constructor
    · exact rest.tb.trans first.tb
    · exact rest.lanes.trans first.lanes
    · exact rest.counter.trans first.counter
    · intro ops
      have link := first.link
      rw [ops] at link
      have left : removeFirst (fun x => x.tag == e.tag) (e :: l) = l := by simp [removeFirst]
      rw [left] at link
      have same : l.map (s.cancelOp e).cancelled = l.map s.cancelled := List.map_congr_left fun x hx => (still x hx).2
      rw [List.foldl_cons, rest.link (by rw [link]), same, link]
      simp
    · intro q none
      rw [List.foldl_cons, rest.others q fun x hx => none x (List.mem_cons_of_mem _ hx)]
      exact first.others q (none e List.mem_cons_self).1 (none e List.mem_cons_self).2
    · intro x hx q concern
      rcases List.mem_cons.1 hx with rfl | hx
      · rw [untouched q (.inl concern)]
        exact first.vacated q concern
      · exact rest.vacated x hx q concern
    · intro x hx q concern
      rcases List.mem_cons.1 hx with rfl | hx
      · rw [untouched q (.inr concern)]
        exact first.stopped q concern
      · have stopped := rest.stopped x hx q concern
        rwa [(first.apart he (stands x (List.mem_cons_of_mem _ hx)) (other x hx)).1 q (.inr concern)] at stopped
    · intro x hx concern
      rcases List.mem_cons.1 hx with rfl | hx
      · obtain ⟨check, window⟩ := rest.checkStands fun y hy same => other y hy (same.trans concern.symm)
        obtain ⟨ended, empty⟩ := first.checkEnded concern
        exact ⟨check.trans ended, window.trans empty⟩
      · exact rest.checkEnded x hx concern
    · intro none
      obtain ⟨check, window⟩ := rest.checkStands fun x hx => none x (List.mem_cons_of_mem _ hx)
      obtain ⟨before, emptied⟩ := first.checkStands (none e List.mem_cons_self)
      exact ⟨check.trans before, window.trans emptied⟩
    · exact fillAbandoned_cons first rest.fill

end Sys2Proof.Machine
end

section
/-! PROOF. CANCEL of one tag and of all of them (O30). -/

namespace Sys2Proof.Machine

/-! ## The one entry of a tag -/

section
variable {α : Type} {tagOf : α → Byte}

/-- Among entries of different tags, those of one tag are one. -/
theorem filter_tag_eq {l : List α} {a : α} (apart : (l.map tagOf).Nodup) (mem : a ∈ l) :
    l.filter (fun x => tagOf x == tagOf a) = [a] := by
  induction l with
  | nil => cases mem
  | cons x l ih =>
    obtain ⟨own, apart⟩ := List.nodup_cons.1 (List.map_cons ▸ apart)
    have others (y : α) (hy : y ∈ l) (same : tagOf y = tagOf x) : False := own (same ▸ List.mem_map_of_mem hy)
    rcases List.mem_cons.1 mem with rfl | mem
    · rw [List.filter_cons_of_pos (by simp), List.filter_eq_nil_iff.2]
      intro y hy same
      exact others y hy (by simpa using same)
    · rw [List.filter_cons_of_neg, ih apart mem]
      intro same
      exact others a mem (by simpa using Eq.symm (by simpa using same))

theorem find_tag_eq {l : List α} {a : α} (apart : (l.map tagOf).Nodup) (mem : a ∈ l) :
    l.find? (fun x => tagOf x == tagOf a) = some a := by
  rw [← List.head?_filter, filter_tag_eq apart mem]
  rfl

/-- Taking out the first entry of a tag takes out all of them. -/
theorem removeFirst_tag_eq {l : List α} (tag : Byte) (apart : (l.map tagOf).Nodup) :
    removeFirst (fun x => tagOf x == tag) l = l.filter fun x => tagOf x != tag := by
  induction l with
  | nil => rfl
  | cons x l ih =>
    obtain ⟨own, apart⟩ := List.nodup_cons.1 (List.map_cons ▸ apart)
    by_cases here : tagOf x = tag
    · rw [removeFirst, if_pos (by simpa using here), List.filter_cons_of_neg (by simpa using here),
        List.filter_eq_self.2]
      intro y hy
      have other : tagOf y ≠ tag := fun same => own (here.trans same.symm ▸ List.mem_map_of_mem hy)
      simpa using other
    · rw [removeFirst, if_neg (by simpa using here), List.filter_cons_of_pos (by simpa using here), ih apart]

end

/-! ## The answers to CANCEL (R20, R184) -/

theorem cancel_unknown {s : State} {target : Byte} (nonzero : target ≠ 0) (held : s.tagHeld target = false) :
    s.cancel target = .refuse .unknownTag s := by
  obtain ⟨ops, schedule⟩ := Bool.or_eq_false_iff.1 held
  have none : s.link.ops.find? (fun e => e.tag == target) = none := by
    simpa using ops
  rw [State.cancel, if_neg nonzero, none]
  simp [schedule]

theorem cancel_entry {s : State} {e : SchedEntry} (nonzero : e.tag ≠ 0)
    (ops : s.link.ops.any (fun o => o.tag == e.tag) = false) (mem : e ∈ s.tb.schedule)
    (apart : (s.tb.schedule.map SchedEntry.tag).Nodup) : s.cancel e.tag = .ok { s with
      tb := { s.tb with schedule := s.tb.schedule.filter fun x => x.tag != e.tag }
      link := { s.link with
        completions := s.link.completions ++ [⟨e.tag, e.kind, .cancelled, some e.due, []⟩] } } := by
  have none : s.link.ops.find? (fun o => o.tag == e.tag) = none := by
    simpa using ops
  have found : s.tb.schedule.any (fun x => x.tag == e.tag) = true := List.any_eq_true.2 ⟨e, mem, by simp⟩
  rw [State.cancel, if_neg nonzero, none]
  dsimp only
  rw [found, if_pos rfl, State.cancelEntries, filter_tag_eq apart mem]
  rfl

theorem cancel_operation {s : State} {o : OpEntry} (nonzero : o.tag ≠ 0) (mem : o ∈ s.link.ops)
    (apart : (s.link.ops.map OpEntry.tag).Nodup) : s.cancel o.tag = .ok (s.cancelOp o) := by
  rw [State.cancel, if_neg nonzero, find_tag_eq apart mem]

theorem cancel_all (s : State) : s.cancel 0 = .read (bigEndian 1 (s.link.ops.length + s.tb.schedule.length))
    ((s.link.ops.foldl State.cancelOp s).cancelEntries fun _ => true) := if_pos rfl

/-- A CANCEL that is answered OK. -/
theorem exec_cancel {s t : State} {tag target : Byte} {report : List Byte} (free : s.LinkFree)
    (answered : s.cancel target = ⟨.ok, report, t⟩) :
    exec (.cancel tag target) s = .next (t.replied 0x04 tag .ok report) :=
  exec_read (r := .cancel target) rfl free rfl rfl answered rfl

end Sys2Proof.Machine

open Sys2Proof Sys2Proof.Machine

/-- Settles O30: one tag names one piece of work, which ends by the rule that owns it; the "all" form ends each in turn,
and the end of one leaves the work of the others standing. -/
theorem cancelEndsTheWorkItNames : Obligations.CancelEndsTheWorkItNames := by
  refine ⟨fun s tag target free => ⟨?_, ?_, ?_⟩, ?_, ?_⟩
  · intro nonzero held
    exact exec_refused (r := .cancel target) rfl free rfl rfl (cancel_unknown nonzero held)
  · rintro e nonzero ops mem rfl work
    exact exec_cancel free (cancel_entry nonzero ops mem (List.nodup_append.1 work.tags).2.1)
  · rintro o c mem work rfl concern running tag
    have apart := (List.nodup_append.1 work.tags).1
    have nonzero := work.nonzero.1 o mem
    have ended : s.cancelOp o = s.cancelCheck := by
      unfold State.cancelOp
      rw [concern]
    have answered := cancel_operation nonzero mem apart
    rw [ended, cancelCheck_eq running (tag ▸ nonzero), tag, removeFirst_tag_eq o.tag apart] at answered
    exact exec_cancel free answered
  · rintro s tag target e p x held v free defined mem work rfl concern open_
    have apart := (List.nodup_append.1 work.tags).1
    have nonzero := work.nonzero.1 e mem
    obtain ⟨y, stands, stopped, only, link⟩ := cancelDelay_ended defined open_
    have ended : s.cancelOp e = s.cancelDelay p := by
      unfold State.cancelOp
      rw [concern]
    have answered := cancel_operation nonzero mem apart
    rw [ended] at answered
    have moved := stopped.moved
    rw [slewArrival_eq] at moved
    refine ⟨s.cancelDelay p, y, exec_cancel free answered, only, stands, stopped.value, stopped.target, stopped.idle,
      ⟨moved, stopped.schedule, stopped.pathLat, stopped.retrim, stopped.slewRate, stopped.autoLimit,
        stopped.record⟩, ?_⟩
    rw [link, removeFirst_tag_eq e.tag apart]
  · intro s tag free work stands apart
    have ended := allEnded_cancelOps s.link.ops s stands apart work.nonzero.1
    have link := ended.link rfl
    refine ⟨_, exec_cancel free (cancel_all s), ?_, ?_, ?_, ended.lanes, ?_, ended.counter⟩
    · unfold State.cancelEntries
      dsimp only
      rw [ended.tb]
      simp
    · unfold State.cancelEntries
      dsimp only
      rw [link, ended.tb]
      simp
    · exact fun e mem => ⟨fun p => ended.vacated e mem p, fun p => ended.stopped e mem p, ended.checkEnded e mem⟩
    · exact ended.fill

end

section
/-! PROOF. Lanes stay within their bounds (O7): what each operation on a lane keeps, and which leaf changes touch the
lanes. -/

namespace Sys2Proof.Machine

/-! ## Ratios, fills and latencies within their ranges (R24, R36, R37, R41) -/

theorem catchRange_nonneg (c : RateClass) : 0 ≤ c.catchRange := by cases c <;> decide

/-- The least ratio of a class is above 0. -/
theorem lowest_ratio_pos (c : RateClass) : 0 < c.nominal - c.catchRange := by cases c <;> decide

theorem holdRatio_within (x : Lane) (v : Int) : x.loopClass.nominal - x.loopClass.catchRange ≤ x.holdRatio v
    ∧ x.holdRatio v ≤ x.loopClass.nominal + x.loopClass.catchRange := by
  have := catchRange_nonneg x.loopClass
  unfold Lane.holdRatio clampInt
  omega

theorem nominal_within (c : RateClass) :
    c.nominal - c.catchRange ≤ c.nominal ∧ c.nominal ≤ c.nominal + c.catchRange := by
  have := catchRange_nonneg c
  omega

/-- A measured latency is at least 32 house samples, and is held at 255 (R40, R41). -/
theorem wholeLatency_measured (x : Lane) : 1 ≤ wholeLatency x.measured ∧ wholeLatency x.measured ≤ 255 := by
  unfold wholeLatency Lane.measured
  omega

/-- An empty store's fill, and one of 64 whole frames with or without a fraction, lie within the store (R36, R39). -/
theorem fill_emptied : 0 / 2 ^ 16 ≤ 65536 := by decide

theorem fill_placed : 64 * 2 ^ 24 / 2 ^ 16 ≤ 65536 := by decide

theorem fill_stepped (q : Nat) : (64 * 2 ^ 24 + q % 2 ^ 24) / 2 ^ 16 ≤ 65536 := by omega

/-! ## Each operation on a lane -/

namespace Lane.Bounded

variable {x : Lane}

theorem noSlip (h : x.Bounded) : x.noSlip.Bounded := ⟨h.rho, h.rhoInt, h.fill, h.store, h.inUse⟩

theorem slipTest (h : x.Bounded) : x.slipTest.Bounded := by
  unfold Lane.slipTest
  split
  · exact ⟨h.rho, h.rhoInt, h.fill, h.store, h.inUse⟩
  · exact h

theorem placeRead (h : x.Bounded) : x.placeRead.Bounded := ⟨h.rho, h.rhoInt, fill_placed, h.store, h.inUse⟩

theorem emptyStore (h : x.Bounded) : x.emptyStore.Bounded := ⟨h.rho, h.rhoInt, fill_emptied, Nat.zero_le _, h.inUse⟩

theorem enterSensing (now : Time) (h : x.Bounded) : (x.enterSensing now).Bounded :=
  ⟨nominal_within _, nominal_within _, fill_emptied, h.store, h.inUse⟩

theorem enterDark (h : x.Bounded) : x.enterDark.Bounded := ⟨h.rho, h.rhoInt, fill_emptied, Nat.zero_le _, h.inUse⟩

theorem enterPulling (c : RateClass) (h : x.Bounded) : (x.enterPulling c).Bounded :=
  ⟨nominal_within c, nominal_within c, fill_placed, h.store, h.inUse⟩

theorem enterLocked (h : x.Bounded) : x.enterLocked.Bounded :=
  ⟨h.rho, h.rhoInt, h.fill, h.store, wholeLatency_measured x⟩

theorem enterHoldover (now : Time) (h : x.Bounded) : (x.enterHoldover now).Bounded :=
  ⟨h.rho, h.rhoInt, h.fill, h.store, h.inUse⟩

theorem gather (status marker : Bool) (h : x.Bounded) : (x.gather status marker).Bounded := by
  unfold Lane.gather
  dsimp only
  split
  · exact h
  · split <;> exact ⟨h.rho, h.rhoInt, h.fill, h.store, h.inUse⟩

theorem writeFrame (slots : List Sample) (h : x.Bounded) : (x.writeFrame slots).Bounded where
  rho := h.rho
  rhoInt := h.rhoInt
  fill := by
    have before := h.fill
    unfold Lane.fill at *
    unfold Lane.writeFrame
    dsimp only
    split <;> omega
  store := List.length_take_le ..
  inUse := h.inUse

theorem clockReturn (now : Time) (h : x.Bounded) : (x.clockReturn now).Bounded := by
  have present : Bounded { x with clockPresent := true } := ⟨h.rho, h.rhoInt, h.fill, h.store, h.inUse⟩
  unfold Lane.clockReturn
  dsimp only
  split
  · exact present
  · split
    · exact present.enterSensing now
    · exact ⟨h.rho, h.rhoInt, h.fill, h.store, h.inUse⟩
    all_goals exact present

theorem frameStart (now : Time) (slots : List Sample) (status marker : Bool) (h : x.Bounded) :
    (x.frameStart now slots status marker).Bounded := by
  unfold Lane.frameStart
  extract_lets present started gathered
  have hp : present.Bounded := by
    unfold present
    split
    · exact h
    · exact h.clockReturn now
  have hs : started.Bounded := ⟨hp.rho, hp.rhoInt, hp.fill, hp.store, hp.inUse⟩
  have hg : gathered.Bounded := by
    unfold gathered
    split
    · exact hs.gather ..
    · exact hs
  split
  · exact hg.writeFrame slots
  · exact hg

theorem clockLost (now : Time) (h : x.Bounded) : (x.clockLost now).Bounded := by
  have absent : Bounded { x with clockPresent := false, partialBlock := none } :=
    ⟨h.rho, h.rhoInt, h.fill, h.store, h.inUse⟩
  unfold Lane.clockLost
  dsimp only
  split
  · exact h
  · split
    · exact absent
    · split
      · exact absent.enterDark
      · exact absent.enterDark
      · exact absent.enterDark
      · exact absent.enterHoldover now
      · exact ⟨h.rho, h.rhoInt, h.fill, h.store, h.inUse⟩
      · exact absent

theorem windowEnd (now : Time) (h : x.Bounded) : (x.windowEnd now).Bounded := by
  unfold Lane.windowEnd
  dsimp only
  split
  · split
    · split
      · exact h.enterPulling _
      · exact ⟨h.rho, h.rhoInt, h.fill, h.store, h.inUse⟩
    · exact ⟨h.rho, h.rhoInt, h.fill, h.store, h.inUse⟩
  · exact h

theorem returnEnd (now : Time) (h : x.Bounded) : (x.returnEnd now).Bounded := by
  unfold Lane.returnEnd
  split
  · split
    · split
      · exact h.placeRead.enterLocked
      · exact h.enterSensing now
    · exact h
  · exact h

theorem holdoverExpiry (now : Time) (h : x.Bounded) : (x.holdoverExpiry now).Bounded := by
  unfold Lane.holdoverExpiry
  split
  · exact h.enterDark
  · exact h

theorem ratioStep (h : x.Bounded) : x.ratioStep.Bounded :=
  ⟨holdRatio_within x _, holdRatio_within x _, h.fill, h.store, h.inUse⟩

theorem countRuns (h : x.Bounded) : x.countRuns.Bounded := by
  unfold Lane.countRuns
  dsimp only
  split
  · exact ⟨h.rho, h.rhoInt, h.fill, h.store, h.inUse⟩
  · split <;> exact ⟨h.rho, h.rhoInt, h.fill, h.store, h.inUse⟩

theorem measureLatency (h : x.Bounded) : x.measureLatency.Bounded := by
  unfold Lane.measureLatency Lane.hysteresis
  split
  · exact ⟨h.rho, h.rhoInt, h.fill, h.store, wholeLatency_measured x⟩
  · exact ⟨h.rho, h.rhoInt, h.fill, h.store, h.inUse⟩

theorem controlInstant (now : Time) (h : x.Bounded) : (x.controlInstant now).Bounded := by
  have taken : Bounded { x with controlTaken := true } := ⟨h.rho, h.rhoInt, h.fill, h.store, h.inUse⟩
  unfold Lane.controlInstant
  dsimp only
  split
  · split
    · exact taken.ratioStep.countRuns.measureLatency
    · exact taken
  · exact h

theorem pinLimit (now : Time) (h : x.Bounded) : (x.pinLimit now).Bounded := by
  unfold Lane.pinLimit
  split
  · exact h.enterSensing now
  · exact h

theorem lockMet (h : x.Bounded) : x.lockMet.Bounded := by
  unfold Lane.lockMet
  split
  · split
    · exact h.enterLocked
    · exact ⟨h.rho, h.rhoInt, h.fill, h.store, h.inUse⟩
  · exact h

theorem entryFadeEnd (h : x.Bounded) : x.entryFadeEnd.Bounded := by
  unfold Lane.entryFadeEnd
  split
  · exact ⟨h.rho, h.rhoInt, h.fill, h.store, h.inUse⟩
  · exact h

theorem slipStep (h : x.Bounded) : x.slipStep.Bounded := by
  unfold Lane.slipStep
  split
  · exact ⟨h.rho, h.rhoInt, fill_stepped x.fillQ, h.store, h.inUse⟩
  · exact h

theorem slipEnd (h : x.Bounded) : x.slipEnd.Bounded := by
  unfold Lane.slipEnd
  split
  · exact h.noSlip.slipTest
  · exact h

theorem disable (h : x.Bounded) : x.disable.Bounded :=
  ⟨h.rho, h.rhoInt, fill_emptied, Nat.zero_le _, h.inUse⟩

theorem enable (now : Time) (h : x.Bounded) : (x.enable now).Bounded := by
  have enabled : Bounded { x with enabled := true } := ⟨h.rho, h.rhoInt, h.fill, h.store, h.inUse⟩
  unfold Lane.enable
  dsimp only
  split
  · exact enabled.enterSensing now
  · exact enabled

theorem configure (now : Time) (enabled oneShot : Bool) (hold : Byte) (h : x.Bounded) :
    (x.configure now enabled oneShot hold).Bounded := by
  unfold Lane.configure
  extract_lets switched set taken
  have hw : switched.Bounded := by
    unfold switched
    split
    · exact h
    · split
      · exact h.enable now
      · exact h.disable
  have hs : set.Bounded := ⟨hw.rho, hw.rhoInt, hw.fill, hw.store, hw.inUse⟩
  refine holdoverExpiry now ?_
  unfold taken
  split
  · exact hs.enterLocked
  · exact hs

theorem takeAdmit (h : x.Bounded) : x.takeAdmit.Bounded := by
  unfold Lane.takeAdmit
  split
  · exact h.enterLocked
  · split
    · exact ⟨h.rho, h.rhoInt, h.fill, h.store, h.inUse⟩
    · exact h
  · split
    · exact ⟨h.rho, h.rhoInt, h.fill, h.store, h.inUse⟩
    · exact h
  all_goals exact h

theorem restart (now : Time) (h : x.Bounded) : (x.restart now).Bounded := by
  have cleared : Bounded { x.emptyStore with slipCount := 0, admission := false } :=
    ⟨h.rho, h.rhoInt, fill_emptied, Nat.zero_le _, h.inUse⟩
  unfold Lane.restart
  dsimp only
  split
  · exact cleared.enterSensing now
  · exact ⟨nominal_within _, nominal_within _, fill_emptied, Nat.zero_le _, h.inUse⟩

theorem closeSample (h : x.Bounded) : x.closeSample.Bounded := ⟨h.rho, h.rhoInt, h.fill, h.store, h.inUse⟩

/-- The read position held at the write position, a house sample takes a lane no fill (R36). -/
theorem tick (h : x.Bounded) : x.tick.Bounded := by
  have fill := h.fill
  have read : Bounded (if x.state.reading then x.readAdvance else x) := by
    split
    · refine ⟨h.rho, h.rhoInt, ?_, h.store, h.inUse⟩
      unfold Lane.fill Lane.readAdvance at *
      dsimp only
      omega
    · exact h
  unfold Lane.tick
  dsimp only
  generalize (if x.state.reading then x.readAdvance else x) = y at *
  exact slipTest ⟨read.rho, read.rhoInt, read.fill, read.store, read.inUse⟩

end Lane.Bounded

/-- Every operation made on a lane keeps its bounds. -/
theorem LaneStep.keeps_bounded {now : Time} {f : Lane → Lane} (step : LaneStep now f) {x : Lane} (h : x.Bounded) :
    (f x).Bounded := by
  cases step with
  | frameStart slots status marker => exact h.frameStart ..
  | clockLost => exact h.clockLost now
  | windowEnd => exact h.windowEnd now
  | returnEnd => exact h.returnEnd now
  | holdoverExpiry => exact h.holdoverExpiry now
  | controlInstant => exact h.controlInstant now
  | pinLimit => exact h.pinLimit now
  | lockMet => exact h.lockMet
  | entryFadeEnd => exact h.entryFadeEnd
  | slipStep => exact h.slipStep
  | slipEnd => exact h.slipEnd
  | configure enabled oneShot hold => exact h.configure ..
  | takeAdmit => exact h.takeAdmit
  | restart => exact h.restart now

/-! ## The lanes under every leaf change -/

theorem keepsLanes_stable (s : State) : Stable fun u => u.lanes = s.lanes where
  program u p f _ h := (State.progStep_lanes p f u).trans h
  dropDelay _ _ _ _ h := h
  link _ _ _ h := h
  schedule _ _ h := h

theorem handProgram_lanes (p : Fin 16) (s : State) : (s.handProgram p).lanes = s.lanes :=
  (keepsOutside_handProgram p s).lanes

theorem realignAll_lanes (l : Fin 4) (s : State) : (forAll allPrograms (State.realignFor l) s).lanes = s.lanes :=
  (keepsOutside_realignAll l s).lanes

theorem setLane_same (l : Fin 4) (s : State) : s.setLane l (s.lane l) = s := by
  simp [State.setLane, State.lane]

/-- An operation on a lane leaves it as the operation makes it, and every other lane alone. -/
theorem laneStep_lanes (l : Fin 4) (f : Lane → Lane) (s : State) :
    (s.laneStep l f).lanes = (s.setLane l (f (s.lane l))).lanes := by
  unfold State.laneStep State.putLane
  split
  · rename_i same
    rw [same, setLane_same]
  · dsimp only
    split
    · exact realignAll_lanes l _
    · rfl

/-- What a leaf change does to the lanes. -/
theorem leaf_lanes {s t : State} (leaf : Leaf s t) : t.lanes = s.lanes
    ∨ (∃ l f, LaneStep s.counter f ∧ t.lanes = (s.setLane l (f (s.lane l))).lanes)
    ∨ t.lanes = s.lanes.map Lane.fillPipe
    ∨ ∃ l, t.lanes = (s.setLane l { s.lane l with blockReady := false }).lanes := by
  have stable := keepsLanes_stable s
  cases leaf with
  | own step =>
    cases step with
    | lane l step => exact .inr (.inl ⟨l, _, step, laneStep_lanes ..⟩)
    | interpolate => exact .inr (.inr (.inl rfl))
    | program p _ => exact .inl (State.progStep_lanes ..)
    | time _ => exact .inl (stable.timed rfl rfl)
    | standby p x _ => exact .inl (keepsOutside_putProgram ..).lanes
    | output p => exact .inl (keepsOutside_formOutput p s).lanes
    | alarm | link | closeOp | memory | record => exact .inl rfl
  | define p tag d chs _ _ => exact .inl ((handProgram_lanes ..).trans (stable.toInside.openOp _ _ rfl))
  | delay p tag d _ => exact .inl (stable.toInside.takeDelay p tag d rfl)
  | openCheck tag _ => exact .inl (stable.toInside.openOp tag .check rfl)
  | vacate p =>
    unfold State.vacate
    split <;> exact .inl rfl
  | clearReady l => exact .inr (.inr (.inr ⟨l, rfl⟩))
  | asked | buffer | dropDelay | cancelEntries | addEntry | restarted => exact .inl rfl

/-- Every lane lies within its bounds. -/
def State.LanesBounded (s : State) : Prop := ∀ l, (s.lane l).Bounded

theorem State.LanesBounded.of_lanes {s t : State} (lanes : t.lanes = s.lanes) (h : s.LanesBounded) : t.LanesBounded := by
  intro l
  unfold State.lane
  rw [lanes]
  exact h l

theorem State.LanesBounded.setLane {s : State} (l : Fin 4) {x : Lane} (hx : x.Bounded) (h : s.LanesBounded) :
    (s.setLane l x).LanesBounded := by
  intro k
  by_cases same : l = k
  · subst same
    rwa [State.lane_setLane]
  · rw [State.lane_setLane_ne _ _ _ _ same]
    exact h k

theorem State.LanesBounded.map {s t : State} {f : Lane → Lane} (lanes : t.lanes = s.lanes.map f)
    (keeps : ∀ {x : Lane}, x.Bounded → (f x).Bounded) (h : s.LanesBounded) : t.LanesBounded := by
  intro l
  have lane : t.lane l = f (s.lane l) := by unfold State.lane; rw [lanes]; simp
  rw [lane]
  exact keeps (h l)

theorem lanesBounded_leaf {s t : State} (leaf : Leaf s t) (h : s.LanesBounded) : t.LanesBounded := by
  obtain stand | ⟨l, f, step, set⟩ | filled | ⟨l, cleared⟩ := leaf_lanes leaf
  · exact h.of_lanes stand
  · exact (h.setLane l (step.keeps_bounded (h l))).of_lanes set
  · exact h.map filled fun b => ⟨b.rho, b.rhoInt, b.fill, b.store, b.inUse⟩
  · obtain ⟨rho, rhoInt, fill, store, inUse⟩ := h l
    exact (h.setLane l (x := { s.lane l with blockReady := false }) ⟨rho, rhoInt, fill, store, inUse⟩).of_lanes cleared

theorem lanesBounded_powerOn (s : State) (high : Bool) : (State.powerOn high s).LanesBounded := by
  intro l
  exact (reset_lane l).symm ▸ laneReset_bounded

theorem lanesBounded_openSample (pins : BitVec 4) {s : State} (h : s.LanesBounded) :
    (s.latch.openSample pins).LanesBounded := by
  have latched : s.latch.LanesBounded := h.map rfl Lane.Bounded.closeSample
  exact latched.map rfl Lane.Bounded.tick

end Sys2Proof.Machine

open Sys2Proof Sys2Proof.Machine

/-- Settles O7: each operation on a lane keeps its bounds, and so do power-on and the opening of a house sample. -/
theorem stepKeepsLaneRatiosInTheCatchRange : Obligations.StepKeepsLaneRatiosInTheCatchRange := fun _ _ hs h =>
  step_keeps (P := State.LanesBounded) (fun _ _ => State.LanesBounded.of_lanes rfl) (fun _ _ => State.LanesBounded.of_lanes rfl)
    (fun _ _ => lanesBounded_leaf) lanesBounded_powerOn (fun _ pins hs => lanesBounded_openSample pins hs)
    (fun _ _ _ => State.LanesBounded.of_lanes rfl) hs h

end

section
/-! PROOF. A lane's change and the programs that read it (R42, R123, R133): the record of a program that is trimmed
anew, the programs one after another, and all that an operation on one lane leaves unchanged. -/

namespace Sys2Proof.Machine

/-! ## A program trimmed anew (R123, R127, R133) -/

/-- P_prog looks at the channels' sources in use alone. -/
theorem pathLatency_of_sources {lanes : Vector Lane 4} {a b : List Channel}
    (sources : a.map Channel.inUse = b.map Channel.inUse) : pathLatency lanes a = pathLatency lanes b := by
  let lane (src : Source) : Lane := lanes[src.lane.val]'src.lane.isLt
  have latencies (l : List Channel) : (l.filter (Channel.laneLocked lanes)).map (Channel.laneLatency lanes)
      = ((l.map Channel.inUse).filter fun src => (lane src).state == .locked).map fun src => (lane src).inUse := by
    rw [List.filter_map, List.map_map]
    rfl
  have same : (a.filter (Channel.laneLocked lanes)).map (Channel.laneLatency lanes)
      = (b.filter (Channel.laneLocked lanes)).map (Channel.laneLatency lanes) := by
    rw [latencies, latencies, sources]
  have empty : (a.filter (Channel.laneLocked lanes)).isEmpty = (b.filter (Channel.laneLocked lanes)).isEmpty := by
    rw [← List.isEmpty_map (f := Channel.laneLatency lanes), same, List.isEmpty_map]
  unfold pathLatency
  dsimp only
  rw [same, empty]

theorem startTrimStep_keeps (ch : Channel) :
    ch.startTrimStep.inUse = ch.inUse ∧ ch.startTrimStep.readBuf = ch.readBuf := by
  unfold Channel.startTrimStep
  split <;> exact ⟨rfl, rfl⟩

/-- Trimming leaves a channel its source in use and its read buffer. -/
theorem retrim_keeps (lanes : Vector Lane 4) (pprog : Nat) (direct : Bool) (ch : Channel) :
    (ch.retrim lanes pprog direct).inUse = ch.inUse ∧ (ch.retrim lanes pprog direct).readBuf = ch.readBuf := by
  unfold Channel.retrim
  dsimp only
  split
  · exact ⟨rfl, rfl⟩
  · split
    · exact ⟨rfl, rfl⟩
    · exact startTrimStep_keeps _

/-- A change of the target leaves the channels, or empties their read buffers. -/
theorem takeChange_channels (mode : ChangeMode) (x : Program) : (x.takeChange mode).channels = x.channels
    ∨ (x.takeChange mode).channels = x.emptyReadBuffers.channels := by
  by_cases bypass : x.align.bypass = .none
  · by_cases onAir : x.state = .running
    · left
      rw [takeChange_onAir bypass onAir]
      cases x.align.motion with
      | slewing => cases x.align.resolve mode <;> rfl
      | steady | cutOut | cutIn => rfl
    · exact .inr (by rw [takeChange_offAir bypass onAir]; rfl)
  · exact .inl (by rw [takeChange_bypassed bypass])

theorem takeChange_sources (mode : ChangeMode) (x : Program) :
    (x.takeChange mode).channels.map Channel.inUse = x.channels.map Channel.inUse := by
  obtain same | emptied := takeChange_channels mode x
  · rw [same]
  · rw [emptied, Program.emptyReadBuffers, List.map_map]
    rfl

theorem retarget_sources (mode : ChangeMode) (value pprog : Nat) (x : Program) :
    (x.retarget mode value pprog).channels.map Channel.inUse = x.channels.map Channel.inUse := by
  by_cases same : x.targetFor value pprog = x.align.target
  · rw [retarget_same same]
    rfl
  · rw [retarget_moved same, takeChange_sources]
    rfl

/-- A program with its channels trimmed to the lanes, its target still as it was. -/
def Program.trimmed (lanes : Vector Lane 4) (x : Program) : Program :=
  { x with channels := x.channels.map (Channel.retrim lanes (pathLatency lanes x.channels) false) }

theorem realign_eq (lanes : Vector Lane 4) (x : Program) : x.realign lanes =
    (x.trimmed lanes).retarget x.align.retrim x.align.value (pathLatency lanes x.channels) := rfl

theorem trimmed_sources (lanes : Vector Lane 4) (x : Program) :
    (x.trimmed lanes).channels.map Channel.inUse = x.channels.map Channel.inUse := by
  rw [Program.trimmed, List.map_map]
  exact List.map_congr_left fun ch _ => (retrim_keeps lanes _ false ch).1

theorem trimmed_readBufs (lanes : Vector Lane 4) (x : Program) :
    (x.trimmed lanes).channels.map Channel.readBuf = x.channels.map Channel.readBuf := by
  rw [Program.trimmed, List.map_map]
  exact List.map_congr_left fun ch _ => (retrim_keeps lanes _ false ch).2

/-- P_prog of the program that stands is the one it was aimed by. -/
theorem realign_pathLatency (lanes : Vector Lane 4) (x : Program) :
    pathLatency lanes (x.realign lanes).channels = pathLatency lanes x.channels :=
  pathLatency_of_sources ((retarget_sources ..).trans (trimmed_sources lanes x))

theorem realign_motion (lanes : Vector Lane 4) (x : Program) :
    (x.trimmed lanes).aimed x.align.value (pathLatency lanes x.channels) |>.MotionTaken (x.realign lanes) :=
  retarget_motion ..

/-- What a change of the target starts from: the alignment, the state and the read buffers. -/
theorem TargetMoved.of_start {mode : ChangeMode} {target : Nat} {x w y : Program} (align : w.align = x.align)
    (state : w.state = x.state) (bufs : w.channels.map Channel.readBuf = x.channels.map Channel.readBuf)
    (h : w.TargetMoved mode target y) : x.TargetMoved mode target y := by
  unfold Program.TargetMoved at *
  rwa [align, state, bufs] at h

theorem targetMoved_realign (lanes : Vector Lane 4) (x : Program) : x.TargetMoved x.align.retrim
    (min ((x.rows - 1) * 4800) (x.align.value - pathLatency lanes x.channels)) (x.realign lanes) :=
  TargetMoved.of_start (w := x.trimmed lanes) rfl rfl (trimmed_readBufs lanes x) (targetMoved_retarget ..)

/-! ## A program put in its place (R97, R101, R134) -/

/-- A settled delay closes its operation and changes nothing else. -/
theorem closeSettled_eq (x : Program) : x.closeSettled =
    { x with align := { x.align with op := if x.align.settled then none else x.align.op } } := by
  unfold Program.closeSettled
  split <;> rfl

/-- What stands once a program has been put in its place. -/
theorem standing_eq (now : Time) (x z : Program) : Program.standing now x z = { z with
    align := { z.align with op := if z.align.settled then none else z.align.op }
    out := if z.lineDelay = x.lineDelay then z.out else (z.applyDue now).out } := by
  unfold Program.standing
  rw [closeSettled_eq]
  split
  · rfl
  · rw [applyDue_record]

/-- The gain schedule follows the line delay of the program that is put in the place of another. -/
theorem scheduleMoved_put {now : Time} {x z : Program} (out : z.out = x.out) :
    x.ScheduleMoved now (Program.standing now x z).lineDelay (Program.standing now x z) := by
  have line : (Program.standing now x z).lineDelay = z.lineDelay := by rw [standing_eq]; rfl
  have moved : (Program.standing now x z).out = if z.lineDelay = x.lineDelay then z.out else (z.applyDue now).out := by
    rw [standing_eq]
  rw [line]
  refine ⟨fun same => ?_, fun apart done held split due ahead => ?_⟩
  · rw [moved, if_pos same, out]
  · rw [moved, if_neg apart]
    have applied := applyDue_split (now := now) (x := z) (out ▸ split) due ahead
    rwa [out] at applied

/-- A program that is trimmed anew stands as R123, R127 and R133 have it. -/
theorem retrimmed_standing (now : Time) (lanes : Vector Lane 4) (x : Program) :
    x.Retrimmed now lanes (Program.standing now x (x.realign lanes)) := by
  obtain ⟨record, align⟩ := realign_motion lanes x
  have moved := targetMoved_realign lanes x
  have latency := realign_pathLatency lanes x
  generalize x.realign lanes = z at *
  have out : z.out = x.out := (congrArg Program.out record :)
  have aimed : z.align.pathLat = pathLatency lanes x.channels := (congrArg Align.pathLat align :)
  have stands := standing_eq now x z
  have schedule := scheduleMoved_put (now := now) out
  generalize Program.standing now x z = y at *
  have motion : y.align = { z.align with op := if z.align.settled then none else z.align.op } := by rw [stands]
  have channels : y.channels = z.channels := by rw [stands]
  have pathLat : y.align.pathLat = pathLatency lanes x.channels := by rw [motion]; exact aimed
  refine ⟨?_, ?_, ?_, ?_, ?_, ?_, schedule, ?_, ?_⟩
  · rw [pathLat, channels, latency]
  · rw [motion]; exact (congrArg Align.value align :)
  · rw [motion]; exact (congrArg Align.retrim align :)
  · rw [motion]; exact (congrArg Align.slewRate align :)
  · rw [motion]; exact (congrArg Align.autoLimit align :)
  · rw [pathLat]
    unfold Program.TargetMoved at *
    rw [motion, channels]
    exact moved
  · have op : z.align.op = x.align.op := (congrArg Align.op align :)
    rw [motion, ← op]
    rfl
  · rw [stands, record]
    rfl

/-! ## The programs one after another -/

/-- What one subject of a list brings about, the others keep: it holds after all of them. -/
theorem forAll_reaches {α : Type} {P Q : State → Prop} {f : α → State → State} {a : α} {l : List α} (mem : a ∈ l)
    (once : l.Nodup) (before : ∀ b s, b ≠ a → P s → P (f b s)) (made : ∀ s, P s → Q (f a s))
    (after : ∀ b s, b ≠ a → Q s → Q (f b s)) {s : State} (hs : P s) : Q (forAll l f s) := by
  induction l generalizing s with
  | nil => cases mem
  | cons b rest ih =>
    obtain ⟨fresh, once⟩ := List.nodup_cons.1 once
    by_cases same : b = a
    · subst same
      have rest_keeps (l : List α) (apart : ∀ c ∈ l, c ≠ b) (u : State) (hu : Q u) : Q (forAll l f u) := by
        induction l generalizing u with
        | nil => exact hu
        | cons c more ih =>
          exact ih (fun d hd => apart d (.tail _ hd)) _ (after c u (apart c (.head _)) hu)
      exact rest_keeps rest (fun c hc e => fresh (e ▸ hc)) _ (made s hs)
    · exact ih (List.mem_of_ne_of_mem (Ne.symm same) mem) once (before b s same hs)

theorem allPrograms_nodup : allPrograms.Nodup := by decide

/-- A program that does not read the lane stands as it was. -/
theorem realignFor_unread {l : Fin 4} {p : Fin 16} {s : State}
    (unread : ∀ x, s.program p = some x → x.usesLane l = false) : s.realignFor l p = s := by
  cases defined : s.program p with
  | none => exact progStep_vacant defined
  | some x => exact progStep_same defined (by rw [unread x defined]; rfl)

theorem realignFor_read {l : Fin 4} {p : Fin 16} {s : State} {x : Program} (defined : s.program p = some x)
    (open_ : x.Unsettled) (reads : x.usesLane l = true) :
    (s.realignFor l p).program p = some (Program.standing s.counter x (x.realign s.lanes)) := by
  unfold State.realignFor
  rw [progStep_standing _ defined open_, if_pos reads]

/-- Each program that reads the lane is trimmed anew, once. -/
theorem realignAll_read {l : Fin 4} {p : Fin 16} {s : State} {x : Program} (defined : s.program p = some x)
    (open_ : x.Unsettled) (reads : x.usesLane l = true) :
    (forAll allPrograms (State.realignFor l) s).program p = some (Program.standing s.counter x (x.realign s.lanes)) := by
  refine forAll_reaches (P := fun u => KeepsOutside s u ∧ u.program p = some x)
    (Q := fun u => u.program p = some (Program.standing s.counter x (x.realign s.lanes))) (mem_allPrograms p)
    allPrograms_nodup ?_ ?_ ?_ ⟨.refl s, defined⟩
  · rintro q u ne ⟨outside, stands⟩
    exact ⟨outside.trans (keepsOutside_progStep ..), (progStep_program_ne q p _ u ne).trans stands⟩
  · rintro u ⟨outside, stands⟩
    rw [realignFor_read stands open_ reads, outside.counter, outside.lanes]
  · intro q u ne stands
    exact (progStep_program_ne q p _ u ne).trans stands

/-- What the trimming of a lane's programs leaves unchanged. -/
structure OnlyReaders (l : Fin 4) (s t : State) : Prop where
  outside : KeepsOutside s t
  programs : ∀ p, (∀ x, s.program p = some x → x.usesLane l = false) → t.program p = s.program p
  settings : KeepsSettings s.alarm t.alarm
  points : ∀ pt, (∀ p, pointOfProgram p pt = false) → t.alarm.point pt = s.alarm.point pt
  link : KeepsLink s.link t.link

theorem OnlyReaders.refl (l : Fin 4) (s : State) : OnlyReaders l s s :=
  ⟨.refl s, fun _ _ => rfl, .refl _, fun _ _ => rfl, .refl _⟩

theorem OnlyReaders.trans {l : Fin 4} {s t u : State} (h : OnlyReaders l s t) (k : OnlyReaders l t u) :
    OnlyReaders l s u where
  outside := h.outside.trans k.outside
  programs p unread := by
    have first := h.programs p unread
    exact (k.programs p (first ▸ unread)).trans first
  settings := h.settings.trans k.settings
  points pt other := (k.points pt other).trans (h.points pt other)
  link := h.link.trans k.link

theorem onlyReaders_realignFor (l : Fin 4) (p : Fin 16) (s : State) : OnlyReaders l s (s.realignFor l p) := by
  have only := onlyProgram_progStep p (fun x => if x.usesLane l then x.realign s.lanes else x) s
  refine ⟨only.outside, fun q unread => ?_, only.settings, fun pt other => only.points pt (other p), only.link⟩
  by_cases same : q = p
  · subst same
    rw [realignFor_unread unread]
  · exact only.others q same

theorem onlyReaders_realignAll (l : Fin 4) (s : State) : OnlyReaders l s (forAll allPrograms (State.realignFor l) s) :=
  forAll_rel (.refl l) (fun _ _ _ => .trans) _ (onlyReaders_realignFor l) s

/-! ## An operation on one lane -/

theorem keepsSettings_handLane (now : Time) (l : Fin 4) (x : Lane) (a : AlarmUnit) :
    KeepsSettings a (a.handLane now l x) :=
  ((keepsSettings_handRaw ..).trans (keepsSettings_handRaw ..)).trans (keepsSettings_handRaw ..)

/-- A point that is none of a lane's four. -/
theorem lanePoint_apart {l : Fin 4} {pt : Fin 118} (other : pointOfLane l pt = false) (k : Fin 4) : lanePoint k l ≠ pt := by
  have own : ∀ k l : Fin 4, pointOfLane l (lanePoint k l) = true := by decide
  rintro rfl
  rw [own] at other
  cases other

theorem handLane_point_ne {now : Time} {l : Fin 4} {x : Lane} {a : AlarmUnit} {pt : Fin 118}
    (other : pointOfLane l pt = false) : (a.handLane now l x).point pt = a.point pt := by
  unfold AlarmUnit.handLane
  rw [handRaw_point_ne _ _ _ (lanePoint_apart other 3), handRaw_point_ne _ _ _ (lanePoint_apart other 1),
    handRaw_point_ne _ _ _ (lanePoint_apart other 0)]

/-- Conditions that stand at their points already change nothing as they are handed over. -/
theorem handLane_same {s : State} {l : Fin 4} {y : Lane} (shown : s.LaneShown l) (now : Time)
    (stall : y.stall = (s.lane l).stall) (unlock : y.unlock = (s.lane l).unlock)
    (rate : y.rateWrong = (s.lane l).rateWrong) : s.alarm.handLane now l y = s.alarm := by
  obtain ⟨h0, h1, h3⟩ := shown
  unfold AlarmUnit.handLane
  rw [handRaw_same now (h0.trans stall.symm), handRaw_same now (h1.trans unlock.symm),
    handRaw_same now (h3.trans rate.symm)]

theorem OnlyLane.refl (l : Fin 4) (s : State) : OnlyLane l s s :=
  ⟨rfl, rfl, rfl, rfl, rfl, rfl, rfl, rfl, fun _ _ => rfl, fun _ _ => rfl, .refl _, fun _ _ _ => rfl, .refl _⟩

/-- A lane set, the programs that read it trimmed, and the lane's conditions handed over. -/
theorem onlyLane_of_readers {l : Fin 4} {x : Lane} {s u : State} (now : Time) (h : OnlyReaders l (s.setLane l x) u) :
    OnlyLane l s { u with alarm := u.alarm.handLane now l x } where
  pending := h.outside.pending
  counter := h.outside.counter
  tb := h.outside.tb
  claims := h.outside.claims
  pool := h.outside.pool
  dram := h.outside.dram
  stuck := h.outside.stuck
  egress := h.outside.egress
  others k ne := by
    have lane : u.lane k = (s.setLane l x).lane k := by unfold State.lane; rw [h.outside.lanes]
    exact lane.trans (State.lane_setLane_ne s l k x ne.symm)
  programs := h.programs
  settings := h.settings.trans (keepsSettings_handLane ..)
  points pt lane program := (handLane_point_ne lane).trans (h.points pt program)
  link := h.link

theorem moves_iff (x y : Lane) : x.moves y = true ↔
    ¬(x.state = .locked ↔ y.state = .locked) ∨ (y.state = .locked ∧ y.inUse ≠ x.inUse) := by
  have entry : ((x.state == .locked) != (y.state == .locked)) = true ↔ ¬(x.state = .locked ↔ y.state = .locked) := by
    rw [bne_iff_ne, ne_eq, Bool.eq_iff_iff, beq_iff_eq, beq_iff_eq]
  rw [Lane.moves, Bool.or_eq_true, entry, Bool.and_eq_true, beq_iff_eq, bne_iff_ne, ne_comm]

theorem moves_false {x y : Lane} (state : y.state = x.state) (inUse : y.inUse = x.inUse) : x.moves y = false := by
  rw [← Bool.not_eq_true, moves_iff, state, inUse]
  simp

theorem laneStep_same {l : Fin 4} {f : Lane → Lane} {s : State} (same : f (s.lane l) = s.lane l) : s.laneStep l f = s :=
  if_pos same

/-- An operation that does not concern the Alignment Unit sets the lane and hands over its conditions. -/
theorem laneStep_still {l : Fin 4} {f : Lane → Lane} {s : State} (apart : f (s.lane l) ≠ s.lane l)
    (still : (s.lane l).moves (f (s.lane l)) = false) : s.laneStep l f =
      { s.setLane l (f (s.lane l)) with alarm := s.alarm.handLane s.counter l (f (s.lane l)) } := by
  unfold State.laneStep State.putLane
  rw [if_neg apart]
  dsimp only
  rw [if_neg (by rw [still]; decide)]
  rfl

theorem laneStep_moved {l : Fin 4} {f : Lane → Lane} {s : State} (moves : (s.lane l).moves (f (s.lane l)) = true) :
    s.laneStep l f =
      (let t := forAll allPrograms (State.realignFor l) (s.setLane l (f (s.lane l)))
       { t with alarm := t.alarm.handLane s.counter l (f (s.lane l)) }) := by
  have apart : f (s.lane l) ≠ s.lane l := by
    intro same
    rw [same] at moves
    simp [Lane.moves] at moves
  unfold State.laneStep State.putLane
  rw [if_neg apart]
  dsimp only
  rw [if_pos moves]

/-- An operation on a lane that shows the same conditions and does not concern the Alignment Unit sets the lane alone. -/
theorem laneStep_set {l : Fin 4} {f : Lane → Lane} {s : State} (shown : s.Shown)
    (state : (f (s.lane l)).state = (s.lane l).state) (inUse : (f (s.lane l)).inUse = (s.lane l).inUse)
    (stall : (f (s.lane l)).stall = (s.lane l).stall) (unlock : (f (s.lane l)).unlock = (s.lane l).unlock)
    (rate : (f (s.lane l)).rateWrong = (s.lane l).rateWrong) : s.laneStep l f = s.setLane l (f (s.lane l)) := by
  by_cases same : f (s.lane l) = s.lane l
  · rw [laneStep_same same, same, setLane_same]
  · rw [laneStep_still same (moves_false state inUse),
      handLane_same (shown.lanes l) s.counter stall unlock rate]
    rfl

theorem laneStep_lane (l : Fin 4) (f : Lane → Lane) (s : State) : (s.laneStep l f).lane l = f (s.lane l) := by
  unfold State.lane
  rw [laneStep_lanes]
  exact State.lane_setLane ..

theorem onlyLane_laneStep (l : Fin 4) (f : Lane → Lane) (s : State) : OnlyLane l s (s.laneStep l f) := by
  by_cases same : f (s.lane l) = s.lane l
  · rw [laneStep_same same]
    exact .refl l s
  · cases moves : (s.lane l).moves (f (s.lane l)) with
    | true =>
      rw [laneStep_moved moves]
      exact onlyLane_of_readers s.counter (onlyReaders_realignAll l _)
    | false =>
      rw [laneStep_still same moves]
      exact onlyLane_of_readers s.counter (.refl l _)

/-- R42: the programs that read a lane follow its entries to and exits from LOCKED and its in-use latency. -/
theorem laneFollowed_laneStep (l : Fin 4) (f : Lane → Lane) {s : State} (shown : s.Shown) :
    s.LaneFollowed l (s.laneStep l f) := by
  unfold State.LaneFollowed
  rw [laneStep_lane]
  intro moved p x defined
  have unsettled : x.Unsettled := ((shown_iff s).1 shown).2.2 p x defined
  have moves : (s.lane l).moves (f (s.lane l)) = true ↔ moved := moves_iff ..
  refine ⟨fun still => ?_, fun concerned reads => ?_⟩
  · by_cases same : f (s.lane l) = s.lane l
    · rwa [laneStep_same same]
    · rw [laneStep_still same (Bool.eq_false_iff.2 (mt moves.1 still))]
      exact defined
  · refine ⟨_, ?_, retrimmed_standing s.counter (s.laneStep l f).lanes x⟩
    have trimmed := realignAll_read (s := s.setLane l (f (s.lane l))) defined unsettled reads
    rw [laneStep_lanes, laneStep_moved (moves.2 concerned)]
    generalize forAll allPrograms _ _ = t at *
    exact trimmed

end Sys2Proof.Machine
end

section
/-! PROOF. The lanes' own rules (O31 to O37): each operation on a lane written out as R22 to R46 have it, on the
operation of one lane followed by its programs. -/

namespace Sys2Proof.Machine

/-! ## Latency and ratio (R37, R40, R41) -/

/-- R40: the measured latency, the ratio above 0. -/
theorem measured_eq {x : Lane} (pos : 0 < x.rho) : x.measured =
    ((2 * (((x.fillQ / 2 ^ 16 : Nat) : Int) * 2 ^ 21) + x.rho) / (2 * x.rho)).toNat + 1024 := by
  have rho : ((x.rho.toNat : Nat) : Int) = x.rho := Int.toNat_of_nonneg pos.le
  unfold Lane.measured roundDiv
  rw [rho]
  rfl

theorem measured_int {x : Lane} (pos : 0 < x.rho) : (x.measured : Int) =
    (2 * (((x.fillQ / 2 ^ 16 : Nat) : Int) * 2 ^ 21) + x.rho) / (2 * x.rho) + 1024 := by
  have part : 0 ≤ (2 * (((x.fillQ / 2 ^ 16 : Nat) : Int) * 2 ^ 21) + x.rho) / (2 * x.rho) :=
    Int.ediv_nonneg (by positivity) (by positivity)
  rw [measured_eq pos, Nat.cast_add, Int.toNat_of_nonneg part]
  rfl

/-! ## A command that makes one operation on a lane -/

/-- What a lane's operation leaves unchanged, what follows in the programs, and the lane it leaves. -/
theorem laneStep_done (l : Fin 4) {f : Lane → Lane} {s : State} {y : Lane} (made : f (s.lane l) = y) :
    OnlyLane l s (s.laneStep l f) ∧ (s.Shown → s.LaneFollowed l (s.laneStep l f)) ∧ (s.laneStep l f).lane l = y :=
  ⟨onlyLane_laneStep l f s, laneFollowed_laneStep l f, (laneStep_lane l f s).trans made⟩

/-! ## A lane frame (R22, R23, R25, R33, R36) -/

/-- R23: a lane frame's status bit taken in. -/
def Lane.gathered (status marker : Bool) (x : Lane) : Lane := if x.enabled then x.gather status marker else x

/-- R36: a lane frame's slots taken in. -/
def Lane.written (slots : List Sample) (x : Lane) : Lane := if x.writes then x.writeFrame slots else x

/-- R23: an enabled lane gathers the status bit; the block and the bits in progress written out. -/
theorem gathered_eq (status marker : Bool) (x : Lane) : x.gathered status marker =
    (let bits := if x.enabled = false then none
      else if marker then some [status] else x.partialBlock.map (· ++ [status])
     let complete := 192 ≤ (bits.getD []).length
     { x with
      partialBlock := if complete then none else if bits = none then x.partialBlock else bits
      keptBlock := if complete then bits.map bytesOfBits else x.keptBlock
      blockReady := if complete then true else x.blockReady }) := by
  by_cases enabled : x.enabled = true
  · unfold Lane.gathered Lane.gather
    simp only [enabled, if_true, Bool.true_eq_false, if_false]
    generalize (if marker = true then some [status] else x.partialBlock.map (· ++ [status])) = bits
    cases bits with
    | none => rw [← enabled]; rfl
    | some b => by_cases full : 192 ≤ b.length <;> simp [full]
  · have self : x = { x with enabled := false } := by rw [← Bool.eq_false_iff.2 enabled]
    simpa [Lane.gathered, enabled] using self

/-- A lane whose clock is PRESENT as a lane frame finds it: where it was ABSENT, an enabled lane has left DARK or begun
its return window (R25, R29, R33). -/
def Lane.clocked (now : Time) (x : Lane) : Lane :=
  if (x.enabled = true ∧ x.clockPresent = false) ∧ x.state = .dark then x.enterSensing now
  else if (x.enabled = true ∧ x.clockPresent = false) ∧ x.state = .holdover then
    { x with returnStart := some now, windowCount := 0 }
  else x

theorem clockReturn_eq (now : Time) (x : Lane) :
    (if x.clockPresent then x else x.clockReturn now) = { x.clocked now with clockPresent := true } := by
  obtain ⟨enabled, _, _, state, present⟩ := x
  cases present with
  | true => cases enabled <;> rfl
  | false =>
    cases enabled with
    | true => cases state <;> rfl
    | false => rfl

/-- The clock's return leaves the store, the status block and the settings. -/
theorem clocked_keeps (now : Time) (x : Lane) : (x.clocked now).enabled = x.enabled
    ∧ (x.clocked now).startsNow = x.startsNow ∧ (x.clocked now).store = x.store
    ∧ (x.clocked now).partialBlock = x.partialBlock ∧ (x.clocked now).keptBlock = x.keptBlock
    ∧ (x.clocked now).blockReady = x.blockReady := by
  unfold Lane.clocked
  split
  · exact ⟨rfl, rfl, rfl, rfl, rfl, rfl⟩
  · split <;> exact ⟨rfl, rfl, rfl, rfl, rfl, rfl⟩

theorem clocked_reading (now : Time) (x : Lane) : (x.clocked now).state.reading = x.state.reading
    ∧ (x.state.reading = true → (x.clocked now).fillQ = x.fillQ) := by
  unfold Lane.clocked
  split
  · rename_i dark
    rw [dark.2]
    exact ⟨rfl, nofun⟩
  · split <;> exact ⟨rfl, fun _ => rfl⟩

theorem clocked_writes (now : Time) (x : Lane) : ((x.clocked now).enabled = true ∧ (x.clocked now).state ≠ .dark) ↔
    (x.enabled = true ∧ (x.state ≠ .dark ∨ x.clockPresent = false)) := by
  rw [← decide_eq_decide]
  obtain ⟨enabled, _, _, state, present⟩ := x
  cases enabled <;> cases present <;> cases state <;> rfl

/-- R36: a lane frame in a state that writes the store. -/
theorem written_eq (slots : List Sample) (x : Lane) : x.written slots =
    { x with
      store := if x.enabled = true ∧ x.state ≠ .dark then (slots :: x.store).take 256 else x.store
      fillQ := if x.enabled = true ∧ x.state.reading = true then min (256 * 2 ^ 24) (x.fillQ + 2 ^ 24)
        else x.fillQ } := by
  obtain ⟨enabled, _, _, state⟩ := x
  cases enabled <;> cases state <;> rfl

/-- A lane frame's start kept, its status bit gathered and the frame written, on the lane as the frame finds it. -/
theorem frameStart_eq (now : Time) (slots : List Sample) (status marker : Bool) (x : Lane) :
    x.frameStart now slots status marker =
      (let bits := if x.enabled = false then none
        else if marker then some [status] else x.partialBlock.map (· ++ [status])
       let complete := 192 ≤ (bits.getD []).length
       { x.clocked now with
        clockPresent := true, lastStart := some now, startsNow := x.startsNow + 1
        store := if x.enabled = true ∧ (x.state ≠ .dark ∨ x.clockPresent = false) then (slots :: x.store).take 256
          else x.store
        fillQ := if x.enabled = true ∧ x.state.reading = true then min (256 * 2 ^ 24) (x.fillQ + 2 ^ 24)
          else (x.clocked now).fillQ
        partialBlock := if complete then none else if bits = none then x.partialBlock else bits
        keptBlock := if complete then bits.map bytesOfBits else x.keptBlock
        blockReady := if complete then true else x.blockReady }) := by
  obtain ⟨enabled, starts, store, partialBlock, keptBlock, blockReady⟩ := clocked_keeps now x
  obtain ⟨reading, filled⟩ := clocked_reading now x
  have filled : (if x.enabled = true ∧ x.state.reading = true then min (256 * 2 ^ 24) ((x.clocked now).fillQ + 2 ^ 24)
      else (x.clocked now).fillQ) = if x.enabled = true ∧ x.state.reading = true then
        min (256 * 2 ^ 24) (x.fillQ + 2 ^ 24) else (x.clocked now).fillQ := by
    split
    · rw [filled (by tauto)]
    · rfl
  have writes := clocked_writes now x
  have stages (y : Lane) (came : (if x.clockPresent then x else x.clockReturn now) = y) :
      x.frameStart now slots status marker =
        (Lane.gathered status marker { y with lastStart := some now, startsNow := y.startsNow + 1 }).written slots := by
    rw [← came]
    rfl
  rw [stages _ (clockReturn_eq now x), gathered_eq, written_eq]
  dsimp only
  rw [if_congr writes rfl rfl, enabled, reading, starts, store, partialBlock, keptBlock, blockReady, filled]

/-! ## Losses and times (R22, R26, R29, R33, R34) -/

theorem clockLossDue_eq {x : Lane} {v : Time} (now : Time) (present : x.clockPresent = true) (last : x.lastStart = some v) :
    x.clockLossDue now = decide (48 ≤ since now v) := by simp [Lane.clockLossDue, present, last]

theorem clockLost_early {x : Lane} {now : Time} (early : x.clockLossDue now = false) : x.clockLost now = x := by
  simp [Lane.clockLost, early]

theorem clockLost_due {x : Lane} {now : Time} (due : x.clockLossDue now = true) : x.clockLost now =
    (let y := { x with clockPresent := false, partialBlock := none }
     if y.enabled then
       (match y.state with
        | .sensing | .pulling | .ready => y.enterDark
        | .locked => y.enterHoldover now
        | .holdover => { y with returnStart := none }
        | .dark => y)
     else y) := by
  unfold Lane.clockLost
  rw [due]
  obtain ⟨enabled, _, _, state⟩ := x
  cases enabled <;> cases state <;> rfl

theorem windowEnd_due {x : Lane} {now : Time} (state : x.state = .sensing) (time : 960 ≤ since now x.windowStart) :
    x.windowEnd now =
      (match classOfCount x.windowCount with
       | some c =>
         if x.lastWindow = some (some c) then x.enterPulling c
         else { x with lastWindow := some (some c), windowStart := now, windowCount := 0 }
       | none => { x with lastWindow := some none, windowStart := now, windowCount := 0 }) := by
  unfold Lane.windowEnd
  rw [if_pos ⟨state, time⟩]
  cases classOfCount x.windowCount <;> rfl

theorem pinLimit_due {x : Lane} {now : Time} (reading : x.state.reading = true) (run : 100 ≤ x.pinRun) :
    x.pinLimit now = x.enterSensing now := if_pos ⟨reading, run⟩

theorem timeOut_iff {code : Byte} {n : Nat} {now past : Time} (time : intervalSamples code = some n) :
    timeOut code now past = true ↔ n ≤ since now past := by simp [timeOut, time]

theorem holdoverExpiry_due {x : Lane} {now : Time} (state : x.state = .holdover)
    (time : timeOut x.holdCode now x.holdSince = true) : x.holdoverExpiry now = x.enterDark := if_pos ⟨state, time⟩

theorem returnEnd_due {x : Lane} {now v : Time} (state : x.state = .holdover) (start : x.returnStart = some v)
    (time : 960 ≤ since now v) : x.returnEnd now =
      if (classOfCount x.windowCount).isSome ∧ classOfCount x.windowCount = x.cls then
        Lane.enterLocked { x with fillQ := 64 * 2 ^ 24 } else x.enterSensing now := by
  unfold Lane.returnEnd
  rw [start]
  exact if_pos ⟨state, time⟩

/-! ## The ratio loop (R30, R34, R37, R41) -/

theorem pinned_iff (x : Lane) : x.pinned = true ↔ x.rhoInt = x.loopClass.nominal + x.loopClass.catchRange
    ∨ x.rhoInt = x.loopClass.nominal - x.loopClass.catchRange := by simp [Lane.pinned]

theorem countRuns_eq (x : Lane) : x.countRuns = { x with
    pinRun := if x.rhoInt = x.loopClass.nominal + x.loopClass.catchRange
        ∨ x.rhoInt = x.loopClass.nominal - x.loopClass.catchRange then x.pinRun + 1 else 0
    lockRun := if x.state = .locked then x.lockRun else if x.fillError.natAbs < 512 then x.lockRun + 1 else 0
    state := if x.state = .locked then .locked else if x.fillError.natAbs < 512 then x.state else .pulling } := by
  unfold Lane.countRuns
  dsimp only
  rw [if_congr (pinned_iff x) rfl rfl]
  by_cases locked : x.state = .locked
  · simp [locked]
  · by_cases small : x.fillError.natAbs < 512 <;> simp [locked, small]

theorem measureLatency_eq (x : Lane) : x.measureLatency = { x with
    latency32 := x.measured
    inUse := if x.state = .locked ∧ 24 ≤ ((x.measured : Int) - 32 * x.inUse).natAbs then wholeLatency x.measured
      else x.inUse } := by
  unfold Lane.measureLatency Lane.hysteresis
  split <;> simp_all

/-- R30: the run counts take no lane into LOCKED and none out of it. -/
theorem countRuns_locked (x : Lane) (small : Prop) [Decidable small] :
    (if x.state = .locked then LaneState.locked else if small then x.state else .pulling) = .locked
      ↔ x.state = .locked := by
  by_cases locked : x.state = .locked
  · simp [locked]
  · by_cases small <;> simp [*]

/-- R37: a control instant in a state that reads the store, step by step. -/
theorem controlInstant_reading {x : Lane} {now : Time} (instant : now.toNat % 48 = 0) (free : x.controlTaken = false)
    (reading : x.state.reading = true) : x.controlInstant now =
      (let e : Int := ((x.fillQ / 2 ^ 16 : Nat) : Int) - 16384
       let lo := x.loopClass.nominal - x.loopClass.catchRange
       let hi := x.loopClass.nominal + x.loopClass.catchRange
       let i := max lo (min hi (x.rhoInt + e / 64))
       let rho := max lo (min hi (i + 16 * e))
       let lat := ((2 * (((x.fillQ / 2 ^ 16 : Nat) : Int) * 2 ^ 21) + rho) / (2 * rho)).toNat + 1024
       { x with
        controlTaken := true, rhoInt := i, rho := rho, latency32 := lat
        pinRun := if i = hi ∨ i = lo then x.pinRun + 1 else 0
        lockRun := if x.state = .locked then x.lockRun else if e.natAbs < 512 then x.lockRun + 1 else 0
        state := if x.state = .locked then .locked else if e.natAbs < 512 then x.state else .pulling
        inUse := if x.state = .locked ∧ 24 ≤ ((lat : Int) - 32 * x.inUse).natAbs then min 255 ((lat + 16) / 32)
          else x.inUse }) := by
  extract_lets e lo hi i rho lat
  have steps : x.controlInstant now = (Lane.ratioStep { x with controlTaken := true }).countRuns.measureLatency := by
    unfold Lane.controlInstant
    rw [if_pos ⟨instant, free⟩]
    exact if_pos reading
  have pos : 0 < rho := (lowest_ratio_pos x.loopClass).trans_le (holdRatio_within x _).1
  have measured : (Lane.ratioStep { x with controlTaken := true }).countRuns.measured = lat := by
    rw [countRuns_eq]
    exact measured_eq (x := Lane.ratioStep { x with controlTaken := true }) pos
  rw [steps, measureLatency_eq, measured, countRuns_eq]
  dsimp only
  rw [if_congr (and_congr_left' (countRuns_locked _ _)) rfl rfl]
  rfl

theorem controlInstant_other {x : Lane} {now : Time} (instant : now.toNat % 48 = 0) (free : x.controlTaken = false)
    (reading : x.state.reading = false) : x.controlInstant now = { x with controlTaken := true } := by
  unfold Lane.controlInstant
  rw [if_pos ⟨instant, free⟩]
  exact if_neg (by rw [reading]; decide)

/-! ## The lock criterion and admission (R30, R31) -/

theorem lockMet_due {x : Lane} (state : x.state = .pulling) (run : 500 ≤ x.lockRun) : x.lockMet =
    if 100 ≤ x.pinRun then x
    else if x.oneShot = false ∨ x.admission = true then x.enterLocked
    else { x with state := .ready } := by
  unfold Lane.lockMet
  by_cases pinned : 100 ≤ x.pinRun
  · rw [if_pos pinned, if_neg (by omega)]
  · rw [if_neg pinned, if_pos ⟨state, run, by omega⟩]

theorem takeAdmit_eq (x : Lane) : x.takeAdmit =
    (match x.state with
     | .ready => x.enterLocked
     | .sensing | .pulling => if x.enabled then { x with admission := true } else x
     | .dark | .locked | .holdover => x) := by
  unfold Lane.takeAdmit
  cases x.state <;> rfl

theorem withLane_out {b : Byte} (outside : 4 ≤ b.toNat) (f : Fin 4 → Answer) (s : State) :
    s.withLane b f = .refuse .badValue s := by
  unfold State.withLane
  rw [laneOfByte_none outside]

theorem withLane_val {b : Byte} {l : Fin 4} (code : b.toNat = l.val) (f : Fin 4 → Answer) (s : State) :
    s.withLane b f = f l := by
  unfold State.withLane
  rw [laneOfByte_val code]

/-! ## Slips and fades (R32, R39, R45) -/

theorem slipStep_due {x : Lane} (slip : x.slip = ⟨0, .falling, 0⟩) (reading : x.state.reading = true) : x.slipStep =
    { x with
      fillQ := 64 * 2 ^ 24 + x.fillQ % 2 ^ 24, slip := ⟨0, .rising, 0⟩
      slipCount := if x.state = .locked then min 65535 (x.slipCount + 1) else x.slipCount } := by
  unfold Lane.slipStep
  rw [slip, if_pos ⟨by decide, rfl, reading⟩]
  rfl

theorem slipCounts_eq {x : Lane} (slip : x.slip = ⟨0, .falling, 0⟩) : x.slipCounts = (x.state == .locked) := by
  unfold Lane.slipCounts
  rw [slip]
  rfl

theorem entryFadeEnd_due {x : Lane} (dir : x.entryFade.dir = .rising) (prev : x.entryFade.prev = 96) :
    x.entryFadeEnd = { x with entryFade := { x.entryFade with dir := .steady } } := by
  unfold Lane.entryFadeEnd Fade.risen
  rw [dir, prev]
  rfl

/-- R39: whether a slip is due with no other on its way. -/
theorem slipDue_iff (x : Lane) : x.noSlip.slipDue = true
    ↔ x.state.reading = true ∧ (x.fillQ / 2 ^ 16 < 2048 ∨ 57344 < x.fillQ / 2 ^ 16) := by
  simp only [Lane.slipDue, Lane.noSlip, Lane.fill, Fade.restAt, Bool.and_eq_true, Bool.or_eq_true, beq_self_eq_true,
    and_true]
  exact and_congr_right' (or_congr decide_eq_true_iff decide_eq_true_iff)

theorem slipEnd_due {x : Lane} (dir : x.slip.dir = .rising) (prev : x.slip.prev = 96) : x.slipEnd =
    { x with slip := if x.state.reading = true ∧ (x.fillQ / 2 ^ 16 < 2048 ∨ 57344 < x.fillQ / 2 ^ 16)
      then ⟨96, .falling, 96⟩ else ⟨96, .steady, 96⟩ } := by
  have ended : x.slipEnd = x.noSlip.slipTest := by
    unfold Lane.slipEnd Fade.risen
    rw [dir, prev]
    rfl
  rw [ended, Lane.slipTest, if_congr (slipDue_iff x) rfl rfl]
  split <;> rfl

/-- An operation that moves a lane's fades alone changes nothing that other blocks are shown. -/
theorem laneStep_fades {l : Fin 4} {f : Lane → Lane} {s : State} (shown : s.Shown) {y : Lane}
    (made : f (s.lane l) = y) (fades : y = { s.lane l with
      fillQ := y.fillQ, slip := y.slip, entryFade := y.entryFade, slipCount := y.slipCount }) :
    s.laneStep l f = s.setLane l y := by
  subst made
  refine laneStep_set shown ?_ ?_ ?_ ?_ ?_ <;> rw [fades] <;> rfl

/-- A lane set, with a change of the lane's own points. -/
theorem onlyLane_setLane {l : Fin 4} {s : State} {a : AlarmUnit} (y : Lane) (settings : KeepsSettings s.alarm a)
    (points : ∀ pt, pointOfLane l pt = false → a.point pt = s.alarm.point pt) :
    OnlyLane l s { s.setLane l y with alarm := a } :=
  ⟨rfl, rfl, rfl, rfl, rfl, rfl, rfl, rfl, fun k ne => State.lane_setLane_ne s l k y ne.symm, fun _ _ => rfl, settings,
    fun pt lane _ => points pt lane, .refl _⟩

/-- The step of a slip sets the lane, and one that is counted raises the lane's event. -/
theorem slipStep_set {l : Fin 4} {s : State} (shown : s.Shown) (slip : (s.lane l).slip = ⟨0, .falling, 0⟩)
    (reading : (s.lane l).state.reading = true) : s.slipStep l =
      { s.setLane l { s.lane l with
          fillQ := 64 * 2 ^ 24 + (s.lane l).fillQ % 2 ^ 24, slip := ⟨0, .rising, 0⟩
          slipCount := if (s.lane l).state = .locked then min 65535 ((s.lane l).slipCount + 1)
            else (s.lane l).slipCount } with
        alarm := if (s.lane l).state = .locked then s.alarm.event s.counter (lanePoint 2 l) else s.alarm } := by
  have raised (y : Lane) (set : s.laneStep l Lane.slipStep = s.setLane l y) : s.slipStep l =
      { s.setLane l y with
        alarm := if (s.lane l).state = .locked then s.alarm.event s.counter (lanePoint 2 l) else s.alarm } := by
    unfold State.slipStep
    rw [set, slipCounts_eq slip]
    by_cases locked : (s.lane l).state = .locked
    · rw [if_pos locked, if_pos (beq_iff_eq.2 locked)]
      rfl
    · rw [if_neg locked, if_neg (mt beq_iff_eq.1 locked)]
      rfl
  exact raised _ (laneStep_fades shown (slipStep_due slip reading) rfl)

/-! ## Requests of a lane (R28, R31, R35, R46) -/

theorem configure_disable {x : Lane} (now : Time) (oneShot : Bool) (hold : Byte) (enabled : x.enabled = true) :
    x.configure now false oneShot hold =
      { x.enterDark with
        enabled := false, admission := false, keptBlock := none, partialBlock := none, blockReady := false
        oneShot := oneShot, holdCode := hold } := by
  unfold Lane.configure
  rw [enabled]
  rfl

theorem configure_enable {x : Lane} (now : Time) (oneShot : Bool) (hold : Byte) (enabled : x.enabled = false)
    (present : x.clockPresent = true) : x.configure now true oneShot hold =
      { Lane.enterSensing now { x with enabled := true } with oneShot := oneShot, holdCode := hold } := by
  unfold Lane.configure Lane.enable
  rw [enabled, present]
  rfl

/-- R46: settings that leave the lane in its state: AUTO brings READY to LOCKED, and the new holdover time may have
passed. -/
theorem configure_stays {x : Lane} {now : Time} {enabled oneShot : Bool} {hold : Byte}
    (stays : enabled = x.enabled ∨ (enabled = true ∧ x.clockPresent = false)) :
    x.configure now enabled oneShot hold =
      (let y := { x with enabled := enabled, oneShot := oneShot, holdCode := hold }
       match x.state with
       | .ready => if oneShot = false then y.enterLocked else y
       | .holdover => if timeOut hold now x.holdSince then y.enterDark else y
       | .dark | .sensing | .pulling | .locked => y) := by
  have switched : (if enabled = x.enabled then x else if enabled then x.enable now else x.disable)
      = { x with enabled := enabled } := by
    by_cases same : enabled = x.enabled
    · rw [if_pos same, same]
    · obtain ⟨on, absent⟩ := stays.resolve_left same
      rw [if_neg same, if_pos on, Lane.enable, absent, on]
      rfl
  unfold Lane.configure
  rw [switched]
  obtain ⟨_, _, _, state⟩ := x
  cases state with
  | ready => cases oneShot <;> rfl
  | holdover => exact if_congr (and_iff_right rfl) rfl rfl
  | dark | sensing | pulling | locked => rfl

theorem restart_eq (now : Time) (x : Lane) : x.restart now =
    (let y := { x with store := [], fillQ := 0, slipCount := 0, admission := false }
     if y.clockPresent then y.enterSensing now
     else { y.enterDark with rho := y.loopClass.nominal, rhoInt := y.loopClass.nominal }) := rfl

/-- R194: a flag byte, 0 or 1. -/
theorem flag_byte {b : Byte} (h : b.toNat < 2) : b = 0 ∨ b = 1 := by bv_omega

theorem flagOfByte_flag {b : Byte} (h : b.toNat < 2) : flagOfByte b = some (decide (b = 1)) := by
  obtain rfl | rfl := flag_byte h <;> rfl

/-- SET_LANE (R46) by its flag bytes: a lane disabled, a lane with a clock enabled, and the lane's state kept. -/
theorem configure_eq {e a : Byte} (he : e.toNat < 2) (ha : a.toNat < 2) (now : Time) (hold : Byte) (x : Lane) :
    x.configure now (decide (e = 1)) (decide (a = 1)) hold =
      (let taken := fun y : Lane => { y with oneShot := decide (a = 1), holdCode := hold }
       if e = 0 ∧ x.enabled = true then
        taken { x.enterDark with
          enabled := false, admission := false, keptBlock := none, partialBlock := none, blockReady := false }
       else if e = 1 ∧ x.enabled = false ∧ x.clockPresent = true then
        taken (Lane.enterSensing now { x with enabled := true })
       else
        let y := taken { x with enabled := decide (e = 1) }
        match x.state with
        | .ready => if a = 0 then y.enterLocked else y
        | .holdover => if timeOut hold now x.holdSince then y.enterDark else y
        | .dark | .sensing | .pulling | .locked => y) := by
  have auto : decide (a = 1) = false ↔ a = 0 := by
    obtain rfl | rfl := flag_byte ha <;> decide
  have stays (h : decide (e = 1) = x.enabled ∨ (decide (e = 1) = true ∧ x.clockPresent = false)) :=
    configure_stays (now := now) (oneShot := decide (a = 1)) (hold := hold) h
  simp only [auto] at stays
  obtain rfl | rfl := flag_byte he
  · by_cases enabled : x.enabled = true
    · exact (configure_disable now _ hold enabled).trans (if_pos ⟨rfl, enabled⟩).symm
    · exact (stays (.inl (Bool.eq_false_iff.2 enabled).symm)).trans
        ((if_neg fun h => enabled h.2).trans (if_neg fun h => absurd h.1 (by decide))).symm
  · rw [if_neg fun h : (1 : Byte) = 0 ∧ x.enabled = true => absurd h.1 (by decide)]
    by_cases fresh : x.enabled = false ∧ x.clockPresent = true
    · exact (configure_enable now _ hold fresh.1 fresh.2).trans (if_pos ⟨rfl, fresh⟩).symm
    · rw [if_neg fun h => fresh h.2]
      refine stays ?_
      cases enabled : x.enabled with
      | true => exact .inl rfl
      | false => exact .inr ⟨rfl, Bool.eq_false_iff.2 fun present => fresh ⟨enabled, present⟩⟩

theorem configureLane_bad {b e a hold : Byte} (bad : 4 ≤ b.toNat ∨ 2 ≤ e.toNat ∨ 2 ≤ a.toNat) (s : State) :
    s.configureLane b e a hold = .refuse .badValue s := by
  unfold State.configureLane State.withLane
  split
  · rfl
  · rename_i l named
    obtain outside | outside | outside := bad
    · rw [laneOfByte_none outside] at named
      cases named
    · rw [flagOfByte_none outside]
    · rw [flagOfByte_none outside]
      cases flagOfByte e <;> rfl

theorem configureLane_eq {b e a hold : Byte} {l : Fin 4} {enabled oneShot : Bool} (code : b.toNat = l.val)
    (on : flagOfByte e = some enabled) (single : flagOfByte a = some oneShot) (s : State) :
    s.configureLane b e a hold = .ok (s.laneStep l (Lane.configure s.counter enabled oneShot hold)) := by
  unfold State.configureLane
  rw [withLane_val code, on, single]

end Sys2Proof.Machine

open Sys2Proof Sys2Proof.Machine

/-- Settles O31: each entry to a state, written out. -/
theorem entriesToTheLaneStates : Obligations.EntriesToTheLaneStates := fun _ _ _ =>
  ⟨rfl, rfl, rfl, rfl, measured_int, rfl⟩

/-- Settles O32: the lane as the frame finds it, its start kept, its status bit gathered and the frame written. -/
theorem laneFramesAreTakenIn : Obligations.LaneFramesAreTakenIn := fun s l slots status marker =>
  ⟨_, rfl, laneStep_done l (frameStart_eq s.counter slots status marker (s.lane l))⟩

/-- Settles O33: the loss of the clock by the state it finds, and each time of the lane state machine where it is due. -/
theorem lanesChangeStateAtLossesAndTimes : Obligations.LanesChangeStateAtLossesAndTimes := by
  refine ⟨fun s l v present last => ⟨fun early => ?_, fun late => ?_⟩, fun s l state time => ?_,
    fun s l reading run => ?_, fun s l n state code time => ?_, fun s l v state start time => ?_, fun _ => rfl⟩
  · have due := clockLossDue_eq s.counter present last
    exact congrArg _ (laneStep_same (clockLost_early (due.trans (decide_eq_false (by omega)))))
  · have due := clockLossDue_eq s.counter present last
    exact ⟨_, rfl, laneStep_done l (clockLost_due (due.trans (decide_eq_true late)))⟩
  · exact ⟨_, rfl, laneStep_done l (windowEnd_due state time)⟩
  · exact ⟨_, rfl, laneStep_done l (pinLimit_due reading run)⟩
  · exact ⟨_, rfl, laneStep_done l (holdoverExpiry_due state ((timeOut_iff code).2 time))⟩
  · exact ⟨_, rfl, laneStep_done l (returnEnd_due state start time)⟩

/-- Settles O34: the control instant's steps one after another, the ratio above 0 as the catch range is. -/
theorem controlInstantsRunTheRatioLoop : Obligations.ControlInstantsRunTheRatioLoop := by
  intro s l instant free
  refine ⟨_, rfl, laneStep_done l ?_⟩
  by_cases reading : (s.lane l).state.reading = true
  · exact (controlInstant_reading instant free reading).trans (if_pos reading).symm
  · exact (controlInstant_other instant free (Bool.eq_false_iff.2 reading)).trans (if_neg reading).symm

/-- Settles O35: the lock criterion where it is met, and LANE_ADMIT by the lane it names. -/
theorem lanesLockByCriterionAndAdmission : Obligations.LanesLockByCriterionAndAdmission := by
  refine ⟨fun s l state run => ?_, fun s tag b free outside => ?_, fun s tag b l free code => ?_⟩
  · exact ⟨_, rfl, laneStep_done l (lockMet_due state run)⟩
  · exact exec_refused (r := .laneAdmit b) rfl free rfl rfl (withLane_out outside _ s)
  · exact ⟨_, exec_read (r := .laneAdmit b) rfl free rfl rfl (withLane_val code _ s) rfl,
      laneStep_done l (takeAdmit_eq _)⟩

/-- Settles O36: the step of a slip, with its event where it is counted, and the ends of the two fades. -/
theorem slipsStepAndLaneFadesEnd : Obligations.SlipsStepAndLaneFadesEnd := by
  refine ⟨fun s l shown slip reading => ?_, fun s l shown dir prev => ?_, fun s l shown dir prev => ?_⟩
  · refine ⟨_, congrArg Host.Outcome.next (slipStep_set shown slip reading), onlyLane_setLane _ ?_ fun pt other => ?_, rfl, rfl,
      State.lane_setLane .., rfl⟩
    · split
      · exact keepsSettings_event ..
      · exact .refl _
    · split
      · exact event_point_ne _ _ (lanePoint_apart other 2)
      · rfl
  · exact congrArg _ (laneStep_fades shown (entryFadeEnd_due dir prev) rfl)
  · exact congrArg _ (laneStep_fades shown (slipEnd_due dir prev) rfl)

/-- Settles O37: SET_LANE by what it changes of the enable, and LANE_RESTART by the lane it names. -/
theorem laneRequestsSetAndRestart : Obligations.LaneRequestsSetAndRestart := by
  refine ⟨fun s tag b e a h free bad => ?_, fun s tag b e a h l free code he ha => ?_, fun s tag b free outside => ?_,
    fun s tag b l free code disabled => ?_, fun s tag b l free code enabled => ?_⟩
  · exact exec_refused (r := .setLane b e a h) rfl free rfl rfl (configureLane_bad bad s)
  · exact ⟨_, exec_read (r := .setLane b e a h) rfl free rfl rfl
      (configureLane_eq code (flagOfByte_flag he) (flagOfByte_flag ha) s) rfl, laneStep_done l (configure_eq he ha ..)⟩
  · exact exec_refused (r := .laneRestart b) rfl free rfl rfl (withLane_out outside _ s)
  · exact exec_refused (r := .laneRestart b) rfl free rfl rfl
      ((withLane_val code _ s).trans (if_neg (by rw [disabled]; decide)))
  · exact ⟨_, exec_read (r := .laneRestart b) rfl free rfl rfl ((withLane_val code _ s).trans (if_pos enabled)) rfl,
      laneStep_done l (restart_eq _ _)⟩

end

section
/-! PROOF. The DRAM's canonical form through the closing of a house sample (O17, log entry 19). Its bytes are written by
the zero-fill, the page test, the ring writes, an abandoned fill and the failures of its cells; whatever else the part
does leaves them. -/

namespace Sys2Proof.Machine

/-- The list of the DRAM's bytes stands in its canonical form. -/
def State.DramInOrder (s : State) : Prop := Dram.wf s.dram = true

theorem State.DramInOrder.of_dram {s t : State} (same : t.dram = s.dram) (h : s.DramInOrder) : t.DramInOrder := by
  unfold State.DramInOrder
  rwa [same]

theorem KeepsOutside.dramInOrder {s t : State} (k : KeepsOutside s t) (h : s.DramInOrder) : t.DramInOrder :=
  h.of_dram k.dram

theorem dramInOrder_stable : Stable State.DramInOrder where
  program u p f _ h := (keepsOutside_progStep p f u).dramInOrder h
  dropDelay _ _ _ _ h := h
  link _ _ _ h := h
  schedule _ _ h := h

variable {s : State}

/-! ## The shared operations -/

theorem dramInOrder_progStep (p : Fin 16) (f : Program → Program) (h : s.DramInOrder) : (s.progStep p f).DramInOrder :=
  (keepsOutside_progStep p f s).dramInOrder h

theorem dramInOrder_laneStep (l : Fin 4) (f : Lane → Lane) (h : s.DramInOrder) : (s.laneStep l f).DramInOrder :=
  h.of_dram (onlyLane_laneStep l f s).dram

theorem dramInOrder_alarm (a : AlarmUnit) (h : s.DramInOrder) : State.DramInOrder { s with alarm := a } :=
  h.of_dram rfl

theorem dramInOrder_timed (t : Timebase) (begins : Bool) (h : s.DramInOrder) : (s.timed t begins).DramInOrder :=
  dramInOrder_stable.timed h h

theorem dramInOrder_enterStandby (p : Fin 16) (h : s.DramInOrder) : (s.enterStandby p).DramInOrder := by
  unfold State.enterStandby
  split
  · exact h
  · rename_i x _
    have put := (keepsOutside_putProgram p x (x.enterStandby s.counter) s).dramInOrder h
    dsimp only
    split <;> exact put

theorem dramInOrder_vacate (p : Fin 16) (h : s.DramInOrder) : (s.vacate p).DramInOrder := by
  unfold State.vacate
  split
  · exact h
  · exact Dram.wf_partFill s.counter p s.pool h

/-! ## The steps that are due -/

theorem dramInOrder_referenceLost (i : RefInput) (h : s.DramInOrder) : (s.referenceLost i).DramInOrder := by
  unfold State.referenceLost
  split
  · exact dramInOrder_timed (s.tb.lose s.counter i) false h
  · exact h

theorem dramInOrder_changeSelection (f : Timebase → Timebase) (h : s.DramInOrder) :
    (s.changeSelection f).DramInOrder := dramInOrder_timed _ _ h

theorem dramInOrder_holdExpiry (h : s.DramInOrder) : s.holdExpiry.DramInOrder := by
  unfold State.holdExpiry
  split
  · exact dramInOrder_changeSelection _ h
  · exact h

theorem dramInOrder_revertExpiry (h : s.DramInOrder) : s.revertExpiry.DramInOrder := by
  unfold State.revertExpiry
  split
  · exact dramInOrder_changeSelection _ h
  · exact h

theorem dramInOrder_frameBoundary (h : s.DramInOrder) : s.frameBoundary.DramInOrder := by
  unfold State.frameBoundary
  split
  · exact dramInOrder_timed (s.tb.boundary s.counter) true h
  · exact h

theorem dramInOrder_realignTimeout (h : s.DramInOrder) : s.realignTimeout.DramInOrder := by
  unfold State.realignTimeout
  split
  · exact dramInOrder_timed (s.tb.realignTimeout s.counter) true h
  · exact h

theorem dramInOrder_settleReferences (h : s.DramInOrder) : s.settleReferences.DramInOrder :=
  dramInOrder_revertExpiry (dramInOrder_holdExpiry (dramInOrder_referenceLost .b (dramInOrder_referenceLost .a h)))

theorem dramInOrder_gapCheck (h : s.DramInOrder) : s.gapCheck.DramInOrder := by
  unfold State.gapCheck
  split <;> exact h

theorem dramInOrder_settleTime (h : s.DramInOrder) : s.settleTime.DramInOrder :=
  dramInOrder_gapCheck (dramInOrder_settleReferences (dramInOrder_frameBoundary
    (dramInOrder_realignTimeout (dramInOrder_settleReferences h))))

theorem dramInOrder_slipStep (l : Fin 4) (h : s.DramInOrder) : (s.slipStep l).DramInOrder := by
  have step : (s.laneStep l Lane.slipStep).DramInOrder := dramInOrder_laneStep l _ h
  unfold State.slipStep
  dsimp only
  split <;> exact step

theorem dramInOrder_settleLane (l : Fin 4) (h : s.DramInOrder) : (s.settleLane l).DramInOrder := by
  have lost (u : State) (k : u.DramInOrder) : (u.clockLost l).DramInOrder := dramInOrder_laneStep l _ k
  have control (u : State) (k : u.DramInOrder) : (u.controlInstant l).DramInOrder := dramInOrder_laneStep l _ k
  have pin (u : State) (k : u.DramInOrder) : (u.pinLimit l).DramInOrder := dramInOrder_laneStep l _ k
  have lock (u : State) (k : u.DramInOrder) : (u.lockMet l).DramInOrder := dramInOrder_laneStep l _ k
  have window (u : State) (k : u.DramInOrder) : (u.windowEnd l).DramInOrder := dramInOrder_laneStep l _ k
  have ret (u : State) (k : u.DramInOrder) : (u.returnEnd l).DramInOrder := dramInOrder_laneStep l _ k
  have hold (u : State) (k : u.DramInOrder) : (u.holdoverExpiry l).DramInOrder := dramInOrder_laneStep l _ k
  have fade (u : State) (k : u.DramInOrder) : (u.entryFadeEnd l).DramInOrder := dramInOrder_laneStep l _ k
  have slipEnd (u : State) (k : u.DramInOrder) : (u.slipEnd l).DramInOrder := dramInOrder_laneStep l _ k
  exact slipEnd _ (dramInOrder_slipStep l (fade _ (hold _ (ret _ (window _ (lock _ (pin _ (control _ (lost _ h)))))))))

theorem dramInOrder_blockEnd (h : s.DramInOrder) : s.blockEnd.DramInOrder := by
  unfold State.blockEnd
  split
  · exact forAll_keeps _ (fun p _ => dramInOrder_progStep p _) h
  · exact h

theorem dramInOrder_settleChannel (p : Fin 16) (c : Fin 8) (h : s.DramInOrder) : (s.settleChannel p c).DramInOrder :=
  dramInOrder_progStep p _ (dramInOrder_progStep p _ (dramInOrder_progStep p _ (dramInOrder_progStep p _ h)))

theorem dramInOrder_settleProgram (p : Fin 16) (h : s.DramInOrder) : (s.settleProgram p).DramInOrder := by
  have air (u : State) (k : u.DramInOrder) : (u.onAirEnd p).DramInOrder := dramInOrder_progStep p _ k
  have mute (u : State) (k : u.DramInOrder) : (u.muteFadeEnd p).DramInOrder := dramInOrder_progStep p _ k
  have cut (u : State) (k : u.DramInOrder) : (u.cutJump p).DramInOrder := dramInOrder_progStep p _ k
  have cutIn (u : State) (k : u.DramInOrder) : (u.cutInEnd p).DramInOrder := dramInOrder_progStep p _ k
  have slew (u : State) (k : u.DramInOrder) : (u.slewArrival p).DramInOrder := dramInOrder_progStep p _ k
  have switch (u : State) (k : u.DramInOrder) : (u.bypassSwitch p).DramInOrder := dramInOrder_progStep p _ k
  have bypassIn (u : State) (k : u.DramInOrder) : (u.bypassFadeInEnd p).DramInOrder := dramInOrder_progStep p _ k
  have ramp (u : State) (k : u.DramInOrder) : (u.gainRampEnd p).DramInOrder := dramInOrder_progStep p _ k
  have entry (u : State) (k : u.DramInOrder) : (u.gainEntryDue p).DramInOrder := dramInOrder_progStep p _ k
  have channels (u : State) (k : u.DramInOrder) : (forAll allChannels (State.settleChannel p) u).DramInOrder :=
    forAll_keeps _ (fun c _ => dramInOrder_settleChannel p c) k
  exact entry _ (ramp _ (bypassIn _ (switch _ (slew _ (cutIn _ (cut _ (channels _ (mute _ (air _ h)))))))))

theorem dramInOrder_fillPage (h : s.DramInOrder) : s.fillPage.DramInOrder := by
  unfold State.fillPage
  split
  · exact h
  · rename_i e rest _
    have cleared : Dram.wf (Dram.clear s.dram (e.page * 15000) 15000) = true := Dram.wf_clear _ _ h
    split
    · dsimp only
      split
      · exact cleared
      · exact dramInOrder_enterStandby _ cleared
    · exact h

theorem dramInOrder_endCheck (result : Result) (h : s.DramInOrder) : (s.endCheck result).DramInOrder := by
  unfold State.endCheck
  split
  · exact h
  · dsimp only
    split <;> exact h

theorem dramInOrder_nextWindow (h : s.DramInOrder) : s.nextWindow.DramInOrder := by
  unfold State.nextWindow
  split
  · exact h
  · split
    · exact h
    · split
      · exact dramInOrder_endCheck _ h
      · exact h

theorem dramInOrder_endPageTest (h : s.DramInOrder) : s.endPageTest.DramInOrder := by
  unfold State.endPageTest
  split
  · split
    · exact dramInOrder_nextWindow (Dram.wf_fillRange _ _ _ h)
    · exact h
  · exact h

theorem dramInOrder_readContactPins (h : s.DramInOrder) : s.readContactPins.DramInOrder := by
  unfold State.readContactPins
  dsimp only
  exact forAll_keeps (P := State.DramInOrder) _ (fun p _ => dramInOrder_progStep p _) (h.of_dram rfl)

theorem dramInOrder_alarmBoundary (h : s.DramInOrder) : s.alarmBoundary.DramInOrder := by
  have silence : s.judgeSilence.DramInOrder := by
    unfold State.judgeSilence
    exact forAll_keeps _ (fun p _ => dramInOrder_progStep p _) h
  have points (u : State) (k : u.DramInOrder) : u.judgePoints.DramInOrder := dramInOrder_alarm _ k
  have taken (u : State) (k : u.DramInOrder) :
      State.DramInOrder { u with alarm := { u.alarm with boundaryTaken := true } } := dramInOrder_alarm _ k
  unfold State.alarmBoundary
  split
  · exact taken _ (points _ (dramInOrder_readContactPins silence))
  · exact h

theorem dramInOrder_settle (h : s.DramInOrder) : s.settle.DramInOrder := by
  have lanes := forAll_keeps (P := State.DramInOrder) allLanes (fun l _ => dramInOrder_settleLane l)
    (dramInOrder_settleTime h)
  have programs := forAll_keeps (P := State.DramInOrder) allPrograms (fun p _ => dramInOrder_settleProgram p)
    (dramInOrder_blockEnd lanes)
  exact dramInOrder_alarmBoundary (dramInOrder_endPageTest (dramInOrder_fillPage programs))

/-! ## The requests -/

theorem dramInOrder_withProgram {b : Byte} {f : Fin 16 → Program → Answer}
    (each : ∀ p x, s.program p = some x → (f p x).state.DramInOrder) (h : s.DramInOrder) :
    (s.withProgram b f).state.DramInOrder := by
  unfold State.withProgram
  split
  · exact h
  · split
    · exact h
    · exact each _ _ ‹_›

theorem dramInOrder_withLane {b : Byte} {f : Fin 4 → Answer} (each : ∀ l, (f l).state.DramInOrder)
    (h : s.DramInOrder) : (s.withLane b f).state.DramInOrder := by
  unfold State.withLane
  split
  · exact h
  · exact each _

/-- An answer that has made one operation on one program, or nothing. -/
theorem Answer.MakesStep.dramInOrder {a : Answer} (made : a.MakesStep s) (h : s.DramInOrder) :
    a.state.DramInOrder := by
  obtain same | ⟨p, f, _, step⟩ := made
  · rwa [same]
  · rw [step]
    exact dramInOrder_progStep p f h

theorem dramInOrder_defineProgram (tag b : Byte) (d : BitVec 16) (defs : List ChannelDef) (h : s.DramInOrder) :
    (s.defineProgram tag b d defs).state.DramInOrder := by
  have defined (p : Fin 16) (maxDelay : Nat) (chs : List Channel) : (s.defined p tag maxDelay chs).DramInOrder :=
    (keepsOutside_handProgram ..).dramInOrder (dramInOrder_stable.toInside.openOp _ _ h)
  unfold State.defineProgram
  split
  · exact h
  split
  · exact h
  split
  · exact h
  split
  · exact h
  split
  · exact h
  unfold State.judgeDefinition
  dsimp only
  split
  · exact h
  split
  · exact h
  split
  · exact h
  dsimp only
  rw [acceptDefinition_eq]
  split
  · exact dramInOrder_enterStandby _ (defined ..)
  · exact defined ..

theorem dramInOrder_endDefinition (p : Fin 16) (tag : Byte) (r : Result) (h : s.DramInOrder) :
    (s.endDefinition p tag r).DramInOrder := by
  unfold State.endDefinition
  split
  · exact h
  · exact dramInOrder_vacate p h

theorem dramInOrder_releaseNow (p : Fin 16) (x : Program) (h : s.DramInOrder) : (s.releaseNow p x).DramInOrder := by
  unfold State.releaseNow
  dsimp only
  cases x.openDef with
  | some tag => exact dramInOrder_endDefinition p tag .aborted h
  | none => exact dramInOrder_vacate p (dramInOrder_stable.toInside.endDelayOp p .aborted h)

theorem dramInOrder_releaseProgram (b : Byte) (h : s.DramInOrder) : (s.releaseProgram b).state.DramInOrder :=
  dramInOrder_withProgram (fun p x _ => by
    split
    · exact h
    · exact dramInOrder_releaseNow p x h) h

theorem dramInOrder_cancelOp (e : OpEntry) (h : s.DramInOrder) : (s.cancelOp e).DramInOrder := by
  unfold State.cancelOp
  split
  · exact dramInOrder_endDefinition _ _ _ h
  · unfold State.cancelDelay
    split
    · exact h
    · split
      · exact h
      · exact dramInOrder_progStep _ _ h
  · exact dramInOrder_endCheck .cancelled h

theorem dramInOrder_cancel (target : Byte) (h : s.DramInOrder) : (s.cancel target).state.DramInOrder := by
  have all (l : List OpEntry) (u : State) (hu : u.DramInOrder) : (l.foldl State.cancelOp u).DramInOrder := by
    induction l generalizing u with
    | nil => exact hu
    | cons e rest ih => exact ih _ (dramInOrder_cancelOp e hu)
  unfold State.cancel
  split
  · exact all _ _ h
  · split
    · exact dramInOrder_cancelOp _ h
    · split <;> exact h

theorem dramInOrder_restartAll (h : s.DramInOrder) : s.restartAll.DramInOrder := by
  have vacated : (forAll allPrograms State.vacate s).DramInOrder :=
    forAll_keeps _ (fun p _ => dramInOrder_vacate p) h
  have emptied (u : State) (k : u.DramInOrder) : (u.restarted s.counter).DramInOrder := k.of_dram rfl
  rw [restartAll_eq]
  exact emptied _ vacated

theorem dramInOrder_checkMemory (tag : Byte) (h : s.DramInOrder) : (s.checkMemory tag).state.DramInOrder := by
  unfold State.checkMemory
  split
  · exact h
  · split
    · exact h
    · exact dramInOrder_nextWindow (dramInOrder_stable.toInside.openOp tag .check h)

theorem dramInOrder_setTimebase (r p v hold : Byte) (h : s.DramInOrder) :
    (s.setTimebase r p v hold).state.DramInOrder := by
  unfold State.setTimebase
  split
  · exact dramInOrder_holdExpiry (dramInOrder_timed _ false h)
  · exact h

theorem dramInOrder_addEntry (tag : Byte) (due : FrameIndex) (kind : Byte) (inner : List Byte) (h : s.DramInOrder) :
    (s.addEntry tag due kind inner).state.DramInOrder := by
  unfold State.addEntry
  split_ifs <;> exact h

theorem dramInOrder_setDelay (tag b : Byte) (f : DelayFields) (h : s.DramInOrder) :
    (s.setDelay tag b f).state.DramInOrder :=
  dramInOrder_withProgram (fun p _ _ => by
    split
    · exact h
    · exact dramInOrder_stable.toInside.takeDelay p tag _ h) h

theorem dramInOrder_readProgram (b : Byte) (h : s.DramInOrder) : (s.readProgram b).state.DramInOrder := by
  unfold State.readProgram
  split <;> exact h

theorem dramInOrder_readLoudness (b f : Byte) (h : s.DramInOrder) : (s.readLoudness b f).state.DramInOrder :=
  dramInOrder_withProgram (fun p x _ => by split <;> exact h) h

theorem dramInOrder_setAlarmKind (b : Byte) (f : KindFields) (h : s.DramInOrder) :
    (s.setAlarmKind b f).state.DramInOrder := by
  unfold State.setAlarmKind
  split
  · split
    · exact h
    · exact dramInOrder_alarm _ h
  · exact h

theorem dramInOrder_ackAlarm (b : Byte) (h : s.DramInOrder) : (s.ackAlarm b).state.DramInOrder := by
  unfold State.ackAlarm
  split
  · exact dramInOrder_alarm _ h
  · split
    · exact dramInOrder_alarm _ h
    · exact h

theorem dramInOrder_clearProtection (b : Byte) (h : s.DramInOrder) : (s.clearProtection b).state.DramInOrder := by
  unfold State.clearProtection
  split
  · exact dramInOrder_alarm _ h
  · split
    · split
      · exact h
      · exact dramInOrder_alarm _ h
    · exact h

theorem dramInOrder_setSummaryOutput (b : Byte) (f : SummaryFields) (h : s.DramInOrder) :
    (s.setSummaryOutput b f).state.DramInOrder := by
  unfold State.setSummaryOutput
  split
  · split
    · exact h
    · exact dramInOrder_alarm _ h
  · exact h

theorem dramInOrder_setContact (b : Byte) (f : ContactFields) (h : s.DramInOrder) :
    (s.setContact b f).state.DramInOrder := by
  unfold State.setContact
  split
  · exact dramInOrder_alarm _ h
  · exact h

theorem dramInOrder_answer (tag : Byte) (r : Request) (h : s.DramInOrder) : (s.answer tag r).state.DramInOrder := by
  cases r with
  | identify | readStatus | readSchedule | readTime | readPool | readContacts => exact h
  | restart => exact dramInOrder_restartAll h
  | cancel target => exact dramInOrder_cancel target h
  | schedule due kind inner => exact dramInOrder_addEntry tag due kind inner h
  | setTimebase r p v hold => exact dramInOrder_setTimebase r p v hold h
  | setLane => exact dramInOrder_withLane (fun l => by split; exacts [dramInOrder_laneStep l _ h, h]) h
  | laneAdmit => exact dramInOrder_withLane (fun l => dramInOrder_laneStep l _ h) h
  | laneRestart => exact dramInOrder_withLane (fun l => by split; exacts [dramInOrder_laneStep l _ h, h]) h
  | readLane => exact dramInOrder_withLane (fun _ => h) h
  | defineProgram p d chs => exact dramInOrder_defineProgram tag p d chs h
  | start p => exact (startProgram_step p s).dramInOrder h
  | stop p => exact (stopProgram_step p s).dramInOrder h
  | release p => exact dramInOrder_releaseProgram p h
  | selectSource p c m => exact (selectSource_step p c m s).dramInOrder h
  | setChannelSource p c a b => exact (setChannelSource_step p c a b s).dramInOrder h
  | readProgram p => exact dramInOrder_readProgram p h
  | setLoudness p m f => exact (setLoudness_step p m f s).dramInOrder h
  | resetIntegration p => exact (resetIntegration_step p s).dramInOrder h
  | pauseIntegration p => exact (pauseIntegration_step true p s).dramInOrder h
  | resumeIntegration p => exact (pauseIntegration_step false p s).dramInOrder h
  | readLoudness p f => exact dramInOrder_readLoudness p f h
  | setDelay p f => exact dramInOrder_setDelay tag p f h
  | readDelay p => exact dramInOrder_withProgram (fun _ _ _ => h) h
  | checkMemory => exact dramInOrder_checkMemory tag h
  | muteProgram p f => exact (muteProgram_step p f s).dramInOrder h
  | readOutput p => exact dramInOrder_withProgram (fun _ _ _ => h) h
  | setAlarmKind k f => exact dramInOrder_setAlarmKind k f h
  | ackAlarm p => exact dramInOrder_ackAlarm p h
  | clearProtection p => exact dramInOrder_clearProtection p h
  | readAlarm p =>
    simp only [State.answer, State.readAlarm]
    split <;> exact h
  | readAlarmList a n =>
    simp only [State.answer, State.readAlarmList]
    split <;> exact h
  | setSummaryOutput o f => exact dramInOrder_setSummaryOutput o f h
  | setContact i f => exact dramInOrder_setContact i f h

/-! ## The link served -/

theorem dramInOrder_judgeFrame (f : Frame) (h : s.DramInOrder) : (s.judgeFrame f).state.DramInOrder := by
  unfold State.judgeFrame
  split
  · exact h
  · split
    · exact h
    · split
      · exact h
      · rename_i r _
        obtain judged | judged | ⟨judged, _⟩ := judge_cases f.tag r s
        · rw [judged]; exact h
        · rw [judged]; exact h
        · rw [judged]; exact dramInOrder_answer f.tag r h

theorem dramInOrder_placed {kind tag : Byte} {a : Answer} (h : a.state.DramInOrder) :
    (a.placed kind tag).DramInOrder := h

theorem dramInOrder_takeFrame (h : s.DramInOrder) : s.takeFrame.DramInOrder := by
  unfold State.takeFrame
  split
  · exact h
  · rename_i f rest _
    split
    · have judged : (State.judgeFrame f { s with link := { s.link with buffer := rest } }).state.DramInOrder :=
        dramInOrder_judgeFrame f (h.of_dram rfl)
      exact dramInOrder_placed judged
    · exact h

theorem dramInOrder_transmit (h : s.DramInOrder) : s.transmit.DramInOrder := by
  unfold State.transmit
  split
  · exact h
  · split
    · exact h
    · split
      · exact h
      · split <;> exact h

theorem dramInOrder_serveLink (h : s.DramInOrder) : s.serveLink.DramInOrder := by
  have sent (u : State) (k : u.DramInOrder) : u.transmit.takeFrame.DramInOrder :=
    dramInOrder_takeFrame (dramInOrder_transmit k)
  exact sent _ (sent _ h)

/-! ## The audio -/

theorem dramInOrder_takeInput (p : Fin 16) (h : s.DramInOrder) : (s.takeInput p).DramInOrder := by
  unfold State.takeInput
  split
  · exact h
  · exact (keepsOutside_setProgram ..).dramInOrder h

/-- The write buffers of a program are written group after group. -/
theorem wf_storeGroups {m : Dram} (n : Nat) (x : Program) (w : Dram.wf m = true) :
    Dram.wf (x.storeGroups n m) = true := by
  unfold Program.storeGroups
  induction x.channels.zipIdx generalizing m with
  | nil => exact w
  | cons k rest ih =>
    refine ih ?_
    dsimp only
    split
    · exact Dram.wf_writeGroup _ _ _ w
    · exact w

theorem dramInOrder_writeRing (p : Fin 16) (h : s.DramInOrder) : (s.writeRing p).DramInOrder := by
  unfold State.writeRing
  split
  · exact h
  · rename_i x _
    split
    · have stored := wf_storeGroups s.counter.toNat
        { x with channels := x.channels.map (Channel.gather s.counter.toNat) } h
      dsimp only
      split
      · exact stored
      · exact h
    · exact h

theorem dramInOrder_countReadErrors (p : Fin 16) (n : Nat) (h : s.DramInOrder) :
    (s.countReadErrors p n).DramInOrder := h.of_dram rfl

theorem dramInOrder_readRing (p : Fin 16) (h : s.DramInOrder) : (s.readRing p).DramInOrder := by
  have handed : (s.handBypass p).DramInOrder := (keepsOutside_handBypass p s).dramInOrder h
  have read (u : State) (x : Program) (n : Nat) (k : u.DramInOrder) :
      ((u.setProgram p (some x)).countReadErrors p n).DramInOrder :=
    dramInOrder_countReadErrors p n ((keepsOutside_setProgram ..).dramInOrder k)
  unfold State.readRing
  dsimp only
  split
  · split
    · exact read _ _ _ h
    · exact (keepsOutside_handBypass p _).dramInOrder (read _ _ _ handed)
  · exact h

theorem dramInOrder_audio (h : s.DramInOrder) : s.audio.DramInOrder := by
  have demands : (forAll allPrograms State.handDemands s).DramInOrder :=
    forAll_keeps _ (fun p u k => (keepsOutside_handDemands p u).dramInOrder k) h
  have interpolated (u : State) (k : u.DramInOrder) : u.interpolate.DramInOrder := k
  have inputs (u : State) (k : u.DramInOrder) : (forAll allPrograms State.takeInput u).DramInOrder :=
    forAll_keeps _ (fun p _ => dramInOrder_takeInput p) k
  have writes (u : State) (k : u.DramInOrder) : (forAll allPrograms State.writeRing u).DramInOrder :=
    forAll_keeps _ (fun p _ => dramInOrder_writeRing p) k
  have reads (u : State) (k : u.DramInOrder) : (forAll allPrograms State.readRing u).DramInOrder :=
    forAll_keeps _ (fun p _ => dramInOrder_readRing p) k
  have outputs (u : State) (k : u.DramInOrder) : (forAll allPrograms State.formOutput u).DramInOrder :=
    forAll_keeps _ (fun p u k => (keepsOutside_formOutput p u).dramInOrder k) k
  have sent (u : State) (k : u.DramInOrder) : u.sendEgress.DramInOrder := k
  exact sent _ (outputs _ (reads _ (writes _ (inputs _ (interpolated _ demands)))))

theorem dramInOrder_closeSample (h : s.DramInOrder) : s.closeSample.DramInOrder := by
  have settled := dramInOrder_settle h
  exact dramInOrder_serveLink (dramInOrder_audio (dramInOrder_serveLink settled))

/-! ## The failures -/

theorem dramInOrder_takeFault (f : DramFault) (h : s.DramInOrder) : (s.takeFault f).DramInOrder := by
  unfold State.takeFault
  split
  · exact h
  · split
    · exact h
    · exact Dram.wf_write _ _ h

theorem dramInOrder_tick (pins : BitVec 4) (faults : List DramFault) (h : s.DramInOrder) :
    (s.tick pins faults).DramInOrder := by
  have opened (u : State) (k : u.DramInOrder) : (u.latch.openSample pins).DramInOrder := k
  have failed (l : List DramFault) (u : State) (k : u.DramInOrder) : (l.foldl State.takeFault u).DramInOrder := by
    induction l generalizing u with
    | nil => exact k
    | cons f rest ih => exact ih _ (dramInOrder_takeFault f k)
  exact failed _ _ (opened _ (dramInOrder_closeSample h))

end Sys2Proof.Machine
end

section
/-! PROOF. The rows of the part's own steps, made one after another, settle the house sample (O17, log entry 25). -/

namespace Sys2Proof.Machine

theorem execAll_trans {a b : List Instr} {s t u : State} (ha : execAll a s = .next t) (hb : execAll b t = .next u) :
    execAll (a ++ b) s = .next u := (execAll_append b ha).trans hb

theorem execAll_references (s : State) :
    execAll [.referenceLost .a, .referenceLost .b, .referenceHoldExpiry, .revertTimerExpiry] s
      = .next s.settleReferences := rfl

theorem execAll_boundaries (s : State) :
    execAll [.realignFrameTimeout, .frameBoundary] s = .next s.realignTimeout.frameBoundary := rfl

theorem execAll_gap (s : State) : execAll [.gapTimeout] s = .next s.gapCheck := rfl

theorem execAll_lane (l : Fin 4) (s : State) :
    execAll [.laneClockLost l, .controlInstant l, .pinRunLimit l, .lockCriterionMet l, .classificationWindowEnd l,
      .returnWindowEnd l, .holdoverExpiry l, .lockFadeInEnd l, .slipStep l, .slipFadeInEnd l] s
      = .next (s.settleLane l) := rfl

theorem execAll_channel (p : Fin 16) (c : Fin 8) (s : State) :
    execAll [.changeoverSwitch p c, .changeoverEnd p c, .trimStep p c, .trimStepEnd p c] s
      = .next (s.settleChannel p c) := rfl

theorem execAll_fades (p : Fin 16) (s : State) :
    execAll [.onAirFadeEnd p, .muteFadeEnd p] s = .next ((s.onAirEnd p).muteFadeEnd p) := rfl

theorem execAll_delay (p : Fin 16) (s : State) :
    execAll [.cutJump p, .cutInEnd p, .slewArrival p, .bypassSwitch p, .bypassFadeInEnd p, .gainRampEnd p,
      .gainEntryDue p] s
      = .next (((((((s.cutJump p).cutInEnd p).slewArrival p).bypassSwitch p).bypassFadeInEnd p).gainRampEnd
        p).gainEntryDue p) := rfl

theorem execAll_program (p : Fin 16) (s : State) :
    execAll ([.onAirFadeEnd p, .muteFadeEnd p]
      ++ (allChannels.flatMap fun c => [.changeoverSwitch p c, .changeoverEnd p c, .trimStep p c, .trimStepEnd p c])
      ++ [.cutJump p, .cutInEnd p, .slewArrival p, .bypassSwitch p, .bypassFadeInEnd p, .gainRampEnd p,
        .gainEntryDue p]) s = .next (s.settleProgram p) :=
  execAll_trans (execAll_trans (execAll_fades p s) (execAll_flatMap (execAll_channel p) allChannels _))
    (execAll_delay p _)

theorem execAll_ends (s : State) :
    execAll [.zeroFillPageEnd, .pageTestEnd, .alarmBoundary] s = .next s.fillPage.endPageTest.alarmBoundary := rfl

theorem execAll_blockEnd (s : State) : execAll [.blockEnd] s = .next s.blockEnd := rfl

theorem execAll_dueSteps (s : State) : execAll dueSteps s = .next s.settle := by
  have time := execAll_trans (execAll_trans (execAll_trans (execAll_references s) (execAll_boundaries _))
    (execAll_references _)) (execAll_gap _)
  have lanes := execAll_trans (execAll_trans time (execAll_flatMap execAll_lane allLanes _)) (execAll_blockEnd _)
  exact execAll_trans (execAll_trans lanes (execAll_flatMap execAll_program allPrograms _)) (execAll_ends _)

end Sys2Proof.Machine
end

section
/-! PROOF. The lanes through the audio of a house sample: the interpolators alone move them (O17, R38). -/

namespace Sys2Proof.Machine

theorem writeRing_lanes (p : Fin 16) (s : State) : (s.writeRing p).lanes = s.lanes := by
  unfold State.writeRing
  split
  · rfl
  · split <;> rfl

theorem takeInput_lanes (p : Fin 16) (s : State) : (s.takeInput p).lanes = s.lanes := by
  unfold State.takeInput
  split <;> rfl

theorem readRing_lanes (p : Fin 16) (s : State) : (s.readRing p).lanes = s.lanes := by
  have handed := (keepsOutside_handBypass p s).lanes
  have read (u : State) (x : Program) (n : Nat) : ((u.setProgram p (some x)).countReadErrors p n).lanes = u.lanes := rfl
  unfold State.readRing
  dsimp only
  split
  · split
    · exact read ..
    · exact ((keepsOutside_handBypass p _).lanes.trans (read ..)).trans handed
  · rfl

/-- A stage of the audio that leaves the lanes, made for every program. -/
theorem forAll_lanes {f : Fin 16 → State → State} (same : ∀ p s, (f p s).lanes = s.lanes) (s : State) :
    (forAll allPrograms f s).lanes = s.lanes :=
  forAll_rel (R := fun a b => b.lanes = a.lanes) (fun _ => rfl) (fun _ _ _ h k => k.trans h) allPrograms same s

theorem audio_lanes (u : State) : u.audio.lanes = u.lanes.map Lane.fillPipe := by
  rw [audio_eq, State.sendEgress_lanes]
  unfold State.formed
  dsimp only
  rw [forAll_lanes (fun p s => (keepsOutside_formOutput p s).lanes), forAll_lanes readRing_lanes,
    forAll_lanes writeRing_lanes, forAll_lanes takeInput_lanes]
  unfold State.interpolate
  rw [forAll_lanes (fun p s => (keepsOutside_handDemands p s).lanes)]

theorem audio_lane (u : State) (l : Fin 4) : u.audio.lane l = (u.lane l).fillPipe := by
  unfold State.lane
  simp only [audio_lanes, Vector.getElem_map]

/-- A coefficient set's sample, rounded to the nearest with ties up and held (R38). -/
theorem interpolatorSample_eq (i : Interpolator) (phase : Nat) (frames : List Sample) :
    i.sample phase frames = BitVec.ofInt 24 (max (-8388608) (min 8388607
      ((2 * (List.zipWith (fun (k : Int) (q : Sample) => k * q.toInt) (i.phases.getD phase []) frames).sum + 2 ^ i.bits)
        / (2 * 2 ^ i.bits)))) := by
  have one : ((2 ^ i.bits : Nat) : Int) = 2 ^ i.bits := by push_cast; rfl
  unfold Interpolator.sample roundDiv holdSample clampInt
  rw [one]

/-- The pipe of a lane takes the sixteen slots' interpolated samples, in the states that read the store (R38). -/
theorem Lane.fillPipe_eq (x : Lane) :
    x.fillPipe = { x with
      pipe := if x.state = .pulling ∨ x.state = .ready ∨ x.state = .locked then
          (((List.range 16).map fun slot =>
            (interpolator x.loopClass).sample (x.fillQ / 2 ^ 16 % 256) (x.window slot)) :: x.pipe).take 33
        else [] } := by
  unfold Lane.fillPipe
  rw [reading_ite, funext (Lane.interpolated_eq x)]

end Sys2Proof.Machine
end

section
/-! PROOF. The arithmetic of one sample: the slew's step, a fade's product, the filter's carries and a program's input
(O17, R62, R70, R74, R130, log entries 9 and 12). -/

namespace Sys2Proof.Machine

/-- The slew's step is the rate in 1/65,536 sample for each house sample, to the nearest (R130). -/
theorem slewStep_near (rate : Nat) :
    2 * 1000 * slewStep rate ≤ 2 * 65536 * rate + 1000 ∧ 2 * 65536 * rate + 1000 < 2 * 1000 * slewStep rate + 2000 := by
  unfold slewStep
  omega

/-! ## Fades -/

theorem toInt_holdSample_inRange {v : Int} (low : -8388608 ≤ v) (high : v ≤ 8388607) : (holdSample v).toInt = v := by
  have held : clampInt (-8388608) 8388607 v = v := by unfold clampInt; omega
  rw [holdSample, held, BitVec.toInt_ofInt]
  exact Int.bmod_eq_of_le (by omega) (by omega)

/-- A sample under a level below full gain lies within the samples' range, rounded down or up. -/
theorem product_inRange (x : Sample) {level : Nat} (h : level < 480) :
    -8388608 ≤ x.toInt * level / 480 ∧ x.toInt * level / 480 + 1 ≤ 8388607 := by
  have low := BitVec.le_toInt x
  have high := BitVec.toInt_lt (x := x)
  norm_num at low high
  have below : -8388608 * (480 : Int) ≤ x.toInt * level := by nlinarith
  have above : x.toInt * level ≤ 8388607 * 479 := by nlinarith
  omega

/-- A fade's product is one of the two samples beside the exact one, and the exact one where that is a sample. -/
theorem fadeSample_near (x : Sample) (level : Nat) (h : level ≤ 480) :
    (480 * (fadeSample x level).toInt - x.toInt * level).natAbs < 480
      ∧ ((x.toInt * level) % 480 = 0 → 480 * (fadeSample x level).toInt = x.toInt * level) := by
  unfold fadeSample
  split
  · next full => subst full; omega
  · obtain ⟨low, high⟩ := product_inRange x (show level < 480 by omega)
    dsimp only
    split
    · rw [toInt_holdSample_inRange low (by omega)]
      omega
    · split
      · rw [toInt_holdSample_inRange (by omega) high]
        omega
      · rw [toInt_holdSample_inRange low (by omega)]
        omega

/-! ## The weighting filter -/

/-- A kept whole number is one of the two beside the exact one, and the exact one where that is whole. -/
def Carries (bits : Nat) (exact kept : Int) : Prop :=
  (2 ^ bits * kept - exact).natAbs < ((2 : Int) ^ bits).natAbs ∧ (exact % 2 ^ bits = 0 → 2 ^ bits * kept = exact)

theorem carries_carryWhole (bits : Nat) (exact : Int) : Carries bits exact (carryWhole bits exact) := by
  obtain ⟨near, whole⟩ := carryWhole_near bits exact
  refine ⟨?_, whole⟩
  rwa [Int.natAbs_pow]

/-- The step of a filter is its six carries. -/
theorem weighSample_carries (f : FilterState) (x : Sample) : ∃ g : FilterState, ∃ y z : Int,
    weighSample f x = (g, z)
      ∧ Carries weighting.bits (weighting.lowCut.b0 * (x.toInt * 2 ^ 41) + 2 ^ weighting.bits * f.lowCutA) y
      ∧ Carries weighting.bits
          (weighting.lowCut.b1 * (x.toInt * 2 ^ 41) - weighting.lowCut.a1 * y + 2 ^ weighting.bits * f.lowCutB)
          g.lowCutA
      ∧ Carries weighting.bits (weighting.lowCut.b2 * (x.toInt * 2 ^ 41) - weighting.lowCut.a2 * y) g.lowCutB
      ∧ Carries weighting.bits (weighting.shelf.b0 * y + 2 ^ weighting.bits * f.shelfA) z
      ∧ Carries weighting.bits
          (weighting.shelf.b1 * y - weighting.shelf.a1 * z + 2 ^ weighting.bits * f.shelfB) g.shelfA
      ∧ Carries weighting.bits (weighting.shelf.b2 * y - weighting.shelf.a2 * z) g.shelfB := by
  refine ⟨(weighting.step f (x.toInt * 2 ^ 41)).1,
    (weighting.lowCut.step weighting.bits f.lowCutA f.lowCutB (x.toInt * 2 ^ 41)).2.2,
    (weighting.step f (x.toInt * 2 ^ 41)).2, weighSample_eq f x, ?_⟩
  generalize weighting = w
  exact ⟨carries_carryWhole .., carries_carryWhole .., carries_carryWhole .., carries_carryWhole ..,
    carries_carryWhole .., carries_carryWhole ..⟩

/-! ## A program's input -/

/-- A lane's slot output (R32, R38). -/
theorem laneSlotOutput_eq (lane : Nat) (now : Time) (slot : Nat) (l : Lane) :
    l.slotOutput lane now slot = if l.state = .locked then
      BitVec.ofInt 24 (max (-8388608) (min 8388607
        ((2 * ((l.interpolatorOutput lane now slot).toInt * l.entryFade.level * l.slip.level) + 9216) / 18432)))
    else (0 : Sample) := rfl

/-- A channel that has taken its input and has been measured (R62, R63, R70, R71, R122). -/
theorem measure_alignSample (now : Time) (lanes : Vector Lane 4) (ch : Channel) :
    (ch.alignSample now lanes).measure =
      let input := (lanes[ch.inUse.lane.val]'ch.inUse.lane.isLt).slotOutput ch.inUse.lane.val now ch.inUse.slot.val
      let buffer := (fadeSample input ch.coFade.level :: ch.trimBuf).take 256
      let aligned := fadeSample (buffer.getD ch.trim 0) ch.trimFade.level
      { ch with
        trimBuf := buffer, aligned := aligned, filter := (weighSample ch.filter aligned).1
        energySum := ch.energySum + (weighSample ch.filter aligned).2.natAbs ^ 2 } := rfl

theorem all_laneLocked (s : State) (chs : List Channel) :
    chs.all (Channel.laneLocked s.lanes) = decide (∀ ch ∈ chs, (s.lane ch.inUse.lane).state = .locked) := by
  rw [Bool.eq_iff_iff, List.all_eq_true, decide_eq_true_iff]
  exact forall₂_congr fun ch _ => beq_iff_eq

/-- What a program's input does in a house sample: each channel aligned and measured, the largest magnitude and the
block's marks kept (R74, R86). -/
theorem takeInput_eq {s : State} {p : Fin 16} {x : Program} (defined : s.program p = some x) :
    s.takeInput p = s.setProgram p (some { x with
      channels := x.channels.map fun ch => (ch.alignSample s.counter s.lanes).measure
      loud := { x.loud with
        peak := (x.channels.map fun ch => (ch.alignSample s.counter s.lanes).aligned.toInt.natAbs).foldl max x.loud.peak
        markPreparing := x.loud.markPreparing || decide (x.state = .preparing)
        markLane := x.loud.markLane || !decide (∀ ch ∈ x.channels, (s.lane ch.inUse.lane).state = .locked)
        markHold := x.loud.markHold || s.alarm.holdCovers p
        wasRunning := decide (x.state = .running), wasPaused := x.loud.paused } }) := by
  rw [← all_laneLocked]
  unfold State.takeInput Program.takeInput Program.measure Program.mark
  simp only [defined, List.map_map, Function.comp_def, magnitude]
  rfl

end Sys2Proof.Machine
end

section
/-! PROOF. The opening of a house sample, field by field, and the DRAM's failures one after another (O17, R36, R39,
R113, R130, R143, log entries 18 and 54). -/

namespace Sys2Proof.Machine

/-! ## A lane one house sample on -/

theorem laneSlipDue_iff (x : Lane) : x.slipDue = true ↔ (x.state = .pulling ∨ x.state = .ready ∨ x.state = .locked)
    ∧ x.slip.dir = .steady ∧ (x.fillQ / 2 ^ 16 < 2048 ∨ 57344 < x.fillQ / 2 ^ 16) := by
  have reading : x.state.reading = true ↔ x.state = .pulling ∨ x.state = .ready ∨ x.state = .locked := by
    cases x.state <;> simp [LaneState.reading]
  unfold Lane.slipDue Lane.fill
  simp only [Bool.and_eq_true, Bool.or_eq_true, decide_eq_true_eq, beq_iff_eq, reading, and_assoc]

theorem slipTest_eq (x : Lane) : x.slipTest = { x with
    slip := if (x.state = .pulling ∨ x.state = .ready ∨ x.state = .locked) ∧ x.slip.dir = .steady
        ∧ (x.fillQ / 2 ^ 16 < 2048 ∨ 57344 < x.fillQ / 2 ^ 16) then ⟨96, .falling, 96⟩ else x.slip } := by
  unfold Lane.slipTest
  by_cases due : x.slipDue = true
  · rw [if_pos due, if_pos ((laneSlipDue_iff x).mp due)]
    rfl
  · rw [if_neg due, if_neg fun h => due ((laneSlipDue_iff x).mpr h)]

/-- A lane as its store has been read in a house sample. -/
theorem readAdvance_eq (x : Lane) : (if x.state.reading then x.readAdvance else x) = { x with
    fillQ := if x.state = .pulling ∨ x.state = .ready ∨ x.state = .locked then x.fillQ - x.rho.toNat
      else x.fillQ } := by
  rw [reading_ite]
  split <;> rfl

theorem laneTick_eq (x : Lane) : x.closeSample.tick =
    let reading := x.state = .pulling ∨ x.state = .ready ∨ x.state = .locked
    let fill := if reading then x.fillQ - x.rho.toNat else x.fillQ
    let out := fill / 2 ^ 16 < 2048 ∨ 57344 < fill / 2 ^ 16
    { x with
      fillQ := fill
      slip := if reading ∧ x.slip.dir = .steady ∧ out then ⟨96, .falling, 96⟩ else x.slip.moved 96
      entryFade := x.entryFade.moved 96
      windowCount := x.windowCount + x.startsNow, startsNow := 0, controlTaken := false } := by
  unfold Lane.tick
  simp only [readAdvance_eq, slipTest_eq, Fade.tick_eq_moved]
  rfl

/-! ## A program one house sample on -/

theorem slewTick_eq (a : Align) : a.slewTick =
    let slews := a.motion = .slewing ∧ slewStep a.slewRate ≤ a.distance
    { a with
      cur := if slews then
          (if a.cur < a.target * 65536 then a.cur + slewStep a.slewRate else a.cur - slewStep a.slewRate)
        else a.cur
      arriving := if a.motion = .slewing then decide (a.distance < slewStep a.slewRate) else a.arriving } := by
  dsimp only
  by_cases slewing : a.motion = .slewing
  · rw [Align.slewTick_slewing slewing]
    by_cases near : a.distance < slewStep a.slewRate
    · rw [if_pos near, if_neg (by omega), if_pos slewing, decide_eq_true near]
    · rw [if_neg near, if_pos ⟨slewing, by omega⟩, if_pos slewing, decide_eq_false near]
      rfl
  · rw [Align.slewTick_other slewing, if_neg fun h => slewing h.1, if_neg slewing]

theorem rampTick_eq (o : OutStage) :
    o.rampTick = { o with rampStep := if o.rampStep = 0 then 0 else min 481 (o.rampStep + 1) } := by
  unfold OutStage.rampTick
  by_cases steady : o.rampStep = 0
  · rw [if_pos steady, if_pos steady, ← steady]
  · rw [if_neg steady, if_neg steady]

theorem programTick_eq (x : Program) : x.tick =
    let a := x.align
    let slews := a.motion = .slewing ∧ slewStep a.slewRate ≤ a.distance
    { x with
      channels := x.channels.map fun ch =>
        { ch with coFade := ch.coFade.moved 480, trimFade := ch.trimFade.moved 480 }
      onAir := x.onAir.moved 480
      align := { a with
        fade := a.fade.moved 480
        cur := if slews then
            (if a.cur < a.target * 65536 then a.cur + slewStep a.slewRate else a.cur - slewStep a.slewRate)
          else a.cur
        arriving := if a.motion = .slewing then decide (a.distance < slewStep a.slewRate) else a.arriving }
      loud := { x.loud with blockTaken := false }
      out := { x.out with
        muteFade := x.out.muteFade.moved 480, multUsed := x.out.rampNow
        rampStep := if x.out.rampStep = 0 then 0 else min 481 (x.out.rampStep + 1) } } := by
  unfold Program.tick
  rw [slewTick_eq, rampTick_eq]
  simp only [Fade.tick_eq_moved, OutStage.multiplier_eq_rampNow]
  rfl

/-! ## The state one house sample on -/

theorem openSample_lane (pins : BitVec 4) (l : Fin 4) (u : State) :
    (u.latch.openSample pins).lane l = (u.lane l).closeSample.tick := by
  simp [State.lane, State.openSample, State.latch]

/-- The house sample opened after `u`, before the DRAM's failures, but for the lanes and the programs. -/
structure SampleOpened (pins : BitVec 4) (u t : State) : Prop where
  claims : t.claims = u.claims
  egress : t.egress = u.egress
  tb : t.tb = u.tb
  link : t.link = u.link
  alarm : t.alarm = { u.alarm with pins := pins, boundaryTaken := false, silenceLevel := (u.alarm.kind 4).level }
  pool : t.pool = (if u.pool.check.isSome = true ∧ u.pool.window ≠ [] ∧ u.pool.fill = [] then
      { u.pool with testRun := u.pool.testRun + 1 } else u.pool)
  lanes : ∀ l, t.lane l = (u.lane l).closeSample.tick
  programs : ∀ p, t.program p = (u.program p).map Program.tick

theorem sampleOpened (pins : BitVec 4) (u : State) : SampleOpened pins u (u.latch.openSample pins) where
  claims := rfl
  egress := rfl
  tb := rfl
  link := rfl
  alarm := rfl
  pool := by
    have tested : (u.pool.check.isSome && !u.pool.window.isEmpty && u.pool.fill.isEmpty) = true
        ↔ u.pool.check.isSome = true ∧ u.pool.window ≠ [] ∧ u.pool.fill = [] := by
      simp [and_assoc]
    exact if_congr tested rfl rfl
  lanes l := openSample_lane pins l u
  programs p := openSample_program pins p u

theorem SampleOpened.faulted {pins : BitVec 4} {u t : State} (h : SampleOpened pins u t) (faults : List DramFault) :
    SampleOpened pins u (faults.foldl State.takeFault t) := by
  obtain ⟨dram, stuck, same⟩ := takeFaults_eq faults t
  rw [same]
  exact ⟨h.claims, h.egress, h.tb, h.link, h.alarm, h.pool, h.lanes, h.programs⟩

theorem tick_sampleOpened (pins : BitVec 4) (faults : List DramFault) (s : State) :
    SampleOpened pins s.closeSample (s.tick pins faults) :=
  (sampleOpened pins s.closeSample).faulted faults

/-- One failure more is taken in the state that those before it have left. -/
theorem tick_concat (pins : BitVec 4) (faults : List DramFault) (f : DramFault) (s : State) :
    s.tick pins (faults ++ [f]) = (s.tick pins faults).takeFault f := by
  unfold State.tick
  rw [List.foldl_append]
  rfl

theorem tick_dram (pins : BitVec 4) (s : State) :
    (s.tick pins []).dram = s.closeSample.dram ∧ (s.tick pins []).stuck = s.closeSample.stuck := by
  have opened (u : State) : (u.latch.openSample pins).dram = u.dram ∧ (u.latch.openSample pins).stuck = u.stuck :=
    ⟨rfl, rfl⟩
  exact opened s.closeSample

end Sys2Proof.Machine
end

section
open Sys2Proof Sys2Proof.Machine

/-- Settles O17: the steps due row by row, the audio stage by stage, and the sample opened, each by its own equation. A
failure more of the DRAM is read back because the list of its bytes stands in its canonical form throughout. -/
theorem houseClockMovesAndMeasuresTheAudio : Obligations.HouseClockMovesAndMeasuresTheAudio := by
  refine ⟨execAll_dueSteps, fun u => ⟨rfl, fun l => ?_⟩, fun s pins faults => ?_, fun rate _ _ => slewStep_near rate,
    fun s p x defined => ?_, fadeSample_near, interpolator_meets, weighting_meetsResponse, weighSample_carries⟩
  · rw [audio_lane, Lane.fillPipe_eq]
    simp only [interpolatorSample_eq]
    rfl
  · obtain ⟨w, closed⟩ : ∃ w, w = s.closeSample := ⟨_, rfl⟩
    obtain ⟨t, made⟩ : ∃ t, t = s.tick pins faults := ⟨_, rfl⟩
    have closing : s.settle.serveLink.audio.serveLink = w := closed.symm
    have opened : SampleOpened pins w t := by
      rw [made, closed]
      exact tick_sampleOpened pins faults s
    rw [closing]
    refine ⟨t, by rw [made]; rfl, opened.claims, opened.egress, opened.tb, opened.link, opened.alarm, opened.pool,
      ?_, ?_, ?_, ?_⟩
    · intro noFault
      rw [made, closed, noFault]
      exact tick_dram pins s
    · intro order f
      have spec := State.takeFault_spec f (s := t) (by rw [made]; exact dramInOrder_tick pins faults order)
      exact ⟨t.takeFault f, by rw [made, ← tick_concat]; rfl, spec⟩
    · intro l
      rw [opened.lanes, laneTick_eq]
    · intro p
      rw [opened.programs, funext programTick_eq]
  · rw [takeInput_eq defined]
    simp only [measure_alignSample, laneSlotOutput_eq]
    rfl
end

section
/-! PROOF. What a record holds of the part's pages and egresses (O5): no operation on a record, no stage of the audio
and no house sample moves a page of its ring or an egress of its channels. -/

namespace Sys2Proof.Machine

/-- The pages of a record's ring and the egresses of its channels, in their orders (R58, R109). -/
def Program.holdings (x : Program) : List Nat × List Source :=
  (x.ring.map PageEntry.page, x.channels.map Channel.egress)

/-- The pages of a record's ring, and what each of its channels shows under a view. -/
def Program.seen {β : Type} (g : Channel → β) (x : Program) : List Nat × List β :=
  (x.ring.map PageEntry.page, x.channels.map g)

/-- A view of a channel that the audio of a house sample does not change. -/
structure AudioBlind {β : Type} (g : Channel → β) : Prop where
  align : ∀ now lanes ch, g (Channel.alignSample now lanes ch) = g ch
  measure : ∀ ch, g (Channel.measure ch) = g ch
  gather : ∀ n ch, g (Channel.gather n ch) = g ch
  readBuf : ∀ (ch : Channel) l, g { ch with readBuf := l } = g ch
  delayed : ∀ (ch : Channel) v, g { ch with delayed := v } = g ch
  output : ∀ x threshold count ch, g (Channel.formOutput x threshold count ch) = g ch
  overRun : ∀ (judged ch : Channel), g (judged.takeOver ch) = g ch
  cleared : ∀ ch, g (Channel.clearOver ch) = g ch

theorem egress_audioBlind : AudioBlind Channel.egress :=
  ⟨fun _ _ _ => rfl, fun _ => rfl, fun _ _ => rfl, fun _ _ => rfl, fun _ _ => rfl, fun _ _ _ _ => rfl, fun _ _ => rfl,
    fun _ => rfl⟩

/-! ## Channels -/

section
variable {β : Type} {g : Channel → β}

/-- Operations on a channel that a view does not show leave what is seen of the record. -/
theorem mapChannels_seen {f : Channel → Channel} (x : Program) (h : ∀ ch, g (f ch) = g ch) :
    Program.seen g { x with channels := x.channels.map f } = x.seen g := by
  unfold Program.seen
  rw [List.map_map]
  exact congrArg _ (List.map_congr_left fun ch _ => h ch)

theorem atChannel_seen {f : Channel → Channel} (c : Nat) (x : Program) (h : ∀ ch, g (f ch) = g ch) :
    (x.atChannel c f).seen g = x.seen g := by
  unfold Program.seen Program.atChannel
  refine congrArg _ (List.ext_getElem? fun i => ?_)
  simp only [List.getElem?_map, List.getElem?_modify, Option.map_eq_map, Option.map_map]
  congr 1
  funext ch
  simp only [Function.comp_apply]
  split
  · exact h ch
  · rfl

end

theorem mapChannels_holdings {f : Channel → Channel} (x : Program) (h : ∀ ch, (f ch).egress = ch.egress) :
    Program.holdings { x with channels := x.channels.map f } = x.holdings := mapChannels_seen x h

theorem atChannel_holdings {f : Channel → Channel} (c : Nat) (x : Program) (h : ∀ ch, (f ch).egress = ch.egress) :
    (x.atChannel c f).holdings = x.holdings := atChannel_seen c x h

@[simp] theorem compare_egress (ch : Channel) : ch.compare.egress = ch.egress := by
  unfold Channel.compare
  split <;> rfl

@[simp] theorem reselect_egress (ch : Channel) : ch.reselect.egress = ch.egress := compare_egress _

@[simp] theorem takeMode_egress (m : SelectMode) (ch : Channel) : (ch.takeMode m).egress = ch.egress := by
  unfold Channel.takeMode
  split
  · rfl
  · exact reselect_egress _

@[simp] theorem takeSources_egress (a : AlarmUnit) (p : Fin 16) (u : Source) (v : Option Source) (ch : Channel) :
    (ch.takeSources a p u v).egress = ch.egress := reselect_egress _

@[simp] theorem refreshDemand_egress (a : AlarmUnit) (p : Fin 16) (ch : Channel) :
    (ch.refreshDemand a p).egress = ch.egress := by
  unfold Channel.refreshDemand
  dsimp only
  split
  · rfl
  · exact reselect_egress _

@[simp] theorem changeoverEnd_egress (ch : Channel) : ch.changeoverEnd.egress = ch.egress := by
  unfold Channel.changeoverEnd
  split
  · exact compare_egress _
  · rfl

@[simp] theorem startTrimStep_egress (ch : Channel) : ch.startTrimStep.egress = ch.egress := by
  unfold Channel.startTrimStep
  split <;> rfl

@[simp] theorem stepTrim_egress (ch : Channel) : ch.stepTrim.egress = ch.egress := by
  unfold Channel.stepTrim
  split <;> rfl

@[simp] theorem endTrimStep_egress (ch : Channel) : ch.endTrimStep.egress = ch.egress := by
  unfold Channel.endTrimStep
  split
  · exact startTrimStep_egress _
  · rfl

@[simp] theorem retrim_egress (lanes : Vector Lane 4) (pprog : Nat) (direct : Bool) (ch : Channel) :
    (ch.retrim lanes pprog direct).egress = ch.egress := by
  unfold Channel.retrim
  dsimp only
  split
  · rfl
  · split
    · rfl
    · exact startTrimStep_egress _

/-! ## The operations on a record -/

section
variable (x : Program)

theorem retotal_seen {β : Type} (g : Channel → β) : x.retotal.seen g = x.seen g := by
  unfold Program.seen
  rw [Program.retotal_ring, Program.retotal_channels]

theorem retotal_holdings : x.retotal.holdings = x.holdings := retotal_seen x Channel.egress

theorem setApplied_holdings (v : Int) : (x.setApplied v).holdings = x.holdings := retotal_holdings _

theorem applyDue_holdings (now : Time) : (x.applyDue now).holdings = x.holdings := by
  rw [applyDue_record]
  rfl

theorem makeRoom_holdings : x.makeRoom.holdings = x.holdings := by
  unfold Program.makeRoom
  split
  · split
    · exact setApplied_holdings ..
    · rfl
  · rfl

theorem post_holdings (now : Time) (block : Nat) : (x.post now block).holdings = x.holdings := by
  unfold Program.post
  dsimp only
  split
  · rfl
  · split
    · exact setApplied_holdings ..
    · exact makeRoom_holdings x

theorem blockEnd_holdings (now : Time) : (x.blockEnd now).holdings = x.holdings := by
  unfold Program.blockEnd
  dsimp only
  split
  · rfl
  · rw [post_holdings, applyDue_holdings]
    exact mapChannels_holdings x fun _ => rfl

theorem emptyReadBuffers_holdings : x.emptyReadBuffers.holdings = x.holdings := mapChannels_holdings x fun _ => rfl

/-- A jump of the delay empties the read buffers alone. -/
theorem jump_holdings : x.jump.holdings = x.holdings := emptyReadBuffers_holdings x

theorem takeChange_holdings (mode : ChangeMode) : (x.takeChange mode).holdings = x.holdings := by
  have ring : (x.takeChange mode).ring = x.ring := by rw [(takeChange_motion mode x).record]
  obtain same | emptied := takeChange_channels mode x
  · unfold Program.holdings
    rw [ring, same]
  · rw [← emptyReadBuffers_holdings x]
    unfold Program.holdings
    rw [ring, emptied]
    rfl

theorem retarget_holdings (mode : ChangeMode) (value pprog : Nat) :
    (x.retarget mode value pprog).holdings = x.holdings := by
  unfold Program.retarget
  dsimp only
  split
  · rfl
  · exact takeChange_holdings ..

theorem realign_holdings (lanes : Vector Lane 4) : (x.realign lanes).holdings = x.holdings :=
  (retarget_holdings ..).trans (mapChannels_holdings x fun _ => retrim_egress ..)

theorem changeoverSwitch_holdings (lanes : Vector Lane 4) (c : Nat) :
    (x.changeoverSwitch lanes c).holdings = x.holdings := by
  unfold Program.changeoverSwitch
  split
  · split
    · exact (realign_holdings ..).trans (atChannel_holdings c x fun _ => rfl)
    · rfl
  · rfl

theorem slewArrival_holdings : x.slewArrival.holdings = x.holdings := by
  rw [slewArrival_eq]
  rfl

section
variable {β : Type} {g : Channel → β} (blind : AudioBlind g)
include blind

theorem jump_seen : x.jump.seen g = x.seen g := mapChannels_seen _ fun ch => blind.readBuf ch []

theorem bypassNow_seen (f : Fade) : (x.bypassNow f).seen g = x.seen g := by
  unfold Program.bypassNow
  dsimp only
  split
  · exact jump_seen x blind
  · rfl

theorem applyBypass_seen : x.applyBypass.seen g = x.seen g := by
  unfold Program.applyBypass
  dsimp only
  split
  · split
    · exact bypassNow_seen _ blind _
    · rfl
  · rfl
  · split
    · exact bypassNow_seen _ blind _
    · rfl

theorem removeBypass_seen : x.removeBypass.seen g = x.seen g := by
  unfold Program.removeBypass
  dsimp only
  split
  · rfl
  · split
    · exact jump_seen _ blind
    · rfl
  · split
    · exact jump_seen _ blind
    · rfl

theorem takeBypass_seen (applied : Bool) : (x.takeBypass applied).seen g = x.seen g := by
  unfold Program.takeBypass
  split
  · rfl
  · split
    · exact applyBypass_seen x blind
    · exact removeBypass_seen x blind

end

theorem takePad_seen {β : Type} (g : Channel → β) (on : Bool) : (x.takePad on).seen g = x.seen g := by
  have pad (v : Int) : (x.setPad v).seen g = x.seen g := retotal_seen _ g
  rw [Program.takePad, apply_ite (Program.seen g), pad, ite_self]

theorem bypassNow_holdings (f : Fade) : (x.bypassNow f).holdings = x.holdings := bypassNow_seen x egress_audioBlind f

theorem takeBypass_holdings (applied : Bool) : (x.takeBypass applied).holdings = x.holdings :=
  takeBypass_seen x egress_audioBlind applied

theorem takePad_holdings (on : Bool) : (x.takePad on).holdings = x.holdings := takePad_seen x Channel.egress on

theorem cutJump_holdings : x.cutJump.holdings = x.holdings := by
  unfold Program.cutJump
  split
  · exact jump_holdings x
  · rfl

theorem bypassSwitch_holdings : x.bypassSwitch.holdings = x.holdings := by
  unfold Program.bypassSwitch
  split
  · exact bypassNow_holdings ..
  · rfl

/-- No operation made on a record moves what it holds. -/
theorem ProgramStep.keeps_holdings {lanes : Vector Lane 4} {f : Program → Program} (step : ProgramStep lanes f) :
    (f x).holdings = x.holdings := by
  cases step with
  | takeModes m => exact mapChannels_holdings x fun _ => takeMode_egress ..
  | takeMode c m => exact atChannel_holdings c x fun _ => takeMode_egress ..
  | takeSources c a p u v => exact atChannel_holdings c x fun _ => takeSources_egress ..
  | takeDemands a p => exact mapChannels_holdings x fun _ => refreshDemand_egress ..
  | changeoverSwitch c => exact changeoverSwitch_holdings x lanes c
  | changeoverEnd c => exact atChannel_holdings c x changeoverEnd_egress
  | stepTrim c => exact atChannel_holdings c x stepTrim_egress
  | endTrimStep c => exact atChannel_holdings c x endTrimStep_egress
  | realignIf l =>
    dsimp only
    split
    · exact realign_holdings ..
    · rfl
  | setLoudness c => exact retotal_holdings _
  | blockEnd now => exact blockEnd_holdings x now
  | takeDelay tag d => exact retarget_holdings ..
  | stopDelay => exact (retarget_holdings ..).trans (slewArrival_holdings x)
  | cutJump => exact cutJump_holdings x
  | slewArrival => exact slewArrival_holdings x
  | takeBypass applied => exact takeBypass_holdings x applied
  | bypassSwitch => exact bypassSwitch_holdings x
  | applyDue now => exact applyDue_holdings x now
  | takePad on => exact takePad_holdings x on
  | start =>
    unfold Program.start
    split
    · rfl
    · split <;> rfl
    · rfl
  | stop =>
    unfold Program.stop
    split <;> rfl
  | onAirEnd =>
    unfold Program.onAirEnd
    split
    · rfl
    · split <;> rfl
  | cutInEnd =>
    unfold Program.cutInEnd
    split <;> rfl
  | bypassFadeInEnd =>
    unfold Program.bypassFadeInEnd
    split <;> rfl
  | rampEnd =>
    unfold Program.rampEnd
    split <;> rfl
  | mute flag =>
    unfold Program.mute
    split <;> rfl
  | muteEnd =>
    unfold Program.muteEnd
    split <;> rfl
  | resetIntegration | pause | judgeSilence => rfl

/-- Nor does what follows in the other blocks as it is put in its place. -/
theorem standing_seen {β : Type} (g : Channel → β) (now : Time) (old : Program) :
    (Program.standing now old x).seen g = x.seen g := by
  rw [standing_eq]
  rfl

theorem standing_holdings (now : Time) (old : Program) : (Program.standing now old x).holdings = x.holdings :=
  standing_seen x Channel.egress now old

theorem tick_holdings : x.tick.holdings = x.holdings := mapChannels_holdings x fun _ => rfl

/-! ## The stages of the audio -/

/-- A page marked suspect stays where it is in the ring (R116). -/
theorem suspect_seen {β : Type} (g : Channel → β) (slot : Nat) : (x.suspect slot).seen g = x.seen g := by
  unfold Program.seen Program.suspect
  refine congrArg (·, _) (List.ext_getElem? fun i => ?_)
  simp only [List.getElem?_map, List.getElem?_modify, Option.map_eq_map, Option.map_map]
  congr 1
  funext e
  simp only [Function.comp_apply]
  split <;> rfl

section
variable {β : Type} {g : Channel → β} (blind : AudioBlind g)
include blind

theorem takeInput_seen (now : Time) (lanes : Vector Lane 4) (held : Bool) :
    (x.takeInput now lanes held).seen g = x.seen g :=
  (mapChannels_seen { x with channels := x.channels.map (Channel.alignSample now lanes) } (f := Channel.measure)
    blind.measure).trans (mapChannels_seen x (blind.align now lanes))

theorem fetch_seen (m : Dram) (stuck : List Host.Cell) (c : Nat) (i : Int) :
    (x.fetch m stuck c i).program.seen g = x.seen g := by
  have held (h : HeldGroup) : (x.hold c h).seen g = x.seen g := atChannel_seen c x fun ch => blind.readBuf ch _
  unfold Program.fetch
  dsimp only
  split
  · rfl
  · split
    · exact held _
    · exact (suspect_seen ..).trans (held _)

theorem serve_seen (m : Dram) (stuck : List Host.Cell) (n c : Nat) (i : Int) :
    (x.serve m stuck n c i).program.seen g = x.seen g := by
  unfold Program.serve
  split
  · rfl
  · split
    · rfl
    · split
      · rfl
      · exact fetch_seen x blind ..

theorem readChannel_seen (m : Dram) (stuck : List Host.Cell) (n c : Nat) :
    (x.readChannel m stuck n c).1.seen g = x.seen g := by
  have delayed (y : Program) (v : Sample) : (y.setDelayed c v).seen g = y.seen g :=
    atChannel_seen c y fun ch => blind.delayed ch v
  have served (y : Program) (i : Int) := serve_seen y blind m stuck n c i
  unfold Program.readChannel
  dsimp only
  split <;> simp only [delayed, served]

theorem formDelayed_seen (m : Dram) (stuck : List Host.Cell) (n : Nat) :
    (x.formDelayed m stuck n).1.seen g = x.seen g := by
  have fold (l : List Nat) (r : Program × Nat) : (l.foldl (fun r c =>
      let k := r.1.readChannel m stuck n c; (k.1, r.2 + k.2)) r).1.seen g = r.1.seen g := by
    induction l generalizing r with
    | nil => rfl
    | cons c rest ih => exact (ih _).trans (readChannel_seen _ blind ..)
  unfold Program.formDelayed
  split
  · rfl
  · split
    · exact mapChannels_seen x fun ch => blind.delayed ch _
    · exact fold _ _

theorem formOutputs_seen (threshold count : Nat) : (x.formOutputs threshold count).seen g = x.seen g := by
  unfold Program.formOutputs
  split
  · rfl
  · exact mapChannels_seen x (blind.output x threshold count)

end

theorem takeInput_holdings (now : Time) (lanes : Vector Lane 4) (held : Bool) :
    (x.takeInput now lanes held).holdings = x.holdings := takeInput_seen x egress_audioBlind now lanes held

theorem formDelayed_holdings (m : Dram) (stuck : List Host.Cell) (n : Nat) :
    (x.formDelayed m stuck n).1.holdings = x.holdings := formDelayed_seen x egress_audioBlind m stuck n

theorem formOutputs_holdings (threshold count : Nat) : (x.formOutputs threshold count).holdings = x.holdings :=
  formOutputs_seen x egress_audioBlind threshold count

end

end Sys2Proof.Machine
end

section
/-! PROOF. Pages and egresses stay in their places (O5): what leaves every one of them where it was. -/

namespace Sys2Proof.Machine

/-- Every page, every claim and every egress stands where it stood. -/
structure SamePlaces (s t : State) : Prop where
  free : t.pool.free = s.pool.free
  window : t.pool.window = s.pool.window
  retired : t.pool.retired = s.pool.retired
  sized : t.pool.sized = s.pool.sized
  sizing : t.link.sizingEnded = s.link.sizingEnded
  claims : t.claims = s.claims
  holdings : ∀ p, (t.program p).map Program.holdings = (s.program p).map Program.holdings

theorem SamePlaces.refl (s : State) : SamePlaces s s := ⟨rfl, rfl, rfl, rfl, rfl, rfl, fun _ => rfl⟩

theorem SamePlaces.trans {a b c : State} (h : SamePlaces a b) (k : SamePlaces b c) : SamePlaces a c :=
  ⟨k.free.trans h.free, k.window.trans h.window, k.retired.trans h.retired, k.sized.trans h.sized,
    k.sizing.trans h.sizing, k.claims.trans h.claims, fun p => (k.holdings p).trans (h.holdings p)⟩

theorem SamePlaces.forAll {α : Type} (l : List α) {f : α → State → State} (h : ∀ a s, SamePlaces s (f a s))
    (s : State) : SamePlaces s (Machine.forAll l f s) :=
  forAll_rel .refl (fun _ _ _ => .trans) l h s

/-! ## Parts that hold no page -/

section
variable (s : State)

theorem samePlaces_alarm (a : AlarmUnit) : SamePlaces s { s with alarm := a } :=
  ⟨rfl, rfl, rfl, rfl, rfl, rfl, fun _ => rfl⟩

theorem samePlaces_tb (t : Timebase) : SamePlaces s { s with tb := t } :=
  ⟨rfl, rfl, rfl, rfl, rfl, rfl, fun _ => rfl⟩

theorem samePlaces_link (k : LinkPort) (same : k.sizingEnded = s.link.sizingEnded) : SamePlaces s { s with link := k } :=
  ⟨rfl, rfl, rfl, rfl, same, rfl, fun _ => rfl⟩

theorem samePlaces_setLane (l : Fin 4) (x : Lane) : SamePlaces s (s.setLane l x) :=
  ⟨rfl, rfl, rfl, rfl, rfl, rfl, fun _ => rfl⟩

theorem samePlaces_complete (c : Completion) : SamePlaces s (s.complete c) := samePlaces_link s _ (by rfl)

theorem samePlaces_closeOp (tag : Byte) (k : Concern) (r : Result) (d : List Byte) :
    SamePlaces s (s.closeOp tag k r d) := samePlaces_link s _ (by rfl)

theorem samePlaces_openOp (tag : Byte) (k : Concern) : SamePlaces s (s.openOp tag k) := by
  unfold State.openOp
  split
  · exact .refl s
  · exact samePlaces_link s _ (by rfl)

end

/-! ## Programs -/

variable {s : State}

/-- What changes one record, and nothing outside the programs, leaves the places where the record's holdings stay. -/
theorem samePlaces_record {t : State} {p : Fin 16} {x y : Program} (outside : KeepsOutside s t)
    (link : KeepsLink s.link t.link) (others : ∀ q, p ≠ q → t.program q = s.program q)
    (before : s.program p = some x) (after : t.program p = some y) (same : y.holdings = x.holdings) :
    SamePlaces s t := by
  obtain ⟨_, _, _, _, claims, pool, _, _, _⟩ := outside
  refine ⟨by rw [pool], by rw [pool], by rw [pool], by rw [pool], by rw [link.eq], claims, fun q => ?_⟩
  by_cases here : p = q
  · subst here
    rw [before, after, Option.map_some, Option.map_some, same]
  · rw [others q here]

theorem samePlaces_setProgram {p : Fin 16} {x y : Program} (defined : s.program p = some x)
    (same : y.holdings = x.holdings) : SamePlaces s (s.setProgram p (some y)) :=
  samePlaces_record (keepsOutside_setProgram ..) (.refl _) (fun q ne => State.program_setProgram_ne s p q _ ne) defined
    (State.program_setProgram ..) same

theorem samePlaces_putProgram {p : Fin 16} {x y : Program} (defined : s.program p = some x)
    (same : y.holdings = x.holdings) : SamePlaces s (s.putProgram p x y) :=
  samePlaces_record (keepsOutside_putProgram ..) (keepsLink_putProgram ..)
    (fun q ne => putProgram_program_ne p q x y s ne) defined (putProgram_program ..)
    ((standing_holdings ..).trans same)

theorem samePlaces_progStep (p : Fin 16) {f : Program → Program} (same : ∀ x, (f x).holdings = x.holdings) :
    SamePlaces s (s.progStep p f) := by
  unfold State.progStep
  split
  · exact .refl s
  · split
    · exact .refl s
    · exact samePlaces_putProgram ‹_› (same _)

theorem samePlaces_program (p : Fin 16) {f : Program → Program} (step : ProgramStep s.lanes f) :
    SamePlaces s (s.progStep p f) :=
  samePlaces_progStep p fun x => step.keeps_holdings x

theorem samePlaces_endDelayOp (p : Fin 16) (r : Result) : SamePlaces s (s.endDelayOp p r) := by
  unfold State.endDelayOp
  split
  · exact .refl s
  · split
    · exact .refl s
    · exact (samePlaces_setProgram ‹_› (by rfl)).trans (samePlaces_closeOp ..)

theorem samePlaces_enterStandby (p : Fin 16) : SamePlaces s (s.enterStandby p) := by
  unfold State.enterStandby
  split
  · exact .refl s
  · rename_i x defined
    have same : (x.enterStandby s.counter).holdings = x.holdings := mapChannels_holdings x fun _ => rfl
    have put := samePlaces_putProgram defined same
    dsimp only
    split
    · exact put.trans (samePlaces_closeOp ..)
    · exact put

theorem Answer.MakesStep.samePlaces {a : Answer} (made : a.MakesStep s) : SamePlaces s a.state := by
  obtain same | ⟨p, f, step, made⟩ := made
  · rw [same]
    exact .refl s
  · rw [made]
    exact samePlaces_program p step

theorem samePlaces_setDelay (tag b : Byte) (f : DelayFields) : SamePlaces s (s.setDelay tag b f).state := by
  unfold State.setDelay State.withProgram
  split
  · exact .refl s
  · split
    · exact .refl s
    · split
      · exact .refl s
      · exact ((samePlaces_endDelayOp ..).trans (samePlaces_openOp ..)).trans
          (samePlaces_program (s := (s.endDelayOp _ .superseded).openOp tag (.delay _)) _ (.takeDelay ..))

/-! ## The schedule and the timebase -/

theorem samePlaces_runEntry (e : SchedEntry) : SamePlaces s (s.runEntry e) := by
  have left : SamePlaces s (s.unscheduled e) := samePlaces_tb ..
  unfold State.runEntry
  dsimp only
  split
  · unfold State.carryDelay
    split
    · exact left.trans (samePlaces_complete ..)
    · dsimp only
      split
      · exact left.trans (samePlaces_setDelay ..)
      · exact left.trans (samePlaces_complete ..)
  · exact (left.trans (runInner_step _ _).samePlaces).trans (samePlaces_complete ..)
  · exact left

theorem samePlaces_runFrame (s : State) : SamePlaces s s.runFrame := by
  have fold (l : List SchedEntry) (u : State) : SamePlaces u (l.foldl State.runEntry u) := by
    induction l generalizing u with
    | nil => exact .refl u
    | cons e rest ih => exact (samePlaces_runEntry e).trans (ih _)
  exact fold _ s

theorem samePlaces_tbStep (f : Timebase → Timebase) : SamePlaces s (s.tbStep f) := by
  unfold State.tbStep
  split
  · exact .refl s
  · exact (samePlaces_tb s (f s.tb)).trans (samePlaces_alarm ..)

theorem samePlaces_timed (t : Timebase) (begins : Bool) : SamePlaces s (s.timed t begins) := by
  unfold State.timed
  split
  · exact (samePlaces_tbStep _).trans (samePlaces_runFrame _)
  · exact samePlaces_tbStep _

theorem samePlaces_referenceLost (i : RefInput) : SamePlaces s (s.referenceLost i) := by
  unfold State.referenceLost
  split
  · exact samePlaces_tbStep _
  · exact .refl s

theorem samePlaces_holdExpiry (s : State) : SamePlaces s s.holdExpiry := by
  unfold State.holdExpiry
  split
  · exact samePlaces_timed ..
  · exact .refl s

theorem samePlaces_revertExpiry (s : State) : SamePlaces s s.revertExpiry := by
  unfold State.revertExpiry
  split
  · exact samePlaces_timed ..
  · exact .refl s

theorem samePlaces_frameBoundary (s : State) : SamePlaces s s.frameBoundary := by
  unfold State.frameBoundary
  split
  · exact samePlaces_timed (s.tb.boundary s.counter) true
  · exact .refl s

theorem samePlaces_realignTimeout (s : State) : SamePlaces s s.realignTimeout := by
  unfold State.realignTimeout
  split
  · exact samePlaces_timed (s.tb.realignTimeout s.counter) true
  · exact .refl s

theorem samePlaces_settleReferences (s : State) : SamePlaces s s.settleReferences :=
  (((samePlaces_referenceLost .a).trans (samePlaces_referenceLost .b)).trans (samePlaces_holdExpiry _)).trans
    (samePlaces_revertExpiry _)

/-! ## The link's two directions -/

/-- A frame error changes the link's counts and flags and a point. -/
theorem samePlaces_linkError (s : State) : SamePlaces s s.linkError :=
  (samePlaces_alarm s (s.alarm.event s.counter linkErrorPoint)).trans
    (samePlaces_link _ { s.link with linkErr := true } rfl)

theorem samePlaces_gapCheck (s : State) : SamePlaces s s.gapCheck := by
  unfold State.gapCheck
  split
  · exact (samePlaces_link s { s.link with
      receiver := .hunt, gapErrors := holdAt 65535 (s.link.gapErrors + 1) } rfl).trans (samePlaces_linkError _)
  · exact .refl s

theorem samePlaces_crcError (s : State) : SamePlaces s s.crcError :=
  (samePlaces_link s { s.link with crcErrors := holdAt 65535 (s.link.crcErrors + 1) } rfl).trans
    (samePlaces_linkError _)

theorem samePlaces_appendFrame (f : Frame) : SamePlaces s (s.appendFrame f) := by
  unfold State.appendFrame
  split
  · exact (samePlaces_link s { s.link with overruns := holdAt 65535 (s.link.overruns + 1) } rfl).trans
      (samePlaces_linkError _)
  · exact samePlaces_link s _ (by rfl)

theorem samePlaces_receiveByte (b : Byte) : SamePlaces s (s.receiveByte b) := by
  have noted (r : Receiver) : SamePlaces s { s with link := s.link.noteByte s.counter r } :=
    samePlaces_link s _ (by rfl)
  unfold State.receiveByte
  split
  · exact noted _
  · split
    · exact noted _
    · exact ((noted .hunt).trans (samePlaces_link _ { (s.link.noteByte s.counter .hunt) with
        receiver := .hunt, lengthErrors := holdAt 65535 (s.link.lengthErrors + 1) } (by rfl))).trans
          (samePlaces_linkError _)
  · split
    · exact noted _
    · refine (noted .hunt).trans ?_
      unfold State.judgeCollected
      dsimp only
      split
      · split
        · exact samePlaces_appendFrame _
        · exact samePlaces_crcError _
      · exact samePlaces_crcError _

theorem samePlaces_transmit (s : State) : SamePlaces s s.transmit := by
  unfold State.transmit
  split
  · exact .refl s
  · split
    · exact samePlaces_link s _ (by rfl)
    · split
      · exact samePlaces_link s _ (by rfl)
      · split
        · rename_i n rest _
          exact (samePlaces_alarm s { s.alarm with notices := rest }).trans (samePlaces_link _
            { s.link with sending := some (s.alarm.noticeFrame n) } rfl)
        · exact .refl s

theorem samePlaces_settleTime (s : State) : SamePlaces s s.settleTime :=
  ((((samePlaces_settleReferences s).trans (samePlaces_realignTimeout _)).trans (samePlaces_frameBoundary _)).trans
    (samePlaces_settleReferences _)).trans (samePlaces_gapCheck _)

/-! ## Lanes -/

theorem samePlaces_laneStep (l : Fin 4) (f : Lane → Lane) : SamePlaces s (s.laneStep l f) :=
  laneStep_keeps (P := SamePlaces s) (fun _ => samePlaces_setLane ..)
    (fun _ p h => h.trans (samePlaces_program p (.realignIf l))) (fun _ _ h => h.trans (samePlaces_alarm ..)) (.refl s)

theorem samePlaces_slipStep (l : Fin 4) : SamePlaces s (s.slipStep l) := by
  unfold State.slipStep
  dsimp only
  split
  · exact (samePlaces_laneStep ..).trans (samePlaces_alarm ..)
  · exact samePlaces_laneStep ..

theorem samePlaces_settleLane (l : Fin 4) : SamePlaces s (s.settleLane l) := by
  have lost (u : State) : SamePlaces u (u.clockLost l) := samePlaces_laneStep ..
  have control (u : State) : SamePlaces u (u.controlInstant l) := samePlaces_laneStep ..
  have pin (u : State) : SamePlaces u (u.pinLimit l) := samePlaces_laneStep ..
  have lock (u : State) : SamePlaces u (u.lockMet l) := samePlaces_laneStep ..
  have window (u : State) : SamePlaces u (u.windowEnd l) := samePlaces_laneStep ..
  have ret (u : State) : SamePlaces u (u.returnEnd l) := samePlaces_laneStep ..
  have hold (u : State) : SamePlaces u (u.holdoverExpiry l) := samePlaces_laneStep ..
  have fade (u : State) : SamePlaces u (u.entryFadeEnd l) := samePlaces_laneStep ..
  have slipEnd (u : State) : SamePlaces u (u.slipEnd l) := samePlaces_laneStep ..
  exact (((((((((lost s).trans (control _)).trans (pin _)).trans (lock _)).trans (window _)).trans (ret _)).trans
    (hold _)).trans (fade _)).trans (samePlaces_slipStep l)).trans (slipEnd _)

/-! ## The steps of the programs -/

theorem samePlaces_settleChannel (p : Fin 16) (c : Fin 8) : SamePlaces s (s.settleChannel p c) := by
  have switch (u : State) : SamePlaces u (u.changeoverSwitch p c) := samePlaces_program p (.changeoverSwitch c.val)
  have fadeEnd (u : State) : SamePlaces u (u.changeoverEnd p c) := samePlaces_program p (.changeoverEnd c.val)
  have trim (u : State) : SamePlaces u (u.trimStep p c) := samePlaces_program p (.stepTrim c.val)
  have trimEnd (u : State) : SamePlaces u (u.trimStepEnd p c) := samePlaces_program p (.endTrimStep c.val)
  exact (((switch s).trans (fadeEnd _)).trans (trim _)).trans (trimEnd _)

theorem samePlaces_settleProgram (p : Fin 16) : SamePlaces s (s.settleProgram p) := by
  have air (u : State) : SamePlaces u (u.onAirEnd p) := samePlaces_program p .onAirEnd
  have mute (u : State) : SamePlaces u (u.muteFadeEnd p) := samePlaces_program p .muteEnd
  have jump (u : State) : SamePlaces u (u.cutJump p) := samePlaces_program p .cutJump
  have cutIn (u : State) : SamePlaces u (u.cutInEnd p) := samePlaces_program p .cutInEnd
  have slew (u : State) : SamePlaces u (u.slewArrival p) := samePlaces_program p .slewArrival
  have bypass (u : State) : SamePlaces u (u.bypassSwitch p) := samePlaces_program p .bypassSwitch
  have fadeIn (u : State) : SamePlaces u (u.bypassFadeInEnd p) := samePlaces_program p .bypassFadeInEnd
  have ramp (u : State) : SamePlaces u (u.gainRampEnd p) := samePlaces_program p .rampEnd
  have gain (u : State) : SamePlaces u (u.gainEntryDue p) := samePlaces_program p (.applyDue _)
  have channels := ((air s).trans (mute _)).trans (.forAll allChannels (fun c _ => samePlaces_settleChannel p c) _)
  exact ((((((channels.trans (jump _)).trans (cutIn _)).trans (slew _)).trans (bypass _)).trans (fadeIn _)).trans
    (ramp _)).trans (gain _)

theorem samePlaces_blockEnd (s : State) : SamePlaces s s.blockEnd := by
  unfold State.blockEnd
  split
  · exact .forAll _ (fun p _ => samePlaces_program p (.blockEnd _)) s
  · exact .refl s

theorem samePlaces_alarmBoundary (s : State) : SamePlaces s s.alarmBoundary := by
  have silence : SamePlaces s s.judgeSilence := by
    unfold State.judgeSilence
    exact .forAll _ (fun p _ => samePlaces_program p (.judgeSilence ..)) s
  have pins (u : State) : SamePlaces u u.readContactPins :=
    (samePlaces_alarm ..).trans (.forAll _ (fun p _ => samePlaces_program p (.resetIntegration _)) _)
  have points (u : State) : SamePlaces u u.judgePoints := samePlaces_alarm ..
  unfold State.alarmBoundary
  split
  · exact ((silence.trans (pins _)).trans (points _)).trans (samePlaces_alarm ..)
  · exact .refl s

/-- R111: a page whose fill ends leaves the fill queue, not its ring. -/
theorem samePlaces_fillPage (s : State) : SamePlaces s s.fillPage := by
  unfold State.fillPage
  split
  · exact .refl s
  · rename_i e rest _
    have filled : SamePlaces s { s with
        dram := Dram.clear s.dram (e.page * 15000) 15000
        pool := { s.pool with fill := rest, fillSince := s.counter } } :=
      ⟨rfl, rfl, rfl, rfl, rfl, rfl, fun _ => rfl⟩
    split
    · dsimp only
      split
      · exact filled
      · exact filled.trans (samePlaces_enterStandby _)
    · exact .refl s

/-! ## The audio -/

theorem samePlaces_takeInput (p : Fin 16) : SamePlaces s (s.takeInput p) := by
  unfold State.takeInput
  split
  · exact .refl s
  · exact samePlaces_setProgram ‹_› (takeInput_holdings ..)

theorem samePlaces_writeRing (p : Fin 16) : SamePlaces s (s.writeRing p) := by
  unfold State.writeRing
  split
  · exact .refl s
  · rename_i x defined
    split
    · have gathered := samePlaces_setProgram defined (mapChannels_holdings (f := Channel.gather s.counter.toNat) x
        fun _ => rfl)
      exact gathered.trans ⟨rfl, rfl, rfl, rfl, rfl, rfl, fun _ => rfl⟩
    · exact .refl s

theorem samePlaces_countReadErrors (p : Fin 16) (n : Nat) : SamePlaces s (s.countReadErrors p n) :=
  ⟨rfl, rfl, rfl, rfl, rfl, rfl, fun _ => rfl⟩

theorem samePlaces_readRing (p : Fin 16) : SamePlaces s (s.readRing p) := by
  have handed (u : State) : SamePlaces u (u.handBypass p) := samePlaces_program p (.takeBypass _)
  unfold State.readRing
  dsimp only
  split
  · rename_i x y hx hy
    have read := ((handed s).trans (samePlaces_setProgram hy
      (formDelayed_holdings y s.dram s.stuck s.counter.toNat))).trans (samePlaces_countReadErrors p
        (y.formDelayed s.dram s.stuck s.counter.toNat).2)
    split
    · have same : (y.formDelayed s.dram s.stuck s.counter.toNat).1.holdings = x.holdings := by
        have kept := (handed s).holdings p
        rw [hx, hy] at kept
        exact (formDelayed_holdings ..).trans (Option.some.inj kept)
      exact (samePlaces_setProgram (y := (y.formDelayed s.dram s.stuck s.counter.toNat).1.takeRead x) hx same).trans
        (samePlaces_countReadErrors ..)
    · exact read.trans (handed _)
  · exact .refl s

theorem samePlaces_overEvent (p : Fin 16) (c : Fin 8) : SamePlaces s (s.overEvent p c) := by
  unfold State.overEvent
  split
  · exact .refl s
  · rename_i x defined
    split
    · have cleared : (x.atChannel c.val Channel.clearOver).holdings = x.holdings :=
        atChannel_holdings c.val x fun _ => rfl
      exact (samePlaces_setProgram defined cleared).trans (samePlaces_alarm ..)
    · exact .refl s

theorem samePlaces_outputUnder (p : Fin 16) : SamePlaces s (s.outputUnder p) := by
  unfold State.outputUnder
  split
  · exact .refl s
  · exact (samePlaces_setProgram ‹_› (formOutputs_holdings ..)).trans
      (.forAll _ (fun c _ => samePlaces_overEvent p c) _)

/-- Output samples with other over runs leave the egresses. -/
theorem takeOver_egresses {a b : List Channel} (same : a.map Channel.egress = b.map Channel.egress) :
    (List.zipWith Channel.takeOver a b).map Channel.egress = a.map Channel.egress := by
  have length : a.length = b.length := by simpa using congrArg List.length same
  rw [same]
  refine List.ext_getElem (by simp [length]) fun i _ _ => ?_
  simp [Channel.takeOver]

theorem samePlaces_formOutput (p : Fin 16) : SamePlaces s (s.formOutput p) := by
  have formed (on : Bool) : SamePlaces s ((s.padded p on).outputUnder p) :=
    (samePlaces_program p (.takePad on)).trans (samePlaces_outputUnder p)
  have handed : SamePlaces s ((s.handPad p).outputUnder p) := formed _
  obtain form | form | form := formOutput_cases p s
  · rw [form]
    exact handed
  · rw [form]
    exact formed true
  · rw [form]
    unfold State.overThenPad
    split
    · rename_i x y hx hy
      have same : x.holdings = y.holdings := by
        have both := (handed.holdings p).trans ((formed true).holdings p).symm
        rw [hx, hy] at both
        exact Option.some.inj both
      obtain ⟨ring, egresses⟩ := Prod.mk.inj same
      exact handed.trans (samePlaces_setProgram hx (Prod.ext ring.symm (takeOver_egresses egresses)))
    · exact handed

theorem samePlaces_audio (s : State) : SamePlaces s s.audio := by
  have demands := SamePlaces.forAll allPrograms (fun p u => samePlaces_program (s := u) p (.takeDemands u.alarm p)) s
  have interpolated (u : State) : SamePlaces u u.interpolate := ⟨rfl, rfl, rfl, rfl, rfl, rfl, fun _ => rfl⟩
  have inputs := (demands.trans (interpolated _)).trans (.forAll allPrograms (fun p _ => samePlaces_takeInput p) _)
  have ring := (inputs.trans (.forAll allPrograms (fun p _ => samePlaces_writeRing p) _)).trans
    (.forAll allPrograms (fun p _ => samePlaces_readRing p) _)
  have formed := ring.trans (.forAll allPrograms (fun p _ => samePlaces_formOutput p) _)
  have sent (u : State) : SamePlaces u u.sendEgress := ⟨rfl, rfl, rfl, rfl, rfl, rfl, fun _ => rfl⟩
  exact formed.trans (sent _)

end Sys2Proof.Machine
end

section
/-! PROOF. Pages and claims stay in place (O5): what moves a page or a claim from one place to another. -/

namespace Sys2Proof.Machine

/-- Pages stay placed and claims stay matched. -/
structure KeepsPlaces (s t : State) : Prop where
  pages : s.PagesPlaced → t.PagesPlaced
  claims : s.ClaimsMatch → t.ClaimsMatch

theorem KeepsPlaces.refl (s : State) : KeepsPlaces s s := ⟨id, id⟩

theorem KeepsPlaces.trans {a b c : State} (h : KeepsPlaces a b) (k : KeepsPlaces b c) : KeepsPlaces a c :=
  ⟨k.pages ∘ h.pages, k.claims ∘ h.claims⟩

/-! ## The places as the holdings have them -/

/-- The pages of a program's ring are the first part of what it holds. -/
theorem ringPages_eq (s : State) (p : Fin 16) :
    s.ringPages p = (((s.program p).map Program.holdings).map Prod.fst).getD [] := by
  unfold State.ringPages
  cases s.program p <;> rfl

theorem ringPages_of_same {s t : State} {p : Fin 16}
    (h : (t.program p).map Program.holdings = (s.program p).map Program.holdings) : t.ringPages p = s.ringPages p := by
  rw [ringPages_eq, ringPages_eq, h]

/-- A channel has an egress where the second part of what its program holds lists it. -/
theorem hasEgress_iff (s : State) (i : Fin 64) (p : Fin 16) (c : Nat) :
    (∃ x ch, s.program p = some x ∧ x.channels[c]? = some ch ∧ egressIndex ch.egress = i)
      ↔ ∃ h, (s.program p).map Program.holdings = some h ∧ (h.2[c]?).map egressIndex = some i := by
  cases s.program p with
  | none => simp
  | some x => simp [Program.holdings]

theorem SamePlaces.keeps {s t : State} (h : SamePlaces s t) : KeepsPlaces s t := by
  have rings : t.ringPages = s.ringPages := funext fun p => ringPages_of_same (h.holdings p)
  constructor
  · rintro ⟨placed, unsized⟩
    unfold State.PagesPlaced
    rw [h.free, h.window, h.retired, h.sized, h.sizing, rings]
    exact ⟨placed, unsized⟩
  · intro matched i p c
    have at_ := matched i p c
    rw [hasEgress_iff] at at_ ⊢
    simp only [h.claims, h.holdings]
    exact at_

/-- The pages of all the rings, those of one program first. -/
theorem allRings_perm (f : Fin 16 → List Nat) (p : Fin 16) :
    (allPrograms.flatMap f).Perm (f p ++ (allPrograms.erase p).flatMap f) :=
  (List.perm_cons_erase (mem_allPrograms p)).flatMap_right f

/-- The rings of the other programs stand where one program's ring alone changes. -/
theorem otherRings_same {f g : Fin 16 → List Nat} {p : Fin 16} (others : ∀ q, q ≠ p → f q = g q) :
    (allPrograms.erase p).flatMap f = (allPrograms.erase p).flatMap g := by
  refine List.flatMap_congr fun q mem => others q fun same => ?_
  subst same
  exact (List.Nodup.not_mem_erase allPrograms_nodup) mem

/-- Pages that move between a program's ring and the lists of the pool stay placed. -/
theorem pagesPlaced_moved {s t : State} {p : Fin 16} (sized : t.pool.sized = s.pool.sized)
    (sizing : t.link.sizingEnded = s.link.sizingEnded) (others : ∀ q, q ≠ p → t.ringPages q = s.ringPages q)
    (moved : (t.pool.free ++ t.pool.window ++ t.pool.retired ++ t.ringPages p).Perm
      (s.pool.free ++ s.pool.window ++ s.pool.retired ++ s.ringPages p)) (h : s.PagesPlaced) : t.PagesPlaced := by
  obtain ⟨placed, unsized⟩ := h
  refine ⟨?_, by rwa [sized, sizing]⟩
  rw [sized]
  refine List.Perm.trans ?_ placed
  refine ((allRings_perm _ p).append_left _).trans (List.Perm.trans ?_ ((allRings_perm _ p).symm.append_left _))
  rw [otherRings_same others, ← List.append_assoc, ← List.append_assoc]
  exact moved.append_right _

/-! ## The memory check (R117 to R119) -/

section
variable {s : State}

/-- Pages that move among the lists of the pool stay placed, and no claim moves. -/
theorem keepsPlaces_pool {t : State} (programs : t.programs = s.programs) (claims : t.claims = s.claims)
    (sizing : t.link.sizingEnded = s.link.sizingEnded) (sized : t.pool.sized = s.pool.sized)
    (moved : (t.pool.free ++ t.pool.window ++ t.pool.retired).Perm
      (s.pool.free ++ s.pool.window ++ s.pool.retired)) : KeepsPlaces s t := by
  have program (p : Fin 16) : t.program p = s.program p := by
    unfold State.program
    rw [programs]
  have rings : t.ringPages = s.ringPages := funext fun p => ringPages_of_same (by rw [program p])
  constructor
  · refine pagesPlaced_moved (p := 0) sized sizing (fun _ _ => by rw [rings]) ?_
    rw [rings]
    exact moved.append_right _
  · intro matched i p c
    simp only [claims, program]
    exact matched i p c

theorem samePlaces_endCheck (r : Result) : SamePlaces s (s.endCheck r) := by
  unfold State.endCheck
  split
  · exact .refl s
  · have ended : SamePlaces s { s with pool := { s.pool with check := none } } :=
      ⟨rfl, rfl, rfl, rfl, rfl, rfl, fun _ => rfl⟩
    dsimp only
    split
    · exact ended
    · exact ended.trans (samePlaces_closeOp ..)

/-- The pages of a window leave the head of the free list for the window (R118). -/
theorem keepsPlaces_nextWindow (s : State) : KeepsPlaces s s.nextWindow := by
  unfold State.nextWindow
  split
  · exact .refl s
  · rename_i c _
    split
    · exact .refl s
    · rename_i nonempty
      split
      · exact (samePlaces_endCheck _).keeps
      · have empty : s.pool.window = [] := by simpa using nonempty
        refine keepsPlaces_pool rfl rfl rfl rfl ?_
        show ((s.pool.free.drop _ ++ s.pool.free.take _) ++ s.pool.retired).Perm _
        rw [empty, List.append_nil]
        refine List.Perm.append_right _ (List.perm_append_comm.trans ?_)
        rw [List.take_append_drop]

/-- A page tested goes to the free list or to the retired list (R118). -/
theorem keepsPlaces_endPageTest (s : State) : KeepsPlaces s s.endPageTest := by
  unfold State.endPageTest
  split
  · rename_i c page rest _ window
    split
    · have tested : KeepsPlaces s { s with
          pool := s.pool.placeTested c page rest (pageFails s.stuck page)
          dram := Dram.fillRange s.dram (page * 15000) 15000 0xAA } := by
        refine keepsPlaces_pool rfl rfl rfl rfl ?_
        rw [window]
        dsimp only [Pool.placeTested]
        cases pageFails s.stuck page <;> grind
      exact tested.trans (keepsPlaces_nextWindow _)
    · exact .refl s
  · exact .refl s

/-- The window's pages go back to the tail of the free list (R119). -/
theorem keepsPlaces_returnWindow (s : State) : KeepsPlaces s { s with pool := s.pool.returnWindow } := by
  refine keepsPlaces_pool rfl rfl rfl rfl ?_
  simp [Pool.returnWindow]

theorem keepsPlaces_cancelCheck (s : State) : KeepsPlaces s s.cancelCheck :=
  (keepsPlaces_returnWindow s).trans (samePlaces_endCheck _).keeps

theorem keepsPlaces_checkMemory (tag : Byte) : KeepsPlaces s (s.checkMemory tag).state := by
  unfold State.checkMemory
  split
  · exact .refl s
  · split
    · exact .refl s
    · have begun : SamePlaces s { s with
          pool := { s.pool with check := some ⟨tag, s.pool.free.length, 0, 0, 0⟩, testRun := 0 } } :=
        ⟨rfl, rfl, rfl, rfl, rfl, rfl, fun _ => rfl⟩
      exact (begun.trans (samePlaces_openOp ..)).keeps.trans (keepsPlaces_nextWindow _)

/-! ## The end of a program (R57, R112) -/

/-- A ring given back is all its pages, those marked suspect retired and the others free. -/
theorem giveBack_perm (ring : List PageEntry) :
    (((ring.filter fun e => !e.suspect).map PageEntry.page) ++ (ring.filter fun e => e.suspect).map PageEntry.page).Perm
      (ring.map PageEntry.page) := by
  rw [← List.map_append]
  exact (List.perm_append_comm.trans (List.filter_append_perm _ _)).map _

theorem keepsPlaces_vacate (p : Fin 16) (s : State) : KeepsPlaces s (s.vacate p) := by
  cases defined : s.program p with
  | none =>
    rw [State.vacate, defined]
    exact .refl s
  | some x =>
    have program := fun q => vacate_program p q s
    rw [vacate_eq defined] at *
    constructor
    · refine pagesPlaced_moved (p := p) rfl rfl (fun q ne => ?_) ?_
      · rw [State.ringPages, State.ringPages, program, if_neg ne.symm]
      · rw [State.ringPages, State.ringPages, program, if_pos rfl, defined]
        show ((s.pool.free ++ _) ++ s.pool.window ++ (s.pool.retired ++ _) ++ []).Perm
          (_ ++ x.ring.map PageEntry.page)
        refine List.Perm.trans ?_ ((giveBack_perm x.ring).append_left _)
        grind
    · intro matched i q c
      rw [program]
      dsimp only
      rw [Vector.getElem_map]
      have before := matched i q c
      by_cases same : p = q
      · subst same
        simp only [if_pos, reduceCtorEq, false_and, exists_false, iff_false]
        split
        · simp
        · rename_i other
          intro held
          simp [held] at other
      · rw [if_neg same, ← before]
        split
        · rename_i own
          refine ⟨nofun, fun held => ?_⟩
          simp [held] at own
          exact absurd own.symm same
        · rfl

end

/-! ## Definitions (R51, R58, R110) -/

theorem egressIndex_inj {a b : Source} (h : egressIndex a = egressIndex b) : a = b := by
  obtain ⟨⟨l, hl⟩, ⟨k, hk⟩⟩ := a
  obtain ⟨⟨m, hm⟩, ⟨n, hn⟩⟩ := b
  simp only [egressIndex, Fin.mk.injEq] at h
  simp only [Source.mk.injEq, Fin.mk.injEq]
  omega

/-- An egress that no channel has is left as it was. -/
theorem claimAll_other {p : Fin 16} {chs : List Channel} (c : Nat) (v : Vector (Option Claim) 64) (i : Fin 64)
    (none : ∀ ch ∈ chs, egressIndex ch.egress ≠ i) : (claimAll p c chs v)[i.val]'i.isLt = v[i.val]'i.isLt := by
  induction chs generalizing c v with
  | nil => rfl
  | cons ch rest ih =>
    rw [claimAll, ih _ _ fun x mem => none x (.tail _ mem)]
    exact Vector.getElem_set_ne _ _ fun same => none ch (.head _) (Fin.ext same)

/-- A claim table with the egresses of channels claimed: the claim of a channel stands at its egress. -/
theorem claimAll_own {p : Fin 16} {chs : List Channel} (apart : (chs.map Channel.egress).Nodup) (c k : Nat)
    (v : Vector (Option Claim) 64) {ch : Channel} (at_ : chs[k]? = some ch) :
    (claimAll p c chs v)[(egressIndex ch.egress).val]'(egressIndex ch.egress).isLt = some ⟨p, c + k⟩ := by
  induction chs generalizing c k v with
  | nil => simp at at_
  | cons first rest ih =>
    obtain ⟨own, apart⟩ := List.nodup_cons.1 (List.map_cons ▸ apart)
    cases k with
    | zero =>
      obtain rfl : first = ch := by simpa using at_
      rw [claimAll, claimAll_other _ _ _ fun x mem same =>
        own (List.mem_map.2 ⟨x, mem, egressIndex_inj same⟩)]
      exact Vector.getElem_set_self _
    | succ k =>
      rw [claimAll, ih apart (c + 1) k _ (by simpa using at_), Nat.add_right_comm, Nat.add_assoc]

theorem settle_egress (s : State) (p : Fin 16) (pprog : Nat) (ch : Channel) :
    (ch.settle s p pprog).egress = ch.egress := (reselect_egress _).trans (retrim_egress ..)

/-- Pages taken from the head of a list of pages, among the other places. -/
theorem taken_perm (n : Nat) (free window retired : List Nat) :
    (free.drop n ++ window ++ retired ++ free.take n).Perm (free ++ window ++ retired ++ []) := by
  refine List.perm_append_comm.trans ?_
  rw [List.append_nil, ← List.append_assoc, ← List.append_assoc, List.take_append_drop]

/-- The claims of a definition match the egresses of the program it defines. -/
theorem claimsMatch_defined {s t : State} {p : Fin 16} {x : Program} {chs : List Channel} (matched : s.ClaimsMatch)
    (vacant : s.program p = none) (apart : (chs.map Channel.egress).Nodup)
    (unclaimed : ∀ ch ∈ chs, s.claimed ch.egress = false) (claims : t.claims = claimAll p 0 chs s.claims)
    (program : t.program p = some x) (others : ∀ q, q ≠ p → t.program q = s.program q)
    (egresses : x.channels.map Channel.egress = chs.map Channel.egress) : t.ClaimsMatch := by
  intro i q c
  have own : (∃ y ch, t.program p = some y ∧ y.channels[c]? = some ch ∧ egressIndex ch.egress = i)
      ↔ ∃ ch, chs[c]? = some ch ∧ egressIndex ch.egress = i := by
    rw [hasEgress_iff, program]
    simp only [Option.map_some, Option.some.injEq, exists_eq_left', Program.holdings, egresses]
    simp
  have before := matched i q c
  simp only [claims]
  by_cases named : ∃ ch ∈ chs, egressIndex ch.egress = i
  · obtain ⟨ch, mem, rfl⟩ := named
    obtain ⟨k, at_⟩ := List.getElem?_of_mem mem
    have free : s.claims[(egressIndex ch.egress).val]'(egressIndex ch.egress).isLt = none := by
      simpa [State.claimed] using unclaimed ch mem
    rw [claimAll_own apart 0 k s.claims at_, Nat.zero_add]
    by_cases same : q = p
    · subst same
      rw [own]
      constructor
      · rintro ⟨⟩
        exact ⟨ch, at_, rfl⟩
      · rintro ⟨other, there, equal⟩
        have first : (chs.map Channel.egress)[k]? = some ch.egress := by simp [at_]
        have second : (chs.map Channel.egress)[c]? = some ch.egress := by simp [there, egressIndex_inj equal]
        have inside : k < (chs.map Channel.egress).length := (List.getElem?_eq_some_iff.1 first).1
        rw [(List.getElem?_inj inside apart).1 (first.trans second.symm)]
    · rw [others q same, ← before, free]
      simp [Ne.symm same]
  · rw [claimAll_other 0 s.claims i fun ch mem at_ => named ⟨ch, mem, at_⟩]
    by_cases same : q = p
    · subst same
      rw [own, before, vacant]
      simp only [reduceCtorEq, false_and, exists_false, false_iff, not_exists, not_and]
      exact fun ch at_ equal => named ⟨ch, List.mem_of_getElem? at_, equal⟩
    · rw [others q same]
      exact before

/-- A definition takes its pages from the head of the free list, and claims egresses that are free. -/
theorem keepsPlaces_defined {s : State} {p : Fin 16} {chs : List Channel} (tag : Byte) (maxDelay : Nat)
    (vacant : s.program p = none) (apart : (chs.map Channel.egress).Nodup)
    (unclaimed : ∀ ch ∈ chs, s.claimed ch.egress = false) : KeepsPlaces s (s.defined p tag maxDelay chs) := by
  have others (q : Fin 16) (ne : q ≠ p) := State.program_setProgram_ne s p q (some (s.freshProgram p tag maxDelay chs))
    ne.symm
  have taken : KeepsPlaces s { s.setProgram p (some (s.freshProgram p tag maxDelay chs)) with
      pool := s.pool.allocate s.counter p (chs.length * (s.freshProgram p tag maxDelay chs).rows)
      claims := claimAll p 0 chs s.claims } := by
    constructor
    · refine pagesPlaced_moved (p := p) rfl rfl (fun q ne => ringPages_of_same (congrArg _ (others q ne))) ?_
      have ring : State.ringPages (s.setProgram p (some (s.freshProgram p tag maxDelay chs))) p
          = s.pool.free.take (chs.length * ringRows maxDelay) := by
        rw [State.ringPages, State.program_setProgram]
        simp [State.freshProgram, Pool.ring, Function.comp_def]
      have none : s.ringPages p = [] := by
        rw [State.ringPages, vacant]
        rfl
      show (s.pool.free.drop (chs.length * ringRows maxDelay) ++ _ ++ _ ++ State.ringPages (s.setProgram p _) p).Perm _
      rw [ring, none]
      exact taken_perm ..
    · intro matched
      refine claimsMatch_defined matched vacant apart unclaimed rfl (State.program_setProgram ..) others ?_
      simp [State.freshProgram, Function.comp_def, settle_egress]
  unfold State.defined State.handProgram
  dsimp only
  split
  · exact taken.trans (samePlaces_openOp ..).keeps
  · exact (taken.trans (samePlaces_openOp ..).keeps).trans (samePlaces_alarm ..).keeps

end Sys2Proof.Machine
end

section
/-! PROOF. Every command keeps pages and claims in place (O5): the requests, the link, the clock's period, power-on. -/

namespace Sys2Proof.Machine

variable {s : State}

/-! ## The requests -/

theorem keepsPlaces_withProgram {b : Byte} {f : Fin 16 → Program → Answer}
    (each : ∀ p x, s.program p = some x → KeepsPlaces s (f p x).state) : KeepsPlaces s (s.withProgram b f).state := by
  unfold State.withProgram
  split
  · exact .refl s
  · split
    · exact .refl s
    · exact each _ _ ‹_›

theorem keepsPlaces_withLane {b : Byte} {f : Fin 4 → Answer} (each : ∀ l, KeepsPlaces s (f l).state) :
    KeepsPlaces s (s.withLane b f).state := by
  unfold State.withLane
  split
  · exact .refl s
  · exact each _

theorem keepsPlaces_defineProgram (tag b : Byte) (d : BitVec 16) (defs : List ChannelDef) :
    KeepsPlaces s (s.defineProgram tag b d defs).state := by
  unfold State.defineProgram
  split
  · exact .refl s
  split
  · exact .refl s
  rename_i vacant
  split
  · exact .refl s
  split
  · exact .refl s
  split
  · exact .refl s
  unfold State.judgeDefinition
  dsimp only
  split
  · exact .refl s
  rename_i slots
  split
  · exact .refl s
  split
  · exact .refl s
  dsimp only
  obtain ⟨apart, unclaimed⟩ := not_or.1 slots
  have defined := keepsPlaces_defined tag (min 10000 d.toNat) (by simpa using vacant) (not_not.1 apart)
    (by simpa using unclaimed)
  rw [acceptDefinition_eq]
  split
  · exact defined.trans (samePlaces_enterStandby _).keeps
  · exact defined

theorem keepsPlaces_endDefinition (p : Fin 16) (tag : Byte) (r : Result) :
    KeepsPlaces s (s.endDefinition p tag r) := by
  unfold State.endDefinition
  split
  · exact .refl s
  · exact (keepsPlaces_vacate p s).trans (samePlaces_closeOp ..).keeps

theorem samePlaces_cancelEntries (f : SchedEntry → Bool) : SamePlaces s (s.cancelEntries f) :=
  ⟨rfl, rfl, rfl, rfl, rfl, rfl, fun _ => rfl⟩

theorem keepsPlaces_releaseNow (p : Fin 16) (x : Program) : KeepsPlaces s (s.releaseNow p x) := by
  unfold State.releaseNow
  refine KeepsPlaces.trans ?_ (samePlaces_cancelEntries _).keeps
  cases x.openDef with
  | some tag => exact keepsPlaces_endDefinition ..
  | none => exact (samePlaces_endDelayOp ..).keeps.trans (keepsPlaces_vacate ..)

theorem keepsPlaces_cancelDelay (p : Fin 16) : KeepsPlaces s (s.cancelDelay p) := by
  unfold State.cancelDelay
  split
  · exact .refl s
  · rename_i x defined
    split
    · exact .refl s
    · have dropped := samePlaces_setProgram (y := { x with align := { x.align with op := none } }) defined rfl
      exact ((dropped.trans (samePlaces_closeOp ..)).trans (samePlaces_program p .stopDelay)).keeps

theorem keepsPlaces_cancelOp (s : State) (e : OpEntry) : KeepsPlaces s (s.cancelOp e) := by
  unfold State.cancelOp
  split
  · exact keepsPlaces_endDefinition ..
  · exact keepsPlaces_cancelDelay _
  · exact keepsPlaces_cancelCheck s

theorem keepsPlaces_cancel (target : Byte) : KeepsPlaces s (s.cancel target).state := by
  have all (l : List OpEntry) (u : State) : KeepsPlaces u (l.foldl State.cancelOp u) := by
    induction l generalizing u with
    | nil => exact .refl u
    | cons e rest ih => exact (keepsPlaces_cancelOp u e).trans (ih _)
  unfold State.cancel
  split
  · exact (all _ s).trans (samePlaces_cancelEntries _).keeps
  · split
    · exact keepsPlaces_cancelOp ..
    · split
      · exact (samePlaces_cancelEntries _).keeps
      · exact .refl s

theorem keepsPlaces_restartAll (s : State) : KeepsPlaces s s.restartAll := by
  have vacated : KeepsPlaces s (forAll allPrograms State.vacate s) :=
    forAll_rel KeepsPlaces.refl (fun _ _ _ => .trans) _ keepsPlaces_vacate s
  have emptied (u : State) : KeepsPlaces u (u.restarted s.counter) :=
    (keepsPlaces_returnWindow u).trans (SamePlaces.keeps ⟨rfl, rfl, rfl, rfl, rfl, rfl, fun _ => rfl⟩)
  rw [restartAll_eq]
  exact vacated.trans (emptied _)

theorem keepsPlaces_answer (tag : Byte) (r : Request) (s : State) : KeepsPlaces s (s.answer tag r).state := by
  have alarm (a : AlarmUnit) : KeepsPlaces s { s with alarm := a } := (samePlaces_alarm s a).keeps
  cases r with
  | identify | readSchedule | readTime | readPool | readContacts => exact .refl s
  | readStatus => exact (samePlaces_link s _ (by rfl)).keeps
  | restart => exact keepsPlaces_restartAll s
  | cancel target => exact keepsPlaces_cancel target
  | schedule due kind inner =>
    simp only [State.answer, State.addEntry]
    split_ifs
    iterate 6
      · exact .refl s
    · exact (samePlaces_tb s _).keeps
  | setTimebase r p v hold =>
    simp only [State.answer, State.setTimebase]
    split
    · exact ((samePlaces_tbStep _).trans (samePlaces_holdExpiry _)).keeps
    · exact .refl s
  | setLane =>
    refine keepsPlaces_withLane fun l => ?_
    split
    · exact (samePlaces_laneStep ..).keeps
    · exact .refl s
  | laneAdmit => exact keepsPlaces_withLane fun l => (samePlaces_laneStep ..).keeps
  | laneRestart =>
    refine keepsPlaces_withLane fun l => ?_
    split
    · exact (samePlaces_laneStep ..).keeps
    · exact .refl s
  | readLane => exact keepsPlaces_withLane fun l => (samePlaces_setLane ..).keeps
  | defineProgram p d chs => exact keepsPlaces_defineProgram tag p d chs
  | start p => exact (startProgram_step p s).samePlaces.keeps
  | stop p => exact (stopProgram_step p s).samePlaces.keeps
  | release p =>
    refine keepsPlaces_withProgram fun p x _ => ?_
    split
    · exact .refl s
    · exact keepsPlaces_releaseNow p x
  | selectSource p c m => exact (selectSource_step p c m s).samePlaces.keeps
  | setChannelSource p c a b => exact (setChannelSource_step p c a b s).samePlaces.keeps
  | readProgram p =>
    simp only [State.answer, State.readProgram]
    split <;> exact .refl s
  | setLoudness p m f => exact (setLoudness_step p m f s).samePlaces.keeps
  | resetIntegration p => exact (resetIntegration_step p s).samePlaces.keeps
  | pauseIntegration p => exact (pauseIntegration_step true p s).samePlaces.keeps
  | resumeIntegration p => exact (pauseIntegration_step false p s).samePlaces.keeps
  | readLoudness => exact keepsPlaces_withProgram fun p x _ => by split <;> exact .refl s
  | setDelay p f => exact (samePlaces_setDelay tag p f).keeps
  | readDelay => exact keepsPlaces_withProgram fun _ _ _ => .refl s
  | checkMemory => exact keepsPlaces_checkMemory tag
  | muteProgram p f => exact (muteProgram_step p f s).samePlaces.keeps
  | readOutput => exact keepsPlaces_withProgram fun _ _ _ => .refl s
  | setAlarmKind k f =>
    simp only [State.answer, State.setAlarmKind]
    split
    · split
      · exact .refl s
      · exact alarm _
    · exact .refl s
  | ackAlarm p =>
    simp only [State.answer, State.ackAlarm]
    split
    · exact alarm _
    · split
      · exact alarm _
      · exact .refl s
  | clearProtection p =>
    simp only [State.answer, State.clearProtection]
    split
    · exact alarm _
    · split
      · split
        · exact .refl s
        · exact alarm _
      · exact .refl s
  | readAlarm p =>
    simp only [State.answer, State.readAlarm]
    split <;> exact .refl s
  | readAlarmList a n =>
    simp only [State.answer, State.readAlarmList]
    split <;> exact .refl s
  | setSummaryOutput o f =>
    simp only [State.answer, State.setSummaryOutput]
    split
    · split
      · exact .refl s
      · exact alarm _
    · exact .refl s
  | setContact i f =>
    simp only [State.answer, State.setContact]
    split
    · exact alarm _
    · exact .refl s

/-! ## The link served (R179, R180) -/

theorem keepsPlaces_judge (tag : Byte) (r : Request) (s : State) : KeepsPlaces s (s.judge tag r).state := by
  obtain judged | judged | ⟨judged, _⟩ := judge_cases tag r s
  · rw [judged]
    exact .refl s
  · rw [judged]
    exact .refl s
  · rw [judged]
    exact keepsPlaces_answer tag r s

theorem keepsPlaces_judgeFrame (f : Frame) (s : State) : KeepsPlaces s (s.judgeFrame f).state := by
  unfold State.judgeFrame
  split
  · exact .refl s
  · split
    · exact .refl s
    · split
      · exact .refl s
      · exact keepsPlaces_judge ..

theorem keepsPlaces_placed {kind tag : Byte} {a : Answer} (h : KeepsPlaces s a.state) :
    KeepsPlaces s (a.placed kind tag) :=
  h.trans (samePlaces_link a.state _ (by rfl)).keeps

theorem keepsPlaces_takeFrame (s : State) : KeepsPlaces s s.takeFrame := by
  unfold State.takeFrame
  split
  · exact .refl s
  · rename_i f rest _
    split
    · have popped := samePlaces_link s { s.link with buffer := rest } rfl
      exact keepsPlaces_placed (popped.keeps.trans (keepsPlaces_judgeFrame ..))
    · exact .refl s

theorem keepsPlaces_serveLink (s : State) : KeepsPlaces s s.serveLink := by
  have served (u : State) : KeepsPlaces u u.transmit.takeFrame :=
    (samePlaces_transmit u).keeps.trans (keepsPlaces_takeFrame _)
  exact (served s).trans (served _)

theorem keepsPlaces_present (tag : Byte) (r : Request) (s : State) : KeepsPlaces s (s.present tag r) := by
  unfold State.present
  dsimp only
  split
  · refine keepsPlaces_placed ?_
    split
    · exact .refl s
    · exact keepsPlaces_judge ..
  · exact (samePlaces_appendFrame _).keeps

theorem keepsPlaces_presentUnknown (kind tag : Byte) (body : List Byte) (s : State) :
    KeepsPlaces s (s.presentUnknown kind tag body) := by
  unfold State.presentUnknown
  split
  · exact keepsPlaces_placed (keepsPlaces_judgeFrame ..)
  · exact (samePlaces_appendFrame _).keeps

/-! ## The end of sizing (R106, R191) -/

/-- The pages of the device found are all free; until then there was none. -/
theorem keepsPlaces_endSizing (d : Device) (s : State) : KeepsPlaces s (s.endSizing d) := by
  unfold State.endSizing
  split
  · exact .refl s
  · rename_i sizing
    refine ⟨fun ⟨placed, unsized⟩ => ⟨?_, nofun⟩, id⟩
    rw [unsized (by simpa using sizing)] at placed
    have none := List.append_eq_nil_iff.1 placed.eq_nil
    show (List.range (devicePages d) ++ [] ++ [] ++ allPrograms.flatMap s.ringPages).Perm (List.range (devicePages d))
    rw [none.2, List.append_nil, List.append_nil, List.append_nil]

/-! ## The clock's period -/

theorem keepsPlaces_settle (s : State) : KeepsPlaces s s.settle := by
  have lanes := (samePlaces_settleTime s).trans (.forAll allLanes (fun l _ => samePlaces_settleLane l) _)
  have programs := (lanes.trans (samePlaces_blockEnd _)).trans
    (.forAll allPrograms (fun p _ => samePlaces_settleProgram p) _)
  exact ((programs.trans (samePlaces_fillPage _)).keeps.trans (keepsPlaces_endPageTest _)).trans
    (samePlaces_alarmBoundary _).keeps

theorem keepsPlaces_closeSample (s : State) : KeepsPlaces s s.closeSample :=
  (((keepsPlaces_settle s).trans (keepsPlaces_serveLink _)).trans (samePlaces_audio _).keeps).trans
    (keepsPlaces_serveLink _)

theorem samePlaces_latch (s : State) : SamePlaces s s.latch := by
  have pool : s.latch.pool.free = s.pool.free ∧ s.latch.pool.window = s.pool.window
      ∧ s.latch.pool.retired = s.pool.retired ∧ s.latch.pool.sized = s.pool.sized := by
    unfold State.latch
    dsimp only
    split <;> exact ⟨rfl, rfl, rfl, rfl⟩
  obtain ⟨free, window, retired, sized⟩ := pool
  exact ⟨free, window, retired, sized, rfl, rfl, fun _ => rfl⟩

theorem samePlaces_openSample (pins : BitVec 4) (s : State) : SamePlaces s (s.openSample pins) := by
  refine ⟨rfl, rfl, rfl, rfl, rfl, rfl, fun p => ?_⟩
  have opened : (s.openSample pins).program p = (s.program p).map Program.tick := by
    simp [State.program, State.openSample, Vector.getElem_map]
  rw [opened, Option.map_map]
  exact congrArg (fun f => (s.program p).map f) (funext tick_holdings)

theorem keepsPlaces_tick (pins : BitVec 4) (faults : List DramFault) (s : State) :
    KeepsPlaces s (s.tick pins faults) := by
  obtain ⟨dram, stuck, made⟩ := tick_eq pins faults s
  have failed (u : State) : SamePlaces u { u with dram := dram, stuck := stuck } :=
    ⟨rfl, rfl, rfl, rfl, rfl, rfl, fun _ => rfl⟩
  rw [made]
  exact (keepsPlaces_closeSample s).trans (((samePlaces_latch _).trans (samePlaces_openSample pins _)).trans
    (failed _)).keeps

/-! ## Commands -/

theorem keepsPlaces_powerOn (high : Bool) (s : State) : KeepsPlaces s (s.powerOn high) := by
  have same : SamePlaces State.reset (s.powerOn high) := ⟨rfl, rfl, rfl, rfl, rfl, rfl, fun _ => rfl⟩
  exact ⟨fun _ => same.keeps.pages reset_pagesPlaced, fun _ => same.keeps.claims reset_claimsMatch⟩

/-- Every command keeps the pages and the claims in place. -/
theorem keepsPlaces_exec (c : Instr) (s : State) : ∃ t, exec c s = .next t ∧ KeepsPlaces s t := by
  have request (tag : Byte) (r : Request) (hr : requestOf c = some (tag, r)) :
      ∃ t, exec c s = .next t ∧ KeepsPlaces s t := ⟨_, exec_request hr s, keepsPlaces_present ..⟩
  have alarm (a : AlarmUnit) : KeepsPlaces s { s with alarm := a } := (samePlaces_alarm s a).keeps
  have lane (l : Fin 4) (f : Lane → Lane) : KeepsPlaces s (s.laneStep l f) := (samePlaces_laneStep l f).keeps
  have program (p : Fin 16) {f : Program → Program} (step : ProgramStep s.lanes f) : KeepsPlaces s (s.progStep p f) :=
    (samePlaces_program p step).keeps
  cases c with
  | powerOnReset high => exact ⟨_, rfl, keepsPlaces_powerOn high s⟩
  | houseSampleTick pins faults => exact ⟨_, rfl, keepsPlaces_tick pins faults s⟩
  | frameBoundary => exact ⟨_, rfl, (samePlaces_frameBoundary s).keeps⟩
  | referencePulse i m => exact ⟨_, rfl, (samePlaces_timed _ _).keeps⟩
  | realignFrameTimeout => exact ⟨_, rfl, (samePlaces_realignTimeout s).keeps⟩
  | referenceLost i => exact ⟨_, rfl, (samePlaces_referenceLost i).keeps⟩
  | referenceHoldExpiry => exact ⟨_, rfl, (samePlaces_holdExpiry s).keeps⟩
  | revertTimerExpiry => exact ⟨_, rfl, (samePlaces_revertExpiry s).keeps⟩
  | laneFrameStart | laneClockLost | classificationWindowEnd | controlInstant | lockCriterionMet | pinRunLimit
  | lockFadeInEnd | slipFadeInEnd | holdoverExpiry | returnWindowEnd => exact ⟨_, rfl, lane _ _⟩
  | slipStep l => exact ⟨_, rfl, (samePlaces_slipStep l).keeps⟩
  | onAirFadeEnd p => exact ⟨_, rfl, program p .onAirEnd⟩
  | changeoverSwitch p c => exact ⟨_, rfl, program p (.changeoverSwitch c.val)⟩
  | changeoverEnd p c => exact ⟨_, rfl, program p (.changeoverEnd c.val)⟩
  | zeroFillPageEnd => exact ⟨_, rfl, (samePlaces_fillPage s).keeps⟩
  | memorySizingEnd d => exact ⟨_, rfl, keepsPlaces_endSizing d s⟩
  | pageTestEnd => exact ⟨_, rfl, keepsPlaces_endPageTest s⟩
  | blockEnd => exact ⟨_, rfl, (samePlaces_blockEnd s).keeps⟩
  | gainEntryDue p => exact ⟨_, rfl, program p (.applyDue _)⟩
  | gainRampEnd p => exact ⟨_, rfl, program p .rampEnd⟩
  | trimStep p c => exact ⟨_, rfl, program p (.stepTrim c.val)⟩
  | trimStepEnd p c => exact ⟨_, rfl, program p (.endTrimStep c.val)⟩
  | cutJump p => exact ⟨_, rfl, program p .cutJump⟩
  | cutInEnd p => exact ⟨_, rfl, program p .cutInEnd⟩
  | slewArrival p => exact ⟨_, rfl, program p .slewArrival⟩
  | bypassSwitch p => exact ⟨_, rfl, program p .bypassSwitch⟩
  | bypassFadeInEnd p => exact ⟨_, rfl, program p .bypassFadeInEnd⟩
  | muteFadeEnd p => exact ⟨_, rfl, program p .muteEnd⟩
  | overCountReached p c => exact ⟨_, rfl, (samePlaces_overEvent p c).keeps⟩
  | alarmBoundary => exact ⟨_, rfl, (samePlaces_alarmBoundary s).keeps⟩
  | eventPointRest pt =>
    refine ⟨_, rfl, ?_⟩
    unfold State.eventPointRest
    split
    · exact alarm _
    · exact .refl s
  | filterRise pt =>
    refine ⟨_, rfl, ?_⟩
    unfold State.filterRise
    split
    · exact alarm _
    · exact .refl s
  | filterFall pt =>
    refine ⟨_, rfl, ?_⟩
    unfold State.filterFall
    split
    · exact alarm _
    · exact .refl s
  | retryExpiry pt =>
    refine ⟨_, rfl, ?_⟩
    unfold State.retryExpiry
    split
    · exact alarm _
    · exact .refl s
  | frameReceived b =>
    refine ⟨_, rfl, ?_⟩
    unfold State.frameReceived
    split
    · exact (samePlaces_receiveByte b).keeps.trans (keepsPlaces_takeFrame _)
    · exact .refl s
  | frameLengthError b =>
    refine ⟨_, rfl, ?_⟩
    unfold State.frameLengthError
    split
    · exact (samePlaces_receiveByte b).keeps
    · exact .refl s
  | gapTimeout => exact ⟨_, rfl, (samePlaces_gapCheck s).keeps⟩
  | unknownKindRequest k t b => exact ⟨_, rfl, keepsPlaces_presentUnknown k t b s⟩
  | transmitFrameEnd =>
    refine ⟨_, rfl, ?_⟩
    unfold State.transmitFrameEnd
    split
    · have ended := samePlaces_link s { s.link with sending := none } rfl
      exact (ended.trans (samePlaces_transmit _)).keeps.trans (keepsPlaces_takeFrame _)
    · exact .refl s
  | linkByteReceived b => exact ⟨_, rfl, (samePlaces_receiveByte b).keeps.trans (keepsPlaces_takeFrame _)⟩
  | setTimebase | readTime | schedule | readSchedule | cancel | setLane | laneAdmit | laneRestart | readLane
  | defineProgram | start | stop | release | selectSource | setChannelSource | readProgram | checkMemory | readPool
  | resetIntegration | pauseIntegration | resumeIntegration | readLoudness | setLoudness | setDelay | readDelay
  | muteProgram | readOutput | setAlarmKind | ackAlarm | clearProtection | setSummaryOutput | setContact | readAlarm
  | readAlarmList | readContacts | identify | readStatus | restart => exact request _ _ rfl

theorem keepsPlaces_step {t : State} (h : step s = .next t) : KeepsPlaces s t := by
  unfold step at h
  split at h
  · cases h
    exact .refl s
  · rename_i c rest _
    have queue : SamePlaces s { s with pending := rest } := ⟨rfl, rfl, rfl, rfl, rfl, rfl, fun _ => rfl⟩
    obtain ⟨u, answered, kept⟩ := keepsPlaces_exec c { s with pending := rest }
    rw [answered] at h
    cases h
    exact queue.keeps.trans kept

end Sys2Proof.Machine

open Sys2Proof Sys2Proof.Machine

/-- Settles O5: the few operations that move a page or a claim move it from one place to another; every other leaves
the pages, the claims and the egresses where they were. -/
theorem stepKeepsPagesAndClaimsInPlace : Obligations.StepKeepsPagesAndClaimsInPlace :=
  ⟨fun _ _ placed h => (keepsPlaces_step h).pages placed, fun _ _ matched h => (keepsPlaces_step h).claims matched⟩

end

section
/-! PROOF. Requests that name a program are judged by index and state (O38). -/

namespace Sys2Proof.Machine

variable {s : State} {c : Instr} {tag b : Byte} {r : Request} {p : Fin 16} {x : Program}

/-- With the link free a request is answered by its owner where, if it takes a tag, the tag is free. -/
theorem exec_owned (request : requestOf c = some (tag, r)) (free : s.LinkFree)
    (fresh : opensOp r = true → s.tagFree tag) (takes : takesTag (requestKind r) = opensOp r) :
    exec c s = .next ((s.answer tag r).placed (requestKind r) tag) := by
  cases opens : opensOp r with
  | false => rw [exec_answered request free opens (takes.trans opens), placed_eq]
  | true =>
    rw [exec_request request]
    obtain rfl | ⟨unheld, room, reserve⟩ := fresh opens
    · rw [present_taken free (by simp [State.heldBack])]
      simp [State.judge]
    · rw [present_fresh free unheld room reserve]

theorem takesTag_named (named : programNamed r = some b) : takesTag (requestKind r) = opensOp r := by
  cases r with
  | schedule | checkMemory => exact absurd named nofun
  | _ => rfl

theorem programOfByte_none (outside : 16 ≤ b.toNat) : programOfByte b = none := by
  simp [programOfByte, Nat.not_lt.2 outside]

theorem State.withProgram_outside (f : Fin 16 → Program → Answer) (outside : 16 ≤ b.toNat) :
    s.withProgram b f = .refuse .badValue s := by
  simp only [State.withProgram, programOfByte_none outside]

/-- An index outside 0 to 15. -/
theorem answer_outside (named : programNamed r = some b) (flag : ∀ p f, r = .muteProgram p f → f.toNat < 2)
    (outside : 16 ≤ b.toNat) : s.answer tag r = .refuse .badValue s := by
  cases r with
  | defineProgram | readProgram =>
    cases named
    simp only [State.answer, State.defineProgram, State.readProgram, programOfByte_none outside]
  | muteProgram a f =>
    cases named
    simp only [State.answer, State.muteProgram, flagOfByte_flag (flag _ f rfl), State.withProgram_outside _ outside]
  | start | stop | release | selectSource | setChannelSource | setLoudness | resetIntegration | pauseIntegration
  | resumeIntegration | readLoudness | setDelay | readDelay | readOutput =>
    cases named
    exact State.withProgram_outside _ outside
  | _ => exact absurd named nofun

/-- A program that is VACANT. -/
theorem answer_vacant (named : programNamed r = some b) (flag : ∀ p f, r = .muteProgram p f → f.toNat < 2)
    (code : b.toNat = p.val) (vacant : s.program p = none) (define : requestKind r ≠ 0x20)
    (read : requestKind r ≠ 0x26) : s.answer tag r = .refuse .wrongState s := by
  cases r with
  | defineProgram => exact absurd rfl define
  | readProgram => exact absurd rfl read
  | muteProgram a f =>
    cases named
    simp only [State.answer, State.muteProgram, flagOfByte_flag (flag _ f rfl), State.withProgram_none _ code vacant]
  | start | stop | release | selectSource | setChannelSource | setLoudness | resetIntegration | pauseIntegration
  | resumeIntegration | readLoudness | setDelay | readDelay | readOutput =>
    cases named
    exact State.withProgram_none _ code vacant
  | _ => exact absurd named nofun

theorem answer_define_defined (named : programNamed r = some b) (code : b.toNat = p.val)
    (defined : s.program p = some x) (define : requestKind r = 0x20) : s.answer tag r = .refuse .wrongState s := by
  cases r with
  | defineProgram =>
    cases named
    simp [State.answer, State.defineProgram, programOfByte_val code, defined]
  | _ => simp [requestKind] at define

/-- A program in PREPARING is not started, stopped or given other sources. -/
theorem answer_preparing (named : programNamed r = some b) (code : b.toNat = p.val)
    (defined : s.program p = some x) (preparing : x.state = .preparing)
    (kind : requestKind r ∈ ([0x21, 0x22, 0x25] : List Byte)) : s.answer tag r = .refuse .wrongState s := by
  cases r with
  | start | stop | setChannelSource =>
    cases named
    exact (State.withProgram_some _ code defined).trans (if_pos preparing)
  | _ => simp [requestKind] at kind

theorem answer_release_running (named : programNamed r = some b) (code : b.toNat = p.val)
    (defined : s.program p = some x) (running : x.state = .running) (kind : requestKind r = 0x23) :
    s.answer tag r = .refuse .wrongState s := by
  cases r with
  | release =>
    cases named
    exact (State.withProgram_some _ code defined).trans (if_pos running)
  | _ => simp [requestKind] at kind

end Sys2Proof.Machine

open Sys2Proof Sys2Proof.Machine

/-- Settles O38: the owner looks at the index first and at the state next, whichever request names the program. -/
theorem programRequestsAreJudgedByIndexAndState : Obligations.ProgramRequestsAreJudgedByIndexAndState := by
  intro s c tag b r free request named fresh flag refused
  have refuse {res : Result} (answered : s.answer tag r = .refuse res s) : refused res := by
    show exec c s = _
    rw [exec_owned request free fresh (takesTag_named named), answered]
    rfl
  refine ⟨fun outside => refuse (answer_outside named flag outside), fun p code => ⟨fun vacant define read =>
    refuse (answer_vacant named flag code vacant define read), fun x defined => ⟨fun define => ?_, fun preparing kind =>
    ?_, fun running kind => ?_⟩⟩⟩
  · exact refuse (answer_define_defined named code defined define)
  · exact refuse (answer_preparing named code defined preparing kind)
  · exact refuse (answer_release_running named code defined running kind)

end

section
/-! PROOF. An operation on a record that leaves its delay, its loudness and its gain settings, in a state whose
conditions are shown: nothing but the record changes. -/

namespace Sys2Proof.Machine

variable {s : State} {p : Fin 16} {x : Program}

theorem setProgram_self (defined : s.program p = some x) : s.setProgram p (some x) = s := by
  have same : s.programs.set p.val (some x) p.isLt = s.programs := by
    rw [← defined]
    simp [State.program]
  simp only [State.setProgram, same]

theorem programShown_some (shown : s.Shown) (defined : s.program p = some x) :
    (s.alarm.point (progPoint 0 p)).raw = decide (1 ≤ x.loud.silentRun)
      ∧ (s.alarm.point (progPoint 2 p)).raw = x.corr.loud ∧ (s.alarm.point (progPoint 3 p)).raw = x.corr.gainLimit
      ∧ (s.alarm.point (progPoint 4 p)).raw = x.delayShort ∧ x.Unsettled := by
  have := shown.programs p
  rw [State.ProgramShown, defined] at this
  exact this

/-- The blocks that raise a program's conditions are unchanged, so that its record shows them alike. -/
structure ShowsAlike (x y : Program) : Prop where
  align : y.align = x.align
  loud : y.loud = x.loud
  corr : y.corr = x.corr

theorem ShowsAlike.refl (x : Program) : ShowsAlike x x := ⟨rfl, rfl, rfl⟩

variable {y : Program}

theorem ShowsAlike.lineDelay (same : ShowsAlike x y) : y.lineDelay = x.lineDelay := by
  simp only [Program.lineDelay, same.align]

theorem ShowsAlike.delayShort (same : ShowsAlike x y) : y.delayShort = x.delayShort := by
  simp only [Program.delayShort, same.align]

theorem ShowsAlike.unsettled (same : ShowsAlike x y) (unsettled : x.Unsettled) : y.Unsettled := by
  rw [Program.Unsettled, same.align]
  exact unsettled

/-- The Alarm Unit that shows a record's conditions is handed them again. -/
theorem handProgram_shown (shown : s.Shown) (defined : s.program p = some x) (same : ShowsAlike x y) :
    s.alarm.handProgram s.counter p y = s.alarm := by
  obtain ⟨silent, loud, limit, short, _⟩ := programShown_some shown defined
  rw [AlarmUnit.handProgram, same.loud, same.corr, same.delayShort, handRaw_same _ silent, handRaw_same _ loud,
    handRaw_same _ limit, handRaw_same _ short]

theorem putProgram_shown (shown : s.Shown) (defined : s.program p = some x) (same : ShowsAlike x y) :
    s.putProgram p x y = s.setProgram p (some y) := by
  obtain ⟨_, _, _, _, open_⟩ := programShown_some shown defined
  have unsettled := same.unsettled open_
  have put := State.program_setProgram s p (some y)
  rw [State.putProgram, if_pos same.lineDelay, settleDelay_unsettled put unsettled, State.handProgram, put]
  exact congrArg (fun a => { s.setProgram p (some y) with alarm := a }) (handProgram_shown shown defined same)

/-- Nothing but the record changes. -/
theorem progStep_shown {f : Program → Program} (shown : s.Shown) (defined : s.program p = some x)
    (same : ShowsAlike x (f x)) : s.progStep p f = s.setProgram p (some (f x)) := by
  by_cases still : f x = x
  · rw [progStep_same defined still, still, setProgram_self defined]
  · rw [progStep_put defined still, putProgram_shown shown defined same]

end Sys2Proof.Machine

end

section
/-! PROOF. Programs start, stop and fade (O41). -/

namespace Sys2Proof.Machine

variable {s : State} {p : Fin 16} {x : Program} {tag b : Byte}

theorem start_eq (x : Program) : x.start =
    if x.state = .standby then { x with state := .running, onAir := ⟨1, .rising, 0⟩ }
    else if x.state = .running ∧ x.onAir.dir = .falling then
      { x with onAir := ⟨min 480 (x.onAir.prev + 1), .rising, x.onAir.prev⟩ }
    else x := by
  unfold Program.start
  cases state : x.state with
  | standby | preparing => rfl
  | running =>
    simp only [true_and]
    rfl

theorem showsAlike_start (x : Program) : ShowsAlike x x.start := by
  rw [start_eq]
  split
  · exact ⟨rfl, rfl, rfl⟩
  · split
    · exact ⟨rfl, rfl, rfl⟩
    · exact .refl x

theorem showsAlike_stop (x : Program) : ShowsAlike x x.stop := by
  unfold Program.stop
  split
  · exact ⟨rfl, rfl, rfl⟩
  · exact .refl x

theorem showsAlike_onAirEnd (x : Program) : ShowsAlike x x.onAirEnd := by
  unfold Program.onAirEnd
  split
  · exact ⟨rfl, rfl, rfl⟩
  · split
    · exact ⟨rfl, rfl, rfl⟩
    · exact .refl x

/-- A request that its owner answers with an operation on the record alone, in a state whose conditions are shown. -/
theorem exec_judged_shown {c : Instr} {r : Request} {f : Program → Program} (request : requestOf c = some (tag, r))
    (plain : opensOp r = false ∧ takesTag (requestKind r) = false) (free : s.LinkFree) (shown : s.Shown)
    (defined : s.program p = some x) (same : ShowsAlike x (f x)) (answered : s.answer tag r = .ok (s.progStep p f)) :
    exec c s = .next ((s.setProgram p (some (f x))).replied (requestKind r) tag .ok []) := by
  rw [exec_answered request free plain.1 plain.2, answered, progStep_shown shown defined same]
  rfl

theorem answer_start (code : b.toNat = p.val) (defined : s.program p = some x) (ready : x.state ≠ .preparing) :
    s.answer tag (.start b) = .ok (s.progStep p Program.start) :=
  (State.withProgram_some _ code defined).trans (if_neg ready)

theorem answer_stop (code : b.toNat = p.val) (defined : s.program p = some x) (ready : x.state ≠ .preparing) :
    s.answer tag (.stop b) = .ok (s.progStep p Program.stop) :=
  (State.withProgram_some _ code defined).trans (if_neg ready)

end Sys2Proof.Machine

open Sys2Proof Sys2Proof.Machine

/-- Settles O41: each of the three changes the on-air fade and the state of the record alone. -/
theorem programsStartStopAndFade : Obligations.ProgramsStartStopAndFade := by
  intro s tag b p x shown code defined
  refine ⟨fun free ready => ?_, fun free ready => ?_, ?_⟩
  · have running (stands : x.state ≠ .standby) : x.state = .running := by
      cases state : x.state with
      | running => rfl
      | standby => exact absurd state stands
      | preparing => exact absurd state ready
    rw [exec_judged_shown (r := .start b) rfl ⟨rfl, rfl⟩ free shown defined (showsAlike_start x)
      (answer_start code defined ready), start_eq]
    by_cases standby : x.state = .standby
    · rw [if_pos standby, if_pos standby]
      rfl
    · simp only [running standby, true_and]
      rfl
  · exact exec_judged_shown (f := Program.stop) (r := .stop b) rfl ⟨rfl, rfl⟩ free shown defined (showsAlike_stop x)
      (answer_stop code defined ready)
  · exact congrArg Host.Outcome.next (progStep_shown shown defined (showsAlike_onAirEnd x))

end

section
/-! PROOF. Selections begin changeovers (O43). -/

namespace Sys2Proof.Machine

variable {s : State} {p : Fin 16} {x : Program} {tag b c pri bak m : Byte}

/-! ## Values of a request (R194) -/

theorem selectModeOfByte_none (outside : 3 ≤ m.toNat) : selectModeOfByte m = none := by
  simpa [selectModeOfByte] using outside

theorem selectModeOfByte_code {mode : SelectMode} (code : mode.code = m.toNat) : selectModeOfByte m = some mode := by
  unfold selectModeOfByte
  rw [← code]
  cases mode <;> rfl

theorem sourceOfByte_none (outside : 64 ≤ b.toNat) : sourceOfByte b = none := by
  simp [sourceOfByte, Nat.not_lt.2 outside]

theorem Source.byte_toNat (u : Source) : u.byte.toNat = u.lane.val * 16 + u.slot.val := by
  have lane := u.lane.isLt
  have slot := u.slot.isLt
  rw [Source.byte, BitVec.toNat_ofNat, Nat.mod_eq_of_lt (by omega)]

theorem Source.byte_lt (u : Source) : u.byte.toNat < 64 := by
  have lane := u.lane.isLt
  have slot := u.slot.isLt
  rw [u.byte_toNat]
  omega

theorem sourceOfByte_byte (u : Source) : sourceOfByte u.byte = some u := by
  have slot := u.slot.isLt
  have lane : (u.lane.val * 16 + u.slot.val) / 16 = u.lane.val := by omega
  have place : (u.lane.val * 16 + u.slot.val) % 16 = u.slot.val := by omega
  rw [sourceOfByte, dif_pos u.byte_lt]
  simp only [u.byte_toNat, lane, place]

theorem backupOfByte_none (outside : 64 ≤ b.toNat) (named : b ≠ 0xFF) : backupOfByte b = none := by
  rw [backupOfByte, if_neg named, sourceOfByte_none outside]
  rfl

theorem backupOfByte_code {v : Option Source} (code : (v.map Source.byte).getD 0xFF = b) :
    backupOfByte b = some v := by
  subst code
  cases v with
  | none => rfl
  | some u =>
    have named : u.byte ≠ 0xFF := fun same => by
      have := u.byte_lt
      rw [same] at this
      exact absurd this (by decide)
    show backupOfByte u.byte = some (some u)
    rw [backupOfByte, if_neg named, sourceOfByte_byte]
    rfl

/-! ## The desired selection and the changeover (R61, R62) -/

/-- The selection a channel's mode, backup and demand ask for (R61). -/
theorem desiredPick_eq (mode : SelectMode) (hasBackup demand : Bool) : desiredPick mode hasBackup demand =
    if hasBackup ∧ (mode = .forceBackup ∨ (mode = .auto ∧ demand = true)) then .backup else .primary := by
  cases mode <;> simp [desiredPick]

theorem named_eq (ch : Channel) (k : Pick) :
    ch.named k = if k = .backup then ch.backup.getD ch.primary else ch.primary := by
  cases k <;> rfl

theorem differs_iff (ch : Channel) : ch.differs = true ↔ ch.desired ≠ ch.current
    ∨ (if ch.desired = .backup then ch.backup.getD ch.primary else ch.primary) ≠ ch.inUse := by
  rw [Channel.differs, Bool.or_eq_true, decide_eq_true_iff, decide_eq_true_iff, named_eq]

theorem compare_eq (ch : Channel) : ch.compare = { ch with
    coFade := if (ch.desired ≠ ch.current
          ∨ (if ch.desired = .backup then ch.backup.getD ch.primary else ch.primary) ≠ ch.inUse)
        ∧ ch.coFade.dir = .steady then ⟨ch.coFade.prev - 1, .falling, ch.coFade.prev⟩ else ch.coFade } := by
  simp only [← differs_iff]
  rw [Channel.compare]
  by_cases begins : ch.differs = true ∧ ch.coFade.dir = .steady
  · rw [if_pos begins, if_pos begins]
    rfl
  · rw [if_neg begins, if_neg begins]

theorem reselect_eq (ch : Channel) : ch.reselect =
    (let want : Pick :=
      if ch.backup.isSome ∧ (ch.mode = .forceBackup ∨ (ch.mode = .auto ∧ ch.demand = true)) then .backup
      else .primary
     let source := if want = .backup then ch.backup.getD ch.primary else ch.primary
     { ch with
       desired := want
       coFade := if (want ≠ ch.current ∨ source ≠ ch.inUse) ∧ ch.coFade.dir = .steady then
           ⟨ch.coFade.prev - 1, .falling, ch.coFade.prev⟩ else ch.coFade }) := by
  rw [Channel.reselect, desiredPick_eq, compare_eq]

theorem channelTakeMode_eq (mode : SelectMode) (ch : Channel) :
    ch.takeMode mode = if ch.mode ≠ mode then { ch with mode := mode }.reselect else ch := by
  rw [Channel.takeMode, ite_not]

theorem modify_eq_mapIdx {α : Type} (f : α → α) (n : Nat) (l : List α) :
    l.modify n f = l.mapIdx fun i a => if i = n then f a else a := by
  refine List.ext_getElem? fun i => ?_
  rw [List.getElem?_modify, List.getElem?_mapIdx]
  simp only [eq_comm (a := n)]
  rfl

theorem map_eq_mapIdx {α : Type} (f : α → α) (l : List α) : l.map f = l.mapIdx fun _ a => f a :=
  List.ext_getElem? fun i => by rw [List.getElem?_map, List.getElem?_mapIdx]

/-! ## The requests (R64, R65) -/

theorem answer_selectSource_refused (code : b.toNat = p.val) (defined : s.program p = some x)
    (outside : 3 ≤ m.toNat ∨ (c ≠ 0xFF ∧ x.channels.length ≤ c.toNat)) :
    s.answer tag (.selectSource b c m) = .refuse .badValue s := by
  show s.withProgram b _ = _
  rw [State.withProgram_some _ code defined]
  cases mode : selectModeOfByte m with
  | none => rfl
  | some k =>
    obtain wrong | ⟨one, beyond⟩ := outside
    · rw [selectModeOfByte_none wrong] at mode
      cases mode
    · exact (if_neg one).trans (if_pos beyond)

/-- The record with the channels named in their new mode. -/
def Program.takeMode (c : Byte) (mode : SelectMode) (x : Program) : Program :=
  { x with channels :=
      if c = 0xFF then x.channels.map (Channel.takeMode mode) else x.channels.modify c.toNat (Channel.takeMode mode) }

theorem answer_selectSource {mode : SelectMode} (code : b.toNat = p.val) (defined : s.program p = some x)
    (select : mode.code = m.toNat) (inside : c = 0xFF ∨ c.toNat < x.channels.length) :
    s.answer tag (.selectSource b c m) = .ok (s.progStep p (Program.takeMode c mode)) := by
  show s.withProgram b _ = _
  rw [State.withProgram_some _ code defined]
  rw [selectModeOfByte_code select]
  by_cases all : c = 0xFF
  · have every : Program.takeMode c mode = fun y => { y with channels := y.channels.map (Channel.takeMode mode) } :=
      funext fun y => by rw [Program.takeMode, if_pos all]
    rw [every, all]
    rfl
  · have one : Program.takeMode c mode = fun y => y.atChannel c.toNat (Channel.takeMode mode) :=
      funext fun y => by rw [Program.takeMode, if_neg all, Program.atChannel]
    rw [one]
    exact (if_neg all).trans (if_neg (Nat.not_le.2 (inside.resolve_left all)))

theorem Program.takeMode_eq (c : Byte) (mode : SelectMode) (x : Program) : x.takeMode c mode = { x with
    channels := x.channels.mapIdx fun i ch =>
      if (c = 0xFF ∨ i = c.toNat) ∧ ch.mode ≠ mode then { ch with mode := mode }.reselect else ch } := by
  rw [Program.takeMode]
  by_cases all : c = 0xFF
  · rw [if_pos all, map_eq_mapIdx]
    simp only [all, true_or, true_and, channelTakeMode_eq]
  · rw [if_neg all, modify_eq_mapIdx]
    simp only [all, false_or, channelTakeMode_eq, ite_and]

theorem answer_setChannelSource_refused (code : b.toNat = p.val) (defined : s.program p = some x)
    (ready : x.state ≠ .preparing)
    (outside : x.channels.length ≤ c.toNat ∨ 64 ≤ pri.toNat ∨ (64 ≤ bak.toNat ∧ bak ≠ 0xFF)) :
    s.answer tag (.setChannelSource b c pri bak) = .refuse .badValue s := by
  show s.withProgram b _ = _
  rw [State.withProgram_some _ code defined]
  rw [if_neg ready]
  by_cases beyond : x.channels.length ≤ c.toNat
  · rw [if_pos beyond]
  · rw [if_neg beyond]
    obtain wrong | ⟨wrong, named⟩ := outside.resolve_left beyond
    · rw [sourceOfByte_none wrong]
    · rw [backupOfByte_none wrong named]
      cases sourceOfByte pri <;> rfl

theorem answer_setChannelSource {u : Source} {v : Option Source} (code : b.toNat = p.val)
    (defined : s.program p = some x) (ready : x.state ≠ .preparing) (inside : c.toNat < x.channels.length)
    (first : u.byte = pri) (second : (v.map Source.byte).getD 0xFF = bak) :
    s.answer tag (.setChannelSource b c pri bak) =
      .ok (s.progStep p fun y => y.atChannel c.toNat (Channel.takeSources s.alarm p u v)) := by
  show s.withProgram b _ = _
  rw [State.withProgram_some _ code defined]
  rw [if_neg ready, if_neg (Nat.not_le.2 inside), ← first, sourceOfByte_byte, backupOfByte_code second]

end Sys2Proof.Machine

open Sys2Proof Sys2Proof.Machine

/-- Settles O43: both requests come to channels judged again, one by one. -/
theorem selectionsBeginChangeovers : Obligations.SelectionsBeginChangeovers := by
  intro s tag b c p x shown free code defined judged
  have judges (ch : Channel) : ch.reselect = judged ch := reselect_eq ch
  refine ⟨fun m outside => ?_, fun m mode select inside => ?_, fun ready pri bak => ⟨fun outside => ?_,
    fun u v inside first second => ?_⟩⟩
  · exact exec_refused (r := .selectSource b c m) rfl free rfl rfl
      (answer_selectSource_refused code defined outside)
  · rw [exec_judged_shown (r := .selectSource b c m) rfl ⟨rfl, rfl⟩ free shown defined ⟨rfl, rfl, rfl⟩
      (answer_selectSource code defined select inside), Program.takeMode_eq]
    simp only [judges]
    rfl
  · exact exec_refused (r := .setChannelSource b c pri bak) rfl free rfl rfl
      (answer_setChannelSource_refused code defined ready outside)
  · rw [exec_judged_shown (r := .setChannelSource b c pri bak) rfl ⟨rfl, rfl⟩ free shown defined ⟨rfl, rfl, rfl⟩
      (answer_setChannelSource code defined ready inside first second), Program.atChannel, modify_eq_mapIdx]
    simp only [Channel.takeSources, judges]
    rfl

end

section
/-! PROOF. Definitions are checked in order (O39): the channels a definition's entries stand for, and the checks. -/

namespace Sys2Proof.Machine

variable {s : State} {p : Fin 16} {tag b : Byte} {d : ChannelDef} {ch : Channel} {defs : List ChannelDef}
  {chs : List Channel}

/-! ## The entries (R51, R193, R194) -/

/-- The channel that an entry stands for: fresh, with the entry's role, sources, mode and egress. -/
structure Draws (d : ChannelDef) (ch : Channel) : Prop where
  made : ch = .fresh ch.role ch.primary ch.backup ch.mode ch.egress
  role : ch.role.code = d.role.toNat
  primary : ch.primary.byte = d.primary
  backup : (ch.backup.map Source.byte).getD 0xFF = d.backup
  mode : ch.mode.code = d.mode.toNat
  egress : ch.egress.byte = d.egress

theorem roleOfByte_eq_some {role : Role} : roleOfByte b = some role ↔ role.code = b.toNat := by
  constructor
  · intro listed
    obtain ⟨inside, rfl⟩ := List.getElem?_eq_some_iff.1 listed
    exact (by decide : ∀ i : Fin 9, ([Role.l, .r, .c, .lfe, .ls, .rs, .lb, .rb, .m][i]).code = i.val) ⟨_, inside⟩
  · intro code
    unfold roleOfByte
    rw [← code]
    cases role <;> rfl

theorem selectModeOfByte_eq_some {m : SelectMode} : selectModeOfByte b = some m ↔ m.code = b.toNat := by
  refine ⟨fun listed => ?_, selectModeOfByte_code⟩
  obtain ⟨inside, rfl⟩ := List.getElem?_eq_some_iff.1 listed
  exact (by decide : ∀ i : Fin 3, ([SelectMode.auto, .forcePrimary, .forceBackup][i]).code = i.val) ⟨_, inside⟩

theorem sourceOfByte_eq_some {u : Source} : sourceOfByte b = some u ↔ u.byte = b := by
  constructor
  · intro listed
    unfold sourceOfByte at listed
    split at listed
    · cases listed
      refine BitVec.eq_of_toNat_eq ?_
      rw [Source.byte_toNat]
      dsimp only
      omega
    · cases listed
  · rintro rfl
    exact sourceOfByte_byte u

theorem backupOfByte_eq_some {v : Option Source} : backupOfByte b = some v ↔ (v.map Source.byte).getD 0xFF = b := by
  refine ⟨fun listed => ?_, backupOfByte_code⟩
  unfold backupOfByte at listed
  split at listed
  · next absent =>
    cases listed
    exact absent.symm
  · obtain ⟨u, named, rfl⟩ := Option.map_eq_some_iff.1 listed
    exact sourceOfByte_eq_some.1 named

theorem channelOf_eq_some : channelOf d = some ch ↔ Draws d ch := by
  constructor
  · intro listed
    unfold channelOf at listed
    split at listed
    · next role primary backup mode egress =>
      cases listed
      exact ⟨rfl, roleOfByte_eq_some.1 role, sourceOfByte_eq_some.1 primary, backupOfByte_eq_some.1 backup,
        selectModeOfByte_eq_some.1 mode, sourceOfByte_eq_some.1 egress⟩
    · cases listed
  · intro draws
    rw [channelOf, roleOfByte_eq_some.2 draws.role, sourceOfByte_eq_some.2 draws.primary,
      backupOfByte_eq_some.2 draws.backup, selectModeOfByte_eq_some.2 draws.mode, sourceOfByte_eq_some.2 draws.egress]
    exact congrArg some draws.made.symm

theorem Draws.inLists (draws : Draws d ch) : d.InLists where
  role := by
    rw [← draws.role]
    cases ch.role <;> decide
  primary := by
    rw [← draws.primary]
    exact ch.primary.byte_lt
  backup := by
    rw [← draws.backup]
    cases ch.backup with
    | none => exact .inl rfl
    | some u => exact .inr u.byte_lt
  mode := by
    rw [← draws.mode]
    cases ch.mode <;> decide
  egress := by
    rw [← draws.egress]
    exact ch.egress.byte_lt

theorem sourceOfByte_inside (inside : b.toNat < 64) : ∃ u, sourceOfByte b = some u := ⟨_, dif_pos inside⟩

theorem exists_draws (lists : d.InLists) : ∃ ch, Draws d ch := by
  obtain ⟨primary, named⟩ := sourceOfByte_inside lists.primary
  obtain ⟨egress, out⟩ := sourceOfByte_inside lists.egress
  obtain ⟨backup, second⟩ : ∃ v, backupOfByte d.backup = some v := by
    obtain absent | inside := lists.backup
    · exact ⟨none, if_pos absent⟩
    · obtain ⟨u, second⟩ := sourceOfByte_inside inside
      exact ⟨some u, backupOfByte_code (sourceOfByte_eq_some.1 second)⟩
  have role : roleOfByte d.role = some _ := List.getElem?_eq_getElem lists.role
  have mode : selectModeOfByte d.mode = some _ := List.getElem?_eq_getElem lists.mode
  exact ⟨.fresh _ primary backup _ egress, rfl, roleOfByte_eq_some.1 role, sourceOfByte_eq_some.1 named,
    backupOfByte_eq_some.1 second, selectModeOfByte_eq_some.1 mode, sourceOfByte_eq_some.1 out⟩

theorem channelsOf_eq_some : channelsOf defs = some chs ↔ List.Forall₂ Draws defs chs := by
  induction defs generalizing chs with
  | nil =>
    rw [channelsOf, Option.some.injEq, List.forall₂_nil_left_iff]
    exact eq_comm
  | cons d rest ih =>
    rw [channelsOf, List.forall₂_cons_left_iff]
    constructor
    · intro listed
      split at listed
      · next ch l first others =>
        cases listed
        exact ⟨ch, l, channelOf_eq_some.1 first, ih.1 others, rfl⟩
      · cases listed
    · rintro ⟨ch, l, first, others, rfl⟩
      rw [channelOf_eq_some.2 first, ih.2 others]

theorem exists_channels (lists : ∀ k ∈ defs, k.InLists) : ∃ chs, List.Forall₂ Draws defs chs := by
  induction defs with
  | nil => exact ⟨[], .nil⟩
  | cons d rest ih =>
    obtain ⟨ch, first⟩ := exists_draws (lists d List.mem_cons_self)
    obtain ⟨l, others⟩ := ih fun k mem => lists k (List.mem_cons_of_mem d mem)
    exact ⟨ch :: l, .cons first others⟩

theorem channelsOf_inLists (drawn : List.Forall₂ Draws defs chs) : ∀ k ∈ defs, k.InLists := by
  induction drawn with
  | nil => exact fun _ mem => absurd mem List.not_mem_nil
  | cons first _ ih => exact List.forall_mem_cons.2 ⟨first.inLists, ih⟩

theorem Role.code_injective : Function.Injective Role.code := by
  have read (role : Role) : roleOfByte (BitVec.ofNat 8 role.code) = some role := by cases role <;> rfl
  exact fun one other same => Option.some.inj ((read one).symm.trans ((congrArg (fun k => roleOfByte (BitVec.ofNat 8 k)) same).trans
    (read other)))

/-- The roles are told apart by their bytes. -/
theorem roles_nodup (drawn : List.Forall₂ Draws defs chs) :
    (chs.map Channel.role).Nodup ↔ (defs.map ChannelDef.role).Nodup := by
  have codes : (chs.map Channel.role).map Role.code = (defs.map ChannelDef.role).map BitVec.toNat := by
    induction drawn with
    | nil => rfl
    | cons first _ ih => simpa using ⟨first.role, by simpa using ih⟩
  rw [← List.nodup_map_iff Role.code_injective, codes, List.nodup_map_iff BitVec.toNat_injective]

theorem Source.byte_injective : Function.Injective Source.byte := fun u v same =>
  Option.some.inj ((sourceOfByte_byte u).symm.trans ((congrArg sourceOfByte same).trans (sourceOfByte_byte v)))

theorem egresses_nodup (drawn : List.Forall₂ Draws defs chs) :
    (chs.map Channel.egress).Nodup ↔ (defs.map ChannelDef.egress).Nodup := by
  have bytes : (chs.map Channel.egress).map Source.byte = defs.map ChannelDef.egress := by
    induction drawn with
    | nil => rfl
    | cons first _ ih => simpa using ⟨first.egress, by simpa using ih⟩
  rw [← List.nodup_map_iff Source.byte_injective, bytes]

/-! ## The claims (R58) -/

theorem egressIndex_byte (u : Source) : u.byte.toNat = (egressIndex u).val := u.byte_toNat

theorem Draws.claim (draws : Draws d ch) (s : State) :
    s.claims[d.egress.toNat]? = some (s.claims[(egressIndex ch.egress).val]'(egressIndex ch.egress).isLt) := by
  rw [← draws.egress, egressIndex_byte, Vector.getElem?_eq_getElem]

/-- An egress that another program has, by the entry that names it. -/
theorem claimed_iff (drawn : List.Forall₂ Draws defs chs) : (chs.any fun ch => s.claimed ch.egress) = true ↔
    ∃ k ∈ defs, ∃ claim, s.claims[k.egress.toNat]? = some (some claim) := by
  induction drawn with
  | nil => simp
  | cons first _ ih =>
    rw [List.any_cons, Bool.or_eq_true, List.exists_mem_cons_iff, ih, first.claim, State.claimed,
      Option.isSome_iff_exists]
    simp only [Option.some.injEq]

/-! ## The checks (R51) -/

theorem defineProgram_drawn {n : BitVec 16} (code : b.toNat = p.val) (vacant : s.program p = none)
    (some_ : defs ≠ []) (few : defs.length ≤ 8) (drawn : List.Forall₂ Draws defs chs)
    (roles : (defs.map ChannelDef.role).Nodup) :
    s.defineProgram tag b n defs = s.judgeDefinition p tag (min 10000 n.toNat) chs := by
  have count : ¬ (defs.length < 1 ∨ 8 < defs.length) := by
    have := List.length_pos_iff.2 some_
    omega
  rw [State.defineProgram, programOfByte_val code]
  dsimp only
  rw [if_neg (by simp [vacant]), if_neg count, channelsOf_eq_some.2 drawn]
  exact if_neg (not_not.2 ((roles_nodup drawn).2 roles))

theorem defineProgram_badValue {n : BitVec 16} (code : b.toNat = p.val) (vacant : s.program p = none)
    (wrong : defs = [] ∨ 8 < defs.length ∨ (∃ k ∈ defs, ¬ k.InLists) ∨ ¬ (defs.map ChannelDef.role).Nodup) :
    s.defineProgram tag b n defs = .refuse .badValue s := by
  rw [State.defineProgram, programOfByte_val code]
  dsimp only
  rw [if_neg (by simp [vacant])]
  by_cases count : defs.length < 1 ∨ 8 < defs.length
  · rw [if_pos count]
  · rw [if_neg count]
    cases listed : channelsOf defs with
    | none => rfl
    | some chs =>
      have drawn := channelsOf_eq_some.1 listed
      refine if_pos fun roles => ?_
      obtain none | many | ⟨k, mem, outside⟩ | twice := wrong
      · exact count (.inl (by simp [none]))
      · exact count (.inr many)
      · exact outside (channelsOf_inLists drawn k mem)
      · exact twice ((roles_nodup drawn).1 roles)

theorem judgeDefinition_slotTaken {ms : Nat} (drawn : List.Forall₂ Draws defs chs)
    (taken : ¬ (defs.map ChannelDef.egress).Nodup
      ∨ ∃ k ∈ defs, ∃ claim, s.claims[k.egress.toNat]? = some (some claim)) :
    s.judgeDefinition p tag ms chs = .refuse .slotTaken s :=
  if_pos (taken.imp (mt (egresses_nodup drawn).1) (claimed_iff drawn).2)

/-- A definition whose egresses are free is judged by the DRAM and the free pages. -/
theorem judgeDefinition_free {ms : Nat} (drawn : List.Forall₂ Draws defs chs)
    (egresses : (defs.map ChannelDef.egress).Nodup) (free : ∀ k ∈ defs, s.claims[k.egress.toNat]? = some none) :
    s.judgeDefinition p tag ms chs =
      if 0 < ringRows ms ∧ s.pool.sized = 0 then .refuse .notFitted s
      else if 0 < ringRows ms ∧ s.pool.free.length < defs.length * ringRows ms then
        ⟨.noSpace, bigEndian 2 s.pool.free.length ++ bigEndian 2 s.pool.sized, s⟩
      else ⟨.accepted, [], s.acceptDefinition p tag ms chs⟩ := by
  have unclaimed : ¬ (¬ (chs.map Channel.egress).Nodup ∨ (chs.any fun ch => s.claimed ch.egress) = true) := by
    rintro (twice | claimed)
    · exact twice ((egresses_nodup drawn).2 egresses)
    · obtain ⟨k, mem, claim, named⟩ := (claimed_iff drawn).1 claimed
      rw [free k mem] at named
      cases named
  rw [drawn.length_eq]
  exact if_neg unclaimed

/-- A definition that finds its pages is accepted. -/
theorem judgeDefinition_accepted {ms : Nat} (drawn : List.Forall₂ Draws defs chs)
    (egresses : (defs.map ChannelDef.egress).Nodup) (free : ∀ k ∈ defs, s.claims[k.egress.toNat]? = some none)
    (room : ringRows ms = 0 ∨ (0 < s.pool.sized ∧ defs.length * ringRows ms ≤ s.pool.free.length)) :
    s.judgeDefinition p tag ms chs = ⟨.accepted, [], s.acceptDefinition p tag ms chs⟩ := by
  rw [judgeDefinition_free drawn egresses free, if_neg (by omega), if_neg (by omega)]

end Sys2Proof.Machine

open Sys2Proof Sys2Proof.Machine

/-- Settles O39: the two checks of the tag stand before the owner, whose checks follow each other as R51 lists them. -/
theorem definitionsAreCheckedInOrder : Obligations.DefinitionsAreCheckedInOrder := by
  intro s tag b n defs p free code vacant reserve refused ms rows
  have request : requestOf (.defineProgram tag b n defs) = some (tag, .defineProgram b n defs) := rfl
  have unheld : s.heldBack (requestKind (.defineProgram b n defs)) tag = false := by
    obtain rfl | room := reserve
    · simp [State.heldBack]
    · simp [State.heldBack, Nat.not_le.2 room]
  have judged {a : Answer} (h : s.judge tag (.defineProgram b n defs) = a) :
      exec (.defineProgram tag b n defs) s = .next (a.placed 0x20 tag) := by
    rw [exec_request request, present_taken free unheld, h]
    rfl
  refine ⟨fun tagged busy => ?_, fun tagged idle full => ?_, fun fresh => ?_⟩
  · exact judged (a := .refuse .tagBusy s) (if_pos (by rw [bne_iff_ne.2 tagged, busy]; rfl))
  · exact judged (a := .refuse .opsFull s) ((if_neg (by simp [idle])).trans (if_pos
      (by rw [bne_iff_ne.2 tagged, decide_eq_true full]; rfl)))
  · have owned {a : Answer} (h : s.defineProgram tag b n defs = a) :
        exec (.defineProgram tag b n defs) s = .next (a.placed 0x20 tag) := by
      rw [exec_owned request free (fun _ => fresh) rfl]
      exact congrArg (fun a => Host.Outcome.next (Answer.placed 0x20 tag a)) h
    refine ⟨fun wrong => owned (defineProgram_badValue code vacant wrong), fun some_ few lists roles => ?_⟩
    obtain ⟨chs, drawn⟩ := exists_channels lists
    have drawn_ := defineProgram_drawn (tag := tag) (n := n) code vacant some_ few drawn roles
    refine ⟨fun taken => owned (drawn_.trans (judgeDefinition_slotTaken drawn taken)), fun egresses unclaimed => ?_⟩
    have judge := drawn_.trans (judgeDefinition_free drawn egresses unclaimed)
    refine ⟨fun long none => owned (judge.trans (if_pos ⟨long, none⟩)), fun long sized short => ?_,
      fun room => ⟨_, owned (drawn_.trans (judgeDefinition_accepted drawn egresses unclaimed room))⟩⟩
    rw [if_neg (fun none => Nat.ne_of_gt sized none.2), if_pos ⟨long, short⟩] at judge
    exact owned judge

end

section
/-! PROOF. Changeovers and trim steps switch and end (O44): the step of one channel, and the program that is trimmed anew
when one of its channels has switched. -/

namespace Sys2Proof.Machine

variable {s : State} {p : Fin 16} {x : Program} {ch : Channel} {c : Nat} {lanes : Vector Lane 4} {pprog : Nat}

/-! ## The steps of one channel -/

theorem fallen_iff (f : Fade) : f.fallen = true ↔ f.dir = .falling ∧ f.prev = 0 := by
  simp [Fade.fallen]

theorem risen_iff (f : Fade) : f.risen 480 = true ↔ f.dir = .rising ∧ f.prev = 480 := by
  simp [Fade.risen]

theorem atChannel_some (there : x.channels[c]? = some ch) (f : Channel → Channel) :
    x.atChannel c f = { x with channels := x.channels.set c (f ch) } := by
  rw [Program.atChannel, List.modify_eq_set_getElem?, there]
  rfl

/-- A step of one channel, in a state whose conditions are shown, changes nothing but the channel. -/
theorem progStep_atChannel (shown : s.Shown) (defined : s.program p = some x) (there : x.channels[c]? = some ch)
    (f : Channel → Channel) : s.progStep p (Program.atChannel c f) =
      s.setProgram p (some { x with channels := x.channels.set c (f ch) }) := by
  rw [progStep_shown shown defined (by exact ⟨rfl, rfl, rfl⟩), atChannel_some there]

theorem changeoverEnd_eq (ch : Channel) : ch.changeoverEnd =
    if ch.coFade.dir = .rising ∧ ch.coFade.prev = 480 then
      { ch with coFade :=
        if ch.desired ≠ ch.current
            ∨ (if ch.desired = .backup then ch.backup.getD ch.primary else ch.primary) ≠ ch.inUse then
          ⟨479, .falling, 480⟩
        else { ch.coFade with dir := .steady } }
    else ch := by
  simp only [← risen_iff]
  rw [Channel.changeoverEnd]
  by_cases risen : ch.coFade.risen 480 = true
  · have top : ch.coFade.prev = 480 := ((risen_iff _).1 risen).2
    rw [if_pos risen, if_pos risen, compare_eq]
    simp only [Fade.rest, and_true, top]
  · rw [if_neg risen, if_neg risen]

theorem stepTrim_eq (ch : Channel) : ch.stepTrim =
    if ch.trimFade.dir = .falling ∧ ch.trimFade.prev = 0 then
      { ch with trim := ch.required, trimFade := ⟨1, .rising, 0⟩ } else ch := by
  simp only [← fallen_iff]
  rw [Channel.stepTrim]
  by_cases fallen : ch.trimFade.fallen = true
  · rw [if_pos fallen, if_pos fallen, Fade.turn, ((fallen_iff _).1 fallen).2]
    rfl
  · rw [if_neg fallen, if_neg fallen]

theorem startTrimStep_eq (ch : Channel) : ch.startTrimStep = { ch with
    trimFade := if ch.live ∧ ch.trim ≠ ch.required ∧ ch.trimFade.dir = .steady then
      ⟨ch.trimFade.prev - 1, .falling, ch.trimFade.prev⟩ else ch.trimFade } := by
  rw [Channel.startTrimStep]
  by_cases begins : ch.live ∧ ch.trim ≠ ch.required ∧ ch.trimFade.dir = .steady
  · rw [if_pos begins, if_pos begins]
    rfl
  · rw [if_neg begins, if_neg begins]

theorem endTrimStep_eq (ch : Channel) : ch.endTrimStep =
    if ch.trimFade.dir = .rising ∧ ch.trimFade.prev = 480 then
      { ch with trimFade :=
        if ch.live = true ∧ ch.trim ≠ ch.required then ⟨479, .falling, 480⟩
        else { ch.trimFade with dir := .steady } }
    else ch := by
  simp only [← risen_iff]
  rw [Channel.endTrimStep]
  by_cases risen : ch.trimFade.risen 480 = true
  · have top : ch.trimFade.prev = 480 := ((risen_iff _).1 risen).2
    rw [if_pos risen, if_pos risen, startTrimStep_eq]
    simp only [Fade.rest, and_true, top]
  · rw [if_neg risen, if_neg risen]

/-! ## One channel trimmed anew (R123 to R125) -/

/-- Trimming changes nothing of a channel but its liveness, its path latency and its trim. -/
theorem retrim_record (lanes : Vector Lane 4) (pprog : Nat) (direct : Bool) (ch : Channel) :
    ch.retrim lanes pprog direct = { ch with
      live := ch.laneLocked lanes, pathLat := ch.laneLatency lanes
      required := if ch.laneLocked lanes then pprog - ch.laneLatency lanes else 0
      trim := (ch.retrim lanes pprog direct).trim, trimFade := (ch.retrim lanes pprog direct).trimFade } := by
  unfold Channel.retrim
  dsimp only
  split
  · rfl
  · split
    · rfl
    · rw [startTrimStep_eq]

/-- A trim that is set directly is the required one at once, and no trim step begins. -/
theorem retrim_direct {direct : Bool} (now : direct = true ∨ (ch.coFade.dir ≠ .steady ∧ ch.coFade.prev = 0))
    (locked : ch.laneLocked lanes = true) :
    (ch.retrim lanes pprog direct).trim = pprog - ch.laneLatency lanes
      ∧ (ch.retrim lanes pprog direct).trimFade = ch.trimFade := by
  have directly : (direct || ch.switchesNow || !ch.live) = true := by
    obtain rfl | ⟨moving, low⟩ := now
    · rfl
    · have switches : ch.switchesNow = true := by simp [Channel.switchesNow, moving, low]
      rw [switches, Bool.or_true, Bool.true_or]
  unfold Channel.retrim
  dsimp only
  rw [locked, if_neg (by decide), if_pos directly]
  exact ⟨rfl, rfl⟩

theorem retrim_dead (direct : Bool) (dead : ch.laneLocked lanes = false) :
    (ch.retrim lanes pprog direct).trim = 0 := by
  unfold Channel.retrim
  dsimp only
  rw [dead, if_pos (by decide)]

theorem laneLocked_iff (s : State) (ch : Channel) :
    ch.laneLocked s.lanes = true ↔ (s.lane ch.inUse.lane).state = .locked := by
  rw [Channel.laneLocked, beq_iff_eq]
  rfl

/-! ## The program trimmed anew -/

/-- The channels of a program that is trimmed anew, one by one: trimmed, and with their read buffers as the change of
the target leaves them. -/
theorem realign_channel {i : Nat} {w : Channel} (there : x.channels[i]? = some w) :
    ∃ buf, (x.realign lanes).channels[i]? =
      some { w.retrim lanes (pathLatency lanes x.channels) false with readBuf := buf } := by
  have trimmed : (x.trimmed lanes).channels[i]? = some (w.retrim lanes (pathLatency lanes x.channels) false) := by
    rw [Program.trimmed, List.getElem?_map, there]
    rfl
  rw [realign_eq, Program.retarget]
  dsimp only
  split
  · exact ⟨_, trimmed⟩
  · obtain same | emptied := takeChange_channels x.align.retrim
      { x.trimmed lanes with align := { x.align with
          value := x.align.value, pathLat := pathLatency lanes x.channels
          target := (x.trimmed lanes).targetFor x.align.value (pathLatency lanes x.channels) } }
    · exact ⟨_, (congrArg (·[i]?) same).trans trimmed⟩
    · refine ⟨[], (congrArg (·[i]?) emptied).trans ?_⟩
      rw [Program.emptyReadBuffers, List.getElem?_map]
      exact congrArg _ trimmed

/-- What a retrimming starts from: another record with the same alignment, state, output and read buffers does. -/
theorem Retrimmed.of_start {now : Time} {w y : Program} (h : w.Retrimmed now lanes y)
    (record : w = { x with channels := w.channels })
    (bufs : w.channels.map Channel.readBuf = x.channels.map Channel.readBuf) : x.Retrimmed now lanes y := by
  have align : w.align = x.align := (congrArg Program.align record :)
  have out : w.out = x.out := (congrArg Program.out record :)
  have rows : w.rows = x.rows := (congrArg Program.rows record :)
  have line : w.lineDelay = x.lineDelay := by rw [Program.lineDelay, align]; rfl
  obtain ⟨pathLat, value, retrim, slew, limit, target, schedule, op, rest⟩ := h
  rw [align] at value retrim slew limit target op
  rw [rows] at target
  rw [Program.ScheduleMoved, line, out] at schedule
  refine ⟨pathLat, value, retrim, slew, limit, TargetMoved.of_start align (congrArg Program.state record :) bufs target,
    schedule, op, rest.trans ?_⟩
  rw [record]

/-- What stands looks at the line delay of the record before alone. -/
theorem standing_of_lineDelay {now : Time} {w z : Program} (line : w.lineDelay = x.lineDelay) :
    Program.standing now w z = Program.standing now x z := by
  rw [standing_eq, standing_eq, line]

/-! ## The switch (R62, R123, R125) -/

/-- The record with a channel switched, its trims and its target still as they were. -/
def Program.switched (c : Nat) (x : Program) : Program := x.atChannel c Channel.switch

theorem switched_channel (there : x.channels[c]? = some ch) : (x.switched c).channels[c]? = some ch.switch := by
  show (x.channels.modify c Channel.switch)[c]? = _
  rw [List.getElem?_modify, there]
  simp

theorem switched_channel_ne {i : Nat} (apart : i ≠ c) : (x.switched c).channels[i]? = x.channels[i]? := by
  show (x.channels.modify c Channel.switch)[i]? = _
  rw [List.getElem?_modify]
  simp [Ne.symm apart]

theorem switched_readBufs (c : Nat) (x : Program) :
    (x.switched c).channels.map Channel.readBuf = x.channels.map Channel.readBuf := by
  refine List.ext_getElem? fun i => ?_
  show ((x.channels.modify c Channel.switch).map Channel.readBuf)[i]? = _
  rw [List.getElem?_map, List.getElem?_map, List.getElem?_modify]
  cases x.channels[i]? with
  | none => rfl
  | some w =>
    by_cases same : c = i
    · simp [same, Channel.switch]
    · simp [same]

theorem changeoverSwitch_fallen (there : x.channels[c]? = some ch) (fallen : ch.coFade.fallen = true) :
    x.changeoverSwitch lanes c = (x.switched c).realign lanes := by
  simp only [Program.changeoverSwitch, there, fallen, if_true]
  rfl

theorem changeoverSwitch_early (there : x.channels[c]? = some ch) (early : ¬ ch.coFade.fallen = true) :
    x.changeoverSwitch lanes c = x := by
  simp only [Program.changeoverSwitch, there, if_neg early]

theorem switch_coFade (low : ch.coFade.prev = 0) : ch.switch.coFade = ⟨1, .rising, 0⟩ := by
  show ch.coFade.turn 480 .rising = _
  rw [Fade.turn, low]
  rfl

/-- The record that stands once a channel has switched. -/
theorem changeoverSwitch_program (defined : s.program p = some x) (there : x.channels[c]? = some ch)
    (falling : ch.coFade.dir = .falling) (low : ch.coFade.prev = 0) :
    (s.progStep p (Program.changeoverSwitch s.lanes c)).program p =
      some (Program.standing s.counter (x.switched c) ((x.switched c).realign s.lanes)) := by
  have switches := changeoverSwitch_fallen (lanes := s.lanes) there ((fallen_iff _).2 ⟨falling, low⟩)
  have changed : x.changeoverSwitch s.lanes c ≠ x := fun same => by
    obtain ⟨buf, now⟩ := realign_channel (lanes := s.lanes) (switched_channel there)
    rw [← switches, same, there, Option.some.injEq] at now
    have fade := congrArg Channel.coFade now
    rw [retrim_record] at fade
    rw [fade] at falling
    exact absurd (falling.symm.trans (congrArg Fade.dir (switch_coFade low))) (by decide)
  rw [progStep_put defined changed, putProgram_program, switches]
  exact congrArg some (standing_of_lineDelay rfl).symm

/-- A channel of the record that stands once another has switched, or the channel itself. -/
theorem standing_channel {now : Time} {w : Program} {i : Nat} {v : Channel} (there : w.channels[i]? = some v) :
    ∃ buf, (Program.standing now w (w.realign lanes)).channels[i]? =
      some { v.retrim lanes (pathLatency lanes w.channels) false with readBuf := buf } := by
  rw [standing_eq]
  exact realign_channel there

theorem standing_pathLat (now : Time) (lanes : Vector Lane 4) (w : Program) :
    (Program.standing now w (w.realign lanes)).align.pathLat = pathLatency lanes w.channels := by
  obtain ⟨_, align⟩ := realign_motion lanes w
  rw [standing_eq]
  exact (congrArg Align.pathLat align :)

/-- The trim of a channel that is set directly. -/
theorem retrim_trim (now : ch.coFade.dir ≠ .steady ∧ ch.coFade.prev = 0) :
    (ch.retrim s.lanes pprog false).trim =
      if (s.lane ch.inUse.lane).state = .locked then pprog - (s.lane ch.inUse.lane).inUse else 0 := by
  by_cases locked : (s.lane ch.inUse.lane).state = .locked
  · rw [if_pos locked]
    exact (retrim_direct (.inr now) ((laneLocked_iff s ch).2 locked)).1
  · rw [if_neg locked]
    exact retrim_dead false (Bool.eq_false_iff.2 (mt (laneLocked_iff s ch).1 locked))

end Sys2Proof.Machine

open Sys2Proof Sys2Proof.Machine

/-- Settles O44: the switch is a retrimming of the program whose channel has switched, and each other step changes its
channel alone. -/
theorem changeoversAndTrimStepsSwitchAndEnd : Obligations.ChangeoversAndTrimStepsSwitchAndEnd := by
  intro s p c x ch defined there
  refine ⟨fun early => ?_, fun falling low => ?_, fun shown => ?_, fun shown => ?_, fun shown => ?_⟩
  · have fallen : ¬ ch.coFade.fallen = true := by
      rw [fallen_iff]
      rintro ⟨falling, low⟩
      exact early.elim (absurd falling) (absurd low)
    exact congrArg Host.Outcome.next (progStep_same defined (changeoverSwitch_early there fallen))
  · have stands := changeoverSwitch_program defined there falling low
    obtain ⟨buf, own⟩ := standing_channel (now := s.counter) (lanes := s.lanes) (switched_channel there)
    have moving := switch_coFade low
    have pathLat := standing_pathLat s.counter s.lanes (x.switched c)
    have retrimmed := Retrimmed.of_start (retrimmed_standing s.counter s.lanes (x.switched c)) rfl
      (switched_readBufs c x)
    have ⟨latency, value, _, _, _, ⟨target, _⟩, _⟩ := retrimmed
    refine ⟨_, _, _, rfl, onlyProgram_progStep .., stands, own, ?_⟩
    rw [retrim_record]
    refine ⟨rfl, named_eq ch ch.desired, moving, rfl, rfl, rfl, rfl, rfl, rfl, rfl, ?_, ?_, latency, value, target,
      retrimmed, fun i w apart other => ?_⟩
    · exact Bool.eq_iff_iff.2 ((laneLocked_iff s _).trans decide_eq_true_iff.symm)
    · rw [pathLat]
      exact retrim_trim (by rw [moving]; exact ⟨by decide, rfl⟩)
    · obtain ⟨buf, now⟩ := standing_channel (now := s.counter) (lanes := s.lanes)
        ((switched_channel_ne (c := c.val) apart).trans other)
      refine ⟨_, now, ?_, ?_, ?_, fun turning low locked => ?_⟩
      iterate 3
        · rw [retrim_record]
      · rw [pathLat]
        exact retrim_direct (.inr ⟨turning, low⟩) ((laneLocked_iff s w).2 locked)
  · exact congrArg Host.Outcome.next ((progStep_atChannel shown defined there _).trans (by rw [changeoverEnd_eq]))
  · exact congrArg Host.Outcome.next ((progStep_atChannel shown defined there _).trans (by rw [stepTrim_eq]))
  · exact congrArg Host.Outcome.next ((progStep_atChannel shown defined there _).trans (by rw [endTrimStep_eq]))

end

section
/-! PROOF. Released programs give everything back (O42). -/

namespace Sys2Proof.Machine

variable {s t u : State} {p : Fin 16} {x : Program} {tag b : Byte} {now : Time} {a : AlarmUnit}

/-! ## The points of a program set at rest (R157, R169) -/

theorem dropPoints_point {l : List (Fin 118)} (once : l.Nodup) (pt : Fin 118) :
    (l.foldl (AlarmUnit.dropPoint now) a).point pt =
      if l.contains pt = true then (a.point pt).drop now else a.point pt := by
  induction l generalizing a with
  | nil => rfl
  | cons q rest ih =>
    obtain ⟨fresh, once⟩ := List.nodup_cons.1 once
    rw [List.foldl_cons, ih once]
    by_cases same : q = pt
    · subst same
      have gone : (a.dropPoint now q).point q = (a.point q).drop now := AlarmUnit.point_setPoint ..
      rw [if_neg (by simpa using fresh), if_pos (by simp), gone]
    · have kept : (a.dropPoint now q).point pt = a.point pt := AlarmUnit.point_setPoint_ne _ _ _ _ same
      rw [kept, List.contains_cons, beq_false_of_ne (Ne.symm same), Bool.false_or]

theorem dropPoints_notices (l : List (Fin 118)) (a : AlarmUnit) :
    (l.foldl (AlarmUnit.dropPoint now) a).notices = a.notices.filter fun n => !l.contains n.point := by
  induction l generalizing a with
  | nil => exact (List.filter_eq_self.2 fun _ _ => rfl).symm
  | cons q rest ih =>
    rw [List.foldl_cons, ih]
    show (a.notices.filter fun n => n.point != q).filter _ = _
    rw [List.filter_filter]
    refine List.filter_congr fun n _ => ?_
    rw [List.contains_cons, Bool.not_or, Bool.and_comm]
    rfl

theorem keepsSettings_dropPoints (l : List (Fin 118)) (a : AlarmUnit) :
    KeepsSettings a (l.foldl (AlarmUnit.dropPoint now) a) := by
  induction l generalizing a with
  | nil => exact .refl a
  | cons q rest ih =>
    have first : KeepsSettings a (a.dropPoint now q) := ⟨rfl, rfl, rfl, rfl, rfl, rfl⟩
    exact first.trans (ih _)

theorem programPoints_nodup (p : Fin 16) : (programPoints p).Nodup := by
  simp [programPoints, progPoint_inj]

/-! ## The record given back (R54, R57, R111, R112) -/

/-- A program whose record, with a ring of pages, has been given back: what has become of the pages, the claims and the
points, and what is as it was. -/
structure GivenBack (p : Fin 16) (ring : List PageEntry) (s t : State) : Prop where
  vacant : t.program p = none
  others : ∀ q, q ≠ p → t.program q = s.program q
  free : t.pool.free = s.pool.free ++ (ring.filter fun e => !e.suspect).map PageEntry.page
  retired : t.pool.retired = s.pool.retired ++ (ring.filter fun e => e.suspect).map PageEntry.page
  fill : t.pool.fill = s.pool.fill.filter fun e => e.program != p
  sized : t.pool.sized = s.pool.sized
  claims : ∀ i : Fin 64, t.claims[i.val]'i.isLt =
    if (s.claims[i.val]'i.isLt).map Claim.program = some p then none else s.claims[i.val]'i.isLt
  points : ∀ pt, t.alarm.point pt =
    if pointOfProgram p pt = true then (s.alarm.point pt).drop s.counter else s.alarm.point pt
  notices : t.alarm.notices = s.alarm.notices.filter fun n => !pointOfProgram p n.point
  lanes : t.lanes = s.lanes
  dram : s.FillAbandoned (fun q => q = p) t
  counter : t.counter = s.counter
  settings : KeepsSettings s.alarm t.alarm

theorem givenBack_vacate (defined : s.program p = some x) : GivenBack p x.ring s (s.vacate p) := by
  have dram := State.vacate_fillAbandoned (p := p) (s := s) (by rw [defined]; rfl)
  rw [vacate_eq defined] at *
  refine ⟨State.program_setProgram .., fun q apart => State.program_setProgram_ne s p q none apart.symm, rfl, rfl, rfl,
    rfl, fun i => ?_, dropPoints_point (programPoints_nodup p), dropPoints_notices _ _, rfl, dram, rfl,
    keepsSettings_dropPoints _ _⟩
  show (s.claims.map _)[i.val]'i.isLt = _
  rw [Vector.getElem_map]
  cases s.claims[i.val]'i.isLt with
  | none => rfl
  | some k => simp

/-- What has been done before to the record and to the operation table shows in no part of it. -/
theorem GivenBack.of_before {ring : List PageEntry} (h : GivenBack p ring u t) (outside : KeepsOutside s u)
    (alarm : u.alarm = s.alarm) (others : ∀ q, q ≠ p → u.program q = s.program q) : GivenBack p ring s t := by
  obtain ⟨vacant, apart, free, retired, fill, sized, claims, points, notices, lanes, dram, counter, settings⟩ := h
  rw [outside.pool] at free retired fill sized
  simp only [outside.claims] at claims
  simp only [alarm, outside.counter] at points
  rw [alarm] at notices settings
  refine ⟨vacant, fun q ne => (apart q ne).trans (others q ne), free, retired, fill, sized, claims, points, notices,
    lanes.trans outside.lanes, ?_, counter.trans outside.counter, settings⟩
  simpa only [State.FillAbandoned, outside.pool, outside.dram, outside.counter] using dram

/-- It does not look at the timebase and the Link Port. -/
theorem GivenBack.linked {ring : List PageEntry} (h : GivenBack p ring s t) (tb : Timebase) (k : LinkPort) :
    GivenBack p ring s { t with tb := tb, link := k } :=
  ⟨h.vacant, h.others, h.free, h.retired, h.fill, h.sized, h.claims, h.points, h.notices, h.lanes,
    fillAbandoned_dram rfl h.dram, h.counter, h.settings⟩

theorem vacate_tb (p : Fin 16) (s : State) : (s.vacate p).tb = s.tb := by
  unfold State.vacate
  split <;> rfl

theorem vacate_link (p : Fin 16) (s : State) : (s.vacate p).link = s.link := by
  unfold State.vacate
  split <;> rfl

/-! ## RELEASE (R57) -/

/-- The report of a delay operation that ends with its program. -/
theorem delayDetails_eq (p : Fin 16) (op : DelayOp) (a : Align) :
    delayDetails p op a = delayReport p op a.cur a.target := by
  simp only [delayDetails, delayReport, Align.remaining, distance_eq, flagCode]

theorem endDelayOp_some {r : Result} {o : DelayOp} (defined : s.program p = some x) (open_ : x.align.op = some o) :
    (s.endDelayOp p r).link = { s.link with
      ops := removeFirst (fun e => e.tag == o.tag) s.link.ops
      completions := s.link.completions ++ [⟨o.tag, 0x30, r, none, delayReport p o x.align.cur x.align.target⟩] } := by
  rw [State.endDelayOp, defined]
  dsimp only
  rw [open_, ← delayDetails_eq]
  rfl

theorem endDelayOp_alarm (p : Fin 16) (r : Result) (s : State) : (s.endDelayOp p r).alarm = s.alarm := by
  unfold State.endDelayOp
  split
  · rfl
  · split <;> rfl

/-- The operation open for a record's program ended as the record is given back: its definition, or else its delay
operation. -/
def State.endedWith (p : Fin 16) (x : Program) (s : State) : State :=
  match x.openDef with
  | some g => s.endDefinition p g .aborted
  | none => (s.endDelayOp p .aborted).vacate p

theorem releaseNow_eq (p : Fin 16) (x : Program) (s : State) :
    s.releaseNow p x = (s.endedWith p x).cancelEntries fun e => e.program == some p := rfl

theorem endDefinition_eq {g : Byte} {r : Result} (defined : s.program p = some x) : s.endDefinition p g r =
    (s.vacate p).closeOp g (.definition p) r (definitionDetails p x) := by
  rw [State.endDefinition, defined]

theorem endedWith_definition {g : Byte} (defined : s.program p = some x) (open_ : x.openDef = some g) :
    s.endedWith p x = (s.vacate p).closeOp g (.definition p) .aborted (definitionDetails p x) := by
  rw [State.endedWith, open_]
  exact endDefinition_eq defined

theorem endedWith_none (open_ : x.openDef = none) : s.endedWith p x = (s.endDelayOp p .aborted).vacate p := by
  rw [State.endedWith, open_]

theorem givenBack_endedWith (defined : s.program p = some x) : GivenBack p x.ring s (s.endedWith p x) := by
  cases open_ : x.openDef with
  | some g =>
    rw [endedWith_definition defined open_]
    exact (givenBack_vacate defined).linked _ _
  | none =>
    rw [endedWith_none open_]
    have stands : (s.endDelayOp p .aborted).program p = some { x with align := { x.align with op := none } } := by
      rw [endDelayOp_program, defined]
      rfl
    exact (givenBack_vacate stands).of_before (keepsOutside_endDelayOp ..) (endDelayOp_alarm ..)
      fun q apart => endDelayOp_program_ne p q _ s apart.symm

theorem endedWith_tb (defined : s.program p = some x) : (s.endedWith p x).tb = s.tb := by
  cases open_ : x.openDef with
  | some g =>
    rw [endedWith_definition defined open_]
    exact vacate_tb p s
  | none =>
    rw [endedWith_none open_, vacate_tb]
    exact (keepsOutside_endDelayOp ..).tb

/-- The Link Port with an operation ended. -/
def LinkPort.ended (kind tag : Byte) (r : Result) (details : List Byte) (k : LinkPort) : LinkPort :=
  { k with
    ops := removeFirst (fun e => e.tag == tag) k.ops
    completions := k.completions ++ [⟨tag, kind, r, none, details⟩] }

theorem endedWith_link (defined : s.program p = some x) : (s.endedWith p x).link =
    match x.openDef, x.align.op with
    | some g, _ => s.link.ended 0x20 g .aborted (definitionDetails p x)
    | none, some o => s.link.ended 0x30 o.tag .aborted (delayReport p o x.align.cur x.align.target)
    | none, none => s.link := by
  cases open_ : x.openDef with
  | some g =>
    rw [endedWith_definition defined open_]
    show LinkPort.ended 0x20 g .aborted (definitionDetails p x) (s.vacate p).link = _
    rw [vacate_link]
  | none =>
    rw [endedWith_none open_, vacate_link]
    cases op : x.align.op with
    | some o => exact endDelayOp_some defined op
    | none => rw [endDelayOp_none _ defined op]

/-- The program that the body of a schedule entry names, by its number. -/
theorem names_iff (p : Fin 16) (e : SchedEntry) :
    (e.program == some p) = (e.body.head?.map BitVec.toNat == some p.val) := by
  unfold SchedEntry.program
  cases e.body.head? with
  | none => rfl
  | some k =>
    by_cases inside : k.toNat < 16
    · simp [programOfByte, inside, Fin.ext_iff]
    · have apart : k.toNat ≠ p.val := by omega
      simp [programOfByte, inside, apart]

/-! ## CANCEL of a definition (R54) -/

theorem cancelOp_definition {e : OpEntry} (concern : e.concern = .definition p) (defined : s.program p = some x) :
    s.cancelOp e = (s.vacate p).closeOp e.tag (.definition p) .cancelled (definitionDetails p x) := by
  rw [State.cancelOp, concern]
  exact endDefinition_eq defined

end Sys2Proof.Machine

open Sys2Proof Sys2Proof.Machine

/-- Settles O42: the operation ends as the record is given back, then the schedule entries leave. -/
theorem releasedProgramsGiveEverythingBack : Obligations.ReleasedProgramsGiveEverythingBack := by
  intro s tag b p x free defined vacated named ended
  have back {t : State} (h : GivenBack p x.ring s t) : vacated t :=
    ⟨h.vacant, h.others, h.free, h.retired, h.fill, h.sized, h.claims, h.points, h.notices, h.lanes, h.dram, h.counter,
      h.settings⟩
  refine ⟨fun code idle => ⟨s.releaseNow p x, ?_, ?_, ?_, ?_⟩, fun target e work mem own concern => ?_⟩
  · have answered : s.answer tag (.release b) = .ok (s.releaseNow p x) :=
      (State.withProgram_some _ code defined).trans (if_neg idle)
    exact exec_read (r := .release b) rfl free rfl rfl answered rfl
  · exact back ((givenBack_endedWith defined).linked _ _)
  · rw [releaseNow_eq, State.cancelEntries, endedWith_tb defined]
    simp only [names_iff]
    rfl
  · rw [releaseNow_eq, State.cancelEntries, endedWith_tb defined, endedWith_link defined]
    simp only [names_iff]
    cases x.openDef with
    | some g => rfl
    | none =>
      cases x.align.op with
      | some o => rfl
      | none =>
        rw [List.append_nil]
  · subst own
    have apart := (List.nodup_append.1 work.tags).1
    have answered := cancel_operation (work.nonzero.1 e mem) mem apart
    rw [cancelOp_definition concern defined] at answered
    refine ⟨_, exec_cancel free answered, back ((givenBack_vacate defined).linked _ _), vacate_tb p s, ?_⟩
    rw [← removeFirst_tag_eq e.tag apart]
    show LinkPort.ended 0x20 e.tag .cancelled (definitionDetails p x) (s.vacate p).link = _
    rw [vacate_link]
    rfl

end

section
/-! PROOF. Definitions are taken whole (O40): the channels, the record, the claims and the state of an accepted
definition. -/

namespace Sys2Proof.Machine

variable {s : State} {p : Fin 16} {tag b : Byte} {d : ChannelDef} {ch : Channel} {defs : List ChannelDef}
  {chs : List Channel} {ms : Nat}

/-! ## The channels (R52, R61, R123) -/

/-- A changeover of a channel at rest on its primary begins where the backup is desired. -/
theorem reselect_fresh (current : ch.current = .primary) (source : ch.inUse = ch.primary)
    (rest : ch.coFade = ⟨480, .steady, 480⟩) : ch.reselect =
      (let want : Pick :=
        if ch.backup.isSome ∧ (ch.mode = .forceBackup ∨ (ch.mode = .auto ∧ ch.demand = true)) then .backup
        else .primary
       { ch with
         desired := want
         coFade := if want = .backup then ⟨479, .falling, 480⟩ else ⟨480, .steady, 480⟩ }) := by
  rw [reselect_eq]
  dsimp only
  generalize (if ch.backup.isSome ∧ (ch.mode = .forceBackup ∨ (ch.mode = .auto ∧ ch.demand = true)) then Pick.backup
    else .primary) = want
  rw [current, source, rest]
  cases want with
  | primary => simp
  | backup => simp

/-- What a channel's trim comes to at its definition: it is set directly, and no trim step begins. -/
theorem retrim_fresh (pprog : Nat) (rest : ch.trimFade = ⟨480, .steady, 480⟩) :
    (ch.retrim s.lanes pprog true).trim =
        (if (s.lane ch.inUse.lane).state = .locked then pprog - (s.lane ch.inUse.lane).inUse else 0)
      ∧ (ch.retrim s.lanes pprog true).trimFade = ⟨480, .steady, 480⟩ := by
  by_cases locked : (s.lane ch.inUse.lane).state = .locked
  · obtain ⟨trim, fade⟩ := retrim_direct (pprog := pprog) (.inl rfl) ((laneLocked_iff s ch).2 locked)
    rw [if_pos locked]
    exact ⟨trim, fade.trans rest⟩
  · have dead : ch.laneLocked s.lanes = false := Bool.eq_false_iff.2 (mt (laneLocked_iff s ch).1 locked)
    rw [if_neg locked]
    refine ⟨retrim_dead true dead, ?_⟩
    unfold Channel.retrim
    dsimp only
    rw [dead, if_pos (by decide), rest]
    exact ite_self _

/-- The channel of an accepted definition, by the channel that its entry stands for. -/
theorem settle_eq (pprog : Nat) (made : ch = .fresh ch.role ch.primary ch.backup ch.mode ch.egress) :
    ch.settle s p pprog =
      (let want : Pick :=
        if ch.backup.isSome ∧ (ch.mode = .forceBackup ∨ (ch.mode = .auto ∧ s.alarm.demandFor p ch = true)) then .backup
        else .primary
       { ch with
         live := ch.laneLocked s.lanes, pathLat := ch.laneLatency s.lanes
         required := if ch.laneLocked s.lanes then pprog - ch.laneLatency s.lanes else 0
         trim := if (s.lane ch.primary.lane).state = .locked then pprog - (s.lane ch.primary.lane).inUse else 0
         demand := s.alarm.demandFor p ch
         desired := want
         coFade := if want = .backup then ⟨479, .falling, 480⟩ else ⟨480, .steady, 480⟩ }) := by
  have source : ch.inUse = ch.primary := by rw [made]; rfl
  have current : ch.current = .primary := by rw [made]; rfl
  have trimRest : ch.trimFade = ⟨480, .steady, 480⟩ := by rw [made]; rfl
  have rest : ch.coFade = ⟨480, .steady, 480⟩ := by rw [made]; rfl
  obtain ⟨trim, fade⟩ := retrim_fresh (s := s) pprog trimRest
  rw [source] at trim
  have retrimmed : ch.retrim s.lanes pprog true = { ch with
      live := ch.laneLocked s.lanes, pathLat := ch.laneLatency s.lanes
      required := if ch.laneLocked s.lanes then pprog - ch.laneLatency s.lanes else 0
      trim := if (s.lane ch.primary.lane).state = .locked then pprog - (s.lane ch.primary.lane).inUse else 0 } := by
    rw [retrim_record, trim, fade, ← trimRest]
  rw [Channel.settle, retrimmed]
  refine (reselect_fresh ?_ ?_ ?_).trans ?_
  · exact current
  · exact source
  · exact rest
  · rfl

theorem settle_inUse (pprog : Nat) (made : ch = .fresh ch.role ch.primary ch.backup ch.mode ch.egress) :
    (ch.settle s p pprog).inUse = ch.inUse := by
  rw [settle_eq pprog made]

/-- Each channel is the one that the entry at its place stands for. -/
theorem drawn_at (drawn : List.Forall₂ Draws defs chs) {i : Nat} (there : chs[i]? = some ch) :
    ∃ d, defs[i]? = some d ∧ Draws d ch := by
  induction drawn generalizing i with
  | nil => cases there
  | @cons d first _ _ draws _ ih =>
    cases i with
    | zero =>
      obtain rfl : first = ch := by simpa using there
      exact ⟨d, rfl, draws⟩
    | succ i => exact ih there

/-! ## The record (R52, R53) -/

/-- The record of an accepted definition, in STANDBY at once where it has no pages. -/
def State.takenRecord (p : Fin 16) (tag : Byte) (ms : Nat) (chs : List Channel) (s : State) : Program :=
  let x := s.freshProgram p tag ms chs
  { x with
    state := if ringRows ms = 0 then .standby else .preparing
    openDef := if tag = 0 ∨ ringRows ms = 0 then none else some tag
    channels := x.channels.map fun ch => { ch with writeBuf := if ringRows ms = 0 then silentGroup else ch.writeBuf }
    loud := { x.loud with standbyAt := if ringRows ms = 0 then some s.counter else x.loud.standbyAt } }

theorem takenRecord_eq (p : Fin 16) (tag : Byte) (ms : Nat) (chs : List Channel) (s : State) :
    s.takenRecord p tag ms chs =
      if ringRows ms = 0 then (s.freshProgram p tag ms chs).enterStandby s.counter else s.freshProgram p tag ms chs := by
  unfold State.takenRecord
  by_cases none : ringRows ms = 0
  · simp only [none, or_true, if_true]
    rfl
  · simp only [none, or_false, if_false]
    exact congrArg (fun l => { s.freshProgram p tag ms chs with channels := l }) (List.map_id _)

theorem takenRecord_channel {i : Nat} (there : chs[i]? = some ch) :
    ∃ buf, (s.takenRecord p tag ms chs).channels[i]? =
      some { ch.settle s p (pathLatency s.lanes chs) with writeBuf := buf } := by
  show ∃ buf, (List.map _ (chs.map (Channel.settle s p (pathLatency s.lanes chs))))[i]? = _
  rw [List.getElem?_map, List.getElem?_map, there]
  exact ⟨_, rfl⟩

/-- P_prog of the record is that of the channels the entries stand for. -/
theorem takenRecord_pathLatency (drawn : List.Forall₂ Draws defs chs) :
    pathLatency s.lanes (s.takenRecord p tag ms chs).channels = pathLatency s.lanes chs := by
  refine pathLatency_of_sources ?_
  show ((chs.map (Channel.settle s p (pathLatency s.lanes chs))).map _).map Channel.inUse = _
  rw [List.map_map, List.map_map]
  refine List.map_congr_left fun ch mem => ?_
  obtain ⟨i, there⟩ := List.getElem?_of_mem mem
  obtain ⟨d, _, draws⟩ := drawn_at drawn there
  exact settle_inUse _ draws.made

end Sys2Proof.Machine

end

section
/-! PROOF. Definitions are taken whole (O40): the state that an accepted definition leaves. -/

namespace Sys2Proof.Machine

variable {s : State} {p : Fin 16} {tag b : Byte} {d : ChannelDef} {ch : Channel} {defs : List ChannelDef}
  {chs : List Channel} {ms : Nat} {x y : Program} {now : Time} {a : AlarmUnit}

/-! ## The points (R127, R157) -/

/-- The points of a program show no silence, no loudness and no gain limit. -/
def AlarmUnit.quiet (p : Fin 16) (a : AlarmUnit) : Prop := ∀ k ∈ [(0 : Fin 6), 2, 3], (a.point (progPoint k p)).raw = false

/-- A record whose blocks raise no condition but that of a short delay. -/
structure Program.Quiet (x : Program) : Prop where
  silent : x.loud.silentRun = 0
  loud : x.corr.loud = false
  limit : x.corr.gainLimit = false

/-- Handed what such a record shows, points that show nothing take its short delay alone. -/
theorem handProgram_quiet (at_ : a.quiet p) (record : x.Quiet) :
    a.handProgram now p x = a.handRaw now (progPoint 4 p) x.delayShort := by
  have silent : decide (1 ≤ x.loud.silentRun) = false := by rw [record.silent]; rfl
  rw [AlarmUnit.handProgram, silent, record.loud, record.limit, handRaw_same _ (at_ 0 (by simp)),
    handRaw_same _ (at_ 2 (by simp)), handRaw_same _ (at_ 3 (by simp))]

theorem quiet_handRaw {v : Bool} (at_ : a.quiet p) : (a.handRaw now (progPoint 4 p) v).quiet p := by
  intro k listed
  have apart : progPoint 4 p ≠ progPoint k p := by
    rw [Ne, progPoint_inj]
    rintro ⟨rfl, _⟩
    exact absurd listed (by decide)
  rw [handRaw_point_ne _ _ _ apart]
  exact at_ k listed

theorem handProgram_again (at_ : a.quiet p) (record : y.Quiet) (short : y.delayShort = x.delayShort) :
    (a.handRaw now (progPoint 4 p) x.delayShort).handProgram now p y = a.handRaw now (progPoint 4 p) x.delayShort := by
  rw [handProgram_quiet (quiet_handRaw at_) record, short, handRaw_same _ (handRaw_raw ..)]

theorem quiet_vacant (shown : s.Shown) (vacant : s.program p = none) : s.alarm.quiet p := by
  have rest := shown.programs p
  rw [State.ProgramShown, vacant] at rest
  exact fun k listed => rest k (by revert listed; revert k; decide)

/-! ## The state (R52, R53, R110) -/

theorem quiet_fresh : (s.freshProgram p tag ms chs).Quiet := ⟨rfl, rfl, rfl⟩

theorem openOp_eq (concern : Concern) (s : State) : s.openOp tag concern = { s with
    link := if tag = 0 then s.link else { s.link with ops := insertOp ⟨tag, concern, s.counter⟩ s.link.ops } } := by
  unfold State.openOp
  split <;> rfl

theorem handProgram_at (defined : s.program p = some x) :
    s.handProgram p = { s with alarm := s.alarm.handProgram s.counter p x } := by
  rw [State.handProgram, defined]

/-- The state of a definition that is taken, with its program in PREPARING. -/
theorem defined_eq (quiet : s.alarm.quiet p) : s.defined p tag ms chs =
    { s.setProgram p (some (s.freshProgram p tag ms chs)) with
      pool := s.pool.allocate s.counter p (chs.length * ringRows ms)
      claims := claimAll p 0 chs s.claims
      alarm := s.alarm.handRaw s.counter (progPoint 4 p) (s.freshProgram p tag ms chs).delayShort
      link := if tag = 0 then s.link
        else { s.link with ops := insertOp ⟨tag, .definition p, s.counter⟩ s.link.ops } } := by
  rw [← handProgram_quiet quiet quiet_fresh, State.defined, openOp_eq,
    handProgram_at (x := s.freshProgram p tag ms chs) (by exact State.program_setProgram ..)]
  rfl

/-- An operation entered under a tag that no other has, and taken out again. -/
theorem removeFirst_insertOp {e : OpEntry} {l : List OpEntry} (fresh : l.any (fun o => o.tag == e.tag) = false) :
    removeFirst (fun o => o.tag == e.tag) (insertOp e l) = l := by
  induction l with
  | nil => simp [insertOp, removeFirst]
  | cons o rest ih =>
    rw [List.any_cons, Bool.or_eq_false_iff] at fresh
    obtain ⟨apart, fresh⟩ := fresh
    rw [insertOp]
    split
    · rw [removeFirst, if_pos (beq_self_eq_true _)]
    · rw [removeFirst, if_neg (by rw [apart]; decide), ih fresh]

/-- With A = 0 the program enters STANDBY as it is defined. -/
theorem enterStandby_defined (quiet : s.alarm.quiet p) : (s.defined p tag ms chs).enterStandby p =
    (let u := { (s.defined p tag ms chs).setProgram p
        (some ((s.freshProgram p tag ms chs).enterStandby s.counter)) with
      alarm := s.alarm.handRaw s.counter (progPoint 4 p) (s.freshProgram p tag ms chs).delayShort }
     if tag = 0 then u
     else u.closeOp tag (.definition p) .done (definitionDetails p (s.freshProgram p tag ms chs))) := by
  have stands : (s.defined p tag ms chs).program p = some (s.freshProgram p tag ms chs) := by
    rw [defined_eq quiet]
    exact State.program_setProgram ..
  have alarm : (s.defined p tag ms chs).alarm =
      s.alarm.handRaw s.counter (progPoint 4 p) (s.freshProgram p tag ms chs).delayShort := by rw [defined_eq quiet]
  have counter : (s.defined p tag ms chs).counter = s.counter := by rw [defined_eq quiet]; rfl
  have put := putProgram_noOp (p := p) (x := s.freshProgram p tag ms chs)
    (y := (s.freshProgram p tag ms chs).enterStandby s.counter) (s := s.defined p tag ms chs) rfl rfl
  have again := handProgram_again (now := s.counter) (x := s.freshProgram p tag ms chs)
    (y := (s.freshProgram p tag ms chs).enterStandby s.counter) quiet ⟨rfl, rfl, rfl⟩ rfl
  rw [counter, alarm, again] at put
  rw [State.enterStandby, stands]
  dsimp only
  rw [counter, put]
  by_cases untagged : tag = 0
  · rw [if_pos untagged]
    have none : (s.freshProgram p tag ms chs).openDef = none := if_pos untagged
    rw [none]
  · rw [if_neg untagged]
    have some_ : (s.freshProgram p tag ms chs).openDef = some tag := if_neg untagged
    rw [some_]

theorem ringRows_eq_zero : ringRows ms = 0 ↔ ms = 0 := by
  unfold ringRows
  split <;> omega

/-- The details of a definition that takes no pages. -/
theorem definitionDetails_fresh (none : ringRows ms = 0) : definitionDetails p (s.freshProgram p tag ms chs) =
    bigEndian 1 p.val ++ [0, 0] ++ [0] ++ [0, 0] := by
  have short : (s.freshProgram p tag ms chs).maxDelay = 0 := ringRows_eq_zero.1 none
  have rows : (s.freshProgram p tag ms chs).rows = 0 := none
  have ring : (s.freshProgram p tag ms chs).ring.length = 0 := by simp [State.freshProgram, Pool.ring, none]
  rw [definitionDetails, short, rows, ring]
  rfl

/-- The state that an accepted definition leaves. -/
theorem acceptDefinition_made (quiet : s.alarm.quiet p) (fresh : tag ≠ 0 → s.tagHeld tag = false) :
    s.acceptDefinition p tag ms chs = { s.setProgram p (some (s.takenRecord p tag ms chs)) with
      pool := s.pool.allocate s.counter p (chs.length * ringRows ms)
      claims := claimAll p 0 chs s.claims
      alarm := s.alarm.handRaw s.counter (progPoint 4 p) (s.freshProgram p tag ms chs).delayShort
      link := if tag = 0 then s.link
        else if ringRows ms = 0 then
          { s.link with completions := s.link.completions
              ++ [⟨tag, 0x20, .done, none, bigEndian 1 p.val ++ [0, 0] ++ [0] ++ [0, 0]⟩] }
        else { s.link with ops := insertOp ⟨tag, .definition p, s.counter⟩ s.link.ops } } := by
  rw [acceptDefinition_eq, takenRecord_eq]
  by_cases none : ringRows ms = 0
  · have stays (x y : Option Program) : (s.programs.set p.val x p.isLt).set p.val y p.isLt =
        s.programs.set p.val y p.isLt := Vector.set_set ..
    rw [if_pos none, if_pos none, if_pos (show (s.freshProgram p tag ms chs).rows = 0 from none),
      enterStandby_defined quiet, definitionDetails_fresh none, defined_eq quiet]
    by_cases untagged : tag = 0
    · simp only [untagged, if_true, State.setProgram, stays]
    · have unheld : s.link.ops.any (fun o => o.tag == tag) = false :=
        (Bool.or_eq_false_iff.1 (fresh untagged)).1
      have out := removeFirst_insertOp (e := ⟨tag, .definition p, s.counter⟩) unheld
      simp only [untagged, if_false, State.setProgram, stays, State.closeOp, State.complete, out]
      rfl
  · rw [if_neg none, if_neg none, if_neg (show (s.freshProgram p tag ms chs).rows ≠ 0 from none), defined_eq quiet]

/-! ## The channels as the record holds them -/

theorem Draws.backup_eq (draws : Draws d ch) :
    ch.backup.map Source.byte = if d.backup = 0xFF then none else some d.backup := by
  rw [← draws.backup]
  cases ch.backup with
  | none => rfl
  | some u =>
    have named : u.byte ≠ 0xFF := fun same => absurd u.byte_lt (by rw [same]; decide)
    exact (if_neg named).symm

/-- The channel that an entry stands for, at its place among the channels of the record. -/
theorem exists_drawn (drawn : List.Forall₂ Draws defs chs) {i : Nat} (entry : defs[i]? = some d) :
    ∃ ch, chs[i]? = some ch ∧ Draws d ch := by
  obtain ⟨inside, _⟩ := List.getElem?_eq_some_iff.1 entry
  have there : chs[i]? = some (chs[i]'(drawn.length_eq ▸ inside)) := List.getElem?_eq_getElem _
  obtain ⟨k, at_, draws⟩ := drawn_at drawn there
  obtain rfl : k = d := Option.some.inj (at_.symm.trans entry)
  exact ⟨_, there, draws⟩

/-! ## The claims (R58) -/

/-- The claim table names for each egress the entry that has it. -/
theorem claimAll_drawn (drawn : List.Forall₂ Draws defs chs) (apart : (chs.map Channel.egress).Nodup)
    (v : Vector (Option Claim) 64) (i : Fin 64) : (claimAll p 0 chs v)[i.val]'i.isLt =
      (match defs.findIdx? fun k => k.egress.toNat == i.val with
       | some c => some ⟨p, c⟩
       | none => v[i.val]'i.isLt) := by
  cases found : defs.findIdx? fun k => k.egress.toNat == i.val with
  | none =>
    refine claimAll_other 0 v i fun ch mem same => ?_
    obtain ⟨j, there⟩ := List.getElem?_of_mem mem
    obtain ⟨d, entry, draws⟩ := drawn_at drawn there
    have named := List.findIdx?_eq_none_iff.1 found d (List.mem_of_getElem? entry)
    rw [← draws.egress, egressIndex_byte, same] at named
    exact absurd named (by simp)
  | some c =>
    obtain ⟨inside, named, _⟩ := List.findIdx?_eq_some_iff_getElem.1 found
    have there : chs[c]? = some (chs[c]'(drawn.length_eq ▸ inside)) := List.getElem?_eq_getElem _
    obtain ⟨d, entry, draws⟩ := drawn_at drawn there
    have own := claimAll_own (p := p) apart 0 c v there
    rw [List.getElem?_eq_getElem inside, Option.some.injEq] at entry
    rw [entry, ← draws.egress, egressIndex_byte, beq_iff_eq] at named
    rw [Fin.ext named, Nat.zero_add] at own
    exact own

end Sys2Proof.Machine

open Sys2Proof Sys2Proof.Machine

/-- Settles O40: the record is that of the channels the entries stand for, and the state is the one before with the
record, the claims and the pages in their places. -/
theorem definitionsAreTakenWhole : Obligations.DefinitionsAreTakenWhole := by
  intro s tag b n defs p free shown code vacant tagFree some_ few lists roles egresses unclaimed ms rows m room
  obtain ⟨chs, drawn⟩ := exists_channels lists
  have quiet := quiet_vacant shown vacant
  have apart := (egresses_nodup drawn).2 egresses
  have count : chs.length = defs.length := drawn.length_eq.symm
  have judged : s.answer tag (.defineProgram b n defs) = ⟨.accepted, [], s.acceptDefinition p tag ms chs⟩ :=
    (defineProgram_drawn code vacant some_ few drawn roles).trans
      (judgeDefinition_accepted drawn egresses unclaimed room)
  have fresh (tagged : tag ≠ 0) : s.tagHeld tag = false := (tagFree.resolve_left tagged).1
  have made := acceptDefinition_made (ms := ms) (chs := chs) quiet fresh
  have answered : exec (.defineProgram tag b n defs) s =
      .next ((s.acceptDefinition p tag ms chs).replied 0x20 tag .accepted []) := by
    rw [exec_owned (r := .defineProgram b n defs) rfl free (fun _ => tagFree) rfl, judged]
    rfl
  rw [made] at answered
  refine ⟨_, s.takenRecord p tag ms chs, answered, State.program_setProgram .., rfl, rfl, rfl, rfl, ?_, rfl, rfl, rfl,
    rfl, rfl, rfl, (takenRecord_pathLatency drawn).symm, rfl, rfl, rfl, rfl, rfl, rfl, rfl, rfl, rfl, rfl, rfl, rfl,
    rfl, rfl, rfl, ?_, fun i ch k there entry => ?_, fun i => claimAll_drawn drawn apart s.claims i, ?_, rfl,
    fun q ne => State.program_setProgram_ne s p q _ ne.symm, rfl, rfl, rfl, rfl, keepsSettings_handRaw ..,
    fun pt ne => handRaw_point_ne _ _ _ ne.symm⟩
  · show s.pool.ring (chs.length * ringRows ms) = _
    rw [count]
    rfl
  · simpa [State.takenRecord, State.freshProgram] using count
  · obtain ⟨c, at_, draws⟩ := exists_drawn drawn entry
    obtain ⟨buf, now⟩ := takenRecord_channel (s := s) (p := p) (tag := tag) (ms := ms) at_
    rw [there, settle_eq _ draws.made, Option.some.injEq] at now
    have current : c.current = .primary := by rw [draws.made]; rfl
    have source : c.inUse = c.primary := by rw [draws.made]; rfl
    have trimFade : c.trimFade = ⟨480, .steady, 480⟩ := by rw [draws.made]; rfl
    rw [now]
    exact ⟨draws.role, draws.primary, draws.mode, draws.egress, draws.backup_eq, current, source, rfl, rfl, rfl,
      trimFade, rfl⟩
  · show s.pool.allocate s.counter p (chs.length * ringRows ms) = _
    simp only [count, Pool.allocate, List.isEmpty_iff]
    rfl

end

section
/-! PROOF. Protections handed to their owners (O6): the demands, the pad and the delay bypass of one program. -/

namespace Sys2Proof.Machine

variable {s : State} {p : Fin 16} {x z : Program} {ch : Channel} {a : AlarmUnit}

/-! ## The demands (R60, R61) -/

theorem refreshDemand_eq (a : AlarmUnit) (p : Fin 16) (ch : Channel) : ch.refreshDemand a p =
    (let d := a.demandFor p ch
     let want : Pick := match ch.mode with
       | .forcePrimary => .primary
       | .forceBackup => if ch.backup.isSome then .backup else .primary
       | .auto => if ch.backup.isSome && d then .backup else .primary
     let source : Source := match want with
       | .primary => ch.primary
       | .backup => ch.backup.getD ch.primary
     if d = ch.demand then ch
     else
       { ch with
         demand := d, desired := want
         coFade := if (want ≠ ch.current ∨ source ≠ ch.inUse) ∧ ch.coFade.dir = .steady then
             ⟨ch.coFade.prev - 1, .falling, ch.coFade.prev⟩ else ch.coFade }) := by
  rw [Channel.refreshDemand]
  by_cases same : a.demandFor p ch = ch.demand
  · simp only [same, if_true]
  · simp only [same, if_false]
    rw [Channel.reselect, compare_eq]
    simp only [← named_eq, Channel.named]
    cases ch.mode <;> rfl

theorem handDemands_shown (shown : s.Shown) (defined : s.program p = some x) :
    s.handDemands p = s.setProgram p (some (x.takeDemands s.alarm p)) :=
  progStep_shown shown defined ⟨rfl, rfl, rfl⟩

/-! ## The pad (R141, R143, R146) -/

theorem setPad_eq (pad : Int) (x : Program) : x.setPad pad = x.withPad pad := by
  unfold Program.setPad Program.withPad Program.retotal
  dsimp only
  generalize x.out.applied + x.corr.settings.manualTrim + pad = sum
  have total : clampInt (-600) 200 sum = max (-600) (min 200 sum) := by
    unfold clampInt
    omega
  have held : decide (sum ≠ clampInt (-600) 200 sum) = decide (sum < -600 ∨ 200 < sum) := by
    refine decide_eq_decide.2 ?_
    unfold clampInt
    omega
  rw [held, total]
  split
  · rfl
  · rfl

theorem takePad_same {on : Bool} (same : x.out.pad = if on then -100 else 0) : x.takePad on = x := if_pos same

theorem takePad_other {on : Bool} (other : x.out.pad ≠ if on then -100 else 0) :
    x.takePad on = x.withPad (if on then -100 else 0) := by
  rw [← setPad_eq]
  exact if_neg other

/-! ## The delay bypass (R137, R138) -/

theorem takeBypass_same {on : Bool} (same : x.align.applied = on) : x.takeBypass on = x := if_pos same

theorem takeBypass_other {on : Bool} (other : on ≠ x.align.applied) :
    x.takeBypass on = if x.align.applied then x.removeBypass else x.applyBypass := by
  obtain rfl : on = !x.align.applied := Bool.eq_not.2 other
  rw [Program.takeBypass, if_neg (Ne.symm other)]
  cases x.align.applied <;> rfl

/-- The channels of a record with their read buffers emptied. -/
def Program.jumped (x : Program) : List Channel := x.channels.map fun ch => { ch with readBuf := [] }

theorem applyBypass_onAir (idle : x.align.bypass = .none) (onAir : x.state = .running) : x.applyBypass = { x with
    align := { x.align with
      applied := true, bypass := .entering, motion := if x.align.motion = .cutOut then .cutOut else .steady
      arriving := false, pending := none, fade := ⟨x.align.fade.prev - 1, .falling, x.align.fade.prev⟩ } } := by
  rw [Program.applyBypass, idle]
  exact if_neg (not_not.2 onAir)

theorem bypassNow_eq (fade : Fade) (x : Program) : x.bypassNow fade = { x with
    channels := if x.align.motion = .cutOut then x.jumped else x.channels
    align := { x.align with
      cur := if x.align.motion = .cutOut then x.align.target * 65536 else x.align.cur, bypass := .inEffect
      motion := .steady, arriving := false, pending := none, fade := fade } } := by
  unfold Program.bypassNow
  by_cases cut : x.align.motion = .cutOut
  · simp only [cut, if_true]
    rfl
  · simp only [cut, if_false]

theorem applyBypass_offAir (offAir : x.state ≠ .running)
    (begins : x.align.bypass = .none ∨ (x.align.bypass = .inEffect ∧ x.align.motion = .cutOut)) : x.applyBypass = { x with
    channels := if x.align.motion = .cutOut then x.jumped else x.channels
    align := { x.align with
      applied := true, cur := if x.align.motion = .cutOut then x.align.target * 65536 else x.align.cur
      bypass := .inEffect, motion := .steady, arriving := false, pending := none, fade := ⟨480, .steady, 480⟩ } } := by
  have now : x.applyBypass = { x with align := { x.align with applied := true } }.bypassNow (Fade.restAt 480) := by
    obtain none | ⟨inEffect, cut⟩ := begins
    · rw [Program.applyBypass, none]
      exact if_pos offAir
    · rw [Program.applyBypass, inEffect]
      exact if_pos ⟨offAir, cut⟩
  rw [now, bypassNow_eq]
  rfl

theorem applyBypass_stands (stands : x.align.bypass = .entering
    ∨ (x.align.bypass = .inEffect ∧ ¬(x.state ≠ .running ∧ x.align.motion = .cutOut))) :
    x.applyBypass = { x with align := { x.align with applied := true } } := by
  obtain entering | ⟨inEffect, back⟩ := stands
  · rw [Program.applyBypass, entering]
  · rw [Program.applyBypass, inEffect]
    exact if_neg back

theorem removeBypass_none (idle : x.align.bypass = .none) :
    x.removeBypass = { x with align := { x.align with applied := false } } := by
  rw [Program.removeBypass, idle]

theorem removeBypass_entering (entering : x.align.bypass = .entering) (onAir : x.state = .running) :
    x.removeBypass = { x with align := { x.align with
      applied := false, bypass := .none, motion := .cutOut, arriving := false } } := by
  rw [Program.removeBypass, entering]
  exact if_neg (not_not.2 onAir)

theorem removeBypass_inEffect (inEffect : x.align.bypass = .inEffect) (onAir : x.state = .running) :
    x.removeBypass = { x with align := { x.align with
      applied := false, motion := .cutOut, arriving := false
      fade := ⟨x.align.fade.prev - 1, .falling, x.align.fade.prev⟩ } } := by
  have cut : x.removeBypass = { x with align := { x.align with applied := false }.beginCut } := by
    rw [Program.removeBypass, inEffect]
    exact if_neg (not_not.2 onAir)
  rw [cut]
  rfl

theorem removeBypass_offAir (begun : x.align.bypass ≠ .none) (offAir : x.state ≠ .running) :
    x.removeBypass = { x with
      channels := x.jumped
      align := { x.align with
        applied := false, bypass := .none, cur := x.align.target * 65536, motion := .steady, arriving := false
        pending := none, fade := ⟨480, .steady, 480⟩ } } := by
  rw [Program.removeBypass]
  cases bypass : x.align.bypass with
  | none => exact absurd bypass begun
  | entering | inEffect => exact if_pos offAir

/-- What a bypass that is applied or removed leaves as it was. -/
structure BypassMoved (x z : Program) : Prop where
  record : z = { x with channels := z.channels, align := z.align }
  align : z.align = { x.align with
    applied := !x.align.applied, bypass := z.align.bypass, motion := z.align.motion, arriving := z.align.arriving
    pending := z.align.pending, cur := z.align.cur, fade := z.align.fade }

/-- The three ways in which a bypass is applied: it begins on air, it comes at once off air, or what has begun goes on. -/
theorem applyBypass_ways (x : Program) : (x.align.bypass = .none ∧ x.state = .running)
    ∨ (x.state ≠ .running ∧ (x.align.bypass = .none ∨ (x.align.bypass = .inEffect ∧ x.align.motion = .cutOut)))
    ∨ (x.align.bypass = .entering
      ∨ (x.align.bypass = .inEffect ∧ ¬(x.state ≠ .running ∧ x.align.motion = .cutOut))) := by
  cases bypass : x.align.bypass with
  | none =>
    by_cases onAir : x.state = .running
    · exact .inl ⟨rfl, onAir⟩
    · exact .inr (.inl ⟨onAir, .inl rfl⟩)
  | entering => exact .inr (.inr (.inl rfl))
  | inEffect =>
    by_cases back : x.state ≠ .running ∧ x.align.motion = .cutOut
    · exact .inr (.inl ⟨back.1, .inr ⟨rfl, back.2⟩⟩)
    · exact .inr (.inr (.inr ⟨rfl, back⟩))

theorem bypassMoved_apply (before : x.align.applied = false) : BypassMoved x x.applyBypass := by
  obtain ⟨idle, onAir⟩ | ⟨offAir, begins⟩ | stands := applyBypass_ways x
  · rw [applyBypass_onAir idle onAir]
    exact ⟨rfl, by rw [before]; rfl⟩
  · rw [applyBypass_offAir offAir begins]
    exact ⟨rfl, by rw [before]; rfl⟩
  · rw [applyBypass_stands stands]
    exact ⟨rfl, by rw [before]; rfl⟩

theorem bypassMoved_remove (before : x.align.applied = true) : BypassMoved x x.removeBypass := by
  by_cases onAir : x.state = .running
  · cases bypass : x.align.bypass with
    | none =>
      rw [removeBypass_none bypass]
      exact ⟨rfl, by rw [before]; rfl⟩
    | entering =>
      rw [removeBypass_entering bypass onAir]
      exact ⟨rfl, by rw [before]; rfl⟩
    | inEffect =>
      rw [removeBypass_inEffect bypass onAir]
      exact ⟨rfl, by rw [before]; rfl⟩
  · by_cases idle : x.align.bypass = .none
    · rw [removeBypass_none idle]
      exact ⟨rfl, by rw [before]; rfl⟩
    · rw [removeBypass_offAir idle onAir]
      exact ⟨rfl, by rw [before]; rfl⟩

theorem bypassMoved_take {on : Bool} (other : on ≠ x.align.applied) : BypassMoved x (x.takeBypass on) := by
  rw [takeBypass_other other]
  cases applied : x.align.applied with
  | false => exact bypassMoved_apply applied
  | true => exact bypassMoved_remove applied

end Sys2Proof.Machine

end

section
/-! PROOF. The delay bypass handed over (O6): what stands once a program has taken it or given it up. -/

namespace Sys2Proof.Machine

variable {s : State} {p : Fin 16} {x z : Program} {now : Time} {f : Program → Program} {on : Bool}

/-! ## The record that stands -/

theorem standing_channels (now : Time) (x z : Program) : (Program.standing now x z).channels = z.channels := by
  rw [standing_eq]

theorem standing_lineDelay (now : Time) (x z : Program) : (Program.standing now x z).lineDelay = z.lineDelay := by
  rw [standing_eq]
  rfl

/-- A delay that is not settled stands as it is, with its operation. -/
theorem standing_align (moving : z.align.settled = false) : (Program.standing now x z).align = z.align := by
  rw [standing_eq, moving]
  rfl

/-- A delay that is settled stands without an operation. -/
theorem standing_align_settled (settled : z.align.settled = true) :
    (Program.standing now x z).align = { z.align with op := none } := by
  rw [standing_eq, settled]
  rfl

/-- The record that a change of the line delay is made in, before a settled operation is closed. -/
theorem moved_align (now : Time) (x z : Program) :
    (if z.lineDelay = x.lineDelay then z else z.applyDue now).align = z.align := by
  split
  · rfl
  · rw [applyDue_record]

/-- An operation that leaves the delay unsettled leaves the Link Port alone. -/
theorem progStep_link_moving (defined : s.program p = some x) (moving : (f x).align.settled = false) :
    (s.progStep p f).link = s.link := by
  by_cases same : f x = x
  · rw [progStep_same defined same]
  · rw [progStep_put defined same]
    refine putProgram_link fun _ => ?_
    rw [moved_align]
    exact moving

/-- An operation that settles the delay ends an open delay operation DONE (R134). -/
theorem progStep_completions_settled {o : DelayOp} (defined : s.program p = some x) (changed : f x ≠ x)
    (settled : (f x).align.settled = true) (open_ : (f x).align.op = some o) :
    (s.progStep p f).link.completions = s.link.completions ++ [⟨o.tag, 0x30, .done, none,
      delayReport p o (f x).align.cur (f x).align.target⟩] := by
  have align := moved_align s.counter x (f x)
  rw [progStep_put defined changed, State.putProgram, handProgram_link]
  generalize (if (f x).lineDelay = x.lineDelay then f x else (f x).applyDue s.counter) = w at align
  have put : (s.setProgram p (some w)).program p = some w := State.program_setProgram ..
  have ended : (s.setProgram p (some w)).settleDelay p = (s.setProgram p (some w)).endDelayOp p .done := by
    rw [State.settleDelay, put]
    exact if_pos (by rw [align]; exact settled)
  rw [ended, endDelayOp_some put (by rw [align]; exact open_), align]
  rfl

/-! ## The record and the point (R127) -/

theorem handBypass_standing (defined : s.program p = some x) (open_ : x.Unsettled) :
    (s.handBypass p).program p =
      some (Program.standing s.counter x (x.takeBypass (s.alarm.point (progPoint 5 p)).applied)) :=
  progStep_standing _ defined open_

theorem BypassMoved.out (h : BypassMoved x z) : z.out = x.out := (congrArg Program.out h.record :)

theorem BypassMoved.applied (h : BypassMoved x z) : z.align.applied = !x.align.applied :=
  (congrArg Align.applied h.align :)

theorem BypassMoved.op (h : BypassMoved x z) : z.align.op = x.align.op := (congrArg Align.op h.align :)

theorem BypassMoved.delayShort (h : BypassMoved x z) : z.delayShort =
    (decide ((x.align.target : Int) ≠ (x.align.value : Int) - x.align.pathLat) || !x.align.applied) := by
  have target : z.align.target = x.align.target := (congrArg Align.target h.align :)
  have value : z.align.value = x.align.value := (congrArg Align.value h.align :)
  have pathLat : z.align.pathLat = x.align.pathLat := (congrArg Align.pathLat h.align :)
  rw [Program.delayShort, target, value, pathLat, h.applied]

theorem pointsShown_of_shown (shown : s.Shown) (p : Fin 16) : s.PointsShown p :=
  ((programShown_iff s p).1 (shown.programs p)).1

/-- The PROG_DELAY_SHORT point shows a bypass that has been handed over. -/
theorem handBypass_delayShort (shown : s.Shown) (defined : s.program p = some x) :
    ((s.handBypass p).alarm.point (progPoint 4 p)).raw =
      (x.takeBypass (s.alarm.point (progPoint 5 p)).applied).delayShort := by
  obtain ⟨_, _, _, _, open_⟩ := programShown_some shown defined
  have shows : (s.handBypass p).PointsShown p := pointsShown_progStep (pointsShown_of_shown shown p)
  rw [shows 4 (by decide), condition_of_program (handBypass_standing defined open_), standing_condition]
  rfl

/-! ## The bypass applied and removed (R137, R138) -/

/-- A bypass applied is no settled delay. -/
theorem applyBypass_moving (x : Program) : x.applyBypass.align.settled = false := by
  have begun {a : Align} (bypass : a.bypass ≠ .none) : a.settled = false := by simp [Align.settled, bypass]
  obtain ⟨idle, onAir⟩ | ⟨offAir, begins⟩ | stands := applyBypass_ways x
  · rw [applyBypass_onAir idle onAir]
    exact begun Bypass.noConfusion
  · rw [applyBypass_offAir offAir begins]
    exact begun Bypass.noConfusion
  · rw [applyBypass_stands stands]
    obtain entering | ⟨inEffect, _⟩ := stands
    · exact begun (by rw [entering]; exact Bypass.noConfusion)
    · exact begun (by rw [inEffect]; exact Bypass.noConfusion)

/-- A bypass applied: nothing is settled, and the Link Port stands. -/
theorem handBypass_applied (defined : s.program p = some x)
    (taken : x.takeBypass (s.alarm.point (progPoint 5 p)).applied = x.applyBypass) :
    (s.handBypass p).link = s.link
      ∧ (Program.standing s.counter x x.applyBypass).align = x.applyBypass.align :=
  ⟨progStep_link_moving defined (by rw [taken]; exact applyBypass_moving x), standing_align (applyBypass_moving x)⟩

/-- A bypass removed leaves the delay unsettled, on air, where it had begun. -/
theorem removeBypass_moving (begun : x.align.bypass ≠ .none) (onAir : x.state = .running) :
    x.removeBypass.align.settled = false := by
  have moving {a : Align} (motion : a.motion = .cutOut) : a.settled = false := by simp [Align.settled, motion]
  cases bypass : x.align.bypass with
  | none => exact absurd bypass begun
  | entering =>
    rw [removeBypass_entering bypass onAir]
    exact moving rfl
  | inEffect =>
    rw [removeBypass_inEffect bypass onAir]
    exact moving rfl

theorem removeBypass_settled (begun : x.align.bypass ≠ .none) (offAir : x.state ≠ .running) :
    x.removeBypass.align.settled = true := by
  rw [removeBypass_offAir begun offAir]
  simp [Align.settled]

/-- A bypass removed on air: nothing is settled, and the Link Port stands. -/
theorem handBypass_removed (defined : s.program p = some x)
    (taken : x.takeBypass (s.alarm.point (progPoint 5 p)).applied = x.removeBypass)
    (begun : x.align.bypass ≠ .none) (onAir : x.state = .running) : (s.handBypass p).link = s.link
      ∧ (Program.standing s.counter x x.removeBypass).align = x.removeBypass.align :=
  ⟨progStep_link_moving defined (by rw [taken]; exact removeBypass_moving begun onAir),
    standing_align (removeBypass_moving begun onAir)⟩

/-- A bypass removed off air: the delay has settled, and an open operation is DONE. -/
theorem handBypass_removed_offAir (defined : s.program p = some x)
    (taken : x.takeBypass (s.alarm.point (progPoint 5 p)).applied = x.removeBypass) (before : x.align.applied = true)
    (begun : x.align.bypass ≠ .none) (offAir : x.state ≠ .running) :
    (x.align.op = none → (s.handBypass p).link = s.link)
      ∧ ∀ o, x.align.op = some o → (s.handBypass p).link.completions = s.link.completions ++ [⟨o.tag, 0x30, .done, none,
        delayReport p o (x.align.target * 65536) x.align.target⟩] := by
  have op : x.removeBypass.align.op = x.align.op := (bypassMoved_remove before).op
  have jumped := removeBypass_offAir begun offAir
  constructor
  · intro idle
    exact progStep_link_idle defined (by rw [taken, op]; exact idle)
  · intro o open_
    have changed : x.takeBypass (s.alarm.point (progPoint 5 p)).applied ≠ x := fun same => by
      have applied := (bypassMoved_remove before).applied
      rw [← taken, same, before] at applied
      cases applied
    have done := progStep_completions_settled defined changed
      (by rw [taken]; exact removeBypass_settled begun offAir) (by rw [taken, op]; exact open_)
    rw [taken, jumped] at done
    exact done

end Sys2Proof.Machine

end

section
/-! PROOF. Protections follow their points through the audio of a house sample (O6): which points and which records a
stage of one program touches. -/

namespace Sys2Proof.Machine

/-- What a channel's demand is worked out from, and the demand. -/
def Channel.asked (ch : Channel) : Source × Bool := (ch.primary, ch.demand)

theorem asked_audioBlind : AudioBlind Channel.asked :=
  ⟨fun _ _ _ => rfl, fun _ => rfl, fun _ _ => rfl, fun _ _ => rfl, fun _ _ => rfl, fun _ _ _ _ => rfl, fun _ _ => rfl,
    fun _ => rfl⟩

/-- What a stage of one program, with the events of its kind `k`, leaves: every other record, every point but that of
the kind and those of the kinds 2 to 4, the settings, and what the demands are worked out from. -/
structure Touches (p : Fin 16) (k : Fin 6) (s t : State) : Prop where
  others : ∀ q, q ≠ p → t.program q = s.program q
  points : ∀ pt, (∀ j ∈ [k, 2, 3, 4], progPoint j p ≠ pt) → t.alarm.point pt = s.alarm.point pt
  settings : KeepsSettings s.alarm t.alarm
  asked : (t.program p).map (Program.seen Channel.asked) = (s.program p).map (Program.seen Channel.asked)

variable {s t u : State} {p q : Fin 16} {k : Fin 6} {x y : Program}

theorem Touches.refl (p : Fin 16) (k : Fin 6) (s : State) : Touches p k s s :=
  ⟨fun _ _ => rfl, fun _ _ => rfl, .refl _, rfl⟩

theorem Touches.trans (h : Touches p k s t) (l : Touches p k t u) : Touches p k s u :=
  ⟨fun q ne => (l.others q ne).trans (h.others q ne), fun pt apart => (l.points pt apart).trans (h.points pt apart),
    h.settings.trans l.settings, l.asked.trans h.asked⟩

theorem touches_record (defined : s.program p = some x) (seen : y.seen Channel.asked = x.seen Channel.asked) :
    Touches p k s (s.setProgram p (some y)) :=
  ⟨fun q ne => State.program_setProgram_ne s p q _ ne.symm, fun _ _ => rfl, .refl _, by
    rw [State.program_setProgram, defined, Option.map_some, Option.map_some, seen]⟩

theorem touches_event (now : Time) (p : Fin 16) (k : Fin 6) (s : State) :
    Touches p k s { s with alarm := s.alarm.event now (progPoint k p) } :=
  ⟨fun _ _ => rfl, fun _ apart => event_point_ne now s.alarm (apart k (by simp)), keepsSettings_event .., rfl⟩

/-- An operation on the record that leaves the demands and the silence, in a state that shows the silence. -/
theorem touches_progStep {f : Program → Program} (shown : s.PointsShown p)
    (seen : ∀ x, (f x).seen Channel.asked = x.seen Channel.asked)
    (silent : ∀ x, (f x).loud.silentRun = x.loud.silentRun) : Touches p k s (s.progStep p f) := by
  cases defined : s.program p with
  | none =>
    rw [progStep_vacant defined]
    exact .refl p k s
  | some x =>
    by_cases same : f x = x
    · rw [progStep_same defined same]
      exact .refl p k s
    · rw [progStep_put defined same]
      refine ⟨fun q ne => putProgram_program_ne p q _ _ s ne.symm, fun pt apart => ?_, ?_, ?_⟩
      · have shows : (s.alarm.point (progPoint 0 p)).raw =
            decide (1 ≤ (Program.standing s.counter x (f x)).loud.silentRun) := by
          have run : (Program.standing s.counter x (f x)).loud.silentRun = x.loud.silentRun := by
            rw [standing_eq]
            exact silent x
          rw [run, shown 0 (by decide), condition_of_program defined]
          rfl
        rw [putProgram_alarm, AlarmUnit.handProgram, handRaw_same _ shows, handRaw_point_ne _ _ _ (apart 4 (by simp)),
          handRaw_point_ne _ _ _ (apart 3 (by simp)), handRaw_point_ne _ _ _ (apart 2 (by simp))]
      · rw [putProgram_alarm]
        exact keepsSettings_handProgram ..
      · rw [putProgram_program, defined, Option.map_some, Option.map_some, standing_seen, seen]

/-! ## The inputs and the ring -/

theorem touches_takeInput (p : Fin 16) (s : State) : Touches p k s (s.takeInput p) := by
  unfold State.takeInput
  split
  · exact .refl p k s
  · exact touches_record ‹_› (takeInput_seen _ asked_audioBlind ..)

theorem touches_memory {pool : Pool} {dram : Dram} (s : State) : Touches p k s { s with pool := pool, dram := dram } :=
  ⟨fun _ _ => rfl, fun _ _ => rfl, .refl _, rfl⟩

theorem touches_writeRing (p : Fin 16) (s : State) : Touches p k s (s.writeRing p) := by
  unfold State.writeRing
  split
  · exact .refl p k s
  · next x defined =>
    split
    · have gathered : Touches p k s (s.setProgram p (some { x with
          channels := x.channels.map (Channel.gather s.counter.toNat) })) :=
        touches_record defined (mapChannels_seen x (asked_audioBlind.gather _))
      exact gathered.trans (touches_memory _)
    · exact .refl p k s

theorem touches_countReadErrors (p : Fin 16) (n : Nat) (s : State) : Touches p 5 s (s.countReadErrors p n) := by
  have events (n : Nat) (s : State) : Touches p 5 s { s with alarm := s.alarm.memoryEvents s.counter p n } := by
    induction n generalizing s with
    | zero => exact .refl p 5 s
    | succ n ih => exact (touches_event s.counter p 5 s).trans (ih { s with alarm := s.alarm.event s.counter (progPoint 5 p) })
  exact (events n s).trans (touches_memory _)

theorem takeBypass_silentRun (on : Bool) (x : Program) : (x.takeBypass on).loud.silentRun = x.loud.silentRun := by
  by_cases same : x.align.applied = on
  · rw [takeBypass_same same]
  · rw [(bypassMoved_take (Ne.symm same)).record]

theorem touches_handBypass (shown : s.PointsShown p) : Touches p k s (s.handBypass p) :=
  touches_progStep shown (fun x => takeBypass_seen x asked_audioBlind _) (takeBypass_silentRun _)

theorem pointsShown_countReadErrors (p : Fin 16) (n : Nat) (h : s.PointsShown q) :
    (s.countReadErrors p n).PointsShown q :=
  (countReadErrors_reach p n s).keeps (P := fun u => u.PointsShown q) (fun _ _ => pointsShown_own q) h

/-- A ring read of a program under the bypass that has been handed over, with its read errors. -/
def State.readUnder (p : Fin 16) (y : Program) (s : State) : State :=
  ((s.handBypass p).setProgram p (some (y.formDelayed s.dram s.stuck s.counter.toNat).1)).countReadErrors p
    (y.formDelayed s.dram s.stuck s.counter.toNat).2

theorem pointsShown_readUnder (shown : s.PointsShown p) (after : (s.handBypass p).program p = some y) :
    (s.readUnder p y).PointsShown p :=
  pointsShown_countReadErrors _ _ (pointsShown_setProgram after (audioOnly_formDelayed ..).condition
    (pointsShown_progStep shown))

theorem touches_readRing (shown : s.PointsShown p) : Touches p 5 s (s.readRing p) := by
  have handed : Touches p 5 s (s.handBypass p) := touches_handBypass shown
  unfold State.readRing
  dsimp only
  split
  · next x y before after =>
    have seen := formDelayed_seen y asked_audioBlind s.dram s.stuck s.counter.toNat
    have record := touches_record (k := 5) after seen
    split
    · have asked := handed.asked
      rw [before, after, Option.map_some, Option.map_some, Option.some.injEq] at asked
      have read : ((y.formDelayed s.dram s.stuck s.counter.toNat).1.takeRead x).seen Channel.asked =
          x.seen Channel.asked := seen.trans asked
      exact (touches_record before read).trans (touches_countReadErrors ..)
    · exact ((handed.trans record).trans (touches_countReadErrors ..)).trans
        (touches_handBypass (pointsShown_readUnder shown after))
  · exact .refl p 5 s

/-! ## The output -/

theorem touches_overEvent (p : Fin 16) (c : Fin 8) (s : State) : Touches p 1 s (s.overEvent p c) := by
  unfold State.overEvent
  split
  · exact .refl p 1 s
  · next x defined =>
    split
    · have cleared : Touches p 1 s (s.setProgram p (some (x.atChannel c.val Channel.clearOver))) :=
        touches_record defined (atChannel_seen c.val x asked_audioBlind.cleared)
      exact cleared.trans (touches_event s.counter p 1 _)
    · exact .refl p 1 s

theorem touches_overEvents (p : Fin 16) (s : State) : Touches p 1 s (s.overEvents p) :=
  forAll_rel (.refl p 1) (fun _ _ _ => .trans) _ (touches_overEvent p) s

theorem touches_outputUnder (p : Fin 16) (s : State) : Touches p 1 s (s.outputUnder p) := by
  unfold State.outputUnder
  split
  · exact .refl p 1 s
  · exact (touches_record ‹_› (formOutputs_seen _ asked_audioBlind ..)).trans (touches_overEvents p _)

theorem takePad_record (on : Bool) (x : Program) : x.takePad on = { x with out := (x.takePad on).out } := by
  by_cases same : x.out.pad = if on then -100 else 0
  · rw [takePad_same same]
  · rw [takePad_other same]
    rfl

theorem touches_padded (shown : s.PointsShown p) (on : Bool) : Touches p k s (s.padded p on) :=
  touches_progStep shown (fun x => takePad_seen x Channel.asked on) fun x => by rw [takePad_record]

/-- Records of one program that show the same channels take each other's over runs. -/
theorem takeOver_seen (same : y.seen Channel.asked = x.seen Channel.asked) :
    Program.seen Channel.asked { y with channels := List.zipWith Channel.takeOver x.channels y.channels } =
      y.seen Channel.asked := by
  have asked : y.channels.map Channel.asked = x.channels.map Channel.asked := congrArg Prod.snd same
  refine congrArg (_, ·) (List.ext_getElem? fun i => ?_)
  rw [List.getElem?_map, List.getElem?_zipWith, List.getElem?_map]
  have at_ := congrArg (·[i]?) asked
  simp only [List.getElem?_map] at at_
  cases there : y.channels[i]? with
  | none => cases x.channels[i]? <;> rfl
  | some ch =>
    rw [there] at at_
    cases here : x.channels[i]? with
    | none =>
      rw [here] at at_
      cases at_
    | some w => rfl

theorem touches_overThenPad {padded handed : State} (first : Touches p 1 s padded) (second : Touches p 1 s handed) :
    Touches p 1 s (padded.overThenPad p handed) := by
  unfold State.overThenPad
  split
  · next x y overs pad =>
    have same := first.asked.trans second.asked.symm
    rw [pad, overs, Option.map_some, Option.map_some, Option.some.injEq] at same
    exact second.trans (touches_record overs ((takeOver_seen same).trans same))
  · exact second

theorem touches_formOutput (shown : s.PointsShown p) : Touches p 1 s (s.formOutput p) := by
  have under (on : Bool) : Touches p 1 s ((s.padded p on).outputUnder p) :=
    (touches_padded shown on).trans (touches_outputUnder p _)
  obtain e | e | e := formOutput_cases p s
  · rw [e]
    exact under _
  · rw [e]
    exact under true
  · rw [e]
    exact touches_overThenPad (under true) (under _)

end Sys2Proof.Machine

end

section
/-! PROOF. Events and protections (O6): what an event makes of its point looks at the point and the settings alone, and
an event removes no protection. -/

namespace Sys2Proof.Machine

variable {a b : AlarmUnit} {pt : Fin 118} {now : Time} {p : Fin 16}

/-- Two states of the Alarm Unit that are alike at a point. -/
structure AlikeAt (pt : Fin 118) (a b : AlarmUnit) : Prop where
  point : a.point pt = b.point pt
  kinds : a.kinds = b.kinds

theorem AlikeAt.settingsOf (h : AlikeAt pt a b) : a.settingsOf pt = b.settingsOf pt := by
  simp only [AlarmUnit.settingsOf, AlarmUnit.kind, h.kinds]

theorem AlikeAt.setPoint (h : AlikeAt pt a b) {x y : Point} (same : x = y) : AlikeAt pt (a.setPoint pt x) (b.setPoint pt y) :=
  ⟨by rw [AlarmUnit.point_setPoint, AlarmUnit.point_setPoint, same], h.kinds⟩

theorem AlikeAt.enterNotice (h : AlikeAt pt a b) : AlikeAt pt (a.enterNotice now pt) (b.enterNotice now pt) := by
  refine ⟨?_, ?_⟩
  · rw [enterNotice_point, enterNotice_point, AlarmUnit.point_setPoint, AlarmUnit.point_setPoint, h.point]
  · rw [(keepsSettings_enterNotice ..).kinds, (keepsSettings_enterNotice ..).kinds, h.kinds]

theorem AlikeAt.annunciate (h : AlikeAt pt a b) (x : Annunciation) :
    AlikeAt pt (a.annunciate now pt x) (b.annunciate now pt x) := by
  rw [AlarmUnit.annunciate, AlarmUnit.annunciate, h.point]
  split
  · exact h
  · exact (h.setPoint rfl).enterNotice

theorem AlikeAt.protectIfMay (h : AlikeAt pt a b) : AlikeAt pt (a.protectIfMay now pt) (b.protectIfMay now pt) := by
  rw [AlarmUnit.protectIfMay, AlarmUnit.protectIfMay, AlarmUnit.mayProtect, AlarmUnit.mayProtect, h.settingsOf]
  split
  · rw [AlarmUnit.protect, AlarmUnit.protect, h.point]
    split
    · exact h
    · exact (h.setPoint rfl).enterNotice
  · exact h

theorem AlikeAt.rise (h : AlikeAt pt a b) : AlikeAt pt (a.rise now pt) (b.rise now pt) := by
  rw [AlarmUnit.rise, AlarmUnit.rise, h.point]
  exact ((h.setPoint rfl).annunciate _).protectIfMay

theorem AlikeAt.event (h : AlikeAt pt a b) : AlikeAt pt (a.event now pt) (b.event now pt) := by
  rw [AlarmUnit.event, AlarmUnit.event, h.settingsOf, h.point]
  split
  · exact h.setPoint rfl
  · split
    · split
      · exact h.setPoint rfl
      · exact (h.setPoint rfl).protectIfMay
    · exact (h.setPoint rfl).rise

theorem AlikeAt.memoryEvents (n : Nat) (h : AlikeAt (progPoint 5 p) a b) :
    AlikeAt (progPoint 5 p) (a.memoryEvents now p n) (b.memoryEvents now p n) := by
  induction n generalizing a b with
  | zero => exact h
  | succ n ih => exact ih h.event

/-! ## An event removes no protection (R163) -/

theorem enterNotice_applied (now : Time) (pt : Fin 118) (a : AlarmUnit) :
    ((a.enterNotice now pt).point pt).applied = (a.point pt).applied := by
  rw [enterNotice_point, AlarmUnit.point_setPoint]

theorem annunciate_applied (now : Time) (pt : Fin 118) (x : Annunciation) (a : AlarmUnit) :
    ((a.annunciate now pt x).point pt).applied = (a.point pt).applied := by
  unfold AlarmUnit.annunciate
  split
  · rfl
  · rw [enterNotice_applied, AlarmUnit.point_setPoint]

theorem protectIfMay_applied (applied : (a.point pt).applied = true) :
    ((a.protectIfMay now pt).point pt).applied = true := by
  unfold AlarmUnit.protectIfMay
  split
  · rw [AlarmUnit.protect, if_pos applied]
    exact applied
  · exact applied

theorem event_applied (applied : (a.point pt).applied = true) : ((a.event now pt).point pt).applied = true := by
  have set (x : Point) (h : x.applied = true) : ((a.setPoint pt x).point pt).applied = true := by
    rw [AlarmUnit.point_setPoint, h]
  have raised (u : AlarmUnit) (h : (u.point pt).applied = true) : ((u.rise now pt).point pt).applied = true := by
    refine protectIfMay_applied ?_
    rw [annunciate_applied, AlarmUnit.point_setPoint]
    exact h
  unfold AlarmUnit.event
  dsimp only
  split
  · exact set _ applied
  · split
    · split
      · exact set _ applied
      · exact protectIfMay_applied (set _ applied)
    · exact raised _ (set _ applied)

end Sys2Proof.Machine

end

section
/-! PROOF. Protections follow their points (O6): the bypass after the ring is read, the pad after the output. -/

namespace Sys2Proof.Machine

variable {s t : State} {p q : Fin 16} {k : Fin 6} {x y : Program} {on : Bool}

/-! ## The records that stand -/

/-- The record that an operation leaves: what it makes of the record before, as it is or as it stands in its place. -/
theorem progStep_record {f : Program → Program} (stands : (s.progStep p f).program p = some y) :
    ∃ x, s.program p = some x ∧ (y = f x ∨ y = Program.standing s.counter x (f x)) := by
  cases defined : s.program p with
  | none =>
    rw [progStep_vacant defined, defined] at stands
    cases stands
  | some x =>
    refine ⟨x, rfl, ?_⟩
    by_cases same : f x = x
    · rw [progStep_same defined same, defined] at stands
      exact .inl ((Option.some.inj stands).symm.trans same.symm)
    · rw [progStep_put defined same, putProgram_program] at stands
      exact .inr (Option.some.inj stands).symm

theorem standing_applied (now : Time) (x z : Program) : (Program.standing now x z).align.applied = z.align.applied := by
  rw [standing_eq]

theorem setApplied_pad (v : Int) (x : Program) : (x.setApplied v).out.pad = x.out.pad := by
  unfold Program.setApplied Program.retotal
  dsimp only
  split <;> rfl

theorem applyDue_pad (now : Time) (x : Program) : (x.applyDue now).out.pad = x.out.pad := by
  unfold Program.applyDue
  dsimp only
  split
  · rfl
  · exact setApplied_pad ..

theorem standing_pad (now : Time) (x z : Program) : (Program.standing now x z).out.pad = z.out.pad := by
  rw [standing_eq]
  dsimp only
  split
  · rfl
  · exact applyDue_pad ..

/-! ## The delay bypass (R137, R138) -/

/-- A program's bypass is what its PROG_MEMORY point says. -/
def State.BypassFollows (p : Fin 16) (s : State) : Prop :=
  ∀ y, s.program p = some y → y.align.applied = (s.alarm.point (progPoint 5 p)).applied

theorem takeBypass_applied (on : Bool) (x : Program) : (x.takeBypass on).align.applied = on := by
  by_cases same : x.align.applied = on
  · rw [takeBypass_same same, same]
  · rw [(bypassMoved_take (Ne.symm same)).applied]
    exact (Bool.eq_not.2 (Ne.symm same)).symm

/-- A stage with the events of one kind leaves the points of the others that are no state kinds. -/
theorem Touches.point (h : Touches p k s t) {j : Fin 6} (other : j ∉ [k, 2, 3, 4]) :
    t.alarm.point (progPoint j p) = s.alarm.point (progPoint j p) :=
  h.points _ fun _ listed same => other ((progPoint_inj.1 same).1 ▸ listed)

theorem bypassFollows_handBypass (shown : s.PointsShown p) : (s.handBypass p).BypassFollows p := by
  intro y stands
  have point := (touches_handBypass (k := 1) shown).point (j := 5) (by decide)
  obtain ⟨x, _, rfl | rfl⟩ := progStep_record stands
  · rw [point, takeBypass_applied]
  · rw [point, standing_applied, takeBypass_applied]

/-- The branches of a ring read: the errors apply again what has been removed, or the bypass is handed over after it. -/
theorem readRing_cases (before : s.program p = some x) : ∃ y, (s.handBypass p).program p = some y ∧ s.readRing p =
    if x.align.applied && !y.align.applied && ((s.readUnder p y).alarm.point (progPoint 5 p)).applied then
      (s.setProgram p (some ((y.formDelayed s.dram s.stuck s.counter.toNat).1.takeRead x))).countReadErrors p
        (y.formDelayed s.dram s.stuck s.counter.toNat).2
    else (s.readUnder p y).handBypass p := by
  obtain ⟨y, stands⟩ : ∃ y, (s.handBypass p).program p = some y := by
    by_cases same : x.takeBypass (s.alarm.point (progPoint 5 p)).applied = x
    · exact ⟨x, by rw [State.handBypass, progStep_same before same, before]⟩
    · exact ⟨_, by rw [State.handBypass, progStep_put before same, putProgram_program]⟩
  refine ⟨y, stands, ?_⟩
  simp only [State.readRing, before, stands]
  rfl

theorem readRing_vacant (vacant : s.program p = none) : s.readRing p = s := by
  simp only [State.readRing, vacant]

theorem bypassFollows_readRing (shown : s.PointsShown p) : (s.readRing p).BypassFollows p := by
  cases before : s.program p with
  | none =>
    rw [readRing_vacant before]
    intro y stands
    rw [before] at stands
    cases stands
  | some x =>
    obtain ⟨y, after, read⟩ := readRing_cases before
    rw [read]
    split
    · next again =>
      rw [Bool.and_eq_true, Bool.and_eq_true] at again
      obtain ⟨⟨applied, _⟩, point⟩ := again
      intro z stands
      obtain rfl : (y.formDelayed s.dram s.stuck s.counter.toNat).1.takeRead x = z :=
        Option.some.inj ((State.program_setProgram s p _).symm.trans stands)
      have handed := touches_handBypass (k := 1) shown
      have alike : AlikeAt (progPoint 5 p) (s.handBypass p).alarm s.alarm :=
        ⟨handed.point (by decide), handed.settings.kinds⟩
      have events := (alike.memoryEvents (now := s.counter)
        (y.formDelayed s.dram s.stuck s.counter.toNat).2).point
      have counter : (s.handBypass p).counter = s.counter := (keepsOutside_handBypass p s).counter
      refine (applied : x.align.applied = true).trans ?_
      rw [← point]
      refine congrArg Point.applied ?_
      show ((s.handBypass p).alarm.memoryEvents (s.handBypass p).counter p _).point (progPoint 5 p) = _
      rw [counter, events]
      rfl
    · exact bypassFollows_handBypass (pointsShown_readUnder shown after)

/-- A bypass removed earlier in the house sample and applied again by the read errors of it reaches the program as no
change (R166). -/
theorem readRing_again (shown : s.PointsShown p) (before : s.program p = some x) (applied : x.align.applied = true)
    (removed : (s.alarm.point (progPoint 5 p)).applied = false)
    (again : ((s.readRing p).alarm.point (progPoint 5 p)).applied = true) :
    ∃ y, (s.readRing p).program p = some y ∧ y.align = x.align ∧ y.out = x.out ∧ y.state = x.state := by
  obtain ⟨y, after, read⟩ := readRing_cases before
  have given : y.align.applied = false := by
    rw [bypassFollows_handBypass shown y after, (touches_handBypass (k := 1) shown).point (by decide), removed]
  rw [read] at again ⊢
  split at again
  · next back =>
    rw [if_pos back]
    exact ⟨_, State.program_setProgram .., rfl, rfl, rfl⟩
  · next still =>
    rw [(touches_handBypass (k := 1) (pointsShown_readUnder shown after)).point (by decide)] at again
    exact absurd (by rw [applied, given, again]; rfl) still

/-! ## The pad (R146) -/

/-- A program's pad is what its PROG_OVER point says. -/
def State.PadFollows (p : Fin 16) (s : State) : Prop :=
  ∀ y, s.program p = some y → y.out.pad = if (s.alarm.point (progPoint 1 p)).applied then -100 else 0

/-- What the forming of outputs leaves of a record. -/
def Program.aside (x : Program) : OutStage × Align × ProgState := (x.out, x.align, x.state)

theorem formOutputs_aside (threshold count : Nat) (x : Program) : (x.formOutputs threshold count).aside = x.aside := by
  unfold Program.formOutputs
  split <;> rfl

theorem overEvent_aside (p : Fin 16) (c : Fin 8) (s : State) :
    ((s.overEvent p c).program p).map Program.aside = (s.program p).map Program.aside := by
  unfold State.overEvent
  split
  · rfl
  · next x defined =>
    split
    · rw [defined]
      exact (congrArg (Option.map Program.aside)
        (State.program_setProgram s p (some (x.atChannel c.val Channel.clearOver))) :)
    · rfl

theorem outputUnder_aside (p : Fin 16) (s : State) :
    ((s.outputUnder p).program p).map Program.aside = (s.program p).map Program.aside := by
  unfold State.outputUnder
  split
  · rfl
  · next x defined =>
    refine (forAll_rel (R := fun u w => (w.program p).map Program.aside = (u.program p).map Program.aside)
      (fun _ => rfl) (fun _ _ _ h l => l.trans h) _ (overEvent_aside p) _).trans ?_
    rw [State.program_setProgram, defined, Option.map_some, Option.map_some, formOutputs_aside]

theorem outputUnder_applied (applied : s.padApplied p = true) : (s.outputUnder p).padApplied p = true := by
  unfold State.outputUnder
  split
  · exact applied
  · refine forAll_keeps (P := fun u => u.padApplied p = true) _ (fun c u h => ?_) applied
    unfold State.overEvent
    split
    · exact h
    · split
      · exact event_applied h
      · exact h

theorem takePad_pad (on : Bool) (x : Program) : (x.takePad on).out.pad = if on then -100 else 0 := by
  by_cases same : x.out.pad = if on then -100 else 0
  · rw [takePad_same same, same]
  · rw [takePad_other same]
    rfl

/-- A program that has been given its pad, or lost it, holds what it has been given. -/
theorem padded_pad (stands : (s.padded p on).program p = some y) : y.out.pad = if on then -100 else 0 := by
  obtain ⟨x, _, rfl | rfl⟩ := progStep_record stands
  · exact takePad_pad on x
  · rw [standing_pad, takePad_pad]

/-- The record after the output under a pad, by the record before it. -/
theorem outputUnder_record (stands : (s.outputUnder p).program p = some y) :
    ∃ x, s.program p = some x ∧ y.aside = x.aside := by
  have aside := outputUnder_aside p s
  rw [stands] at aside
  obtain ⟨x, defined, same⟩ := Option.map_eq_some_iff.1 aside.symm
  exact ⟨x, defined, same.symm⟩

theorem under_pad (stands : ((s.padded p on).outputUnder p).program p = some y) :
    y.out.pad = if on then -100 else 0 := by
  obtain ⟨x, defined, same⟩ := outputUnder_record stands
  rw [← padded_pad defined]
  exact congrArg OutStage.pad (congrArg Prod.fst same)

/-- The over runs of the outputs without the pad leave the record of those with it. -/
theorem overThenPad_record {padded handed : State} {x y : Program} (overs : handed.program p = some x)
    (pad : padded.program p = some y) :
    ∃ z, (padded.overThenPad p handed).program p = some z ∧ z.aside = y.aside := by
  rw [State.overThenPad, overs, pad]
  exact ⟨_, State.program_setProgram .., rfl⟩

theorem overThenPad_alarm (p : Fin 16) (padded handed : State) : (padded.overThenPad p handed).alarm = handed.alarm := by
  unfold State.overThenPad
  split <;> rfl

/-- A stage that keeps what the demands are worked out from keeps a program's record, whatever is in it. -/
theorem Touches.defined (h : Touches p k s t) (defined : s.program p = some x) : ∃ y, t.program p = some y := by
  have asked := h.asked
  rw [defined] at asked
  obtain ⟨y, stands, _⟩ := Option.map_eq_some_iff.1 asked
  exact ⟨y, stands⟩

theorem Touches.vacant (h : Touches p k s t) (vacant : s.program p = none) : t.program p = none := by
  have asked := h.asked
  rw [vacant] at asked
  exact Option.map_eq_none_iff.1 asked

theorem touches_under (shown : s.PointsShown p) (on : Bool) : Touches p 1 s ((s.padded p on).outputUnder p) :=
  (touches_padded shown on).trans (touches_outputUnder p _)

theorem padded_padApplied (shown : s.PointsShown p) (on : Bool) : (s.padded p on).padApplied p = s.padApplied p :=
  congrArg Point.applied ((touches_padded (k := 5) shown on).point (by decide))

theorem padFollows_formOutput (shown : s.PointsShown p) : (s.formOutput p).PadFollows p := by
  cases before : s.program p with
  | none =>
    intro y stands
    rw [(touches_formOutput shown).vacant before] at stands
    cases stands
  | some x =>
    unfold State.formOutput
    dsimp only
    split
    · next held =>
      intro y stands
      have handed : (((s.handPad p).outputUnder p).alarm.point (progPoint 1 p)).applied = true :=
        outputUnder_applied ((padded_padApplied shown _).trans held)
      rw [handed, under_pad stands, if_pos rfl]
      exact if_pos held
    · next free =>
      split
      · next again =>
        intro y stands
        have padded : (((s.padded p true).outputUnder p).alarm.point (progPoint 1 p)).applied = true :=
          (Bool.and_eq_true_iff.1 again).1
        rw [under_pad stands, padded]
      · split
        · next overs =>
          intro z stands
          obtain ⟨y, pad⟩ := (touches_under shown true).defined before
          obtain ⟨w, handed⟩ := (touches_under shown (s.alarm.point (progPoint 1 p)).applied).defined before
          obtain ⟨v, there, aside⟩ := overThenPad_record handed pad
          obtain rfl : z = v := Option.some.inj (stands.symm.trans there)
          have applied : (((s.handPad p).outputUnder p).alarm.point (progPoint 1 p)).applied = true := overs
          rw [overThenPad_alarm, applied]
          exact (congrArg OutStage.pad (congrArg Prod.fst aside)).trans (under_pad pad)
        · next quiet =>
          intro y stands
          have applied : (((s.handPad p).outputUnder p).alarm.point (progPoint 1 p)).applied = false :=
            Bool.eq_false_iff.2 quiet
          rw [under_pad stands, applied]
          exact if_neg free

/-- A pad removed earlier in the house sample and applied again by the overs of it reaches the program as no change
(R166). -/
theorem formOutput_again (shown : s.PointsShown p) (before : s.program p = some x) (pad : x.out.pad = -100)
    (removed : (s.alarm.point (progPoint 1 p)).applied = false)
    (again : ((s.formOutput p).alarm.point (progPoint 1 p)).applied = true) :
    ∃ y, (s.formOutput p).program p = some y ∧ y.out = x.out ∧ y.align = x.align ∧ y.state = x.state := by
  have still : s.padded p true = s := progStep_same before (takePad_same pad)
  have aside {y z : Program} (at_ : ((s.padded p true).outputUnder p).program p = some y) (same : z.aside = y.aside) :
      z.out = x.out ∧ z.align = x.align ∧ z.state = x.state := by
    rw [still] at at_
    obtain ⟨w, defined, kept⟩ := outputUnder_record at_
    obtain rfl : x = w := Option.some.inj (before.symm.trans defined)
    have all := same.trans kept
    exact ⟨congrArg (·.1) all, congrArg (·.2.1) all, congrArg (·.2.2) all⟩
  obtain ⟨y, padded⟩ := (touches_under shown true).defined before
  unfold State.formOutput at again ⊢
  dsimp only at again ⊢
  have free : ¬ s.padApplied p = true := Bool.eq_false_iff.1 removed
  rw [if_neg free] at again ⊢
  split at again
  · next both =>
    rw [if_pos both]
    exact ⟨y, padded, aside padded rfl⟩
  · next apart =>
    rw [if_neg apart]
    split at again
    · next overs =>
      rw [if_pos overs]
      obtain ⟨w, handed⟩ := (touches_under shown (s.alarm.point (progPoint 1 p)).applied).defined before
      obtain ⟨v, there, same⟩ := overThenPad_record handed padded
      exact ⟨v, there, aside padded same⟩
    · next quiet => exact absurd again quiet

end Sys2Proof.Machine

end

section
/-! PROOF. Protections follow their points through a period of the house clock (O6): the stages of the audio one after
another, and the house sample that opens. -/

namespace Sys2Proof.Machine

variable {s t u : State} {p q : Fin 16} {k : Fin 6} {x y : Program} {ch : Channel} {a b : AlarmUnit}

/-! ## The demands (R60) -/

/-- A program's demands are what the points and the contact inputs say. -/
def State.DemandsFollow (p : Fin 16) (s : State) : Prop :=
  ∀ y, s.program p = some y → ∀ ch ∈ y.channels, ch.demand = s.alarm.demandFor p ch

theorem reselect_asked (ch : Channel) : ch.reselect.asked = ch.asked := by
  rw [reselect_eq]
  rfl

theorem refreshDemand_asked (a : AlarmUnit) (p : Fin 16) (ch : Channel) :
    (ch.refreshDemand a p).asked = (ch.primary, a.demandFor p ch) := by
  rw [Channel.refreshDemand]
  by_cases same : a.demandFor p ch = ch.demand
  · simp only [same, if_true]
    rfl
  · simp only [same, if_false, reselect_asked]
    rfl

/-- A demand looks at the channel's primary alone. -/
theorem demandFor_of_primary {w : Channel} (same : ch.primary = w.primary) : a.demandFor p ch = a.demandFor p w := by
  rw [AlarmUnit.demandFor, AlarmUnit.demandFor, same]

theorem takeDemands_follow (mem : ch ∈ (x.takeDemands a p).channels) : ch.demand = a.demandFor p ch := by
  obtain ⟨w, _, rfl⟩ := List.mem_map.1 mem
  have asked := refreshDemand_asked a p w
  rw [demandFor_of_primary (w := w) (congrArg Prod.fst asked)]
  exact congrArg Prod.snd asked

theorem handDemands_alarm (shown : s.Shown) (p : Fin 16) : (s.handDemands p).alarm = s.alarm := by
  cases defined : s.program p with
  | none => rw [State.handDemands, progStep_vacant defined]
  | some x =>
    rw [handDemands_shown shown defined]
    rfl

theorem demandsFollow_handDemands (shown : s.Shown) : (s.handDemands p).DemandsFollow p := by
  intro y stands ch mem
  cases defined : s.program p with
  | none =>
    rw [State.handDemands, progStep_vacant defined, defined] at stands
    cases stands
  | some x =>
    rw [handDemands_alarm shown]
    rw [handDemands_shown shown defined, State.program_setProgram, Option.some.injEq] at stands
    subst stands
    exact takeDemands_follow mem

theorem shown_handDemands (p : Fin 16) (shown : s.Shown) : (s.handDemands p).Shown :=
  (handDemands_reach p s).reach.keeps (fun _ _ => shown_leaf) shown

theorem shown_handedDemands (shown : s.Shown) : (forAll allPrograms State.handDemands s).Shown :=
  forAll_keeps _ (fun p _ => shown_handDemands p) shown

theorem demandsFollow_handed (shown : s.Shown) (p : Fin 16) :
    (forAll allPrograms State.handDemands s).DemandsFollow p := by
  refine (forAll_reaches (P := State.Shown) (Q := fun u => u.Shown ∧ u.DemandsFollow p) (mem_allPrograms p)
    allPrograms_nodup (fun q u _ => shown_handDemands q)
    (fun u h => ⟨shown_handDemands p h, demandsFollow_handDemands h⟩) ?_ shown).2
  rintro q u apart ⟨h, follows⟩
  refine ⟨shown_handDemands q h, fun y stands => ?_⟩
  rw [handDemands_alarm h]
  exact follows y ((progStep_program_ne q p _ u apart).symm.trans stands)

/-! ## What a stage of one program leaves of what the programs follow -/

theorem Touches.demandFor (h : Touches q k s t) (event : k ≠ 0) : t.alarm.demandFor p ch = s.alarm.demandFor p ch := by
  have lane (j l : Fin 4) : t.alarm.point (lanePoint j l) = s.alarm.point (lanePoint j l) :=
    h.points _ fun i _ => lanePoint_ne_progPoint j l i q
  have silence : t.alarm.point (progPoint 0 p) = s.alarm.point (progPoint 0 p) := by
    refine h.points _ fun i listed same => ?_
    rw [(progPoint_inj.1 same).1, List.mem_cons] at listed
    obtain rfl | other := listed
    · exact event rfl
    · exact absurd other (by decide)
  rw [AlarmUnit.demandFor, AlarmUnit.demandFor, lane, lane, silence]
  simp only [AlarmUnit.forceCovers, AlarmUnit.contact, h.settings.contacts]

/-- Records that show the same channels are asked alike. -/
theorem asked_of_seen (same : y.seen Channel.asked = x.seen Channel.asked) (mem : ch ∈ y.channels) :
    ∃ w ∈ x.channels, w.asked = ch.asked := by
  have asked : y.channels.map Channel.asked = x.channels.map Channel.asked := congrArg Prod.snd same
  exact List.mem_map.1 (asked ▸ List.mem_map_of_mem mem)

theorem Touches.demandsFollow (h : Touches q k s t) (event : k ≠ 0) (follows : s.DemandsFollow p) :
    t.DemandsFollow p := by
  intro y stands ch mem
  rw [h.demandFor event]
  by_cases same : p = q
  · subst same
    have asked := h.asked
    rw [stands, Option.map_some] at asked
    obtain ⟨x, defined, seen⟩ := Option.map_eq_some_iff.1 asked.symm
    obtain ⟨w, there, alike⟩ := asked_of_seen seen.symm mem
    rw [← demandFor_of_primary (congrArg Prod.fst alike), ← follows x defined w there]
    exact (congrArg Prod.snd alike).symm
  · exact follows y ((h.others p same).symm.trans stands) ch mem

theorem Touches.bypassFollows (h : Touches q k s t) (apart : p ≠ q) (follows : s.BypassFollows p) :
    t.BypassFollows p := by
  intro y stands
  rw [h.points _ fun _ _ same => apart (progPoint_inj.1 same).2.symm]
  exact follows y ((h.others p apart).symm.trans stands)

theorem Touches.padFollows (h : Touches q k s t) (apart : p ≠ q) (follows : s.PadFollows p) : t.PadFollows p := by
  intro y stands
  rw [h.points _ fun _ _ same => apart (progPoint_inj.1 same).2.symm]
  exact follows y ((h.others p apart).symm.trans stands)

theorem under_applied {on : Bool} (stands : ((s.padded p on).outputUnder p).program p = some y) :
    ∃ x, s.program p = some x ∧ y.align.applied = x.align.applied := by
  obtain ⟨w, padded, same⟩ := outputUnder_record stands
  have applied : y.align.applied = w.align.applied := congrArg (fun r => r.2.1.applied) same
  obtain ⟨x, defined, rfl | rfl⟩ := progStep_record padded
  · exact ⟨x, defined, by rw [applied, takePad_record]⟩
  · exact ⟨x, defined, by rw [applied, standing_applied, takePad_record]⟩

/-- The output of a program leaves its bypass. -/
theorem formOutput_applied (shown : s.PointsShown p) (stands : (s.formOutput p).program p = some y) :
    ∃ x, s.program p = some x ∧ y.align.applied = x.align.applied := by
  obtain e | e | e := formOutput_cases p s
  · rw [e] at stands
    exact under_applied stands
  · rw [e] at stands
    exact under_applied stands
  · cases defined : s.program p with
    | none =>
      rw [(touches_formOutput shown).vacant defined] at stands
      cases stands
    | some x =>
      rw [e] at stands
      obtain ⟨v, pad⟩ := (touches_under shown true).defined defined
      obtain ⟨w, handed⟩ := (touches_under shown (s.alarm.point (progPoint 1 p)).applied).defined defined
      obtain ⟨z, there, aside⟩ := overThenPad_record handed pad
      obtain rfl : y = z := Option.some.inj (stands.symm.trans there)
      obtain ⟨r, before, applied⟩ := under_applied pad
      exact ⟨r, defined.symm.trans before, (congrArg (fun r => r.2.1.applied) aside).trans applied⟩

theorem bypassFollows_formOutput (shown : s.PointsShown q) (follows : s.BypassFollows p) :
    (s.formOutput q).BypassFollows p := by
  by_cases same : p = q
  · subst same
    intro y stands
    obtain ⟨x, defined, applied⟩ := formOutput_applied shown stands
    rw [applied, follows x defined, (touches_formOutput shown).point (by decide)]
  · exact (touches_formOutput shown).bypassFollows same follows

/-! ## The stages of the audio -/

/-- Every state point of every program is shown, and every demand follows. -/
structure State.Attends (s : State) : Prop where
  shown : ∀ q, s.PointsShown q
  demands : ∀ q, s.DemandsFollow q

theorem State.Attends.stage (h : s.Attends) (reach : OwnReach s t) (touches : Touches p k s t) (event : k ≠ 0) :
    t.Attends :=
  ⟨fun q => reach.keeps (P := fun u => u.PointsShown q) (fun _ _ => pointsShown_own q) (h.shown q),
    fun q => touches.demandsFollow event (h.demands q)⟩

theorem State.Attends.readRing (h : s.Attends) (p : Fin 16) : (s.readRing p).Attends :=
  h.stage (readRing_reach p s) (touches_readRing (h.shown p)) (by decide)

theorem State.Attends.formOutput (h : s.Attends) (p : Fin 16) : (s.formOutput p).Attends :=
  h.stage (OwnStep.output p).reach (touches_formOutput (h.shown p)) (by decide)

theorem State.Attends.interpolate (h : s.Attends) : s.interpolate.Attends := ⟨h.shown, h.demands⟩

/-- The demands handed over, the inputs taken and the rings written. -/
theorem attends_written (shown : s.Shown) : (forAll allPrograms State.writeRing
    (forAll allPrograms State.takeInput (forAll allPrograms State.handDemands s).interpolate)).Attends := by
  have handed : (forAll allPrograms State.handDemands s).Attends :=
    ⟨pointsShown_of_shown (shown_handedDemands shown), demandsFollow_handed shown⟩
  have inputs : (forAll allPrograms State.takeInput (forAll allPrograms State.handDemands s).interpolate).Attends :=
    forAll_keeps _ (fun p u h => h.stage (takeInput_reach p u) (touches_takeInput (k := 1) p u) (by decide)) handed.interpolate
  exact forAll_keeps _ (fun p u h => h.stage (writeRing_reach p u) (touches_writeRing (k := 1) p u) (by decide)) inputs

/-- The rings read: every bypass follows. -/
theorem bypassFollows_read (h : s.Attends) (p : Fin 16) : (forAll allPrograms State.readRing s).BypassFollows p := by
  refine (forAll_reaches (P := State.Attends) (Q := fun u => u.Attends ∧ u.BypassFollows p) (mem_allPrograms p)
    allPrograms_nodup (fun q u _ h => h.readRing q) (fun u h => ⟨h.readRing p, bypassFollows_readRing (h.shown p)⟩)
    ?_ h).2
  rintro q u apart ⟨h, follows⟩
  exact ⟨h.readRing q, (touches_readRing (h.shown q)).bypassFollows apart.symm follows⟩

/-- The outputs formed: every pad follows. -/
theorem padFollows_output (h : s.Attends) (p : Fin 16) : (forAll allPrograms State.formOutput s).PadFollows p := by
  refine (forAll_reaches (P := State.Attends) (Q := fun u => u.Attends ∧ u.PadFollows p) (mem_allPrograms p)
    allPrograms_nodup (fun q u _ h => h.formOutput q) (fun u h => ⟨h.formOutput p, padFollows_formOutput (h.shown p)⟩)
    ?_ h).2
  rintro q u apart ⟨h, follows⟩
  exact ⟨h.formOutput q, (touches_formOutput (h.shown q)).padFollows apart.symm follows⟩

/-- A program's demands, bypass and pad are what the points say. -/
structure State.Follows (p : Fin 16) (s : State) : Prop where
  demands : s.DemandsFollow p
  bypass : s.BypassFollows p
  pad : s.PadFollows p

theorem follows_formed (shown : s.Shown) (p : Fin 16) : s.formed.Follows p := by
  have written := attends_written shown
  have read := forAll_keeps (P := State.Attends) (f := State.readRing) allPrograms (fun q _ h => h.readRing q) written
  have outputs := forAll_keeps (P := fun u => u.Attends ∧ u.BypassFollows p) (f := State.formOutput) allPrograms
    (fun q _ ⟨attends, bypass⟩ => ⟨attends.formOutput q, bypassFollows_formOutput (attends.shown q) bypass⟩)
    ⟨read, bypassFollows_read written p⟩
  obtain ⟨attends, bypass⟩ := outputs
  exact ⟨attends.demands p, bypass, padFollows_output read p⟩

/-! ## The house sample that opens -/

/-- What the programs follow of the Alarm Unit. -/
structure SameSigns (a b : AlarmUnit) : Prop where
  point : ∀ pt, b.point pt = a.point pt
  contacts : b.contacts = a.contacts

theorem SameSigns.trans {c : AlarmUnit} (h : SameSigns a b) (l : SameSigns b c) : SameSigns a c :=
  ⟨fun pt => (l.point pt).trans (h.point pt), l.contacts.trans h.contacts⟩

theorem sameSigns_transmit (s : State) : SameSigns s.alarm s.transmit.alarm := by
  unfold State.transmit
  split
  · exact ⟨fun _ => rfl, rfl⟩
  · split
    · exact ⟨fun _ => rfl, rfl⟩
    · split
      · exact ⟨fun _ => rfl, rfl⟩
      · split <;> exact ⟨fun _ => rfl, rfl⟩

theorem SameSigns.demandFor (h : SameSigns a b) : b.demandFor p ch = a.demandFor p ch := by
  simp only [AlarmUnit.demandFor, AlarmUnit.forceCovers, AlarmUnit.contact, h.point, h.contacts]

/-- A house sample on, with the points as they were, what a program follows it still follows. -/
theorem State.Follows.tick (h : s.Follows p) (signs : SameSigns s.alarm t.alarm)
    (program : t.program p = (s.program p).map Program.tick) : t.Follows p := by
  have before {y : Program} (stands : t.program p = some y) : ∃ x, s.program p = some x ∧ x.tick = y :=
    Option.map_eq_some_iff.1 (program.symm.trans stands)
  refine ⟨fun y stands ch mem => ?_, fun y stands => ?_, fun y stands => ?_⟩
  · obtain ⟨x, defined, rfl⟩ := before stands
    obtain ⟨w, there, rfl⟩ := List.mem_map.1 mem
    rw [signs.demandFor]
    exact h.demands x defined w there
  · obtain ⟨x, defined, rfl⟩ := before stands
    rw [signs.point, ← h.bypass x defined]
    obtain ⟨_, _, _, _, applied⟩ := slewTick_kept { x.align with fade := x.align.fade.tick 480 }
    exact applied
  · obtain ⟨x, defined, rfl⟩ := before stands
    rw [signs.point, ← h.pad x defined]
    show (OutStage.rampTick _).pad = _
    unfold OutStage.rampTick
    split <;> rfl

theorem sameSigns_opened (pins : BitVec 4) (dram stuck : List Host.Cell) (u : State) :
    SameSigns u.alarm ({ u.latch.openSample pins with dram := dram, stuck := stuck } : State).alarm :=
  ⟨fun _ => rfl, rfl⟩

theorem sendEgress_program (p : Fin 16) (s : State) : s.sendEgress.program p = s.program p := rfl

theorem sendEgress_alarm (s : State) : s.sendEgress.alarm = s.alarm := rfl

/-- With no frame waiting the closing of a house sample ends with two looks of the transmitter. -/
theorem closeSample_transmits (empty : s.link.buffer = []) :
    s.closeSample = s.settle.serveLink.audio.transmit.transmit := by
  have settled := (sameClaims_reach (settle_reach s)).buffer.trans empty
  have served : s.settle.serveLink.link.buffer = [] := by
    rw [serveLink_empty settled]
    exact (looked_claims s.settle).buffer.trans settled
  exact serveLink_empty ((sameClaims_audio _).buffer.trans served)

theorem sameSigns_sent (u : State) : SameSigns u.alarm u.sendEgress.transmit.transmit.alarm := by
  have first : SameSigns u.alarm u.sendEgress.transmit.alarm := sendEgress_alarm u ▸ sameSigns_transmit u.sendEgress
  exact first.trans (sameSigns_transmit _)

theorem sameSigns_closeSample (empty : s.link.buffer = []) :
    SameSigns s.settle.serveLink.formed.alarm s.closeSample.alarm := by
  rw [closeSample_transmits empty, audio_eq]
  exact sameSigns_sent _

theorem follows_tick (pins : BitVec 4) (faults : List DramFault) (shown : s.Shown) (empty : s.link.buffer = [])
    (p : Fin 16) : (s.tick pins faults).Follows p := by
  have settled : s.settle.serveLink.Shown :=
    Reach.keeps (fun _ _ => shown_leaf) ((settle_reach s).reach.trans (serveLink_reach _)) shown
  have programs := (tick_opened pins faults s).programs p
  obtain ⟨_, _, closed⟩ := closeSample_empty empty
  rw [closed, audio_eq, sendEgress_program] at programs
  refine (follows_formed settled p).tick ?_ programs
  obtain ⟨dram, stuck, made⟩ := tick_eq pins faults s
  rw [made]
  exact (sameSigns_closeSample empty).trans (sameSigns_opened pins dram stuck s.closeSample)

end Sys2Proof.Machine

end

section
open Sys2Proof Sys2Proof.Machine

/-- Settles O6: the stages of the audio hand each protection over after the last event that can change its point; and what
a program makes of each protection is an equation per case. -/
theorem protectionsAreHandedOverAtTheEndOfTheSample :
    Obligations.ProtectionsAreHandedOverAtTheEndOfTheSample := by
  unfold Obligations.ProtectionsAreHandedOverAtTheEndOfTheSample
  intro demanded
  refine ⟨fun s pins faults shown empty => ⟨_, rfl, fun p y stands => ?_⟩, fun s p x shown defined => ?_,
    fun s p x shown defined => ⟨fun same => ?_, fun other => ?_⟩, fun s p x shown defined => ⟨fun same => ?_,
      fun other => ⟨onlyProgram_progStep .., ?_⟩⟩, fun s p x shown defined => ⟨?_, ?_⟩⟩
  · have follows := follows_tick pins faults shown empty p
    exact ⟨follows.demands y stands, follows.pad y stands, follows.bypass y stands⟩
  · rw [handDemands_shown shown defined, Program.takeDemands]
    exact congrArg (fun f => s.setProgram p (some { x with channels := x.channels.map f }))
      (funext fun ch => refreshDemand_eq s.alarm p ch)
  · exact progStep_same defined (takePad_same same)
  · have shows : ShowsAlike x (x.takePad (s.alarm.point (progPoint 1 p)).applied) := by
      rw [takePad_record]
      exact ⟨rfl, rfl, rfl⟩
    rw [← takePad_other other]
    exact progStep_shown shown defined shows
  · exact progStep_same defined (takeBypass_same same.symm)
  · obtain ⟨_, _, _, _, open_⟩ := programShown_some shown defined
    have moved := bypassMoved_take other
    have record := standing_eq s.counter x (x.takeBypass (s.alarm.point (progPoint 5 p)).applied)
    refine ⟨_, handBypass_standing defined open_, ?_, ?_, ?_, ?_, scheduleMoved_put moved.out,
      (handBypass_delayShort shown defined).trans moved.delayShort, fun before => ?_, fun before => ?_⟩
    iterate 4
      · rw [record, moved.record]
    · have taken : x.takeBypass (s.alarm.point (progPoint 5 p)).applied = x.applyBypass := by
        rw [takeBypass_other other, before]
        rfl
      obtain ⟨link, align⟩ := handBypass_applied defined taken
      rw [taken]
      refine ⟨link, fun idle onAir => ⟨(standing_channels ..).trans ?_, align.trans ?_⟩,
        fun ⟨offAir, begins⟩ => ⟨(standing_channels ..).trans ?_, (standing_lineDelay ..).trans ?_, align.trans ?_⟩,
        fun stands => ⟨(standing_channels ..).trans ?_, align.trans ?_⟩⟩
      iterate 2
        · rw [applyBypass_onAir idle onAir]
      · rw [applyBypass_offAir offAir begins]
        rfl
      · rw [applyBypass_offAir offAir begins]
        rfl
      · rw [applyBypass_offAir offAir begins]
      iterate 2
        · rw [applyBypass_stands stands]
    · have taken : x.takeBypass (s.alarm.point (progPoint 5 p)).applied = x.removeBypass := by
        rw [takeBypass_other other, if_pos before]
      rw [taken]
      refine ⟨fun entering onAir => ?_, fun inEffect onAir => ?_, fun begun offAir => ?_⟩
      · obtain ⟨link, align⟩ := handBypass_removed defined taken (by rw [entering]; exact Bypass.noConfusion) onAir
        refine ⟨link, (standing_channels ..).trans ?_, align.trans ?_⟩
        iterate 2
          · rw [removeBypass_entering entering onAir]
      · obtain ⟨link, align⟩ := handBypass_removed defined taken (by rw [inEffect]; exact Bypass.noConfusion) onAir
        refine ⟨link, (standing_channels ..).trans ?_, (standing_lineDelay ..).trans ?_, align.trans ?_⟩
        · rw [removeBypass_inEffect inEffect onAir]
        · rw [removeBypass_inEffect inEffect onAir]
          exact if_pos inEffect
        · rw [removeBypass_inEffect inEffect onAir]
      · have ended := handBypass_removed_offAir defined taken before begun offAir
        refine ⟨(standing_channels ..).trans ?_, (standing_lineDelay ..).trans ?_,
          (standing_align_settled (removeBypass_settled begun offAir)).trans ?_, ended⟩
        · rw [removeBypass_offAir begun offAir]
          rfl
        · rw [removeBypass_offAir begun offAir]
          exact Nat.mul_div_cancel _ (by decide)
        · rw [removeBypass_offAir begun offAir]
  · exact readRing_again (pointsShown_of_shown shown p) defined
  · exact formOutput_again (pointsShown_of_shown shown p) defined

end

section
/-! PROOF. The loudness settings stay within R90's ranges (O49): of the operations on a record only SET_LOUDNESS reaches
its settings, and it holds them. -/

namespace Sys2Proof.Machine

/-! ## What changes the settings of a record -/

section
variable (x : Program)

theorem setApplied_corr (v : Int) : (x.setApplied v).corr = x.corr := Program.retotal_corr _

theorem applyDue_corr (now : Time) : (x.applyDue now).corr = x.corr := by rw [applyDue_record]

theorem makeRoom_corr : x.makeRoom.corr = x.corr := by
  unfold Program.makeRoom
  split
  · split
    · exact setApplied_corr ..
    · rfl
  · rfl

theorem post_corr (now : Time) (block : Nat) : (x.post now block).corr = x.corr := by
  unfold Program.post
  dsimp only
  split
  · rfl
  · split
    · exact setApplied_corr ..
    · exact makeRoom_corr x

theorem retarget_corr (mode : ChangeMode) (value pprog : Nat) : (x.retarget mode value pprog).corr = x.corr := by
  rw [(retarget_motion mode value pprog x).record]
  rfl

theorem slewArrival_corr : x.slewArrival.corr = x.corr := by rw [slewArrival_eq]

theorem takeBypass_corr (on : Bool) : (x.takeBypass on).corr = x.corr := by
  by_cases same : on = x.align.applied
  · rw [takeBypass_same same.symm]
  · rw [(bypassMoved_take same).record]

end

/-- A block end leaves the settings of the correction (R92). -/
theorem Correction.endBlock_settings (valid : Bool) (st : Option Int) (block : Nat) (c : Correction) :
    (c.endBlock valid st block).settings = c.settings := by
  unfold Correction.endBlock
  split
  · rfl
  · rfl
  · split <;> rfl

theorem blockEnd_settings (now : Time) (x : Program) : (x.blockEnd now).corr.settings = x.corr.settings := by
  unfold Program.blockEnd
  dsimp only
  split
  · rfl
  · rw [post_corr, applyDue_corr]
    exact Correction.endBlock_settings ..

theorem setLoudness_settings (c : LoudSettings) (x : Program) : (x.setLoudness c).corr.settings = c := by
  unfold Program.setLoudness
  dsimp only
  rw [Program.retotal_corr]
  split <;> rfl

/-- An operation on a record leaves its loudness settings, or holds new ones within their ranges. -/
theorem ProgramStep.settings {lanes : Vector Lane 4} {f : Program → Program} (x : Program)
    (step : ProgramStep lanes f) :
    (f x).corr.settings = x.corr.settings ∨ ∃ c : LoudSettings, (f x).corr.settings = c.inRange := by
  have kept {y : Program} (same : y.corr = x.corr) :
      y.corr.settings = x.corr.settings ∨ ∃ c : LoudSettings, y.corr.settings = c.inRange := .inl (congrArg _ same)
  cases step with
  | setLoudness c => exact .inr ⟨c, setLoudness_settings ..⟩
  | blockEnd now => exact .inl (blockEnd_settings now x)
  | start =>
    rw [start_eq]
    split
    · exact kept rfl
    · split <;> exact kept rfl
  | stop =>
    unfold Program.stop
    split <;> exact kept rfl
  | onAirEnd =>
    unfold Program.onAirEnd
    split
    · exact kept rfl
    · split <;> exact kept rfl
  | changeoverSwitch c =>
    refine kept ?_
    unfold Program.changeoverSwitch
    split
    · split
      · exact retarget_corr ..
      · rfl
    · rfl
  | realignIf l =>
    dsimp only
    split
    · exact kept (retarget_corr ..)
    · exact kept rfl
  | takeDelay tag d => exact kept (retarget_corr ..)
  | stopDelay => exact kept ((retarget_corr ..).trans (slewArrival_corr x))
  | cutJump =>
    unfold Program.cutJump
    split <;> exact kept rfl
  | cutInEnd =>
    unfold Program.cutInEnd
    split <;> exact kept rfl
  | slewArrival => exact kept (slewArrival_corr x)
  | takeBypass on => exact kept (takeBypass_corr x on)
  | bypassSwitch =>
    unfold Program.bypassSwitch
    split
    · rw [bypassNow_eq]
      exact kept rfl
    · exact kept rfl
  | bypassFadeInEnd =>
    unfold Program.bypassFadeInEnd
    split <;> exact kept rfl
  | applyDue now => exact kept (applyDue_corr x now)
  | rampEnd =>
    unfold Program.rampEnd
    split <;> exact kept rfl
  | takePad on =>
    rw [takePad_record]
    exact kept rfl
  | mute flag =>
    unfold Program.mute
    split <;> exact kept rfl
  | muteEnd =>
    unfold Program.muteEnd
    split <;> exact kept rfl
  | takeModes | takeMode | takeSources | takeDemands | changeoverEnd | stepTrim | endTrimStep | resetIntegration | pause
  | judgeSilence => exact kept rfl

/-- Settings within R90's ranges stay within them, whatever is done to the record. -/
theorem settingsInRange_kept : RecordKept fun x => x.corr.settings.InRange where
  step x step h := by
    obtain same | ⟨c, held⟩ := step.settings x
    · rw [same]; exact h
    · rw [held]; exact c.inRange_holds
  dropDelay _ h := h
  audio audio h := by rw [audio.corr]; exact h
  standby _ h := h
  fresh _ _ _ _ _ := LoudSettings.default_holds
  tick h := h

end Sys2Proof.Machine

end

section
/-! PROOF. RESET_INTEGRATION, PAUSE_INTEGRATION, RESUME_INTEGRATION and SET_LOUDNESS (O49). -/

namespace Sys2Proof.Machine

variable {s : State} {p : Fin 16} {x y : Program} {tag b m : Byte} {f : LoudnessFields} {mode : LoudMode}

/-! ## An operation that leaves the conditions of its program -/

theorem handProgram_conditions (now : Time) (p : Fin 16) (x : Program) (a : AlarmUnit) : a.handProgram now p x =
    (((a.handRaw now (progPoint 0 p) (x.condition 0)).handRaw now (progPoint 2 p) (x.condition 2)).handRaw now
      (progPoint 3 p) (x.condition 3)).handRaw now (progPoint 4 p) (x.condition 4) := rfl

/-- The state points of a program show its record's conditions. -/
theorem shown_raw (shown : s.Shown) (defined : s.program p = some x) {k : Fin 6} (state : k ∈ stateKinds) :
    (s.alarm.point (progPoint k p)).raw = x.condition k :=
  (pointsShown_of_shown shown p k state).trans (condition_of_program defined k)

/-- The Alarm Unit that shows a record's conditions is handed the same ones again. -/
theorem handProgram_still (shown : s.Shown) (defined : s.program p = some x)
    (same : ∀ k, y.condition k = x.condition k) : s.alarm.handProgram s.counter p y = s.alarm := by
  have raw (k : Fin 6) (state : k ∈ stateKinds) := (shown_raw shown defined state).trans (same k).symm
  rw [handProgram_conditions, handRaw_same _ (raw 0 (by decide)), handRaw_same _ (raw 2 (by decide)),
    handRaw_same _ (raw 3 (by decide)), handRaw_same _ (raw 4 (by decide))]

/-- The record that stands, where the delay of an unsettled program is left alone. -/
theorem standing_sameDelay (now : Time) (unsettled : x.Unsettled) (align : y.align = x.align) :
    Program.standing now x y = y := by
  have line : y.lineDelay = x.lineDelay := by unfold Program.lineDelay; rw [align]
  have open_ : y.Unsettled := by unfold Program.Unsettled; rw [align]; exact unsettled
  rw [Program.standing, if_pos line, closeSettled_of_unsettled open_]

/-- A record whose delay stands is put in its place, and its conditions are handed over. -/
theorem putProgram_sameDelay (unsettled : x.Unsettled) (align : y.align = x.align) :
    s.putProgram p x y = { s.setProgram p (some y) with alarm := s.alarm.handProgram s.counter p y } := by
  have line : y.lineDelay = x.lineDelay := by unfold Program.lineDelay; rw [align]
  have open_ : y.Unsettled := by unfold Program.Unsettled; rw [align]; exact unsettled
  have put := State.program_setProgram s p (some y)
  rw [State.putProgram, if_pos line, settleDelay_unsettled put open_, State.handProgram, put]
  rfl

/-- In a state whose conditions are shown, an operation that leaves the delay replaces the record and hands its
conditions over. -/
theorem progStep_sameDelay {g : Program → Program} (shown : s.Shown) (defined : s.program p = some x)
    (align : (g x).align = x.align) : s.progStep p g
      = { s.setProgram p (some (g x)) with alarm := s.alarm.handProgram s.counter p (g x) } := by
  obtain ⟨_, _, _, _, unsettled⟩ := programShown_some shown defined
  by_cases still : g x = x
  · rw [progStep_same defined still, still, setProgram_self defined, handProgram_still shown defined fun _ => rfl]
  · rw [progStep_put defined still, putProgram_sameDelay unsettled align]

/-- Where it leaves the conditions too, nothing but the record changes. -/
theorem progStep_sameConditions {g : Program → Program} (shown : s.Shown) (defined : s.program p = some x)
    (align : (g x).align = x.align) (same : ∀ k, (g x).condition k = x.condition k) :
    s.progStep p g = s.setProgram p (some (g x)) := by
  rw [progStep_sameDelay shown defined align, handProgram_still shown defined same]
  rfl

/-! ## The integration (R82, R83) -/

/-- A record with another measurement of the same silence run has the same conditions. -/
theorem condition_sameRun (l : Loud) (run : l.silentRun = x.loud.silentRun) (k : Fin 6) :
    { x with loud := l }.condition k = x.condition k := by
  unfold Program.condition
  rw [run]
  rfl

/-- A request that changes the measurement of a program, its silence run apart. -/
theorem exec_measured {c : Instr} {r : Request} {g : Loud → Loud} (request : requestOf c = some (tag, r))
    (plain : opensOp r = false ∧ takesTag (requestKind r) = false) (free : s.LinkFree) (shown : s.Shown)
    (defined : s.program p = some x) (run : (g x.loud).silentRun = x.loud.silentRun)
    (answered : s.answer tag r = .ok (s.progStep p fun y => { y with loud := g y.loud })) :
    exec c s = .next ((s.setProgram p (some { x with loud := g x.loud })).replied (requestKind r) tag .ok []) := by
  rw [exec_answered request free plain.1 plain.2, answered,
    progStep_sameConditions shown defined rfl (condition_sameRun _ run)]
  rfl

/-! ## The settings (R90, R91) -/

theorem loudModeOfByte_none (outside : 3 ≤ m.toNat) : loudModeOfByte m = none := by
  simpa [loudModeOfByte] using outside

theorem loudModeOfByte_code (code : mode.code = m.toNat) : loudModeOfByte m = some mode := by
  unfold loudModeOfByte
  rw [← code]
  cases mode <;> rfl

theorem answer_setLoudness_refused (code : b.toNat = p.val) (defined : s.program p = some x) (outside : 3 ≤ m.toNat) :
    s.answer tag (.setLoudness b m f) = .refuse .badValue s := by
  show s.withProgram b _ = _
  rw [State.withProgram_some _ code defined, loudModeOfByte_none outside]

/-- A SET_LOUDNESS whose mode is in its list takes its settings, held in their ranges. -/
theorem answer_setLoudness (code : b.toNat = p.val) (defined : s.program p = some x) (listed : mode.code = m.toNat) :
    s.answer tag (.setLoudness b m f)
      = ⟨if (LoudSettings.ofFields mode f).inRange = .ofFields mode f then .ok else .clamped, [],
        s.progStep p (Program.setLoudness (LoudSettings.ofFields mode f).inRange)⟩ := by
  show s.withProgram b _ = _
  rw [State.withProgram_some _ code defined, loudModeOfByte_code listed]
  by_cases same : (LoudSettings.ofFields mode f).inRange = .ofFields mode f <;> simp [Result.ofHeld, same]

/-- The total output gain worked out again (R141, R143). -/
theorem retotal_eq (x : Program) : x.retotal = x.withPad x.out.pad := setPad_eq x.out.pad x

/-- R91: what the taking of settings makes of a record. -/
theorem setLoudness_eq (g : LoudSettings) (x : Program) : x.setLoudness g =
    let gain := max (-g.maxAttenuation) (min g.maxBoost x.corr.gain)
    let corr : Correction :=
      { x.corr with
        settings := g, gain := gain
        desired := if g.mode = .track then x.corr.desired else none
        gainLimit := if g.mode = .track then x.corr.gainLimit else false
        loud := match x.loud.shortTerm with
          | some st => decide (g.window < (st + gain - g.target).natAbs)
          | none => false }
    { x with corr := corr }.withPad x.out.pad := by
  unfold Program.setLoudness
  rw [retotal_eq]
  by_cases track : g.mode = .track
  · simp only [track, if_true, Correction.judgeLoud, Correction.isLoud]
    cases x.loud.shortTerm <;> rfl
  · simp only [track, if_false, Correction.judgeLoud, Correction.isLoud]
    cases x.loud.shortTerm <;> rfl

end Sys2Proof.Machine

end

section
open Sys2Proof Sys2Proof.Machine

/-- Settles O49: of the operations on a record only SET_LOUDNESS reaches its settings, which it holds in their ranges;
and what the four requests make of a record is an equation each. -/
theorem loudnessRequestsTakeEffect : Obligations.LoudnessRequestsTakeEffect := by
  unfold Obligations.LoudnessRequestsTakeEffect
  refine ⟨fun p x defined => reset_no_program defined, fun s t hs => settingsInRange_kept.step_keeps hs,
    fun s tag b p x free code defined => ⟨fun shown => ?_, fun m f outside => ?_, fun m f mode shown listed => ?_⟩⟩
  · exact ⟨exec_measured (g := Loud.resetIntegration s.counter) (r := .resetIntegration b) rfl ⟨rfl, rfl⟩ free shown
        defined rfl (State.withProgram_some _ code defined),
      exec_measured (g := fun l => { l with paused := true }) (r := .pauseIntegration b) rfl ⟨rfl, rfl⟩ free shown
        defined rfl (State.withProgram_some _ code defined),
      exec_measured (g := fun l => { l with paused := false }) (r := .resumeIntegration b) rfl ⟨rfl, rfl⟩ free shown
        defined rfl (State.withProgram_some _ code defined)⟩
  · exact exec_refused (r := .setLoudness b m f) rfl free rfl rfl (answer_setLoudness_refused code defined outside)
  · intro held g kept
    have same : (LoudSettings.ofFields mode f).inRange = .ofFields mode f ↔ kept := by
      simp [LoudSettings.inRange, LoudSettings.ofFields, kept, g, held, clampInt]
    have taken := setLoudness_eq g x
    obtain ⟨_, _, _, _, unsettled⟩ := programShown_some shown defined
    have align : (x.setLoudness g).align = x.align := by rw [taken]; rfl
    have stands : (s.progStep p (Program.setLoudness g)).program p = some (x.setLoudness g) := by
      rw [progStep_standing _ defined unsettled, standing_sameDelay _ unsettled align]
    have raw := fun k (state : k ∈ stateKinds) =>
      (pointsShown_progStep (f := Program.setLoudness g) (pointsShown_of_shown shown p) k state).trans
        (condition_of_program stands k)
    refine ⟨s.progStep p (Program.setLoudness g), x.setLoudness g, ?_, onlyProgram_progStep .., stands, ?_⟩
    · rw [exec_answered (r := .setLoudness b m f) rfl free rfl rfl, answer_setLoudness code defined listed]
      simp only [same]
      rfl
    · have loud := raw 2 (by decide)
      have limit := raw 3 (by decide)
      rw [taken] at loud limit ⊢
      refine ⟨rfl, rfl, rfl, rfl, rfl, ?_, loud, limit, rfl, rfl, rfl, rfl, rfl, rfl, rfl, ⟨rfl, rfl, ?_, ?_⟩, rfl⟩
      · dsimp only [Program.withPad]
        cases x.loud.shortTerm <;> rfl
      · exact fun moved => ⟨if_neg moved, if_neg moved, if_neg moved⟩
      · exact fun stays => ⟨if_pos stays, if_pos stays, if_pos stays⟩

end

section
/-! PROOF. What the Alarm Unit's operations on a point look at (O54, O56): the point's record, the kinds' settings, and
whether it is an event point. So an operation made once for each point of a list makes of a point what it makes of it
alone. -/

namespace Sys2Proof.Machine

variable {a b : AlarmUnit} {pt q : Fin 118} {now : Time}

/-! ## States of the Alarm Unit that are alike at a point -/

theorem AlikeAt.fall (h : AlikeAt pt a b) : AlikeAt pt (a.fall now pt) (b.fall now pt) := by
  rw [AlarmUnit.fall, AlarmUnit.fall, h.point]
  exact (h.setPoint rfl).annunciate _

theorem AlikeAt.protect (h : AlikeAt pt a b) (x : Bool) : AlikeAt pt (a.protect now pt x) (b.protect now pt x) := by
  rw [AlarmUnit.protect, AlarmUnit.protect, h.point]
  split
  · exact h
  · exact (h.setPoint rfl).enterNotice

theorem AlikeAt.handRaw (h : AlikeAt pt a b) (v : Bool) : AlikeAt pt (a.handRaw now pt v) (b.handRaw now pt v) := by
  rw [AlarmUnit.handRaw, AlarmUnit.handRaw, h.point]
  split
  · exact h
  · dsimp only
    split
    · exact (h.setPoint rfl).protectIfMay
    · exact h.setPoint rfl

/-- Two states of the Alarm Unit that are alike at a point, and take it alike for an event point or a state point. -/
structure AlikeIn (pt : Fin 118) (a b : AlarmUnit) : Prop extends AlikeAt pt a b where
  event : a.isEventPoint pt = b.isEventPoint pt

/-- Whether a point is an event point is a matter of the contacts' functions and senses (R152). -/
theorem isEventPoint_congr (same : ∀ c, (a.contact c).function = (b.contact c).function
    ∧ (a.contact c).edge = (b.contact c).edge) (pt : Fin 118) : a.isEventPoint pt = b.isEventPoint pt := by
  unfold AlarmUnit.isEventPoint
  split
  · dsimp only
    rw [(same _).1, (same _).2]
  · rfl

theorem isEventPoint_of_settings (h : KeepsSettings a b) (pt : Fin 118) : b.isEventPoint pt = a.isEventPoint pt :=
  isEventPoint_congr (fun c => by simp only [AlarmUnit.contact, h.contacts, and_self]) pt

theorem contact_of_settings (h : KeepsSettings a b) (c : Fin 4) : b.contact c = a.contact c := by
  simp only [AlarmUnit.contact, h.contacts]

theorem AlikeIn.refl (pt : Fin 118) (a : AlarmUnit) : AlikeIn pt a a := ⟨⟨rfl, rfl⟩, rfl⟩

theorem AlikeIn.trans {c : AlarmUnit} (h : AlikeIn pt a b) (k : AlikeIn pt b c) : AlikeIn pt a c :=
  ⟨⟨h.point.trans k.point, h.kinds.trans k.kinds⟩, h.event.trans k.event⟩

/-- What leaves a point and the settings leaves the state alike at the point. -/
theorem AlikeIn.of_point (point : b.point pt = a.point pt) (settings : KeepsSettings a b) : AlikeIn pt b a :=
  ⟨⟨point, settings.kinds⟩, isEventPoint_of_settings settings pt⟩

/-- States alike at a point stay so under an operation that makes the same of the point and keeps the settings. -/
theorem AlikeIn.step {f g : AlarmUnit} (h : AlikeIn pt a b) (alike : AlikeAt pt f g) (left : KeepsSettings a f)
    (right : KeepsSettings b g) : AlikeIn pt f g :=
  ⟨alike, (isEventPoint_of_settings left pt).trans (h.event.trans (isEventPoint_of_settings right pt).symm)⟩

/-! ## The judgement of a point -/

theorem keepsSettings_restPoint (now : Time) (pt : Fin 118) (a : AlarmUnit) : KeepsSettings a (a.restPoint now pt) := by
  unfold AlarmUnit.restPoint
  split
  · exact keepsSettings_setPoint ..
  · exact .refl a

theorem keepsSettings_filterRise (now : Time) (pt : Fin 118) (a : AlarmUnit) :
    KeepsSettings a (a.filterRise now pt) := by
  unfold AlarmUnit.filterRise
  split
  · exact keepsSettings_rise ..
  · exact .refl a

theorem keepsSettings_filterFall (now : Time) (pt : Fin 118) (a : AlarmUnit) :
    KeepsSettings a (a.filterFall now pt) := by
  unfold AlarmUnit.filterFall
  split
  · exact keepsSettings_fall ..
  · exact .refl a

theorem keepsSettings_retry (now : Time) (pt : Fin 118) (a : AlarmUnit) : KeepsSettings a (a.retry now pt) := by
  unfold AlarmUnit.retry
  split
  · exact keepsSettings_protect ..
  · exact .refl a

theorem AlikeIn.restPoint (h : AlikeIn pt a b) : AlikeIn pt (a.restPoint now pt) (b.restPoint now pt) := by
  refine h.step ?_ (keepsSettings_restPoint ..) (keepsSettings_restPoint ..)
  have due : a.restDue now pt = b.restDue now pt := by
    rw [AlarmUnit.restDue, AlarmUnit.restDue, h.event, h.point]
  rw [AlarmUnit.restPoint, AlarmUnit.restPoint, due, h.point]
  split
  · exact h.setPoint rfl
  · exact h.toAlikeAt

theorem AlikeIn.filterRise (h : AlikeIn pt a b) : AlikeIn pt (a.filterRise now pt) (b.filterRise now pt) := by
  refine h.step ?_ (keepsSettings_filterRise ..) (keepsSettings_filterRise ..)
  have due : a.riseDue now pt = b.riseDue now pt := by
    rw [AlarmUnit.riseDue, AlarmUnit.riseDue, h.event, h.point, h.settingsOf]
  rw [AlarmUnit.filterRise, AlarmUnit.filterRise, due]
  split
  · exact h.rise
  · exact h.toAlikeAt

theorem AlikeIn.filterFall (h : AlikeIn pt a b) : AlikeIn pt (a.filterFall now pt) (b.filterFall now pt) := by
  refine h.step ?_ (keepsSettings_filterFall ..) (keepsSettings_filterFall ..)
  have due : a.fallDue now pt = b.fallDue now pt := by
    rw [AlarmUnit.fallDue, AlarmUnit.fallDue, AlarmUnit.clearFrom, AlarmUnit.clearFrom, h.event, h.point, h.settingsOf]
  rw [AlarmUnit.filterFall, AlarmUnit.filterFall, due]
  split
  · exact h.fall
  · exact h.toAlikeAt

theorem AlikeIn.retry (h : AlikeIn pt a b) : AlikeIn pt (a.retry now pt) (b.retry now pt) := by
  refine h.step ?_ (keepsSettings_retry ..) (keepsSettings_retry ..)
  have due : a.retryDue now pt = b.retryDue now pt := by
    rw [AlarmUnit.retryDue, AlarmUnit.retryDue, h.point, h.settingsOf]
  rw [AlarmUnit.retry, AlarmUnit.retry, due]
  split
  · exact h.protect false
  · exact h.toAlikeAt

theorem AlikeIn.judge (h : AlikeIn pt a b) : AlikeIn pt (a.judge now pt) (b.judge now pt) :=
  h.restPoint.filterRise.filterFall.retry

theorem rise_point_ne (now : Time) (a : AlarmUnit) (ne : pt ≠ q) : (a.rise now pt).point q = a.point q := by
  unfold AlarmUnit.rise
  rw [protectIfMay_point_ne _ _ ne, annunciate_point_ne _ _ _ ne, AlarmUnit.point_setPoint_ne _ _ _ _ ne]

theorem fall_point_ne (now : Time) (a : AlarmUnit) (ne : pt ≠ q) : (a.fall now pt).point q = a.point q := by
  unfold AlarmUnit.fall
  rw [annunciate_point_ne _ _ _ ne, AlarmUnit.point_setPoint_ne _ _ _ _ ne]

theorem judge_point_ne (now : Time) (a : AlarmUnit) (ne : pt ≠ q) : (a.judge now pt).point q = a.point q := by
  have rest : (a.restPoint now pt).point q = a.point q := by
    unfold AlarmUnit.restPoint
    split
    · exact AlarmUnit.point_setPoint_ne _ _ _ _ ne
    · rfl
  have rises (u : AlarmUnit) : (u.filterRise now pt).point q = u.point q := by
    unfold AlarmUnit.filterRise
    split
    · exact rise_point_ne now u ne
    · rfl
  have falls (u : AlarmUnit) : (u.filterFall now pt).point q = u.point q := by
    unfold AlarmUnit.filterFall
    split
    · exact fall_point_ne now u ne
    · rfl
  have retries (u : AlarmUnit) : (u.retry now pt).point q = u.point q := by
    unfold AlarmUnit.retry
    split
    · exact protect_point_ne _ _ _ ne
    · rfl
  rw [AlarmUnit.judge, retries, falls, rises, rest]

/-! ## An operation made for each point of a list -/

/-- An operation on one point of the Alarm Unit: it keeps the settings and every other point, and makes the same of a
point wherever the Alarm Unit is alike there. -/
structure PointWork (f : AlarmUnit → Fin 118 → AlarmUnit) : Prop where
  settings : ∀ a pt, KeepsSettings a (f a pt)
  other : ∀ a pt q, pt ≠ q → (f a pt).point q = a.point q
  alike : ∀ a b pt, AlikeIn pt a b → (f a pt).point pt = (f b pt).point pt

namespace PointWork

variable {f : AlarmUnit → Fin 118 → AlarmUnit} (h : PointWork f)
include h

theorem fold_settings (l : List (Fin 118)) (a : AlarmUnit) : KeepsSettings a (l.foldl f a) := by
  induction l generalizing a with
  | nil => exact .refl a
  | cons pt rest ih => exact (h.settings a pt).trans (ih _)

theorem fold_other (l : List (Fin 118)) (a : AlarmUnit) (absent : pt ∉ l) : (l.foldl f a).point pt = a.point pt := by
  induction l generalizing a with
  | nil => rfl
  | cons q rest ih =>
    obtain ⟨ne, absent⟩ := not_or.1 (mt List.mem_cons.2 absent)
    exact (ih _ absent).trans (h.other a q pt (Ne.symm ne))

theorem fold_point {l : List (Fin 118)} (once : l.Nodup) (mem : pt ∈ l) (a : AlarmUnit) :
    (l.foldl f a).point pt = (f a pt).point pt := by
  induction l generalizing a with
  | nil => cases mem
  | cons q rest ih =>
    obtain ⟨fresh, once⟩ := List.nodup_cons.1 once
    by_cases same : pt = q
    · subst same
      exact h.fold_other rest _ fresh
    · have alike := h.alike _ _ pt (AlikeIn.of_point (h.other a q pt (Ne.symm same)) (h.settings a q))
      exact (ih once (List.mem_of_ne_of_mem same mem) _).trans alike

end PointWork

theorem judge_pointWork (now : Time) : PointWork (AlarmUnit.judge now) where
  settings a pt := keepsSettings_judge now pt a
  other a _ _ ne := judge_point_ne now a ne
  alike _ _ _ h := h.judge.point

/-- At an alarm boundary each of the 118 points is judged once. -/
theorem judgeAll_point (now : Time) (a : AlarmUnit) (pt : Fin 118) :
    (allPoints.foldl (AlarmUnit.judge now) a).point pt = (a.judge now pt).point pt :=
  (judge_pointWork now).fold_point (List.nodup_finRange 118) (List.mem_finRange pt) a

end Sys2Proof.Machine

end

section
/-! PROOF. The contact inputs read at an alarm boundary (O54, R171): each takes its reading, and its EXTERNAL point what
a change of its level brings. -/

namespace Sys2Proof.Machine

variable {a b : AlarmUnit} {c d : Fin 4} {pt : Fin 118} {now : Time}

theorem contact_setContact_ne (x : Contact) (ne : c ≠ d) : (a.setContact c x).contact d = a.contact d := by
  have apart : c.val ≠ d.val := fun e => ne (Fin.ext e)
  simp [AlarmUnit.contact, AlarmUnit.setContact, apart]

theorem externalPoint_inj : externalPoint c = externalPoint d ↔ c = d := by
  simp [externalPoint, Fin.ext_iff]

theorem keepsSettings_externalChange (now : Time) (c : Fin 4) (a : AlarmUnit) :
    KeepsSettings a (a.externalChange now c) := by
  unfold AlarmUnit.externalChange
  dsimp only
  split
  · split
    · split
      · exact keepsSettings_event ..
      · exact .refl a
    · exact keepsSettings_handRaw ..
  · exact .refl a

theorem externalChange_point_ne (ne : externalPoint c ≠ pt) : (a.externalChange now c).point pt = a.point pt := by
  unfold AlarmUnit.externalChange
  dsimp only
  split
  · split
    · split
      · exact event_point_ne _ _ ne
      · rfl
    · exact handRaw_point_ne _ _ _ ne
  · rfl

/-- What an input's reading leaves of the Alarm Unit: all but the input and its EXTERNAL point, the notices apart. -/
structure ContactRead (now : Time) (c : Fin 4) (a b : AlarmUnit) : Prop where
  kinds : b.kinds = a.kinds
  summaries : b.summaries = a.summaries
  pins : b.pins = a.pins
  silenceLevel : b.silenceLevel = a.silenceLevel
  boundaryTaken : b.boundaryTaken = a.boundaryTaken
  contact : b.contact c = (a.contact c).read (a.reading c)
  others : ∀ d, c ≠ d → b.contact d = a.contact d
  points : ∀ pt, externalPoint c ≠ pt → b.point pt = a.point pt

theorem contactRead (now : Time) (c : Fin 4) (a : AlarmUnit) : ContactRead now c a (a.readContact now c) := by
  generalize read : (a.contact c).read (a.reading c) = y
  have set : ContactRead now c a (a.setContact c y) :=
    ⟨rfl, rfl, rfl, rfl, rfl, (AlarmUnit.contact_setContact ..).trans read.symm,
      fun d ne => contact_setContact_ne y ne, fun _ _ => rfl⟩
  have made : a.readContact now c = a.setContact c y
      ∨ a.readContact now c = (a.setContact c y).externalChange now c := by
    unfold AlarmUnit.readContact
    dsimp only
    rw [read]
    exact ite_eq_or_eq ..
  obtain made | made := made
  · rw [made]
    exact set
  · have kept := keepsSettings_externalChange now c (a.setContact c y)
    rw [made]
    exact ⟨kept.kinds.trans set.kinds, kept.summaries.trans set.summaries, kept.pins.trans set.pins,
      kept.silenceLevel.trans set.silenceLevel, kept.boundaryTaken.trans set.boundaryTaken,
      by rw [← set.contact]; simp only [AlarmUnit.contact, kept.contacts],
      fun d ne => by rw [← set.others d ne]; simp only [AlarmUnit.contact, kept.contacts],
      fun pt ne => (externalChange_point_ne ne).trans (set.points pt ne)⟩

/-- What the reading of an input brings its EXTERNAL point (R171). -/
theorem readContact_point (now : Time) (c : Fin 4) (a : AlarmUnit) :
    let x := a.contact c
    let y := x.read (a.reading c)
    (a.readContact now c).point (externalPoint c) =
      (if x.function = .alarm ∧ y.level ≠ x.level then
        (if x.edge then (if y.level then a.event now (externalPoint c) else a)
         else a.handRaw now (externalPoint c) y.level)
       else a).point (externalPoint c) := by
  intro x y
  have alike : AlikeAt (externalPoint c) (a.setContact c y) a := ⟨rfl, rfl⟩
  have made : a.readContact now c = if y.level = x.level then a.setContact c y
      else (a.setContact c y).externalChange now c := rfl
  rw [made]
  by_cases same : y.level = x.level
  · rw [if_pos same, if_neg fun h => h.2 same]
    rfl
  · have function : y.function = x.function := rfl
    have edge : y.edge = x.edge := rfl
    rw [if_neg same, AlarmUnit.externalChange, AlarmUnit.contact_setContact, function, edge]
    by_cases alarm : x.function = .alarm
    · have changed : x.function = .alarm ∧ y.level ≠ x.level := ⟨alarm, same⟩
      rw [if_pos alarm, if_pos changed]
      by_cases sense : x.edge = true
      · rw [if_pos sense, if_pos sense]
        by_cases active : y.level = true
        · rw [if_pos active, if_pos active]
          exact alike.event.point
        · rw [if_neg active, if_neg active]
          rfl
      · rw [if_neg sense, if_neg sense]
        exact (alike.handRaw _).point
    · rw [if_neg alarm, if_neg fun h => alarm h.1]
      rfl

end Sys2Proof.Machine

end

section
/-! PROOF. The contact inputs read one after another (O54). -/

namespace Sys2Proof.Machine

variable {a b : AlarmUnit} {c : Fin 4} {pt : Fin 118} {now : Time} {l : List (Fin 4)}

theorem AlikeAt.refl (pt : Fin 118) (a : AlarmUnit) : AlikeAt pt a a := ⟨rfl, rfl⟩

/-- The reading of an input looks at the input, the pins, and its EXTERNAL point with its settings. -/
theorem readContact_alike (alike : AlikeAt (externalPoint c) a b) (contact : a.contact c = b.contact c)
    (pins : a.pins = b.pins) : (a.readContact now c).point (externalPoint c)
      = (b.readContact now c).point (externalPoint c) := by
  have reading : a.reading c = b.reading c := by rw [AlarmUnit.reading, AlarmUnit.reading, contact, pins]
  rw [readContact_point, readContact_point, contact, reading]
  split
  · split
    · split
      · exact alike.event.point
      · exact alike.point
    · exact (alike.handRaw _).point
  · exact alike.point

/-- The Alarm Unit with the contact inputs of a list read. -/
structure ContactsRead (now : Time) (l : List (Fin 4)) (a b : AlarmUnit) : Prop where
  kinds : b.kinds = a.kinds
  summaries : b.summaries = a.summaries
  pins : b.pins = a.pins
  silenceLevel : b.silenceLevel = a.silenceLevel
  boundaryTaken : b.boundaryTaken = a.boundaryTaken
  contacts : ∀ c, b.contact c = if c ∈ l then (a.contact c).read (a.reading c) else a.contact c
  external : ∀ c, b.point (externalPoint c) = (if c ∈ l then a.readContact now c else a).point (externalPoint c)
  points : ∀ pt, (∀ c, externalPoint c ≠ pt) → b.point pt = a.point pt

theorem contactsRead (now : Time) (l : List (Fin 4)) (once : l.Nodup) (a : AlarmUnit) :
    ContactsRead now l a (l.foldl (AlarmUnit.readContact now) a) := by
  induction l generalizing a with
  | nil => exact ⟨rfl, rfl, rfl, rfl, rfl, fun _ => rfl, fun _ => rfl, fun _ _ => rfl⟩
  | cons d rest ih =>
    obtain ⟨fresh, once⟩ := List.nodup_cons.1 once
    have first := contactRead now d a
    have later := ih once (a.readContact now d)
    rw [List.foldl_cons]
    generalize rest.foldl (AlarmUnit.readContact now) (a.readContact now d) = b at later
    refine ⟨later.kinds.trans first.kinds, later.summaries.trans first.summaries, later.pins.trans first.pins,
      later.silenceLevel.trans first.silenceLevel, later.boundaryTaken.trans first.boundaryTaken, fun c => ?_,
      fun c => ?_, fun pt other => (later.points pt other).trans (first.points pt (other d))⟩
    · rw [later.contacts]
      by_cases same : c = d
      · subst same
        rw [if_neg fresh, if_pos List.mem_cons_self, first.contact]
      · have reading : (a.readContact now d).reading c = a.reading c := by
          rw [AlarmUnit.reading, AlarmUnit.reading, first.others c (Ne.symm same), first.pins]
        rw [reading, first.others c (Ne.symm same)]
        simp only [List.mem_cons, same, false_or]
    · rw [later.external]
      by_cases same : c = d
      · subst same
        rw [if_neg fresh, if_pos List.mem_cons_self]
      · have apart : externalPoint d ≠ externalPoint c := fun e => same (externalPoint_inj.1 e).symm
        have alike : AlikeAt (externalPoint c) (a.readContact now d) a := ⟨first.points _ apart, first.kinds⟩
        simp only [List.mem_cons, same, false_or]
        split
        · exact readContact_alike alike (first.others c (Ne.symm same)) first.pins
        · exact alike.point

/-- The readings leave every point but the EXTERNAL ones as it was, and every point an event point that was one. -/
theorem ContactsRead.event (h : ContactsRead now l a b) (pt : Fin 118) : b.isEventPoint pt = a.isEventPoint pt :=
  isEventPoint_congr (fun c => by
    rw [h.contacts]
    split <;> exact ⟨rfl, rfl⟩) pt

end Sys2Proof.Machine

end

section
/-! PROOF. The programs at an alarm boundary (O54): their intervals judged (R86), and the integration of those reset
that an INTEGRATION_RESET input covers (R84). -/

namespace Sys2Proof.Machine

variable {s t u : State} {p q : Fin 16} {x : Program} {pt : Fin 118}

theorem shown_progStep {f : Program → Program} (step : ProgramStep s.lanes f) (shown : s.Shown) :
    (s.progStep p f).Shown := shown_leaf (.own (.program p step)) shown

/-! ## The silence of a program (R86) -/

/-- The silence run of a program after an alarm boundary (R86). -/
def Program.nextRun (now : Time) (level : Int) (x : Program) : Nat :=
  match x.loud.standbyAt with
  | some v =>
    if 480 ≤ since now v then (if belowLevel x.loud.peak level then min 65535 (x.loud.silentRun + 1) else 0)
    else x.loud.silentRun
  | none => x.loud.silentRun

theorem judgeSilence_eq (now : Time) (level : Int) (x : Program) :
    x.judgeSilence now level = { x with loud := { x.loud with silentRun := x.nextRun now level, peak := 0 } } := by
  unfold Program.judgeSilence Program.nextRun
  cases x.loud.standbyAt with
  | none => rfl
  | some v => simp only [decide_eq_true_eq, holdAt]

/-- A program handed over of whose conditions only the first may have changed. -/
theorem handProgram_silence {y : Program} (shown : s.Shown) (defined : s.program p = some x)
    (same : ∀ k, k ≠ 0 → y.condition k = x.condition k) :
    s.alarm.handProgram s.counter p y = s.alarm.handRaw s.counter (progPoint 0 p) (y.condition 0) := by
  have still (k : Fin 6) (state : k ∈ stateKinds) (other : k ≠ 0) :
      ((s.alarm.handRaw s.counter (progPoint 0 p) (y.condition 0)).point (progPoint k p)).raw = y.condition k := by
    rw [handRaw_point_ne _ _ _ fun e => other (progPoint_inj.1 e).1.symm, shown_raw shown defined state, same k other]
  rw [handProgram_conditions, handRaw_same _ (still 2 (by decide) (by decide)),
    handRaw_same _ (still 3 (by decide) (by decide)), handRaw_same _ (still 4 (by decide) (by decide))]

/-- A program whose interval has been judged, and its PROG_SILENCE handed its new condition. -/
theorem progStep_judgeSilence {level : Int} (shown : s.Shown) (defined : s.program p = some x) :
    s.progStep p (Program.judgeSilence s.counter level) =
      { s.setProgram p (some (x.judgeSilence s.counter level)) with
        alarm := s.alarm.handRaw s.counter (progPoint 0 p) (decide (1 ≤ x.nextRun s.counter level)) } := by
  have same := judgeSilence_eq s.counter level x
  have run : (x.judgeSilence s.counter level).condition 0 = decide (1 ≤ x.nextRun s.counter level) := by rw [same]; rfl
  have others (k : Fin 6) (other : k ≠ 0) : (x.judgeSilence s.counter level).condition k = x.condition k := by
    rw [same]
    unfold Program.condition
    split
    · exact absurd rfl other
    all_goals rfl
  rw [progStep_sameDelay shown defined (by rw [same]), handProgram_silence shown defined others, run]

/-- The state with the intervals of the programs judged so far: nothing else changes but the programs' measurements and
their PROG_SILENCE points. -/
structure SilenceJudged (s t : State) : Prop where
  outside : KeepsOutside s t
  settings : KeepsSettings s.alarm t.alarm
  link : t.link = s.link
  shown : t.Shown
  points : ∀ pt, (∀ p, progPoint 0 p ≠ pt) → t.alarm.point pt = s.alarm.point pt
  vacant : ∀ p, s.program p = none → t.program p = none ∧ t.alarm.point (progPoint 0 p) = s.alarm.point (progPoint 0 p)

theorem SilenceJudged.step {level : Int} (h : SilenceJudged s t) (p : Fin 16) :
    SilenceJudged s (t.progStep p (Program.judgeSilence t.counter level)) := by
  cases defined : t.program p with
  | none => rwa [progStep_vacant defined]
  | some x =>
    have shown := shown_progStep (p := p) (.judgeSilence t.counter level) h.shown
    rw [progStep_judgeSilence h.shown defined] at shown ⊢
    refine ⟨h.outside.trans ⟨rfl, rfl, rfl, rfl, rfl, rfl, rfl, rfl, rfl⟩, h.settings.trans (keepsSettings_handRaw ..),
      h.link, shown, fun pt other => (handRaw_point_ne _ _ _ (other p)).trans (h.points pt other), fun q vacant => ?_⟩
    obtain ⟨free, point⟩ := h.vacant q vacant
    have ne : p ≠ q := by
      rintro rfl
      rw [defined] at free
      cases free
    exact ⟨(State.program_setProgram_ne _ _ _ _ ne).trans free,
      (handRaw_point_ne _ _ _ fun e => ne (progPoint_inj.1 e).2).trans point⟩

theorem judgeSilence_judged (shown : s.Shown) : SilenceJudged s s.judgeSilence := by
  have start : SilenceJudged s s := ⟨.refl s, .refl _, rfl, shown, fun _ _ => rfl, fun _ vacant => ⟨vacant, rfl⟩⟩
  unfold State.judgeSilence
  exact forAll_keeps (P := SilenceJudged s) _ (fun p _ h => h.step p) start

/-- Each program's interval is judged once, and its PROG_SILENCE handed the new condition. -/
theorem judgeSilence_program (shown : s.Shown) (defined : s.program p = some x) :
    s.judgeSilence.program p = some (x.judgeSilence s.counter s.alarm.silenceLevel)
      ∧ s.judgeSilence.alarm.point (progPoint 0 p)
        = (s.alarm.handRaw s.counter (progPoint 0 p) (decide (1 ≤ x.nextRun s.counter s.alarm.silenceLevel))).point
            (progPoint 0 p) := by
  have start : SilenceJudged s s := ⟨.refl s, .refl _, rfl, shown, fun _ _ => rfl, fun _ vacant => ⟨vacant, rfl⟩⟩
  have apart {q : Fin 16} (ne : q ≠ p) (u : State) {f : Program → Program} :
      (u.progStep q f).alarm.point (progPoint 0 p) = u.alarm.point (progPoint 0 p) := by
    refine (onlyProgram_progStep q f u).points _ ?_
    simp [pointOfProgram, programPoints, progPoint_inj, ne.symm]
  unfold State.judgeSilence
  refine forAll_reaches
    (P := fun u => SilenceJudged s u ∧ u.program p = some x ∧ AlikeAt (progPoint 0 p) u.alarm s.alarm)
    (Q := fun u => u.program p = some (x.judgeSilence s.counter s.alarm.silenceLevel)
      ∧ u.alarm.point (progPoint 0 p) = (s.alarm.handRaw s.counter (progPoint 0 p)
        (decide (1 ≤ x.nextRun s.counter s.alarm.silenceLevel))).point (progPoint 0 p))
    (mem_allPrograms p) allPrograms_nodup ?_ ?_ ?_ ⟨start, defined, .refl _ _⟩
  · rintro q u ne ⟨judged, stands, alike⟩
    have next := judged.step (level := u.alarm.silenceLevel) q
    exact ⟨next, (progStep_program_ne q p _ u ne).trans stands,
      ⟨(apart ne u).trans alike.point, next.settings.kinds⟩⟩
  · rintro u ⟨judged, stands, alike⟩
    rw [progStep_judgeSilence judged.shown stands, judged.outside.counter, judged.settings.silenceLevel]
    exact ⟨State.program_setProgram .., (alike.handRaw _).point⟩
  · rintro q u ne ⟨stands, point⟩
    exact ⟨(progStep_program_ne q p _ u ne).trans stands, (apart ne u).trans point⟩

/-! ## The integrations reset by a contact input (R84) -/

/-- A program whose integration has been reset. -/
def Program.integrationReset (now : Time) (x : Program) : Program := { x with loud := x.loud.resetIntegration now }

/-- The state with the integrations of a list's programs reset. -/
structure IntegrationsReset (now : Time) (l : List (Fin 16)) (s t : State) : Prop where
  outside : KeepsOutside s t
  alarm : t.alarm = s.alarm
  link : t.link = s.link
  programs : ∀ p, t.program p = if p ∈ l then (s.program p).map (Program.integrationReset now) else s.program p

theorem progStep_reset (now : Time) (shown : s.Shown) :
    s.progStep p (Program.integrationReset now) =
      s.setProgram p ((s.program p).map (Program.integrationReset now)) := by
  cases defined : s.program p with
  | none =>
    have same : s.programs.set p.val none p.isLt = s.programs := by
      rw [← defined]
      simp [State.program]
    rw [progStep_vacant defined, Option.map_none, State.setProgram, same]
  | some x => exact progStep_sameConditions shown defined rfl (condition_sameRun _ rfl)

theorem integrationsReset (l : List (Fin 16)) (shown : s.Shown) : IntegrationsReset s.counter l s
    (forAll l (fun p u => u.progStep p (Program.integrationReset u.counter)) s) := by
  induction l generalizing s with
  | nil => exact ⟨.refl s, rfl, rfl, fun _ => rfl⟩
  | cons q rest ih =>
    have first := progStep_reset (p := q) s.counter shown
    have next : (s.setProgram q ((s.program q).map (Program.integrationReset s.counter))).Shown := by
      rw [← first]
      exact shown_progStep (.resetIntegration s.counter) shown
    have later := ih next
    show IntegrationsReset s.counter (q :: rest) s
      (forAll rest _ (s.progStep q (Program.integrationReset s.counter)))
    rw [first]
    refine ⟨(keepsOutside_setProgram ..).trans later.outside, later.alarm, later.link, fun p => ?_⟩
    rw [later.programs]
    by_cases same : p = q
    · subst same
      rw [State.program_setProgram, if_pos List.mem_cons_self]
      cases s.program p with
      | none => exact ite_self _
      | some x => exact ite_self _
    · rw [State.program_setProgram_ne _ _ _ _ (Ne.symm same)]
      simp only [List.mem_cons, same, false_or]
      rfl

theorem keepsOutside_alarm (s : State) (a : AlarmUnit) : KeepsOutside s { s with alarm := a } :=
  ⟨rfl, rfl, rfl, rfl, rfl, rfl, rfl, rfl, rfl⟩

/-- The contact inputs of a state, read. -/
def State.inputsRead (s : State) : AlarmUnit := allLanes.foldl (AlarmUnit.readContact s.counter) s.alarm

theorem shown_inputsRead (shown : s.Shown) : ({ s with alarm := s.inputsRead } : State).Shown := by
  have read (v : State) (c : Fin 4) (clock : v.counter = s.counter) :
      OwnReach v { v with alarm := v.alarm.readContact s.counter c } := by
    rw [← clock]; exact OwnReach.alarm _ (.readContact c)
  exact (OwnReach.alarmFold s.counter read allLanes s rfl).reach.keeps (fun _ _ => shown_leaf) shown

theorem readContactPins_eq (s : State) : s.readContactPins =
    forAll (allPrograms.filter (resetEdge s.alarm s.inputsRead))
      (fun p u => u.progStep p (Program.integrationReset u.counter)) { s with alarm := s.inputsRead } := by
  unfold State.readContactPins State.inputsRead
  rfl

/-- The contact inputs are read, and the integrations reset that they ask for (R84, R171). -/
structure InputsRead (s t : State) : Prop where
  outside : KeepsOutside s t
  link : t.link = s.link
  contacts : ContactsRead s.counter allLanes s.alarm t.alarm
  programs : ∀ p, t.program p =
    if resetEdge s.alarm t.alarm p then (s.program p).map (Program.integrationReset s.counter) else s.program p

theorem readContactPins_read (shown : s.Shown) : InputsRead s s.readContactPins := by
  have read : ContactsRead s.counter allLanes s.alarm s.inputsRead :=
    contactsRead s.counter allLanes (by decide) s.alarm
  have shown := shown_inputsRead shown
  rw [readContactPins_eq]
  generalize s.inputsRead = b at read shown
  have reset := integrationsReset (allPrograms.filter (resetEdge s.alarm b)) shown
  generalize forAll (allPrograms.filter (resetEdge s.alarm b)) _ _ = t at reset
  refine ⟨(keepsOutside_alarm s b).trans reset.outside, reset.link, ?_, fun p => ?_⟩
  · rw [reset.alarm]
    exact read
  · rw [reset.programs, reset.alarm]
    simp only [List.mem_filter, mem_allPrograms, true_and]
    rfl

/-- Whether an input resets the integration of a program as it becomes active (R84). -/
theorem resetEdge_iff {a b : AlarmUnit} {now : Time} (read : ContactsRead now allLanes a b) : resetEdge a b p = true ↔
    ∃ c, (a.contact c).function = .integrationReset ∧ (a.contact c).programs.getLsbD p.val = true
      ∧ (a.contact c).level = false ∧ (b.contact c).level = true := by
  have lanes : ∀ c : Fin 4, c ∈ allLanes := by decide
  have kept (c : Fin 4) : (b.contact c).function = (a.contact c).function
      ∧ (b.contact c).programs = (a.contact c).programs := by
    rw [read.contacts, if_pos (lanes c)]
    exact ⟨rfl, rfl⟩
  simp only [resetEdge, List.any_eq_true, lanes, true_and, Contact.covers, Bool.and_eq_true, beq_iff_eq,
    Bool.not_eq_true', kept]
  exact exists_congr fun c => ⟨fun ⟨⟨⟨f, l⟩, m⟩, b⟩ => ⟨f, m, b, l⟩, fun ⟨f, m, b, l⟩ => ⟨⟨⟨f, l⟩, m⟩, b⟩⟩

/-! ## The alarm boundary -/

theorem atBoundary_iff : s.atBoundary = true ↔ s.counter.toNat % 480 = 0 ∧ s.alarm.boundaryTaken = false := by
  simp [State.atBoundary]

/-- What the judgement of a point does is its four rows, one after another (R158 to R160, R164). -/
theorem execAll_judge (boundary : s.counter.toNat % 480 = 0) (pt : Fin 118) {a : AlarmUnit}
    (open_ : a.boundaryTaken = false) :
    execAll [.eventPointRest pt, .filterRise pt, .filterFall pt, .retryExpiry pt] { s with alarm := a }
      = .next { s with alarm := a.judge s.counter pt } := by
  have due {b : AlarmUnit} (kept : KeepsSettings a b) : ({ s with alarm := b } : State).atBoundary = true :=
    atBoundary_iff.2 ⟨boundary, kept.boundaryTaken.trans open_⟩
  have rest := keepsSettings_restPoint s.counter pt a
  have rise := rest.trans (keepsSettings_filterRise s.counter pt _)
  have fall := rise.trans (keepsSettings_filterFall s.counter pt _)
  have h1 : exec (.eventPointRest pt) { s with alarm := a } = .next { s with alarm := a.restPoint s.counter pt } :=
    congrArg Host.Outcome.next (if_pos (due (.refl a)))
  have h2 : exec (.filterRise pt) { s with alarm := a.restPoint s.counter pt }
      = .next { s with alarm := (a.restPoint s.counter pt).filterRise s.counter pt } :=
    congrArg Host.Outcome.next (if_pos (due rest))
  have h3 : exec (.filterFall pt) { s with alarm := (a.restPoint s.counter pt).filterRise s.counter pt }
      = .next { s with alarm := ((a.restPoint s.counter pt).filterRise s.counter pt).filterFall s.counter pt } :=
    congrArg Host.Outcome.next (if_pos (due rise))
  have h4 : exec (.retryExpiry pt)
      { s with alarm := ((a.restPoint s.counter pt).filterRise s.counter pt).filterFall s.counter pt }
      = .next { s with alarm := a.judge s.counter pt } :=
    congrArg Host.Outcome.next (if_pos (due fall))
  simp only [execAll, h1, h2, h3, h4]

theorem judgePoints_eq (s : State) :
    s.judgePoints = { s with alarm := allPoints.foldl (AlarmUnit.judge s.counter) s.alarm } := by
  rw [State.judgePoints]

/-- A state whose alarm boundary has been taken. -/
def State.closeBoundary (s : State) : State := { s with alarm := { s.alarm with boundaryTaken := true } }

theorem alarmBoundary_due (due : s.atBoundary = true) :
    s.alarmBoundary = s.judgeSilence.readContactPins.judgePoints.closeBoundary := by
  rw [State.alarmBoundary, if_pos due, State.closeBoundary]

/-- The alarm boundary, stage by stage: the intervals judged, the contact inputs read with the resets they ask for, and
every point judged. -/
structure BoundaryTaken (s u v t : State) : Prop where
  silence : SilenceJudged s u
  inputs : InputsRead u v
  outside : KeepsOutside v t
  link : t.link = v.link
  programs : ∀ p, t.program p = v.program p
  kinds : t.alarm.kinds = v.alarm.kinds
  summaries : t.alarm.summaries = v.alarm.summaries
  pins : t.alarm.pins = v.alarm.pins
  silenceLevel : t.alarm.silenceLevel = v.alarm.silenceLevel
  contacts : ∀ c, t.alarm.contact c = v.alarm.contact c
  taken : t.alarm.boundaryTaken = true
  points : ∀ pt, t.alarm.point pt = (v.alarm.judge v.counter pt).point pt

theorem BoundaryTaken.of_judged {v : State} {a : AlarmUnit} (silence : SilenceJudged s u) (inputs : InputsRead u v)
    (kept : KeepsSettings v.alarm a) (points : ∀ pt, a.point pt = (v.alarm.judge v.counter pt).point pt) :
    BoundaryTaken s u v (State.closeBoundary { v with alarm := a }) :=
  ⟨silence, inputs, keepsOutside_alarm v _, rfl, fun _ => rfl, kept.kinds, kept.summaries, kept.pins,
    kept.silenceLevel, fun c => (contact_of_settings kept c :), rfl, points⟩

theorem boundaryTaken (shown : s.Shown) (due : s.atBoundary = true) :
    BoundaryTaken s s.judgeSilence s.judgeSilence.readContactPins s.alarmBoundary := by
  have silence := judgeSilence_judged shown
  rw [alarmBoundary_due due, judgePoints_eq]
  exact .of_judged silence (readContactPins_read silence.shown) ((judge_pointWork _).fold_settings _ _)
    (judgeAll_point _ _)

namespace BoundaryTaken

variable {v : State} (h : BoundaryTaken s u v t)
include h

theorem read : ContactsRead s.counter allLanes u.alarm v.alarm := by
  have read := h.inputs.contacts
  rwa [h.silence.outside.counter] at read

theorem keepsOutside : KeepsOutside s t := (h.silence.outside.trans h.inputs.outside).trans h.outside

/-- What stands at a point before it is judged is what is judged. -/
theorem judged {g : AlarmUnit} (kept : KeepsSettings s.alarm g) (point : v.alarm.point pt = g.point pt) :
    t.alarm.point pt = (g.judge s.counter pt).point pt := by
  have clock : v.counter = s.counter := h.inputs.outside.counter.trans h.silence.outside.counter
  have settings := h.silence.settings
  have alike : AlikeIn pt v.alarm g := ⟨⟨point, (h.read.kinds.trans settings.kinds).trans kept.kinds.symm⟩,
    ((h.read.event pt).trans (isEventPoint_of_settings settings pt)).trans (isEventPoint_of_settings kept pt).symm⟩
  rw [h.points, clock]
  exact alike.judge.point

theorem contact (c : Fin 4) : t.alarm.contact c = (s.alarm.contact c).read (s.alarm.reading c) := by
  have same (d : Fin 4) := contact_of_settings h.silence.settings d
  rw [h.contacts, h.read.contacts, if_pos (by fin_cases c <;> decide), AlarmUnit.reading, AlarmUnit.reading, same,
    h.silence.settings.pins]

/-- An EXTERNAL point before it is judged (R171). -/
theorem external (c : Fin 4) : v.alarm.point (externalPoint c)
    = (s.alarm.readContact s.counter c).point (externalPoint c) := by
  have apart (p : Fin 16) : progPoint 0 p ≠ externalPoint c := fun e => by
    simp only [progPoint, externalPoint, Fin.mk.injEq] at e
    omega
  rw [h.read.external, if_pos (by fin_cases c <;> decide)]
  exact readContact_alike ⟨h.silence.points _ apart, h.silence.settings.kinds⟩
    (contact_of_settings h.silence.settings c) h.silence.settings.pins

/-- A point of a lane, a program, the reference or the link before it is judged. -/
theorem internal (inside : pt.val < 114) : v.alarm.point pt = u.alarm.point pt :=
  h.read.points pt fun c e => by
    have : (externalPoint c).val < 114 := e ▸ inside
    simp [externalPoint] at this

/-- The programs whose integration is reset (R84). -/
theorem reset (p : Fin 16) : resetEdge u.alarm v.alarm p = true ↔
    ∃ c, (s.alarm.contact c).function = .integrationReset ∧ (s.alarm.contact c).programs.getLsbD p.val = true
      ∧ (s.alarm.contact c).level = false ∧ (t.alarm.contact c).level = true := by
  rw [resetEdge_iff h.read]
  simp only [contact_of_settings h.silence.settings, h.contacts]

end BoundaryTaken

end Sys2Proof.Machine

end

section
open Sys2Proof Sys2Proof.Machine

/-- Settles O54: the boundary is taken stage by stage; each stage reaches a point through that point's own record, the
settings and the inputs alone, so that the order of the programs, the inputs and the points does not count. -/
theorem alarmBoundariesJudgeEveryPoint : Obligations.AlarmBoundariesJudgeEveryPoint := by
  unfold Obligations.AlarmBoundariesJudgeEveryPoint
  refine ⟨fun s early => ?_, fun s shown boundary open_ => ?_⟩
  · have passed : ¬s.atBoundary = true := fun due => by
      obtain ⟨multiple, open_⟩ := atBoundary_iff.1 due
      obtain other | taken := early
      · exact other multiple
      · rw [open_] at taken
        cases taken
    exact congrArg Host.Outcome.next (if_neg passed)
  · have stages := boundaryTaken shown (atBoundary_iff.2 ⟨boundary, open_⟩)
    have silent := fun p x (defined : s.program p = some x) => judgeSilence_program shown defined
    have answered : exec .alarmBoundary s = .next s.alarmBoundary := rfl
    rw [answered]
    generalize s.alarmBoundary = t at stages
    generalize s.judgeSilence = u at stages silent
    generalize u.readContactPins = v at stages
    have silence := stages.silence
    have before := silence.settings
    have read := stages.read
    refine ⟨t, rfl, stages.keepsOutside, (stages.link.trans stages.inputs.link).trans silence.link, stages.taken,
      (stages.kinds.trans read.kinds).trans before.kinds,
      (stages.summaries.trans read.summaries).trans before.summaries,
      (stages.pins.trans read.pins).trans before.pins,
      (stages.silenceLevel.trans read.silenceLevel).trans before.silenceLevel, stages.contact, fun pt place => ?_,
      fun c => ?_, fun a pt untaken => execAll_judge boundary pt untaken, fun p k other => ?_, fun p vacant => ?_,
      fun p x defined => ?_⟩
    · have apart (p : Fin 16) : progPoint 0 p ≠ pt := fun e => by
        simp only [← e, progPoint] at place
        omega
      exact stages.judged (.refl _) ((stages.internal (by omega)).trans (silence.points pt apart))
    · intro x changed pt judged
      have external := stages.external c
      rw [readContact_point, ← stages.contact c] at external
      refine ⟨fun still => ?_, fun change level => ?_, fun change edge active => ?_, fun change edge rest => ?_⟩
      · rw [if_neg still] at external
        exact stages.judged (.refl _) external
      · rw [if_pos change, if_neg (by rw [level]; decide)] at external
        exact stages.judged (keepsSettings_handRaw ..) external
      · rw [if_pos change, if_pos edge, if_pos active] at external
        exact stages.judged (keepsSettings_event ..) external
      · rw [if_pos change, if_pos edge, if_neg (by rw [rest]; decide)] at external
        exact stages.judged (.refl _) external
    · refine stages.judged (.refl _) ((stages.internal ?_).trans ?_)
      · simp only [progPoint]
        omega
      · by_cases first : k = 0
        · subst first
          exact (silence.vacant p (other.resolve_right fun ne => ne rfl)).2
        · exact silence.points _ fun q e => first (progPoint_inj.1 e).1.symm
    · rw [stages.programs, stages.inputs.programs, (silence.vacant p vacant).1]
      exact ite_self _
    · intro run l reset
      obtain ⟨judged, point⟩ := silent p x defined
      have made : u.program p = some { x with loud := l } := judged.trans (congrArg some (judgeSilence_eq ..))
      have reset_iff : resetEdge u.alarm v.alarm p = true ↔ reset := stages.reset p
      rw [stages.programs, stages.inputs.programs, made, silence.outside.counter]
      refine ⟨fun kept => if_neg (mt reset_iff.1 kept), fun resets => if_pos (reset_iff.2 resets), ?_⟩
      refine stages.judged (keepsSettings_handRaw ..) ((stages.internal ?_).trans point)
      simp only [progPoint]
      omega

end

section
/-! PROOF. The notice queue (O56, R167): its order is that of a key, so that entries of different points can always be
told apart; what annunciation and protection do to it. -/

namespace Sys2Proof.Machine

variable {a b c : AlarmUnit} {pt : Fin 118} {now : Time} {prio : Fin 118 → Nat} {x y : Notice} {l : List Notice}

/-! ## The order of the queue -/

/-- What an entry is placed by: its priority, its first-change time and its point's number (R167). -/
def Notice.key (prio : Fin 118 → Nat) (n : Notice) : ℕ ×ₗ ℕ ×ₗ ℕ :=
  toLex (prio n.point, toLex (n.first.toNat, n.point.val))

theorem noticeBefore_iff : noticeBefore prio x y = true ↔ x.key prio < y.key prio := by
  simp only [noticeBefore, Notice.key, Prod.Lex.toLex_lt_toLex, Bool.or_eq_true, Bool.and_eq_true, decide_eq_true_eq,
    BitVec.toNat_eq]

theorem noticeBefore_trans {z : Notice} (h : noticeBefore prio x y = true) (k : noticeBefore prio y z = true) :
    noticeBefore prio x z = true :=
  noticeBefore_iff.2 ((noticeBefore_iff.1 h).trans (noticeBefore_iff.1 k))

/-- Of two entries of different points one stands before the other. -/
theorem noticeBefore_total (apart : x.point ≠ y.point) (h : ¬noticeBefore prio x y = true) :
    noticeBefore prio y x = true := by
  rw [noticeBefore_iff] at h ⊢
  refine lt_of_le_of_ne (not_lt.1 h) fun same => apart ?_
  simp only [Notice.key, EmbeddingLike.apply_eq_iff_eq, Prod.mk.injEq] at same
  exact Fin.ext same.2.2.symm

theorem insertNotice_perm (prio : Fin 118 → Nat) (x : Notice) (l : List Notice) :
    (insertNotice prio x l).Perm (x :: l) := by
  induction l with
  | nil => exact .refl _
  | cons y rest ih =>
    unfold insertNotice
    split
    · exact .refl _
    · exact (ih.cons y).trans (.swap x y rest)

theorem insertNotice_sorted (sorted : l.Pairwise fun x y => noticeBefore prio x y = true)
    (fresh : ∀ y ∈ l, x.point ≠ y.point) :
    (insertNotice prio x l).Pairwise fun x y => noticeBefore prio x y = true := by
  induction l with
  | nil => exact List.pairwise_singleton ..
  | cons y rest ih =>
    obtain ⟨first, tail⟩ := List.pairwise_cons.1 sorted
    unfold insertNotice
    split
    · rename_i before
      exact List.pairwise_cons.2 ⟨List.forall_mem_cons.2 ⟨before, fun z mem => noticeBefore_trans before (first z mem)⟩,
        sorted⟩
    · rename_i notBefore
      refine List.pairwise_cons.2 ⟨fun z mem => ?_, ih tail fun z mem => fresh z (.tail _ mem)⟩
      obtain rfl | mem := List.mem_cons.1 ((insertNotice_perm prio x rest).mem_iff.1 mem)
      · exact noticeBefore_total (fresh y (.head _)) notBefore
      · exact first z mem

theorem sortNotices_perm (prio : Fin 118 → Nat) (l : List Notice) : (sortNotices prio l).Perm l := by
  induction l with
  | nil => exact .refl _
  | cons x rest ih => exact (insertNotice_perm prio x _).trans (ih.cons x)

/-- A queue that holds each point once is sorted under any priorities (R155). -/
theorem sortNotices_sorted (once : (l.map Notice.point).Nodup) :
    (sortNotices prio l).Pairwise fun x y => noticeBefore prio x y = true := by
  induction l with
  | nil => exact .nil
  | cons x rest ih =>
    obtain ⟨fresh, once⟩ := List.nodup_cons.1 once
    refine insertNotice_sorted (ih once) fun y mem same => fresh ?_
    exact List.mem_map.2 ⟨y, (sortNotices_perm prio rest).mem_iff.1 mem, same.symm⟩

/-! ## What changes the queue -/

/-- The notice queue holds each point at most once, in its order (R167). -/
structure AlarmUnit.QueueInOrder (a : AlarmUnit) : Prop where
  once : (a.notices.map Notice.point).Nodup
  sorted : a.notices.Pairwise fun x y => noticeBefore a.priority x y = true

/-- The queue stays in order, and holds the points it held. -/
structure QueueGrows (a b : AlarmUnit) : Prop where
  order : a.QueueInOrder → b.QueueInOrder
  holds : a.notices.map Notice.point ⊆ b.notices.map Notice.point

theorem QueueGrows.refl (a : AlarmUnit) : QueueGrows a a := ⟨id, List.Subset.refl _⟩

theorem QueueGrows.trans (h : QueueGrows a b) (k : QueueGrows b c) : QueueGrows a c :=
  ⟨k.order ∘ h.order, List.Subset.trans h.holds k.holds⟩

/-- A point's record is no part of the queue. -/
theorem queueGrows_setPoint (a : AlarmUnit) (pt : Fin 118) (p : Point) : QueueGrows a (a.setPoint pt p) :=
  ⟨fun h => ⟨h.once, h.sorted⟩, List.Subset.refl _⟩

/-- A change is counted in the entry its point has. -/
def Notice.counted (pt : Fin 118) (n : Notice) : Notice :=
  if n.point == pt then { n with coalesced := holdAt 255 (n.coalesced + 1) } else n

theorem Notice.counted_point (pt : Fin 118) (n : Notice) : (n.counted pt).point = n.point := by
  unfold Notice.counted
  split <;> rfl

theorem Notice.counted_key (pt : Fin 118) (n : Notice) : (n.counted pt).key prio = n.key prio := by
  unfold Notice.counted
  split <;> rfl

theorem enterNotice_notices (now : Time) (pt : Fin 118) (a : AlarmUnit) : (a.enterNotice now pt).notices =
    if a.notices.any (fun n => n.point == pt) then a.notices.map (Notice.counted pt)
    else insertNotice a.priority ⟨pt, 0, now⟩ a.notices := by
  unfold AlarmUnit.enterNotice
  dsimp only
  rw [AlarmUnit.setPoint_notices]
  split <;> rfl

theorem priority_of_settings (h : KeepsSettings a b) : b.priority = a.priority := by
  funext pt
  simp only [AlarmUnit.priority, AlarmUnit.settingsOf, AlarmUnit.kind, h.kinds]

theorem queueGrows_enterNotice (now : Time) (pt : Fin 118) (a : AlarmUnit) : QueueGrows a (a.enterNotice now pt) := by
  have prio := priority_of_settings (keepsSettings_enterNotice now pt a)
  have notices := enterNotice_notices now pt a
  generalize a.enterNotice now pt = b at prio notices
  by_cases held : a.notices.any (fun n => n.point == pt) = true
  · rw [if_pos held] at notices
    have points : b.notices.map Notice.point = a.notices.map Notice.point := by
      rw [notices, List.map_map]
      exact List.map_congr_left fun n _ => Notice.counted_point pt n
    refine ⟨fun order => ⟨points ▸ order.once, ?_⟩, by rw [points]; exact List.Subset.refl _⟩
    rw [notices, prio, List.pairwise_map]
    refine order.sorted.imp fun before => ?_
    rw [noticeBefore_iff] at before ⊢
    rwa [Notice.counted_key, Notice.counted_key]
  · rw [if_neg held] at notices
    have fresh : ∀ n ∈ a.notices, pt ≠ n.point := fun n mem same =>
      held (List.any_eq_true.2 ⟨n, mem, beq_iff_eq.2 same.symm⟩)
    have perm := (insertNotice_perm a.priority ⟨pt, 0, now⟩ a.notices).map Notice.point
    rw [← notices] at perm
    refine ⟨fun order => ⟨perm.nodup_iff.2 (List.nodup_cons.2 ⟨fun mem => ?_, order.once⟩), ?_⟩, fun q mem =>
      perm.mem_iff.2 (.tail _ mem)⟩
    · obtain ⟨n, mem, same⟩ := List.mem_map.1 mem
      exact fresh n mem same.symm
    · rw [notices, prio]
      exact insertNotice_sorted order.sorted fresh

theorem queueGrows_protect (now : Time) (pt : Fin 118) (v : Bool) (a : AlarmUnit) :
    QueueGrows a (a.protect now pt v) := by
  unfold AlarmUnit.protect
  split
  · exact .refl a
  · exact (queueGrows_setPoint ..).trans (queueGrows_enterNotice ..)

theorem queueGrows_annunciate (now : Time) (pt : Fin 118) (v : Annunciation) (a : AlarmUnit) :
    QueueGrows a (a.annunciate now pt v) := by
  unfold AlarmUnit.annunciate
  split
  · exact .refl a
  · exact (queueGrows_setPoint ..).trans (queueGrows_enterNotice ..)

/-! ## What annunciation and protection make of their point (R161, R163) -/

theorem protect_point (now : Time) (pt : Fin 118) (v : Bool) (a : AlarmUnit) : (a.protect now pt v).point pt =
    { a.point pt with
      applied := v, lastChange := if (a.point pt).applied = v then (a.point pt).lastChange else some now } := by
  unfold AlarmUnit.protect
  by_cases same : (a.point pt).applied = v
  · rw [if_pos same, if_pos same, ← same]
  · rw [if_neg same, if_neg same, enterNotice_point, AlarmUnit.point_setPoint, AlarmUnit.point_setPoint]

theorem annunciate_point (now : Time) (pt : Fin 118) (v : Annunciation) (a : AlarmUnit) :
    (a.annunciate now pt v).point pt =
      { a.point pt with
        ann := v, lastChange := if (a.point pt).ann = v then (a.point pt).lastChange else some now } := by
  unfold AlarmUnit.annunciate
  by_cases same : (a.point pt).ann = v
  · rw [if_pos same, if_pos same, ← same]
  · rw [if_neg same, if_neg same, enterNotice_point, AlarmUnit.point_setPoint, AlarmUnit.point_setPoint]

end Sys2Proof.Machine

end

section
/-! PROOF. A kind's mode changed (O56, R156): what becomes of each of its points. -/

namespace Sys2Proof.Machine

variable {a b : AlarmUnit} {pt : Fin 118} {now : Time} {old : AlarmMode}

/-- A state point present counts its raise time from this house sample. -/
def AlarmUnit.countFrom (now : Time) (pt : Fin 118) (a : AlarmUnit) : AlarmUnit :=
  if (a.point pt).raw && !a.isEventPoint pt then a.setPoint pt { a.point pt with since := now } else a

/-- R156: what a change of its kind's mode makes of a point. -/
theorem modeChanged_eq (now : Time) (old : AlarmMode) (a : AlarmUnit) (pt : Fin 118) : a.modeChanged now old pt =
    if (a.settingsOf pt).mode = .off then
      (if old = .off then a
       else ((a.setPoint pt { a.point pt with filtered := false }).annunciate now pt .quiet).protect now pt false)
    else if old = .off then a.countFrom now pt
    else if (a.settingsOf pt).mode = .report then a.protect now pt false
    else if old = .report ∧ (a.point pt).filtered = true ∧ (a.point pt).raw = true then a.protect now pt true
    else a := by
  unfold AlarmUnit.modeChanged AlarmUnit.countFrom
  cases (a.settingsOf pt).mode <;> rfl

theorem countFrom_point (now : Time) (pt : Fin 118) (a : AlarmUnit) : (a.countFrom now pt).point pt =
    { a.point pt with
      since := if (a.point pt).raw = true ∧ a.isEventPoint pt = false then now else (a.point pt).since } := by
  unfold AlarmUnit.countFrom
  simp only [Bool.and_eq_true, Bool.not_eq_true']
  by_cases counts : (a.point pt).raw = true ∧ a.isEventPoint pt = false
  · rw [if_pos counts, if_pos counts, AlarmUnit.point_setPoint]
  · rw [if_neg counts, if_neg counts]

/-- An operation of the Alarm Unit on one point's record, its annunciation and its protection: it leaves the settings
and every other point, and the queue grows. -/
structure OnPoint (pt : Fin 118) (a b : AlarmUnit) : Prop where
  settings : KeepsSettings a b
  other : ∀ q, pt ≠ q → b.point q = a.point q
  queue : QueueGrows a b

theorem OnPoint.refl (pt : Fin 118) (a : AlarmUnit) : OnPoint pt a a := ⟨.refl a, fun _ _ => rfl, .refl a⟩

theorem OnPoint.trans {c : AlarmUnit} (h : OnPoint pt a b) (k : OnPoint pt b c) : OnPoint pt a c :=
  ⟨h.settings.trans k.settings, fun q ne => (k.other q ne).trans (h.other q ne), h.queue.trans k.queue⟩

theorem onPoint_setPoint (a : AlarmUnit) (pt : Fin 118) (p : Point) : OnPoint pt a (a.setPoint pt p) :=
  ⟨keepsSettings_setPoint .., fun _ ne => AlarmUnit.point_setPoint_ne _ _ _ _ ne, queueGrows_setPoint ..⟩

theorem onPoint_protect (now : Time) (pt : Fin 118) (v : Bool) (a : AlarmUnit) : OnPoint pt a (a.protect now pt v) :=
  ⟨keepsSettings_protect .., fun _ ne => protect_point_ne _ _ _ ne, queueGrows_protect ..⟩

theorem onPoint_annunciate (now : Time) (pt : Fin 118) (v : Annunciation) (a : AlarmUnit) :
    OnPoint pt a (a.annunciate now pt v) :=
  ⟨keepsSettings_annunciate .., fun _ ne => annunciate_point_ne _ _ _ ne, queueGrows_annunciate ..⟩

theorem onPoint_countFrom (now : Time) (pt : Fin 118) (a : AlarmUnit) : OnPoint pt a (a.countFrom now pt) := by
  unfold AlarmUnit.countFrom
  split
  · exact onPoint_setPoint ..
  · exact .refl pt a

theorem onPoint_modeChanged (now : Time) (old : AlarmMode) (a : AlarmUnit) (pt : Fin 118) :
    OnPoint pt a (a.modeChanged now old pt) := by
  rw [modeChanged_eq]
  split
  · split
    · exact .refl pt a
    · exact ((onPoint_setPoint ..).trans (onPoint_annunciate ..)).trans (onPoint_protect ..)
  · split
    · exact onPoint_countFrom ..
    · split
      · exact onPoint_protect ..
      · split
        · exact onPoint_protect ..
        · exact .refl pt a

/-- What a change of mode makes of the record of a point of the kind (R156). -/
def Point.underMode (now : Time) (old new : AlarmMode) (event : Bool) (p : Point) : Point :=
  if new = .off then
    (if old = .off then p
     else { p with
       filtered := false, ann := .quiet, applied := false
       lastChange := if p.ann = .quiet ∧ p.applied = false then p.lastChange else some now })
  else if old = .off then { p with since := if p.raw = true ∧ event = false then now else p.since }
  else
    let applied := if new = .report then false
      else if old = .report ∧ p.filtered = true ∧ p.raw = true then true else p.applied
    { p with applied := applied, lastChange := if p.applied = applied then p.lastChange else some now }

theorem modeChanged_point (now : Time) (old : AlarmMode) (a : AlarmUnit) (pt : Fin 118) :
    (a.modeChanged now old pt).point pt
      = (a.point pt).underMode now old (a.settingsOf pt).mode (a.isEventPoint pt) := by
  rw [modeChanged_eq, Point.underMode]
  split
  · split
    · rfl
    · rw [protect_point, annunciate_point, AlarmUnit.point_setPoint]
      by_cases quiet : (a.point pt).ann = .quiet <;> by_cases none : (a.point pt).applied = false <;>
        simp [quiet, none]
  · split
    · exact countFrom_point ..
    · dsimp only
      split
      · exact protect_point ..
      · split
        · exact protect_point ..
        · rw [if_pos rfl]

theorem modeChanged_pointWork (now : Time) (old : AlarmMode) : PointWork (AlarmUnit.modeChanged now old) where
  settings a pt := (onPoint_modeChanged now old a pt).settings
  other a pt q ne := (onPoint_modeChanged now old a pt).other q ne
  alike a b pt h := by rw [modeChanged_point, modeChanged_point, h.point, h.settingsOf, h.event]

/-! ## The kind's settings taken -/

/-- The settings of a kind replaced, and the notice queue sorted under the priorities that then stand (R155). -/
def AlarmUnit.withKind (k : Fin 13) (x : KindSettings) (a : AlarmUnit) : AlarmUnit :=
  let set := { a with kinds := a.kinds.set k.val x k.isLt }
  { set with notices := sortNotices set.priority set.notices }

/-- The points of a kind. -/
def pointsOfKind (k : Fin 13) : List (Fin 118) := allPoints.filter fun pt => kindOfPoint pt == k

theorem mem_pointsOfKind {k : Fin 13} : pt ∈ pointsOfKind k ↔ kindOfPoint pt = k := by
  rw [pointsOfKind, List.mem_filter, beq_iff_eq]
  exact and_iff_right (List.mem_finRange pt)

theorem pointsOfKind_nodup (k : Fin 13) : (pointsOfKind k).Nodup := (List.nodup_finRange 118).filter _

theorem setKind_eq (now : Time) (k : Fin 13) (x : KindSettings) (a : AlarmUnit) : a.setKind now k x =
    if (a.kind k).mode = x.mode then a.withKind k x
    else (pointsOfKind k).foldl (AlarmUnit.modeChanged now (a.kind k).mode) (a.withKind k x) := by
  unfold AlarmUnit.setKind pointsOfKind AlarmUnit.withKind
  rfl

theorem withKind_kind (k : Fin 13) (x : KindSettings) (a : AlarmUnit) (j : Fin 13) :
    (a.withKind k x).kind j = if j = k then x else a.kind j := by
  simp [AlarmUnit.withKind, AlarmUnit.kind, Vector.getElem_set, Fin.ext_iff, eq_comm]

theorem queueGrows_fold {f : AlarmUnit → Fin 118 → AlarmUnit} (h : ∀ a pt, QueueGrows a (f a pt)) (l : List (Fin 118))
    (a : AlarmUnit) : QueueGrows a (l.foldl f a) := by
  induction l generalizing a with
  | nil => exact .refl a
  | cons pt rest ih => exact (h a pt).trans (ih _)

/-- Protection is left on a point only under a protect mode, where the mode before had left it so. -/
theorem underMode_applied {p : Point} {new : AlarmMode} {event : Bool}
    (was : p.applied = true → old.protects = true)
    (applied : (p.underMode now old new event).applied = true) : new.protects = true := by
  cases new with
  | protectLatched | protectRetry => rfl
  | off =>
    by_cases stood : old = .off
    · rw [Point.underMode, if_pos rfl, if_pos stood] at applied
      exact stood ▸ was applied
    · rw [Point.underMode, if_pos rfl, if_neg stood] at applied
      cases applied
  | report =>
    by_cases stood : old = .off
    · rw [Point.underMode, if_neg (by decide), if_pos stood] at applied
      subst stood
      cases was applied
    · rw [Point.underMode, if_neg (by decide), if_neg stood] at applied
      cases applied

/-- R156, clause by clause: what stands of a point whose kind has taken a mode, and what its mode makes of it. -/
structure Point.ModeTaken (now : Time) (old new : AlarmMode) (event : Bool) (p q : Point) : Prop where
  raw : q.raw = p.raw
  raiseCount : q.raiseCount = p.raiseCount
  since : q.since = if old = .off ∧ new ≠ .off ∧ p.raw = true ∧ event = false then now else p.since
  same : old = new → q = p
  off : new = .off → q.filtered = false ∧ q.ann = .quiet ∧ q.applied = false
  report : new = .report → q.applied = false ∧ q.ann = p.ann ∧ q.filtered = p.filtered
  protects : new.protects = true → old.protects = true → q = p
  fromOff : new.protects = true → old = .off → q.applied = false
  fromReport : new.protects = true → old = .report → q.applied = (p.filtered && p.raw)

section
variable {p : Point} {new : AlarmMode} (event : Bool) (was : p.applied = true → old.protects = true)
include was

/-- The mode taken anew leaves the point as it is: in mode OFF it was quiet already. -/
theorem modeTaken_same (off : old = .off → p.filtered = false ∧ p.ann = .quiet) (same : old = new) :
    p.ModeTaken now old new event p := by
  have bare : old.protects = false → p.applied = false := fun none =>
    Bool.eq_false_iff.2 fun applied => Bool.false_ne_true (none.symm.trans (was applied))
  subst same
  refine ⟨rfl, rfl, (if_neg fun h => h.2.1 h.1).symm, fun _ => rfl, fun h => ?_, fun h => ⟨bare (h ▸ rfl), rfl, rfl⟩,
    fun _ _ => rfl, fun _ h => bare (h ▸ rfl), fun protects h => ?_⟩
  · exact ⟨(off h).1, (off h).2, bare (h ▸ rfl)⟩
  · rw [h] at protects
    cases protects

theorem modeTaken_changed (moved : old ≠ new) : p.ModeTaken now old new event (p.underMode now old new event) := by
  have bare : old.protects = false → p.applied = false := fun none =>
    Bool.eq_false_iff.2 fun applied => Bool.false_ne_true (none.symm.trans (was applied))
  cases new with
  | off =>
    rw [Point.underMode, if_pos rfl, if_neg moved]
    constructor <;> simp [AlarmMode.protects, moved]
  | report =>
    by_cases out : old = .off
    · rw [Point.underMode, if_neg (by decide), if_pos out]
      subst out
      constructor <;> simp [AlarmMode.protects, bare rfl]
    · rw [Point.underMode, if_neg (by decide), if_neg out]
      constructor <;> simp [AlarmMode.protects, out, moved]
  | protectLatched | protectRetry =>
    rw [Point.underMode, if_neg (by decide)]
    cases old with
    | off => constructor <;> simp [AlarmMode.protects, bare rfl]
    | report => constructor <;> simp [AlarmMode.protects, bare rfl, Bool.decide_and]
    | protectLatched | protectRetry => constructor <;> simp [AlarmMode.protects]

end

/-- A kind has taken its settings: what stands of the unit, what becomes of each point, and what of the queue. -/
structure KindSet (now : Time) (k : Fin 13) (x : KindSettings) (a b : AlarmUnit) : Prop where
  settings : KeepsSettings (a.withKind k x) b
  point : ∀ pt, b.point pt = if kindOfPoint pt = k ∧ (a.kind k).mode ≠ x.mode then
    (a.point pt).underMode now (a.kind k).mode x.mode (a.isEventPoint pt) else a.point pt
  queue : QueueGrows (a.withKind k x) b

theorem kindSet (now : Time) (k : Fin 13) (x : KindSettings) (a : AlarmUnit) :
    KindSet now k x a (a.setKind now k x) := by
  rw [setKind_eq]
  by_cases same : (a.kind k).mode = x.mode
  · rw [if_pos same]
    exact ⟨.refl _, fun pt => (if_neg fun moved => moved.2 same).symm, .refl _⟩
  · rw [if_neg same]
    have work := modeChanged_pointWork now (a.kind k).mode
    refine ⟨work.fold_settings .., fun pt => ?_,
      queueGrows_fold (fun b pt => (onPoint_modeChanged now _ b pt).queue) ..⟩
    by_cases kind : kindOfPoint pt = k
    · rw [if_pos ⟨kind, same⟩, work.fold_point (pointsOfKind_nodup k) (mem_pointsOfKind.2 kind), modeChanged_point,
        AlarmUnit.settingsOf, kind, withKind_kind, if_pos rfl]
      rfl
    · rw [if_neg fun moved => kind moved.1]
      exact work.fold_other _ _ (mt mem_pointsOfKind.1 kind)

namespace KindSet

variable {k : Fin 13} {x : KindSettings} (h : KindSet now k x a b)
include h

theorem kind (j : Fin 13) : b.kind j = if j = k then x else a.kind j := by
  rw [← withKind_kind, AlarmUnit.kind, h.settings.kinds]
  rfl

theorem settingsOf (pt : Fin 118) : b.settingsOf pt = if kindOfPoint pt = k then x else a.settingsOf pt :=
  h.kind (kindOfPoint pt)

theorem stands (other : kindOfPoint pt ≠ k) : b.point pt = a.point pt := by
  rw [h.point, if_neg fun moved => other moved.1]

theorem holds {n : Notice} (mem : n ∈ a.notices) : b.notices.any (fun m => m.point == n.point) = true := by
  have sorted := (sortNotices_perm (a.withKind k x).priority a.notices).mem_iff.2 mem
  obtain ⟨m, held, same⟩ := List.mem_map.1 (h.queue.holds (List.mem_map_of_mem sorted))
  exact List.any_eq_true.2 ⟨m, held, beq_iff_eq.2 same⟩

/-- The Alarm Unit keeps its order where a kind under a protect mode has an action. -/
theorem inOrder (order : a.InOrder) (action : x.mode.protects = true → hasAction k = true) : b.InOrder := by
  have once : ((a.withKind k x).notices.map Notice.point).Nodup :=
    ((sortNotices_perm ..).map Notice.point).nodup_iff.2 order.once
  have queue := h.queue.order ⟨once, sortNotices_sorted order.once⟩
  refine ⟨fun pt applied => ?_, fun pt off => ?_, queue.once, queue.sorted⟩
  · have allowed := order.protection pt
    rw [AlarmUnit.mayProtect, h.settingsOf]
    rw [AlarmUnit.mayProtect, AlarmUnit.settingsOf] at allowed
    rw [h.point] at applied
    by_cases kind : kindOfPoint pt = k
    · rw [kind] at allowed applied ⊢
      have protects : x.mode.protects = true := by
        by_cases same : (a.kind k).mode = x.mode
        · rw [if_neg fun moved => moved.2 same] at applied
          exact same ▸ (Bool.and_eq_true_iff.1 (allowed applied)).1
        · rw [if_pos ⟨rfl, same⟩] at applied
          exact underMode_applied (fun was => (Bool.and_eq_true_iff.1 (allowed was)).1) applied
      rw [if_pos rfl, protects, action protects]
      rfl
    · rw [if_neg fun moved => kind moved.1] at applied
      rw [if_neg kind]
      exact allowed applied
  · rw [h.settingsOf] at off
    have quiet := order.off pt
    rw [AlarmUnit.settingsOf] at quiet
    rw [h.point]
    by_cases kind : kindOfPoint pt = k
    · rw [if_pos kind] at off
      rw [kind] at quiet ⊢
      by_cases same : (a.kind k).mode = x.mode
      · rw [if_neg fun moved => moved.2 same]
        exact quiet (same.trans off)
      · rw [if_pos ⟨rfl, same⟩, Point.underMode, if_pos off, if_neg fun was => same (was.trans off.symm)]
        exact ⟨rfl, rfl⟩
    · rw [if_neg kind] at off
      rw [if_neg fun moved => kind moved.1]
      exact quiet off

end KindSet

/-! ## SET_ALARM_KIND (R154) -/

variable {s : State} {tag byte : Byte} {f : KindFields} {k : Fin 13} {mode : AlarmMode}

theorem kindOfByte_val (h : byte.toNat = k.val) : kindOfByte byte = some k := by
  simp [kindOfByte, h]

theorem kindOfByte_none (h : 13 ≤ byte.toNat) : kindOfByte byte = none := by
  simp [kindOfByte, h]

theorem alarmModeOfByte_code (h : mode.code = byte.toNat) : alarmModeOfByte byte = some mode := by
  rw [alarmModeOfByte, ← h]
  cases mode <;> rfl

theorem alarmModeOfByte_none (h : 4 ≤ byte.toNat) : alarmModeOfByte byte = none :=
  List.getElem?_eq_none h

theorem hasAction_iff : hasAction k = true ↔ k.val ∈ [0, 1, 4, 5, 9] := List.contains_iff_mem

/-- The protect modes are the last two of the list. -/
theorem protects_iff : mode.protects = true ↔ 2 ≤ mode.code := by
  cases mode <;> decide

theorem alarmModeOfByte_some (h : alarmModeOfByte byte = some mode) : mode.code = byte.toNat := by
  obtain ⟨inside, listed⟩ := List.getElem?_eq_some_iff.1 h
  generalize byte.toNat = n at inside listed
  subst listed
  simp only [List.length_cons, List.length_nil] at inside
  interval_cases n <;> rfl

/-- R154: what refuses the settings. -/
theorem answer_setAlarmKind_refused
    (h : 13 ≤ byte.toNat ∨ 4 ≤ f.mode.toNat ∨ (2 ≤ f.mode.toNat ∧ byte.toNat ∉ [0, 1, 4, 5, 9])) :
    s.setAlarmKind byte f = .refuse .badValue s := by
  unfold State.setAlarmKind
  obtain high | high | ⟨protects, none⟩ := h
  · rw [kindOfByte_none high]
  · rw [alarmModeOfByte_none high]
    cases kindOfByte byte <;> rfl
  · split
    · rename_i k mode kind listed
      have code := alarmModeOfByte_some listed
      have number : byte.toNat = k.val := by
        unfold kindOfByte at kind
        split at kind
        · exact (congrArg Fin.val (Option.some.inj kind))
        · cases kind
      rw [protects_iff.2 (code ▸ protects), Bool.eq_false_iff.2 (mt hasAction_iff.1 (number ▸ none))]
      rfl
    · rfl

/-- R154: settings that are taken are answered OK where none was held. -/
theorem answer_setAlarmKind (number : byte.toNat = k.val) (listed : mode.code = f.mode.toNat)
    (action : mode.protects = true → hasAction k = true) :
    s.setAlarmKind byte f =
      ⟨if f.priority.toNat ≤ 7 ∧ (heldKind k mode f).level = f.level.toInt ∧ (heldKind k mode f).count = f.count.toNat
        then .ok else .clamped, [], { s with alarm := s.alarm.setKind s.counter k (heldKind k mode f) }⟩ := by
  have taken : (mode.protects && !hasAction k) = false := by
    cases protects : mode.protects with
    | false => rfl
    | true => rw [action protects]; rfl
  have priority : (heldKind k mode f).priority = f.priority.toNat ↔ f.priority.toNat ≤ 7 := by
    simp only [heldKind]
    omega
  unfold State.setAlarmKind
  rw [kindOfByte_val number, alarmModeOfByte_code listed]
  dsimp only
  rw [taken, if_neg (by decide)]
  congr 1
  rw [Result.ofHeld, ← ite_not]
  refine if_congr ?_ rfl rfl
  rw [← priority]
  simp [and_assoc]

theorem SampleOpened.silenceLevel {pins : BitVec 4} {u t : State} (h : SampleOpened pins u t) :
    t.alarm.silenceLevel = (t.alarm.kind 4).level := by
  rw [h.alarm]
  rfl

end Sys2Proof.Machine

end

section
open Sys2Proof Sys2Proof.Machine

/-- Settles O56: the settings and the sorted queue are put first, and each point of the kind is then changed once by the
change of mode (`KindSet`), which keeps the Alarm Unit's order. -/
theorem setAlarmKindTakesSettings : Obligations.SetAlarmKindTakesSettings := by
  unfold Obligations.SetAlarmKindTakesSettings
  refine ⟨fun s tag b f free outside => ?_, fun s tag b f k mode free number listed actions order => ?_,
    fun s pins faults => ⟨s.tick pins faults, rfl, ?_⟩⟩
  · exact exec_refused (r := .setAlarmKind b f) rfl free rfl rfl (answer_setAlarmKind_refused outside)
  · intro level count kept old
    have action : mode.protects = true → hasAction k = true := fun protects =>
      hasAction_iff.2 (actions (listed ▸ protects_iff.1 protects))
    have isFour : k = 4 ↔ k.val = 4 := Fin.ext_iff
    have isFive : k = 5 ↔ k.val = 5 := Fin.ext_iff
    have held : heldKind k mode f =
        ⟨mode, min 7 f.priority.toNat, f.raiseCode, f.clearCode, f.retryCode, level, count⟩ := by
      simp only [heldKind, isFour, isFive]
      rfl
    have answered := answer_setAlarmKind (s := s) number listed action
    have set := kindSet s.counter k (heldKind k mode f) s.alarm
    rw [held] at answered set
    generalize s.alarm.setKind s.counter k _ = y at answered set
    refine ⟨{ s with alarm := y }, ?_, rfl, (set.kind k).trans (if_pos rfl),
      fun j other => (set.kind j).trans (if_neg other), set.settings.summaries, set.settings.contacts,
      set.settings.pins, set.settings.silenceLevel, set.inOrder order action, fun n mem => set.holds mem, fun pt => ?_⟩
    · rw [exec_answered (r := .setAlarmKind b f) rfl free rfl rfl,
        show s.answer tag (.setAlarmKind b f) = _ from answered]
      rfl
    · have point := set.point pt
      have was := order.protection pt
      dsimp only
      by_cases kind : kindOfPoint pt = k
      · have protects : (s.alarm.point pt).applied = true → old.protects = true := fun applied => by
          have allowed := was applied
          rw [AlarmUnit.mayProtect, AlarmUnit.settingsOf, kind] at allowed
          exact (Bool.and_eq_true_iff.1 allowed).1
        have taken : (s.alarm.point pt).ModeTaken s.counter old mode (s.alarm.isEventPoint pt) (y.point pt) := by
          rw [point]
          by_cases same : old = mode
          · rw [if_neg fun moved => moved.2 same]
            exact modeTaken_same _ protects
              (fun off => order.off pt (by rw [AlarmUnit.settingsOf, kind]; exact off)) same
          · rw [if_pos ⟨kind, same⟩]
            exact modeTaken_changed _ protects same
        exact ⟨fun other => absurd kind other, taken.raw, taken.raiseCount, fun _ => ⟨taken.since, taken.same,
          taken.off, taken.report, taken.protects, taken.fromOff, taken.fromReport⟩⟩
      · have stands := set.stands kind
        rw [stands]
        exact ⟨fun _ => rfl, rfl, rfl, fun same => absurd same kind⟩
  · exact (tick_sampleOpened pins faults s).silenceLevel

end

section
/-! PROOF. Carried powers and loudness (O48): what a figure is carried as, what the rounding search finds, and that sums
are exact. -/

namespace Sys2Proof.Machine

variable {num den : Nat}

/-! ## Figures carried (R71, log entry 11) -/

theorem carry_zero (den : Nat) : Power.carry 0 den = ⟨0, 0⟩ := if_pos (.inl rfl)

/-- The power of two that a figure is carried at. -/
def carryShift (num den : Nat) : Nat := (42 + Config.extraPowerBits + Nat.log2 den) - Nat.log2 num

theorem carry_eq (hn : 0 < num) (hd : 0 < den) : Power.carry num den =
    ⟨num * 2 ^ carryShift num den / den
      + if num * 2 ^ carryShift num den % den ≠ 0 ∧ Config.powerRoundsUp num den = true then 1 else 0,
      carryShift num den⟩ := by
  unfold Power.carry carryShift
  rw [if_neg (by omega)]
  dsimp only
  split
  · rename_i exact
    rw [if_neg fun h => h.1 exact, Nat.add_zero]
  · rename_i inexact
    split
    · rename_i up
      rw [if_pos ⟨inexact, up⟩]
    · rename_i down
      rw [if_neg fun h => down h.2, Nat.add_zero]

/-- The power of two is large enough for 40 significant bits. -/
theorem carry_significant (hn : 0 < num) : 2 ^ 40 * den ≤ num * 2 ^ carryShift num den := by
  have enough : 41 + Nat.log2 den ≤ Nat.log2 num + carryShift num den := by unfold carryShift; omega
  calc 2 ^ 40 * den
      ≤ 2 ^ 40 * 2 ^ (Nat.log2 den + 1) := Nat.mul_le_mul_left _ (Nat.le_of_lt Nat.lt_log2_self)
    _ = 2 ^ (41 + Nat.log2 den) := by rw [← Nat.pow_add]; congr 1; omega
    _ ≤ 2 ^ (Nat.log2 num + carryShift num den) := Nat.pow_le_pow_right (by decide) enough
    _ = 2 ^ Nat.log2 num * 2 ^ carryShift num den := Nat.pow_add ..
    _ ≤ num * 2 ^ carryShift num den := Nat.mul_le_mul_right _ (Nat.log2_self_le (Nat.ne_of_gt hn))

/-- A figure is carried with 40 significant bits or more, as a neighbour of the exact value, and as that value where it
can be. -/
theorem carry_near (hn : 0 < num) (hd : 0 < den) :
    2 ^ 40 ≤ (Power.carry num den).mant
      ∧ (((Power.carry num den).mant * den : Int)
          - (num * 2 ^ (Power.carry num den).shift : Nat)).natAbs < den
      ∧ (num * 2 ^ (Power.carry num den).shift % den = 0 →
          (Power.carry num den).mant * den = num * 2 ^ (Power.carry num den).shift) := by
  have significant := (Nat.le_div_iff_mul_le hd).2 (carry_significant (den := den) hn)
  rw [carry_eq hn hd]
  dsimp only
  generalize num * 2 ^ carryShift num den = n at *
  have parts := Nat.div_add_mod n den
  have rest := Nat.mod_lt n hd
  generalize n / den = q at *
  refine ⟨le_trans significant (Nat.le_add_right ..), ?_, fun exact => ?_⟩
  · split
    · push_cast
      have whole : ((q : Int) + 1) * den - n = den - (n % den : Nat) := by
        rw [← parts]; push_cast [Nat.mul_add_mod_self_left, Nat.mod_mod]; ring
      omega
    · have whole : ((q + 0 : Nat) : Int) * den - n = -((n % den : Nat) : Int) := by
        rw [← parts]; push_cast [Nat.mul_add_mod_self_left, Nat.mod_mod]; ring
      omega
  · rw [if_neg fun h => h.1 exact, Nat.add_zero, Nat.mul_comm]
    omega

/-! ## Loudness rounded (R73) -/

/-- What the search over a number of bits finds: a value that passes unless it is the first, and whose follower does not
pass unless the range ends there. -/
theorem bitSearch_spec (ok : Nat → Bool) (bits acc : Nat) :
    (bitSearch ok bits acc = acc ∨ ok (bitSearch ok bits acc) = true)
      ∧ (bitSearch ok bits acc + 1 = acc + 2 ^ bits ∨ ok (bitSearch ok bits acc + 1) = false) := by
  induction bits generalizing acc with
  | zero => exact ⟨.inl rfl, .inl rfl⟩
  | succ b ih =>
    unfold bitSearch
    split
    · rename_i passes
      obtain ⟨found, next⟩ := ih (acc + 2 ^ b)
      exact ⟨.inr (found.elim (fun same => by rw [same]; exact passes) id), next.imp_left fun ends => by omega⟩
    · rename_i fails
      obtain ⟨found, next⟩ := ih acc
      refine ⟨found, .inr (next.elim (fun ends => ?_) id)⟩
      rw [ends]
      exact Bool.eq_false_iff.2 fails

/-- A ratio that reaches a power of ten reaches every smaller one. -/
theorem atLeastPow10_of_le {d e : Int} (le : d ≤ e) (h : atLeastPow10 num den e = true) :
    atLeastPow10 num den d = true := by
  unfold atLeastPow10 at *
  generalize num ^ 10000 = n at *
  generalize den ^ 10000 = m at *
  have ten (i : Nat) : 1 ≤ 10 ^ i := Nat.one_le_pow _ _ (by decide)
  by_cases he : 0 ≤ e
  · rw [if_pos he, decide_eq_true_eq] at h
    by_cases hd : 0 ≤ d
    · rw [if_pos hd, decide_eq_true_eq]
      exact le_trans (Nat.mul_le_mul_left m (Nat.pow_le_pow_right (by decide) (Int.toNat_le_toNat le))) h
    · rw [if_neg hd, decide_eq_true_eq]
      calc m ≤ m * 10 ^ e.toNat := Nat.le_mul_of_pos_right m (ten _)
        _ ≤ n := h
        _ ≤ n * 10 ^ (-d).toNat := Nat.le_mul_of_pos_right n (ten _)
  · rw [if_neg he, decide_eq_true_eq] at h
    rw [if_neg (by omega), decide_eq_true_eq]
    exact le_trans h (Nat.mul_le_mul_left n (Nat.pow_le_pow_right (by decide) (by omega)))

theorem loudness_zero (den : Nat) : loudness 0 den = none := if_pos (.inl rfl)

/-- R73: a power's loudness is the tenth it reaches, unless it is held at −120.0, and it does not reach the next tenth,
unless it is held at +15.0. -/
theorem loudness_rounds (hn : 0 < num) (hd : 0 < den) : ∃ v : Int, loudness num den = some v ∧ -1200 ≤ v ∧ v ≤ 150
    ∧ (v = -1200 ∨ atLeastPow10 num den (100 * v + 641) = true)
    ∧ (v = 150 ∨ atLeastPow10 num den (100 * (v + 1) + 641) = false) := by
  have spec := bitSearch_spec (fun k => atLeastPow10 num den (100 * ((k : Int) - 1200) + 641)) 11 0
  unfold loudness
  rw [if_neg (by omega)]
  generalize bitSearch _ 11 0 = k at spec ⊢
  obtain ⟨found, next⟩ := spec
  refine ⟨_, rfl, by omega, by omega, ?_, ?_⟩
  · refine found.imp (fun first => by omega) fun passes => atLeastPow10_of_le ?_ passes
    omega
  · by_cases top : 1350 ≤ k
    · exact .inl (by omega)
    · obtain ends | fails := next
      · omega
      · refine .inr (Eq.trans (congrArg _ ?_) fails)
        omega

/-! ## Sums (R71) -/

/-- Seen at a common power of two, a sum is the sum of its terms. -/
theorem add_exact {a b : Power} {k : Nat} (ha : a.shift ≤ k) (hb : b.shift ≤ k) :
    (a.add b).mant * 2 ^ (k - (a.add b).shift) = a.mant * 2 ^ (k - a.shift) + b.mant * 2 ^ (k - b.shift) := by
  simp only [Power.add, Nat.add_mul, Nat.mul_assoc, ← Nat.pow_add]
  congr 3 <;> omega

theorem foldl_add_exact (l : List Power) (a : Power) {k : Nat} (ha : a.shift ≤ k) (hl : ∀ q ∈ l, q.shift ≤ k) :
    (l.foldl Power.add a).shift ≤ k
      ∧ (l.foldl Power.add a).mant * 2 ^ (k - (l.foldl Power.add a).shift)
        = a.mant * 2 ^ (k - a.shift) + (l.map fun q => q.mant * 2 ^ (k - q.shift)).sum := by
  induction l generalizing a with
  | nil => exact ⟨ha, rfl⟩
  | cons b rest ih =>
    obtain ⟨hb, rest_le⟩ := List.forall_mem_cons.1 hl
    obtain ⟨within, value⟩ := ih (a.add b) (Nat.max_le.2 ⟨ha, hb⟩) rest_le
    refine ⟨within, value.trans ?_⟩
    rw [add_exact ha hb, List.map_cons, List.sum_cons, Nat.add_assoc]

/-- R71: sums of carried figures are exact. -/
theorem sum_exact (l : List Power) (k : Nat) (hl : ∀ q ∈ l, q.shift ≤ k) : (Power.sum l).shift ≤ k
    ∧ (Power.sum l).mant * 2 ^ (k - (Power.sum l).shift) = (l.map fun q => q.mant * 2 ^ (k - q.shift)).sum := by
  obtain ⟨within, value⟩ := foldl_add_exact l .zero (Nat.zero_le k) hl
  refine ⟨within, value.trans ?_⟩
  rw [Power.zero, Nat.zero_mul, Nat.zero_add]

theorem sum_pair (a b : Power) : Power.sum [a, b] = a.add b := by
  simp [Power.sum, Power.add, Power.zero]

theorem addCarried_eq (a b : Power) :
    a.addCarried b = Power.carry (Power.sum [a, b]).mant (2 ^ (Power.sum [a, b]).shift) := by
  rw [sum_pair]
  rfl

/-! ## The histogram (R79) -/

variable {j i : Nat} {w : Power} {h : List HistBin}

/-- A bin with a window of power w added: its count holds at its largest value, and its power with it. -/
def HistBin.accepted (w : Power) (b : HistBin) : HistBin :=
  if b.count < 2 ^ 32 - 1 then { b with count := b.count + 1, power := b.power.addCarried w } else b

theorem HistBin.accepted_bin (w : Power) (b : HistBin) : (b.accepted w).bin = b.bin := by
  unfold HistBin.accepted
  split <;> rfl

theorem histAdd_cons (j : Nat) (w : Power) (b : HistBin) (rest : List HistBin) : histAdd j w (b :: rest) =
    if j < b.bin then ⟨j, 1, w⟩ :: b :: rest
    else if j = b.bin then b.accepted w :: rest else b :: histAdd j w rest := rfl

theorem histAdd_bins {c : HistBin} (mem : c ∈ histAdd j w h) : c.bin = j ∨ ∃ d ∈ h, d.bin = c.bin := by
  induction h with
  | nil =>
    obtain rfl := List.mem_singleton.1 mem
    exact .inl rfl
  | cons b rest ih =>
    rw [histAdd_cons] at mem
    split at mem
    · obtain rfl | mem := List.mem_cons.1 mem
      · exact .inl rfl
      · exact .inr ⟨c, mem, rfl⟩
    · split at mem
      · obtain rfl | mem := List.mem_cons.1 mem
        · exact .inr ⟨b, .head _, (HistBin.accepted_bin w b).symm⟩
        · exact .inr ⟨c, .tail _ mem, rfl⟩
      · obtain rfl | mem := List.mem_cons.1 mem
        · exact .inr ⟨c, .head _, rfl⟩
        · exact (ih mem).imp_right fun ⟨d, there, same⟩ => ⟨d, .tail _ there, same⟩

theorem histAdd_rising (rising : h.Pairwise fun a b => a.bin < b.bin) :
    (histAdd j w h).Pairwise fun a b => a.bin < b.bin := by
  induction h with
  | nil => exact List.pairwise_singleton ..
  | cons b rest ih =>
    obtain ⟨first, tail⟩ := List.pairwise_cons.1 rising
    rw [histAdd_cons]
    split
    · rename_i less
      exact List.pairwise_cons.2 ⟨List.forall_mem_cons.2 ⟨less, fun c mem => less.trans (first c mem)⟩, rising⟩
    · split
      · exact List.pairwise_cons.2 ⟨fun c mem => by rw [HistBin.accepted_bin]; exact first c mem, tail⟩
      · refine List.pairwise_cons.2 ⟨fun c mem => ?_, ih tail⟩
        obtain same | ⟨d, there, same⟩ := histAdd_bins mem
        · omega
        · exact same ▸ first d there

theorem find_cons_same {b : HistBin} (rest : List HistBin) (same : b.bin = i) :
    (b :: rest).find? (fun c : HistBin => c.bin == i) = some b :=
  List.find?_cons_of_pos (p := fun c : HistBin => c.bin == i) (beq_iff_eq.2 same)

theorem find_cons_other {b : HistBin} (rest : List HistBin) (ne : b.bin ≠ i) :
    (b :: rest).find? (fun c : HistBin => c.bin == i) = rest.find? fun c => c.bin == i :=
  List.find?_cons_of_neg (p := fun c : HistBin => c.bin == i) (mt beq_iff_eq.1 ne)

theorem histAdd_find_ne (ne : i ≠ j) :
    (histAdd j w h).find? (fun b => b.bin == i) = h.find? fun b => b.bin == i := by
  induction h with
  | nil => exact find_cons_other _ (Ne.symm ne)
  | cons b rest ih =>
    rw [histAdd_cons]
    split
    · exact find_cons_other _ (Ne.symm ne)
    · split
      · rename_i same
        rw [find_cons_other _ (by rw [HistBin.accepted_bin, ← same]; exact Ne.symm ne),
          find_cons_other _ (same ▸ Ne.symm ne)]
      · rw [List.find?_cons, List.find?_cons, ih]

theorem histAdd_find (rising : h.Pairwise fun a b => a.bin < b.bin) :
    (histAdd j w h).find? (fun b => b.bin == j)
      = some (((h.find? fun b => b.bin == j).map (HistBin.accepted w)).getD ⟨j, 1, w⟩) := by
  induction h with
  | nil => simp [histAdd]
  | cons b rest ih =>
    obtain ⟨first, tail⟩ := List.pairwise_cons.1 rising
    rw [histAdd_cons]
    split
    · rename_i less
      have absent : (b :: rest).find? (fun b => b.bin == j) = none := by
        refine List.find?_eq_none.2 (List.forall_mem_cons.2 ⟨?_, fun c mem => ?_⟩)
        · simpa using Nat.ne_of_gt less
        · simpa using Nat.ne_of_gt (less.trans (first c mem))
      rw [absent]
      exact find_cons_same _ rfl
    · split
      · rename_i same
        rw [find_cons_same _ ((HistBin.accepted_bin w b).trans same.symm), find_cons_same _ same.symm]
        rfl
      · rename_i apart
        rw [find_cons_other _ (Ne.symm apart), find_cons_other _ (Ne.symm apart)]
        exact ih tail

end Sys2Proof.Machine

end

section
/-! PROOF. A program's block end (O48): the measurement, the correction, and the posting of a change of gain. -/

namespace Sys2Proof.Machine

/-! ## The measurement (R72 to R81) -/

section
variable (l : Loud) (now : Time) (block : Nat) (power : Power)

/-- The last four records of the ring. -/
def lastFour (ring : List BlockRec) : List BlockRec := ring.drop (ring.length - 4)

/-- R77: the momentary value. -/
theorem momentary_eq (ring : List BlockRec) : (momentaryPower ring).bind Power.loudness =
    if 4 ≤ ring.length ∧ (∀ r ∈ lastFour ring, r.validity = .valid) then
      loudness (Power.sum ((lastFour ring).map BlockRec.power)).mant
        (4 * 2 ^ (Power.sum ((lastFour ring).map BlockRec.power)).shift)
    else none := by
  have valid : (4 ≤ ring.length ∧ (lastFour ring).all (fun r => r.validity == .valid) = true)
      ↔ 4 ≤ ring.length ∧ ∀ r ∈ lastFour ring, r.validity = .valid := by
    simp only [List.all_eq_true, beq_iff_eq]
  unfold momentaryPower
  simp only [← valid]
  unfold lastFour
  split
  · rw [Option.bind_some, Power.loudness, Nat.pow_add, Nat.mul_comm]
  · rfl

/-- Where the ring has a momentary value, its window is the sum of the last four records. -/
theorem momentaryPower_of_value {ring : List BlockRec} {m : Int}
    (value : (momentaryPower ring).bind Power.loudness = some m) :
    momentaryPower ring = some ⟨(Power.sum ((lastFour ring).map BlockRec.power)).mant,
      (Power.sum ((lastFour ring).map BlockRec.power)).shift + 2⟩ := by
  unfold momentaryPower at *
  dsimp only at *
  split
  · rfl
  · rename_i absent
    rw [if_neg absent] at value
    cases value

/-- The ring with the block's record (R75). -/
def Loud.ringWith : List BlockRec := ringAppend l.ring ⟨block, power, power.loudness, l.validity⟩

/-- R79, R80: the histogram after the block's window. -/
def Loud.histWith : List HistBin :=
  match momentaryPower (l.ringWith block power),
    (momentaryPower (l.ringWith block power)).bind Power.loudness with
  | some w, some m => if l.accepts now m then histAdd (m + 700).toNat w l.hist else l.hist
  | _, _ => l.hist

/-- The measurement before the integrated value is worked out (R76, steps 1 to 4). -/
def Loud.measured : Loud :=
  { l with
    ring := l.ringWith block power, momentary := (momentaryPower (l.ringWith block power)).bind Power.loudness
    shortTerm := shortTermOf (l.ringWith block power), hist := l.histWith now block power
    markPreparing := false, markLane := false, markHold := false, blockTaken := true }

theorem endBlock_eq : l.endBlock now block power = (l.measured now block power).integrate := rfl

/-- The integration works out four fields (R81). -/
theorem integrate_record : l.integrate = { l with
    integrated := l.integrate.integrated, count := l.integrate.count, gatedCount := l.integrate.gatedCount
    gate := l.integrate.gate } := by
  unfold Loud.integrate
  dsimp only
  split <;> rfl

/-- A block end is the measurement, with the integrated value of its histogram. -/
theorem endBlock_record : l.endBlock now block power = { l.measured now block power with
    integrated := (l.endBlock now block power).integrated, count := (l.endBlock now block power).count
    gatedCount := (l.endBlock now block power).gatedCount, gate := (l.endBlock now block power).gate } :=
  integrate_record (l.measured now block power)

/-- R80: a window accepted is added to its value's bin. -/
theorem histWith_accepted {m : Int} (value : (momentaryPower (l.ringWith block power)).bind Power.loudness = some m)
    (high : -700 ≤ m) (running : l.wasRunning = true) (unpaused : l.wasPaused = false) (apart : l.start ≠ now) :
    l.histWith now block power = histAdd (m + 700).toNat
      ⟨(Power.sum ((lastFour (l.ringWith block power)).map BlockRec.power)).mant,
        (Power.sum ((lastFour (l.ringWith block power)).map BlockRec.power)).shift + 2⟩ l.hist := by
  have accepts : l.accepts now m = true := by simp [Loud.accepts, high, running, unpaused, apart]
  unfold Loud.histWith
  rw [value, momentaryPower_of_value value]
  exact if_pos accepts

/-- R80, R82: a window not accepted leaves the histogram. -/
theorem histWith_left
    (left : (momentaryPower (l.ringWith block power)).bind Power.loudness = none
      ∨ (∃ m, (momentaryPower (l.ringWith block power)).bind Power.loudness = some m ∧ m < -700)
      ∨ l.wasRunning = false ∨ l.wasPaused = true ∨ l.start = now) :
    l.histWith now block power = l.hist := by
  unfold Loud.histWith
  generalize momentaryPower (l.ringWith block power) = w at *
  generalize w.bind Power.loudness = v at *
  split
  · refine if_neg fun accepts => ?_
    simp only [Loud.accepts, Bool.and_eq_true, decide_eq_true_eq, Bool.not_eq_true'] at accepts
    obtain ⟨⟨⟨high, running⟩, unpaused⟩, apart⟩ := accepts
    obtain absent | ⟨m, value, low⟩ | idle | paused | reset := left
    · cases absent
    · cases value
      omega
    · exact Bool.false_ne_true (idle.symm.trans running)
    · exact Bool.false_ne_true (unpaused.symm.trans paused)
    · exact apart reset
  · rfl

/-- R81: nothing is integrated while the histogram is empty. -/
theorem integrate_empty (empty : histCount l.hist = 0) :
    l.integrate = { l with integrated := none, count := 0, gatedCount := 0, gate := none } := if_pos empty

/-- R81: N, the gate, and the integrated value of the bins that pass it. -/
theorem integrate_filled (filled : histCount l.hist ≠ 0) : l.integrate =
    let all := Power.sum (l.hist.map HistBin.power)
    let gated := l.hist.filter fun b => passesGate all.mant (histCount l.hist * 2 ^ all.shift) b.bin
    let kept := Power.sum (gated.map HistBin.power)
    { l with
      integrated := loudness kept.mant (histCount gated * 2 ^ kept.shift)
      count := histCount l.hist, gatedCount := histCount gated
      gate := (loudness all.mant (histCount l.hist * 2 ^ all.shift)).map (· - 100) } := if_neg filled

theorem integrate_count : l.integrate.count = histCount l.hist := by
  by_cases empty : histCount l.hist = 0
  · rw [integrate_empty l empty, empty]
  · rw [integrate_filled l empty]

end

/-! ## The correction (R93 to R96) -/

section
variable {c : Correction} (valid : Bool) (st : Option Int) (block : Nat)

theorem correction_off (mode : c.settings.mode = .off) :
    c.endBlock valid st block = { c with gain := 0, hold := .off, desired := none, gainLimit := false } := by
  unfold Correction.endBlock
  rw [mode]

theorem correction_freeze (mode : c.settings.mode = .freeze) :
    c.endBlock valid st block = { c with hold := .frozen, desired := none, gainLimit := false } := by
  unfold Correction.endBlock
  rw [mode]

theorem correction_held (mode : c.settings.mode = .track) {why : HoldState}
    (holds : c.settings.holds valid st = some why) :
    c.endBlock valid st block = { c with hold := why } := by
  unfold Correction.endBlock
  rw [mode, holds]

/-- R94: the gain moved toward the desired value. -/
theorem correction_adjusted {v : Int} (mode : c.settings.mode = .track) (sound : valid = true) (value : st = some v)
    (deep : c.settings.target - c.settings.holdDepth ≤ v) : c.endBlock valid st block =
      let d := c.settings.desire v block
      let g := c.settings.slewTo c.gain d.value
      { c with gain := g, hold := .adjusted, desired := some d, gainLimit := c.settings.atLimit d g } := by
  have holds : c.settings.holds true (some v) = none := if_neg (not_lt.2 deep)
  unfold Correction.endBlock
  rw [mode, sound, value, holds]

/-- In TRACK the correction is held, or adjusted to a short-term value of a VALID block. -/
theorem correction_track (mode : c.settings.mode = .track) :
    (∃ why, why ≠ .adjusted ∧ c.endBlock valid st block = { c with hold := why })
      ∨ (c.endBlock valid st block).hold = .adjusted := by
  cases valid with
  | false => exact .inl ⟨.heldInvalid, nofun, correction_held _ _ _ mode rfl⟩
  | true =>
    cases st with
    | none => exact .inl ⟨.heldNoSt, nofun, correction_held _ _ _ mode rfl⟩
    | some v =>
      by_cases low : v < c.settings.target - c.settings.holdDepth
      · exact .inl ⟨.heldBelowDepth, nofun, correction_held _ _ _ mode (if_pos low)⟩
      · exact .inr (by rw [correction_adjusted _ _ block mode rfl rfl (not_lt.1 low)])

/-- R95: with settings in their ranges, the gain is at the limit met where it has reached the desired value. -/
theorem atLimit_iff {g : LoudSettings} (range : g.InRange) (v gain : Int) :
    g.atLimit (g.desire v block) gain = true ↔
      max (-g.maxAttenuation) (min g.maxBoost (g.target - v)) ≠ g.target - v
        ∧ gain = max (-g.maxAttenuation) (min g.maxBoost (g.target - v)) := by
  obtain ⟨boost, _⟩ := range.maxBoost
  obtain ⟨attenuation, _⟩ := range.maxAttenuation
  unfold LoudSettings.atLimit LoudSettings.desire LoudSettings.hold clampInt
  dsimp only
  generalize g.target - v = raw
  by_cases met : max (-g.maxAttenuation) (min g.maxBoost raw) = raw
  · rw [if_pos met]
    exact iff_of_false nofun fun h => h.1 met
  · rw [if_neg met]
    by_cases below : max (-g.maxAttenuation) (min g.maxBoost raw) < raw
    · rw [if_pos below]
      simp only [decide_eq_true_eq]
      omega
    · rw [if_neg below]
      simp only [decide_eq_true_eq]
      omega

end

/-! ## The gain schedule (R98 to R102) -/

section
variable {x : Program} (now : Time) (block : Nat)

/-- With its first entry still ahead the schedule stands. -/
theorem applyDue_ahead (ahead : ∀ e, x.out.schedule.head? = some e →
    ((now - BitVec.ofNat 48 x.lineDelay) - e.due).msb = true) : x.applyDue now = x := by
  have none : (x.out.schedule.takeWhile fun e => reached e.due (x.outputIndex now)) = [] := by
    cases entries : x.out.schedule with
    | nil => rfl
    | cons e rest => simp [reached, Program.outputIndex, ahead e (congrArg _ entries)]
  unfold Program.applyDue
  rw [none]
  rfl

/-- The value that the next change of gain is compared with (R98). -/
def Program.newestGain (x : Program) : Int := ((x.out.schedule.getLast?).map GainEntry.value).getD x.out.applied

theorem postDue_eq : x.postDue now =
    let first := now - BitVec.ofNat 48 (min x.lineDelay x.corr.settings.lookAhead)
    match x.out.schedule.getLast? with
    | some e => if (first - e.due).msb then e.due else first
    | none => first := by
  unfold Program.postDue
  dsimp only
  cases x.out.schedule.getLast? with
  | none => rfl
  | some e =>
    dsimp only
    unfold reached
    cases ((now - BitVec.ofNat 48 (min x.lineDelay x.corr.settings.lookAhead)) - e.due).msb <;> rfl

theorem post_same (same : x.corr.gain = x.newestGain) : x.post now block = x := if_pos same

/-- R98: a change whose due index is reached is applied at once. -/
theorem post_atOnce (moved : x.corr.gain ≠ x.newestGain) (due : (x.outputIndex now - x.postDue now).msb = false) :
    x.post now block = x.setApplied x.corr.gain := by
  have now_due : reached (x.postDue now) (x.outputIndex now) = true := by rw [reached, due]; rfl
  exact (if_neg moved).trans (if_pos now_due)

/-- R98, R99: another change is put behind the entries held, the oldest of 128 applied first. -/
theorem post_behind (moved : x.corr.gain ≠ x.newestGain) (ahead : (x.outputIndex now - x.postDue now).msb = true) :
    x.post now block = { x.makeRoom with out :=
      { x.makeRoom.out with schedule := x.makeRoom.out.schedule ++ [⟨block, x.corr.gain, x.postDue now⟩] } } := by
  have not_due : ¬reached (x.postDue now) (x.outputIndex now) = true := by
    rw [reached, ahead]
    exact Bool.false_ne_true
  exact (if_neg moved).trans (if_neg not_due)

theorem makeRoom_short (short : x.out.schedule.length < 128) : x.makeRoom = x := by
  unfold Program.makeRoom
  split
  · exact if_neg (not_le.2 short)
  · rfl

theorem makeRoom_full {e : GainEntry} {rest : List GainEntry} (entries : x.out.schedule = e :: rest)
    (full : 128 ≤ x.out.schedule.length) :
    x.makeRoom = { x with out := { x.out with schedule := rest } }.setApplied e.value := by
  unfold Program.makeRoom
  rw [entries] at full ⊢
  exact if_pos full

theorem setApplied_schedule (v : Int) : (x.setApplied v).out.schedule = x.out.schedule :=
  Program.retotal_out_schedule _

theorem setApplied_applied (v : Int) : (x.setApplied v).out.applied = v := Program.retotal_out_applied _

end

end Sys2Proof.Machine

end

section
/-! PROOF. The block end of every program (O48): each record that is put in the place of another holds what its own
block end makes of it. -/

namespace Sys2Proof.Machine

variable {s : State} {p : Fin 16} {x y : Program} {now : Time}

/-! ## What the posting of a change of gain leaves -/

theorem setApplied_record (v : Int) (x : Program) : x.setApplied v = { x with out := (x.setApplied v).out } := by
  unfold Program.setApplied
  rw [retotal_eq]
  rfl

theorem makeRoom_record (x : Program) : x.makeRoom = { x with out := x.makeRoom.out } := by
  unfold Program.makeRoom
  split
  · split
    · rw [setApplied_record]
    · rfl
  · rfl

theorem post_record (now : Time) (block : Nat) (x : Program) :
    x.post now block = { x with out := (x.post now block).out } := by
  unfold Program.post
  dsimp only
  split
  · rfl
  · split
    · rw [setApplied_record]
    · rw [makeRoom_record]

/-- What the output index has reached applied, and a change of gain posted, as a block end does it. -/
def Program.scheduled (now : Time) (block : Nat) (x : Program) : Program := (x.applyDue now).post now block

theorem scheduled_record (now : Time) (block : Nat) (x : Program) :
    x.scheduled now block = { x with out := (x.scheduled now block).out } := by
  have applied := applyDue_record now x
  unfold Program.scheduled
  generalize x.applyDue now = w at applied ⊢
  calc w.post now block
      = { w with out := (w.post now block).out } := post_record ..
    _ = { x with out := (w.post now block).out } := by
      generalize (w.post now block).out = o
      rw [applied]

/-! ## One program -/

/-- The index of the block that ends at a house sample (R71). -/
def blockOf (now : Time) : Nat := now.toNat / 4800 - 1

/-- A program's record is what its block end makes of another: the measurement, the correction and the channels, and the
output stage after the gain schedule has been brought up to date and a change of gain posted. -/
structure BlockEnded (now : Time) (x y : Program) : Prop where
  loud : y.loud = x.loud.endBlock now (blockOf now) (blockPower x.channels)
  corr : y.corr =
    (x.corr.endBlock (x.loud.validity == .valid) y.loud.shortTerm (blockOf now)).judgeLoud y.loud.shortTerm
  channels : y.channels = x.channels.map Channel.endBlock
  out : y.out = ({ x with loud := y.loud, corr := y.corr, channels := y.channels }.scheduled now (blockOf now)).out

theorem blockEnd_eq (open_ : x.loud.blockTaken = false) : x.blockEnd now =
    let l := x.loud.endBlock now (blockOf now) (blockPower x.channels)
    let c := (x.corr.endBlock (x.loud.validity == .valid) l.shortTerm (blockOf now)).judgeLoud l.shortTerm
    { x with loud := l, corr := c, channels := x.channels.map Channel.endBlock }.scheduled now (blockOf now) := by
  unfold Program.blockEnd
  rw [open_]
  rfl

/-- A block end keeps everything but the measurement, the correction, the channels and the output stage. -/
theorem blockEnd_record (open_ : x.loud.blockTaken = false) : x.blockEnd now =
    { x with
      loud := (x.blockEnd now).loud, corr := (x.blockEnd now).corr, channels := (x.blockEnd now).channels
      out := (x.blockEnd now).out } := by
  rw [blockEnd_eq open_]
  dsimp only
  rw [scheduled_record]

theorem blockEnd_ended (open_ : x.loud.blockTaken = false) : BlockEnded now x (x.blockEnd now) := by
  rw [blockEnd_eq open_]
  dsimp only
  generalize made : Program.scheduled now (blockOf now) _ = y
  have record := made.symm.trans (scheduled_record ..)
  have loud : y.loud = _ := congrArg Program.loud record
  have corr : y.corr = _ := congrArg Program.corr record
  have channels : y.channels = _ := congrArg Program.channels record
  refine ⟨loud, by rw [corr, loud], channels, ?_⟩
  rw [loud, corr, channels]
  exact congrArg Program.out made.symm

/-- Once taken, a block end is noted as taken. -/
theorem blockEnd_taken (open_ : x.loud.blockTaken = false) : (x.blockEnd now).loud.blockTaken = true := by
  rw [(blockEnd_ended open_).loud, endBlock_record]
  rfl

/-- The record that stands in the program's place has the block end's measurement, correction, channels and output. -/
theorem standing_ended (open_ : x.loud.blockTaken = false) :
    BlockEnded now x (Program.standing now x (x.blockEnd now)) := by
  have line : (x.blockEnd now).lineDelay = x.lineDelay := by rw [blockEnd_record open_]; rfl
  obtain ⟨loud, corr, channels, out⟩ := blockEnd_ended (now := now) open_
  rw [standing_eq, if_pos line]
  exact ⟨loud, corr, channels, out⟩

/-! ## Every program -/

theorem blockEnd_due (nonzero : s.counter ≠ 0) (due : s.counter.toNat % 4800 = 0) :
    s.blockEnd = forAll allPrograms (fun p s => s.progStep p (Program.blockEnd s.counter)) s := if_pos ⟨due, nonzero⟩

/-- At a block end each program's own block end is taken, once. -/
theorem blockEnd_program (nonzero : s.counter ≠ 0) (due : s.counter.toNat % 4800 = 0) (defined : s.program p = some x)
    (open_ : x.loud.blockTaken = false) :
    s.blockEnd.program p = some (Program.standing s.counter x (x.blockEnd s.counter)) := by
  rw [blockEnd_due nonzero due]
  refine forAll_reaches (P := fun u => u.counter = s.counter ∧ u.program p = some x)
    (Q := fun u => u.program p = some (Program.standing s.counter x (x.blockEnd s.counter))) (mem_allPrograms p)
    allPrograms_nodup ?_ ?_ ?_ ⟨rfl, defined⟩
  · rintro q u ne ⟨counter, stands⟩
    exact ⟨(keepsOutside_progStep ..).counter.trans counter, (progStep_program_ne q p _ u ne).trans stands⟩
  · rintro u ⟨counter, stands⟩
    have moves : x.blockEnd u.counter ≠ x := fun same => by
      have taken := blockEnd_taken (now := u.counter) open_
      rw [same, open_] at taken
      cases taken
    rw [progStep_put stands moves, putProgram_program, counter]
  · exact fun q u ne stands => (progStep_program_ne q p _ u ne).trans stands

/-- A block end changes nothing outside the programs, the raw conditions and the link, and defines no program. -/
theorem blockEnd_keeps (nonzero : s.counter ≠ 0) (due : s.counter.toNat % 4800 = 0) : KeepsOutside s s.blockEnd
    ∧ KeepsSettings s.alarm s.blockEnd.alarm ∧ ∀ p, s.program p = none → s.blockEnd.program p = none := by
  rw [blockEnd_due nonzero due]
  have step (p : Fin 16) (u : State) := onlyProgram_progStep p (Program.blockEnd u.counter) u
  refine ⟨forAll_rel .refl (fun _ _ _ => .trans) _ (fun p u => (step p u).outside) s,
    forAll_rel (R := fun u v => KeepsSettings u.alarm v.alarm) (fun _ => .refl _) (fun _ _ _ => .trans) _
      (fun p u => (step p u).settings) s,
    fun p vacant => forAll_keeps (P := fun u => u.program p = none) _ (fun q u still => ?_) vacant⟩
  by_cases same : q = p
  · rw [same, progStep_vacant still]
    exact still
  · exact (progStep_program_ne q p _ u same).trans still

end Sys2Proof.Machine

end

section
/-! PROOF. What stands in a program's record after its block end (O48). -/

namespace Sys2Proof.Machine

variable {x y : Program} {now : Time}

/-- R72: the program block power, with the weights of the roles written out. -/
theorem blockPower_eq {weight : Role → Nat} (same : ∀ role, role.weight = weight role) (chs : List Channel) :
    let sum := Power.sum (chs.map fun ch => ⟨weight ch.role * ch.energy.mant, ch.energy.shift⟩)
    blockPower chs = Power.carry sum.mant (100 * 2 ^ sum.shift) := by
  simp only [← same]
  rfl

namespace BlockEnded

variable (h : BlockEnded now x y)
include h

/-- The integrated value is worked out last, from the histogram that then stands. -/
theorem integrated : ∃ l : Loud, y.loud = l.integrate ∧ l.hist = y.loud.hist :=
  ⟨_, h.loud.trans (endBlock_eq ..), by rw [h.loud, endBlock_record]⟩

theorem ring : y.loud.ring = x.loud.ringWith (blockOf now) (blockPower x.channels) := by
  rw [h.loud, endBlock_record]
  rfl

theorem momentary : y.loud.momentary = (momentaryPower y.loud.ring).bind Power.loudness := by
  rw [h.ring, h.loud, endBlock_record]
  rfl

theorem shortTerm : y.loud.shortTerm = shortTermOf y.loud.ring := by
  rw [h.ring, h.loud, endBlock_record]
  rfl

theorem hist : y.loud.hist = x.loud.histWith now (blockOf now) (blockPower x.channels) := by
  rw [h.loud, endBlock_record]
  rfl

/-- R74, R76: the marks start again, and what a block end does not measure stands. -/
theorem rest : y.loud.markPreparing = false ∧ y.loud.markLane = false ∧ y.loud.markHold = false
    ∧ y.loud.start = x.loud.start ∧ y.loud.paused = x.loud.paused := by
  rw [h.loud, endBlock_record]
  exact ⟨rfl, rfl, rfl, rfl, rfl⟩

theorem count : y.loud.count = histCount y.loud.hist := by
  obtain ⟨l, made, hist⟩ := h.integrated
  rw [← hist, made]
  exact integrate_count l

theorem empty (zero : histCount y.loud.hist = 0) :
    y.loud.integrated = none ∧ y.loud.gatedCount = 0 ∧ y.loud.gate = none := by
  obtain ⟨l, made, hist⟩ := h.integrated
  rw [made, integrate_empty l (hist ▸ zero)]
  exact ⟨rfl, rfl, rfl⟩

theorem filled (nonzero : histCount y.loud.hist ≠ 0) :
    let all := Power.sum (y.loud.hist.map HistBin.power)
    let gated := y.loud.hist.filter fun b => passesGate all.mant (histCount y.loud.hist * 2 ^ all.shift) b.bin
    let kept := Power.sum (gated.map HistBin.power)
    y.loud.gatedCount = histCount gated
      ∧ y.loud.integrated = loudness kept.mant (histCount gated * 2 ^ kept.shift)
      ∧ y.loud.gate = (loudness all.mant (histCount y.loud.hist * 2 ^ all.shift)).map (· - 100) := by
  obtain ⟨l, made, hist⟩ := h.integrated
  rw [← hist, made, integrate_filled l (hist ▸ nonzero)]
  exact ⟨rfl, rfl, rfl⟩

/-- R92 to R95: but for PROG_LOUD, the correction is what the block end makes of it. -/
theorem corrected {c : Correction}
    (made : x.corr.endBlock (x.loud.validity == .valid) y.loud.shortTerm (blockOf now) = c) :
    ∃ l, y.corr = { c with loud := l } := ⟨_, by rw [h.corr, made]; rfl⟩

theorem settings : y.corr.settings = x.corr.settings := by
  obtain ⟨l, made⟩ := h.corrected rfl
  rw [made]
  exact Correction.endBlock_settings ..

theorem off (mode : x.corr.settings.mode = .off) :
    y.corr.gain = 0 ∧ y.corr.hold = .off ∧ y.corr.desired = none ∧ y.corr.gainLimit = false := by
  obtain ⟨l, corr⟩ := h.corrected (correction_off _ _ _ mode)
  rw [corr]
  exact ⟨rfl, rfl, rfl, rfl⟩

theorem freeze (mode : x.corr.settings.mode = .freeze) :
    y.corr.gain = x.corr.gain ∧ y.corr.hold = .frozen ∧ y.corr.desired = none ∧ y.corr.gainLimit = false := by
  obtain ⟨l, corr⟩ := h.corrected (correction_freeze _ _ _ mode)
  rw [corr]
  exact ⟨rfl, rfl, rfl, rfl⟩

theorem held {why : HoldState} (mode : x.corr.settings.mode = .track)
    (holds : x.corr.settings.holds (x.loud.validity == .valid) y.loud.shortTerm = some why) :
    y.corr.gain = x.corr.gain ∧ y.corr.hold = why := by
  obtain ⟨l, corr⟩ := h.corrected (correction_held _ _ _ mode holds)
  rw [corr]
  exact ⟨rfl, rfl⟩

/-- While TRACK holds the gain, the last desired value stands. -/
theorem desired_stands (mode : x.corr.settings.mode = .track) (held : y.corr.hold ≠ .adjusted) :
    y.corr.desired = x.corr.desired ∧ y.corr.gainLimit = x.corr.gainLimit := by
  obtain ⟨why, _, record⟩ | adjusted :=
    correction_track (x.loud.validity == .valid) y.loud.shortTerm (blockOf now) mode
  · obtain ⟨l, corr⟩ := h.corrected record
    rw [corr]
    exact ⟨rfl, rfl⟩
  · obtain ⟨l, corr⟩ := h.corrected rfl
    rw [corr] at held
    exact absurd adjusted held

/-- R96: PROG_LOUD is judged by the gain and the short-term value that stand. -/
theorem judged : y.corr.loud = { x.corr with gain := y.corr.gain }.isLoud y.loud.shortTerm := by
  have judged : y.corr.loud = y.corr.isLoud y.loud.shortTerm := by
    rw [h.corr]
    rfl
  rw [judged]
  unfold Correction.isLoud
  rw [h.settings]

/-- R98 to R100: the gain schedule after what the output index has reached, and a change of gain. -/
theorem posted {done held : List GainEntry} (split : x.out.schedule = done ++ held)
    (due : ∀ e ∈ done, ((now - BitVec.ofNat 48 x.lineDelay) - e.due).msb = false)
    (ahead : ∀ e, held.head? = some e → ((now - BitVec.ofNat 48 x.lineDelay) - e.due).msb = true) :
    ∃ w : Program, y.out = (w.post now (blockOf now)).out ∧ w.corr = y.corr ∧ w.lineDelay = x.lineDelay
      ∧ w.out.schedule = held ∧ w.out.applied = ((done.getLast?).map GainEntry.value).getD x.out.applied
      ∧ (done = [] → w.out = x.out) := by
  obtain ⟨schedule, applied, _⟩ := applyDue_split
    (x := { x with loud := y.loud, corr := y.corr, channels := y.channels }) split due ahead
  refine ⟨_, h.out, applyDue_corr .., by rw [applyDue_record]; rfl, schedule, applied, fun none => ?_⟩
  rw [applyDue_ahead now (x := { x with loud := y.loud, corr := y.corr, channels := y.channels })
    (by rw [none] at split; rw [split]; exact ahead)]

end BlockEnded

end Sys2Proof.Machine

end

section
open Sys2Proof Sys2Proof.Machine

/-- Settles O48: the figures and the rounding are exact as R71 and R73 have them, a block end of the house counter is
one of each program (`BlockEnded`), and its measurement, correction and posting are an equation for each case. -/
theorem blockEndsMeasureAndCorrect : Obligations.BlockEndsMeasureAndCorrect := by
  unfold Obligations.BlockEndsMeasureAndCorrect
  intro exceeds
  have ratio : exceeds = atLeastPow10 := rfl
  clear_value exceeds
  subst ratio
  refine ⟨fun s none => ?_, fun num den => ⟨fun zero => zero ▸ loudness_zero den, carry_zero den, carry_near,
    loudness_rounds⟩, sum_exact, addCarried_eq,
    fun h j w rising => ⟨histAdd_rising rising, fun i => histAdd_find_ne, ?_⟩, fun s nonzero due => ?_⟩
  · exact congrArg _ (if_neg fun due => none.elim due.2 fun apart => apart due.1)
  · rw [histAdd_find rising]
    cases h.find? fun b => b.bin == j with
    | none => rfl
    | some b =>
      unfold HistBin.accepted
      by_cases full : 2 ^ 32 - 1 ≤ b.count
      · simp only [Option.map_some, Option.getD_some, if_neg (not_lt.2 full), if_pos full]
      · simp only [Option.map_some, Option.getD_some, if_pos (not_le.1 full), if_neg full]
  obtain ⟨outside, settings, vacant⟩ := blockEnd_keeps nonzero due
  refine ⟨s.blockEnd, rfl, outside, settings, vacant, fun p x defined open_ range =>
    ⟨_, blockEnd_program nonzero due defined open_, ?_⟩⟩
  have ended := standing_ended (now := s.counter) open_
  generalize Program.standing s.counter x (x.blockEnd s.counter) = y at ended ⊢
  intro k validity energy sum power last window valid mean n all gated kept g
  have blockPower : blockPower x.channels = power := blockPower_eq (fun role => by cases role <;> rfl) x.channels
  have ring := ended.ring
  have hist := ended.hist
  obtain ⟨markPreparing, markLane, markHold, start, paused⟩ := ended.rest
  have momentary : y.loud.momentary = _ := ended.momentary.trans (momentary_eq _)
  refine ⟨?_, markPreparing, markLane, markHold, ended.channels, momentary, ended.shortTerm, ?_, ?_, ended.count,
    ended.empty, ended.filled, start, paused, ended.off, ended.freeze, ?_, ?_, ?_, ended.desired_stands, ?_, ?_, ?_⟩
  · rw [ring, blockPower]
    rfl
  · intro m value high running unpaused apart
    rw [ended.momentary, ring] at value
    have added := histWith_accepted _ _ _ _ value high running unpaused apart
    rw [← hist, ← ring] at added
    exact added
  · intro left
    rw [ended.momentary, ring] at left
    exact hist.trans (histWith_left _ _ _ _ left)
  · intro mode invalid
    exact ended.held mode (by rw [beq_eq_false_iff_ne.2 (show x.loud.validity ≠ .valid from invalid)]; rfl)
  · intro mode sound absent
    exact ended.held mode (by rw [beq_iff_eq.2 (show x.loud.validity = .valid from sound), absent]; rfl)
  · intro st mode sound value low
    refine ended.held mode ?_
    rw [beq_iff_eq.2 (show x.loud.validity = .valid from sound), value]
    exact if_pos low
  · intro st mode sound value deep want
    obtain ⟨l, corr⟩ := ended.corrected (correction_adjusted _ _ _ mode (beq_iff_eq.2 sound) value deep)
    have limit := atLimit_iff k range st y.corr.gain
    rw [corr] at limit ⊢
    refine ⟨rfl, rfl, fun below => if_pos below, fun above => ?_, fun same => ?_, limit⟩
    · exact (if_neg (not_lt.2 (le_of_lt above))).trans (if_pos above)
    · exact ((if_neg same.not_lt).trans (if_neg same.not_gt)).trans same
  · rw [ended.judged]
    cases y.loud.shortTerm <;> rfl
  · intro done held split out due ahead applied newest first dueIndex posted
    obtain ⟨w, wOut, wCorr, wLine, wSchedule, wApplied, wSame⟩ := ended.posted split due ahead
    have gain : w.corr.gain = y.corr.gain := by rw [wCorr]
    have wNewest : w.newestGain = newest := by
      unfold Program.newestGain
      rw [wSchedule, wApplied]
    have wDue : w.postDue s.counter = dueIndex := by
      have placed := postDue_eq (x := w) s.counter
      rw [wSchedule, wLine, wCorr, ended.settings] at placed
      exact placed
    have wIndex : w.outputIndex s.counter = out := by rw [Program.outputIndex, wLine]
    have change (moved : y.corr.gain ≠ newest) : w.corr.gain ≠ w.newestGain := by rwa [gain, wNewest]
    refine ⟨fun same => ?_, fun moved now_due => ?_, fun moved later short => ?_,
      fun e rest entries moved later full => ?_⟩
    · rw [wOut, post_same _ _ (gain.trans (same.trans wNewest.symm))]
      exact ⟨wSchedule, wApplied, wSame⟩
    · rw [wOut, post_atOnce _ _ (change moved) (by rw [wIndex, wDue]; exact now_due)]
      exact ⟨(setApplied_schedule _).trans wSchedule, (setApplied_applied _).trans gain⟩
    · rw [wOut, post_behind _ _ (change moved) (by rw [wIndex, wDue]; exact later),
        makeRoom_short (by rw [wSchedule]; exact short), wSchedule, gain, wDue]
      exact ⟨rfl, wApplied⟩
    · rw [wOut, post_behind _ _ (change moved) (by rw [wIndex, wDue]; exact later),
        makeRoom_full (wSchedule.trans entries) (by rw [wSchedule]; exact full), setApplied_schedule,
        setApplied_applied, gain, wDue]
      exact ⟨rfl, rfl⟩

end
